-- ==== Sys2Proof/Word.lean ====
section
/-! DEFINITION. The word types of the SL-960 and their plainest arithmetic (spec/00, R8, R9). -/

namespace Sys2Proof

/-- A byte (R9). -/
abbrev Byte := BitVec 8

/-- A word of 8 bytes (R9). -/
abbrev Word := BitVec 64

/-- The contents of a v register, 128 bytes (R53). -/
abbrev VReg := BitVec 1024

/-- The 96 bits of an instruction (R34). -/
abbrev IWord := BitVec 96

/-- Die number within the package (R5). -/
abbrev DieNo := Fin 8

/-- Core number within a die (R3). -/
abbrev CoreNo := Fin 256

/-- Cluster number within a die (R3). -/
abbrev ClusterNo := Fin 16

end Sys2Proof
end

