-- ==== Sys2Proof/Config.lean ====
section
/-! DEFINITION. What the manual leaves open: free values, as constants with no body. Nothing in Lean can evaluate
them, so whatever is proved holds for every value of them. -/

namespace Sys2Proof

/-- Free value number `n`: each use in a step has a number of its own (log 6). -/
opaque Config.freeValue : Nat → BitVec 64

/-- The 64-bit source value that seeds the stochastic rounding of a v register's store through a window, which the manual
does not name: a function of the register's value (R163, R244, R252, log 94). -/
opaque Config.vectorSource : BitVec 1024 → BitVec 64

/-- The identity of the part on the CXL switch, as the fabric manager assigned it (R387, log 104). -/
opaque Config.poolIdentity : BitVec 12

/-- Who takes part on other packages in a barrier of a job, as package number times 8 plus die: job, world, tag, epoch
(R230, log 6). -/
opaque Config.jobDies : Nat → Nat → Nat → Nat → List Nat

/-- The keystream of a line: the 128-bit scrambler key and the line's address give 64 bytes (R372, log 20). -/
opaque Config.mask : Nat → Nat → BitVec 512

/-- A live measurement of the memory behind index 1 to 12, where the image given, by offset, has been loaded (R377, R378,
R418, log 21). -/
opaque Config.measure : Nat → List (Nat × Byte) → BitVec 256

/-- A live measurement of the configuration, index 13: the job id, the words of the partition map and of the export table that
are not zero, by address, and the slices lent out with their borrowers (R377, R378, log 21). -/
opaque Config.measureMap : Nat → List (Nat × BitVec 64) → List (Nat × Nat) → BitVec 256

/-- Does an image, by offset, verify under the vendor key of the fuses? (R417, R418, log 71). -/
opaque Config.imageOk : List (Nat × Byte) → Bool

/-- An ECDSA P-256 signature, r and s, of a digest by the attestation key, drawn as number `n` (R376, R381,
log 21). -/
opaque Config.sign : Nat → BitVec 256 → BitVec 256 × BitVec 256

/-- The body of an SPDM response whose bytes the manual does not give: request code, payload, draw (R376, log 22). -/
opaque Config.spdm : Nat → List Byte → Nat → List Byte

/-- Does a secured message or a handshake of an SPDM session verify? (R376, log 22). -/
opaque Config.spdmOk : Nat → List Byte → Bool

end Sys2Proof
end

