-- ==== Sys2Proof/Syntax.lean ====
section
/-! DEFINITION. The instructions of the SL-960 and the events of its own (spec/opcode_table.json): one
constructor of `Instr` per row of the table. The fields of an instruction are those of chapter 02 after
decoding; the data of an event are what the outside, or the part's own choice, brings to that step. -/

namespace Sys2Proof

/-! ## Operands (R35, R36) -/

/-- Guard and hints of an instruction word, bits [87:84] and [79:72] (R34, R37, R38, R39). -/
structure Ctl where
  neg    : Bool
  pred   : Fin 8
  stall  : BitVec 4
  yield  : Bool
  reuse  : Bool
  loc    : BitVec 2
  deriving DecidableEq, Repr

/-- An x register read as a source; `bang` is bit [18], trap with empty_operand (R35). -/
structure XSrc where
  reg  : Fin 64
  bang : Bool
  deriving DecidableEq, Repr

/-- A v register read as a source (R35). -/
structure VSrc where
  reg  : Fin 32
  bang : Bool
  deriving DecidableEq, Repr

/-- A p register read as a source (R35). -/
structure PSrc where
  reg  : Fin 8
  bang : Bool
  deriving DecidableEq, Repr

/-- An x register or a short immediate, "x/i" of R66. -/
inductive XI where
  | x (r : XSrc)
  | i (imm : BitVec 22)
  deriving DecidableEq, Repr

/-- Addressing mode, bits [15:14] of the memory form (R35). -/
inductive MemMode where
  | own | lin | ilv | global
  deriving DecidableEq, Repr

/-- A memory operand (R35). -/
structure MemOp where
  base : Fin 64
  mode : MemMode
  disp : BitVec 14
  deriving DecidableEq, Repr

/-- A register of file x, v or p, "r" of R92. -/
inductive AnyReg where
  | x (r : Fin 64)
  | v (r : Fin 32)
  | p (r : Fin 8)
  deriving DecidableEq, Repr

/-- An s operand of the vector engine (R261). -/
inductive SOp where
  | v (r : VSrc)
  | x (r : XSrc)
  | i (imm : BitVec 22)
  deriving DecidableEq, Repr

/-- Field C of `VFMA` (R261). -/
inductive VOrX where
  | v (r : VSrc)
  | x (r : XSrc)
  deriving DecidableEq, Repr

/-- Width of an integer operation: function bit [3] (R43). -/
inductive Width where
  | w32 | w64
  deriving DecidableEq, Repr

/-- Saturation of `ADD` and `SUB` (R43). -/
inductive SatMode where
  | wrap | sat | usat
  deriving DecidableEq, Repr

/-- Condition of `CMP` (R43). -/
inductive CmpCond where
  | eq | ne | lt | le | ltu | leu | any
  deriving DecidableEq, Repr

/-- Target of `CALL` (R42). -/
inductive CallTarget where
  | rel (imm : BitVec 22)
  | ind (t : XSrc)
  deriving DecidableEq, Repr

/-- The two forms of `MOV` (R66). -/
inductive MovArgs where
  | x (d : Fin 64) (a : XI)
  | p (d : Fin 8) (a : PSrc)
  deriving DecidableEq, Repr

/-- The two forms of `PMOV` (R43, R66). -/
inductive PmovArgs where
  | tox (d : Fin 64)
  | fromx (a : XI)
  deriving DecidableEq, Repr

/-- The special registers (R64). -/
inductive Special where
  | idPkg | idDie | idCluster | idCore | idLcore | idItem | lnItems | lnSeed | lnWorld | lnRegion
  | cxId | cxSlot | arFlags | arNanpos | arNanfmt | arCause | cyc | bwTimeout | feRlim | srMode
  deriving DecidableEq, Repr

/-- Format of scalar floating point, function bits [3:2] (R44). -/
inductive FFmt where
  | f64 | f32 | f16 | bf16
  deriving DecidableEq, Repr

/-- Rounding modes (R241). Scalar arithmetic admits the first four. -/
inductive Rnd where
  | rne | rtz | rup | rdn | sr
  deriving DecidableEq, Repr

/-- Condition of `FCMP` (R44). -/
inductive FCond where
  | eq | lt | le | un
  deriving DecidableEq, Repr

/-- Element types, the codes of R49. -/
inductive ElemType where
  | i64 | i32 | i16 | i8 | u8 | f64 | f32 | f16 | bf16 | e4m3 | e5m2 | t2
  deriving DecidableEq, Repr

/-- Access size of `LD` and `ST` (R45). -/
inductive MSize where
  | b8 | b16 | b32 | b64
  deriving DecidableEq, Repr

/-- Synchronisation mode of loads (R45). -/
inductive LdMode where
  | plain | wait | consume
  deriving DecidableEq, Repr

/-- Synchronisation mode of stores (R45). -/
inductive StMode where
  | plain | fill | wefill | empty
  deriving DecidableEq, Repr

/-- Scopes of `FENCE` (R45, R174). -/
inductive Scope where
  | core | die | pkg | job | sys
  deriving DecidableEq, Repr

/-- Operations of `RED` (R46). -/
inductive RedOp where
  | add | and | or | xor | min | max | minu | maxu
  deriving DecidableEq, Repr

/-- Modes of a phaser member (R47). -/
inductive PhMode where
  | sig | wait | sw
  deriving DecidableEq, Repr

/-- Directions of the barrier wires (R47). -/
inductive BwDir where
  | row | col | both
  deriving DecidableEq, Repr

/-- Scopes of `NBARR` (R47). -/
inductive NbScope where
  | launch | pkg | job
  deriving DecidableEq, Repr

/-- Payload of `SEND` and `SENDH` (R92). -/
inductive SendPayload where
  | reg (a : XI)
  | line (m : MemOp)
  deriving DecidableEq, Repr

/-- Policies of `VWLD` (R50); `.staleok` names its predicate. -/
inductive VwPolicy where
  | wait | staleok (pd : Fin 8) | trap
  deriving DecidableEq, Repr

/-- Selectors of `VWGEN` (R334). -/
inductive VwSel where
  | tag | gen | status
  deriving DecidableEq, Repr

/-! ## Data of the events -/

/-- One lane of barrier wires of a die (R226). -/
inductive LaneId where
  | row (r : Fin 16)
  | col (c : Fin 16)
  | both
  deriving DecidableEq, Repr

/-- A slice: cluster `s mod 16` of die `s div 16` (R393). -/
abbrev SliceNo := Fin 128

/-- A dissemination notice (R231). -/
structure NbNotice where
  world : BitVec 16
  scope : NbScope
  tag   : BitVec 8
  epoch : Nat
  round : Nat
  deriving DecidableEq, Repr

/-- What a fabric request asks of its home (R346). -/
inductive FabOp where
  | load (size : Nat)
  | syncLoad (size : Nat) (consume : Bool)
  | store (size : Nat) (data : BitVec 1024) (mode : StMode)
  | atomic (op : RedOp) (w64 : Bool) (data : BitVec 64) (ret : Bool)
  | swap (w64 : Bool) (data : BitVec 64)
  | cas (w64 : Bool) (expect data : BitVec 64)
  | fadd (data : BitVec 32)
  | feset (full : Bool)
  | feget
  /-- `full` is the error status of a wait that its sender has no entry for, 0 where it has one (R205, R206) -/
  | waita (w64 : Bool) (expect : BitVec 64) (full : BitVec 8)
  | wakea (n : BitVec 16)
  | flag (size : Nat) (data : BitVec 1024) (mode : StMode) (c0 c1 c2 c3 : BitVec 32)
  | message (chan : Fin 64) (core : CoreNo) (die : DieNo) (hdr item : BitVec 64) (hpc : Option (BitVec 64))
      (payload : List (BitVec 64)) (lid : Nat)
  /-- an engine's poison where it would have written (R306) -/
  | poison (size : Nat) (mode : StMode)
  /-- the wait that the sender's request `seq` asked for has ended at the sender (R143, R205, R403; log 110) -/
  | unwait (seq : Nat)
  /-- a notice of a dissemination barrier (R231) -/
  | notice (n : NbNotice)
  deriving DecidableEq, Repr

/-- A request of the scale-up fabric as it reaches this package (R341, R346, R348, R349). -/
structure FabReq where
  srcPkg : BitVec 14
  srcDie : DieNo
  seq    : Nat
  path   : Fin 4
  job    : BitVec 16
  world  : BitVec 16
  off    : Nat
  rlim   : Nat
  die    : DieNo
  op     : FabOp
  deriving DecidableEq, Repr

/-- What an acknowledgement brings back (R346): `retry` turns the request back, `dead` is a flag held too long (R349). -/
inductive FabAck where
  | performed (data : BitVec 1024)
  | refused
  | retry
  | poisoned
  | dead
  /-- a synchronising access has been admitted to the retry list of its home (R167), or a `WAITA` waits there (R204) -/
  | admitted
  deriving DecidableEq, Repr

/-- A request-to-send with its prefix (R356). -/
structure Rts where
  srcPkg : BitVec 14
  srcDie : DieNo
  sendId : Nat
  world  : BitVec 16
  job    : BitVec 16
  tag    : BitVec 64
  len    : Nat
  data   : List Byte
  deriving DecidableEq, Repr

/-- Bulk data under a token (R357, R359); `seq` is the token's sequence number. -/
structure BulkFlit where
  seq  : BitVec 32
  off  : Nat
  data : List Byte
  deriving DecidableEq, Repr

/-- A pull token as it reaches the sending NI (R357). -/
structure TokenMsg where
  sendId : Nat
  seq    : BitVec 32
  off    : Nat
  len    : Nat
  deriving DecidableEq, Repr

/-- A notice about a send of this NI, or about the post of this NI that a send of another is matched with: a post is
named by that send (R357, R363). -/
inductive BulkNotice where
  | send (id : Nat)
  | post (id : Nat)
  deriving DecidableEq, Repr

/-- An SPDM request as the Trust Controller receives it (R376): the session it came in, if any, the
certificate slot it names, and its vendor payload. -/
structure SpdmReq where
  session : Option Nat
  slot    : Nat
  payload : List Byte
  deriving DecidableEq, Repr

/-- Supply rails (R413). -/
inductive Rail where
  | vcore | vsram | vdram | vio | vaux
  deriving DecidableEq, Repr

/-- Causes of a package reset (R416). -/
inductive ResetCause where
  | powerOn | rail | thermal | host
  deriving DecidableEq, Repr

/-- What a flit of the crossbar or the on-die network carried when its parity failed (R408): fill `k` or buffered store `k`
of a context, an outstanding request by its handle, message `k` under way, data of a copy engine, of a view refresh or a
quantisation of a die, or of a send. -/
inductive XbarFlit where
  | fill (uid : Nat) (k : Nat)
  | store (uid : Nat) (k : Nat)
  | request (h : Nat)
  | message (k : Nat)
  | copy (d : DieNo) (c : CoreNo)
  | view (d : DieNo)
  | quant (d : DieNo)
  | send (d : DieNo) (id : Nat)
  deriving DecidableEq, Repr

/-! ## Instructions and events -/

/-- One constructor per row of spec/opcode_table.json: the 163 instructions in opcode order, then the 112
events: those of the surroundings and those without operands come last. -/
inductive Instr where
  -- control and contexts (R42, R92)
  | nop (c : Ctl)
  | bra (c : Ctl) (imm : BitVec 22)
  | bri (c : Ctl) (t : XSrc)
  | call (c : Ctl) (l : Fin 64) (t : CallTarget)
  | ret (c : Ctl) (t : XSrc)
  | loop (c : Ctl) (xc : XSrc) (imm : BitVec 22)
  | suspend (c : Ctl) (xs : Fin 64) (m : Option MemOp)
  | yield (c : Ctl)
  | spawn (c : Ctl) (xs : Fin 64) (t : XI) (ximg : XSrc)
  | done (c : Ctl)
  | trap (c : Ctl) (n : Fin 32)
  | tfence (c : Ctl) (mask : Option (BitVec 9))
  | tret (c : Ctl) (xs : Fin 64) (xid : XSrc)
  | waitr (c : Ctl) (r : AnyReg)
  | brf (c : Ctl) (full : Bool) (r : AnyReg) (imm : BitVec 22)
  -- integer and logic (R43, R66)
  | add (c : Ctl) (w : Width) (m : SatMode) (d : Fin 64) (a b : XI)
  | sub (c : Ctl) (w : Width) (m : SatMode) (d : Fin 64) (a b : XI)
  | mul (c : Ctl) (w : Width) (d : Fin 64) (a b : XI)
  | mulh (c : Ctl) (w : Width) (u : Bool) (d : Fin 64) (a b : XI)
  | div (c : Ctl) (w : Width) (u : Bool) (d : Fin 64) (a b : XI)
  | rem (c : Ctl) (w : Width) (u : Bool) (d : Fin 64) (a b : XI)
  | and (c : Ctl) (w : Width) (d : Fin 64) (a b : XI)
  | or (c : Ctl) (w : Width) (d : Fin 64) (a b : XI)
  | xor (c : Ctl) (w : Width) (d : Fin 64) (a b : XI)
  | andn (c : Ctl) (w : Width) (d : Fin 64) (a b : XI)
  | shl (c : Ctl) (w : Width) (d : Fin 64) (a b : XI)
  | shr (c : Ctl) (w : Width) (d : Fin 64) (a b : XI)
  | sar (c : Ctl) (w : Width) (d : Fin 64) (a b : XI)
  | rol (c : Ctl) (w : Width) (d : Fin 64) (a b : XI)
  | min (c : Ctl) (w : Width) (u : Bool) (d : Fin 64) (a b : XI)
  | max (c : Ctl) (w : Width) (u : Bool) (d : Fin 64) (a b : XI)
  | clz (c : Ctl) (w : Width) (d : Fin 64) (a : XI)
  | popc (c : Ctl) (w : Width) (d : Fin 64) (a : XI)
  | bext (c : Ctl) (sx : Bool) (d : Fin 64) (a ctl : XI)
  | bins (c : Ctl) (w : Width) (d : XSrc) (a ctl : XI)
  | sel (c : Ctl) (d : XSrc) (a b : XI)
  | mov (c : Ctl) (m : MovArgs)
  | movi (c : Ctl) (d : Fin 64) (imm : BitVec 48)
  | addc (c : Ctl) (w : Width) (d : Fin 64) (a b : XI)
  | abs (c : Ctl) (w : Width) (sat : Bool) (d : Fin 64) (a : XI)
  | bswap (c : Ctl) (w : Width) (d : Fin 64) (a : XI)
  | lea (c : Ctl) (d : Fin 64) (m : MemOp) (sc : Fin 4)
  | cmp (c : Ctl) (w : Width) (cond : CmpCond) (pd : Fin 8) (a b : XI)
  | plog (c : Ctl) (tt : BitVec 4) (pd : Fin 8) (pa pb : PSrc)
  | pmov (c : Ctl) (m : PmovArgs)
  | sread (c : Ctl) (d : Fin 64) (sp : Special)
  | swrite (c : Ctl) (sp : Special) (a : XI)
  -- scalar floating point (R44, R253)
  | fadd (c : Ctl) (f : FFmt) (r : Rnd) (d : Fin 64) (a b : XSrc)
  | fsub (c : Ctl) (f : FFmt) (r : Rnd) (d : Fin 64) (a b : XSrc)
  | fmul (c : Ctl) (f : FFmt) (r : Rnd) (d : Fin 64) (a b : XSrc)
  | ffma (c : Ctl) (f : FFmt) (r : Rnd) (d : XSrc) (a b : XSrc)
  | fdiv (c : Ctl) (f : FFmt) (r : Rnd) (d : Fin 64) (a b : XSrc)
  | fsqrt (c : Ctl) (f : FFmt) (r : Rnd) (d : Fin 64) (a : XSrc)
  | fmin (c : Ctl) (f : FFmt) (d : Fin 64) (a b : XSrc)
  | fmax (c : Ctl) (f : FFmt) (d : Fin 64) (a b : XSrc)
  | fcmp (c : Ctl) (f : FFmt) (cond : FCond) (pd : Fin 8) (a b : XSrc)
  | fcvt (c : Ctl) (sat : Bool) (r : Rnd) (d : Fin 64) (a : XSrc) (src dst : ElemType)
  | fclass (c : Ctl) (f : FFmt) (d : Fin 64) (a : XSrc)
  | frnd (c : Ctl) (f : FFmt) (r : Rnd) (d : Fin 64) (a : XSrc)
  -- memory (R45, R169, R185, R390)
  | ld (c : Ctl) (sz : MSize) (mode : LdMode) (d : Fin 64) (m : MemOp)
  | st (c : Ctl) (sz : MSize) (mode : StMode) (m : MemOp) (a : XI)
  | ldv (c : Ctl) (mode : LdMode) (d : Fin 32) (m : MemOp)
  | stv (c : Ctl) (mode : StMode) (m : MemOp) (a : VSrc)
  | feset (c : Ctl) (full : Bool) (m : MemOp)
  | feget (c : Ctl) (d : Fin 64) (m : MemOp)
  | pref (c : Ctl) (own : Bool) (m : MemOp)
  | wbl (c : Ctl) (m : MemOp)
  | invl (c : Ctl) (icache : Bool) (m : MemOp)
  | fence (c : Ctl) (scope : Scope) (sc : Bool) (d : Fin 64)
  | publish (c : Ctl) (xs : Fin 64) (m : MemOp) (len : XI)
  | observe (c : Ctl) (xs : Fin 64) (m : MemOp) (len : XI)
  -- atomics (R46, R200)
  | aadd (c : Ctl) (w : Width) (d : Fin 64) (m : MemOp) (b : XI)
  | aand (c : Ctl) (w : Width) (d : Fin 64) (m : MemOp) (b : XI)
  | aor (c : Ctl) (w : Width) (d : Fin 64) (m : MemOp) (b : XI)
  | axor (c : Ctl) (w : Width) (d : Fin 64) (m : MemOp) (b : XI)
  | amin (c : Ctl) (w : Width) (u : Bool) (d : Fin 64) (m : MemOp) (b : XI)
  | amax (c : Ctl) (w : Width) (u : Bool) (d : Fin 64) (m : MemOp) (b : XI)
  | aswp (c : Ctl) (w : Width) (d : Fin 64) (m : MemOp) (b : XI)
  | acas (c : Ctl) (w : Width) (d : XSrc) (m : MemOp) (b : XI)
  | afadd (c : Ctl) (d : Fin 64) (m : MemOp) (b : XSrc)
  | red (c : Ctl) (op : RedOp) (w : Width) (m : MemOp) (b : XI)
  | waita (c : Ctl) (w : Width) (d : XSrc) (m : MemOp) (e : XI)
  | wakea (c : Ctl) (d : Fin 64) (m : MemOp) (n : XI)
  -- synchronisation (R47, R222, R227, R232)
  | phnew (c : Ctl) (xs : Fin 64)
  | phreg (c : Ctl) (mode : PhMode) (xs : Fin 64) (xh : XSrc)
  | phdrop (c : Ctl) (xs : Fin 64) (xm : XSrc)
  | phsig (c : Ctl) (xs : Fin 64) (xm : XSrc)
  | phwait (c : Ctl) (xs : Fin 64) (xm : XSrc)
  | phnext (c : Ctl) (xs : Fin 64) (xm : XSrc)
  | phfree (c : Ctl) (xs : Fin 64) (xh : XSrc)
  | bwarr (c : Ctl) (dir : BwDir)
  | bwwait (c : Ctl) (dir : BwDir) (xs : Fin 64)
  | nbarr (c : Ctl) (scope : NbScope) (xs : Fin 64) (tag : XI)
  -- messages and work (R48, R92, R122)
  | send (c : Ctl) (xs : Fin 64) (dst : XSrc) (p : SendPayload)
  | sendh (c : Ctl) (xs : Fin 64) (dst : XSrc) (p : SendPayload)
  | chmask (c : Ctl) (unmask : Bool) (ch : XI)
  | chpri (c : Ctl) (ch pri : XI)
  | task (c : Ctl) (xs : Fin 64) (m : MemOp)
  | launch (c : Ctl) (xs : Fin 64) (m : MemOp)
  -- vector engine (R49, R261)
  | vadd (c : Ctl) (t : ElemType) (d : Fin 32) (a : VSrc) (b : SOp)
  | vsub (c : Ctl) (t : ElemType) (d : Fin 32) (a : VSrc) (b : SOp)
  | vmul (c : Ctl) (t : ElemType) (d : Fin 32) (a : VSrc) (b : SOp)
  | vfma (c : Ctl) (t : ElemType) (d : VSrc) (a : VSrc) (b : VOrX)
  | vmin (c : Ctl) (t : ElemType) (d : Fin 32) (a : VSrc) (b : SOp)
  | vmax (c : Ctl) (t : ElemType) (d : Fin 32) (a : VSrc) (b : SOp)
  | vabs (c : Ctl) (t : ElemType) (d : Fin 32) (a : VSrc)
  | vcmp (c : Ctl) (t : ElemType) (d : Fin 32) (a : VSrc) (b : SOp)
  | vsel (c : Ctl) (t : ElemType) (d : VSrc) (a b : VSrc)
  | vand (c : Ctl) (t : ElemType) (d : Fin 32) (a : VSrc) (b : SOp)
  | vor (c : Ctl) (t : ElemType) (d : Fin 32) (a : VSrc) (b : SOp)
  | vxor (c : Ctl) (t : ElemType) (d : Fin 32) (a : VSrc) (b : SOp)
  | vshl (c : Ctl) (t : ElemType) (d : Fin 32) (a : VSrc) (b : SOp)
  | vshr (c : Ctl) (t : ElemType) (d : Fin 32) (a : VSrc) (b : SOp)
  | vcvt (c : Ctl) (t : ElemType) (d : VSrc) (a : VSrc) (ctl : BitVec 22)
  | vrcpa (c : Ctl) (d : Fin 32) (a : VSrc)
  | vrsqa (c : Ctl) (d : Fin 32) (a : VSrc)
  | vexp2a (c : Ctl) (d : Fin 32) (a : VSrc)
  | vlog2a (c : Ctl) (d : Fin 32) (a : VSrc)
  | vred (c : Ctl) (t : ElemType) (d : Fin 32) (a : VSrc) (op : Fin 3)
  | vscan (c : Ctl) (t : ElemType) (d : Fin 32) (a : VSrc) (op : Fin 3)
  | vperm (c : Ctl) (t : ElemType) (d : Fin 32) (a b : VSrc)
  | vbcast (c : Ctl) (t : ElemType) (d : Fin 32) (a : VSrc) (k : XI)
  | vsplat (c : Ctl) (t : ElemType) (d : Fin 32) (a : XI)
  | vextr (c : Ctl) (t : ElemType) (d : Fin 64) (a : VSrc) (k : XI)
  | vamax (c : Ctl) (t : ElemType) (d : Fin 32) (a : VSrc)
  | vqnt (c : Ctl) (t : ElemType) (d : VSrc) (a : VSrc) (ctl : BitVec 22)
  | vdqnt (c : Ctl) (t : ElemType) (d : Fin 32) (a : VSrc) (ctl : BitVec 22)
  | vdot (c : Ctl) (t : ElemType) (d : VSrc) (a b : VSrc)
  | vmov (c : Ctl) (t : ElemType) (d : Fin 32) (a : VSrc)
  -- matrix engine (R50, R290)
  | mlda (c : Ctl) (xs : Fin 64) (m : MemOp) (xl : XSrc)
  | mldb (c : Ctl) (xs : Fin 64) (m : MemOp) (xl : XSrc)
  | mma (c : Ctl) (xs : Fin 64) (ctl : XI)
  | mring (c : Ctl) (xs : Fin 64)
  | mzero (c : Ctl) (wide : Bool) (xs : Fin 64) (t : XI)
  | mclose (c : Ctl) (xs : Fin 64)
  | msta (c : Ctl) (t : ElemType) (xs : Fin 64) (m : MemOp) (xc : XSrc)
  | mstat (c : Ctl) (xd : Fin 64)
  | mrcfg (c : Ctl) (xs : Fin 64) (cfg : XI)
  -- copy engine (R312)
  | cpy (c : Ctl) (xs : Fin 64) (m : MemOp) (ph : XI)
  | cpyi (c : Ctl) (xs : XSrc) (dst src : MemOp)
  | cpstg (c : Ctl) (xs : Fin 64) (k : XI)
  | cpabt (c : Ctl) (xs : Fin 64) (s : XI)
  -- views (R328)
  | vwreg (c : Ctl) (xs : Fin 64) (mb mc : MemOp)
  | vwdrop (c : Ctl) (xs : Fin 64) (xh : XSrc)
  | vwld (c : Ctl) (pol : VwPolicy) (d : Fin 32) (m : MemOp)
  | vwsync (c : Ctl) (xs : Fin 64) (xh : XSrc)
  | vwgen (c : Ctl) (d : Fin 64) (m : MemOp) (sel : VwSel)
  | quant (c : Ctl) (xs : Fin 64) (m : MemOp)
  | vwclr (c : Ctl) (xs : Fin 64) (xh : XSrc)
  -- address spaces (R138)
  | map (c : Ctl) (xs : Fin 64) (m : MemOp) (t : XI)
  | grant (c : Ctl) (xs : Fin 64) (m : MemOp) (t : XI)
  | unmap (c : Ctl) (xs : Fin 64) (xa : XSrc) (t : XI)
  | probe (c : Ctl) (xs : Fin 64) (xa : XSrc) (t : XI)
  | movepg (c : Ctl) (xs : Fin 64) (xsrc xdst : XSrc)
  | space (c : Ctl) (xs : Fin 64) (g : XI)
  | retiresp (c : Ctl) (xs : Fin 64) (t : XI)
  -- fabric and system (R361, R380, R412, R41)
  | bsend (c : Ctl) (xs : Fin 64) (m : MemOp)
  | bpost (c : Ctl) (g : Fin 8) (xs : Fin 64) (m : MemOp)
  | bcancel (c : Ctl) (xs : Fin 64) (m : MemOp)
  | bstat (c : Ctl) (d : Fin 64) (m : MemOp)
  | evid (c : Ctl) (xs : Fin 64) (m : MemOp) (xr : XSrc)
  | dbgbrk (c : Ctl)
  | ill (bits : BitVec 88)
  -- events of a core
  | issueCycle (d : DieNo) (c : CoreNo)
  | blockRefetch (d : DieNo) (c : CoreNo)
  | longProducerFill (uid : Nat) (k : Nat)
  | registerLineFill (uid : Nat) (line : Nat)
  | writeBackFailure (uid : Nat) (line : Nat)
  | messageArrival (k : Nat)
  | messageTimeout (k : Nat)
  | remoteMessageStatus (seq : Nat) (status : BitVec 64)
  | handlerStart (d : DieNo) (c : CoreNo)
  | faultHandlerStart (d : DieNo) (c : CoreNo)
  | handlerBudget (uid : Nat)
  | landingPacketOffer (d : DieNo) (c : CoreNo)
  -- events of the schedulers and the launch controller
  | continuationPlacement (d : DieNo) (c : CoreNo)
  | stealContinuation (d : DieNo) (victim : ClusterNo) (c : CoreNo)
  | continuationReady (uid : Nat)
  | worldOpen (lid : Nat)
  | launchDependencesMet (lid : Nat)
  | itemCreation (lid : Nat)
  | launchCompletion (lid : Nat)
  | handlerTableLeave (d : DieNo) (c : CoreNo) (lid : Nat)
  | budgetCharge (account : Nat)
  | taskDependenceMet (d : DieNo) (cl : ClusterNo) (k : Nat) (dep : Fin 4)
  | taskDependenceRetest (d : DieNo) (cl : ClusterNo) (k : Nat) (dep : Fin 4)
  | taskIssue (d : DieNo) (cl : ClusterNo) (k : Nat)
  | taskDoneFill (d : DieNo) (cl : ClusterNo) (k : Nat)
  | preemptionRequest (region : BitVec 32) (slices : BitVec 128) (deadline : BitVec 32)
  | cooperativeWindowEnd (d : DieNo) (cl : ClusterNo) (region : BitVec 32)
  | preemptDrainComplete (d : DieNo) (cl : ClusterNo) (region : BitVec 32)
  | regionResume (region : BitVec 32)
  | restartContinuationCreate (region : BitVec 32)
  | movepgSwitch (k : Nat)
  | unmapWalkDone (k : Nat)
  -- events of memory and synchronisation
  | storeBufferDrain (uid : Nat) (k : Nat)
  | retryBackoffExpiry (uid : Nat)
  | waitaTimeout (d : DieNo) (k : Nat)
  | monitorWakeNotice (d : DieNo) (k : Nat)
  | barrierRelease (d : DieNo) (lane : LaneId)
  | bwTimeout (uid : Nat)
  | nbarrNoticeArrival (d : DieNo) (n : NbNotice)
  | nbarrTimeout (uid : Nat) (dead : Bool)
  -- events of the engines
  | vectorCommandStart (d : DieNo) (c : CoreNo)
  | matrixCommandStart (d : DieNo) (c : CoreNo)
  | ringTileArrival (d : DieNo) (c : CoreNo)
  | ringTimeout (d : DieNo) (c : CoreNo)
  | copyCommandStart (d : DieNo) (c : CoreNo)
  | copyPieceWrite (d : DieNo) (c : CoreNo)
  | copyCommandComplete (d : DieNo) (c : CoreNo)
  | viewRefresh (d : DieNo)
  | quantService (d : DieNo)
  -- events of the fabric
  | fabricRequestReceive (r : FabReq)
  | fabricAckArrival (seq : Nat) (a : FabAck)
  | fabricResendTimeout (seq : Nat)
  | skipNoticeArrival (srcPkg : BitVec 14) (srcDie : DieNo) (path : Fin 4)
  | orderedFlagRelease (k : Nat)
  | orderedFlagTimeout (k : Nat)
  | flitNakReplay (port : Fin 48) (lane : Fin 4)
  | parityTopup (port : Fin 48) (good : Bool)
  | stompTail (port : Fin 48)
  | rtsArrival (d : DieNo) (r : Rts)
  | tokenIssue (d : DieNo)
  | tokenExpiry (d : DieNo) (k : Nat)
  | bulkDataArrival (d : DieNo) (f : BulkFlit)
  | dropNoticeArrival (d : DieNo) (n : BulkNotice)
  | cancelNoticeArrival (d : DieNo) (n : BulkNotice)
  | poolAckTimeout (uid : Nat)
  -- SPDM (R376)
  | getVersion (r : SpdmReq)
  | getCapabilities (r : SpdmReq)
  | negotiateAlgorithms (r : SpdmReq)
  | getDigests (r : SpdmReq)
  | getCertificate (r : SpdmReq)
  -- host commands (R385, R386, R395)
  | recallDeadline (slice : SliceNo)
  | teardownReport (world : BitVec 16)
  -- power cycles and scrubs (R398, R399), tokens (R357)
  | tokenArrival (d : DieNo) (t : TokenMsg)
  | powerCycleComplete (slice : SliceNo)
  | scrubComplete (k : Nat)
  -- events of the surroundings of the part (R376, R385, R394, R410, R413 to R418)
  | challenge (r : SpdmReq)
  | getMeasurements (r : SpdmReq)
  | keyExchange (r : SpdmReq)
  | finish (r : SpdmReq)
  | heartbeat (r : SpdmReq)
  | endSession (r : SpdmReq)
  | keyImport (r : SpdmReq)
  | unsupportedSpdmRequest (r : SpdmReq)
  | launchDoorbell (v : BitVec 64)
  | partitionEntryWrite (p : Fin 16) (word : Fin 8) (v : BitVec 64)
  | debugEntryWrite (k : Fin 64) (word : Fin 2) (v : BitVec 64) (world : BitVec 16) (trusted : Bool)
  | registerWrite (a : BitVec 64) (v : BitVec 64) (trusted : Bool)
  | recoveryReload (good : Bool) (cxl : List (BitVec 20)) (deadPorts : List (Fin 48))
  | powerOnReset (cause : ResetCause) (good : Bool) (cxl : List (BitVec 20)) (deadPorts : List (Fin 48))
  | railFault (rail : Rail) (millivolts : Nat)
  | thermalReading (d : DieNo) (t : BitVec 64)
  | correctedCodeword (port : Fin 48) (lane : Fin 4)
  | crossbarParityError (f : XbarFlit)
  -- events without operands
  | launchMessage
  | healthScoreHalving
  | hostMap
  | hostGrant
  | hostUnmap
  | hostProbe
  | hostSpace
  | hostRetiresp
  | reset
  | lend
  | recall
  | kill
  | scrub
  | preempt
  | resume
  | sleepRequest
  | wake
  | badTreeCommand
  | badPartitionCommand
  deriving DecidableEq, Repr

end Sys2Proof
end

