-- ==== Sys2Proof/WellFormed.lean ====
section
/-! DEFINITION. Which instructions are well formed: what the types of Syntax do not already say of R35, R36,
R39, R41 and of the operand tables. A word that breaks one of these checks faults with illegal_instruction. -/

namespace Sys2Proof

/-- Why an instruction word is no instruction (R41); every reason raises illegal_instruction. -/
inductive DecodeError where
  | opcode      -- a reserved opcode
  | function    -- a function value that the opcode's table does not list
  | form        -- an operand form that the entry does not accept
  | file        -- a register file that the entry does not accept
  | index       -- an index beyond the file, or an unassigned special register
  | res0        -- a nonzero bit of an unused field or a res0 field
  | empty       -- bit [18] set on a plain destination
  | locality    -- a locality hint that R39 forbids
  | type        -- an element type that the opcode does not accept
  | floatImm    -- an immediate lane operand with a floating-point type
  | odd         -- an odd v register where an even one is asked for
  | control     -- a control value that breaks its field map
  | mode        -- an addressing mode that the entry does not accept
  | readOnly    -- SWRITE to a read-only special register
  | operand     -- any other operand value that the entry calls illegal
  deriving DecidableEq, Repr

/-- Legal locality hints (R39). -/
inductive LocRule where
  | any | noThree | zero
  deriving DecidableEq, Repr

/-- Does the hint `loc` obey the rule? -/
def LocRule.allows : LocRule → BitVec 2 → Bool
  | .any, _ => true
  | .noThree, l => l != 3
  | .zero, l => l == 0

/-- Guard and hints of a CPU instruction with its row of R39; `none` for `ILL` and for the events. -/
def Instr.hints : Instr → Option (Ctl × LocRule)
  | .suspend c _ m => some (c, if m.isSome then .noThree else .zero)
  | .send c _ _ (.line _) | .sendh c _ _ (.line _) => some (c, .noThree)
  | .send c _ _ (.reg _) | .sendh c _ _ (.reg _) => some (c, .zero)
  | .ill _ => none
  | .ld c _ _ _ _ | .st c _ _ _ _ | .ldv c _ _ _ | .stv c _ _ _ | .pref c _ _ | .vwld c _ _ _ => some (c, .any)
  | .aadd c _ _ _ _ | .aand c _ _ _ _ | .aor c _ _ _ _ | .axor c _ _ _ _ | .amin c _ _ _ _ _
  | .amax c _ _ _ _ _ | .aswp c _ _ _ _ | .acas c _ _ _ _ | .afadd c _ _ _ | .red c _ _ _ _
  | .waita c _ _ _ _ | .wakea c _ _ _ => some (c, .noThree)
  | .lea c _ _ _ | .feset c _ _ | .feget c _ _ | .wbl c _ | .invl c _ _ | .publish c _ _ _
  | .observe c _ _ _ | .task c _ _ | .launch c _ _ | .vwreg c _ _ _ | .vwgen c _ _ _ | .quant c _ _
  | .map c _ _ _ | .grant c _ _ _ | .bsend c _ _ | .bpost c _ _ _ | .bcancel c _ _ | .bstat c _ _ => some (c, .noThree)
  | .mlda c _ _ _ | .mldb c _ _ _ | .msta c _ _ _ _ | .cpy c _ _ _ | .cpyi c _ _ _ | .evid c _ _ _ => some (c, .zero)
  | .nop c | .bra c _ | .bri c _ | .call c _ _ | .ret c _ | .loop c _ _ | .yield c | .spawn c _ _ _
  | .done c | .trap c _ | .tfence c _ | .tret c _ _ | .waitr c _ | .brf c _ _ _ | .add c _ _ _ _ _
  | .sub c _ _ _ _ _ | .mul c _ _ _ _ | .mulh c _ _ _ _ _ | .div c _ _ _ _ _ | .rem c _ _ _ _ _
  | .and c _ _ _ _ | .or c _ _ _ _ | .xor c _ _ _ _ | .andn c _ _ _ _ | .shl c _ _ _ _ | .shr c _ _ _ _
  | .sar c _ _ _ _ | .rol c _ _ _ _ | .min c _ _ _ _ _ | .max c _ _ _ _ _ | .clz c _ _ _ | .popc c _ _ _
  | .bext c _ _ _ _ | .bins c _ _ _ _ | .sel c _ _ _ | .mov c _ | .movi c _ _ | .addc c _ _ _ _
  | .abs c _ _ _ _ | .bswap c _ _ _ | .cmp c _ _ _ _ _ | .plog c _ _ _ _ | .pmov c _ | .sread c _ _
  | .swrite c _ _ | .fadd c _ _ _ _ _ | .fsub c _ _ _ _ _ | .fmul c _ _ _ _ _ | .fdiv c _ _ _ _ _
  | .ffma c _ _ _ _ _ | .fsqrt c _ _ _ _ | .fmin c _ _ _ _ | .fmax c _ _ _ _ | .fcmp c _ _ _ _ _
  | .fcvt c _ _ _ _ _ _ | .fclass c _ _ _ | .frnd c _ _ _ _ | .fence c _ _ _ | .phnew c _
  | .phreg c _ _ _ | .phdrop c _ _ | .phsig c _ _ | .phwait c _ _ | .phnext c _ _ | .phfree c _ _
  | .bwarr c _ | .bwwait c _ _ | .nbarr c _ _ _ | .chmask c _ _ | .chpri c _ _ | .vadd c _ _ _ _
  | .vsub c _ _ _ _ | .vmul c _ _ _ _ | .vfma c _ _ _ _ | .vmin c _ _ _ _ | .vmax c _ _ _ _
  | .vabs c _ _ _ | .vcmp c _ _ _ _ | .vsel c _ _ _ _ | .vand c _ _ _ _ | .vor c _ _ _ _
  | .vxor c _ _ _ _ | .vshl c _ _ _ _ | .vshr c _ _ _ _ | .vcvt c _ _ _ _ | .vrcpa c _ _ | .vrsqa c _ _
  | .vexp2a c _ _ | .vlog2a c _ _ | .vred c _ _ _ _ | .vscan c _ _ _ _ | .vperm c _ _ _ _
  | .vbcast c _ _ _ _ | .vsplat c _ _ _ | .vextr c _ _ _ _ | .vamax c _ _ _ | .vqnt c _ _ _ _
  | .vdqnt c _ _ _ _ | .vdot c _ _ _ _ | .vmov c _ _ _ | .mma c _ _ | .mring c _ | .mzero c _ _ _
  | .mclose c _ | .mstat c _ | .mrcfg c _ _ | .cpstg c _ _ | .cpabt c _ _ | .vwdrop c _ _
  | .vwsync c _ _ | .vwclr c _ _ | .unmap c _ _ _ | .probe c _ _ _ | .movepg c _ _ _ | .space c _ _
  | .retiresp c _ _ | .dbgbrk c => some (c, .zero)
  | .issueCycle .. | .blockRefetch .. | .longProducerFill .. | .registerLineFill ..
  | .writeBackFailure .. | .messageArrival .. | .messageTimeout .. | .remoteMessageStatus ..
  | .handlerStart .. | .faultHandlerStart .. | .handlerBudget .. | .landingPacketOffer ..
  | .continuationPlacement .. | .stealContinuation .. | .continuationReady .. | .launchMessage ..
  | .worldOpen .. | .launchDependencesMet .. | .itemCreation .. | .launchCompletion ..
  | .handlerTableLeave .. | .budgetCharge .. | .taskDependenceMet .. | .taskDependenceRetest ..
  | .taskIssue .. | .taskDoneFill .. | .preemptionRequest .. | .cooperativeWindowEnd ..
  | .preemptDrainComplete .. | .regionResume .. | .restartContinuationCreate .. | .movepgSwitch ..
  | .unmapWalkDone .. | .storeBufferDrain .. | .retryBackoffExpiry .. | .waitaTimeout ..
  | .monitorWakeNotice .. | .barrierRelease .. | .bwTimeout .. | .nbarrNoticeArrival ..
  | .nbarrTimeout .. | .vectorCommandStart .. | .matrixCommandStart .. | .ringTileArrival ..
  | .ringTimeout .. | .copyCommandStart .. | .copyPieceWrite .. | .copyCommandComplete ..
  | .viewRefresh .. | .quantService .. | .fabricRequestReceive .. | .fabricAckArrival ..
  | .fabricResendTimeout .. | .skipNoticeArrival .. | .orderedFlagRelease .. | .orderedFlagTimeout ..
  | .flitNakReplay .. | .healthScoreHalving .. | .parityTopup .. | .stompTail .. | .rtsArrival ..
  | .tokenIssue .. | .tokenExpiry .. | .bulkDataArrival .. | .dropNoticeArrival ..
  | .cancelNoticeArrival .. | .poolAckTimeout .. | .getVersion .. | .getCapabilities ..
  | .negotiateAlgorithms .. | .getDigests .. | .getCertificate .. | .challenge .. | .getMeasurements ..
  | .keyExchange .. | .finish .. | .heartbeat .. | .endSession .. | .keyImport ..
  | .unsupportedSpdmRequest .. | .launchDoorbell .. | .hostMap .. | .hostGrant .. | .hostUnmap ..
  | .hostProbe .. | .hostSpace .. | .hostRetiresp .. | .reset .. | .lend .. | .recall ..
  | .recallDeadline .. | .kill .. | .scrub .. | .preempt .. | .resume .. | .teardownReport ..
  | .partitionEntryWrite .. | .debugEntryWrite .. | .registerWrite .. | .sleepRequest .. | .wake ..
  | .recoveryReload .. | .powerOnReset .. | .railFault .. | .thermalReading .. | .correctedCodeword ..
  | .crossbarParityError .. | .tokenArrival .. | .powerCycleComplete .. | .scrubComplete ..
  | .badTreeCommand .. | .badPartitionCommand .. => none

/-- The row is an event of the part or of its surroundings, not an instruction of a program. -/
def Instr.isEvent (i : Instr) : Bool :=
  match i with
  | .ill _ => false
  | i => i.hints.isNone

/-- Lane width of an element type (R49). -/
def ElemType.bits : ElemType → Nat
  | .i64 | .f64 => 64
  | .i32 | .f32 => 32
  | .i16 | .f16 | .bf16 => 16
  | .i8 | .u8 | .e4m3 | .e5m2 => 8
  | .t2 => 2

/-- The integer element types of the vector engine (R49). -/
def ElemType.isInt : ElemType → Bool
  | .i64 | .i32 | .i16 | .i8 | .u8 => true
  | _ => false

/-- FP64, FP32, FP16 and BF16. -/
def ElemType.isFloat4 : ElemType → Bool
  | .f64 | .f32 | .f16 | .bf16 => true
  | _ => false

/-- Codes 0000 to 1000 (R49). -/
def ElemType.isArith (t : ElemType) : Bool := t.isInt || t.isFloat4

/-- Types of a quantised block: INT8, E4M3, E5M2 and T2 (R49). -/
def ElemType.isQuant : ElemType → Bool
  | .i8 | .e4m3 | .e5m2 | .t2 => true
  | _ => false

/-- The element types that a vector or matrix instruction accepts (R49, R50); `true` where the opcode takes no
element type. -/
def Instr.typeOk : Instr → Bool
  | .vadd _ t _ _ _ | .vsub _ t _ _ _ | .vmul _ t _ _ _ | .vmin _ t _ _ _ | .vmax _ t _ _ _ | .vabs _ t _ _
  | .vcmp _ t _ _ _ | .vsel _ t _ _ _ | .vred _ t _ _ _ | .vscan _ t _ _ _ => t.isArith
  | .vfma _ t _ _ _ | .vamax _ t _ _ => t.isFloat4
  | .vand _ t _ _ _ | .vor _ t _ _ _ | .vxor _ t _ _ _ | .vshl _ t _ _ _ | .vshr _ t _ _ _ => t.isInt
  | .vcvt _ t _ _ _ | .vperm _ t _ _ _ | .vbcast _ t _ _ _ | .vsplat _ t _ _ | .vextr _ t _ _ _
  | .vmov _ t _ _ => t != .t2
  | .vqnt _ t _ _ _ | .vdqnt _ t _ _ _ => t.isQuant
  | .vdot _ t _ _ _ => t == .i8 || t == .f16 || t == .bf16 || t == .e4m3
  | .msta _ t _ _ _ => t != .i64 && t != .u8 && t != .t2
  | .fcvt _ _ _ _ _ s d => s != .t2 && d != .t2
  | _ => true

/-- An immediate lane operand is legal only for integer types (R261). -/
def SOp.okFor (t : ElemType) : SOp → Bool
  | .i _ => t.isInt
  | _ => true

/-- Immediate lane operands with a floating-point type are illegal (R261). -/
def Instr.floatImmOk : Instr → Bool
  | .vadd _ t _ _ b | .vsub _ t _ _ b | .vmul _ t _ _ b | .vmin _ t _ _ b | .vmax _ t _ _ b
  | .vcmp _ t _ _ b => b.okFor t
  | .vsplat _ t _ (.i _) => t.isInt
  | _ => true

/-- Even v registers of `VQNT` and `VDQNT` (R261). -/
def Instr.evenOk : Instr → Bool
  | .vqnt _ _ d _ _ => d.reg.val % 2 == 0
  | .vdqnt _ _ _ a _ => a.reg.val % 2 == 0
  | _ => true

/-- Parts of a v register for a conversion between two lane widths (R265). -/
def cvtParts (ws wd : Nat) : Nat := max ws wd / min ws wd

/-- The source type of a `VCVT` control value, codes 0000 to 1011 (R265). -/
def vcvtSrc (ctl : BitVec 22) : Option ElemType :=
  match ctl.toNat % 16 with
  | 0 => some .i64 | 1 => some .i32 | 2 => some .i16 | 3 => some .i8 | 4 => some .u8 | 5 => some .f64
  | 6 => some .f32 | 7 => some .f16 | 8 => some .bf16 | 9 => some .e4m3 | 10 => some .e5m2 | 11 => some .t2
  | _ => none

/-- `VCVT`'s control value obeys its field map, and bit [18] of field A is set only when it narrows
(R261, R265). -/
def vcvtOk (t : ElemType) (bang : Bool) (ctl : BitVec 22) : Bool :=
  match vcvtSrc ctl with
  | none => false
  | some s =>
    ctl.toNat / 2 ^ 13 == 0 && decide (ctl.toNat / 2 ^ 8 % 32 < cvtParts s.bits t.bits)
      && decide (ctl.toNat / 16 % 8 ≤ 4) && (!bang || decide (t.bits < s.bits))

/-- The part field of `VQNT` and `VDQNT`: 0 to 3 for 8-bit types, 0 to 15 for T2 (R274). -/
def quantPartOk (t : ElemType) (ctl : BitVec 22) : Bool :=
  decide (ctl.toNat % 32 < if t == .t2 then 16 else 4)

/-- Control values obey their field maps (R265, R274, R275, R312). -/
def Instr.controlOk : Instr → Bool
  | .vcvt _ t d _ ctl => vcvtOk t d.bang ctl
  | .vqnt _ t _ _ ctl => ctl.toNat / 2 ^ 9 == 0 && decide (ctl.toNat / 32 % 8 ≤ 4) && quantPartOk t ctl
  | .vdqnt _ t _ _ ctl => ctl.toNat / 2 ^ 5 == 0 && quantPartOk t ctl
  | .cpy _ _ _ (.i k) => k == 0
  | _ => true

/-- Addressing modes that an entry confines (R92, R122, R290, R328, R361, R380, R390). -/
def Instr.modeOk : Instr → Bool
  | .send _ _ _ (.line m) | .sendh _ _ _ (.line m) => m.mode != .global
  | .launch _ _ m | .publish _ _ m _ | .observe _ _ m _ | .quant _ _ m | .bsend _ _ m | .bpost _ _ _ m
  | .bcancel _ _ m | .bstat _ _ m | .evid _ _ m _ => m.mode == .global
  | .vwreg _ _ m n => m.mode == .global && n.mode == .global
  | .mlda _ _ m _ | .mldb _ _ m _ | .msta _ _ _ m _ => m.mode == .own
  | _ => true

/-- Special registers that `SWRITE` may name (R64). -/
def Special.writable : Special → Bool
  | .arFlags | .arCause | .bwTimeout | .feRlim | .srMode => true
  | _ => false

/-- The first check of this file that the instruction breaks, if any. -/
def Instr.check (i : Instr) : Option DecodeError :=
  if (i.hints.map fun p => p.2.allows p.1.loc) == some false then some .locality
  else if !i.typeOk then some .type
  else if !i.floatImmOk then some .floatImm
  else if !i.evenOk then some .odd
  else if !i.controlOk then some .control
  else if !i.modeOk then some .mode
  else match i with
    | .swrite _ sp _ => if sp.writable then none else some .readOnly
    | .sendh _ _ d _ => if d.reg.val == 63 then some .operand else none
    | _ => none

/-- The instruction is well formed: a word may encode it (R41). Events are always well formed. -/
def Instr.wf (i : Instr) : Bool := i.check.isNone

end Sys2Proof
end

