-- ==== Sys2Proof/Decode.lean ====
section
/-! DEFINITION. Decoding of instruction words (chapter 02) and the encoder written from the same tables.
`decode` is total on 96-bit words; every word that R41 makes illegal is rejected under a name of `DecodeError`. -/

namespace Sys2Proof

/-! ## Codes of the fields -/

/-- A Bool as 0 or 1. -/
def bit : Bool → Nat
  | false => 0
  | true => 1

/-- Codes of the addressing modes (R35). -/
def MemMode.code : MemMode → Nat
  | .own => 0 | .lin => 1 | .ilv => 2 | .global => 3

/-- The addressing mode of a code (R35). -/
def MemMode.ofCode (n : Nat) : MemMode :=
  match n with
  | 0 => .own | 1 => .lin | 2 => .ilv | _ => .global

/-- Codes of the element types (R49). -/
def ElemType.code : ElemType → Nat
  | .i64 => 0 | .i32 => 1 | .i16 => 2 | .i8 => 3 | .u8 => 4 | .f64 => 5 | .f32 => 6 | .f16 => 7 | .bf16 => 8
  | .e4m3 => 9 | .e5m2 => 10 | .t2 => 11

/-- The element type of a code; 1100 to 1111 are reserved (R49). -/
def ElemType.ofCode (n : Nat) : Option ElemType :=
  match n with
  | 0 => some .i64 | 1 => some .i32 | 2 => some .i16 | 3 => some .i8 | 4 => some .u8 | 5 => some .f64
  | 6 => some .f32 | 7 => some .f16 | 8 => some .bf16 | 9 => some .e4m3 | 10 => some .e5m2 | 11 => some .t2
  | _ => none

/-- Conditions of `CMP` (R43). -/
def CmpCond.code : CmpCond → Nat
  | .eq => 0 | .ne => 1 | .lt => 2 | .le => 3 | .ltu => 4 | .leu => 5 | .any => 6

/-- Scalar formats (R44). -/
def FFmt.code : FFmt → Nat
  | .f64 => 0 | .f32 => 1 | .f16 => 2 | .bf16 => 3

/-- Rounding codes (R44). -/
def Rnd.code : Rnd → Nat
  | .rne => 0 | .rtz => 1 | .rup => 2 | .rdn => 3 | .sr => 4

/-- The rounding mode of a code 0 to 4; other codes are illegal (R44, R265). -/
def Rnd.ofCode (n : Nat) : Option Rnd :=
  match n with
  | 0 => some .rne | 1 => some .rtz | 2 => some .rup | 3 => some .rdn | 4 => some .sr | _ => none

/-- Conditions of `FCMP` (R44). -/
def FCond.code : FCond → Nat
  | .eq => 0 | .lt => 1 | .le => 2 | .un => 3

/-- Access sizes (R45). -/
def MSize.code : MSize → Nat
  | .b8 => 0 | .b16 => 1 | .b32 => 2 | .b64 => 3

/-- Synchronisation modes of loads (R45). -/
def LdMode.code : LdMode → Nat
  | .plain => 0 | .wait => 1 | .consume => 2

/-- Synchronisation modes of stores (R45). -/
def StMode.code : StMode → Nat
  | .plain => 0 | .fill => 1 | .wefill => 2 | .empty => 3

/-- Scopes of `FENCE` (R45). -/
def Scope.code : Scope → Nat
  | .core => 0 | .die => 1 | .pkg => 2 | .job => 3 | .sys => 4

/-- Operations of `RED` (R46). -/
def RedOp.code : RedOp → Nat
  | .add => 0 | .and => 1 | .or => 2 | .xor => 3 | .min => 4 | .max => 5 | .minu => 6 | .maxu => 7

/-- Member modes (R47). -/
def PhMode.code : PhMode → Nat
  | .sig => 0 | .wait => 1 | .sw => 2

/-- Directions of the barrier wires (R47). -/
def BwDir.code : BwDir → Nat
  | .row => 1 | .col => 2 | .both => 3

/-- Scopes of `NBARR` (R47). -/
def NbScope.code : NbScope → Nat
  | .launch => 0 | .pkg => 1 | .job => 2

/-- Selectors of `VWGEN` (R334). -/
def VwSel.code : VwSel → Nat
  | .tag => 0 | .gen => 1 | .status => 2

/-- Indexes of the special registers (R64). -/
def Special.index : Special → Nat
  | .idPkg => 0x00 | .idDie => 0x01 | .idCluster => 0x02 | .idCore => 0x03 | .idLcore => 0x04 | .idItem => 0x05
  | .lnItems => 0x06 | .lnSeed => 0x07 | .lnWorld => 0x08 | .lnRegion => 0x09 | .cxId => 0x0A | .cxSlot => 0x0B
  | .arFlags => 0x10 | .arNanpos => 0x11 | .arNanfmt => 0x12 | .arCause => 0x13 | .cyc => 0x18
  | .bwTimeout => 0x20 | .feRlim => 0x21 | .srMode => 0x22

/-- The special register of an index, where R64 assigns one. -/
def Special.ofIndex (n : Nat) : Option Special :=
  match n with
  | 0x00 => some .idPkg | 0x01 => some .idDie | 0x02 => some .idCluster | 0x03 => some .idCore
  | 0x04 => some .idLcore | 0x05 => some .idItem | 0x06 => some .lnItems | 0x07 => some .lnSeed
  | 0x08 => some .lnWorld | 0x09 => some .lnRegion | 0x0A => some .cxId | 0x0B => some .cxSlot
  | 0x10 => some .arFlags | 0x11 => some .arNanpos | 0x12 => some .arNanfmt | 0x13 => some .arCause
  | 0x18 => some .cyc | 0x20 => some .bwTimeout | 0x21 => some .feRlim | 0x22 => some .srMode
  | _ => none

/-! ## The instruction word (R34) -/

/-- The fields of an instruction word: opcode, function, guard and hints, and the three 24-bit operand fields
(R34). -/
structure Raw where
  op  : Nat
  fn  : Nat
  ctl : Ctl
  a   : Nat
  b   : Nat
  c   : Nat
  deriving DecidableEq, Repr

/-- A number below a positive bound. -/
def finMod (n k : Nat) (h : 0 < k) : Fin k := ⟨n % k, Nat.mod_lt n h⟩

/-- The fields of a word (R34). -/
def Raw.ofWord (w : IWord) : Raw :=
  let n := w.toNat
  { op := n / 2 ^ 88 % 256, fn := n / 2 ^ 80 % 16,
    ctl := { neg := n / 2 ^ 87 % 2 == 1, pred := finMod (n / 2 ^ 84) 8 (by decide),
             stall := BitVec.ofNat 4 (n / 2 ^ 76), yield := n / 2 ^ 75 % 2 == 1, reuse := n / 2 ^ 74 % 2 == 1,
             loc := BitVec.ofNat 2 (n / 2 ^ 72) },
    a := n / 2 ^ 48 % 2 ^ 24, b := n / 2 ^ 24 % 2 ^ 24, c := n % 2 ^ 24 }

/-- Guard and hints, bits [87:72] but the function (R34). -/
def Ctl.toNat (c : Ctl) : Nat :=
  bit c.neg * 2 ^ 87 + c.pred.val * 2 ^ 84 + c.stall.toNat * 2 ^ 76 + bit c.yield * 2 ^ 75 + bit c.reuse * 2 ^ 74
    + c.loc.toNat * 2 ^ 72

/-- The word of the fields (R34). -/
def Raw.toWord (r : Raw) : IWord :=
  BitVec.ofNat 96 (r.op * 2 ^ 88 + r.fn * 2 ^ 80 + r.ctl.toNat + r.a * 2 ^ 48 + r.b * 2 ^ 24 + r.c)

/-! ## Operand fields (R35, R36) -/

/-- A field the instruction does not use must be zero (R36). -/
def decZero (f : Nat) : Except DecodeError Unit := if f = 0 then .ok () else .error .res0

/-- Register form: file, bit [18] and index; bits [11:0] are res0 (R35). -/
def decReg (f : Nat) : Except DecodeError (Nat × Bool × Nat) :=
  if f / 2 ^ 22 ≠ 0 then .error .form
  else if f % 2 ^ 12 ≠ 0 then .error .res0
  else .ok (f / 2 ^ 19 % 8, f / 2 ^ 18 % 2 == 1, f / 2 ^ 12 % 64)

/-- Register form of the given file with an index below `k` (R35). -/
def decFile (file k : Nat) (h : 0 < k) (f : Nat) : Except DecodeError (Fin k × Bool) :=
  match decReg f with
  | .error e => .error e
  | .ok (g, q, n) =>
    if g ≠ file then .error .file else if n < k then .ok (finMod n k h, q) else .error .index

/-- A plain destination: bit [18] must be 0 (R36). -/
def decDest (file k : Nat) (h : 0 < k) (f : Nat) : Except DecodeError (Fin k) :=
  match decFile file k h f with
  | .error e => .error e
  | .ok (n, q) => if q then .error .empty else .ok n

/-- An x source. -/
def decX (f : Nat) : Except DecodeError XSrc := (decFile 0 64 (by decide) f).map fun p => ⟨p.1, p.2⟩
/-- A v source. -/
def decV (f : Nat) : Except DecodeError VSrc := (decFile 1 32 (by decide) f).map fun p => ⟨p.1, p.2⟩
/-- A p source. -/
def decP (f : Nat) : Except DecodeError PSrc := (decFile 2 8 (by decide) f).map fun p => ⟨p.1, p.2⟩
/-- An x destination. -/
def decXd (f : Nat) : Except DecodeError (Fin 64) := decDest 0 64 (by decide) f
/-- A v destination. -/
def decVd (f : Nat) : Except DecodeError (Fin 32) := decDest 1 32 (by decide) f
/-- A p destination. -/
def decPd (f : Nat) : Except DecodeError (Fin 8) := decDest 2 8 (by decide) f

/-- Short immediate form (R35). -/
def decI (f : Nat) : Except DecodeError (BitVec 22) :=
  if f / 2 ^ 22 = 1 then .ok (BitVec.ofNat 22 f) else .error .form

/-- An x register or a short immediate. -/
def decXI (f : Nat) : Except DecodeError XI :=
  if f / 2 ^ 22 = 1 then (decI f).map .i else (decX f).map .x

/-- Memory form (R35). -/
def decM (f : Nat) : Except DecodeError MemOp :=
  if f / 2 ^ 22 = 2 then
    .ok { base := finMod (f / 2 ^ 16) 64 (by decide), mode := MemMode.ofCode (f / 2 ^ 14 % 4),
          disp := BitVec.ofNat 14 f }
  else .error .form

/-- A register of file x, v or p with bit [18] = 0 (R92). -/
def decAny (f : Nat) : Except DecodeError AnyReg :=
  if f / 2 ^ 19 = 0 then (decXd f).map .x
  else if f / 2 ^ 19 = 1 then (decVd f).map .v
  else (decPd f).map .p

/-- An s operand of the vector engine (R261). -/
def decS (f : Nat) : Except DecodeError SOp :=
  if f / 2 ^ 22 = 1 then (decI f).map .i
  else if f / 2 ^ 19 = 0 then (decX f).map .x
  else (decV f).map .v

/-- Field C of `VFMA` (R261). -/
def decVX (f : Nat) : Except DecodeError VOrX :=
  if f / 2 ^ 19 = 0 then (decX f).map .x else (decV f).map .v

/-- A special register, bit [18] = 0 (R63). -/
def decSp (f : Nat) : Except DecodeError Special :=
  match decDest 3 64 (by decide) f with
  | .error e => .error e
  | .ok n => match Special.ofIndex n.val with
    | some s => .ok s
    | none => .error .index

/-- Does the field name a p register? `MOV` has one form for each file (R66). -/
def isPForm (f : Nat) : Bool := f / 2 ^ 19 == 2

/-- A short immediate below a bound. -/
def decBelow (k : Nat) (h : 0 < k) (f : Nat) : Except DecodeError (Fin k) :=
  match decI f with
  | .error e => .error e
  | .ok v => if v.toNat < k then .ok (finMod v.toNat k h) else .error .operand

/-- The number of `TRAP`, 0 to 31 (R92). -/
def decTrapNo (f : Nat) : Except DecodeError (Fin 32) := decBelow 32 (by decide) f
/-- The scale of `LEA`, 0 to 3 (R66). -/
def decScale (f : Nat) : Except DecodeError (Fin 4) := decBelow 4 (by decide) f
/-- The op of `VRED` and `VSCAN`, 0 to 2 (R261). -/
def decRedOp (f : Nat) : Except DecodeError (Fin 3) := decBelow 3 (by decide) f

/-- The mask of `TFENCE`: bits [21:9] of the immediate are zero (R92). -/
def decMask (f : Nat) : Except DecodeError (BitVec 9) := (decBelow 512 (by decide) f).map fun n => BitVec.ofNat 9 n.val

/-- The selector of `VWGEN`, 0 to 2 (R328). -/
def decSel (f : Nat) : Except DecodeError VwSel :=
  match decBelow 3 (by decide) f with
  | .error e => .error e
  | .ok n => .ok (match n.val with | 0 => .tag | 1 => .gen | _ => .status)

/-- The format pair of `FCVT`: source in [7:4], destination in [3:0], [21:8] zero (R44). -/
def decPair (f : Nat) : Except DecodeError (ElemType × ElemType) :=
  match decBelow 256 (by decide) f with
  | .error e => .error e
  | .ok n => match ElemType.ofCode (n.val / 16), ElemType.ofCode (n.val % 16) with
    | some s, some d => .ok (s, d)
    | _, _ => .error .type

/-! ## Function fields (R42 to R50) -/

/-- A single legal function value 0000. -/
def decFn0 (fn : Nat) : Except DecodeError Unit := if fn = 0 then .ok () else .error .function
/-- Function [0], the other bits zero. -/
def decFn1 (fn : Nat) : Except DecodeError Bool :=
  match fn with
  | 0 => .ok false | 1 => .ok true | _ => .error .function
/-- The width in function [3] (R43). -/
def decWidth (fn : Nat) : Width := if fn / 8 = 1 then .w64 else .w32
/-- The function value of a width and a low part. -/
def fnW (w : Width) (low : Nat) : Nat :=
  match w with
  | .w32 => low
  | .w64 => 8 + low
/-- Width only. -/
def decW (fn : Nat) : Except DecodeError Width := if fn % 8 = 0 then .ok (decWidth fn) else .error .function
/-- Width, and `.u` or `.sat` in [0]. -/
def decWU (fn : Nat) : Except DecodeError (Width × Bool) :=
  match fn % 8 with
  | 0 => .ok (decWidth fn, false) | 1 => .ok (decWidth fn, true) | _ => .error .function
/-- Saturation code of `ADD` and `SUB` (R43). -/
def SatMode.code : SatMode → Nat
  | .wrap => 0 | .sat => 1 | .usat => 2
/-- Function value of `ADD` and `SUB`. -/
def fnWSat (w : Width) (m : SatMode) : Nat := fnW w m.code
/-- Width and saturation of `ADD` and `SUB` (R43). -/
def decWSat (fn : Nat) : Except DecodeError (Width × SatMode) :=
  match fn % 8 with
  | 0 => .ok (decWidth fn, .wrap) | 1 => .ok (decWidth fn, .sat) | 2 => .ok (decWidth fn, .usat)
  | _ => .error .function
/-- `.sx` of `BEXT` in [3] (R43). -/
def decSx (fn : Nat) : Except DecodeError Bool :=
  match fn with
  | 0 => .ok false | 8 => .ok true | _ => .error .function
/-- Width and condition of `CMP` (R43). -/
def decWCmp (fn : Nat) : Except DecodeError (Width × CmpCond) :=
  match fn % 8 with
  | 0 => .ok (decWidth fn, .eq) | 1 => .ok (decWidth fn, .ne) | 2 => .ok (decWidth fn, .lt)
  | 3 => .ok (decWidth fn, .le) | 4 => .ok (decWidth fn, .ltu) | 5 => .ok (decWidth fn, .leu)
  | 6 => .ok (decWidth fn, .any) | _ => .error .function
/-- Truth table of `PLOG`. -/
def decTT (fn : Nat) : Except DecodeError (BitVec 4) := .ok (BitVec.ofNat 4 fn)
/-- Format in [3:2] (R44). -/
def decFmt (fn : Nat) : FFmt :=
  match fn / 4 with
  | 0 => .f64 | 1 => .f32 | 2 => .f16 | _ => .bf16
/-- Format and rounding (R44). -/
def decFR (fn : Nat) : Except DecodeError (FFmt × Rnd) :=
  .ok (decFmt fn, match fn % 4 with | 0 => .rne | 1 => .rtz | 2 => .rup | _ => .rdn)
/-- Format only (R44). -/
def decF (fn : Nat) : Except DecodeError FFmt := if fn % 4 = 0 then .ok (decFmt fn) else .error .function
/-- Format and condition of `FCMP` (R44). -/
def decFC (fn : Nat) : Except DecodeError (FFmt × FCond) :=
  .ok (decFmt fn, match fn % 4 with | 0 => .eq | 1 => .lt | 2 => .le | _ => .un)
/-- Saturation and rounding of `FCVT` (R44). -/
def decCvt (fn : Nat) : Except DecodeError (Bool × Rnd) :=
  match Rnd.ofCode (fn % 8) with
  | some r => .ok (fn / 8 == 1, r)
  | none => .error .function
/-- Access size in [3:2] (R45). -/
def decSz (fn : Nat) : MSize :=
  match fn / 4 with
  | 0 => .b8 | 1 => .b16 | 2 => .b32 | _ => .b64
/-- Size and mode of `LD` (R45). -/
def decSzLd (fn : Nat) : Except DecodeError (MSize × LdMode) :=
  match fn % 4 with
  | 0 => .ok (decSz fn, .plain) | 1 => .ok (decSz fn, .wait) | 2 => .ok (decSz fn, .consume) | _ => .error .function
/-- Store mode of a code. -/
def StMode.ofCode (n : Nat) : StMode :=
  match n with
  | 0 => .plain | 1 => .fill | 2 => .wefill | _ => .empty
/-- Size and mode of `ST` (R45). -/
def decSzSt (fn : Nat) : Except DecodeError (MSize × StMode) := .ok (decSz fn, StMode.ofCode (fn % 4))
/-- Mode of `LDV` (R45). -/
def decLdM (fn : Nat) : Except DecodeError LdMode :=
  match fn with
  | 0 => .ok .plain | 1 => .ok .wait | 2 => .ok .consume | _ => .error .function
/-- Mode of `STV` (R45). -/
def decStM (fn : Nat) : Except DecodeError StMode :=
  if fn < 4 then .ok (StMode.ofCode fn) else .error .function
/-- Scope and kind of `FENCE` (R45, R185). -/
def decFence (fn : Nat) : Except DecodeError (Scope × Bool) :=
  match fn / 2 with
  | 0 => .ok (.core, fn % 2 == 1) | 1 => .ok (.die, fn % 2 == 1) | 2 => .ok (.pkg, fn % 2 == 1)
  | 3 => .ok (.job, fn % 2 == 1) | 4 => .ok (.sys, fn % 2 == 1) | _ => .error .function
/-- Operation and width of `RED` (R46). -/
def decRed (fn : Nat) : Except DecodeError (RedOp × Width) :=
  .ok (match fn % 8 with
    | 0 => .add | 1 => .and | 2 => .or | 3 => .xor | 4 => .min | 5 => .max | 6 => .minu | _ => .maxu, decWidth fn)
/-- Mode of `PHREG` (R47). -/
def decPh (fn : Nat) : Except DecodeError PhMode :=
  match fn with
  | 0 => .ok .sig | 1 => .ok .wait | 2 => .ok .sw | _ => .error .function
/-- Direction of `BWARR` and `BWWAIT` (R47). -/
def decBw (fn : Nat) : Except DecodeError BwDir :=
  match fn with
  | 1 => .ok .row | 2 => .ok .col | 3 => .ok .both | _ => .error .function
/-- Scope of `NBARR` (R47). -/
def decNb (fn : Nat) : Except DecodeError NbScope :=
  match fn with
  | 0 => .ok .launch | 1 => .ok .pkg | 2 => .ok .job | _ => .error .function
/-- Element type of the vector and matrix instructions (R49, R50). -/
def decT (fn : Nat) : Except DecodeError ElemType :=
  match ElemType.ofCode fn with
  | some t => .ok t
  | none => .error .function
/-- FP32 only (R49). -/
def decF32 (fn : Nat) : Except DecodeError Unit := if fn = 6 then .ok () else .error .function
/-- Grant priority of `BPOST` (R50). -/
def decG (fn : Nat) : Except DecodeError (Fin 8) :=
  if fn < 8 then .ok (finMod fn 8 (by decide)) else .error .function

/-! ## The opcode map -/

/-- Control and contexts (R42, R92). -/
def decodeControl (r : Raw) (low : Nat) : Except DecodeError Instr :=
  match low with
  | 0x0 => do decFn0 r.fn; decZero r.a; decZero r.b; decZero r.c; pure (.nop r.ctl)
  | 0x1 => do decFn0 r.fn; let a ← decI r.a; decZero r.b; decZero r.c; pure (.bra r.ctl a)
  | 0x2 => do decFn0 r.fn; decZero r.a; let b ← decX r.b; decZero r.c; pure (.bri r.ctl b)
  | 0x3 => match r.fn with
    | 0 => do let a ← decXd r.a; let b ← decI r.b; decZero r.c; pure (.call r.ctl a (.rel b))
    | 1 => do let a ← decXd r.a; let b ← decX r.b; decZero r.c; pure (.call r.ctl a (.ind b))
    | _ => .error .function
  | 0x4 => do decFn0 r.fn; decZero r.a; let b ← decX r.b; decZero r.c; pure (.ret r.ctl b)
  | 0x5 => do decFn0 r.fn; let a ← decX r.a; let b ← decI r.b; decZero r.c; pure (.loop r.ctl a b)
  | 0x6 =>
    if r.b = 0 then do decFn0 r.fn; let a ← decXd r.a; decZero r.c; pure (.suspend r.ctl a none)
    else do decFn0 r.fn; let a ← decXd r.a; let b ← decM r.b; decZero r.c; pure (.suspend r.ctl a (some b))
  | 0x7 => do decFn0 r.fn; decZero r.a; decZero r.b; decZero r.c; pure (.yield r.ctl)
  | 0x8 =>
    do decFn0 r.fn; let a ← decXd r.a; let b ← decXI r.b; let c ← decX r.c; pure (.spawn r.ctl a b c)
  | 0x9 => do decFn0 r.fn; decZero r.a; decZero r.b; decZero r.c; pure (.done r.ctl)
  | 0xA => do decFn0 r.fn; let n ← decTrapNo r.a; decZero r.b; decZero r.c; pure (.trap r.ctl n)
  | 0xB =>
    if r.b = 0 then do decFn0 r.fn; decZero r.a; decZero r.c; pure (.tfence r.ctl none)
    else do decFn0 r.fn; decZero r.a; let m ← decMask r.b; decZero r.c; pure (.tfence r.ctl (some m))
  | 0xC => do decFn0 r.fn; let a ← decXd r.a; let b ← decX r.b; decZero r.c; pure (.tret r.ctl a b)
  | 0xD => do decFn0 r.fn; decZero r.a; let b ← decAny r.b; decZero r.c; pure (.waitr r.ctl b)
  | 0xE =>
    do let q ← decFn1 r.fn; let a ← decAny r.a; let b ← decI r.b; decZero r.c; pure (.brf r.ctl (!q) a b)
  | _ => .error .opcode

/-- Integer and logic, first half (R43, R66). -/
def decodeInt1 (r : Raw) (low : Nat) : Except DecodeError Instr :=
  match low with
  | 0x0 =>
    do let (w, m) ← decWSat r.fn; let a ← decXd r.a; let b ← decXI r.b; let c ← decXI r.c; pure (.add r.ctl w m a b c)
  | 0x1 =>
    do let (w, m) ← decWSat r.fn; let a ← decXd r.a; let b ← decXI r.b; let c ← decXI r.c; pure (.sub r.ctl w m a b c)
  | 0x2 =>
    do let w ← decW r.fn; let a ← decXd r.a; let b ← decXI r.b; let c ← decXI r.c; pure (.mul r.ctl w a b c)
  | 0x3 =>
    do let (w, u) ← decWU r.fn; let a ← decXd r.a; let b ← decXI r.b; let c ← decXI r.c; pure (.mulh r.ctl w u a b c)
  | 0x4 =>
    do let (w, u) ← decWU r.fn; let a ← decXd r.a; let b ← decXI r.b; let c ← decXI r.c; pure (.div r.ctl w u a b c)
  | 0x5 =>
    do let (w, u) ← decWU r.fn; let a ← decXd r.a; let b ← decXI r.b; let c ← decXI r.c; pure (.rem r.ctl w u a b c)
  | 0x6 =>
    do let w ← decW r.fn; let a ← decXd r.a; let b ← decXI r.b; let c ← decXI r.c; pure (.and r.ctl w a b c)
  | 0x7 =>
    do let w ← decW r.fn; let a ← decXd r.a; let b ← decXI r.b; let c ← decXI r.c; pure (.or r.ctl w a b c)
  | 0x8 =>
    do let w ← decW r.fn; let a ← decXd r.a; let b ← decXI r.b; let c ← decXI r.c; pure (.xor r.ctl w a b c)
  | 0x9 =>
    do let w ← decW r.fn; let a ← decXd r.a; let b ← decXI r.b; let c ← decXI r.c; pure (.andn r.ctl w a b c)
  | 0xA =>
    do let w ← decW r.fn; let a ← decXd r.a; let b ← decXI r.b; let c ← decXI r.c; pure (.shl r.ctl w a b c)
  | 0xB =>
    do let w ← decW r.fn; let a ← decXd r.a; let b ← decXI r.b; let c ← decXI r.c; pure (.shr r.ctl w a b c)
  | 0xC =>
    do let w ← decW r.fn; let a ← decXd r.a; let b ← decXI r.b; let c ← decXI r.c; pure (.sar r.ctl w a b c)
  | 0xD =>
    do let w ← decW r.fn; let a ← decXd r.a; let b ← decXI r.b; let c ← decXI r.c; pure (.rol r.ctl w a b c)
  | 0xE =>
    do let (w, u) ← decWU r.fn; let a ← decXd r.a; let b ← decXI r.b; let c ← decXI r.c; pure (.min r.ctl w u a b c)
  | 0xF =>
    do let (w, u) ← decWU r.fn; let a ← decXd r.a; let b ← decXI r.b; let c ← decXI r.c; pure (.max r.ctl w u a b c)
  | _ => .error .opcode

/-- Integer and logic, second half (R43, R66). -/
def decodeInt2 (r : Raw) (low : Nat) : Except DecodeError Instr :=
  match low with
  | 0x0 =>
    do let w ← decW r.fn; let a ← decXd r.a; let b ← decXI r.b; decZero r.c; pure (.clz r.ctl w a b)
  | 0x1 =>
    do let w ← decW r.fn; let a ← decXd r.a; let b ← decXI r.b; decZero r.c; pure (.popc r.ctl w a b)
  | 0x2 =>
    do let q ← decSx r.fn; let a ← decXd r.a; let b ← decXI r.b; let c ← decXI r.c; pure (.bext r.ctl q a b c)
  | 0x3 =>
    do let w ← decW r.fn; let a ← decX r.a; let b ← decXI r.b; let c ← decXI r.c; pure (.bins r.ctl w a b c)
  | 0x4 =>
    do decFn0 r.fn; let a ← decX r.a; let b ← decXI r.b; let c ← decXI r.c; pure (.sel r.ctl a b c)
  | 0x5 =>
    if isPForm r.a then
      do decFn0 r.fn; let a ← decPd r.a; let b ← decP r.b; decZero r.c; pure (.mov r.ctl (.p a b))
    else do decFn0 r.fn; let a ← decXd r.a; let b ← decXI r.b; decZero r.c; pure (.mov r.ctl (.x a b))
  | 0x6 => do decFn0 r.fn; let a ← decXd r.a; pure (.movi r.ctl a (BitVec.ofNat 48 (r.b * 2 ^ 24 + r.c)))
  | 0x7 =>
    do let w ← decW r.fn; let a ← decXd r.a; let b ← decXI r.b; let c ← decXI r.c; pure (.addc r.ctl w a b c)
  | 0x8 =>
    do let (w, u) ← decWU r.fn; let a ← decXd r.a; let b ← decXI r.b; decZero r.c; pure (.abs r.ctl w u a b)
  | 0x9 =>
    do let w ← decW r.fn; let a ← decXd r.a; let b ← decXI r.b; decZero r.c; pure (.bswap r.ctl w a b)
  | 0xA => do decFn0 r.fn; let a ← decXd r.a; let b ← decM r.b; let c ← decScale r.c; pure (.lea r.ctl a b c)
  | 0xB =>
    do let (w, cond) ← decWCmp r.fn; let a ← decPd r.a; let b ← decXI r.b; let c ← decXI r.c; pure (.cmp r.ctl w cond a b c)
  | 0xC =>
    do let tt ← decTT r.fn; let a ← decPd r.a; let b ← decP r.b; let c ← decP r.c; pure (.plog r.ctl tt a b c)
  | 0xD => match r.fn with
    | 0 => do let a ← decXd r.a; decZero r.b; decZero r.c; pure (.pmov r.ctl (.tox a))
    | 1 => do decZero r.a; let b ← decXI r.b; decZero r.c; pure (.pmov r.ctl (.fromx b))
    | _ => .error .function
  | 0xE =>
    do decFn0 r.fn; let a ← decXd r.a; let b ← decSp r.b; decZero r.c; pure (.sread r.ctl a b)
  | 0xF =>
    do decFn0 r.fn; let a ← decSp r.a; let b ← decXI r.b; decZero r.c; pure (.swrite r.ctl a b)
  | _ => .error .opcode

/-- Scalar floating point (R44, R253). -/
def decodeFloat (r : Raw) (low : Nat) : Except DecodeError Instr :=
  match low with
  | 0x0 =>
    do let (f, rn) ← decFR r.fn; let a ← decXd r.a; let b ← decX r.b; let c ← decX r.c; pure (.fadd r.ctl f rn a b c)
  | 0x1 =>
    do let (f, rn) ← decFR r.fn; let a ← decXd r.a; let b ← decX r.b; let c ← decX r.c; pure (.fsub r.ctl f rn a b c)
  | 0x2 =>
    do let (f, rn) ← decFR r.fn; let a ← decXd r.a; let b ← decX r.b; let c ← decX r.c; pure (.fmul r.ctl f rn a b c)
  | 0x4 =>
    do let (f, rn) ← decFR r.fn; let a ← decXd r.a; let b ← decX r.b; let c ← decX r.c; pure (.fdiv r.ctl f rn a b c)
  | 0x3 =>
    do let (f, rn) ← decFR r.fn; let a ← decX r.a; let b ← decX r.b; let c ← decX r.c; pure (.ffma r.ctl f rn a b c)
  | 0x5 =>
    do let (f, rn) ← decFR r.fn; let a ← decXd r.a; let b ← decX r.b; decZero r.c; pure (.fsqrt r.ctl f rn a b)
  | 0x6 =>
    do let f ← decF r.fn; let a ← decXd r.a; let b ← decX r.b; let c ← decX r.c; pure (.fmin r.ctl f a b c)
  | 0x7 =>
    do let f ← decF r.fn; let a ← decXd r.a; let b ← decX r.b; let c ← decX r.c; pure (.fmax r.ctl f a b c)
  | 0x8 =>
    do let (f, cond) ← decFC r.fn; let a ← decPd r.a; let b ← decX r.b; let c ← decX r.c; pure (.fcmp r.ctl f cond a b c)
  | 0x9 =>
    do let (q, rn) ← decCvt r.fn; let a ← decXd r.a; let b ← decX r.b; let (s, d) ← decPair r.c; pure (.fcvt r.ctl q rn a b s d)
  | 0xA =>
    do let f ← decF r.fn; let a ← decXd r.a; let b ← decX r.b; decZero r.c; pure (.fclass r.ctl f a b)
  | 0xB =>
    do let (f, rn) ← decFR r.fn; let a ← decXd r.a; let b ← decX r.b; decZero r.c; pure (.frnd r.ctl f rn a b)
  | _ => .error .opcode

/-- Memory (R45, R169, R185, R390). -/
def decodeMem (r : Raw) (low : Nat) : Except DecodeError Instr :=
  match low with
  | 0x0 =>
    do let (sz, mode) ← decSzLd r.fn; let a ← decXd r.a; let b ← decM r.b; decZero r.c; pure (.ld r.ctl sz mode a b)
  | 0x1 =>
    do let (sz, mode) ← decSzSt r.fn; let a ← decM r.a; let b ← decXI r.b; decZero r.c; pure (.st r.ctl sz mode a b)
  | 0x2 =>
    do let mode ← decLdM r.fn; let a ← decVd r.a; let b ← decM r.b; decZero r.c; pure (.ldv r.ctl mode a b)
  | 0x3 =>
    do let mode ← decStM r.fn; let a ← decM r.a; let b ← decV r.b; decZero r.c; pure (.stv r.ctl mode a b)
  | 0x4 =>
    do let q ← decFn1 r.fn; let a ← decM r.a; decZero r.b; decZero r.c; pure (.feset r.ctl q a)
  | 0x5 => do decFn0 r.fn; let a ← decXd r.a; let b ← decM r.b; decZero r.c; pure (.feget r.ctl a b)
  | 0x6 =>
    do let q ← decFn1 r.fn; let a ← decM r.a; decZero r.b; decZero r.c; pure (.pref r.ctl q a)
  | 0x7 => do decFn0 r.fn; let a ← decM r.a; decZero r.b; decZero r.c; pure (.wbl r.ctl a)
  | 0x8 =>
    do let q ← decFn1 r.fn; let a ← decM r.a; decZero r.b; decZero r.c; pure (.invl r.ctl q a)
  | 0x9 =>
    do let (scope, q) ← decFence r.fn; let a ← decXd r.a; decZero r.b; decZero r.c; pure (.fence r.ctl scope q a)
  | 0xA =>
    do decFn0 r.fn; let a ← decXd r.a; let b ← decM r.b; let c ← decXI r.c; pure (.publish r.ctl a b c)
  | 0xB =>
    do decFn0 r.fn; let a ← decXd r.a; let b ← decM r.b; let c ← decXI r.c; pure (.observe r.ctl a b c)
  | _ => .error .opcode

/-- Atomics (R46, R200). -/
def decodeAtomic (r : Raw) (low : Nat) : Except DecodeError Instr :=
  match low with
  | 0x0 =>
    do let w ← decW r.fn; let a ← decXd r.a; let b ← decM r.b; let c ← decXI r.c; pure (.aadd r.ctl w a b c)
  | 0x1 =>
    do let w ← decW r.fn; let a ← decXd r.a; let b ← decM r.b; let c ← decXI r.c; pure (.aand r.ctl w a b c)
  | 0x2 =>
    do let w ← decW r.fn; let a ← decXd r.a; let b ← decM r.b; let c ← decXI r.c; pure (.aor r.ctl w a b c)
  | 0x3 =>
    do let w ← decW r.fn; let a ← decXd r.a; let b ← decM r.b; let c ← decXI r.c; pure (.axor r.ctl w a b c)
  | 0x4 =>
    do let (w, u) ← decWU r.fn; let a ← decXd r.a; let b ← decM r.b; let c ← decXI r.c; pure (.amin r.ctl w u a b c)
  | 0x5 =>
    do let (w, u) ← decWU r.fn; let a ← decXd r.a; let b ← decM r.b; let c ← decXI r.c; pure (.amax r.ctl w u a b c)
  | 0x6 =>
    do let w ← decW r.fn; let a ← decXd r.a; let b ← decM r.b; let c ← decXI r.c; pure (.aswp r.ctl w a b c)
  | 0x7 =>
    do let w ← decW r.fn; let a ← decX r.a; let b ← decM r.b; let c ← decXI r.c; pure (.acas r.ctl w a b c)
  | 0x8 =>
    do decFn0 r.fn; let a ← decXd r.a; let b ← decM r.b; let c ← decX r.c; pure (.afadd r.ctl a b c)
  | 0x9 =>
    do let (op, w) ← decRed r.fn; let a ← decM r.a; let b ← decXI r.b; decZero r.c; pure (.red r.ctl op w a b)
  | 0xA =>
    do let w ← decW r.fn; let a ← decX r.a; let b ← decM r.b; let c ← decXI r.c; pure (.waita r.ctl w a b c)
  | 0xB =>
    do decFn0 r.fn; let a ← decXd r.a; let b ← decM r.b; let c ← decXI r.c; pure (.wakea r.ctl a b c)
  | _ => .error .opcode

/-- Synchronisation (R47, R222, R227, R232). -/
def decodeSync (r : Raw) (low : Nat) : Except DecodeError Instr :=
  match low with
  | 0x0 => do decFn0 r.fn; let a ← decXd r.a; decZero r.b; decZero r.c; pure (.phnew r.ctl a)
  | 0x1 =>
    do let mode ← decPh r.fn; let a ← decXd r.a; let b ← decX r.b; decZero r.c; pure (.phreg r.ctl mode a b)
  | 0x2 =>
    do decFn0 r.fn; let a ← decXd r.a; let b ← decX r.b; decZero r.c; pure (.phdrop r.ctl a b)
  | 0x3 => do decFn0 r.fn; let a ← decXd r.a; let b ← decX r.b; decZero r.c; pure (.phsig r.ctl a b)
  | 0x4 =>
    do decFn0 r.fn; let a ← decXd r.a; let b ← decX r.b; decZero r.c; pure (.phwait r.ctl a b)
  | 0x5 =>
    do decFn0 r.fn; let a ← decXd r.a; let b ← decX r.b; decZero r.c; pure (.phnext r.ctl a b)
  | 0x6 =>
    do decFn0 r.fn; let a ← decXd r.a; let b ← decX r.b; decZero r.c; pure (.phfree r.ctl a b)
  | 0x7 => do let dir ← decBw r.fn; decZero r.a; decZero r.b; decZero r.c; pure (.bwarr r.ctl dir)
  | 0x8 =>
    do let dir ← decBw r.fn; let a ← decXd r.a; decZero r.b; decZero r.c; pure (.bwwait r.ctl dir a)
  | 0x9 =>
    do let scope ← decNb r.fn; let a ← decXd r.a; let b ← decXI r.b; decZero r.c; pure (.nbarr r.ctl scope a b)
  | _ => .error .opcode

/-- Messages and work (R48, R92, R122). -/
def decodeMsg (r : Raw) (low : Nat) : Except DecodeError Instr :=
  match low with
  | 0x0 => match r.fn with
    | 0 => do let a ← decXd r.a; let b ← decX r.b; let c ← decXI r.c; pure (.send r.ctl a b (.reg c))
    | 1 => do let a ← decXd r.a; let b ← decX r.b; let c ← decM r.c; pure (.send r.ctl a b (.line c))
    | _ => .error .function
  | 0x1 => match r.fn with
    | 0 => do let a ← decXd r.a; let b ← decX r.b; let c ← decXI r.c; pure (.sendh r.ctl a b (.reg c))
    | 1 => do let a ← decXd r.a; let b ← decX r.b; let c ← decM r.c; pure (.sendh r.ctl a b (.line c))
    | _ => .error .function
  | 0x2 =>
    do let q ← decFn1 r.fn; decZero r.a; let b ← decXI r.b; decZero r.c; pure (.chmask r.ctl q b)
  | 0x3 =>
    do decFn0 r.fn; decZero r.a; let b ← decXI r.b; let c ← decXI r.c; pure (.chpri r.ctl b c)
  | 0x4 => do decFn0 r.fn; let a ← decXd r.a; let b ← decM r.b; decZero r.c; pure (.task r.ctl a b)
  | 0x5 =>
    do decFn0 r.fn; let a ← decXd r.a; let b ← decM r.b; decZero r.c; pure (.launch r.ctl a b)
  | _ => .error .opcode

/-- Vector engine, first half (R49, R261). -/
def decodeVec8 (r : Raw) (low : Nat) : Except DecodeError Instr :=
  match low with
  | 0x0 =>
    do let t ← decT r.fn; let a ← decVd r.a; let b ← decV r.b; let c ← decS r.c; pure (.vadd r.ctl t a b c)
  | 0x1 =>
    do let t ← decT r.fn; let a ← decVd r.a; let b ← decV r.b; let c ← decS r.c; pure (.vsub r.ctl t a b c)
  | 0x2 =>
    do let t ← decT r.fn; let a ← decVd r.a; let b ← decV r.b; let c ← decS r.c; pure (.vmul r.ctl t a b c)
  | 0x3 =>
    do let t ← decT r.fn; let a ← decV r.a; let b ← decV r.b; let c ← decVX r.c; pure (.vfma r.ctl t a b c)
  | 0x4 =>
    do let t ← decT r.fn; let a ← decVd r.a; let b ← decV r.b; let c ← decS r.c; pure (.vmin r.ctl t a b c)
  | 0x5 =>
    do let t ← decT r.fn; let a ← decVd r.a; let b ← decV r.b; let c ← decS r.c; pure (.vmax r.ctl t a b c)
  | 0x6 =>
    do let t ← decT r.fn; let a ← decVd r.a; let b ← decV r.b; decZero r.c; pure (.vabs r.ctl t a b)
  | 0x7 =>
    do let t ← decT r.fn; let a ← decVd r.a; let b ← decV r.b; let c ← decS r.c; pure (.vcmp r.ctl t a b c)
  | 0x8 =>
    do let t ← decT r.fn; let a ← decV r.a; let b ← decV r.b; let c ← decV r.c; pure (.vsel r.ctl t a b c)
  | 0x9 =>
    do let t ← decT r.fn; let a ← decVd r.a; let b ← decV r.b; let c ← decS r.c; pure (.vand r.ctl t a b c)
  | 0xA =>
    do let t ← decT r.fn; let a ← decVd r.a; let b ← decV r.b; let c ← decS r.c; pure (.vor r.ctl t a b c)
  | 0xB =>
    do let t ← decT r.fn; let a ← decVd r.a; let b ← decV r.b; let c ← decS r.c; pure (.vxor r.ctl t a b c)
  | 0xC =>
    do let t ← decT r.fn; let a ← decVd r.a; let b ← decV r.b; let c ← decS r.c; pure (.vshl r.ctl t a b c)
  | 0xD =>
    do let t ← decT r.fn; let a ← decVd r.a; let b ← decV r.b; let c ← decS r.c; pure (.vshr r.ctl t a b c)
  | 0xE =>
    do let t ← decT r.fn; let a ← decV r.a; let b ← decV r.b; let c ← decI r.c; pure (.vcvt r.ctl t a b c)
  | 0xF => do decF32 r.fn; let a ← decVd r.a; let b ← decV r.b; decZero r.c; pure (.vrcpa r.ctl a b)
  | _ => .error .opcode

/-- Vector engine, second half (R49, R261). -/
def decodeVec9 (r : Raw) (low : Nat) : Except DecodeError Instr :=
  match low with
  | 0x0 => do decF32 r.fn; let a ← decVd r.a; let b ← decV r.b; decZero r.c; pure (.vrsqa r.ctl a b)
  | 0x1 =>
    do decF32 r.fn; let a ← decVd r.a; let b ← decV r.b; decZero r.c; pure (.vexp2a r.ctl a b)
  | 0x2 =>
    do decF32 r.fn; let a ← decVd r.a; let b ← decV r.b; decZero r.c; pure (.vlog2a r.ctl a b)
  | 0x3 =>
    do let t ← decT r.fn; let a ← decVd r.a; let b ← decV r.b; let c ← decRedOp r.c; pure (.vred r.ctl t a b c)
  | 0x4 =>
    do let t ← decT r.fn; let a ← decVd r.a; let b ← decV r.b; let c ← decRedOp r.c; pure (.vscan r.ctl t a b c)
  | 0x5 =>
    do let t ← decT r.fn; let a ← decVd r.a; let b ← decV r.b; let c ← decV r.c; pure (.vperm r.ctl t a b c)
  | 0x6 =>
    do let t ← decT r.fn; let a ← decVd r.a; let b ← decV r.b; let c ← decXI r.c; pure (.vbcast r.ctl t a b c)
  | 0x7 =>
    do let t ← decT r.fn; let a ← decVd r.a; let b ← decXI r.b; decZero r.c; pure (.vsplat r.ctl t a b)
  | 0x8 =>
    do let t ← decT r.fn; let a ← decXd r.a; let b ← decV r.b; let c ← decXI r.c; pure (.vextr r.ctl t a b c)
  | 0x9 =>
    do let t ← decT r.fn; let a ← decVd r.a; let b ← decV r.b; decZero r.c; pure (.vamax r.ctl t a b)
  | 0xA =>
    do let t ← decT r.fn; let a ← decV r.a; let b ← decV r.b; let c ← decI r.c; pure (.vqnt r.ctl t a b c)
  | 0xB =>
    do let t ← decT r.fn; let a ← decVd r.a; let b ← decV r.b; let c ← decI r.c; pure (.vdqnt r.ctl t a b c)
  | 0xC =>
    do let t ← decT r.fn; let a ← decV r.a; let b ← decV r.b; let c ← decV r.c; pure (.vdot r.ctl t a b c)
  | 0xD =>
    do let t ← decT r.fn; let a ← decVd r.a; let b ← decV r.b; decZero r.c; pure (.vmov r.ctl t a b)
  | _ => .error .opcode

/-- Matrix engine (R50, R290). -/
def decodeMatrix (r : Raw) (low : Nat) : Except DecodeError Instr :=
  match low with
  | 0x0 =>
    do decFn0 r.fn; let a ← decXd r.a; let b ← decM r.b; let c ← decX r.c; pure (.mlda r.ctl a b c)
  | 0x1 =>
    do decFn0 r.fn; let a ← decXd r.a; let b ← decM r.b; let c ← decX r.c; pure (.mldb r.ctl a b c)
  | 0x2 => do decFn0 r.fn; let a ← decXd r.a; let b ← decXI r.b; decZero r.c; pure (.mma r.ctl a b)
  | 0x3 => do decFn0 r.fn; let a ← decXd r.a; decZero r.b; decZero r.c; pure (.mring r.ctl a)
  | 0x4 =>
    do let q ← decFn1 r.fn; let a ← decXd r.a; let b ← decXI r.b; decZero r.c; pure (.mzero r.ctl q a b)
  | 0x5 => do decFn0 r.fn; let a ← decXd r.a; decZero r.b; decZero r.c; pure (.mclose r.ctl a)
  | 0x6 =>
    do let t ← decT r.fn; let a ← decXd r.a; let b ← decM r.b; let c ← decX r.c; pure (.msta r.ctl t a b c)
  | 0x7 => do decFn0 r.fn; let a ← decXd r.a; decZero r.b; decZero r.c; pure (.mstat r.ctl a)
  | 0x8 =>
    do decFn0 r.fn; let a ← decXd r.a; let b ← decXI r.b; decZero r.c; pure (.mrcfg r.ctl a b)
  | _ => .error .opcode

/-- Copy engine (R50, R312). -/
def decodeCopy (r : Raw) (low : Nat) : Except DecodeError Instr :=
  match low with
  | 0x0 =>
    do decFn0 r.fn; let a ← decXd r.a; let b ← decM r.b; let c ← decXI r.c; pure (.cpy r.ctl a b c)
  | 0x1 =>
    do decFn0 r.fn; let a ← decX r.a; let b ← decM r.b; let c ← decM r.c; pure (.cpyi r.ctl a b c)
  | 0x2 =>
    do decFn0 r.fn; let a ← decXd r.a; let b ← decXI r.b; decZero r.c; pure (.cpstg r.ctl a b)
  | 0x3 =>
    do decFn0 r.fn; let a ← decXd r.a; let b ← decXI r.b; decZero r.c; pure (.cpabt r.ctl a b)
  | _ => .error .opcode

/-- Views (R50, R328). -/
def decodeView (r : Raw) (low : Nat) : Except DecodeError Instr :=
  match low with
  | 0x0 =>
    do decFn0 r.fn; let a ← decXd r.a; let b ← decM r.b; let c ← decM r.c; pure (.vwreg r.ctl a b c)
  | 0x1 =>
    do decFn0 r.fn; let a ← decXd r.a; let b ← decX r.b; decZero r.c; pure (.vwdrop r.ctl a b)
  | 0x2 => match r.fn with
    | 0 => do let a ← decVd r.a; let b ← decM r.b; decZero r.c; pure (.vwld r.ctl .wait a b)
    | 1 => do let a ← decVd r.a; let b ← decM r.b; let c ← decPd r.c; pure (.vwld r.ctl (.staleok c) a b)
    | 2 => do let a ← decVd r.a; let b ← decM r.b; decZero r.c; pure (.vwld r.ctl .trap a b)
    | _ => .error .function
  | 0x3 =>
    do decFn0 r.fn; let a ← decXd r.a; let b ← decX r.b; decZero r.c; pure (.vwsync r.ctl a b)
  | 0x4 => do decFn0 r.fn; let a ← decXd r.a; let b ← decM r.b; let c ← decSel r.c; pure (.vwgen r.ctl a b c)
  | 0x5 => do decFn0 r.fn; let a ← decXd r.a; let b ← decM r.b; decZero r.c; pure (.quant r.ctl a b)
  | 0x6 => do decFn0 r.fn; let a ← decXd r.a; let b ← decX r.b; decZero r.c; pure (.vwclr r.ctl a b)
  | _ => .error .opcode

/-- Address spaces (R50, R138). -/
def decodeSpace (r : Raw) (low : Nat) : Except DecodeError Instr :=
  match low with
  | 0x0 =>
    do decFn0 r.fn; let a ← decXd r.a; let b ← decM r.b; let c ← decXI r.c; pure (.map r.ctl a b c)
  | 0x1 =>
    do decFn0 r.fn; let a ← decXd r.a; let b ← decM r.b; let c ← decXI r.c; pure (.grant r.ctl a b c)
  | 0x2 =>
    do decFn0 r.fn; let a ← decXd r.a; let b ← decX r.b; let c ← decXI r.c; pure (.unmap r.ctl a b c)
  | 0x3 =>
    do decFn0 r.fn; let a ← decXd r.a; let b ← decX r.b; let c ← decXI r.c; pure (.probe r.ctl a b c)
  | 0x4 =>
    do decFn0 r.fn; let a ← decXd r.a; let b ← decX r.b; let c ← decX r.c; pure (.movepg r.ctl a b c)
  | 0x5 =>
    do decFn0 r.fn; let a ← decXd r.a; let b ← decXI r.b; decZero r.c; pure (.space r.ctl a b)
  | 0x6 =>
    do decFn0 r.fn; let a ← decXd r.a; let b ← decXI r.b; decZero r.c; pure (.retiresp r.ctl a b)
  | _ => .error .opcode

/-- Bulk transfer (R50, R361). -/
def decodeFabric (r : Raw) (low : Nat) : Except DecodeError Instr :=
  match low with
  | 0x0 => do decFn0 r.fn; let a ← decXd r.a; let b ← decM r.b; decZero r.c; pure (.bsend r.ctl a b)
  | 0x1 =>
    do let g ← decG r.fn; let a ← decXd r.a; let b ← decM r.b; decZero r.c; pure (.bpost r.ctl g a b)
  | 0x2 =>
    do decFn0 r.fn; let a ← decXd r.a; let b ← decM r.b; decZero r.c; pure (.bcancel r.ctl a b)
  | 0x3 => do decFn0 r.fn; let a ← decXd r.a; let b ← decM r.b; decZero r.c; pure (.bstat r.ctl a b)
  | _ => .error .opcode

/-- System (R50, R380, R412). -/
def decodeSystem (r : Raw) (low : Nat) : Except DecodeError Instr :=
  match low with
  | 0x0 =>
    do decFn0 r.fn; let a ← decXd r.a; let b ← decM r.b; let c ← decX r.c; pure (.evid r.ctl a b c)
  | 0x1 => do decFn0 r.fn; decZero r.a; decZero r.b; decZero r.c; pure (.dbgbrk r.ctl)
  | _ => .error .opcode

/-- The fields as an instruction, before the checks of WellFormed. -/
def decodeFields (r : Raw) : Except DecodeError Instr :=
  match r.op / 16 with
  | 0x0 => decodeControl r (r.op % 16)
  | 0x1 => decodeInt1 r (r.op % 16)
  | 0x2 => decodeInt2 r (r.op % 16)
  | 0x3 => decodeFloat r (r.op % 16)
  | 0x4 => decodeMem r (r.op % 16)
  | 0x5 => decodeAtomic r (r.op % 16)
  | 0x6 => decodeSync r (r.op % 16)
  | 0x7 => decodeMsg r (r.op % 16)
  | 0x8 => decodeVec8 r (r.op % 16)
  | 0x9 => decodeVec9 r (r.op % 16)
  | 0xA => decodeMatrix r (r.op % 16)
  | 0xB => decodeCopy r (r.op % 16)
  | 0xC => decodeView r (r.op % 16)
  | 0xD => decodeSpace r (r.op % 16)
  | 0xE => decodeFabric r (r.op % 16)
  | 0xF => decodeSystem r (r.op % 16)
  | _ => .error .opcode

/-- The instruction of a 96-bit word, or the name of what R41 finds illegal in it. Opcode 0xFF is `ILL` whatever
the other bits are. -/
def decode (w : IWord) : Except DecodeError Instr :=
  let r := Raw.ofWord w
  if r.op = 0xFF then .ok (.ill (BitVec.ofNat 88 w.toNat))
  else match decodeFields r with
    | .error e => .error e
    | .ok i => match i.check with
      | some e => .error e
      | none => .ok i

/-! ## The encoder -/

/-- Register form. -/
def encReg (file : Nat) (q : Bool) (n : Nat) : Nat := file * 2 ^ 19 + bit q * 2 ^ 18 + n * 2 ^ 12
/-- An x source. -/
def encX (r : XSrc) : Nat := encReg 0 r.bang r.reg.val
/-- A v source. -/
def encV (r : VSrc) : Nat := encReg 1 r.bang r.reg.val
/-- A p source. -/
def encP (r : PSrc) : Nat := encReg 2 r.bang r.reg.val
/-- An x destination. -/
def encXd (d : Fin 64) : Nat := encReg 0 false d.val
/-- A v destination. -/
def encVd (d : Fin 32) : Nat := encReg 1 false d.val
/-- A p destination. -/
def encPd (d : Fin 8) : Nat := encReg 2 false d.val
/-- Short immediate form. -/
def encI (k : BitVec 22) : Nat := 2 ^ 22 + k.toNat
/-- An x register or a short immediate. -/
def encXI : XI → Nat
  | .x r => encX r
  | .i k => encI k
/-- Memory form. -/
def encM (m : MemOp) : Nat := 2 * 2 ^ 22 + m.base.val * 2 ^ 16 + m.mode.code * 2 ^ 14 + m.disp.toNat
/-- A register of file x, v or p. -/
def encAny : AnyReg → Nat
  | .x d => encXd d
  | .v d => encVd d
  | .p d => encPd d
/-- An s operand. -/
def encS : SOp → Nat
  | .v r => encV r
  | .x r => encX r
  | .i k => encI k
/-- Field C of `VFMA`. -/
def encVX : VOrX → Nat
  | .v r => encV r
  | .x r => encX r
/-- A special register. -/
def encSp (s : Special) : Nat := encReg 3 false s.index

/-- The fields of an instruction's word; `none` for `ILL`, whose word `encode` makes, and for the events, which
are no instructions of a program and have no word. -/
def encodeFields : Instr → Option Raw
  | .nop c => some ⟨0x00, 0, c, 0, 0, 0⟩
  | .bra c fa => some ⟨0x01, 0, c, (encI fa), 0, 0⟩
  | .bri c fb => some ⟨0x02, 0, c, 0, (encX fb), 0⟩
  | .call c a (.rel t) => some ⟨0x03, 0, c, encXd a, encI t, 0⟩
  | .call c a (.ind t) => some ⟨0x03, 1, c, encXd a, encX t, 0⟩
  | .ret c fb => some ⟨0x04, 0, c, 0, (encX fb), 0⟩
  | .loop c fa fb => some ⟨0x05, 0, c, (encX fa), (encI fb), 0⟩
  | .suspend c a none => some ⟨0x06, 0, c, encXd a, 0, 0⟩
  | .suspend c a (some m) => some ⟨0x06, 0, c, encXd a, encM m, 0⟩
  | .yield c => some ⟨0x07, 0, c, 0, 0, 0⟩
  | .spawn c fa fb fc => some ⟨0x08, 0, c, (encXd fa), (encXI fb), (encX fc)⟩
  | .done c => some ⟨0x09, 0, c, 0, 0, 0⟩
  | .trap c n => some ⟨0x0A, 0, c, 2 ^ 22 + n.val, 0, 0⟩
  | .tfence c none => some ⟨0x0B, 0, c, 0, 0, 0⟩
  | .tfence c (some m) => some ⟨0x0B, 0, c, 0, 2 ^ 22 + m.toNat, 0⟩
  | .tret c fa fb => some ⟨0x0C, 0, c, (encXd fa), (encX fb), 0⟩
  | .waitr c fb => some ⟨0x0D, 0, c, 0, (encAny fb), 0⟩
  | .brf c q fa fb => some ⟨0x0E, bit (!q), c, (encAny fa), (encI fb), 0⟩
  | .add c w m fa fb fc => some ⟨0x10, fnWSat w m, c, (encXd fa), (encXI fb), (encXI fc)⟩
  | .sub c w m fa fb fc => some ⟨0x11, fnWSat w m, c, (encXd fa), (encXI fb), (encXI fc)⟩
  | .mul c w fa fb fc => some ⟨0x12, fnW w 0, c, (encXd fa), (encXI fb), (encXI fc)⟩
  | .mulh c w u fa fb fc => some ⟨0x13, fnW w (bit u), c, (encXd fa), (encXI fb), (encXI fc)⟩
  | .div c w u fa fb fc => some ⟨0x14, fnW w (bit u), c, (encXd fa), (encXI fb), (encXI fc)⟩
  | .rem c w u fa fb fc => some ⟨0x15, fnW w (bit u), c, (encXd fa), (encXI fb), (encXI fc)⟩
  | .and c w fa fb fc => some ⟨0x16, fnW w 0, c, (encXd fa), (encXI fb), (encXI fc)⟩
  | .or c w fa fb fc => some ⟨0x17, fnW w 0, c, (encXd fa), (encXI fb), (encXI fc)⟩
  | .xor c w fa fb fc => some ⟨0x18, fnW w 0, c, (encXd fa), (encXI fb), (encXI fc)⟩
  | .andn c w fa fb fc => some ⟨0x19, fnW w 0, c, (encXd fa), (encXI fb), (encXI fc)⟩
  | .shl c w fa fb fc => some ⟨0x1A, fnW w 0, c, (encXd fa), (encXI fb), (encXI fc)⟩
  | .shr c w fa fb fc => some ⟨0x1B, fnW w 0, c, (encXd fa), (encXI fb), (encXI fc)⟩
  | .sar c w fa fb fc => some ⟨0x1C, fnW w 0, c, (encXd fa), (encXI fb), (encXI fc)⟩
  | .rol c w fa fb fc => some ⟨0x1D, fnW w 0, c, (encXd fa), (encXI fb), (encXI fc)⟩
  | .min c w u fa fb fc => some ⟨0x1E, fnW w (bit u), c, (encXd fa), (encXI fb), (encXI fc)⟩
  | .max c w u fa fb fc => some ⟨0x1F, fnW w (bit u), c, (encXd fa), (encXI fb), (encXI fc)⟩
  | .clz c w fa fb => some ⟨0x20, fnW w 0, c, (encXd fa), (encXI fb), 0⟩
  | .popc c w fa fb => some ⟨0x21, fnW w 0, c, (encXd fa), (encXI fb), 0⟩
  | .bext c q fa fb fc => some ⟨0x22, 8 * bit q, c, (encXd fa), (encXI fb), (encXI fc)⟩
  | .bins c w fa fb fc => some ⟨0x23, fnW w 0, c, (encX fa), (encXI fb), (encXI fc)⟩
  | .sel c fa fb fc => some ⟨0x24, 0, c, (encX fa), (encXI fb), (encXI fc)⟩
  | .mov c (.x a b) => some ⟨0x25, 0, c, encXd a, encXI b, 0⟩
  | .mov c (.p a b) => some ⟨0x25, 0, c, encPd a, encP b, 0⟩
  | .movi c a k => some ⟨0x26, 0, c, encXd a, k.toNat / 2 ^ 24, k.toNat % 2 ^ 24⟩
  | .addc c w fa fb fc => some ⟨0x27, fnW w 0, c, (encXd fa), (encXI fb), (encXI fc)⟩
  | .abs c w u fa fb => some ⟨0x28, fnW w (bit u), c, (encXd fa), (encXI fb), 0⟩
  | .bswap c w fa fb => some ⟨0x29, fnW w 0, c, (encXd fa), (encXI fb), 0⟩
  | .lea c a m s => some ⟨0x2A, 0, c, encXd a, encM m, 2 ^ 22 + s.val⟩
  | .cmp c w cond fa fb fc => some ⟨0x2B, fnW w cond.code, c, (encPd fa), (encXI fb), (encXI fc)⟩
  | .plog c tt fa fb fc => some ⟨0x2C, tt.toNat, c, (encPd fa), (encP fb), (encP fc)⟩
  | .pmov c (.tox a) => some ⟨0x2D, 0, c, encXd a, 0, 0⟩
  | .pmov c (.fromx b) => some ⟨0x2D, 1, c, 0, encXI b, 0⟩
  | .sread c fa fb => some ⟨0x2E, 0, c, (encXd fa), (encSp fb), 0⟩
  | .swrite c fa fb => some ⟨0x2F, 0, c, (encSp fa), (encXI fb), 0⟩
  | .fadd c f rn fa fb fc => some ⟨0x30, f.code * 4 + rn.code, c, (encXd fa), (encX fb), (encX fc)⟩
  | .fsub c f rn fa fb fc => some ⟨0x31, f.code * 4 + rn.code, c, (encXd fa), (encX fb), (encX fc)⟩
  | .fmul c f rn fa fb fc => some ⟨0x32, f.code * 4 + rn.code, c, (encXd fa), (encX fb), (encX fc)⟩
  | .fdiv c f rn fa fb fc => some ⟨0x34, f.code * 4 + rn.code, c, (encXd fa), (encX fb), (encX fc)⟩
  | .ffma c f rn fa fb fc => some ⟨0x33, f.code * 4 + rn.code, c, (encX fa), (encX fb), (encX fc)⟩
  | .fsqrt c f rn fa fb => some ⟨0x35, f.code * 4 + rn.code, c, (encXd fa), (encX fb), 0⟩
  | .fmin c f fa fb fc => some ⟨0x36, f.code * 4, c, (encXd fa), (encX fb), (encX fc)⟩
  | .fmax c f fa fb fc => some ⟨0x37, f.code * 4, c, (encXd fa), (encX fb), (encX fc)⟩
  | .fcmp c f cond fa fb fc => some ⟨0x38, f.code * 4 + cond.code, c, (encPd fa), (encX fb), (encX fc)⟩
  | .fcvt c q rn a b s d => some ⟨0x39, 8 * bit q + rn.code, c, encXd a, encX b, 2 ^ 22 + s.code * 16 + d.code⟩
  | .fclass c f fa fb => some ⟨0x3A, f.code * 4, c, (encXd fa), (encX fb), 0⟩
  | .frnd c f rn fa fb => some ⟨0x3B, f.code * 4 + rn.code, c, (encXd fa), (encX fb), 0⟩
  | .ld c sz mode fa fb => some ⟨0x40, sz.code * 4 + mode.code, c, (encXd fa), (encM fb), 0⟩
  | .st c sz mode fa fb => some ⟨0x41, sz.code * 4 + mode.code, c, (encM fa), (encXI fb), 0⟩
  | .ldv c mode fa fb => some ⟨0x42, mode.code, c, (encVd fa), (encM fb), 0⟩
  | .stv c mode fa fb => some ⟨0x43, mode.code, c, (encM fa), (encV fb), 0⟩
  | .feset c q fa => some ⟨0x44, bit q, c, (encM fa), 0, 0⟩
  | .feget c fa fb => some ⟨0x45, 0, c, (encXd fa), (encM fb), 0⟩
  | .pref c q fa => some ⟨0x46, bit q, c, (encM fa), 0, 0⟩
  | .wbl c fa => some ⟨0x47, 0, c, (encM fa), 0, 0⟩
  | .invl c q fa => some ⟨0x48, bit q, c, (encM fa), 0, 0⟩
  | .fence c scope q fa => some ⟨0x49, scope.code * 2 + bit q, c, (encXd fa), 0, 0⟩
  | .publish c fa fb fc => some ⟨0x4A, 0, c, (encXd fa), (encM fb), (encXI fc)⟩
  | .observe c fa fb fc => some ⟨0x4B, 0, c, (encXd fa), (encM fb), (encXI fc)⟩
  | .aadd c w fa fb fc => some ⟨0x50, fnW w 0, c, (encXd fa), (encM fb), (encXI fc)⟩
  | .aand c w fa fb fc => some ⟨0x51, fnW w 0, c, (encXd fa), (encM fb), (encXI fc)⟩
  | .aor c w fa fb fc => some ⟨0x52, fnW w 0, c, (encXd fa), (encM fb), (encXI fc)⟩
  | .axor c w fa fb fc => some ⟨0x53, fnW w 0, c, (encXd fa), (encM fb), (encXI fc)⟩
  | .amin c w u fa fb fc => some ⟨0x54, fnW w (bit u), c, (encXd fa), (encM fb), (encXI fc)⟩
  | .amax c w u fa fb fc => some ⟨0x55, fnW w (bit u), c, (encXd fa), (encM fb), (encXI fc)⟩
  | .aswp c w fa fb fc => some ⟨0x56, fnW w 0, c, (encXd fa), (encM fb), (encXI fc)⟩
  | .acas c w fa fb fc => some ⟨0x57, fnW w 0, c, (encX fa), (encM fb), (encXI fc)⟩
  | .afadd c fa fb fc => some ⟨0x58, 0, c, (encXd fa), (encM fb), (encX fc)⟩
  | .red c op w fa fb => some ⟨0x59, fnW w op.code, c, (encM fa), (encXI fb), 0⟩
  | .waita c w fa fb fc => some ⟨0x5A, fnW w 0, c, (encX fa), (encM fb), (encXI fc)⟩
  | .wakea c fa fb fc => some ⟨0x5B, 0, c, (encXd fa), (encM fb), (encXI fc)⟩
  | .phnew c fa => some ⟨0x60, 0, c, (encXd fa), 0, 0⟩
  | .phreg c mode fa fb => some ⟨0x61, mode.code, c, (encXd fa), (encX fb), 0⟩
  | .phdrop c fa fb => some ⟨0x62, 0, c, (encXd fa), (encX fb), 0⟩
  | .phsig c fa fb => some ⟨0x63, 0, c, (encXd fa), (encX fb), 0⟩
  | .phwait c fa fb => some ⟨0x64, 0, c, (encXd fa), (encX fb), 0⟩
  | .phnext c fa fb => some ⟨0x65, 0, c, (encXd fa), (encX fb), 0⟩
  | .phfree c fa fb => some ⟨0x66, 0, c, (encXd fa), (encX fb), 0⟩
  | .bwarr c dir => some ⟨0x67, dir.code, c, 0, 0, 0⟩
  | .bwwait c dir fa => some ⟨0x68, dir.code, c, (encXd fa), 0, 0⟩
  | .nbarr c scope fa fb => some ⟨0x69, scope.code, c, (encXd fa), (encXI fb), 0⟩
  | .send c a b (.reg p) => some ⟨0x70, 0, c, encXd a, encX b, encXI p⟩
  | .send c a b (.line m) => some ⟨0x70, 1, c, encXd a, encX b, encM m⟩
  | .sendh c a b (.reg p) => some ⟨0x71, 0, c, encXd a, encX b, encXI p⟩
  | .sendh c a b (.line m) => some ⟨0x71, 1, c, encXd a, encX b, encM m⟩
  | .chmask c q fb => some ⟨0x72, bit q, c, 0, (encXI fb), 0⟩
  | .chpri c fb fc => some ⟨0x73, 0, c, 0, (encXI fb), (encXI fc)⟩
  | .task c fa fb => some ⟨0x74, 0, c, (encXd fa), (encM fb), 0⟩
  | .launch c fa fb => some ⟨0x75, 0, c, (encXd fa), (encM fb), 0⟩
  | .vadd c t fa fb fc => some ⟨0x80, t.code, c, (encVd fa), (encV fb), (encS fc)⟩
  | .vsub c t fa fb fc => some ⟨0x81, t.code, c, (encVd fa), (encV fb), (encS fc)⟩
  | .vmul c t fa fb fc => some ⟨0x82, t.code, c, (encVd fa), (encV fb), (encS fc)⟩
  | .vfma c t fa fb fc => some ⟨0x83, t.code, c, (encV fa), (encV fb), (encVX fc)⟩
  | .vmin c t fa fb fc => some ⟨0x84, t.code, c, (encVd fa), (encV fb), (encS fc)⟩
  | .vmax c t fa fb fc => some ⟨0x85, t.code, c, (encVd fa), (encV fb), (encS fc)⟩
  | .vabs c t fa fb => some ⟨0x86, t.code, c, (encVd fa), (encV fb), 0⟩
  | .vcmp c t fa fb fc => some ⟨0x87, t.code, c, (encVd fa), (encV fb), (encS fc)⟩
  | .vsel c t fa fb fc => some ⟨0x88, t.code, c, (encV fa), (encV fb), (encV fc)⟩
  | .vand c t fa fb fc => some ⟨0x89, t.code, c, (encVd fa), (encV fb), (encS fc)⟩
  | .vor c t fa fb fc => some ⟨0x8A, t.code, c, (encVd fa), (encV fb), (encS fc)⟩
  | .vxor c t fa fb fc => some ⟨0x8B, t.code, c, (encVd fa), (encV fb), (encS fc)⟩
  | .vshl c t fa fb fc => some ⟨0x8C, t.code, c, (encVd fa), (encV fb), (encS fc)⟩
  | .vshr c t fa fb fc => some ⟨0x8D, t.code, c, (encVd fa), (encV fb), (encS fc)⟩
  | .vcvt c t fa fb fc => some ⟨0x8E, t.code, c, (encV fa), (encV fb), (encI fc)⟩
  | .vrcpa c fa fb => some ⟨0x8F, 6, c, (encVd fa), (encV fb), 0⟩
  | .vrsqa c fa fb => some ⟨0x90, 6, c, (encVd fa), (encV fb), 0⟩
  | .vexp2a c fa fb => some ⟨0x91, 6, c, (encVd fa), (encV fb), 0⟩
  | .vlog2a c fa fb => some ⟨0x92, 6, c, (encVd fa), (encV fb), 0⟩
  | .vred c t a b op => some ⟨0x93, t.code, c, encVd a, encV b, 2 ^ 22 + op.val⟩
  | .vscan c t a b op => some ⟨0x94, t.code, c, encVd a, encV b, 2 ^ 22 + op.val⟩
  | .vperm c t fa fb fc => some ⟨0x95, t.code, c, (encVd fa), (encV fb), (encV fc)⟩
  | .vbcast c t fa fb fc => some ⟨0x96, t.code, c, (encVd fa), (encV fb), (encXI fc)⟩
  | .vsplat c t fa fb => some ⟨0x97, t.code, c, (encVd fa), (encXI fb), 0⟩
  | .vextr c t fa fb fc => some ⟨0x98, t.code, c, (encXd fa), (encV fb), (encXI fc)⟩
  | .vamax c t fa fb => some ⟨0x99, t.code, c, (encVd fa), (encV fb), 0⟩
  | .vqnt c t fa fb fc => some ⟨0x9A, t.code, c, (encV fa), (encV fb), (encI fc)⟩
  | .vdqnt c t fa fb fc => some ⟨0x9B, t.code, c, (encVd fa), (encV fb), (encI fc)⟩
  | .vdot c t fa fb fc => some ⟨0x9C, t.code, c, (encV fa), (encV fb), (encV fc)⟩
  | .vmov c t fa fb => some ⟨0x9D, t.code, c, (encVd fa), (encV fb), 0⟩
  | .mlda c fa fb fc => some ⟨0xA0, 0, c, (encXd fa), (encM fb), (encX fc)⟩
  | .mldb c fa fb fc => some ⟨0xA1, 0, c, (encXd fa), (encM fb), (encX fc)⟩
  | .mma c fa fb => some ⟨0xA2, 0, c, (encXd fa), (encXI fb), 0⟩
  | .mring c fa => some ⟨0xA3, 0, c, (encXd fa), 0, 0⟩
  | .mzero c q fa fb => some ⟨0xA4, bit q, c, (encXd fa), (encXI fb), 0⟩
  | .mclose c fa => some ⟨0xA5, 0, c, (encXd fa), 0, 0⟩
  | .msta c t fa fb fc => some ⟨0xA6, t.code, c, (encXd fa), (encM fb), (encX fc)⟩
  | .mstat c fa => some ⟨0xA7, 0, c, (encXd fa), 0, 0⟩
  | .mrcfg c fa fb => some ⟨0xA8, 0, c, (encXd fa), (encXI fb), 0⟩
  | .cpy c fa fb fc => some ⟨0xB0, 0, c, (encXd fa), (encM fb), (encXI fc)⟩
  | .cpyi c fa fb fc => some ⟨0xB1, 0, c, (encX fa), (encM fb), (encM fc)⟩
  | .cpstg c fa fb => some ⟨0xB2, 0, c, (encXd fa), (encXI fb), 0⟩
  | .cpabt c fa fb => some ⟨0xB3, 0, c, (encXd fa), (encXI fb), 0⟩
  | .vwreg c fa fb fc => some ⟨0xC0, 0, c, (encXd fa), (encM fb), (encM fc)⟩
  | .vwdrop c fa fb => some ⟨0xC1, 0, c, (encXd fa), (encX fb), 0⟩
  | .vwld c .wait a m => some ⟨0xC2, 0, c, encVd a, encM m, 0⟩
  | .vwld c (.staleok p) a m => some ⟨0xC2, 1, c, encVd a, encM m, encPd p⟩
  | .vwld c .trap a m => some ⟨0xC2, 2, c, encVd a, encM m, 0⟩
  | .vwsync c fa fb => some ⟨0xC3, 0, c, (encXd fa), (encX fb), 0⟩
  | .vwgen c a m s => some ⟨0xC4, 0, c, encXd a, encM m, 2 ^ 22 + s.code⟩
  | .quant c fa fb => some ⟨0xC5, 0, c, (encXd fa), (encM fb), 0⟩
  | .vwclr c fa fb => some ⟨0xC6, 0, c, (encXd fa), (encX fb), 0⟩
  | .map c fa fb fc => some ⟨0xD0, 0, c, (encXd fa), (encM fb), (encXI fc)⟩
  | .grant c fa fb fc => some ⟨0xD1, 0, c, (encXd fa), (encM fb), (encXI fc)⟩
  | .unmap c fa fb fc => some ⟨0xD2, 0, c, (encXd fa), (encX fb), (encXI fc)⟩
  | .probe c fa fb fc => some ⟨0xD3, 0, c, (encXd fa), (encX fb), (encXI fc)⟩
  | .movepg c fa fb fc => some ⟨0xD4, 0, c, (encXd fa), (encX fb), (encX fc)⟩
  | .space c fa fb => some ⟨0xD5, 0, c, (encXd fa), (encXI fb), 0⟩
  | .retiresp c fa fb => some ⟨0xD6, 0, c, (encXd fa), (encXI fb), 0⟩
  | .bsend c fa fb => some ⟨0xE0, 0, c, (encXd fa), (encM fb), 0⟩
  | .bpost c g fa fb => some ⟨0xE1, g.val, c, (encXd fa), (encM fb), 0⟩
  | .bcancel c fa fb => some ⟨0xE2, 0, c, (encXd fa), (encM fb), 0⟩
  | .bstat c fa fb => some ⟨0xE3, 0, c, (encXd fa), (encM fb), 0⟩
  | .evid c fa fb fc => some ⟨0xF0, 0, c, (encXd fa), (encM fb), (encX fc)⟩
  | .dbgbrk c => some ⟨0xF1, 0, c, 0, 0, 0⟩
  | .ill _ => none
  | .issueCycle .. | .blockRefetch .. | .longProducerFill .. | .registerLineFill ..
  | .writeBackFailure .. | .messageArrival .. | .messageTimeout .. | .remoteMessageStatus ..
  | .handlerStart .. | .faultHandlerStart .. | .handlerBudget .. | .landingPacketOffer ..
  | .continuationPlacement .. | .stealContinuation .. | .continuationReady .. | .launchMessage ..
  | .worldOpen .. | .launchDependencesMet .. | .itemCreation .. | .launchCompletion ..
  | .handlerTableLeave .. | .budgetCharge .. | .taskDependenceMet .. | .taskDependenceRetest ..
  | .taskIssue .. | .taskDoneFill .. | .preemptionRequest .. | .cooperativeWindowEnd ..
  | .preemptDrainComplete .. | .regionResume .. | .restartContinuationCreate .. | .movepgSwitch ..
  | .unmapWalkDone .. | .storeBufferDrain .. | .retryBackoffExpiry .. | .waitaTimeout ..
  | .monitorWakeNotice .. | .barrierRelease .. | .bwTimeout .. | .nbarrNoticeArrival ..
  | .nbarrTimeout .. | .vectorCommandStart .. | .matrixCommandStart .. | .ringTileArrival ..
  | .ringTimeout .. | .copyCommandStart .. | .copyPieceWrite .. | .copyCommandComplete ..
  | .viewRefresh .. | .quantService .. | .fabricRequestReceive .. | .fabricAckArrival ..
  | .fabricResendTimeout .. | .skipNoticeArrival .. | .orderedFlagRelease .. | .orderedFlagTimeout ..
  | .flitNakReplay .. | .healthScoreHalving .. | .parityTopup .. | .stompTail .. | .rtsArrival ..
  | .tokenIssue .. | .tokenExpiry .. | .bulkDataArrival .. | .dropNoticeArrival ..
  | .cancelNoticeArrival .. | .poolAckTimeout .. | .getVersion .. | .getCapabilities ..
  | .negotiateAlgorithms .. | .getDigests .. | .getCertificate .. | .challenge .. | .getMeasurements ..
  | .keyExchange .. | .finish .. | .heartbeat .. | .endSession .. | .keyImport ..
  | .unsupportedSpdmRequest .. | .launchDoorbell .. | .hostMap .. | .hostGrant .. | .hostUnmap ..
  | .hostProbe .. | .hostSpace .. | .hostRetiresp .. | .reset .. | .lend .. | .recall ..
  | .recallDeadline .. | .kill .. | .scrub .. | .preempt .. | .resume .. | .teardownReport ..
  | .partitionEntryWrite .. | .debugEntryWrite .. | .registerWrite .. | .sleepRequest .. | .wake ..
  | .recoveryReload .. | .powerOnReset .. | .railFault .. | .thermalReading .. | .correctedCodeword ..
  | .crossbarParityError .. | .tokenArrival .. | .powerCycleComplete .. | .scrubComplete ..
  | .badTreeCommand .. | .badPartitionCommand .. => none

/-- The word of a well-formed instruction (R34, R35, R42 to R50); `none` for an event. -/
def encode : Instr → Option IWord
  | .ill bits => some (BitVec.ofNat 96 (0xFF * 2 ^ 88 + bits.toNat))
  | i => (encodeFields i).map Raw.toWord

/-! ## Words as bytes -/

/-- A little-endian number of bytes, the first byte the least significant (R8). -/
def leNat : List Byte → Nat
  | [] => 0
  | b :: bs => b.toNat + 256 * leNat bs

/-- The `k` bytes of a number, least significant first (R8). -/
def leBytes : Nat → Nat → List Byte
  | 0, _ => []
  | k + 1, n => BitVec.ofNat 8 n :: leBytes k (n / 256)

/-- The instruction of the twelve bytes of a slot (R29). -/
def decodeBytes (bs : List Byte) : Except DecodeError Instr := decode (BitVec.ofNat 96 (leNat bs))

/-- The instruction that the decoder reads from a word whose bits are `w`, bit 0 the least significant bit of the
first byte (R29, R34); bits above `nbits` are zero. -/
def decodeTableWord (nbits w : Nat) : Option Instr :=
  match decodeBytes (leBytes 12 (w % 2 ^ min nbits 96)) with
  | .ok i => some i
  | .error _ => none

end Sys2Proof
end

