-- ==== Sys2Proof/Machine/Map.lean ====
section
/-! DEFINITION. Sparse maps in one canonical form: keys strictly rising, and, where the map has a default value,
no entry equal to it. Equal maps are equal data. -/

namespace Sys2Proof.Machine

/-- A sparse map: key and value pairs, keys strictly rising. -/
abbrev KMap (α : Type) := List (Nat × α)

variable {α : Type}

/-- The value at a key, where the map lists one. -/
def KMap.look : KMap α → Nat → Option α
  | [], _ => none
  | (k, v) :: t, a => if a = k then some v else if a < k then none else KMap.look t a

/-- Is the key listed? -/
def KMap.has (m : KMap α) (a : Nat) : Bool := (KMap.look m a).isSome

/-- Sets the value at a key. -/
def KMap.put : KMap α → Nat → α → KMap α
  | [], a, x => [(a, x)]
  | (k, v) :: t, a, x =>
    if a = k then (k, x) :: t else if a < k then (a, x) :: (k, v) :: t else (k, v) :: KMap.put t a x

/-- Removes a key. -/
def KMap.del : KMap α → Nat → KMap α
  | [], _ => []
  | (k, v) :: t, a => if a = k then t else if a < k then (k, v) :: t else (k, v) :: KMap.del t a

/-- The value at a key, or the default. -/
def KMap.lookD (m : KMap α) (a : Nat) (d : α) : α := (KMap.look m a).getD d

/-- Sets the value at a key; the default is not listed. -/
def KMap.putD [DecidableEq α] (m : KMap α) (a : Nat) (d x : α) : KMap α :=
  if x = d then KMap.del m a else KMap.put m a x

/-- Changes the value at a key, if the map lists one. -/
def KMap.modify (m : KMap α) (a : Nat) (f : α → α) : KMap α :=
  match KMap.look m a with
  | none => m
  | some v => KMap.put m a (f v)

/-- Keys and values for which the test holds. -/
def KMap.select (m : KMap α) (f : Nat → α → Bool) : KMap α := m.filter fun p => f p.1 p.2

/-- Every value changed. -/
def KMap.mapVals (m : KMap α) (f : Nat → α → α) : KMap α := m.map fun p => (p.1, f p.1 p.2)

/-- Every value changed; values equal to the default are not listed. -/
def KMap.mapD [DecidableEq α] (m : KMap α) (d : α) (f : α → α) : KMap α :=
  (KMap.mapVals m fun _ v => f v).filter fun p => decide (p.2 ≠ d)

/-- Keys strictly rising above a bound. -/
def KMap.sortedAbove : Nat → KMap α → Bool
  | _, [] => true
  | b, (k, _) :: t => decide (b < k) && KMap.sortedAbove k t

/-- Keys strictly rising. -/
def KMap.sorted : KMap α → Bool
  | [] => true
  | (k, _) :: t => KMap.sortedAbove k t

/-- The canonical form of a map with default value `d`. -/
def KMap.canon [DecidableEq α] (d : α) (m : KMap α) : Bool :=
  KMap.sorted m && m.all fun p => decide (p.2 ≠ d)

/-- A set of numbers. -/
abbrev KSet := KMap Unit

/-- Adds a number to a set, or takes it out. -/
def KSet.set (m : KSet) (a : Nat) (b : Bool) : KSet := if b then KMap.put m a () else KMap.del m a

/-- Adds a key or takes it out for each number from `a`, `n` of them. -/
def KSet.setRange (m : KSet) (b : Bool) : Nat → Nat → KSet
  | _, 0 => m
  | a, n + 1 => KSet.set (KSet.setRange m b (a + 1) n) a b

end Sys2Proof.Machine
end

