-- ==== Sys2Proof/Machine/Types.lean ====
section
/-! DEFINITION. The kinds of data that the state of a package is made of: memory, contexts, messages, cores and
clusters, launches and regions, address spaces (chapters 03 to 09, 24 to 27). -/

namespace Sys2Proof.Machine

/-! ## Memory (chapters 06, 08, 24) -/

/-- An access after its address has been formed and translated: the raw segments it touches in address order, the
decoded size, and what travels with it. -/
structure Acc where
  /-- raw segments: physical address and length (R158, R161) -/
  parts   : List (Nat × Nat)
  /-- decoded size in bytes -/
  size    : Nat
  /-- decoding window 0 to 6 (R161) -/
  win     : Nat
  /-- rounding code of a store through a window (R163) -/
  rnd     : Nat
  world   : Nat
  /-- the access carries the trusted bit (R136) -/
  trusted : Bool
  /-- stored nodes on the path of the translation, the covering node first (R132); the number of R129 for a root node; a
  larger number, the mark of a grant, where that has cut the translation (R142); none for a local address -/
  nodes   : List Nat
  /-- first byte of the access, for trap_addr (R133) -/
  va      : Nat
  deriving DecidableEq, Repr

/-- Where a word lives (R156, R168, R174). -/
inductive Home where
  | local (die core : Nat)
  | vault (die vault : Nat)
  | dram (die : Nat)
  | page
  | cxl (port : Nat)
  | job (pkg : Nat)
  | host
  | nowhere
  deriving DecidableEq, Repr

/-- A line that an L1 holds (R165, R172): writable, modified, and its last use, by the core's count of uses; a streamed line
has use 0 (R173). -/
structure L1Line where
  wr  : Bool
  md  : Bool
  use : Nat
  deriving DecidableEq, Repr

/-- How an aligned 1 MiB region of vault, DRAM or CXL memory is protected (R370, R371). -/
structure Prot where
  /-- owner world; 0 open -/
  owner  : Nat
  count  : BitVec 32
  /-- keys under which the listed bytes are held, innermost first; the last is the owner's -/
  layers : List Nat
  /-- a hash extent: its first address, its chunks and its root -/
  hash   : Option (Nat × Nat × BitVec 256)
  /-- a CXL region that has been made open still reads, in its tail, as tags under this key material and counter, until it is
  scrubbed (R373, R375) -/
  tail   : Option (Nat × BitVec 32)
  deriving DecidableEq, Repr

/-- Memory of the package (R155 to R157, R164, R166, R373). -/
structure Memory where
  /-- the bytes, 0 where nothing is listed -/
  bytes   : List Host.Cell
  /-- word addresses div 8 whose full-empty bit is empty -/
  empties : KSet
  /-- word addresses div 8 that are poisoned -/
  poisons : KSet
  /-- layout tag of each 4 KiB of local memory, address div 4096; 0 where nothing is listed (R164) -/
  tags    : KMap Byte
  /-- protected regions by address div 1 MiB (R370) -/
  prot    : KMap Prot
  /-- keys that granules are still masked under beneath their owner's, innermost first, by address div 64 KiB
  (R375) -/
  residue : KMap (List Nat)
  /-- lines, address div 64, whose listed bytes are the stored bytes and not their owner's view (R372) -/
  raws    : KSet
  /-- tags that are not the tag of what their line holds (R373): the stored line, of 64 bytes, that the tag covers, or the
  8 bytes of a tag written in the tail of a CXL region -/
  macs    : KMap (List Byte)
  /-- earlier versions of lines that their owner has written under the region's present counter, as it saw them: their
  ciphertext still passes the tag (R374, log 25) -/
  vers    : KMap (List (List Byte))
  /-- nodes of hash trees that a die has verified, newest first, with their digests: by die, 8 for the I/O die (R373,
  log 105) -/
  nodes   : KMap (List (Nat × BitVec 256))
  deriving DecidableEq, Repr

/-! ## Register fills -/

/-- A capture of the first NaN (R250). -/
structure NanCap where
  pos : BitVec 64
  fmt : BitVec 16
  /-- the operation's place in the issue order of its context: of several that fill in one cycle the first is captured -/
  seq : Nat := 0
  deriving DecidableEq, Repr

/-- An atomic operation at its home (R201 to R203). -/
inductive AtomOp where
  | red (op : RedOp)
  | swap
  | cas (expect : BitVec 64)
  | fadd
  deriving DecidableEq, Repr

/-- What a pending register fills with. -/
inductive FillSrc where
  /-- a value already made -/
  | value (v : BitVec 1024)
  /-- the number of waits that a `WAKEA` took in cycle `now` of its die; it lands in a later one (R207, R208) -/
  | count (now n : Nat)
  | poisoned
  /-- the result of a vector command, which always fills (R259) -/
  | result (v : BitVec 1024)
  /-- a load of another die, performed when it lands (R178) -/
  | load (a : Acc)
  /-- `FEGET` of another die -/
  | feget (a : Acc)
  /-- an atomic of another die -/
  | atom (a : Acc) (op : AtomOp) (w64 : Bool) (b : BitVec 64)
  /-- a fence: fills when its covered stores are complete (R186) -/
  | fence (id : Nat) (scope : Scope) (sc : Bool)
  /-- evidence: the request line, the reply's place and the order of arrival; no request once the record is written
  (R376, R381) -/
  | evid (req : List Byte) (reply : Acc) (order : Nat)
  /-- `PUBLISH` or `OBSERVE` of a range; stores numbered from `upto` on are later ones (R391) -/
  | pool (observe : Bool) (va len upto : Nat)
  /-- `PUBLISH` or `OBSERVE` waits for the device to acknowledge: the cycle of its last write-back, the lines written back with
  what the device held of them, and how many were discarded (R391) -/
  | poolAck (since : Nat) (sent : List (Nat × List Byte)) (ds : Nat)
  /-- `CPABT`: fills with a count once no command that it reached is still under way; with `all` entries of the schedule
  too (R314). A command that it reached in the middle of a piece joins the count when it ends as aborted. -/
  | aborted (n : Nat) (all : Bool)
  /-- `SPACE` of a space, bound to a region: the space is made as the status fills (R149, R150) -/
  | space (sp region : Nat)
  /-- `BCANCEL`: a word that fills after the status of the send or post it ended, a register of context `uid` (R363) -/
  | following (uid : Nat) (dest : AnyReg) (v : BitVec 64)
  deriving DecidableEq, Repr

/-- A long producer on its way to its destination (R55, R56). -/
structure Fill where
  dest  : AnyReg
  /-- the second destination of `VQNT`, which fills with the first -/
  also  : Option (AnyReg × BitVec 1024)
  src   : FillSrc
  flags : BitVec 16
  nan   : Option NanCap
  /-- an acquire that this fill ends (R179) -/
  acq   : Option Nat
  deriving DecidableEq, Repr

/-! ## Store buffer (R176) -/

/-- What an entry of the store buffer does at its home. -/
inductive StOp where
  | store (mode : StMode) (data : List Byte)
  | feset (full : Bool)
  | wbl
  | invl
  | red (op : RedOp) (w64 : Bool) (data : BitVec 64)
  /-- an ordered flag: a store to a job-scope address with hint 11 (R349) -/
  | flag (size : Nat) (mode : StMode) (data : BitVec 1024)
  /-- the marker of a `FENCE` (R186) -/
  | marker (id : Nat)
  deriving DecidableEq, Repr

/-- An entry of a store buffer. -/
structure SEntry where
  /-- its number among the stores, acquires and fences of the context -/
  num   : Nat
  acc   : Acc
  op    : StOp
  /-- locality hint (R173, R195) -/
  loc   : BitVec 2
  /-- fe.rlim as it was when the entry was made (R65) -/
  rlim  : Nat
  /-- acquires that were not yet performed when the entry was made (R179) -/
  after : List Nat
  /-- admitted to its home's retry list: a waiting `ST.wefill` (R167) -/
  admitted : Bool
  deriving DecidableEq, Repr

/-- A store that failed and that no fence has reported (R187): the scope of its home, its fabric path, and bits
[3:0] of the status. -/
structure FailRec where
  scope : Scope
  path  : Option (Fin 4)
  bits  : BitVec 4
  deriving DecidableEq, Repr

/-! ## Contexts (chapters 03, 04) -/

/-- States of a continuation (R78). -/
inductive CxState where
  | ready | running | suspended | faulted | retired
  deriving DecidableEq, Repr

/-- What a slot holds (R76, R86, R88). -/
inductive CtxKind where
  | free
  | pinned
  | landing
  | faultHandler
  deriving DecidableEq, Repr

/-- Origins of a continuation (R78). -/
inductive Origin where
  | item | spawn | converted | restart
  deriving DecidableEq, Repr

/-- What a suspended continuation waits for (R78). -/
inductive WaitFor where
  | none
  | reg (r : AnyReg)
  | word (a : BitVec 64)
  | changed (a : BitVec 64)
  | phaser (die : Nat) (n : Nat)
  | wire (dir : BwDir)
  | nb (scope : NbScope) (tag : BitVec 8)
  deriving DecidableEq, Repr

/-- A line of a context image held in the register cache (R59). -/
structure LineSt where
  dirty : Bool
  evict : Bool
  use   : Nat
  deriving DecidableEq, Repr

/-- Why the last issue attempt of a context did not issue. -/
inductive Why where
  | reg
  /-- a line of the register cache misses: the line, and every line that the instruction names (R59) -/
  | line (n : Nat) (named : List Nat)
  | other
  deriving DecidableEq, Repr

/-- The packet of a landing handler (R88): a copy or bulk packet, its destination, and who must hear of its end. -/
inductive Landing where
  | copy (die core run : Nat) (dest : Nat) (len : Nat) (data : List Byte)
  | bulk (die post : Nat) (seq : BitVec 32) (off dest len : Nat) (data : List Byte)
  deriving DecidableEq, Repr

/-- The task that a message or a context carries out (R120): die, cluster and number of the task. -/
structure TaskRef where
  die : Nat
  cl  : Nat
  k   : Nat
  deriving DecidableEq, Repr

/-- A `VWLD` that waits (R331): the generation that it compares with, and the registration and faults of the view as it
found them. -/
structure VwHold where
  gen    : BitVec 64
  serial : BitVec 24
  fails  : Nat
  deriving DecidableEq, Repr

/-- A context: the registers, the image lines held in the register cache, and the part's own copy of the
continuation record (R52, R57, R58, R78). -/
structure Context where
  kind   : CtxKind
  world  : Nat
  space  : Nat
  region : Nat
  lid    : Nat
  item   : BitVec 64
  die    : DieNo
  core   : CoreNo
  slot   : Option (Fin 8)
  -- the record (R78)
  state  : CxState
  /-- address of the record in the space; 0 in a pinned handler -/
  record : Nat
  image  : Nat
  origin : Origin
  wait   : WaitFor
  pri    : Nat
  qlink  : BitVec 64
  discarded : Bool
  -- registers
  pc     : BitVec 64
  x      : KMap (BitVec 64)
  v      : KMap (BitVec 1024)
  p      : BitVec 8
  xFull  : BitVec 64
  vFull  : BitVec 32
  pFull  : BitVec 8
  xPois  : BitVec 64
  vPois  : BitVec 32
  xPend  : BitVec 64
  vPend  : BitVec 32
  pPend  : BitVec 8
  flags  : BitVec 16
  nanpos : BitVec 64
  nanfmt : BitVec 16
  /-- place in the issue order of the operation whose first NaN was captured in the present cycle (R250) -/
  nanSeq : Option Nat
  cause  : BitVec 8
  causeOp : BitVec 8
  trapPc : BitVec 64
  trapAddr : BitVec 64
  bwto   : BitVec 32
  rlim   : BitVec 16
  srmode : Bool
  -- the register cache's lines of this context (R59 to R61)
  lines  : KMap LineSt
  /-- image lines that have never been written back: they read as at creation (R95) -/
  virgin : BitVec 73
  /-- the control line as its image holds it: the resident copy is dirty where it differs (R59) -/
  kept   : BitVec 512
  -- memory accesses in flight
  sbuf   : List SEntry
  failed : List FailRec
  fills  : List Fill
  /-- acquires not yet performed (R179) -/
  acqs   : List Nat
  /-- numbers instructions, and the stores, acquires and fences among them -/
  serial : Nat
  /-- refusals of the access that holds the context (R168); `none` when none does -/
  refusals : Option Nat
  /-- cycle at which the refused access tries again -/
  retryAt : Nat
  -- issue
  /-- the block that the context executes from, by its address in the space: a context never mixes two versions of one
  block (R51) -/
  block  : Option (Nat × List Byte)
  /-- the block of the instruction being issued has code_end set (R29) -/
  codeEnd : Bool
  /-- execution has run past the end of such a block (R31) -/
  pastEnd : Bool
  why    : Option Why
  /-- PC of the instruction retired since placement (R411) -/
  stepped : Option (BitVec 64)
  /-- a fault raised at the next instruction boundary (R421) -/
  pendFault : Option (BitVec 8 × BitVec 64)
  /-- cycle in which the first instruction issued (R86) -/
  began  : Option Nat
  /-- the last issue set the yield hint (R38) -/
  skip   : Bool
  /-- first cycle in which the stall hint lets the context issue again (R38) -/
  stallTo : Nat
  /-- pre-empted and held (R123, R125) -/
  held   : Bool
  /-- place in the ready queue: the order of entry; `none` when not queued (R113) -/
  queued : Option Nat
  /-- cluster whose ready queue holds it: die times 16 plus cluster -/
  queueAt : Nat
  /-- a launch item that has not yet reached running (R117) -/
  unstarted : Bool
  /-- it waited on barrier wires and has not taken a slot since: it stays on its core (chapter 14; log 102) -/
  tied   : Bool
  channel : Nat
  landing : Option Landing
  task   : Option TaskRef
  /-- the generation that a held `VWLD` compares with (R331) -/
  vwGen  : Option VwHold
  deriving DecidableEq, Repr

/-! ## Messages (R81 to R84, R423) -/

/-- The register that waits for a status word. -/
structure Target where
  uid  : Nat
  dest : AnyReg
  deriving DecidableEq, Repr

/-- A message on its way or in an arrival queue. -/
structure Msg where
  chan   : Nat
  die    : DieNo
  core   : CoreNo
  world  : Nat
  lid    : Nat
  item   : BitVec 64
  header : BitVec 64
  payload : List (BitVec 64)
  hpc    : Option (BitVec 64)
  /-- generated by the part: channels 62 and 63 -/
  gen    : Bool
  /-- the sending context and its status register -/
  status : Option Target
  /-- sender of another package: package, die and request number, to whom the status goes -/
  remote : Option (BitVec 14 × DieNo × Nat)
  /-- sending context, for the order of R84 -/
  sender : Nat
  task   : Option TaskRef
  /-- cycle of the receiving die in which it reached the core (R84) -/
  since  : Nat
  /-- launch of the handler table that it selected when it arrived (R82) -/
  table  : Option Nat
  deriving DecidableEq, Repr

/-! ## Cores and clusters (R82, R84, R114, R115) -/

/-- An entry of a handler table (R82). -/
structure HEntry where
  pc      : BitVec 64
  refused : BitVec 32
  pri     : Fin 4
  landing : Bool
  mask    : Bool
  permitted : Bool
  deriving DecidableEq, Repr

/-- A resident handler table (R82): its launch, with the world, space and region that its handlers run in, the order of
the launch's acceptance, and the physical address of the image. -/
structure HTable where
  lid     : Nat
  world   : Nat
  space   : Nat
  region  : Nat
  compat  : Bool
  order   : Nat
  image   : Nat
  entries : List HEntry
  deriving DecidableEq, Repr

/-- A copy of a block in an instruction cache (R30, R51): its 64 bytes, whether memory returned it with poison,
whether its first instruction has been checked, and whether it has been fetched again. -/
structure IBlock where
  bytes   : List Byte
  poison  : Bool
  checked : Bool
  again   : Bool
  deriving DecidableEq, Repr

end Sys2Proof.Machine
end

