-- ==== Sys2Proof/Machine/SysTypes.lean ====
section
/-! DEFINITION. The kinds of data that the package-wide parts of the state are made of: launches and regions
(chapter 05), address spaces (06), worlds (24), partitions (26), the host link (25). -/

namespace Sys2Proof.Machine

/-! ## Who receives a status word -/

/-- Where a status word goes: a register of a context, a word of memory written as `ST.fill` writes (R386, R395),
or nowhere. -/
inductive Sink where
  | reg (t : Target)
  | mem (a : Nat)
  | nowhere
  deriving DecidableEq, Repr

/-! ## Address spaces (chapter 06) -/

/-- A stored node of the mapping tree (R129, R131). -/
structure Node where
  space  : Nat
  addr   : Nat
  len    : Nat
  /-- the physical memory behind the extent, in order: address and length -/
  back   : List (Nat × Nat)
  rights : BitVec 8
  /-- parent node; `none` for a child of a root node or for a granted root piece -/
  parent : Option Nat
  /-- where it begins within its parent's extent; under a root node, its physical address -/
  off    : Nat
  depth  : Nat
  gen    : Nat
  /-- number of the `MAP` or `GRANT` that made it: the parts that later grants split from it keep it -/
  birth  : Nat
  /-- for a granted root piece, its address in the root node (R129, R142) -/
  rootAt : Option Nat
  /-- cut by a withdrawal, and not yet freed by its walk (R143) -/
  cut    : Bool
  deriving DecidableEq, Repr

/-- A live space other than space 0 (R149, R150). -/
structure Space where
  region  : Nat
  creator : Nat
  deriving DecidableEq, Repr

/-- A withdrawal whose status has not filled (R143, R144). -/
structure Walk where
  sink   : Sink
  nodes  : List Nat
  /-- the space that the walk retires (R151) -/
  retire : Option Nat
  deriving DecidableEq, Repr

/-- A `GRANT` whose status fills after its shootdown (R142). -/
structure GrantWait where
  sink  : Sink
  /-- the mark of the translations that it has cut -/
  nodes : List Nat
  /-- the memory granted -/
  parts : List (Nat × Nat)
  value : BitVec 64
  deriving DecidableEq, Repr

/-- A page migration (R147). It is kept until the accesses that it paused have been performed. -/
structure Move where
  /-- its number -/
  num   : Nat
  sink  : Sink
  /-- the memory that is exchanged: source, destination, bytes -/
  pairs : List (Nat × Nat × Nat)
  /-- stored nodes that cover the source; none under a root node -/
  nodes : List Nat
  /-- a withdrawal has cut the source before the switch (R148) -/
  cut   : Bool
  /-- the copy has ended: by the switch, or without it where the source is cut -/
  ended : Bool
  deriving DecidableEq, Repr

/-! ## Regions and launches (chapter 05) -/

/-- A live region: what R422 captures of the RCB chain. -/
structure Region where
  /-- physical address of its RCB -/
  rcb    : Nat
  /-- physical addresses and override bits from the region's RCB to the root (R103) -/
  chain  : List (Nat × BitVec 13)
  /-- space in which the launch that made it runs: its save area, restart and report are addresses there (log 101) -/
  space  : Nat
  wgt    : Nat
  pri    : Nat
  fdie   : DieNo
  fcore  : CoreNo
  restartPc  : BitVec 64
  restartImg : Nat
  save   : Nat
  arena  : Nat
  arenaN : Nat
  report : Nat
  deriving DecidableEq, Repr

/-- How far a launch has come (R110). -/
inductive LStage where
  /-- record read and checked, world not yet open -/
  | opening
  /-- waiting for its dependences -/
  | waiting
  | running
  deriving DecidableEq, Repr

/-- A live launch (R108 to R112). -/
structure Launch where
  stage  : LStage
  /-- its world; 0 until it is open -/
  world  : Nat
  /-- world of the launching context -/
  lworld : Nat
  region : Nat
  /-- running and launching space (R109) -/
  space  : Nat
  lspace : Nat
  entry  : BitVec 64
  /-- physical address of the completion word; 0 none -/
  done   : Nat
  items  : Nat
  made   : Nat
  seed   : BitVec 64
  sched  : Option Nat
  deps   : List Nat
  dies   : BitVec 8
  clusters : BitVec 16
  cores  : BitVec 16
  ordered : Bool
  compat : Bool
  /-- items that have reached running (R117) -/
  started : Nat
  /-- creation of an item failed: the launch ends with bad_record (R104) -/
  broken : Bool
  htab   : List HEntry
  /-- physical address of the handler-table image -/
  htabAt : Nat
  /-- address of the sealed handle in the launching space -/
  key    : Nat
  /-- `LAUNCH`'s status register, or none for a doorbell -/
  sink   : Sink
  /-- order of acceptance -/
  order  : Nat
  /-- stipple seeds of SL-480 compatibility (R245): by logical core -/
  stipple : KMap (BitVec 64)
  /-- cycle of the last request of such a generator, and which converter made it -/
  requests : KMap (Nat × Nat)
  deriving DecidableEq, Repr

/-- A launch message on its way to the launch controller (R110, R385). -/
structure LaunchMsg where
  space : Nat
  addr  : Nat
  /-- region of the launching context; `none` for the host -/
  issuer : Option Nat
  sink  : Sink
  deriving DecidableEq, Repr

/-- What an account owes (R106): slot-cycles and engine bytes not yet applied, and bytes already counted that have not
yet made up a slot-cycle. -/
structure Charge where
  cc    : Nat
  bytes : Nat
  carry : Nat
  deriving DecidableEq, Repr

/-- A pre-emption of a region on a cluster (R123 to R128). -/
inductive PreStage where
  /-- in the cooperative window, which ends at the cycle -/
  | window (until_ : Nat)
  /-- draining under the choice drain -/
  | draining
  /-- pre-empted -/
  | out
  deriving DecidableEq, Repr

/-- Who asked for a pre-emption, and hence who ends it (R123, R396, R401). -/
inductive PreBy where
  | host
  | recall (slice : Nat)
  | controller
  deriving DecidableEq, Repr

/-- What the pre-emption of a region has put into the segment of a core (R126): the choice made there, the cause of a failed
write, whether the cluster's lists overflowed, the cxids listed, and the lines of engine state. -/
structure SegUse where
  choice : Nat
  cause  : Nat
  spill  : Bool
  ids    : List Nat
  lines  : Nat
  deriving DecidableEq, Repr

/-- The pre-emption of one region on one cluster. -/
structure Preempt where
  region   : Nat
  /-- the requests that hold it (R123, R396, R401) -/
  owners   : List PreBy
  stage    : PreStage
  deadline : Nat
  /-- cycles left after the window (R124) -/
  remain   : Nat
  /-- choice made: 0 drain, 1 save, 2 discard (R126) -/
  choice   : Option (Fin 3)
  /-- cxids discarded on the cluster (R128) -/
  nDiscard : Nat
  /-- the cluster, or a core of it whose save failed, has discarded (R125, R126) -/
  discards : Bool
  /-- what the segments of its cores hold of it -/
  segs     : KMap SegUse
  deriving DecidableEq, Repr

/-- A restart continuation still to be made (R128). -/
structure Restart where
  region  : Nat
  die     : Nat
  cl      : Nat
  segment : Nat
  count   : Nat
  deriving DecidableEq, Repr

/-! ## Tile tasks (R119, R120) -/

/-- How far a task has come. -/
inductive TStage where
  | waiting
  | issued
  deriving DecidableEq, Repr

/-- A task of a cluster scheduler. -/
structure TTask where
  stage  : TStage
  /-- core of the context that issued `TASK` -/
  source : CoreNo
  world  : Nat
  lid    : Nat
  region : Nat
  space  : Nat
  item   : BitVec 64
  args   : List (BitVec 64)
  tag    : BitVec 64
  kind   : Fin 4
  /-- completion word in the space; 0 none -/
  done   : Nat
  /-- predecessor completion words: address, whether met, whether it waits in a retry list -/
  deps   : List (Nat × Bool × Bool)
  deriving DecidableEq, Repr

/-! ## Worlds (chapter 24) -/

/-- Why a world is torn down (R402, R405). -/
inductive TearKind where
  | noTable | slot7 | kill | reset | controlLine
  deriving DecidableEq, Repr

/-- A live world (R366 to R369). -/
structure WorldSt where
  /-- key material: the secret with the job and world it is bound to (R369) -/
  key    : Nat
  secret : BitVec 256
  job    : Nat
  digest : BitVec 256
  /-- issue weight of the launch that opened it (R114) -/
  weight : Nat
  /-- extents: physical address and MiB (R371) -/
  extents : List (Nat × Nat)
  /-- pages of open memory written, address div 64 KiB (R405) -/
  dirty  : KSet
  dirtyLost : Bool
  /-- serial of the last view registered (R320) -/
  viewSerial : BitVec 24
  /-- teardown under way: kind and cause (R402, R404) -/
  tear   : Option (TearKind × BitVec 8)
  /-- root RCB (physical), report address and its space, of every launch of the world (R404, R405) -/
  roots  : List (Nat × Nat × Nat)
  /-- region ids of its launches (R160) -/
  regs   : List Nat
  deriving DecidableEq, Repr

/-! ## Partitions and the host (chapters 25 to 27) -/

/-- A lent slice (R400, R401). -/
structure Lend where
  slice    : Nat
  lender   : Nat
  borrower : Nat
  deadline : Nat
  /-- a recall is under way: it ends at this cycle of the die -/
  recalled : Option Nat
  deriving DecidableEq, Repr

/-- Why a slice is under power cycle (R397, R401). -/
inductive CycleWhy where
  | recall (lender : Nat)
  | reset (p : Nat)
  deriving DecidableEq, Repr

/-- A scrub still to be done (R375, R399). -/
structure Scrub where
  base : Nat
  len  : Nat
  /-- a SCRUB command waits for its result word -/
  cmd  : Bool
  /-- what has been written there meanwhile and stays: world, address, length (R399) -/
  kept : List (Nat × Nat × Nat)
  deriving DecidableEq, Repr

/-- A doorbell write (R385). -/
inductive Bell where
  | launch (a : Nat)
  | tree (a : Nat)
  deriving DecidableEq, Repr

/-- A partition command whose result word is still to be written (R396, R397, R401); of PREEMPT the regions and clusters that
it waits for. -/
inductive PartWait where
  | reset (p : Nat)
  | recall (slice : Nat)
  | preempt (todo : List (Nat × Nat))
  deriving DecidableEq, Repr

/-- The way that a sending of a request takes out of the package (R342, R347): the path whose ports and order of
dimensions it takes, the port that it leaves by, and whether it is on a detour, in the virtual channel of its own. -/
structure Route where
  path   : Fin 4
  port   : Option (Fin 48)
  detour : Bool
  deriving DecidableEq, Repr

/-- What the part has sent to the outside. -/
inductive OutMsg where
  /-- a request of the fabric: its words, destination package and route (R346, R347) -/
  | request (r : FabReq) (pkg : Nat) (via : Route)
  /-- an acknowledgement to a sender (R346) -/
  | ack (pkg : BitVec 14) (die : DieNo) (seq : Nat) (a : FabAck)
  /-- a skip notice of a die's NI to a package (R348) -/
  | skip (pkg : Nat) (die : DieNo) (path : Fin 4)
  | rts (pkg die : Nat) (r : Rts)
  | token (pkg die : Nat) (t : TokenMsg)
  | bulk (pkg die : Nat) (f : BulkFlit)
  | drop (pkg die : Nat) (n : BulkNotice)
  | cancel (pkg die : Nat) (n : BulkNotice)
  /-- a pool line written back to its device (R391) -/
  | pool (line : Nat) (data : List Byte)
  /-- a response of the SPDM responder (R376) -/
  | spdm (code : Nat) (data : List Byte)
  /-- a NAK to the previous hop (R350, R352) -/
  | nak (port : Nat) (lane : Nat)
  | health (port : Nat) (lane : Nat)
  deriving DecidableEq, Repr

/-- State of the part's TDISP interface (R383). -/
inductive Tdi where
  | unlocked
  /-- CONFIG_LOCKED -/
  | locked
  /-- RUN -/
  | run
  deriving DecidableEq, Repr

/-- Boot state (R416 to R419) and that of the host link (R383). -/
structure Boot where
  /-- 0 booting, 1 ready, 2 recovery, 3 asleep -/
  phase    : Fin 4
  cause    : BitVec 4
  verified : Bool
  alert    : Bool
  result   : BitVec 64
  /-- measurement index 14: loaded by the host (R418) -/
  hostLoad : Bool
  /-- the rails that are outside their ranges: they hold the package in reset (R413) -/
  rails    : List Rail
  tdi      : Tdi
  /-- the image in boot-ROM memory behind the load window, by offset; 0 where nothing is listed (R418) -/
  image    : KMap Byte
  /-- what the flash holds in place of the image that the part came with, by offset (R417) -/
  flash    : KMap Byte
  deriving DecidableEq, Repr

end Sys2Proof.Machine
end

