-- ==== Sys2Proof/Machine/SyncTypes.lean ====
section
/-! DEFINITION. The kinds of data of the synchronisation units: retry lists (R168), the monitor table (R204),
phasers (R211 to R213), barrier wires (R226) and the NI dissemination barrier (R230, R231). -/

namespace Sys2Proof.Machine

/-- Which access of a context a migration holds (R147): the instruction that it issues, an entry of its store buffer by its
number, or a pending load by its destination. -/
inductive Paused where
  | issue
  | entry (num : Nat)
  | fill (dest : AnyReg)
  deriving DecidableEq, Repr

/-- Who waits in a retry list, and for what (R168). -/
inductive WaitOp where
  /-- `LD.wait`, `LD.consume` and their `LDV` forms: lines of the raw footprint still to be served, bytes already
  read, and whether a poisoned word was met -/
  | load (uid : Nat) (dest : AnyReg) (acc : Acc) (consume : Bool) (left : List (Nat × Nat)) (got : List Byte)
      (pois : Bool) (acq : Nat)
  /-- `ST.wefill` and `STV.wefill`: lines still to be written and their data -/
  | store (uid : Nat) (acc : Acc) (left : List (Nat × Nat × List Byte))
  /-- the memory wait of `SUSPEND` -/
  | susp (uid : Nat)
  /-- a dependence of a tile task (R120) -/
  | task (t : TaskRef) (dep : Nat)
  /-- a `ST.wefill` that came from another package (R346): sender and request number -/
  | remote (pkg : BitVec 14) (die : DieNo) (seq : Nat) (acc : Acc) (data : List Byte)
  /-- a synchronising load of another package -/
  | remoteLoad (pkg : BitVec 14) (die : DieNo) (seq : Nat) (acc : Acc) (consume : Bool)
  /-- an access to a page that migration `num` moves (R147) -/
  | paused (uid : Nat) (who : Paused) (num : Nat)
  deriving DecidableEq, Repr

/-- An entry of a retry list, in order of admission. -/
structure Waiter where
  /-- word address -/
  word  : Nat
  world : Nat
  nodes : List Nat
  op    : WaitOp
  deriving DecidableEq, Repr

/-- The `WAKEA` that took an entry: of a context, for its register, or of another package (R207, R208). -/
inductive Taker where
  | ctx (uid : Nat) (dest : AnyReg)
  | far (pkg : BitVec 14) (die : DieNo) (seq : Nat)
  deriving DecidableEq, Repr

/-- An entry of a die's monitor table (R204). -/
structure Mon where
  addr   : Nat
  w64    : Bool
  expect : BitVec 64
  uid    : Nat
  dest   : AnyReg
  /-- the RCB whose limit it counts against (R105) -/
  lim    : Nat
  world  : Nat
  nodes  : List Nat
  /-- cycle of the die at which the wait times out (R205) -/
  deadline : Option Nat
  acq    : Nat
  /-- end of the wait, once it has come: the status to fill (R205, R206) -/
  ended  : Option (BitVec 64)
  /-- cycle of the die at which it ended (R208) -/
  endedAt : Nat
  /-- the `WAKEA` that took the entry (R208) -/
  taker  : Option Taker
  /-- order of registration over the package (R207) -/
  order  : Nat
  deriving DecidableEq, Repr

/-- A `WAITA` of another package that waits on a word of this one (R204, R346): its sender and request number. -/
structure RemoteMon where
  pkg    : BitVec 14
  die    : DieNo
  seq    : Nat
  addr   : Nat
  w64    : Bool
  expect : BitVec 64
  world  : Nat
  /-- order of registration over the package (R207) -/
  order  : Nat
  /-- die by whose cycles the events at the word are of one cycle: that of its home -/
  home   : Nat
  /-- end of the wait, answered once its cycle has passed (R208): 0 a change, 1 a `WAKEA` -/
  ended  : Option (BitVec 64)
  endedAt : Nat
  taker  : Option Taker
  deriving DecidableEq, Repr

/-- A member of a phaser (R213). -/
structure Member where
  phaser : Nat
  mode   : PhMode
  sp     : BitVec 32
  wp     : BitVec 32
  deriving DecidableEq, Repr

/-- A wait for the end of a phase (R217): the waiting context, its register, the phase, and the acquire. -/
structure PhWait where
  uid    : Nat
  dest   : AnyReg
  target : BitVec 32
  acq    : Nat
  deriving DecidableEq, Repr

/-- A phaser of a die's synchronisation engine (R213). -/
structure Phaser where
  serial  : BitVec 24
  world   : Nat
  /-- the RCB whose limit it counts against (R105) -/
  lim     : Nat
  ph      : BitVec 32
  need0   : Nat
  arr0    : Nat
  need1   : Nat
  arr1    : Nat
  touched : Bool
  waits   : List PhWait
  deriving DecidableEq, Repr

/-- One barrier lane of a core (R226): arrivals and releases, and the cycles of the arrivals not yet released, oldest
first. -/
structure Lane where
  a : Nat
  e : Nat
  times : List Nat
  deriving DecidableEq, Repr

/-- A lane that has seen no arrival. -/
def Lane.empty : Lane := { a := 0, e := 0, times := [] }

/-- A `BWWAIT` that waits (R227). -/
structure BwWait where
  uid  : Nat
  dest : AnyReg
  core : Nat
  dir  : BwDir
  n    : Nat
  acq  : Nat
  deadline : Option Nat
  deriving DecidableEq, Repr

/-- A barrier in progress on an NI (R231): the package and die to notify in each round, the round it is in, and when the
notice of each round so far was sent. -/
structure NbRun where
  uid   : Nat
  dest  : AnyReg
  peers : List (Nat × Nat)
  round : Nat
  /-- a notice of it could not be delivered (R232) -/
  lost  : Bool
  acq   : Nat
  deadline : Option Nat
  deriving DecidableEq, Repr

/-- A barrier instance of an NI (R230, R231): notices held, by epoch and round. -/
structure NbInst where
  world : Nat
  scope : NbScope
  tag   : BitVec 8
  epoch : Nat
  held  : List (Nat × Nat)
  run   : Option NbRun
  deriving DecidableEq, Repr

end Sys2Proof.Machine
end

