-- ==== Sys2Proof/Machine/EngTypes.lean ====
section
/-! DEFINITION. The kinds of data of a core's engines: vector (chapter 16), matrix (17) and copy (19). -/

namespace Sys2Proof.Machine

/-! ## Vector engine (R257 to R260) -/

/-- A result on its way: value, flags and first NaN. -/
structure Result where
  value : BitVec 1024
  flags : BitVec 16
  nan   : Option NanCap
  deriving DecidableEq, Repr

/-- What a queued vector command does when it starts. Every operand was captured at issue (R259); only a command
that draws on an SL-480 generator depends on when it starts (R245). -/
inductive VecJob where
  /-- the results, one for each destination -/
  | done (rs : List Result)
  | cvt (t : ElemType) (src old : BitVec 1024) (ctl : BitVec 22)
  | qnt (t : ElemType) (src old scales : BitVec 1024) (ctl : BitVec 22)
  deriving DecidableEq, Repr

/-- A queued vector command. -/
structure VecCmd where
  uid   : Nat
  world : Nat
  /-- its place in the issue order of its context (R250) -/
  seq   : Nat
  dests : List AnyReg
  job   : VecJob
  deriving DecidableEq, Repr

/-! ## Matrix engine (R277 to R292) -/

/-- Kinds of accumulator (R292). -/
inductive AccKind where
  | none | narrow8 | narrow16 | int32 | fp32 | fp64
  deriving DecidableEq, Repr

/-- A matrix command with the register operands it captured (R278). -/
inductive MatOp where
  | mlda (base : Nat) (layout : BitVec 64)
  | mldb (base : Nat) (layout : BitVec 64)
  | mma (ctl : BitVec 64)
  | mring
  | mzero (wide : Bool) (t : BitVec 64)
  | mclose
  | msta (t : ElemType) (base : Nat) (ctl : BitVec 64)
  | mstat
  | mrcfg (cfg : BitVec 64)
  deriving DecidableEq, Repr

/-- A queued matrix command. -/
structure MatCmd where
  uid   : Nat
  world : Nat
  lid   : Nat
  dest  : AnyReg
  op    : MatOp
  item  : BitVec 64
  pc    : BitVec 64
  srmode : Bool
  /-- its place in the issue order of its context (R250) -/
  order : Nat
  deriving DecidableEq, Repr

/-- A tile of B in the operand latch: 32 columns of 192 bytes, or of 48 for T2 (R280). -/
structure Tile where
  fmt : ElemType
  jt  : Nat
  cols : List (List Byte)
  deriving DecidableEq, Repr

/-- The owner's engine state (R280). Lanes are numbered 512 i + c. -/
structure MatEng where
  owner  : Option Nat
  ring   : Nat
  n      : Nat
  kind   : AccKind
  astage : Option (ElemType × List (List Byte))
  latch  : List Tile
  acc    : KMap (BitVec 32)
  /-- lanes spilled (1) or overflowed (2) -/
  lanes  : KMap Nat
  bound  : Option Nat
  pos    : KMap (List Int)
  neg    : KMap (List Int)
  /-- `MMA` steps into each column tile since `MZERO` -/
  steps  : KMap Nat
  /-- commands that have not started -/
  queue  : List MatCmd
  /-- an `MRING` that has started: it holds the load unit until its tile arrives (R279, R287) -/
  sending : Option MatCmd
  /-- cycle since which that `MRING` waits -/
  since  : Option Nat
  /-- an `MMA` that has started and waits for a tile of the ring, in the array unit, and the cycle since which it waits -/
  array  : Option (MatCmd × Nat)
  /-- the A stage as that `MMA` reads it: an `MLDA` behind it may have filled the stage anew (R279) -/
  held   : Option (ElemType × List (List Byte))
  /-- the last cycle in which a tile of the ring arrived -/
  arrived : Option Nat
  deriving DecidableEq, Repr

/-- An unowned engine with nothing in it. -/
def MatEng.empty : MatEng :=
  { owner := none, ring := 0, n := 0, kind := .none, astage := none, latch := [], acc := [], lanes := [],
    bound := none, pos := [], neg := [], steps := [], queue := [], sending := none, since := none,
    array := none, held := none, arrived := none }

/-- The engine's queue without an owner's state (R277, R291). -/
def MatEng.released (m : MatEng) : MatEng := { MatEng.empty with queue := m.queue }

/-- The engine is configured for an owner: the latch and the A stage are emptied, and there is no kind (R291). -/
def MatEng.configured (m : MatEng) (owner ring n : Nat) : MatEng :=
  { m with owner := some owner, ring := ring, n := n, latch := [], astage := none, kind := .none }

/-- Commands that have started and not completed. -/
def MatEng.started (m : MatEng) : List MatCmd := m.sending.toList ++ m.array.toList.map (·.1)

/-- Every command on the engine. -/
def MatEng.commands (m : MatEng) : List MatCmd := m.started ++ m.queue

/-- The commands that a test picks are dropped. -/
def MatEng.drop (m : MatEng) (f : MatCmd → Bool) : MatEng :=
  let m := { m with queue := m.queue.filter fun k => !(f k) }
  let m := if m.sending.any f then { m with sending := none, since := none } else m
  if m.array.any fun p => f p.1 then { m with array := none, held := none } else m

/-! ## Copy engine (R295 to R314) -/

/-- Who commanded a copy. -/
inductive CopyBy where
  /-- `CPY` or `CPYI` of a context, with its status register -/
  | ctx (t : Target)
  /-- a schedule entry: launch, release number, done word -/
  | sched (lid : Nat) (release : Nat) (done : Nat)
  deriving DecidableEq, Repr

/-- A copy command. -/
structure CopyCmd where
  by_    : CopyBy
  world  : Nat
  lid    : Nat
  region : Nat
  space  : Nat
  /-- coordinate and sequence of the Stipple seed (R301) -/
  coord  : BitVec 64
  seq    : BitVec 64
  item   : BitVec 64
  srmode : Bool
  /-- fe.rlim at its issue (R65); that of a schedule entry is log 114 -/
  rlim   : Nat
  /-- its place in the issue order of its context (R250) -/
  order  : Nat
  desc   : BitVec 512
  member : BitVec 64
  /-- bytes of the stream already dealt with (R306, R311), and bytes written -/
  offset : Nat
  wrote  : Nat
  flags  : BitVec 16
  nan    : Option NanCap
  /-- groups of the Stipple generator already drawn -/
  groups : Nat
  deriving DecidableEq, Repr

/-- The command that the engine runs. -/
structure CopyRun where
  /-- numbers the runs of the package's engines: a packet names the run that it is of -/
  num  : Nat
  cmd  : CopyCmd
  /-- failure met: code and offset; or success once the stream has ended -/
  ended : Option (BitVec 8 × Nat)
  /-- a packet is with a landing handler -/
  landing : Bool
  /-- requests to other packages that the last piece sent, as the NI of the die numbers them, and the piece's offset -/
  sent : List Nat
  piece : Nat
  /-- the `CPABT` that has reached the command: no piece follows the one under way (R314) -/
  abort : Option Target
  deriving DecidableEq, Repr

/-- A copy engine. -/
structure CopyEng where
  queue : List CopyCmd
  sched : List CopyCmd
  run   : Option CopyRun
  /-- the next command comes from the schedule queue when both hold work (R295) -/
  alt   : Bool
  deriving DecidableEq, Repr

/-- An idle copy engine. -/
def CopyEng.empty : CopyEng := { queue := [], sched := [], run := none, alt := false }

/-- The copy schedule of a launch (R308, R309). -/
structure Sched where
  n      : Nat
  rounds : Nat
  sstep  : BitVec 64
  dstep  : BitVec 64
  /-- logical core, member word, done word, descriptor -/
  entries : List (Nat × BitVec 64 × Nat × BitVec 512)
  count  : Nat
  ended  : Bool
  deriving DecidableEq, Repr

end Sys2Proof.Machine
end

