-- ==== Sys2Proof/Machine/FabTypes.lean ====
section
/-! DEFINITION. The kinds of data of master views (chapter 20), of the fabric and bulk transfer (22) and of the
Trust Controller's responder (24). -/

namespace Sys2Proof.Machine

/-! ## Masters and views (R315 to R337) -/

/-- A registered view (R318, R320, R326, R334). -/
structure View where
  serial  : BitVec 24
  desc    : BitVec 1024
  space   : Nat
  region  : Nat
  /-- launch seed of the registering context, and its core for SL-480 seeding (R325) -/
  seed    : BitVec 64
  srmode  : Bool
  lid     : Nat
  lcore   : Nat
  faulted : Bool
  cause   : BitVec 8
  flags   : BitVec 16
  /-- how often it has faulted -/
  fails   : Nat
  deriving DecidableEq, Repr

/-- A registered master (R315, R316); its generations and dirty bits lie in its tracking area (R317). -/
structure Master where
  desc  : BitVec 1024
  space : Nat
  /-- the memory of its data, from its base to its last byte, and of its tracking area: all in one controller's memory -/
  data  : List (Nat × Nat)
  area  : List (Nat × Nat)
  /-- stored nodes that cover data and tracking area (R326) -/
  nodes : List Nat
  views : KMap View
  deriving DecidableEq, Repr

/-- An entry of a refresh queue: world, master, block, and the one view it is for, if it is for one only (R322). -/
structure Refresh where
  world  : Nat
  master : Nat
  block  : Nat
  view   : Option Nat
  deriving DecidableEq, Repr

/-- A queued quantisation command (R336). -/
structure Quant where
  uid    : Nat
  dest   : AnyReg
  world  : Nat
  space  : Nat
  region : Nat
  lid    : Nat
  item   : BitVec 64
  pc     : BitVec 64
  srmode : Bool
  /-- fe.rlim at its issue (R65) -/
  rlim   : Nat
  /-- its place in the issue order of its context (R250) -/
  order  : Nat
  desc   : BitVec 512
  /-- blocks done, the flags and first NaN of them, and the code and number of the block that failed -/
  next   : Nat
  flags  : BitVec 16
  nan    : Option NanCap
  fail   : Option (Nat × Nat)
  /-- requests to other packages that its last block sent, as the NI of the die numbers them -/
  sent   : List Nat
  deriving DecidableEq, Repr

/-- A `VWSYNC` that waits: the generations it waits for (R333). -/
structure VSync where
  uid    : Nat
  dest   : AnyReg
  acq    : Nat
  world  : Nat
  master : Nat
  view   : Nat
  serial : BitVec 24
  gens   : List (BitVec 64)
  deriving DecidableEq, Repr

/-! ## Fabric requests (R341 to R349) -/

/-- What the acknowledgement of a request does at the sender (R346). -/
inductive AckDo where
  /-- a load or an atomic of a context fills its destination -/
  | fill (uid : Nat) (dest : AnyReg) (acc : Acc) (acq : Option Nat) (fadd : Bool)
  /-- a store: a failure is recorded in the context (R187); a write of an engine or a unit has handle 0 -/
  | store (uid : Nat)
  /-- a write of the copy engine of a core: a failure stops its command (R306) -/
  | copy (core : CoreNo)
  /-- a write into a posted buffer: a failure ends its post (R360) -/
  | post (id : Nat)
  /-- a write of the die's quantisation command: a failure ends it at its block (R336) -/
  | quant
  /-- a synchronising access: it faults when it fails, and its register is as `full` says again (R346) -/
  | sync (uid : Nat) (dest : Option AnyReg) (acc : Acc) (acq : Option Nat) (full : Bool)
  /-- a `WAITA`: the entry of the die's monitor table -/
  | monitor (k : Nat)
  /-- a message to another package (R423) -/
  | message (t : Option Target)
  /-- a notice of a barrier: one that fails cannot be delivered (R232) -/
  | notice (n : NbNotice)
  deriving DecidableEq, Repr

/-- A request that waits for its acknowledgement. -/
structure Outst where
  req    : FabReq
  pkg    : Nat
  todo   : AckDo
  /-- the route of the last sending; none where no route was live -/
  via    : Option Route
  /-- its home has admitted it to a retry list (R167) -/
  admitted : Bool
  /-- cycle of the last sending, and the re-sendings made (R348) -/
  sentAt : Nat
  resent : Nat
  /-- times the receiver turned it back (R346) -/
  turned : Nat
  /-- cycle at which a turned-back request is sent again -/
  retryAt : Option Nat
  deriving DecidableEq, Repr

/-- An ordered flag that the router of the receiving package holds (R349). -/
structure HeldFlag where
  req   : FabReq
  since : Nat
  deriving DecidableEq, Repr

/-! ## Bulk transfer (R353 to R363) -/

/-- What a post is matched with (R356): sender package, die and send, the message length, how far tokens have been
granted, and what has been received in order. -/
structure Match where
  pkg    : BitVec 14
  die    : DieNo
  sendId : Nat
  msgLen : Nat
  /-- first byte for which no token has been granted -/
  next   : Nat
  /-- ranges to grant before going on from `next` -/
  again  : List (Nat × Nat)
  /-- bytes written in order -/
  bytes  : Nat
  /-- ranges written beyond them -/
  done   : List (Nat × Nat)
  lapses : Nat
  paused : Bool
  /-- while it is paused, the line that holds its state, by its address in the space of its region, and how many of the
  ranges to grant are in it (R358) -/
  line   : Option (Nat × Nat)
  /-- packets with landing handlers -/
  landing : Nat
  deriving DecidableEq, Repr

/-- A post of an NI (R355). -/
structure Post where
  uid    : Nat
  dest   : AnyReg
  /-- address of its descriptor (R361) -/
  addr   : Nat
  world  : Nat
  region : Nat
  /-- the RCB whose limit its tokens count against (R105) -/
  lim    : Nat
  space  : Nat
  lid    : Nat
  item   : BitVec 64
  core   : CoreNo
  prio   : Fin 8
  /-- fe.rlim at its issue (R65) -/
  rlim   : Nat
  desc   : BitVec 512
  order  : Nat
  hit    : Option Match
  deriving DecidableEq, Repr

/-- A send of an NI (R354). -/
structure Send where
  uid    : Nat
  dest   : AnyReg
  addr   : Nat
  world  : Nat
  region : Nat
  space  : Nat
  desc   : BitVec 512
  /-- bytes sent -/
  sent   : Nat
  /-- times the RTS was turned back (R356) -/
  turned : Nat
  retryAt : Option Nat
  rlim   : Nat
  /-- a token has come -/
  begun  : Bool
  /-- the register of a `BCANCEL` that waits for the receiver's answer; no more is sent -/
  cancel : Option Target
  deriving DecidableEq, Repr

/-- An outstanding token of a grant scheduler (R357). -/
structure Token where
  seq    : BitVec 32
  post   : Nat
  off    : Nat
  len    : Nat
  /-- bytes of the range written -/
  got    : Nat
  /-- a flit of its data has arrived -/
  came   : Bool
  issued : Nat
  deriving DecidableEq, Repr

/-- A record of an ended send or post (R363). -/
structure Ended where
  world : Nat
  addr  : Nat
  state : Nat
  lapses : Nat
  bytes : Nat
  deriving DecidableEq, Repr

/-- The NI of a die. -/
structure Ni where
  /-- next sequence number by destination package (R348) -/
  seqs   : KMap Nat
  /-- stores, `RED`s and flags sent, by destination package times 4 plus path tag (R349) -/
  sent   : KMap Nat
  outst  : KMap Outst
  /-- numbers the requests, posts and sends of the NI -/
  nextOut : Nat
  posts  : KMap Post
  sends  : KMap Send
  rts    : List Rts
  tokens : List Token
  nextTok : BitVec 32
  /-- the post served last, by grant priority (R357) -/
  served : KMap Nat
  ended  : List Ended
  deriving DecidableEq, Repr

/-- An NI after reset. -/
def Ni.empty : Ni :=
  { seqs := [], sent := [], outst := [], nextOut := 1, posts := [], sends := [], rts := [],
    tokens := [], nextTok := 1, served := [], ended := [] }

/-- A `WAKEA` of another package: the entries it has taken, and the cycle of which die it came in (R207, R208). -/
structure FarWake where
  pkg  : BitVec 14
  die  : DieNo
  seq  : Nat
  n    : Nat
  home : Nat
  at_  : Nat
  deriving DecidableEq, Repr

/-- The router of the package (R349, R350, R351). -/
structure Router where
  /-- done counts, by (source package times 8 plus die) times 4 plus path tag -/
  done   : KMap Nat
  flags  : List HeldFlag
  /-- health score, by port times 4 plus lane -/
  score  : KMap Nat
  /-- lanes in use by port: 0 four, 1 two, 2 none (R343) -/
  lanes  : KMap Nat
  /-- pairs retired, by port times 2 plus pair -/
  gone   : KSet
  /-- bulk flits kept after a CRC failure, by port: top-ups used (R351) -/
  kept   : KMap Nat
  /-- requests already performed: by source package times 8 plus die, the sequences and their answers (R348) -/
  seen   : KMap (KMap FabAck)
  /-- requests received and not yet answered (R346) -/
  inbound : List FabReq
  /-- times that requests have been turned back: by source package times 8 plus die, the sequences (R349) -/
  turned : KMap (KMap Nat)
  /-- `WAKEA`s of other packages, answered once no event of their cycle may take an entry from them (R208) -/
  wakes  : List FarWake
  deriving DecidableEq, Repr

/-- A router after reset. -/
def Router.empty : Router :=
  { done := [], flags := [], score := [], lanes := [], gone := [], kept := [], seen := [],
    inbound := [], turned := [], wakes := [] }

/-! ## Trust Controller (R367, R376, R382) -/

/-- The requests of the responder (R376). -/
inductive SpdmKind where
  | getVersion | getCapabilities | negotiateAlgorithms | getDigests | getCertificate | challenge | getMeasurements
  | keyExchange | finish | heartbeat | endSession | keyImport | unsupported
  deriving DecidableEq, Repr

/-- A request in the responder's queue; `order` is its place among all requests, those for evidence included. -/
structure SpdmJob where
  kind  : SpdmKind
  req   : SpdmReq
  order : Nat
  deriving DecidableEq, Repr

/-- Key slots, open SPDM sessions, the evidence count and the responder's queue. -/
structure Trust where
  slots    : KMap (BitVec 256)
  /-- open sessions: whether `FINISH` has completed the handshake -/
  sessions : KMap Bool
  nextSess : Nat
  seq      : BitVec 64
  /-- SPDM requests not yet answered, oldest first; those for evidence are fills on their way to contexts -/
  queue    : List SpdmJob
  deriving DecidableEq, Repr

/-- The Trust Controller after reset: every slot zero (R367). -/
def Trust.empty : Trust := { slots := [], sessions := [], nextSess := 1, seq := 0, queue := [] }

end Sys2Proof.Machine
end

