-- ==== Sys2Proof/Machine/State.lean ====
section
/-! DEFINITION. The state of one SL-960 package, the reasons a step can stop, and the state right after reset. -/

namespace Sys2Proof.Machine

/-- Reasons a step ends in a fault of the model. The faults of the architecture (R90) are no stops: they are taken
(R89), and the machine goes on. -/
inductive Fault where
  /-- raised by the meaning of a CPU instruction when no context is issuing. `step` never raises it: it executes an
  instruction only in the context that `issuing` names. Safe: it stops where the part, having no instruction to
  issue, would do nothing. -/
  | noIssuingContext
  deriving DecidableEq, Repr

/-- Reasons a step is refused. -/
inductive Refusal where
  /-- raised by an arm of `exec` whose instruction has no meaning yet. Safe: the model stops. -/
  | notModelled (mnemonic : String)
  deriving DecidableEq, Repr

/-- What happens next. The environment chooses the order (log 1). -/
inductive Action where
  /-- a step of the opcode table -/
  | event (i : Instr)
  /-- `n` cycles pass on a die (R7) -/
  | tick (d : DieNo) (n : Nat)
  /-- the host's processor, or another host of a pool, stores to memory of its own that the part reaches: host
  memory or the device side of a pool line (R384, R389) -/
  | outsideStore (a : Nat) (data : List Byte)
  /-- the host writes memory of the part through space 0 (R372), and sets the full-empty bits of the words, or leaves
  them as they are (log 77) -/
  | hostStore (a : Nat) (data : List Byte) (fe : Option Bool)
  /-- the host loads data under a `.layout`: every 4 KiB of local memory that `[a, a + n)` touches takes the tag (R24, R164) -/
  | hostLayout (a n : Nat) (tag : Byte)
  /-- another package's root writes the job id of its router (R341) -/
  | peerJob (pkg : BitVec 14) (job : BitVec 16)
  /-- an image is written into the flash, outside of the part's own work (R417) -/
  | flash (image : List (Nat × Byte))
  /-- the host moves the part's TDISP interface to another state (R383) -/
  | tdisp (t : Tdi)
  /-- the CXL switch refuses an access to pool memory on its way: a load's fill or a store (R388) -/
  | poolRefusal (f : XbarFlit)
  /-- a line of pool memory is evicted from its port's cache (R389) -/
  | poolEvict (a : Nat)
  /-- an uncorrectable memory error marks a line (R166) -/
  | memoryError (a : Nat)
  /-- a parity error on a line of a register cache (R62) -/
  | registerParity (uid : Nat) (line : Nat)
  /-- bits flip in an instruction cache's copy of a block (R30) -/
  | blockFlip (d : DieNo) (c : CoreNo) (blk : Nat) (byte : Nat) (b : Byte)
  deriving DecidableEq, Repr

/-- A core (R3, R59, R76, R82, R84, R114, R115, R196, R226). -/
structure Core where
  /-- occupied slots: the handle of the context in each -/
  slots  : KMap Nat
  tables : List HTable
  queue  : List Msg
  icache : KMap IBlock
  /-- blocks whose second fetch is on its way, in the order in which they were discarded (R30) -/
  refetch : List Nat
  /-- lines held by the L1, by address div 64 (R165, R172) -/
  l1     : KMap L1Line
  /-- contention predictor: line and 2-bit counter, most recently used first (R196) -/
  pred   : List (Nat × Fin 4)
  -- issue (R114, R115)
  deficit : KMap Nat
  ptr    : Nat
  /-- slot: times passed over since it last issued -/
  passed : KMap Nat
  /-- starved slots, earliest first -/
  starved : List (Fin 8)
  /-- last slot that issued, by world times 8 plus priority -/
  lastIss : KMap (Fin 8)
  /-- numbers the uses of register lines (R59) and of L1 lines (R173) -/
  uses   : Nat
  lanes  : KMap Lane
  /-- packets waiting for slot 6: launch, packet, channel of the handler, work item (R88) -/
  landq  : List (Nat × Landing × Nat × BitVec 64)
  -- engines
  vec    : List VecCmd
  mat    : MatEng
  cpy    : CopyEng
  deriving DecidableEq, Repr

/-- A cluster (R113, R119, R123). -/
structure Cluster where
  tasks  : KMap TTask
  nextTask : Nat
  pre    : List Preempt
  /-- cycles for which every slot of the cluster has been occupied (R113) -/
  busy   : Nat
  deriving DecidableEq, Repr

/-- A die (R7, R204, R211, R225, R230). -/
structure Die where
  cyc     : Nat
  monitors : KMap Mon
  nextMon : Nat
  phasers : KMap Phaser
  members : KMap Member
  serial  : BitVec 24
  /-- world that owns the barrier wires, with the launch that brought them (R225) -/
  wires   : Option (Nat × Nat)
  bwWaits : List BwWait
  nb      : List NbInst
  refresh : List Refresh
  quant   : List Quant
  /-- the view engine serves the quantisation queue next (R336) -/
  quantTurn : Bool
  ni      : Ni
  /-- issue cycles skipped in every 8 (R415) -/
  skip    : Nat
  deriving DecidableEq, Repr

/-- The package. -/
structure State where
  -- the model's own fields
  agenda  : List Action
  issuing : Nat
  /-- contexts that did not issue in the present cycle -/
  tried   : List Nat
  nextUid : Nat
  draws   : Nat
  turn    : Nat
  out     : List OutMsg
  -- the package
  pkg     : BitVec 14
  /-- the job ids that the routers of other packages hold: 0 where nothing is listed (R341, R343) -/
  peers   : KMap Nat
  boot    : Boot
  temps   : KMap (BitVec 64)
  mem     : Memory
  /-- words of register pages that differ from their reset value, by physical address (R136) -/
  pages   : KMap (BitVec 64)
  cxlMib  : KMap Nat
  /-- pool lines, address div 64, in a port's pool-line cache (R389) -/
  poolIn : KSet
  /-- those of them that the device does not hold as they are (R389) -/
  poolDirty : KSet
  /-- what the device holds of pool lines, address div 64, that the port's cache holds dirty or with other bytes (R389) -/
  poolDev : KMap (List Byte)
  bells   : List Bell
  /-- commands of the partition page: the queue's eight, then the writes that the host link holds until the queue has room
  (R395) -/
  partCmds : List (BitVec 64)
  partWaits : List PartWait
  resetting : KSet
  lends   : List Lend
  cycling : List (Nat × CycleWhy)
  /-- slices taken back from a borrower, with the borrower (R401) -/
  taken   : List (Nat × Nat)
  scrubs  : List Scrub
  /-- writes to the system page's sleep and reload words not yet served: offset and value (R416) -/
  sysReqs : List (Nat × BitVec 64)
  -- address spaces
  nodes   : KMap Node
  spaces  : KMap Space
  gens    : Nat
  walks   : List Walk
  grants  : List GrantWait
  moves   : List Move
  /-- the retry lists of all controllers, in order of admission (R168) -/
  retry   : List Waiter
  /-- monitor waits of other packages on words of this one (R204, R346) -/
  remoteMons : List RemoteMon
  /-- dissemination notices on their way between the dies of the package (R231) -/
  notices : List (Nat × NbNotice)
  -- contexts and work
  ctxs    : KMap Context
  cores   : KMap Core
  clusters : KMap Cluster
  dies    : KMap Die
  net     : List Msg
  launches : KMap Launch
  /-- launches that have ended, while a table or a context of theirs remains: what their handlers read of them (R5, R82) -/
  past    : KMap Launch
  regions : KMap Region
  launchMsgs : List LaunchMsg
  nextOrder : Nat
  /-- what accounts owe, by account times 2048 plus core (R106) -/
  charges : KMap Charge
  /-- memory of the discarded records that software has not yet released (R104, R126) -/
  spent   : List Nat
  restarts : List Restart
  worlds  : KMap WorldSt
  scheds  : KMap Sched
  masters : KMap Master
  vsyncs  : List VSync
  -- engine state saved by pre-emption, by the handle of its owner (R288)
  savedMat : KMap MatEng
  savedCpy : List (Nat × CopyCmd)
  savedVec : List VecCmd
  router  : Router
  trust   : Trust
  deriving DecidableEq, Repr

/-- A core after power-on or a power cycle: empty (R398). -/
def Core.empty : Core :=
  { slots := [], tables := [], queue := [], icache := [], refetch := [], l1 := [], pred := [], deficit := [],
    ptr := 0, passed := [], starved := [], lastIss := [], uses := 0, lanes := [], landq := [], vec := [], mat := MatEng.empty, cpy := CopyEng.empty }

/-- A cluster with no work. -/
def Cluster.empty : Cluster := { tasks := [], nextTask := 0, pre := [], busy := 0 }

/-- A die after reset. -/
def Die.empty : Die :=
  { cyc := 0, monitors := [], nextMon := 0, phasers := [], members := [], serial := 0, wires := none,
    bwWaits := [], nb := [], refresh := [], quant := [], quantTurn := false, ni := Ni.empty, skip := 0 }

/-- Memory with nothing listed: every byte 0, every word full and not poisoned, every tag 0 (log 3). -/
def Memory.empty : Memory :=
  { bytes := [], empties := [], poisons := [], tags := [], prot := [], residue := [], raws := [], macs := [],
    vers := [], nodes := [] }

/-- Boot state at power-on: booting, cause 0, not verified (R416), the TDISP interface not locked (log 72). -/
def Boot.empty : Boot :=
  { phase := 0, cause := 0, verified := false, alert := false, result := 0, hostLoad := false, rails := [],
    tdi := .unlocked, image := [], flash := [] }

/-- The package right after reset. -/
def State.reset : State :=
  { agenda := [], issuing := 0, tried := [], nextUid := 1, draws := 0, turn := 0, out := [],
    pkg := 0, peers := [], boot := Boot.empty, temps := [], mem := Memory.empty, pages := [], cxlMib := [], poolIn := [], poolDirty := [], poolDev := [], bells := [],
    partCmds := [], partWaits := [], resetting := [], lends := [], cycling := [], taken := [], scrubs := [], sysReqs := [],
    nodes := [], spaces := [], gens := 0, walks := [], grants := [], moves := [], retry := [], remoteMons := [], notices := [],
    ctxs := [], cores := [], clusters := [], dies := [], net := [], launches := [], past := [], regions := [],
    launchMsgs := [], nextOrder := 1, charges := [], spent := [], restarts := [], worlds := [], scheds := [], masters := [],
    vsyncs := [], savedMat := [], savedCpy := [], savedVec := [], router := Router.empty, trust := Trust.empty }

end Sys2Proof.Machine
end

