-- ==== Sys2Proof/Machine/Access.lean ====
section
/-! DEFINITION. Reading and changing the parts of the state: cores, clusters, dies, contexts; status words; where a
core lies in its mesh (R3). -/

namespace Sys2Proof.Machine

/-- Key of a core: die times 256 plus core. -/
def coreKey (d c : Nat) : Nat := d * 256 + c

/-- Key of a cluster: die times 16 plus cluster, which is the slice number (R393). -/
def clKey (d cl : Nat) : Nat := d * 16 + cl

/-- The cluster of a core: bits [7:6] and [3:2] of its number (R3). -/
def clusterOf (c : Nat) : Nat := c / 64 * 4 + c / 4 % 4

/-- The index of a core within its cluster: bits [5:4] and [1:0] (R3). -/
def indexOf (c : Nat) : Nat := c / 16 % 4 * 4 + c % 4

/-- The core at an index of a cluster (R3). -/
def coreAt (cl ix : Nat) : Nat := cl / 4 * 64 + ix / 4 * 16 + cl % 4 * 4 + ix % 4

/-- A core. -/
def State.core (s : State) (d c : Nat) : Core := KMap.lookD s.cores (coreKey d c) Core.empty
/-- Replaces a core. -/
def State.setCore (s : State) (d c : Nat) (k : Core) : State :=
  { s with cores := KMap.putD s.cores (coreKey d c) Core.empty k }
/-- Changes a core. -/
def State.modCore (s : State) (d c : Nat) (f : Core → Core) : State := s.setCore d c (f (s.core d c))

/-- A cluster. -/
def State.cluster (s : State) (d cl : Nat) : Cluster := KMap.lookD s.clusters (clKey d cl) Cluster.empty
/-- Replaces a cluster. -/
def State.setCluster (s : State) (d cl : Nat) (k : Cluster) : State :=
  { s with clusters := KMap.putD s.clusters (clKey d cl) Cluster.empty k }
/-- Changes a cluster. -/
def State.modCluster (s : State) (d cl : Nat) (f : Cluster → Cluster) : State :=
  s.setCluster d cl (f (s.cluster d cl))

/-- A die. -/
def State.die (s : State) (d : Nat) : Die := KMap.lookD s.dies d Die.empty
/-- Replaces a die. -/
def State.setDie (s : State) (d : Nat) (k : Die) : State := { s with dies := KMap.putD s.dies d Die.empty k }
/-- Changes a die. -/
def State.modDie (s : State) (d : Nat) (f : Die → Die) : State := s.setDie d (f (s.die d))

/-- The cycle counter of a die (R7). -/
def State.cyc (s : State) (d : Nat) : Nat := (s.die d).cyc

/-- The NI of a die. -/
def State.modNi (s : State) (d : Nat) (f : Ni → Ni) : State := s.modDie d fun k => { k with ni := f k.ni }

/-- A context. -/
def State.ctx? (s : State) (uid : Nat) : Option Context := KMap.look s.ctxs uid
/-- Replaces a context. -/
def State.setCtx (s : State) (uid : Nat) (c : Context) : State := { s with ctxs := KMap.put s.ctxs uid c }
/-- Changes a context, if it is there. -/
def State.modCtx (s : State) (uid : Nat) (f : Context → Context) : State :=
  { s with ctxs := KMap.modify s.ctxs uid f }

/-- Key material of a live world; 0 when there is none. -/
def State.worldKey (s : State) (w : Nat) : Nat :=
  match KMap.look s.worlds w with
  | some x => x.key
  | none => 0

/-- A free value, and the state with the counter of draws advanced (log 6). -/
def State.draw (s : State) : BitVec 64 × State := (Config.freeValue s.draws, { s with draws := s.draws + 1 })

/-- An error status word: bit [63] and the code in [7:0] (R91). -/
def errWord (code : Nat) : BitVec 64 := BitVec.ofNat 64 (2 ^ 63 + code)

/-- Bits [hi:lo] of a number. -/
def bits (n hi lo : Nat) : Nat := n / 2 ^ lo % 2 ^ (hi + 1 - lo)

/-- A signed field of `w` bits. -/
def sbits (n hi lo : Nat) : Int :=
  let v := bits n hi lo
  let w := hi + 1 - lo
  if v < 2 ^ (w - 1) then v else (v : Int) - 2 ^ w

/-- A 64-bit address from an integer, with wrap-around. -/
def wrap64 (i : Int) : Nat := (i % (2 ^ 64 : Int)).toNat

/-- The slots of a core with their contexts, in slot order. -/
def State.slotList (s : State) (d c : Nat) : List (Nat × Nat) := (s.core d c).slots

/-- A slot of a core is free. -/
def State.slotFree (s : State) (d c n : Nat) : Bool := !(KMap.has (s.core d c).slots n)

/-- The lowest free slot from 0 to 5 of a core. -/
def State.freeSlot (s : State) (d c : Nat) : Option Nat := (List.range 6).find? fun n => s.slotFree d c n

/-- Contexts with their handles. -/
def State.ctxList (s : State) : List (Nat × Context) := s.ctxs

/-- Contexts for which the test holds, changed. -/
def State.mapCtxs (s : State) (f : Nat → Context → Context) : State := { s with ctxs := KMap.mapVals s.ctxs f }

/-- Sends a message to the outside. -/
def State.emit (s : State) (m : OutMsg) : State := { s with out := s.out ++ [m] }

end Sys2Proof.Machine
end

