-- ==== Sys2Proof/Machine/Crypto.lean ====
section
/-! DEFINITION. The standard functions that the manual names: SHA-256 (FIPS 180-4), HMAC-SHA-256, the counter-mode
KDF of SP 800-108, AES-256 (FIPS 197), AES-XTS (SP 800-38E), CMAC (SP 800-38B) and AES key wrap (RFC 3394). PRESUMED: they are taken from the standards (log 23). -/

namespace Sys2Proof.Machine

/-- Big-endian number of bytes. -/
def beNat (bs : List Byte) : Nat := bs.foldl (fun n b => n * 256 + b.toNat) 0

/-- The `k` bytes of a number, most significant first. -/
def beBytes (k n : Nat) : List Byte := (leBytes k n).reverse

/-! ### SHA-256 -/

/-- Bits `b - 1` to 0 of the integer `k`-th root of `n`, whose higher bits are `r`. -/
def rootFrom (k n r : Nat) : Nat → Nat
  | 0 => r
  | b + 1 => rootFrom k n (if (r + 2 ^ b) ^ k ≤ n then r + 2 ^ b else r) b

/-- The first 32 bits of the fraction of the `k`-th root of a number: the standard's constants are these, of the first
primes. -/
def rootFraction (k p : Nat) : BitVec 32 := BitVec.ofNat 32 (rootFrom k (p * 2 ^ (32 * k)) 0 37)

/-- The first 64 primes. -/
def shaPrimes : List Nat :=
  (List.range 312).filter fun n => decide (2 ≤ n) && (List.range n).all fun d => decide (d < 2) || n % d != 0

/-- The constants of the 64 rounds, from cube roots. -/
def shaConsts : List (BitVec 32) := shaPrimes.map (rootFraction 3)

/-- The chaining words before the first block, from square roots. -/
def shaStart : List (BitVec 32) := (shaPrimes.take 8).map (rootFraction 2)

/-- Exclusive or of rotations of a word. -/
def turns (w : BitVec 32) (ns : List Nat) : BitVec 32 := ns.foldl (fun x n => x ^^^ w.rotateRight n) 0

/-- The word that the schedule adds behind a window of sixteen. -/
def shaNext (win : List (BitVec 32)) : BitVec 32 :=
  let old := win.getD 1 0
  let late := win.getD 14 0
  win.headD 0 + (turns old [7, 18] ^^^ (old >>> 3)) + win.getD 9 0 + (turns late [17, 19] ^^^ (late >>> 10))

/-- One round on the working words, with a word of the schedule and the round's constant. -/
def shaMix (w k : BitVec 32) : List (BitVec 32) → List (BitVec 32)
  | [a, b, c, d, e, f, g, h] =>
    let chosen := g ^^^ (e &&& (f ^^^ g))
    let most := (a &&& b) ||| (c &&& (a ||| b))
    let t := w + k + h + chosen + turns e [6, 11, 25]
    [t + most + turns a [2, 13, 22], a, b, c, t + d, e, f, g]
  | other => other

/-- The rounds of the constants listed: the window of the schedule moves on by a word each. -/
def shaRounds : List (BitVec 32) → List (BitVec 32) → List (BitVec 32) → List (BitVec 32)
  | [], _, st => st
  | k :: ks, win, st => shaRounds ks (win.tail ++ [shaNext win]) (shaMix (win.headD 0) k st)

/-- The chaining words after a block of 64 bytes. -/
def shaAbsorb (st : List (BitVec 32)) (block : List Byte) : List (BitVec 32) :=
  let win := (List.range 16).map fun i => BitVec.ofNat 32 (beNat ((block.drop (4 * i)).take 4))
  List.zipWith (· + ·) st (shaRounds shaConsts win st)

/-- What follows a message of `n` bytes to fill its last block. -/
def shaTail (n : Nat) : List Byte := 0x80 :: (List.replicate ((119 - n % 64) % 64) 0 ++ beBytes 8 (8 * n))

/-- SHA-256 as 32 bytes, digest byte 0 first. -/
def sha256 (msg : List Byte) : List Byte :=
  let all := msg ++ shaTail msg.length
  let last := (List.range (all.length / 64)).foldl (fun st i => shaAbsorb st ((all.drop (64 * i)).take 64)) shaStart
  last.flatMap fun w => beBytes 4 w.toNat

/-- A byte string of 32 bytes as a field: byte 0 at the lowest address (R8). -/
def digestField (bs : List Byte) : BitVec 256 := BitVec.ofNat 256 (leNat bs)

/-- HMAC-SHA-256. -/
def hmac (key msg : List Byte) : List Byte :=
  let k := if key.length > 64 then sha256 key else key
  let k := k ++ List.replicate (64 - k.length) 0
  sha256 (k.map (· ^^^ 0x5c) ++ sha256 (k.map (· ^^^ 0x36) ++ msg))

/-- The counter-mode KDF of SP 800-108 with HMAC-SHA-256: 32-bit counter, label, a zero byte, context, 32-bit
output length in bits. -/
def kdf (key label ctx : List Byte) (bytes : Nat) : List Byte :=
  ((List.range ((bytes + 31) / 32)).flatMap fun i =>
    hmac key (beBytes 4 (i + 1) ++ label ++ [0] ++ ctx ++ beBytes 4 (8 * bytes))).take bytes

/-- The bytes of a label. -/
def labelBytes (s : String) : List Byte := s.toList.map fun c => BitVec.ofNat 8 c.toNat

/-! ### AES-256 decryption -/

/-- Multiplication by x in GF(2^8). -/
def gfDouble (a : BitVec 8) : BitVec 8 := (a <<< 1) ^^^ (if a.msb then 0x1b else 0)

/-- Multiplication in GF(2^8), the second factor bit by bit. -/
def gfMulAux (a b : BitVec 8) : Nat → BitVec 8
  | 0 => 0
  | n + 1 => (if b.getLsbD 0 then a else 0) ^^^ gfMulAux (gfDouble a) (b >>> 1) n

/-- Multiplication in GF(2^8). -/
def gfMul (a b : BitVec 8) : BitVec 8 := gfMulAux a b 8

/-- Powers in GF(2^8). -/
def gfPow (a : BitVec 8) : Nat → BitVec 8
  | 0 => 1
  | n + 1 => gfMul a (gfPow a n)

/-- The S-box. -/
def aesSub (a : BitVec 8) : BitVec 8 :=
  let b := gfPow a 254
  b ^^^ b.rotateLeft 1 ^^^ b.rotateLeft 2 ^^^ b.rotateLeft 3 ^^^ b.rotateLeft 4 ^^^ 0x63

/-- The inverse S-box. -/
def aesInvSub (a : BitVec 8) : BitVec 8 :=
  gfPow (a.rotateLeft 1 ^^^ a.rotateLeft 3 ^^^ a.rotateLeft 6 ^^^ 0x05) 254

/-- The key schedule of AES-256: words, newest first, after `n` more than the eight of the key. -/
def aesKeys (key : List Byte) : Nat → List (List Byte)
  | 0 => ((List.range 8).map fun i => (key.drop (4 * i)).take 4).reverse
  | n + 1 =>
    let t := aesKeys key n
    let prev := t.headD []
    let i := n + 8
    let w := if i % 8 = 0 then
        let r := (prev.drop 1 ++ prev.take 1).map aesSub
        match r with
        | [] => []
        | b :: bs => (b ^^^ gfPow 2 (i / 8 - 1)) :: bs
      else if i % 8 = 4 then prev.map aesSub else prev
    (List.zipWith (· ^^^ ·) ((t[7]?).getD []) w) :: t

/-- The inverse of ShiftRows on 16 bytes by columns. -/
def aesInvShift (s : List Byte) : List Byte :=
  (List.range 16).map fun i => (s[(i + 16 - 4 * (i % 4)) % 16]?).getD 0

/-- The inverse of MixColumns. -/
def aesInvMix (s : List Byte) : List Byte :=
  (List.range 16).map fun i =>
    let c := 4 * (i / 4)
    let g := fun (j : Nat) => ((s[c + (i + j) % 4]?).getD 0 : Byte)
    gfMul (g 0) 14 ^^^ gfMul (g 1) 11 ^^^ gfMul (g 2) 13 ^^^ gfMul (g 3) 9

/-- Round `n` and the rounds before it, undone. -/
def aesDecRounds (ks : List (List Byte)) (s : List Byte) : Nat → List Byte
  | 0 => s
  | n + 1 =>
    let rk := ((ks.drop (4 * n)).take 4).flatten
    let t := List.zipWith (· ^^^ ·) ((aesInvShift s).map aesInvSub) rk
    aesDecRounds ks (if n = 0 then t else aesInvMix t) n

/-- AES-256 decryption of one block. -/
def aesDec (key blk : List Byte) : List Byte :=
  let ks := (aesKeys key 52).reverse
  aesDecRounds ks (List.zipWith (· ^^^ ·) blk ((ks.drop 56).flatten)) 14

/-! ### AES-256 encryption, AES-XTS and CMAC -/

/-- ShiftRows on 16 bytes by columns. -/
def aesShift (s : List Byte) : List Byte := (List.range 16).map fun i => (s[(i + 4 * (i % 4)) % 16]?).getD 0

/-- MixColumns. -/
def aesMix (s : List Byte) : List Byte :=
  (List.range 16).map fun i =>
    let c := 4 * (i / 4)
    let g := fun (j : Nat) => ((s[c + (i + j) % 4]?).getD 0 : Byte)
    gfMul (g 0) 2 ^^^ gfMul (g 1) 3 ^^^ g 2 ^^^ g 3

/-- The last `n` of the fourteen rounds. -/
def aesEncRounds (ks : List (List Byte)) (s : List Byte) : Nat → List Byte
  | 0 => s
  | n + 1 =>
    let t := aesShift (s.map aesSub)
    aesEncRounds ks (List.zipWith (· ^^^ ·) (if n = 0 then t else aesMix t) ((ks.drop (4 * (14 - n))).take 4).flatten) n

/-- AES-256 encryption of one block. -/
def aesEnc (key blk : List Byte) : List Byte :=
  let ks := (aesKeys key 52).reverse
  aesEncRounds ks (List.zipWith (· ^^^ ·) blk ((ks.take 4).flatten)) 14

/-- Doubling in GF(2^128), as a number. -/
def gfDouble128 (n : Nat) : Nat := n * 2 % 2 ^ 128 ^^^ (if 2 ^ 127 ≤ n then 0x87 else 0)

/-- The blocks of a data unit from a tweak on, each between two additions of its tweak. -/
def xtsBlocks (f : List Byte → List Byte) : Nat → Nat → List Byte → List Byte
  | 0, _, _ => []
  | n + 1, t, bs =>
    let m := leBytes 16 t
    List.zipWith (· ^^^ ·) (f (List.zipWith (· ^^^ ·) (bs.take 16) m)) m ++ xtsBlocks f n (gfDouble128 t) (bs.drop 16)

/-- AES-XTS-256 on a data unit of 64 bytes with a number for its tweak; the first half of the key pair is the key of the data,
the second that of the tweak. `dec` deciphers. -/
def xtsUnit (dec : Bool) (keys : List Byte) (tweak : Nat) (bs : List Byte) : List Byte :=
  xtsBlocks ((if dec then aesDec else aesEnc) (keys.take 32)) 4 (leNat (aesEnc (keys.drop 32) (leBytes 16 tweak))) bs

/-- AES-256-CMAC of a message that does not end with a whole block. -/
def cmacOdd (key msg : List Byte) : List Byte :=
  let k2 := gfDouble128 (gfDouble128 (beNat (aesEnc key (List.replicate 16 0))))
  let all := msg ++ 0x80 :: List.replicate (15 - msg.length % 16) 0
  let last := all.length / 16 - 1
  (List.range (last + 1)).foldl (fun st i =>
    let b := (all.drop (16 * i)).take 16
    let b := if i = last then List.zipWith (· ^^^ ·) b (beBytes 16 k2) else b
    aesEnc key (List.zipWith (· ^^^ ·) st b)) (List.replicate 16 0)

/-- One step of RFC 3394 unwrapping with counter `t` on the register A and the blocks. -/
def unwrapSteps (kek : List Byte) (n : Nat) : Nat → List Byte → List (List Byte) → List Byte × List (List Byte)
  | 0, a, rs => (a, rs)
  | t + 1, a, rs =>
    let i := t % n
    let b := aesDec kek (List.zipWith (· ^^^ ·) a (beBytes 8 (t + 1)) ++ (rs[i]?).getD [])
    unwrapSteps kek n t (b.take 8) (rs.set i (b.drop 8))

/-- RFC 3394 unwrapping of 40 bytes to a 32-byte secret; `none` when the integrity value is wrong. -/
def keyUnwrap (kek wrapped : List Byte) : Option (List Byte) :=
  let rs := (List.range 4).map fun i => (wrapped.drop (8 * (i + 1))).take 8
  let r := unwrapSteps kek 4 24 (wrapped.take 8) rs
  if r.1 = List.replicate 8 0xA6 then some r.2.flatten else none

end Sys2Proof.Machine
end

