-- ==== Sys2Proof/Machine/Memory.lean ====
section
/-! DEFINITION. Memory: where an address lives (R156, R174), the bytes a world sees there (R370 to R373), the
full-empty and poison bits of a word (R157, R166), layout tags (R164), scrubbing (R160). -/

namespace Sys2Proof.Machine

/-! ## The physical map (R156, R345, R384) -/

def localBase : Nat := 0x1000000000
def vaultBase : Nat := 0x2000000000
def pageBase : Nat := 0x3000000000
def dramBase : Nat := 0x8000000000
def cxlBase : Nat := 0x40000000000
def hostBase : Nat := 0x100000000000
def jobBase : Nat := 0x800000000000

/-- Register pages (R136): private, shared, or none placed at the address (R160, R343, R385, R387, R394, R410,
R416). -/
inductive PageKind where
  | privatePage | shared
  deriving DecidableEq, Repr

/-- The register page that holds an address. -/
def pageKind (a : Nat) : Option PageKind :=
  let o := a / 65536 * 65536
  if o = 0x3000000000 ∨ o = 0x3000010000 ∨ o = 0x3000020000 ∨ o = 0x3000040000 ∨ o = 0x3000080000
    ∨ o = 0x3000200000 then some .privatePage
  else if o = 0x3000100000 then some .shared
  else if 0x3001000000 ≤ o ∧ o < 0x3001080000 then some .privatePage
  else none

/-- Capacity of a CXL port that a root node covers: the top 1/65, rounded up to 1 MiB, holds full-empty bits
(R157). -/
def State.cxlBytes (s : State) (port : Nat) : Nat :=
  let m := KMap.lookD s.cxlMib port 0
  (m - (m + 64) / 65) * 2 ^ 20

/-- Where an address lives (R156); `nowhere` outside the populated rows. -/
def State.homeOf (s : State) (a : Nat) : Home :=
  if a < localBase then .nowhere
  else if a < localBase + 2 ^ 31 then .local ((a - localBase) / 2 ^ 28) ((a - localBase) / 2 ^ 20 % 256)
  else if a < vaultBase then .nowhere
  else if a < vaultBase + 2 ^ 32 then .vault ((a - vaultBase) / 2 ^ 29) ((a - vaultBase) / 2 ^ 21 % 256)
  else if a < pageBase then .nowhere
  else if a < pageBase + 2 ^ 32 then (if (pageKind a).isSome then .page else .nowhere)
  else if a < dramBase then .nowhere
  else if a < dramBase + 2 ^ 39 then .dram ((a - dramBase) / 2 ^ 36)
  else if a < cxlBase then .nowhere
  else if a < cxlBase + 2 ^ 42 then
    let p := (a - cxlBase) / 2 ^ 39
    if (a - cxlBase) % 2 ^ 39 < s.cxlBytes p then .cxl p else .nowhere
  else if a < hostBase then .nowhere
  else if a < hostBase + 2 ^ 44 then .host
  else if a < jobBase then .nowhere
  else if a < jobBase + 2 ^ 47 then .job ((a - jobBase) / 2 ^ 33)
  else .nowhere

/-- First address and length of the root node that covers an address (R129). -/
def State.rootNode (s : State) (a : Nat) : Option (Nat × Nat) :=
  match s.homeOf a with
  | .local _ _ => some (a / 2 ^ 20 * 2 ^ 20, 2 ^ 20)
  | .vault _ _ => some (a / 2 ^ 21 * 2 ^ 21, 2 ^ 21)
  | .dram _ => some (a / 2 ^ 36 * 2 ^ 36, 2 ^ 36)
  | .page => some (a / 2 ^ 16 * 2 ^ 16, 2 ^ 16)
  | .cxl p => some (cxlBase + p * 2 ^ 39, s.cxlBytes p)
  | .job p => some (jobBase + p * 2 ^ 33, 2 ^ 33)
  | .host => some (hostBase, 2 ^ 44)
  | .nowhere => none

/-- Controllers that hold a retry list (R168), as keys. -/
def Home.controller : Home → Option Nat
  | .local d c => some (coreKey d c)
  | .vault d v => some (2048 + coreKey d v)
  | .dram d => some (4096 + d)
  | .cxl p => some (4104 + p)
  | _ => none

/-- Die on which a home lies, if it lies on a compute die. -/
def Home.die? : Home → Option Nat
  | .local d _ | .vault d _ | .dram d => some d
  | _ => none

/-- The narrowest scope that contains a home, for an access issued on core `c` of die `d` (R174). -/
def Home.scope (h : Home) (d c : Nat) : Scope :=
  match h with
  | .local d' c' => if d' = d then (if c' = c then .core else .die) else .pkg
  | .vault d' _ | .dram d' => if d' = d then .die else .pkg
  | .page => .pkg
  | .job _ => .job
  | .cxl _ | .host => .sys
  | .nowhere => .sys

/-- Order of the scopes (R174). -/
def scopeRank : Scope → Nat
  | .core => 0 | .die => 1 | .pkg => 2 | .job => 3 | .sys => 4

/-- A scope contains another (R174). -/
def scopeCovers (outer inner : Scope) : Bool := decide (scopeRank inner ≤ scopeRank outer)

/-! ## Register pages that the memory rules read -/

/-- The pool table (R387): is the address pool memory, and may the part read and write it there (R388)? -/
def State.poolEntry (s : State) (i : Nat) : Nat × Nat :=
  ((KMap.lookD s.pages (0x3000080000 + 16 * i) 0).toNat, (KMap.lookD s.pages (0x3000080000 + 16 * i + 8) 0).toNat)

/-- An entry is in force: valid, with no res0 bit (R387). -/
def poolInForce (e : Nat × Nat) : Bool :=
  bits e.1 0 0 == 1 && bits e.1 15 1 == 0 && bits e.1 39 30 == 0

/-- An entry in force covers `[a, a + n)` (R388). -/
def poolCovers (e : Nat × Nat) (a n : Nat) : Bool :=
  poolInForce e && decide (e.2 ≤ a) && decide (a + n ≤ e.2 + bits e.1 63 40 * 65536)

/-- CXL memory covered by a valid entry is pool memory (R388). -/
def State.isPool (s : State) (a : Nat) : Bool :=
  match s.homeOf a with
  | .cxl _ => (List.range 64).any fun i => poolCovers (s.poolEntry i) a 1
  | _ => false

/-- The check of R388 on an access to pool memory. -/
def State.poolAllows (s : State) (a n : Nat) (needRd needWr : Bool) : Bool :=
  (List.range 64).any fun i =>
    let e := s.poolEntry i
    poolCovers e a n && bits e.1 27 16 == Config.poolIdentity.toNat && (!needRd || bits e.1 28 28 == 1)
      && (!needWr || bits e.1 29 29 == 1)

/-- The region that owns a granule of local memory; 0 unowned (R160). -/
def State.granOwner (s : State) (a : Nat) : Nat :=
  match s.homeOf a with
  | .local d c =>
    bits (KMap.lookD s.pages (0x3001000000 + d * 65536 + 128 * c + 8 * ((a - localBase) / 65536 % 16)) 0).toNat 31 0
  | _ => 0

/-- The world of a live region. -/
def State.regionWorld (s : State) (r : Nat) : Nat :=
  if r = 0 then 0
  else match s.launches.find? fun p => p.2.region == r && p.2.stage != .opening with
    | some p => p.2.world
    | none => 0

/-- Untagged memory: host memory, register pages and pool memory (R157). -/
def State.untagged (s : State) (a : Nat) : Bool :=
  match s.homeOf a with
  | .host | .page => true
  | .cxl _ => s.isPool a
  | _ => false

/-! ## Ciphers (R370 to R373) -/

/-- Owner world of a line, and the keys under which its listed bytes are stored, innermost first. -/
def State.protOf (s : State) (a : Nat) : Nat × List Nat :=
  match s.homeOf a with
  | .local _ _ =>
    let old := KMap.lookD s.mem.residue (a / 65536) []
    let w := s.regionWorld (s.granOwner a)
    if w = 0 then (0, old) else (w, old ++ [s.worldKey w])
  | .vault _ _ | .dram _ | .cxl _ =>
    match KMap.look s.mem.prot (a / 2 ^ 20) with
    | some p => (p.owner, p.layers)
    | none => (0, [])
  | _ => (0, [])

/-- DRAM and CXL memory: AES-XTS with a tag per line; the nearer levels have the one-cycle mask (R372). -/
def State.isXts (s : State) (a : Nat) : Bool :=
  match s.homeOf a with
  | .dram _ | .cxl _ => true
  | _ => false

/-- A key of a world, by its label: derived from the secret, for the world and the job it is bound to (R369). -/
def worldSubkey (k : Nat) (label : String) (bytes : Nat) : List Byte :=
  kdf (leBytes 32 (k / 2 ^ 32)) (labelBytes label) (leBytes 2 k ++ leBytes 2 (k / 65536)) bytes

/-- AES-XTS-256 of a line under a world's key pair: the tweak is the physical line address (R372). -/
def xtsLine (dec : Bool) (k line : Nat) (bs : List Byte) : List Byte := xtsUnit dec (worldSubkey k "xts" 64) (64 * line) bs

/-- The one-cycle mask of a line under a world's scrambler key (R372). -/
def maskLine (k line : Nat) (bs : List Byte) : List Byte :=
  List.zipWith (· ^^^ ·) bs (leBytes 64 (Config.mask (leNat (worldSubkey k "scr" 16)) line).toNat)

/-- A line under one key (R372). -/
def State.encLine (s : State) (line : Nat) (bs : List Byte) (k : Nat) : List Byte :=
  if s.isXts (line * 64) then xtsLine false k line bs else maskLine k line bs

/-- A line with one key taken off (R372). -/
def State.decLine (s : State) (line : Nat) (bs : List Byte) (k : Nat) : List Byte :=
  if s.isXts (line * 64) then xtsLine true k line bs else maskLine k line bs

/-- One listed byte. -/
def Memory.cell (m : Memory) (a : Nat) : Byte := KMap.lookD m.bytes a 0

/-- The `n` listed bytes from an address. -/
def Memory.cells (m : Memory) (a : Nat) : Nat → List Byte
  | 0 => []
  | n + 1 => m.cell a :: m.cells (a + 1) n

/-- Writes one listed byte; the value an unlisted address reads as is not listed. -/
def Memory.setCell (m : Memory) (a : Nat) (b : Byte) : Memory := { m with bytes := KMap.putD m.bytes a 0 b }

/-- Writes listed bytes from an address. -/
def Memory.setCells (m : Memory) (a : Nat) : List Byte → Memory
  | [] => m
  | b :: bs => (m.setCell a b).setCells (a + 1) bs

/-- The listed bytes are the stored bytes seen by everyone: no key lies over the line. -/
def State.isPlain (s : State) (w a : Nat) : Bool :=
  match s.protOf a with
  | (0, []) => true
  | (o, [k]) => o == w && w != 0 && k == s.worldKey w && !(KMap.has s.mem.raws (a / 64)) && !(KMap.has s.mem.macs (a / 64))
  | _ => false

/-- The bytes stored in a line (R372). -/
def State.storedLine (s : State) (line : Nat) : List Byte :=
  let bs := s.mem.cells (line * 64) 64
  if KMap.has s.mem.raws line then bs else (s.protOf (line * 64)).2.foldl (s.encLine line) bs

/-- The tag of a ciphertext line: the first 64 bits of AES-256-CMAC under the world's MAC key, over the line, its physical
address in 8 bytes and the counter of its region in 4 (R373, log 20). -/
def macLine (k line : Nat) (count : BitVec 32) (bs : List Byte) : List Byte :=
  (cmacOdd (worldSubkey k "mac" 32) (bs ++ leBytes 8 (64 * line) ++ leBytes 4 count.toNat)).take 8

/-- The tag of a line that holds some stored bytes (R373). -/
def State.tagFor (s : State) (line : Nat) (bs : List Byte) : List Byte :=
  match KMap.look s.mem.prot (line / 2 ^ 14) with
  | some p => match p.owner, p.tail with
    | 0, some t => macLine t.1 line t.2 bs
    | w, _ => macLine (s.worldKey w) line p.count bs
  | none => []

/-- The tag kept of a line: made of what it holds, unless `macs` says otherwise. -/
def State.lineTag (s : State) (line : Nat) : List Byte :=
  match KMap.look s.mem.macs line with
  | none => s.tagFor line (s.storedLine line)
  | some t => if t.length = 8 then t else s.tagFor line t

/-- A line of the tail of a protected region of CXL memory: the first of the eight lines whose tags it holds
(R373, log 25). -/
def State.tailTags (s : State) (line : Nat) : Option Nat :=
  match s.homeOf (line * 64), KMap.look s.mem.prot (line / 2 ^ 14) with
  | .cxl _, some p =>
    let i := line % 2 ^ 14
    if (p.owner ≠ 0 ∨ p.tail.isSome = true) ∧ 14336 ≤ i ∧ i < 14336 + 1792 then some (line / 2 ^ 14 * 2 ^ 14 + 8 * (i - 14336)) else none
  | _, _ => none

/-- A line as everyone but its owner sees it: the stored bytes, which in the tail of a CXL region are tags. -/
def State.rawLine (s : State) (line : Nat) : List Byte :=
  match s.tailTags line with
  | some b => (List.range 8).flatMap fun i => s.lineTag (b + i)
  | none => s.storedLine line

/-- A line as a world sees it: the owner reads plaintext, everyone else the stored bytes (R372). -/
def State.viewLine (s : State) (w line : Nat) : List Byte :=
  let p := s.protOf (line * 64)
  let k := s.worldKey w
  if w ≠ 0 ∧ p.1 = w then
    if !(KMap.has s.mem.raws line) && p.2.getLast? == some k then
      p.2.dropLast.foldl (s.encLine line) (s.mem.cells (line * 64) 64)
    else s.decLine line (s.storedLine line) k
  else s.rawLine line

/-- One byte as a world sees it. -/
def State.readByte (s : State) (w a : Nat) : Byte :=
  if s.isPlain w a then s.mem.cell a else ((s.viewLine w (a / 64))[a % 64]?).getD 0

/-- The `n` bytes from an address as a world sees them. -/
def State.readBytes (s : State) (w a : Nat) : Nat → List Byte
  | 0 => []
  | n + 1 => s.readByte w a :: s.readBytes w (a + 1) n

/-- A little-endian number of `n` bytes of memory (R8). -/
def State.readNat (s : State) (w a n : Nat) : Nat := leNat (s.readBytes w a n)

/-- Before its owner writes a line of a region with tags, what it held is one version more (R374). -/
def State.keepVersion (s : State) (w a : Nat) : Memory :=
  if w ≠ 0 ∧ s.isXts a = true ∧ (s.protOf a).1 = w then
    { s.mem with vers := KMap.put s.mem.vers (a / 64) (s.viewLine w (a / 64) :: KMap.lookD s.mem.vers (a / 64) []) }
  else s.mem

/-- Writes bytes of one line as a world writes them (R372): its owner writes through its cipher, and the tag of the
line is made anew (R373); anyone else stores the bytes unchanged and leaves the tag alone, or, in the tail of a CXL
region, writes the tags that lie there. -/
def State.writeLine (s : State) (w a : Nat) (bs : List Byte) : State :=
  if s.isPlain w a then { s with mem := (s.keepVersion w a).setCells a bs }
  else
    let line := a / 64
    let put := fun (old : List Byte) => old.take (a % 64) ++ bs ++ old.drop (a % 64 + bs.length)
    let p := s.protOf a
    let stored := s.storedLine line
    if w ≠ 0 ∧ p.1 = w then
      let new := s.encLine line (put (s.viewLine w line)) (s.worldKey w)
      let m := (s.keepVersion w a).setCells (line * 64) new
      { s with mem := { m with raws := KSet.set m.raws line true, macs := KMap.del m.macs line } }
    else match s.tailTags line with
    | some b =>
      let new := put (s.rawLine line)
      { s with mem := { s.mem with
          macs := (List.range 8).foldl (fun m i => KMap.put m (b + i) ((new.drop (8 * i)).take 8)) s.mem.macs } }
    | none =>
      let new := put stored
      let m := s.mem.setCells (line * 64) new
      let macs := if s.isXts a && !(KMap.has m.macs line) then KMap.put m.macs line stored else m.macs
      { s with mem := { m with raws := KSet.set m.raws line true, macs := macs } }

/-- Writes bytes line by line. -/
def State.writeBytesAux (s : State) (w a : Nat) (bs : List Byte) : Nat → State
  | 0 => s
  | n + 1 =>
    if bs.isEmpty then s
    else
      let k := 64 - a % 64
      (s.writeLine w a (bs.take k)).writeBytesAux w (a + k) (bs.drop k) n

/-- Writes bytes as a world writes them. -/
def State.writeBytes (s : State) (w a : Nat) (bs : List Byte) : State :=
  s.writeBytesAux w a bs (bs.length / 64 + 2)

/-! ## The pool-line caches (R389) -/

/-- A line of pool memory goes whole from its port's cache to the device, where it is dirty (R389, R391). -/
def State.writeBackPool (s : State) (line : Nat) : State :=
  if KMap.has s.poolDirty line then
    { s with poolDirty := KMap.del s.poolDirty line, poolDev := KMap.del s.poolDev line }.emit
      (.pool line (s.mem.cells (line * 64) 64))
  else s

/-- A line of pool memory leaves its port's cache, written back where it is dirty: what is read next is what the device
holds (R389). -/
def State.discardPool (s : State) (line : Nat) : State :=
  let s := s.writeBackPool line
  let s := match KMap.look s.poolDev line with
    | none => s
    | some bs => ({ s with poolDev := KMap.del s.poolDev line } : State).writeLine 0 (line * 64) bs
  { s with poolIn := KMap.del s.poolIn line }

/-- Lines of a pool-line cache: 2 MiB (R389). -/
def poolLines : Nat := 32768

/-- Lines in the pool-line cache of a line's port. -/
def State.portLines (s : State) (line : Nat) : List Nat :=
  (s.poolIn.filter fun p => s.homeOf (p.1 * 64) == s.homeOf (line * 64)).map (·.1)

/-- A line comes into its port's cache: where that is over its capacity another leaves it. The manual names no victim: it is
the lowest that holds what the device holds, else the lowest dirty one (log 106). -/
def State.poolRoom (s : State) (line : Nat) : State :=
  let mine := (s.portLines line).filter fun l => l != line
  if mine.length < poolLines then s
  else match (mine.find? fun l => !(KMap.has s.poolDirty l) && !(KMap.has s.poolDev l)).orElse fun _ =>
      mine.find? fun l => KMap.has s.poolDirty l with
    | some l => s.discardPool l
    | none => s

/-- A line of pool memory that is accessed comes into its port's cache (R389). -/
def State.fetchPool (s : State) (l : Nat) : State :=
  if s.isPool l && !(KMap.has s.poolIn (l / 64)) then
    ({ s with poolIn := KSet.set s.poolIn (l / 64) true } : State).poolRoom (l / 64)
  else s

/-- A line of pool memory is about to become dirty in its port's cache; the device keeps the bytes it holds (R389). -/
def State.dirtyPool (s : State) (l : Nat) : State :=
  let s := s.fetchPool l
  if s.isPool l && !(KMap.has s.poolDirty (l / 64)) then
    { s with
      poolDirty := KSet.set s.poolDirty (l / 64) true
      poolDev := if KMap.has s.poolDev (l / 64) then s.poolDev
        else KMap.put s.poolDev (l / 64) (s.storedLine (l / 64)) }
  else s

/-- The bytes of segments, in order, as a world sees them. -/
def State.readOver (s : State) (w : Nat) (ps : List (Nat × Nat)) : List Byte := ps.flatMap fun p => s.readBytes w p.1 p.2

/-! ## Full-empty bits and poison (R157, R166) -/

/-- The full-empty bit of the word that holds a byte: full is true; untagged words read as full (R157). -/
def State.isFull (s : State) (a : Nat) : Bool := s.untagged a || !(KMap.has s.mem.empties (a / 8))

/-- Sets the full-empty bit of the word that holds a byte. -/
def State.setFull (s : State) (a : Nat) (full : Bool) : State :=
  if s.untagged a then s
  else { s with mem := { s.mem with empties := KSet.set s.mem.empties (a / 8) (!full) } }

/-- The word that holds a byte is poisoned (R166). -/
def State.isPoisoned (s : State) (a : Nat) : Bool := KMap.has s.mem.poisons (a / 8)

/-- Sets the poison of the word that holds a byte. -/
def State.setPoison (s : State) (a : Nat) (p : Bool) : State :=
  { s with mem := { s.mem with poisons := KSet.set s.mem.poisons (a / 8) p } }

/-- Poisons the whole line that holds a byte (R166). -/
def State.poisonLine (s : State) (a : Nat) : State :=
  { s with mem := { s.mem with poisons := KSet.setRange s.mem.poisons true (a / 64 * 8) 8 } }

/-- The words touched by `[a, a + n)`, by their addresses. -/
def wordsOf (a n : Nat) : List Nat :=
  if n = 0 then [] else (List.range ((a + n - 1) / 8 - a / 8 + 1)).map fun i => (a / 8 + i) * 8

/-- The lines touched by `[a, a + n)`, by their addresses. -/
def linesOf (a n : Nat) : List Nat :=
  if n = 0 then [] else (List.range ((a + n - 1) / 64 - a / 64 + 1)).map fun i => (a / 64 + i) * 64

/-- A line holds the exact ciphertext of an earlier version from the same counter, which its tag does not tell (R374). -/
def State.replayed (s : State) (line : Nat) : Bool :=
  let k := s.worldKey (s.protOf (line * 64)).1
  (KMap.lookD s.mem.vers line []).any fun v => s.encLine line v k == s.storedLine line

/-- The tag of a protected line no longer matches what is stored (R373, R374). -/
def State.tagBad (s : State) (line : Nat) : Bool :=
  match KMap.look s.mem.macs line with
  | some t =>
    if t.length = 8 then t != s.tagFor line (s.storedLine line)
    else KMap.has s.mem.raws line && t != s.mem.cells (line * 64) 64 && !(s.replayed line)
  | none => false

/-! ### Hash extents (R373) -/

/-- A verified node: where memory stores it, and its digest. -/
abbrev HashNode := Nat × BitVec 256

/-- The die whose hashing engine verifies the memory at an address: that of the stack, or the I/O die, which holds the CXL
ports (log 105). -/
def State.hashDie (s : State) (a : Nat) : Nat := ((s.homeOf a).die?).getD 8

/-- Digest of a node that a die has verified. -/
def Memory.known (m : Memory) (d a : Nat) : Option (BitVec 256) :=
  ((KMap.lookD m.nodes d []).find? fun q => q.1 == a).map (·.2)

/-- A die keeps the nodes that it has verified: the newest 8,192 (R373). -/
def Memory.learn (m : Memory) (d : Nat) (ns : List HashNode) : Memory :=
  let old := (KMap.lookD m.nodes d []).filter fun q => !(ns.any fun p => p.1 == q.1)
  { m with nodes := KMap.put m.nodes d ((ns ++ old).take 8192) }

/-- Nodes stored in a range are forgotten. -/
def Memory.forget (m : Memory) (a n : Nat) : Memory :=
  { m with nodes := KMap.mapVals m.nodes fun _ l => l.filter fun q => decide (q.1 < a) || decide (a + n ≤ q.1) }

/-- Climbs from node `i` of a level of `count` nodes stored at `at_` up to the nearest node already verified, or to the
root; the nodes of the path, `path` below this one, where they verify. -/
def State.hashClimb (s : State) (w d : Nat) (root : BitVec 256) :
    Nat → Nat → Nat → Nat → List Byte → List HashNode → Option (List HashNode)
  | 0, _, _, _, _, _ => none
  | fuel + 1, at_, count, i, dig, path =>
    let a := at_ + 32 * i
    match s.mem.known d a with
    | some v => if v = digestField dig then some path else none
    | none =>
      let path := (a, digestField dig) :: path
      if count ≤ 1 then (if digestField dig = root then some path else none)
      else
        let sib := if i % 2 = 0 then i + 1 else i - 1
        let up := if i % 2 = 0 ∧ sib ≥ count then dig
          else
            let o := s.readBytes w (at_ + 32 * sib) 32
            sha256 (if i % 2 = 0 then dig ++ o else o ++ dig)
        s.hashClimb w d root fuel (at_ + 32 * count) ((count + 1) / 2) (i / 2) up path

/-- What a read of a chunk of a hash extent finds: `none` where the chunk does not verify, else the nodes that it has
verified, none for a chunk that is verified already and for memory behind the chunks (R373). -/
def State.verifyChunk (s : State) (w a : Nat) (h : Nat × Nat × BitVec 256) : Option (List HashNode) :=
  let i := (a - h.1) / 4096
  let d := s.hashDie a
  let leaves := h.1 + h.2.1 * 4096
  if h.2.1 ≤ i ∨ (s.mem.known d (leaves + 32 * i)).isSome = true then some []
  else s.hashClimb w d h.2.2 40 leaves h.2.1 i (sha256 (s.readBytes w (h.1 + i * 4096) 4096)) []

/-- Poisons every line of the chunk that holds an address (R373). -/
def State.poisonChunk (s : State) (a : Nat) : State :=
  (List.range 64).foldl (fun s i => s.poisonLine (a / 4096 * 4096 + 64 * i)) s

/-- A chunk is read: the die learns what it has verified, or the chunk is poisoned. -/
def State.checkChunk (s : State) (w a : Nat) (h : Nat × Nat × BitVec 256) : State :=
  match s.verifyChunk w a h with
  | none => s.poisonChunk a
  | some [] => s
  | some ns => { s with mem := s.mem.learn (s.hashDie a) ns }

/-- What a read of `[a, a + n)` first does: a line of pool memory comes into its port's cache (R389). By the owner, a line
whose tag does not match is poisoned, and a chunk of a hash extent is verified, unless its die still knows it as verified
(R373). -/
def State.checkRead (s : State) (w a n : Nat) : State :=
  (linesOf a n).foldl (fun s l =>
    let s := s.fetchPool l
    if (s.protOf l).1 ≠ w ∨ w = 0 then s
    else
      let s := if s.tagBad (l / 64) then s.poisonLine l else s
      match KMap.look s.mem.prot (l / 2 ^ 20) with
      | some p => match p.hash with
        | some h => s.checkChunk w l h
        | none => s
      | none => s) s

/-- Any word of the segments is poisoned. -/
def State.anyPoison (s : State) (parts : List (Nat × Nat)) : Bool :=
  parts.any fun p => (wordsOf p.1 p.2).any fun a => s.isPoisoned a

/-! ## Layout tags (R164) and scrubbing (R160) -/

/-- The layout tag of the 4 KiB of local memory that holds an address. -/
def State.tagOf (s : State) (a : Nat) : Byte := KMap.lookD s.mem.tags (a / 4096) 0

/-- Writes a layout tag. -/
def State.setTag (s : State) (a : Nat) (t : Byte) : State :=
  { s with mem := { s.mem with tags := KMap.putD s.mem.tags (a / 4096) 0 t } }

/-- Writes a layout tag to every 4 KiB that `[a, a + n)` touches, where it lies in local memory (R164). -/
def State.setTags (s : State) (a n : Nat) (t : Byte) : State :=
  (List.range ((a + n + 4095) / 4096 - a / 4096)).foldl (fun (s : State) i =>
    match s.homeOf ((a / 4096 + i) * 4096) with
    | .local _ _ => s.setTag ((a / 4096 + i) * 4096) t
    | _ => s) s

/-- Keys outside `[lo, lo + n)` in units of `u` bytes. -/
def dropRange {α : Type} (m : KMap α) (u lo n : Nat) : KMap α :=
  KMap.select m fun k _ => !(decide (lo ≤ k * u) && decide (k * u < lo + n))

/-- Memory from `a` on, `n` bytes in whole lines, as scrubbed: zero, full, not poisoned, layout tag 0 (R160). No
cipher lies over it. -/
def Memory.scrub (m : Memory) (a n : Nat) : Memory :=
  { bytes := dropRange m.bytes 1 a n, empties := dropRange m.empties 8 a n, poisons := dropRange m.poisons 8 a n,
    tags := dropRange m.tags 4096 a n, prot := m.prot, residue := dropRange m.residue 65536 a n,
    raws := dropRange m.raws 64 a n, macs := dropRange m.macs 64 a n, vers := m.vers, nodes := m.nodes }

/-- The canonical form of memory. -/
def Memory.wf (m : Memory) : Bool :=
  KMap.canon 0 m.bytes && KMap.sorted m.empties && KMap.sorted m.poisons && KMap.canon 0 m.tags

end Sys2Proof.Machine
end

