-- ==== Sys2Proof/Machine/Monitor.lean ====
section
/-! DEFINITION. Answers to requests of other packages (R346, R348, R349), and the monitor waits that a write ends (R204 to
R208). A write of the part to memory that waits may watch goes through `State.write`. -/

namespace Sys2Proof.Machine

/-! ## Answers to requests of other packages -/

/-- The request counts in sent[k] (R349). -/
def countsInSent : FabOp → Bool
  | .store .. | .flag .. | .feset _ | .poison .. => true
  | .atomic _ _ _ ret => !ret
  | _ => false

/-- A request of this package, die and sequence. -/
def reqIs (r : FabReq) (pkg : BitVec 14) (die : DieNo) (seq : Nat) : Bool :=
  r.srcPkg == pkg && r.srcDie == die && r.seq == seq

/-- Key of a sending NI's counts. -/
def senderKey (pkg : BitVec 14) (die : DieNo) : Nat := pkg.toNat * 8 + die.val

/-- One more arrival under a path tag of a sending NI: counts are of 32 bits. -/
def Router.arrived (r : Router) (pkg : BitVec 14) (die : DieNo) (path : Nat) : Router :=
  let k := senderKey pkg die * 4 + path
  { r with done := KMap.putD r.done k 0 ((KMap.lookD r.done k 0 + 1) % 2 ^ 32) }

/-- A request is turned back: the last time that its retry limit allows turns it away for good, which its path tag counts as
an arrival (R346, R349). -/
def Router.turnedBack (rt : Router) (r : FabReq) : Router :=
  let k := senderKey r.srcPkg r.srcDie
  let n := KMap.lookD (KMap.lookD rt.turned k []) r.seq 0 + 1
  let rt := { rt with turned := KMap.put rt.turned k (KMap.put (KMap.lookD rt.turned k []) r.seq n) }
  if n = r.rlim + 1 && countsInSent r.op then rt.arrived r.srcPkg r.srcDie r.path.val else rt

/-- A request of another package is answered. One that is turned back may come again; any other answer is kept, so that
the request is performed once. -/
def State.answer (s : State) (pkg : BitVec 14) (die : DieNo) (seq : Nat) (a : FabAck) : State :=
  let req := s.router.inbound.find? fun r => reqIs r pkg die seq
  let rt := { s.router with inbound := s.router.inbound.filter fun r => !(reqIs r pkg die seq) }
  let k := senderKey pkg die
  let rt := if a = .retry then
      match req with
      | some r => rt.turnedBack r
      | none => rt
    else
      let rt := { rt with seen := KMap.put rt.seen k (KMap.put (KMap.lookD rt.seen k []) seq a) }
      match req with
      | some r => if countsInSent r.op then rt.arrived pkg die r.path.val else rt
      | none => rt
  { s with router := rt }.emit (.ack pkg die seq a)

/-- Die by whose cycle counter events at an address are of one cycle: that of its home, the first where it lies on none. -/
def State.homeDie (s : State) (a : Nat) : Nat := ((s.homeOf a).die?).getD 0

/-! ## Monitors (R204, R205, R208) -/

/-- Bytes that a monitor entry watches. -/
def monLen (w64 : Bool) : Nat := if w64 then 8 else 4

/-- The end of a wait may still give way to an event of the same cycle that comes before it: a change before a `WAKEA`, and
that before the deadline (R208). `rank` is that of the event that comes: 0 a change, 1 a `WAKEA`. -/
def endYields (ended : Option (BitVec 64)) (endedAt now rank : Nat) : Bool :=
  match ended with
  | none => true
  | some v => endedAt == now && (v == 2 || (rank == 0 && v == 1))

/-- An entry of a die's table gives way. -/
def Mon.yields (m : Mon) (now rank : Nat) : Bool := endYields m.ended m.endedAt now rank

/-- An entry of another package gives way. -/
def RemoteMon.yields (m : RemoteMon) (now rank : Nat) : Bool := endYields m.ended m.endedAt now rank

/-- The value that an entry watches is another after a write of `[a, a + n)`; `rd` reads it. -/
def Mon.changed (rd : Nat → Nat → Nat → Nat) (a n now : Nat) (m : Mon) : Bool :=
  let k := monLen m.w64
  decide (a < m.addr + k) && decide (m.addr < a + n) && m.yields now 0 && rd m.world m.addr k != m.expect.toNat

/-- An entry that a change of the same cycle takes from a `WAKEA` counts no longer in that `WAKEA`'s result (R208). -/
def State.uncount (s : State) (t : Taker) : State :=
  match t with
  | .ctx uid dest => s.modCtx uid fun c => { c with fills := c.fills.map fun f => match f.src with
      | .count now n => if f.dest == dest then { f with src := .count now (n - 1) } else f
      | _ => f }
  | .far pkg die seq => { s with router := { s.router with wakes := s.router.wakes.map fun w =>
      if w.pkg == pkg && w.die == die && w.seq == seq then { w with n := w.n - 1 } else w } }

/-- The value that an entry of another package watches is another after a write of `[a, a + n)`. -/
def RemoteMon.changed (rd : Nat → Nat → Nat → Nat) (a n : Nat) (now : Nat → Nat) (m : RemoteMon) : Bool :=
  let k := monLen m.w64
  decide (a < m.addr + k) && decide (m.addr < a + n) && m.yields (now m.home) 0 && rd m.world m.addr k != m.expect.toNat

/-- Ends the monitor waits whose value a write of `[a, a + n)` has changed. -/
def State.endMonsBy (s : State) (rd : Nat → Nat → Nat → Nat) (a n : Nat) : State :=
  let taken := (s.dies.flatMap fun d => d.2.monitors.filterMap fun m =>
      if m.2.changed rd a n d.2.cyc then m.2.taker else none)
    ++ s.remoteMons.filterMap fun m => if m.changed rd a n s.cyc then m.taker else none
  let s := { s with
    dies := KMap.mapVals s.dies fun _ d =>
      { d with monitors := KMap.mapVals d.monitors fun _ m =>
          if m.changed rd a n d.cyc then { m with ended := some 0, endedAt := d.cyc, taker := none } else m }
    remoteMons := s.remoteMons.map fun m =>
      if m.changed rd a n s.cyc then { m with ended := some 0, endedAt := s.cyc m.home, taker := none } else m }
  taken.foldl (fun (s : State) t => s.uncount t) s

/-- What other packages are told once the cycle has passed in which a wait of theirs has ended, or a `WAKEA` of theirs has
come (R208): the end of the wait, or the number of entries taken. -/
def State.tellFar (s : State) : State :=
  let gone := fun (m : RemoteMon) => m.ended.isSome && decide (m.endedAt < s.cyc m.home)
  let past := fun (w : FarWake) => decide (w.at_ < s.cyc w.home)
  let mons := s.remoteMons.filter gone
  let wakes := s.router.wakes.filter past
  let s := { s with
    remoteMons := s.remoteMons.filter fun m => !(gone m)
    router := { s.router with wakes := s.router.wakes.filter fun w => !(past w) } }
  let s := mons.foldl (fun (s : State) m => s.answer m.pkg m.die m.seq (.performed ((m.ended.getD 0).setWidth 1024))) s
  wakes.foldl (fun (s : State) w => s.answer w.pkg w.die w.seq (.performed (BitVec.ofNat 1024 w.n))) s

/-- Ends the waits on memory that a write has changed. -/
def State.endMonitors (s : State) (a n : Nat) : State := s.endMonsBy (fun w a n => s.readNat w a n) a n

/-- A write of the part to memory: its bytes, and the waits that it ends. -/
def State.write (s : State) (w a : Nat) (bs : List Byte) : State := (s.writeBytes w a bs).endMonitors a bs.length

/-- A write of the part over segments, in order. -/
def State.writeOver (s : State) (w : Nat) : List (Nat × Nat) → List Byte → State
  | [], _ => s
  | p :: ps, bs => (s.write w p.1 (bs.take p.2)).writeOver w ps (bs.drop p.2)

end Sys2Proof.Machine
end

