-- ==== Sys2Proof/Machine/Translate.lean ====
section
/-! DEFINITION. Forming and translating addresses: the mapping tree (R129 to R136), the addressing modes and
decoding windows (R158 to R162), and the checks on an access (R136, R160, R315, R373, R388). -/

namespace Sys2Proof.Machine

/-! ## Trap causes (R90) -/

def causeIllegal : Nat := 0x01
def causeEmpty : Nat := 0x02
def causeMisaligned : Nat := 0x03
def causeUnmapped : Nat := 0x04
def causePermission : Nat := 0x05
def causeNotHeld : Nat := 0x06
def causeLayout : Nat := 0x07
def causeViewStale : Nat := 0x08
def causeViewFault : Nat := 0x09
def causePoison : Nat := 0x0A
def causePrivileged : Nat := 0x0B
def causeBudget : Nat := 0x0C
def causeRetry : Nat := 0x0D
def causeBreak : Nat := 0x0E
def causeStep : Nat := 0x0F
def causeArith : Nat := 0x10

/-- What an access needs of a node (R131). -/
inductive Need where
  | rd | wr | rw | ex | none
  deriving DecidableEq, Repr

/-- The rights cover the need (R133). -/
def Need.okFor (n : Need) (rights : BitVec 8) : Bool :=
  match n with
  | .rd => rights.getLsbD 0
  | .wr => rights.getLsbD 1
  | .rw => rights.getLsbD 0 && rights.getLsbD 1
  | .ex => rights.getLsbD 2
  | .none => true

/-- The access writes. -/
def Need.writes : Need → Bool
  | .wr | .rw => true
  | _ => false

/-- The access reads. -/
def Need.reads : Need → Bool
  | .rd | .rw | .ex => true
  | _ => false

/-- A translation: the memory behind the access in address order, rights of the covering node, and the stored nodes on its
path. -/
structure Trans where
  parts  : List (Nat × Nat)
  rights : BitVec 8
  nodes  : List Nat
  deriving DecidableEq, Repr

/-- Physical address of the first byte. -/
def Trans.phys (t : Trans) : Nat :=
  match t.parts with
  | p :: _ => p.1
  | [] => 0

/-- `[a, a + n)` and `[b, b + m)` share a byte. -/
def overlaps (a n b m : Nat) : Bool := decide (a < b + m) && decide (b < a + n) && decide (0 < n) && decide (0 < m)

/-- `[a, a + n)` lies within `[b, b + m)`. -/
def within (a n b m : Nat) : Bool := decide (b ≤ a) && decide (a + n ≤ b + m)

/-- The nodes from one node up to its root, itself first. -/
def State.pathUp (s : State) : Nat → Nat → List Nat
  | 0, _ => []
  | fuel + 1, id =>
    match KMap.look s.nodes id with
    | none => []
    | some n => id :: (match n.parent with
      | some p => s.pathUp fuel p
      | none => [])

/-- The live stored node of a space that covers `[va, va + n)` (R132). -/
def State.nodeAt (s : State) (sp va n : Nat) : Option (Nat × Node) :=
  s.nodes.find? fun p => p.2.space == sp && !p.2.cut && within va n p.2.addr p.2.len

/-- The memory behind `n` bytes from offset `o` of an extent. -/
def backSlice : List (Nat × Nat) → Nat → Nat → List (Nat × Nat)
  | [], _, _ => []
  | (p, l) :: t, o, n =>
    if n = 0 then []
    else if l ≤ o then backSlice t (o - l) n
    else (p + o, min n (l - o)) :: backSlice t 0 (n - (l - o))

/-- A piece of the root node that has been granted away and not come back (R129). -/
def State.rootGone (s : State) (a n : Nat) : Bool :=
  s.nodes.any fun p => match p.2.rootAt with
    | some r => overlaps a n r p.2.len
    | none => false

/-- The id that names a root node (R129). -/
def rootId : Nat := 2 ^ 19 - 1

/-- Some stored node lies on the path of a translation. -/
def storedPath (nodes : List Nat) : Bool := nodes.any fun k => decide (k < rootId)

/-- Translation in a space (R132); `none` is unmapped. -/
def State.translate (s : State) (sp va n : Nat) : Option Trans :=
  if sp = 0 then
    match s.rootNode va with
    | some (b, l) =>
      if within va n b l && !(s.rootGone va n) then some ⟨[(va, n)], 0x1F, [rootId]⟩ else none
    | none => none
  else
    match s.nodeAt sp va n with
    | some (id, nd) => some ⟨backSlice nd.back (va - nd.addr) n, nd.rights, s.pathUp 18 id⟩
    | none => none

/-- Translation of an access whose memory lies in one piece. -/
def State.translateOne (s : State) (sp va n : Nat) : Option Trans :=
  match s.translate sp va n with
  | some t => if t.parts.length = 1 then some t else none
  | none => none

/-! ## Blocks of a master (R316, R317) -/

/-- Bytes of an element of the master: 4 or 2. -/
def masterElem (d : BitVec 1024) : Nat := if bits d.toNat 355 352 = 6 then 4 else 2

/-- Blocks of a master. -/
def masterBlocks (d : BitVec 1024) : Nat :=
  let n := d.toNat
  bits n 255 224 * bits n 223 192 * bits n 191 160 * bits n 159 128 / 32

/-- Offset of a physical address in an extent that begins `o` bytes in. -/
def offsetIn (a : Nat) : List (Nat × Nat) → Nat → Option Nat
  | [], _ => none
  | (p, l) :: t, o => if p ≤ a ∧ a < p + l then some (o + (a - p)) else offsetIn a t (o + l)

/-- Physical address of the first byte of a master's data. -/
def Master.base (m : Master) : Nat := (m.data.headD (0, 0)).1

/-- Physical address of a byte of a master's data, and of its tracking area. -/
def Master.dataAt (m : Master) (o : Nat) : Nat := ((backSlice m.data o 1).headD (0, 0)).1
def Master.areaAt (m : Master) (o : Nat) : Nat := ((backSlice m.area o 1).headD (0, 0)).1

/-- The block of a master that holds an address of its data. -/
def masterBlockAt (m : Master) (a : Nat) : Option Nat :=
  let n := m.desc.toNat
  let z := masterElem m.desc
  let d0 := bits n 159 128
  let d1 := bits n 191 160
  let d2 := bits n 223 192
  let d3 := bits n 255 224
  let s1 := bits n 287 256
  let s2 := bits n 319 288
  let s3 := bits n 351 320
  match offsetIn a m.data 0 with
  | none => none
  | some o =>
    (List.range d3).findSome? fun i3 => (List.range d2).findSome? fun i2 =>
      if (o < i3 * s3 + i2 * s2) then none
      else
        let r := o - i3 * s3 - i2 * s2
        let i1 := if s1 = 0 then 0 else min (r / s1) (d1 - 1)
        let q := r - i1 * s1
        if (q < d0 * z) then some (((i3 * d2 + i2) * d1 + i1) * (d0 / 32) + q / z / 32) else none

/-- Blocks of a master that a write touches. -/
def blocksTouched (m : Master) (a n : Nat) : List Nat :=
  ((wordsOf a n).filterMap fun x => masterBlockAt m (max x a)).dedup

/-- Bytes of the tracking area (R317). -/
def trackBytes (d : BitVec 1024) : Nat := 8 * masterBlocks d + 8 * ((masterBlocks d + 63) / 64)

/-- The bytes lie in a registered tracking area (R315). -/
def State.inTrack (s : State) (a n : Nat) : Bool :=
  s.masters.any fun p => p.2.area.any fun q => overlaps a n q.1 q.2

/-- Checks on protected memory by its owner: the tag tail of CXL regions, and writes to a hash extent (R373). -/
def State.protDenies (s : State) (w a n : Nat) (write : Bool) : Bool :=
  w != 0 && (linesOf a n).any fun l =>
    match KMap.look s.mem.prot (l / 2 ^ 20) with
    | some p => p.owner == w && ((write && p.hash.isSome) ||
        (match s.homeOf l with
          | .cxl _ => decide (l % 2 ^ 20 ≥ 896 * 1024)
          | _ => false))
    | none => false

/-- Some byte of `[a, a + n)` is pool memory, which comes in units of 64 KiB (R387). -/
def State.touchesPool (s : State) (a n : Nat) : Bool :=
  s.isPool a || s.isPool (a + n - 1) || (List.range (n / 65536)).any fun i => s.isPool (a + 65536 * (i + 1))

/-- The access to `[a, a + n)` is allowed at its home; `trusted` is the bit of R136. -/
def State.allowed (s : State) (w a n : Nat) (need : Need) (trusted : Bool) : Bool :=
  (match pageKind a with
    | some .privatePage => trusted
    | _ => true)
  && (!(s.touchesPool a n) || s.poolAllows a n need.reads need.writes)
  && !(need.writes && s.inTrack a n) && !(s.protDenies w a n need.writes)

/-- A global access: alignment, translation, rights and the checks at its home (R133, R136, R159). -/
def State.resolveGlobal (s : State) (world sp : Nat) (slot7 : Bool) (va size align : Nat) (need : Need) :
    Except (Nat × Nat) Acc :=
  if va % align ≠ 0 then .error (causeMisaligned, va)
  else match s.translate sp va size with
    | none => .error (causeUnmapped, va)
    | some t =>
      let tr := slot7 && t.rights.getLsbD 4
      if !(need.okFor t.rights) then .error (causePermission, va)
      else if !(t.parts.all fun p => s.allowed world p.1 p.2 need tr) then .error (causePermission, va)
      else .ok { parts := t.parts, size := size, win := 0, rnd := 0, world := world, trusted := tr,
                 nodes := t.nodes, va := va }

/-! ## Local addressing (R158 to R162) -/

/-- Ratio of a decoding window: raw bytes are the size divided by it (R161). -/
def winDiv (win : Nat) : Nat := if win = 0 then 1 else if win = 1 ∨ win = 2 then 2 else 4

/-- Core index and offset that a local address names (R158). -/
def localPlace (mode : MemMode) (self a : Nat) : Nat × Nat :=
  match mode with
  | .own => (self, a % 2 ^ 20)
  | .lin => (a / 2 ^ 20 % 16, a % 2 ^ 20)
  | _ => (a / 64 % 16, a / 1024 % 2 ^ 14 * 64 + a % 64)

/-- Physical address of an offset in the local memory of a core of the cluster. -/
def localPhys (d c ix off : Nat) : Nat := localBase + d * 2 ^ 28 + coreAt (clusterOf c) ix * 2 ^ 20 + off

/-- The granule owner check (R160) on raw bytes that lie in one granule; `none` passes. -/
def State.granuleFault (s : State) (region a : Nat) : Option Nat :=
  let o := s.granOwner a
  if o = 0 then some causeUnmapped else if o ≠ region then some causePermission else none

/-- How an instruction uses its memory operand: as the data of a load or store; as the datum of an atomic, which takes
window 0 and rounding 000 only (R198); or as a block read at issue, which is aligned to its whole size (R420). -/
inductive MemUse where
  | data | atomic | block
  deriving DecidableEq, Repr

/-- A local access of the decoded size (R158 to R162). Only the footprint of `LDV` and `STV` is split in mode ilv. -/
def State.resolveLocal (s : State) (world region : Nat) (d c : Nat) (mode : MemMode) (a size : Nat) (store : Bool)
    (use : MemUse) (need : Need) : Except (Nat × Nat) Acc :=
  let win := a / 2 ^ 24 % 8
  let rnd := a / 2 ^ 27 % 8
  let raw := size / winDiv win
  let pl := localPlace mode (indexOf c) a
  if a / 2 ^ 30 ≠ 0 ∨ win = 7 ∨ 5 ≤ rnd then .error (causeUnmapped, a)
  else if use == .atomic && (win != 0 || rnd != 0) then .error (causeMisaligned, a)
  else if win = 0 ∧ rnd ≠ 0 then .error (causeMisaligned, a)
  else if win ≠ 0 ∧ size < 4 then .error (causeMisaligned, a)
  else
    let split := mode == .ilv && size == 128 && win == 0 && use == .data
    if pl.2 % (if split then 64 else if use = .block then size else raw) ≠ 0 then .error (causeMisaligned, a)
    else if mode == .ilv && !split && decide (64 < a % 64 + raw) then .error (causeMisaligned, a)
    else if (win = 3 ∨ win = 4) ∧ 3968 < pl.2 % 4096 + raw then .error (causeMisaligned, a)
    else
      let parts :=
        if split then
          let q := localPlace mode (indexOf c) (a + 64)
          [(localPhys d c pl.1 pl.2, 64), (localPhys d c q.1 q.2, 64)]
        else [(localPhys d c pl.1 pl.2, raw)]
      match parts.findSome? fun p => s.granuleFault region p.1 with
      | some cause => .error (cause, a)
      | none =>
        if parts.any fun p => !(s.allowed world p.1 p.2 need false) then .error (causePermission, a)
        else .ok { parts := parts, size := size, win := win, rnd := if store then rnd else 0, world := world,
                   trusted := false, nodes := [], va := a }

/-- The address of a memory operand (R158); a base of x0 reads as 0 (R52). -/
def formAddr (cx : Context) (m : MemOp) (size : Nat) : Nat :=
  let b : BitVec 64 := if m.base.val = 0 then 0 else KMap.lookD cx.x m.base.val 0
  wrap64 (b.toNat + m.disp.toInt * size)

/-- An access of a context at an address in a mode (R158, R159, R133, R160). -/
def State.resolve (s : State) (cx : Context) (mode : MemMode) (a size : Nat) (need : Need)
    (store : Bool) (use : MemUse) : Except (Nat × Nat) Acc :=
  match mode with
  | .global => s.resolveGlobal cx.world cx.space (cx.slot == some 7) a size size need
  | _ => s.resolveLocal cx.world cx.region cx.die.val cx.core.val mode a size store use need

/-- Home of an access: that of its first byte. -/
def State.accHome (s : State) (a : Acc) : Home :=
  match a.parts with
  | [] => .nowhere
  | p :: _ => s.homeOf p.1

/-! ## Migrating pages (R147) -/

/-- Where the memory of a migration's source page lies now. -/
def Move.memory (m : Move) : List (Nat × Nat) :=
  m.pairs.map fun q => if m.ended && !m.cut then (q.2.1, q.2.2) else (q.1, q.2.2)

/-- Segments share memory. -/
def partsMeet (xs ys : List (Nat × Nat)) : Bool := xs.any fun p => ys.any fun q => overlaps p.1 p.2 q.1 q.2

/-- The page of some memory is migrating (R146, R147). -/
def State.migrating (s : State) (parts : List (Nat × Nat)) : Bool :=
  s.moves.any fun m => !m.ended && partsMeet parts m.memory

/-- The retry entry of an access that a migration holds, and the number of the migration. -/
def Waiter.pausedBy (w : Waiter) (uid : Nat) (who : Paused) : Bool :=
  match w.op with
  | .paused u k _ => u == uid && k == who
  | _ => false

/-- The retry entry is one that migration `n` holds. -/
def Waiter.pausedIn (w : Waiter) (n : Nat) : Bool :=
  match w.op with
  | .paused _ _ k => k == n
  | _ => false

/-- The migration that holds an access now: its page is still migrating, or accesses that arrived earlier have not been
performed (R147). -/
def State.pauser (s : State) (uid : Nat) (who : Paused) (parts : List (Nat × Nat)) : Option Move :=
  s.moves.find? fun m => partsMeet parts m.memory &&
    (!m.ended || (s.retry.takeWhile fun w => !(w.pausedBy uid who)).any fun w => w.pausedIn m.num)

/-- The access has an entry in a retry list. -/
def State.hasPaused (s : State) (uid : Nat) (who : Paused) : Bool := s.retry.any fun w => w.pausedBy uid who

/-- The access is performed, or no longer made: its entry goes, and a migration that has ended and holds no more accesses. -/
def State.unpause (s : State) (uid : Nat) (who : Paused) : State :=
  if s.moves.isEmpty then s
  else
    let r := s.retry.filter fun w => !(w.pausedBy uid who)
    { s with retry := r, moves := s.moves.filter fun m => !m.ended || r.any fun w => w.pausedIn m.num }

/-- The entries of a context that a test names go. -/
def State.unpauseAll (s : State) (uid : Nat) (f : Paused → Bool) : State :=
  if s.moves.isEmpty then s
  else
    let r := s.retry.filter fun w => match w.op with
      | .paused u k _ => u != uid || !(f k)
      | _ => true
    { s with retry := r, moves := s.moves.filter fun m => !m.ended || r.any fun w => w.pausedIn m.num }

end Sys2Proof.Machine
end

