-- ==== Sys2Proof/Machine/Cache.lean ====
section
/-! DEFINITION. The L1 of a core: which lines it holds, and the contention predictor (R39, R165, R172, R173, R195, R196). The
data of a line are held once, in memory: an L1 copy only says where accesses are performed. -/

namespace Sys2Proof.Machine

/-- Lines that an L1 holds at most: 64 KiB (R155). -/
def l1Lines : Nat := 1024

/-- The L1s of the die may hold the line of an address (R165). -/
def State.l1Eligible (s : State) (d a : Nat) : Bool :=
  match s.homeOf a with
  | .vault d' _ | .dram d' => d' == d
  | _ => false

/-- No L1 is granted the line of an address writable: a monitor entry of this package or of another watches it (R204), or it
holds data of a master (R315). -/
def State.watched (s : State) (a : Nat) : Bool :=
  (s.dies.any fun d => d.2.monitors.any fun m => m.2.ended.isNone && m.2.addr / 64 == a / 64)
    || (s.remoteMons.any fun m => m.ended.isNone && m.addr / 64 == a / 64)
    || s.masters.any fun m => !(blocksTouched m.2 (a / 64 * 64) 64).isEmpty

/-! ## The contention predictor (R196) -/

/-- Counter of a line in the predictor. -/
def predCount (p : List (Nat × Fin 4)) (line : Nat) : Nat :=
  match p.find? fun e => e.1 == line with
  | some e => e.2.val
  | none => 0

/-- Sets a counter: its entry becomes the most recently used of 64. -/
def predSet (p : List (Nat × Fin 4)) (line n : Nat) : List (Nat × Fin 4) :=
  ((line, ⟨min n 3, by omega⟩) :: p.filter fun e => e.1 != line).take 64

/-! ## Recalls (R165) -/

/-- A core gives up its copy of a line; with `keep` only a writable one, which stays as a read-only copy. Where another
core's access recalls it, its counter rises (R196). -/
def recallCopy (line : Nat) (keep counts : Bool) (k : Core) : Core :=
  match KMap.look k.l1 line with
  | none => k
  | some x =>
    if keep && !x.wr then k
    else { k with l1 := if keep then KMap.put k.l1 line { x with wr := false, md := false } else KMap.del k.l1 line,
                  pred := if counts then predSet k.pred line (predCount k.pred line + 1) else k.pred }

/-- Recalls the copies of a line that the cores of a die other than `c` hold. -/
def State.recallL1 (s : State) (d c line : Nat) (keep : Bool) : State :=
  { s with cores := KMap.mapVals s.cores fun key k =>
      if key / 256 == d && key % 256 != c then recallCopy line keep true k else k }

/-- An access performed at the home of a line: modified copies are recalled, and every copy where it writes (R165). `by_`
is the core whose access it is; that of an engine, a unit or another package is no core's, and raises no counter (R196; DEDUCED,
log 112). -/
def State.l1Home (s : State) (by_ : Option Nat) (a : Nat) (write : Bool) : State :=
  match s.homeOf a with
  | .vault d _ | .dram d =>
    { s with cores := KMap.mapVals s.cores fun key k =>
        if key / 256 == d then recallCopy (a / 64) (!write) (by_.isSome && by_ != some key) k else k }
  | _ => s

/-- Every line of a footprint. -/
def State.l1Each (s : State) (parts : List (Nat × Nat)) (f : State → Nat → State) : State :=
  (parts.flatMap fun p => linesOf p.1 p.2).foldl f s

/-- The writable copies of lines that no L1 may now hold writable are recalled (R204, R315). -/
def State.l1Unwatch (s : State) : State :=
  { s with cores := KMap.mapVals s.cores fun _ k =>
      (k.l1.filter fun l => l.2.wr && s.watched (l.1 * 64)).foldl (fun k l => recallCopy l.1 true false k) k }

/-- Another core of the die holds the line. -/
def State.heldElsewhere (s : State) (d c line : Nat) : Bool :=
  s.cores.any fun p => p.1 / 256 == d && p.1 % 256 != c && KMap.has p.2.l1 line

/-! ## Lines enter an L1 -/

/-- The line that an L1 gives up: the least recently used, the lowest of several. The manual names no line; R173 speaks of
the least recently used one (DEDUCED, log 92). -/
def l1Victim (m : KMap L1Line) : Option (Nat × L1Line) :=
  m.foldl (fun best p => match best with
    | none => some p
    | some b => if p.2.use < b.2.use then some p else best) none

/-- A line enters an L1, or changes its state there, as the most recently used; a streamed one as the least (R173). -/
def l1Put (line : Nat) (wr md stream : Bool) (k : Core) : Core :=
  let l1 := if KMap.has k.l1 line || decide (k.l1.length < l1Lines) then k.l1
    else match l1Victim k.l1 with
      | some v => KMap.del k.l1 v.1
      | none => k.l1
  { k with l1 := KMap.put l1 line { wr := wr, md := md, use := if stream then 0 else k.uses + 1 }, uses := k.uses + 1 }

/-- A line that an L1 holds is used. -/
def l1Touch (line : Nat) (k : Core) : Core :=
  { k with l1 := KMap.modify k.l1 line fun x => { x with use := k.uses + 1 }, uses := k.uses + 1 }

/-- A core takes a line to read it, or to own it, under a locality hint (R39, R165, R173): into its L1, as the least recently
used where it is streamed; or the line is read at its home. -/
def State.l1Take (s : State) (d c : Nat) (loc : BitVec 2) (own : Bool) (a : Nat) : State :=
  let line := a / 64
  if !(s.l1Eligible d a) || loc == 2 then s.l1Home (some (coreKey d c)) a false
  else
    let own := own && !(s.watched a)
    match KMap.look (s.core d c).l1 line with
    | some x =>
      if own && !x.wr then (s.recallL1 d c line false).modCore d c (l1Put line true false false)
      else s.modCore d c (l1Touch line)
    | none => (s.recallL1 d c line (!own)).modCore d c (l1Put line own false (loc == 3))

/-- A plain load of a line under its hint: `local, owned` takes it writable (R39). The same hint of a block read at issue
(R420), which R39 calls only local, takes it writable too (DESIGN CHOICE, log 116). -/
def State.l1Read (s : State) (d c : Nat) (loc : BitVec 2) (a : Nat) : State := s.l1Take d c loc (loc == 1) a

/-- A plain store to a line under its hint: through the L1, or at its home. A watched line is written at its home (R204). -/
def State.l1Write (s : State) (d c : Nat) (loc : BitVec 2) (a : Nat) : State :=
  if !(s.l1Eligible d a) || loc == 2 || s.watched a then s.l1Home (some (coreKey d c)) a true
  else (s.recallL1 d c (a / 64) false).modCore d c (l1Put (a / 64) true true false)

/-- Where an atomic is performed under its hint, and the predictor after it (R195, R196). -/
def State.l1Atomic (s : State) (d c : Nat) (loc : BitVec 2) (a : Nat) : State :=
  let line := a / 64
  let k := s.core d c
  let auto := s.l1Eligible d a && loc == 0 && k.pred.any fun e => e.1 == line
  let s := if auto then s.modCore d c fun k => { k with pred := predSet k.pred line (predCount k.pred line) } else s
  let home := loc == 2 || (loc == 0 && decide (2 ≤ predCount k.pred line)) || s.watched a
  if !(s.l1Eligible d a) || home then s.l1Home (some (coreKey d c)) a true
  else
    let mine := match KMap.look k.l1 line with
      | some x => x.wr
      | none => false
    let n := if mine then 0
      else if s.heldElsewhere d c line then predCount k.pred line + 1 else predCount k.pred line
    (s.l1Write d c 0 a).modCore d c fun k => { k with pred := predSet k.pred line n }

/-- `PREF` (R172): nothing where its hint or its home keeps the line out of the L1 (R39, R165). -/
def State.l1Pref (s : State) (d c : Nat) (loc : BitVec 2) (a : Nat) (own : Bool) : State :=
  if !(s.l1Eligible d a) || loc == 2 then s
  else s.l1Take d c loc (own || loc == 1) a

/-- `WBL` (R172): a modified copy is written back and kept clean. -/
def State.l1Clean (s : State) (d c a : Nat) : State :=
  s.modCore d c fun k => { k with l1 := KMap.modify k.l1 (a / 64) fun x => { x with md := false } }

/-- `INVL.d` (R172). -/
def State.l1Drop (s : State) (d c a : Nat) : State :=
  s.modCore d c fun k => { k with l1 := KMap.del k.l1 (a / 64) }

end Sys2Proof.Machine
end

