-- ==== Sys2Proof/Machine/Num.lean ====
section
/-! DEFINITION. Number formats, rounding, conversions and flags (chapter 15). Finite values are exact rationals; each
operation computes exactly and rounds once (R241, R242). Values of a format are numbers below 2^width. -/

namespace Sys2Proof.Machine

/-! ## Flags (R64, R249) -/

def flInvalid : Nat := 1
def flDiv0 : Nat := 2
def flOverflow : Nat := 4
def flUnderflow : Nat := 8
def flInexact : Nat := 16
def flNanMade : Nat := 32
def flBadTrit : Nat := 64
def flSpill : Nat := 128
def flPairOver : Nat := 256

/-! ## Formats (R237 to R239) -/

/-- Exponent bits and fraction bits of a floating-point format; 0 for the others. -/
def fmtBits : ElemType → Nat × Nat
  | .f64 => (11, 52) | .f32 => (8, 23) | .f16 => (5, 10) | .bf16 => (8, 7) | .e4m3 => (4, 3) | .e5m2 => (5, 2)
  | _ => (0, 0)

/-- A floating-point format. -/
def isFloat (t : ElemType) : Bool := (fmtBits t).1 != 0

/-- Exponent bias. -/
def fmtBias (t : ElemType) : Nat := 2 ^ ((fmtBits t).1 - 1) - 1

/-- Encoding of the largest finite magnitude. -/
def fmtMax (t : ElemType) : Nat :=
  match t with
  | .e4m3 => 0x7E
  | _ => (2 ^ (fmtBits t).1 - 1) * 2 ^ (fmtBits t).2 - 1

/-- Encoding of positive infinity, for a format that has one. -/
def fmtInf (t : ElemType) : Nat := (2 ^ (fmtBits t).1 - 1) * 2 ^ (fmtBits t).2

/-- The sign bit's value. -/
def fmtSign (t : ElemType) : Nat := 2 ^ (t.bits - 1)

/-- The canonical NaN (R238). -/
def fmtNan (t : ElemType) : Nat :=
  match t with
  | .e4m3 => 0x7F
  | _ => fmtInf t + 2 ^ ((fmtBits t).2 - 1)

/-- A value taken apart: NaN (signalling or not), infinity, or an exact rational with its sign. -/
inductive Val where
  | nan (sig : Bool)
  | inf (neg : Bool)
  | fin (neg : Bool) (n d : Nat)
  deriving DecidableEq, Repr

/-- `n / d` times 2^e. -/
def scale2 (n d : Nat) (e : Int) : Nat × Nat := if 0 ≤ e then (n * 2 ^ e.toNat, d) else (n, d * 2 ^ (-e).toNat)

/-- A value of a floating-point format (R237, R238). -/
def unpack (t : ElemType) (a : Nat) : Val :=
  let eb := (fmtBits t).1
  let fb := (fmtBits t).2
  let f := a % 2 ^ fb
  let e := a / 2 ^ fb % 2 ^ eb
  let neg := a / 2 ^ (eb + fb) % 2 == 1
  if e = 2 ^ eb - 1 ∧ t ≠ .e4m3 then
    if f = 0 then .inf neg else .nan (decide (f < 2 ^ (fb - 1)) && t != .e5m2)
  else if t = .e4m3 ∧ e = 15 ∧ f = 7 then .nan false
  else
    let m := if e = 0 then f else 2 ^ fb + f
    let x : Int := (max e 1 : Int) - fmtBias t - fb
    let p := scale2 m 1 x
    .fin neg p.1 p.2

/-- An integer element of a type (R239). -/
def intOf (t : ElemType) (a : Nat) : Int :=
  match t with
  | .u8 => (a % 256 : Nat)
  | .t2 => if a % 4 = 1 then 1 else if a % 4 = 3 then -1 else 0
  | _ =>
    let w := t.bits
    let v := a % 2 ^ w
    if v < 2 ^ (w - 1) then v else (v : Int) - 2 ^ w

/-- The low `w` bits of an integer. -/
def lowBits (w : Nat) (i : Int) : Nat := (i % (2 ^ w : Int)).toNat

/-! ## Rounding (R241, R242) -/

/-- Largest `e` with 2^e ≤ n/d, for n, d nonzero. -/
def floorLog2 (n d : Nat) : Int :=
  let e : Int := (Nat.log2 n : Int) - Nat.log2 d
  let p := scale2 d 1 e
  if p.1 ≤ n * p.2 then e else e - 1

/-- The integer that a quotient `n/d` rounds to: sign, mode, random bits (R241, R242). -/
def roundInt (mode : Rnd) (r : Nat) (neg : Bool) (n d : Nat) : Nat :=
  let q := n / d
  let rem := n % d
  match mode with
  | .rne => if 2 * rem > d ∨ (2 * rem = d ∧ q % 2 = 1) then q + 1 else q
  | .rtz => q
  | .rup => if rem ≠ 0 ∧ !neg then q + 1 else q
  | .rdn => if rem ≠ 0 ∧ neg then q + 1 else q
  | .sr => if rem * 65536 / d + r ≥ 65536 then q + 1 else q

/-- The rounded encoding, with the exponent unbounded above, and with it unbounded below too: magnitude only. -/
def roundEnc (t : ElemType) (mode : Rnd) (r : Nat) (neg : Bool) (n d : Nat) (bounded : Bool) : Int :=
  let fb := (fmtBits t).2
  let emin : Int := 1 - fmtBias t
  let e0 := floorLog2 n d
  let e := if bounded then max e0 emin else e0
  let p := scale2 n d ((fb : Int) - e)
  let m := roundInt mode r neg p.1 p.2
  (e - emin) * 2 ^ fb + m

/-- The encoding of an exact value differs from it. -/
def encInexact (t : ElemType) (n d : Nat) (enc : Nat) : Bool :=
  match unpack t enc with
  | .fin _ a b => a * d != n * b
  | _ => true

/-- What an overflow delivers: encoding of magnitude and flags (R241). -/
def overflowTo (t : ElemType) (mode : Rnd) (sat neg : Bool) : Nat × Nat :=
  let toInf := match mode with
    | .rne | .sr => true
    | .rtz => false
    | .rup => !neg
    | .rdn => neg
  if sat || !toInf then (fmtMax t, flOverflow + flInexact)
  else if t == .e4m3 then (fmtNan t, flOverflow + flInexact + flNanMade)
  else (fmtInf t, flOverflow + flInexact)

/-- Rounds the exact value ±n/d to a floating-point format: encoding and flags (R241, R242). -/
def roundTo (t : ElemType) (mode : Rnd) (sat : Bool) (r : Nat) (neg : Bool) (n d : Nat) : Nat × Nat :=
  let s := if neg then fmtSign t else 0
  if n = 0 then (s, 0)
  else
    let enc := (roundEnc t mode r neg n d true).toNat
    if fmtMax t < enc then
      let o := overflowTo t mode sat neg
      if o.2 / flNanMade % 2 = 1 then o else (s + o.1, o.2)
    else
      let inx := encInexact t n d enc
      let tiny := match mode with
        | .sr => decide (floorLog2 n d < 1 - (fmtBias t : Int))
        | _ => decide (roundEnc t mode r neg n d false < 2 ^ (fmtBits t).2)
      (s + enc, (if inx then flInexact else 0) + (if inx && tiny then flUnderflow else 0))

/-! ## Exact arithmetic on values -/

/-- Sum of two signed rationals. -/
def addRat (s1 : Bool) (n1 d1 : Nat) (s2 : Bool) (n2 d2 : Nat) : Int × Nat :=
  let a : Int := if s1 then -(n1 : Int) else n1
  let b : Int := if s2 then -(n2 : Int) else n2
  if d1 = d2 then (a + b, d1)
  else if d1 % d2 = 0 then (a + b * (d1 / d2 : Nat), d1)
  else if d2 % d1 = 0 then (a * (d2 / d1 : Nat) + b, d2)
  else (a * d2 + b * d1, d1 * d2)

/-- A value and the flags that its exact computation has set. -/
abbrev VF := Val × Nat

/-- Invalid: a NaN made (R249). -/
def invalidVF : VF := (.nan false, flInvalid + flNanMade)

/-- Some value is a NaN: the NaN, and invalid if one is signalling (R254). -/
def nanIn (vs : List Val) : Option VF :=
  if vs.any fun v => match v with
    | .nan _ => true
    | _ => false
  then some (.nan false, if vs.any fun v => v == .nan true then flInvalid else 0)
  else none

/-- Exact sum (R254); a zero that is exact is +0, or −0 under RDN, and two zeros of one sign keep it. -/
def addV (mode : Rnd) (a b : Val) : VF :=
  match nanIn [a, b] with
  | some r => r
  | none =>
    match a, b with
    | .inf s, .inf t => if s = t then (.inf s, 0) else invalidVF
    | .inf s, _ => (.inf s, 0)
    | _, .inf t => (.inf t, 0)
    | .fin s n d, .fin t m e =>
      let r := addRat s n d t m e
      if r.1 = 0 then
        (.fin (if n = 0 ∧ m = 0 ∧ s = t then s else mode == .rdn) 0 1, 0)
      else (.fin (decide (r.1 < 0)) r.1.natAbs r.2, 0)
    | _, _ => invalidVF

/-- The negative of a value; a NaN stays as it is. -/
def negV : Val → Val
  | .inf s => .inf (!s)
  | .fin s n d => .fin (!s) n d
  | v => v

/-- Exact product. Two zeros of the same sign keep that sign, as R254 says of products and sums alike (log 107). -/
def mulV (a b : Val) : VF :=
  match nanIn [a, b] with
  | some r => r
  | none =>
    match a, b with
    | .inf s, .inf t => (.inf (s != t), 0)
    | .inf s, .fin t m _ => if m = 0 then invalidVF else (.inf (s != t), 0)
    | .fin s n _, .inf t => if n = 0 then invalidVF else (.inf (s != t), 0)
    | .fin s n d, .fin t m e => (.fin (if n = 0 ∧ m = 0 ∧ s = t then s else s != t) (n * m) (d * e), 0)
    | _, _ => invalidVF

/-- Exact quotient (R254). -/
def divV (a b : Val) : VF :=
  match nanIn [a, b] with
  | some r => r
  | none =>
    match a, b with
    | .inf _, .inf _ => invalidVF
    | .inf s, .fin t _ _ => (.inf (s != t), 0)
    | .fin s _ _, .inf t => (.fin (s != t) 0 1, 0)
    | .fin s n d, .fin t m e =>
      if m = 0 then (if n = 0 then invalidVF else (.inf (s != t), flDiv0))
      else (.fin (s != t) (n * e) (d * m), 0)
    | _, _ => invalidVF

/-- Integer square root, bit by bit from bit `b` - 1 down. -/
def isqrtBits (n : Nat) : Nat → Nat → Nat
  | 0, acc => acc
  | b + 1, acc => isqrtBits n b (if (acc + 2 ^ b) * (acc + 2 ^ b) ≤ n then acc + 2 ^ b else acc)

/-- Largest integer whose square is at most n. -/
def isqrt (n : Nat) : Nat := isqrtBits n (Nat.log2 n / 2 + 1) 0

/-- Square root (R254): exact, or with one bit below the last that any rounding sees. -/
def sqrtV (a : Val) : VF :=
  match nanIn [a] with
  | some r => r
  | none =>
    match a with
    | .inf s => if s then invalidVF else (.inf false, 0)
    | .fin s n d =>
      if n = 0 then (.fin s 0 1, 0)
      else if s then invalidVF
      else
        let k := 64 + (Nat.log2 d + 1)
        let q := n * 4 ^ k / d
        let t := isqrt q
        (.fin false (if t * t * d = n * 4 ^ k then 2 * t else 2 * t + 1) (2 ^ (k + 1)), 0)
    | .nan _ => invalidVF

/-- A value with the flags of its computation, rounded to a format. -/
def roundVF (t : ElemType) (mode : Rnd) (sat : Bool) (r : Nat) (v : VF) : Nat × Nat :=
  match v.1 with
  | .nan _ => (fmtNan t, v.2)
  | .inf neg =>
    let s := if neg then fmtSign t else 0
    if sat then (s + fmtMax t, v.2)
    else if t = .e4m3 then (fmtNan t, v.2 ||| (flInvalid + flNanMade))
    else (s + fmtInf t, v.2)
  | .fin neg n d =>
    let p := roundTo t mode sat r neg n d
    (p.1, v.2 ||| p.2)

/-! ## Conversions (R246 to R248) -/

/-- Least and greatest value of an integer type. -/
def intRange (t : ElemType) : Int × Int :=
  match t with
  | .u8 => (0, 255)
  | .t2 => (-1, 1)
  | _ => (-(2 ^ (t.bits - 1) : Int), (2 ^ (t.bits - 1) : Int) - 1)

/-- Float to integer (R247). -/
def floatToInt (t : ElemType) (mode : Rnd) (sat : Bool) (r : Nat) (v : Val) : Nat × Nat :=
  let top := 2 ^ (t.bits - 1)
  let lo := (intRange t).1
  let hi := (intRange t).2
  match v with
  | .nan _ => (if sat then 0 else top, flInvalid)
  | .inf s => (if sat then lowBits t.bits (if s then lo else hi) else top, flInvalid)
  | .fin s n d =>
    let m := roundInt mode r s n d
    let i : Int := if s then -(m : Int) else m
    if i < lo then (if sat then lowBits t.bits lo else top, flInvalid)
    else if hi < i then (if sat then lowBits t.bits hi else top, flInvalid)
    else (lowBits t.bits i, if m * d = n then 0 else flInexact)

/-- Integer to integer (R248). -/
def intToInt (t : ElemType) (sat : Bool) (i : Int) : Nat × Nat :=
  let lo := (intRange t).1
  let hi := (intRange t).2
  if i < lo then (lowBits t.bits (if sat then lo else i), flOverflow)
  else if hi < i then (lowBits t.bits (if sat then hi else i), flOverflow)
  else (lowBits t.bits i, 0)

/-- bad_trit of a T2 element (R239). -/
def tritFlag (s : ElemType) (a : Nat) : Nat := if s = .t2 ∧ a % 4 = 2 then flBadTrit else 0

/-- Converts an element from one type to another: result in the destination's width, and flags (R246 to R248). -/
def convert (s t : ElemType) (mode : Rnd) (sat : Bool) (r : Nat) (a : Nat) : Nat × Nat :=
  if isFloat s then
    let v := unpack s a
    if s = t then (match v with
      | .nan q => (fmtNan t, if q then flInvalid else 0)
      | _ => (a % 2 ^ t.bits, 0))
    else if isFloat t then
      roundVF t mode sat r (v, if v = .nan true then flInvalid else 0)
    else floatToInt t mode sat r v
  else
    let i := intOf s a
    if isFloat t then
      let p := roundTo t mode sat r (decide (i < 0)) i.natAbs 1
      (p.1, p.2 + tritFlag s a)
    else
      let p := intToInt t sat i
      (p.1, p.2 + tritFlag s a)

/-- A widening of R246: exact. -/
def widening (s t : ElemType) : Bool :=
  match s, t with
  | .e4m3, .f32 | .e4m3, .f64 | .e5m2, .f32 | .e5m2, .f64 | .f16, .f32 | .f16, .f64
  | .bf16, .f32 | .bf16, .f64 | .f32, .f64 => true
  | _, _ => false

/-- The type pair can never be inexact: SR takes no step (R248). -/
def neverInexact (s t : ElemType) : Bool :=
  s == t || widening s t || (!(isFloat s) && !(isFloat t)) || s == .t2
    || ((s == .i8 || s == .u8) && (t == .f16 || t == .bf16 || t == .f32 || t == .f64))
    || (s == .i16 && (t == .f32 || t == .f64)) || (s == .i32 && t == .f64)

/-! ## The Stipple generator (R243, R244) -/

/-- One step. -/
def stippleStep (s : BitVec 64) : BitVec 64 :=
  let s := s ^^^ (s <<< 13)
  let s := s ^^^ (s >>> 7)
  s ^^^ (s <<< 17)

/-- The 16 random bits of a lane. -/
def stippleLane (s : BitVec 64) (i : Nat) : Nat := (s.rotateLeft (11 * i % 64)).toNat % 65536

/-- The seed of a command (R244). -/
def stippleSeed (seed coord seq : BitVec 64) : BitVec 64 :=
  let s := seed ^^^ (coord * 0x9E3779B97F4A7C15) ^^^ (seq * 0xC2B2AE3D27D4EB4F)
  if s = 0 then 0x9E3779B97F4A7C15 else s

/-! ## Scalar operations (R254, R255) -/

/-- Scalar format as an element type. -/
def FFmt.elem : FFmt → ElemType
  | .f64 => .f64 | .f32 => .f32 | .f16 => .f16 | .bf16 => .bf16

def fAdd (t : ElemType) (m : Rnd) (a b : Nat) : Nat × Nat := roundVF t m false 0 (addV m (unpack t a) (unpack t b))
def fSub (t : ElemType) (m : Rnd) (a b : Nat) : Nat × Nat :=
  roundVF t m false 0 (addV m (unpack t a) (negV (unpack t b)))
def fMul (t : ElemType) (m : Rnd) (a b : Nat) : Nat × Nat := roundVF t m false 0 (mulV (unpack t a) (unpack t b))
def fDiv (t : ElemType) (m : Rnd) (a b : Nat) : Nat × Nat := roundVF t m false 0 (divV (unpack t a) (unpack t b))
def fSqrt (t : ElemType) (m : Rnd) (a : Nat) : Nat × Nat := roundVF t m false 0 (sqrtV (unpack t a))

/-- a × b + c, one rounding. A NaN input makes the canonical NaN; 0 × ∞ is invalid even so only where no input is
NaN (R254). -/
def fFma (t : ElemType) (m : Rnd) (a b c : Nat) : Nat × Nat :=
  let x := unpack t a
  let y := unpack t b
  let z := unpack t c
  match nanIn [x, y, z] with
  | some r => roundVF t m false 0 r
  | none =>
    let p := mulV x y
    match p.1 with
    | .nan _ => roundVF t m false 0 p
    | v => roundVF t m false 0 (addV m v z)

/-- a < b for values without NaN; −0 and +0 are equal. -/
def ltV (a b : Val) : Bool :=
  match a, b with
  | .nan _, _ | _, .nan _ => false
  | .inf s, .inf t => s && !t
  | .inf s, .fin .. => s
  | .fin .., .inf t => !t
  | .fin s n d, .fin t m e =>
    let x : Int := if s then -((n * e : Nat) : Int) else (n * e : Nat)
    let y : Int := if t then -((m * d : Nat) : Int) else (m * d : Nat)
    decide (x < y)

/-- a = b for values without NaN. -/
def eqV (a b : Val) : Bool :=
  match a, b with
  | .nan _, _ | _, .nan _ => false
  | _, _ => !(ltV a b) && !(ltV b a)

def isNanV : Val → Bool
  | .nan _ => true
  | _ => false

def isSigV (v : Val) : Bool := v == .nan true

/-- A negative sign, for the order of −0 below +0. -/
def signV : Val → Bool
  | .inf s => s
  | .fin s _ _ => s
  | .nan _ => false

/-- Minimum or maximum (R255): result and flags. -/
def fMinMax (t : ElemType) (max_ : Bool) (a b : Nat) : Nat × Nat :=
  let x := unpack t a
  let y := unpack t b
  let fl := if isSigV x || isSigV y then flInvalid else 0
  if isNanV x && isNanV y then (fmtNan t, fl)
  else if isNanV x then (b, fl)
  else if isNanV y then (a, fl)
  else
    let less := ltV x y || (eqV x y && signV x && !(signV y))
    (if less == max_ then b else a, fl)

/-- A comparison (R255): the outcome and flags. -/
def fCompare (t : ElemType) (c : FCond) (a b : Nat) : Bool × Nat :=
  let x := unpack t a
  let y := unpack t b
  let nan := isNanV x || isNanV y
  let sig := isSigV x || isSigV y
  match c with
  | .eq => (eqV x y, if sig then flInvalid else 0)
  | .un => (nan, if sig then flInvalid else 0)
  | .lt => (ltV x y, if nan then flInvalid else 0)
  | .le => (!nan && !(ltV y x), if nan then flInvalid else 0)

/-- The class of a value (R255). -/
def fClassify (t : ElemType) (a : Nat) : Nat :=
  let v := unpack t a
  let sub := decide (a / 2 ^ (fmtBits t).2 % 2 ^ (fmtBits t).1 = 0)
  match v with
  | .nan s => if s then 2 ^ 8 else 2 ^ 9
  | .inf s => if s then 1 else 2 ^ 7
  | .fin s n _ =>
    if n = 0 then (if s then 2 ^ 3 else 2 ^ 4)
    else if sub then (if s then 2 ^ 2 else 2 ^ 5)
    else (if s then 2 ^ 1 else 2 ^ 6)

/-- Rounds to an integral value of the same format (R255). -/
def fRound (t : ElemType) (m : Rnd) (a : Nat) : Nat × Nat :=
  match unpack t a with
  | .nan s => (fmtNan t, if s then flInvalid else 0)
  | .inf _ => (a, 0)
  | .fin s n d =>
    let i := roundInt m 0 s n d
    ((roundTo t .rne false 0 s i 1).1, 0)

end Sys2Proof.Machine
end

