-- ==== Sys2Proof/Machine/Regs.lean ====
section
/-! DEFINITION. The registers of a context (R52 to R56), the image lines and the register cache (R57 to R61), and the
continuation record (R78). -/

namespace Sys2Proof.Machine

/-! ## Registers (R52, R53, R55) -/

/-- The value of an x register; x0 reads as zero (R52). -/
def Context.getX (c : Context) (r : Nat) : BitVec 64 := if r = 0 then 0 else KMap.lookD c.x r 0

/-- The value of a v register. -/
def Context.getV (c : Context) (r : Nat) : BitVec 1024 := KMap.lookD c.v r 0

/-- The value of a p register; p0 reads as 1 (R52). -/
def Context.getP (c : Context) (r : Nat) : Bool := r == 0 || c.p.getLsbD r

/-- A bit of a word of bits set or cleared. -/
def setBit {w : Nat} (b : BitVec w) (i : Nat) (on : Bool) : BitVec w :=
  if on then b ||| BitVec.ofNat w (2 ^ i) else b &&& ~~~(BitVec.ofNat w (2 ^ i))

/-- Register full? x0 and p0 are always full. -/
def Context.isFull (c : Context) : AnyReg → Bool
  | .x r => r.val == 0 || c.xFull.getLsbD r.val
  | .v r => c.vFull.getLsbD r.val
  | .p r => r.val == 0 || c.pFull.getLsbD r.val

/-- Register pending (R55)? -/
def Context.isPend (c : Context) : AnyReg → Bool
  | .x r => c.xPend.getLsbD r.val
  | .v r => c.vPend.getLsbD r.val
  | .p r => c.pPend.getLsbD r.val

/-- Register poisoned (R54)? -/
def Context.isPois (c : Context) : AnyReg → Bool
  | .x r => c.xPois.getLsbD r.val
  | .v r => c.vPois.getLsbD r.val
  | .p _ => false

/-- Some register of the context is pending; then the continuation is bound (R60). -/
def Context.anyPend (c : Context) : Bool := c.xPend != 0 || c.vPend != 0 || c.pPend != 0

/-- Writes an x register: full, not poisoned, not pending; x0 discards the write (R36, R52, R56). -/
def Context.setX (c : Context) (r : Fin 64) (a : BitVec 64) : Context :=
  if r.val = 0 then { c with xPend := setBit c.xPend 0 false }
  else { c with x := KMap.putD c.x r.val 0 a, xFull := setBit c.xFull r.val true,
                xPois := setBit c.xPois r.val false, xPend := setBit c.xPend r.val false }

/-- Writes a v register. -/
def Context.setV (c : Context) (r : Fin 32) (a : BitVec 1024) : Context :=
  { c with v := KMap.putD c.v r.val 0 a, vFull := setBit c.vFull r.val true,
           vPois := setBit c.vPois r.val false, vPend := setBit c.vPend r.val false }

/-- Writes a p register; p0 discards the write (R52). -/
def Context.setP (c : Context) (r : Fin 8) (b : Bool) : Context :=
  if r.val = 0 then { c with pPend := setBit c.pPend 0 false }
  else { c with p := setBit c.p r.val b, pFull := setBit c.pFull r.val true, pPend := setBit c.pPend r.val false }

/-- Writes any register from the low bits of a value. -/
def Context.setAny (c : Context) (r : AnyReg) (a : BitVec 1024) : Context :=
  match r with
  | .x r => c.setX r (a.truncate 64)
  | .v r => c.setV r a
  | .p r => c.setP r (a.getLsbD 0)

/-- A poisoned fill: full, value zero, poison bit set (R56). x0 and p registers take no poison. -/
def Context.setPois (c : Context) (r : AnyReg) : Context :=
  match r with
  | .x r => let c' := c.setX r 0
            if r.val = 0 then c' else { c' with xPois := setBit c'.xPois r.val true }
  | .v r => let c' := c.setV r 0
            { c' with vPois := setBit c'.vPois r.val true }
  | .p r => c.setP r false

/-- A long producer marks its destination empty and pending (R55). x0 stays full (R36), but its fill is awaited. -/
def Context.pend (c : Context) (r : AnyReg) : Context :=
  match r with
  | .x r => { c with xFull := if r.val = 0 then c.xFull else setBit c.xFull r.val false,
                     xPend := setBit c.xPend r.val true }
  | .v r => { c with vFull := setBit c.vFull r.val false, vPend := setBit c.vPend r.val true }
  | .p r => { c with pFull := if r.val = 0 then c.pFull else setBit c.pFull r.val false,
                     pPend := setBit c.pPend r.val true }

/-- The register is no longer pending and keeps its state otherwise: its fill has been dropped (R125, R403). -/
def Context.unpend (c : Context) (r : AnyReg) : Context :=
  match r with
  | .x r => { c with xPend := setBit c.xPend r.val false }
  | .v r => { c with vPend := setBit c.vPend r.val false }
  | .p r => { c with pPend := setBit c.pPend r.val false }

/-- The full-empty state of a register set to what it was; x0 and p0 stay full. -/
def Context.markFull (c : Context) (r : AnyReg) (full : Bool) : Context :=
  match r with
  | .x r => if r.val = 0 then c else { c with xFull := setBit c.xFull r.val full }
  | .v r => { c with vFull := setBit c.vFull r.val full }
  | .p r => if r.val = 0 then c else { c with pFull := setBit c.pFull r.val full }

/-! ## Image lines (R57, R58) -/

/-- Image lines that hold a register (R57). -/
def regLines : AnyReg → List Nat
  | .x r => [r.val / 8]
  | .v r => [8 + 2 * r.val, 9 + 2 * r.val]
  | .p _ => [72]

/-- Codes of the register files (R35). -/
def anyCode : AnyReg → Nat × Nat
  | .x r => (0, r.val)
  | .v r => (1, r.val)
  | .p r => (2, r.val)

/-- The control line (R58). -/
def Context.control (c : Context) : BitVec 512 :=
  let w := c.xFull.toNat % 2 ^ 64 + c.vFull.toNat * 2 ^ 64 + c.p.toNat * 2 ^ 96 + c.pFull.toNat * 2 ^ 104
    + bit c.srmode * 2 ^ 112 + c.xPois.toNat * 2 ^ 128 + c.vPois.toNat * 2 ^ 192 + c.bwto.toNat * 2 ^ 224
  let h := c.flags.toNat + c.nanfmt.toNat * 2 ^ 16 + c.rlim.toNat * 2 ^ 32 + c.cause.toNat * 2 ^ 48
    + c.causeOp.toNat * 2 ^ 56 + c.nanpos.toNat * 2 ^ 64 + c.trapPc.toNat * 2 ^ 128 + c.trapAddr.toNat * 2 ^ 192
  BitVec.ofNat 512 (w + h * 2 ^ 256)

/-- The resident control line differs from what the image holds, or has never been written there (R59, R95). -/
def Context.ctlDirty (c : Context) : Bool := c.virgin.getLsbD 72 || c.control != c.kept

/-- The control line of an image has a nonzero res0 bit: the resume faults with poison (R58). -/
def badControl (n : Nat) : Bool := bits n 127 113 != 0

/-- The control fields taken from an image; bit 0 of x_full, p_full and p_val reads 1, bit 0 of x_poison 0 (R58), and the
reserved bits of ar.flags, ar.nanfmt and ar.nanpos read zero (R10, R64). -/
def Context.ofControl (c : Context) (n : Nat) : Context :=
  { c with
    xFull := BitVec.ofNat 64 n ||| 1, vFull := BitVec.ofNat 32 (n / 2 ^ 64), p := BitVec.ofNat 8 (n / 2 ^ 96) ||| 1,
    pFull := BitVec.ofNat 8 (n / 2 ^ 104) ||| 1, srmode := bits n 112 112 == 1,
    xPois := BitVec.ofNat 64 (n / 2 ^ 128) &&& ~~~1, vPois := BitVec.ofNat 32 (n / 2 ^ 192),
    bwto := BitVec.ofNat 32 (n / 2 ^ 224), flags := BitVec.ofNat 16 (n / 2 ^ 256) &&& 0x1FF,
    nanfmt := BitVec.ofNat 16 (n / 2 ^ 272) &&& 0x8FFF, rlim := BitVec.ofNat 16 (n / 2 ^ 288),
    cause := BitVec.ofNat 8 (n / 2 ^ 304), causeOp := BitVec.ofNat 8 (n / 2 ^ 312),
    nanpos := BitVec.ofNat 64 (n / 2 ^ 320) &&& 0xFFFFFFFFFFFF, trapPc := BitVec.ofNat 64 (n / 2 ^ 384),
    trapAddr := BitVec.ofNat 64 (n / 2 ^ 448) }

/-- The control line as an image holds it comes into the context. -/
def Context.takeControl (c : Context) (n : Nat) : Context := { c.ofControl n with kept := (c.ofControl n).control }

/-- The 64 bytes of an image line (R57, R58). -/
def Context.lineBytes (c : Context) (n : Nat) : List Byte :=
  if n < 8 then (List.range 8).flatMap fun i => leBytes 8 (c.getX (8 * n + i)).toNat
  else if n < 72 then leBytes 64 ((c.getV ((n - 8) / 2)).toNat / 2 ^ (512 * ((n - 8) % 2)))
  else leBytes 64 c.control.toNat

/-- Takes the values of a line of registers from 64 bytes. -/
def Context.ofLine (c : Context) (n : Nat) (bs : List Byte) : Context :=
  if n < 8 then
    { c with x := (List.range 8).foldl (fun m i =>
        if 8 * n + i = 0 then m else KMap.putD m (8 * n + i) 0 (BitVec.ofNat 64 (leNat ((bs.drop (8 * i)).take 8)))) c.x }
  else if n < 72 then
    let r := (n - 8) / 2
    let old := (c.getV r).toNat
    let h := leNat bs
    let new := if (n - 8) % 2 = 0 then old / 2 ^ 512 * 2 ^ 512 + h else old % 2 ^ 512 + h * 2 ^ 512
    { c with v := KMap.putD c.v r 0 (BitVec.ofNat 1024 new) }
  else c.takeControl (leNat bs)

/-- The registers of a line take value zero and poison (R62, R421). -/
def Context.poisonRegs (c : Context) (n : Nat) : Context :=
  if n < 8 then
    { c with x := (List.range 8).foldl (fun m i => KMap.del m (8 * n + i)) c.x,
             xPois := (List.range 8).foldl (fun b i => if 8 * n + i = 0 then b else setBit b (8 * n + i) true) c.xPois }
  else if n < 72 then
    let r := (n - 8) / 2
    { c with v := KMap.del c.v r, vPois := setBit c.vPois r true }
  else c

/-! ## The image in memory (R57, R59, R61) -/

/-- Alignment that the part needs of an image: 64 (R57), but the image half of an arena slot lies as the arena does, which the
launches of R194 do not align (log 36). -/
def Context.imageAlign (c : Context) : Nat := if c.image = c.record + 64 then 8 else 64

/-- Translates a line of the image for a read or a write by the part. -/
def State.imageLine (s : State) (c : Context) (n : Nat) (need : Need) : Except (Nat × Nat) (List (Nat × Nat)) :=
  let va := c.image + 64 * n
  match s.resolveGlobal c.world c.space false va 64 c.imageAlign need with
  | .error e => .error e
  | .ok a =>
    let s := a.parts.foldl (fun (s : State) p => s.checkRead c.world p.1 p.2) s
    if s.anyPoison a.parts then .error (causePoison, va) else .ok a.parts

/-- A context with the value of one line as its image holds it; a line never written back reads as at creation, and the
context that holds it has that value. A control line with a nonzero res0 bit is refused with poison (R58). -/
def State.withLine (s : State) (c : Context) (n : Nat) : Except (Nat × Nat) Context :=
  if KMap.has c.lines n || c.virgin.getLsbD n || c.record == 0 then .ok c
  else match s.imageLine c n .rd with
    | .ok ps =>
      let bs := s.readOver c.world ps
      if n == 72 && badControl (leNat bs) then .error (causePoison, c.image + 64 * n) else .ok (c.ofLine n bs)
    | .error e => .error e

/-- A failure met at an image line: the context faults with the first of them at its next instruction boundary, or when it
is resumed (R59, R421). -/
def Context.lineFailed (c : Context) (n cause : Nat) : Context :=
  match c.pendFault with
  | some _ => c
  | none => { c with pendFault := some (BitVec.ofNat 8 cause, BitVec.ofNat 64 (c.image + 64 * n)) }

/-- The control line of a context in a slot, which cannot be without it, is fetched again from its image; a failure faults
the context at its next instruction boundary (R59, R62). -/
def State.refetchControl (s : State) (c : Context) : Context :=
  match s.withLine { c with lines := KMap.del c.lines 72 } 72 with
  | .ok y => { y with lines := c.lines }
  | .error e => c.lineFailed 72 e.1

/-- Writes one line of a context back to its image (R61, R421). -/
def State.writeBack (s : State) (c : Context) (n : Nat) : Except (Nat × Nat) State :=
  match s.imageLine c n .wr with
  | .error e => .error e
  | .ok ps => .ok (s.writeOver c.world ps (c.lineBytes n))

/-- A resident line of a context is dirty (R59). -/
def Context.lineDirty (c : Context) (n : Nat) : Bool :=
  if n = 72 then c.ctlDirty
  else match KMap.look c.lines n with
    | some l => l.dirty
    | none => false

/-- The resident lines of a context that are dirty (R61). -/
def Context.dirtyLines (c : Context) : List Nat := (c.lines.map (·.1)).filter fun n => c.lineDirty n

/-- The line is clean and its image holds it. -/
def Context.cleanLine (c : Context) (n : Nat) : Context :=
  let c := { c with lines := KMap.modify c.lines n fun l => { l with dirty := false }, virgin := setBit c.virgin n false }
  if n = 72 then { c with kept := c.control } else c

/-- Writes back lines one after another: the state, the context, and the lines that failed with their causes
(R421). -/
def State.writeBackAll (s : State) (c : Context) : List Nat → State × List (Nat × Nat × Nat)
  | [] => (s, [])
  | n :: ns =>
    match s.writeBack c n with
    | .ok s' => s'.writeBackAll c ns
    | .error e =>
      let r := s.writeBackAll c ns
      (r.1, (n, e.1, e.2) :: r.2)

/-- Lines that have been written back, `wrote` among them, are clean; every line is evictable, and those whose write-back
failed are gone (R60, R61, R421). -/
def Context.releaseLines (c : Context) (wrote failed : List Nat) : Context :=
  let c := (wrote.filter fun n => !(failed.contains n)).foldl (fun (c : Context) n => c.cleanLine n) c
  { c with lines := KMap.mapVals (KMap.select c.lines fun n _ => !(failed.contains n)) fun _ l => { l with evict := true } }

/-- Marks lines that an instruction writes dirty, and touches them (R59). -/
def Context.touch (c : Context) (now : Nat) (dirty : Bool) (ns : List Nat) : Context :=
  { c with lines := ns.foldl (fun m n => KMap.modify m n fun l =>
      { dirty := l.dirty || dirty, evict := false, use := now }) c.lines }

/-! ## The continuation record (R78) -/

/-- Codes of the states. -/
def cxCode : CxState → Nat
  | .ready => 0 | .running => 1 | .suspended => 2 | .faulted => 3 | .retired => 4

/-- Codes of the origins. -/
def originCode : Origin → Nat
  | .item => 0 | .spawn => 1 | .converted => 2 | .restart => 3

/-- Code of the direction of `BWWAIT` and of the scope of `NBARR` (R47) as R78 stores them. -/
def waitFields : WaitFor → Nat × Nat
  | .none => (0, 0)
  | .reg r => (1, (anyCode r).1 * 256 + (anyCode r).2)
  | .word a => (2, a.toNat)
  | .changed a => (3, a.toNat)
  | .phaser d n => (4, d * 1024 + n)
  | .wire d => (5, d.code)
  | .nb sc t => (6, sc.code * 256 + t.toNat)

/-- Continuation id: the record's address div 64; 0 in a pinned handler (R80). -/
def Context.cxid (c : Context) : Nat := c.record / 64

/-- The 64 bytes of the record (R78). The manual gives no value of qlink: the model writes the field `qlink`, which is 0
(DESIGN CHOICE, log 79). -/
def Context.recordBytes (c : Context) : List Byte :=
  let w := waitFields c.wait
  let lo := c.item.toNat + c.qlink.toNat * 2 ^ 64 + bit c.discarded * 2 ^ 183 + originCode c.origin * 2 ^ 184
    + cxCode c.state * 2 ^ 186 + c.pri % 8 * 2 ^ 189 + w.1 * 2 ^ 192 + bit c.anyPend * 2 ^ 196 + c.die.val * 2 ^ 197
    + c.core.val * 2 ^ 200 + c.region % 2 ^ 32 * 2 ^ 208 + c.world % 2 ^ 16 * 2 ^ 240
  let hi := c.space % 2 ^ 16 + c.cxid % 2 ^ 48 * 2 ^ 16 + w.2 % 2 ^ 64 * 2 ^ 64 + c.image % 2 ^ 64 * 2 ^ 128
    + c.pc.toNat * 2 ^ 192
  leBytes 64 (lo + hi * 2 ^ 256)

/-- Translates the record's line. -/
def State.recordLine (s : State) (c : Context) : Except (Nat × Nat) (List (Nat × Nat)) :=
  match s.resolveGlobal c.world c.space false c.record 64 8 .rw with
  | .error e => .error (e.1, c.record)
  | .ok a => if s.anyPoison a.parts then .error (causePoison, c.record) else .ok a.parts

/-- Writes the record of a free continuation at a change of state; the fault that the change met, if any (R104). -/
def State.writeRecord (s : State) (uid : Nat) : State × Option (Nat × Nat) :=
  match s.ctx? uid with
  | none => (s, none)
  | some c =>
    if c.record = 0 then (s, none)
    else match s.recordLine c with
      | .error e => (s, some e)
      | .ok ps => (s.writeOver c.world ps c.recordBytes, none)

/-! ## Program counters (R32, R33) -/

/-- The sequential successor of a PC (R32). -/
def succPc (p : BitVec 64) : BitVec 64 :=
  if p.toNat % 8 < 4 then p + 1 else BitVec.ofNat 64 (p.toNat / 64 * 64 + 64)

/-- A PC that control may not arrive at (R32). -/
def badPc (p : BitVec 64) : Bool := decide (5 ≤ p.toNat % 8) || decide (p.toNat / 8 % 8 ≠ 0)

/-- Slot-linear number of a PC (R33). -/
def linPc (p : BitVec 64) : Nat := p.toNat / 64 * 5 + p.toNat % 8

/-- Target of a relative branch (R33); the sum wraps modulo 5 × 2^58. -/
def relTarget (p : BitVec 64) (d : BitVec 22) : BitVec 64 :=
  let t := (((linPc p : Int) + d.toInt) % (5 * 2 ^ 58 : Int)).toNat
  BitVec.ofNat 64 (t / 5 * 64 + t % 5)

end Sys2Proof.Machine
end

