-- ==== Sys2Proof/Machine/Flags.lean ====
section
/-! DEFINITION. The flags of a context (R64, R65), the capture of the first NaN (R250), and the decoding and encoding
of local memory through a window (R161 to R163). -/

namespace Sys2Proof.Machine

/-! ## ar.flags and the capture -/

/-- A capture is armed while ar.nanfmt[15] is 0 (R64). -/
def Context.armed (c : Context) : Bool := !(c.nanfmt.getLsbD 15)

/-- The operation is captured: the capture is armed, or the operation issued before the one captured in this cycle
(R250). -/
def Context.captures (c : Context) (k : NanCap) : Bool :=
  c.armed || (match c.nanSeq with
    | some q => decide (k.seq < q)
    | none => false)

/-- Flags and a first NaN come to a context (R65, R250). -/
def Context.addFlags (c : Context) (fl : BitVec 16) (nan : Option NanCap) : Context :=
  let c := { c with flags := c.flags ||| fl }
  match nan with
  | some k =>
    if c.captures k && fl.getLsbD 5 then
      { c with nanpos := k.pos, nanfmt := k.fmt ||| 0x8000, nanSeq := some k.seq }
    else c
  | none => c

/-- `SWRITE ar.flags` (R65). -/
def Context.writeFlags (c : Context) (v : BitVec 64) : Context :=
  let c := { c with flags := v.truncate 16 &&& 0x1FF }
  if v.getLsbD 5 then c else { c with nanpos := 0, nanfmt := 0, nanSeq := none }

/-- The formats of a capture: destination, first and second source (R250). -/
def nanFmt (d a b : ElemType) : BitVec 16 := BitVec.ofNat 16 (d.code * 256 + a.code * 16 + b.code)

/-- The capture of a scalar instruction: position 0 (R250). -/
def scalarNan (d a b : ElemType) : Option NanCap := some { pos := 0, fmt := nanFmt d a b }

/-- Flags from a number. -/
def flagBits (n : Nat) : BitVec 16 := BitVec.ofNat 16 n

/-! ## Decoding windows (R161 to R163) -/

/-- Exact value of a floating value times 2^e. -/
def scaleV (v : Val) (e : Int) : Val :=
  match v with
  | .fin s n d => let p := scale2 n d e
                  .fin s p.1 p.2
  | v => v

/-- Decodes one raw element of a window: the decoded bytes and flags. -/
def decodeElem (win scale : Nat) (a : Nat) : List Byte × Nat :=
  if win = 1 ∨ win = 2 then
    let r := convert (if win = 1 then .bf16 else .f16) .f32 .rne false 0 a
    (leBytes 4 r.1, r.2)
  else if win = 3 ∨ win = 4 then
    let v := unpack (if win = 3 then .e4m3 else .e5m2) a
    if scale = 255 ∨ isNanV v then (leBytes 4 0x7FC00000, 0)
    else
      let r := roundVF .f32 .rne false 0 (scaleV v ((scale : Int) - 127), 0)
      (leBytes 4 r.1, r.2)
  else if win = 5 then (leBytes 1 (lowBits 8 (intOf .t2 a)), tritFlag .t2 a)
  else (leBytes 4 (lowBits 32 (intOf .i8 a)), 0)

/-- Raw elements of a window from raw bytes. -/
def rawElems (win : Nat) (raw : List Byte) : List Nat :=
  if win = 1 ∨ win = 2 then (List.range (raw.length / 2)).map fun i => leNat ((raw.drop (2 * i)).take 2)
  else if win = 5 then raw.flatMap fun b => (List.range 4).map fun k => b.toNat / 4 ^ k % 4
  else raw.map (·.toNat)

/-- Decodes a raw footprint through a window (R161, R163): decoded bytes and flags. -/
def decodeRaw (win scale : Nat) (raw : List Byte) : List Byte × Nat :=
  if win = 0 then (raw, 0)
  else
    let es := (rawElems win raw).map (decodeElem win scale)
    (es.flatMap (·.1), es.foldl (fun f p => f ||| p.2) 0)

/-- Rounding mode of a window's rounding code (R163). -/
def winRnd (rnd : Nat) : Rnd :=
  match rnd with
  | 0 => .rne | 1 => .rtz | 2 => .rup | 3 => .rdn | _ => .sr

/-- Encodes one decoded element for a window: the raw element and flags; `s` is the stepped Stipple state. -/
def encodeElem (win : Nat) (m : Rnd) (scale : Nat) (s : BitVec 64) (j a : Nat) : Nat × Nat :=
  let r := stippleLane s j
  if win = 1 then convert .f32 .bf16 m true r a
  else if win = 2 then convert .f32 .f16 m true r a
  else if win = 3 ∨ win = 4 then
    let t : ElemType := if win = 3 then .e4m3 else .e5m2
    if scale = 255 then (0x7F, 0)
    else
      let v := unpack .f32 a
      roundVF t m true r (scaleV v (127 - (scale : Int)), if isSigV v then flInvalid else 0)
  else if win = 5 then
    let i := intOf .i8 a
    (if 1 ≤ i then 1 else if i ≤ -1 then 3 else 0, if 1 < i.natAbs then flOverflow else 0)
  else
    let i := intOf .i32 a
    (intToInt .i8 true i)

/-- Decoded elements of a window from decoded bytes. -/
def decodedElems (win : Nat) (bs : List Byte) : List Nat :=
  if win = 5 then bs.map (·.toNat)
  else (List.range (bs.length / 4)).map fun i => leNat ((bs.drop (4 * i)).take 4)

/-- Packs raw elements into bytes. -/
def packRaw (win : Nat) (es : List Nat) : List Byte :=
  if win = 1 ∨ win = 2 then es.flatMap fun e => leBytes 2 e
  else if win = 5 then
    (List.range (es.length / 4)).map fun i =>
      BitVec.ofNat 8 (((es.drop (4 * i)).take 4).foldr (fun e n => n * 4 + e % 4) 0)
  else es.map fun e => BitVec.ofNat 8 e

/-- Encodes decoded bytes through a window (R161, R163): raw bytes and flags. -/
def encodeRaw (win : Nat) (m : Rnd) (scale : Nat) (s : BitVec 64) (bs : List Byte) : List Byte × Nat :=
  if win = 0 then (bs, 0)
  else
    let es := (decodedElems win bs).zipIdx.map fun p => encodeElem win m scale s p.2 p.1
    (packRaw win (es.map (·.1)), es.foldl (fun f p => f ||| p.2) 0)

/-- A store through the window uses the Stipple generator. -/
def winUsesSr (win rnd : Nat) : Bool := decide (1 ≤ win) && decide (win ≤ 4) && rnd == 4

/-- Address of the E8M0 scale of the block that holds a raw address of local memory (R162). -/
def scaleAddr (a : Nat) : Nat := a / 4096 * 4096 + 3968 + a % 4096 / 32

end Sys2Proof.Machine
end

