-- ==== Sys2Proof/Machine/Work.lean ====
section
/-! DEFINITION. Regions, launches and the continuation arena: RCB fields and limits (R102 to R105, R422), arena slots
(R104), the cores of a launch (R110), handler tables (R82), the ready queue (R113), priorities (R118), charges
(R106). -/

namespace Sys2Proof.Machine

/-! ## Fields of records in memory -/

/-- Bits [hi:lo] of a record at a physical address, as a world sees it. -/
def State.field (s : State) (w a hi lo : Nat) : Nat :=
  let b := lo / 8
  bits (s.readNat w (a + b) (hi / 8 + 1 - b)) (hi - 8 * b) (lo - 8 * b)

/-- Writes bits [hi:lo] of a record at a physical address. -/
def State.setField (s : State) (w a hi lo v : Nat) : State :=
  let b := lo / 8
  let n := hi / 8 + 1 - b
  let old := s.readNat w (a + b) n
  let l := lo - 8 * b
  let k := hi + 1 - lo
  s.write w (a + b) (leBytes n (old % 2 ^ l + v % 2 ^ k * 2 ^ l + old / 2 ^ (l + k) * 2 ^ (l + k)))

/-- Writes a word as `ST.fill` writes, at a physical address: stores it, sets the word full and clears its
poison. -/
def State.fillWord (s : State) (w a : Nat) (v : BitVec 64) : State :=
  ((s.write w a (leBytes 8 v.toNat)).setFull a true).setPoison a false

/-! ## Regions (R102 to R105, R422) -/

/-- A live region. -/
def State.region? (s : State) (r : Nat) : Option Region := KMap.look s.regions r

/-- A live launch. -/
def State.launch? (s : State) (l : Nat) : Option Launch := KMap.look s.launches l

/-- The launch of a context, a command or a table, which may have ended while they remain (R5, R82). -/
def State.factsOf (s : State) (l : Nat) : Option Launch := (s.launch? l).orElse fun _ => KMap.look s.past l

/-- Changes such a launch. -/
def State.modFacts (s : State) (l : Nat) (f : Launch → Launch) : State :=
  if (s.launch? l).isSome then { s with launches := KMap.modify s.launches l f } else { s with past := KMap.modify s.past l f }

/-- Ended launches of which no context and no table is left are forgotten. -/
def State.prunePast (s : State) : State :=
  { s with past := KMap.select s.past fun l _ =>
      s.ctxs.any (fun p => p.2.lid == l) || s.cores.any fun k => k.2.tables.any fun t => t.lid == l }

/-- RCB on a chain that owns field `k` of R103: the nearest that overrides it. -/
def chainOwner (chain : List (Nat × BitVec 13)) (k : Nat) : Nat :=
  match chain.find? fun p => p.2.getLsbD k with
  | some p => p.1
  | none => 0

/-- The root RCB of a chain. -/
def chainRoot (chain : List (Nat × BitVec 13)) : Nat :=
  match chain.getLast? with
  | some p => p.1
  | none => 0

/-- The account of a region (R105). -/
def Region.account (r : Region) : Nat := chainOwner r.chain 3

/-- A field of the RCB that owns it, read when it is tested (R422). -/
def State.rcbField (s : State) (r : Nat) (k hi lo : Nat) : Nat :=
  match s.region? r with
  | some g => s.field (s.regionWorld r) (chainOwner g.chain k) hi lo
  | none => 0

/-- The RCB that owns field `k` of a region: what is held counts against its limit, even past the end of the region (R105). -/
def State.limOwner (s : State) (r k : Nat) : Nat :=
  match s.region? r with
  | some g => chainOwner g.chain k
  | none => 0

/-- Regions that share the RCB which owns field `k` of region `r` (R105). -/
def State.sharers (s : State) (r k : Nat) : List Nat :=
  match s.region? r with
  | some g => (s.regions.filter fun p => chainOwner p.2.chain k == chainOwner g.chain k).map (·.1)
  | none => []

/-- Live free continuations held against the limit of a region (R102, R105). -/
def State.liveCtx (s : State) (r : Nat) : Nat :=
  let rs := s.sharers r 7
  (s.ctxs.filter fun p => p.2.record != 0 && p.2.state != .retired && rs.contains p.2.region).length

/-- Monitor entries held against the limit of a region (R208). -/
def State.liveMon (s : State) (r : Nat) : Nat :=
  (s.dies.map fun d => (d.2.monitors.filter fun m => m.2.lim == s.limOwner r 6).length).sum

/-- Phasers held against the limit of a region. -/
def State.livePh (s : State) (r : Nat) : Nat :=
  (s.dies.map fun d => (d.2.phasers.filter fun m => m.2.lim == s.limOwner r 4).length).sum

/-- Tokens held against the limit of a posting region (R357). -/
def State.liveTok (s : State) (r : Nat) : Nat :=
  (s.dies.map fun d => (d.2.ni.tokens.filter fun t => match KMap.look d.2.ni.posts t.post with
    | some p => p.lim == s.limOwner r 5
    | none => false).length).sum

def State.limCtx (s : State) (r : Nat) : Nat := s.rcbField r 7 383 368
def State.limMon (s : State) (r : Nat) : Nat := s.rcbField r 6 367 352
def State.limTok (s : State) (r : Nat) : Nat := s.rcbField r 5 351 336
def State.limPh (s : State) (r : Nat) : Nat := s.rcbField r 4 335 320
def State.ywin (s : State) (r : Nat) : Nat := s.rcbField r 11 703 672

/-- Region and descendants: live regions whose chain passes through the RCB of `r` (R123). -/
def State.descendants (s : State) (r : Nat) : List Nat :=
  match s.region? r with
  | some g => (s.regions.filter fun p => p.2.chain.any fun q => q.1 == g.rcb).map (·.1)
  | none => []

/-! ## Partitions (R393, R394) -/

def partPage : Nat := 0x3000040000

/-- Reset value of a word of a partition entry (R394): the rate, the recall deadline and the states. -/
def partReset (p w : Nat) : Nat :=
  if w = 6 ∨ w = 7 then (if p = 0 then 2 ^ 64 - 1 else 0)
  else if w = 2 then 64 * 2 ^ 48 + 20000 * 2 ^ 16
  else 0

/-- A stored word of a partition entry: words 0 to 7; held and state are computed. -/
def State.partWord (s : State) (p w : Nat) : Nat :=
  (KMap.lookD s.pages (partPage + 64 * p + 8 * w) (BitVec.ofNat 64 (partReset p w))).toNat

/-- Home slices of a partition, as a 128-bit mask. -/
def State.partHome (s : State) (p : Nat) : Nat := s.partWord p 6 + s.partWord p 7 * 2 ^ 64
def State.partRoot (s : State) (p : Nat) : Nat := s.partWord p 3
def State.partRate (s : State) (p : Nat) : Nat := bits (s.partWord p 2) 63 48
def State.partRecall (s : State) (p : Nat) : Nat := bits (s.partWord p 2) 47 16

/-- A partition other than 0 is unused while its root is 0 and no RESET of it runs (R394). -/
def State.partUnused (s : State) (p : Nat) : Bool :=
  p != 0 && s.partRoot p == 0 && !(KMap.has s.resetting p)

/-- The partition that owns a root RCB (R393). -/
def State.partOfRoot (s : State) (rcb : Nat) : Nat :=
  match ((List.range 16).drop 1).find? fun p => s.partRoot p == rcb && s.partRoot p != 0 with
  | some p => p
  | none => 0

/-- The partition holds the slice (R393). -/
def State.partHolds (s : State) (p slice : Nat) : Bool :=
  (bits (s.partHome p) slice slice == 1 && !(s.lends.any fun l => l.slice == slice && l.borrower != p))
    || s.lends.any fun l => l.slice == slice && l.borrower == p

/-- The partition of a region. -/
def State.partOfRegion (s : State) (r : Nat) : Nat :=
  match s.region? r with
  | some g => s.partOfRoot (chainRoot g.chain)
  | none => 0

/-- Region `r` holds the slice. -/
def State.regionHolds (s : State) (r slice : Nat) : Bool := s.partHolds (s.partOfRegion r) slice

/-- The slice is under power cycle (R398). -/
def State.isCycling (s : State) (slice : Nat) : Bool := s.cycling.any fun p => p.1 == slice

/-- No message of a region reaches a core there: the slice is under power cycle, or has been taken back from the region's
partition (R401). -/
def State.unreachable (s : State) (slice r : Nat) : Bool :=
  s.isCycling slice || s.taken.any fun p => p.1 == slice && p.2 == s.partOfRegion r

/-- The loan of a slice, when it is lent. -/
def State.lendOf (s : State) (slice : Nat) : Option Lend := s.lends.find? fun l => l.slice == slice

/-! ## Charges (R106, R107) -/

/-- Nothing owed. -/
def noCharge : Charge := { cc := 0, bytes := 0, carry := 0 }

/-- Key of what an account owes for a core. -/
def chargeKey (account core : Nat) : Nat := account * 2048 + core % 2048

/-- Adds slot-cycles and engine bytes to what the account of a region owes for a core, by its key; units of a die charge
as its core 0. -/
def State.charge (s : State) (r core : Nat) (cc bytes : Nat) : State :=
  match s.region? r with
  | none => s
  | some g =>
    let k := chargeKey g.account core
    let old := KMap.lookD s.charges k noCharge
    { s with charges := KMap.putD s.charges k noCharge ⟨old.cc + cc, old.bytes + bytes, old.carry⟩ }

/-- A live region that uses an account, and the bytes that make up a slot-cycle there. -/
def State.accountRate (s : State) (account : Nat) : Nat :=
  match s.regions.find? fun p => p.2.account == account with
  | some (_, g) => max 1 (s.partRate (s.partOfRoot (chainRoot g.chain)))
  | none => 1

/-- Applies what an account owes for one core: one atomic step at the home of its budget word (R106); at 0 or below the
account becomes exhausted (R107). -/
def State.applyKey (s : State) (key : Nat) : State :=
  let account := key / 2048
  match KMap.look s.charges key, s.regions.find? fun p => p.2.account == account with
  | some ch, some (r, g) =>
    let w := s.regionWorld r
    let rate := max 1 (s.partRate (s.partOfRoot (chainRoot g.chain)))
    let conv := (ch.bytes + ch.carry) / rate
    let budget := sbits (s.field w account 191 128) 63 0 - (ch.cc + conv)
    let s := s.setField w account 191 128 (wrap64 budget)
    let s := s.setField w account 255 192 (s.field w account 255 192 + ch.cc + conv)
    let s := s.setField w account 319 256 (s.field w account 319 256 + ch.bytes)
    let s := if budget ≤ 0 ∧ s.field w account 109 108 ≠ 3 ∧ s.field w account 109 108 ≠ 1 then s.setField w account 109 108 2 else s
    { s with charges := KMap.putD s.charges key noCharge ⟨0, 0, (ch.bytes + ch.carry) % rate⟩ }
  | _, _ => s

/-- Applies what an account owes for every core. -/
def State.applyCharge (s : State) (account : Nat) : State :=
  (s.charges.filter fun p => p.1 / 2048 == account).foldl (fun (s : State) p => s.applyKey p.1) s

/-- Slot-cycles, converted bytes among them, that are owed under a key. -/
def State.owed (s : State) (key : Nat) (ch : Charge) : Nat := ch.cc + (ch.bytes + ch.carry) / s.accountRate (key / 2048)

/-- A charge is applied at least every 1,024 slot-cycles per core and account (R106). -/
def State.applyDue (s : State) : State :=
  (s.charges.filter fun p => decide (1024 ≤ s.owed p.1 p.2)).foldl (fun (s : State) p => s.applyKey p.1) s

/-- Applies the charges of a region's account, as at a change of state of a continuation (R106). -/
def State.settle (s : State) (r : Nat) : State :=
  match s.region? r with
  | some g => s.applyCharge g.account
  | none => s

/-- The account of the region is exhausted (R107); an RCB that reads pre-empted is so where its budget has run out. -/
def State.exhausted (s : State) (r : Nat) : Bool :=
  match s.region? r with
  | some g =>
    let w := s.regionWorld r
    let v := s.field w g.account 109 108
    v == 2 || (v == 3 && decide (sbits (s.field w g.account 191 128) 63 0 ≤ 0))
  | none => false

/-- Tests the budget again, as at a placement opportunity (R107). -/
def State.retestBudget (s : State) (r : Nat) : State :=
  match s.region? r with
  | some g =>
    let w := s.regionWorld r
    if s.exhausted r && decide (0 < sbits (s.field w g.account 191 128) 63 0) then
      s.setField w g.account 109 108 0
    else s
  | none => s

/-! ## Pre-emption (R123, R125) -/

/-- The pre-emption of a region on a cluster. -/
def State.preOf (s : State) (d cl r : Nat) : Option Preempt :=
  (s.cluster d cl).pre.find? fun p => p.region == r

/-- The cluster is a lent slice under recall: the region, of its borrower, takes no more work there (R401). -/
def State.recalledFrom (s : State) (d cl r : Nat) : Bool :=
  match s.lendOf (clKey d cl) with
  | some l => l.recalled.isSome && l.borrower == s.partOfRegion r
  | none => false

/-- No continuation of the region is placed on the cluster: a pre-emption is in force there, or the recall that has ended
one. -/
def State.preempted (s : State) (d cl r : Nat) : Bool := (s.preOf d cl r).isSome || s.recalledFrom d cl r

/-- A context of the region may not issue there: pre-empted, or draining (R114, R125). -/
def State.stopped (s : State) (d cl r : Nat) : Bool :=
  match s.preOf d cl r with
  | some p => (match p.stage with
    | .window _ => false
    | _ => true)
  | none => s.recalledFrom d cl r

/-! ## The cores of a launch (R110) -/

/-- The launch's masks select the core. -/
def Launch.selects (l : Launch) (d c : Nat) : Bool :=
  l.dies.getLsbD d && l.clusters.getLsbD (clusterOf c) && l.cores.getLsbD (indexOf c)

/-- Selected clusters as keys, in order of die, then cluster. -/
def Launch.clusterList (l : Launch) : List Nat :=
  (List.range 128).filter fun k => l.dies.getLsbD (k / 16) && l.clusters.getLsbD (k % 16)

/-- Number of bits set below bit `n`. -/
def bitsBelow {w : Nat} (b : BitVec w) (n : Nat) : Nat := ((List.range n).filter fun i => b.getLsbD i).length

/-- Logical core of a core (R110). -/
def Launch.lcoreOf (l : Launch) (d c : Nat) : Option Nat :=
  if l.selects d c then
    let perCl := bitsBelow l.cores 16
    let perDie := bitsBelow l.clusters 16 * perCl
    some (bitsBelow l.dies d * perDie + bitsBelow l.clusters (clusterOf c) * perCl + bitsBelow l.cores (indexOf c))
  else none

/-- The core with a logical number: die and core. -/
def Launch.coreOf (l : Launch) (n : Nat) : Option (Nat × Nat) :=
  let perCl := bitsBelow l.cores 16
  if perCl = 0 then none
  else match l.clusterList[n / perCl]?, ((List.range 16).filter fun i => l.cores.getLsbD i)[n % perCl]? with
    | some k, some i => some (k / 16, coreAt (k % 16) i)
    | _, _ => none

/-- Number of cores that a launch selects. -/
def Launch.nCores (l : Launch) : Nat := bitsBelow l.cores 16 * l.clusterList.length

/-! ## Handler tables (R82) -/

/-- The table of a launch is resident on a core. -/
def State.hasTable (s : State) (d c lid : Nat) : Bool := (s.core d c).tables.any fun t => t.lid == lid

/-- The core holds the launch's table or has room for it. -/
def State.tableRoom (s : State) (d c lid : Nat) : Bool :=
  s.hasTable d c lid || decide ((s.core d c).tables.length < 4)

/-- Loads the launch's table, when it first places work on the core. -/
def State.loadTable (s : State) (d c lid : Nat) : State :=
  if s.hasTable d c lid then s
  else match s.launch? lid with
    | some l => s.modCore d c fun k => { k with tables := k.tables ++
        [{ lid := lid, world := l.world, space := l.space, region := l.region, compat := l.compat, order := l.order,
           image := l.htabAt, entries := l.htab }] }
    | none => s

/-- The table that a message of a launch and world selects on a core (R82): its launch's own, or the resident one of
the world that was accepted earliest. -/
def State.tableFor (s : State) (d c lid world : Nat) : Option HTable :=
  let ts := (s.core d c).tables.filter fun t => t.world == world
  match ts.find? fun t => t.lid == lid with
  | some t => some t
  | none => ts.foldl (fun (best : Option HTable) t => match best with
      | none => some t
      | some b => if t.order < b.order then some t else some b) none

/-- Changes an entry of a resident table. -/
def State.modEntry (s : State) (d c lid ch : Nat) (f : HEntry → HEntry) : State :=
  s.modCore d c fun k => { k with tables := k.tables.map fun t =>
    if t.lid = lid then { t with entries := t.entries.modify ch f } else t }

/-- An entry of a table. -/
def HTable.entry (t : HTable) (ch : Nat) : HEntry :=
  (t.entries[ch]?).getD { pc := 0, refused := 0, pri := 0, landing := false, mask := false, permitted := false }

/-! ## Priorities (R118) -/

/-- One round of lending: each waiting launch lends its region's priority to the regions of the live launches that it
waits for. -/
def State.lendRound (s : State) (pri : KMap Nat) : KMap Nat :=
  s.launches.foldl (fun m p =>
    if p.2.stage == .waiting then
      p.2.deps.foldl (fun m d => match s.launch? d with
        | some l =>
          let q := KMap.lookD m l.region 7
          let mine := KMap.lookD m p.2.region 7
          if mine < q then KMap.put m l.region mine else m
        | none => m) m
    else m) pri

/-- Lending along chains. -/
def State.lendRounds (s : State) : Nat → KMap Nat → KMap Nat
  | 0, m => m
  | n + 1, m => s.lendRounds n (s.lendRound m)

/-- Effective priority of a region (R118). -/
def State.effPri (s : State) (r : Nat) : Nat :=
  KMap.lookD (s.lendRounds s.launches.length (s.regions.map fun p => (p.1, p.2.pri))) r 7

/-! ## The ready queue (R113) -/

/-- A continuation enters the ready queue of a cluster. -/
def State.enqueue (s : State) (uid d cl : Nat) : State :=
  let t := s.modCtx uid fun c => { c with queued := some s.nextOrder, queueAt := clKey d cl }
  { t with nextOrder := s.nextOrder + 1 }

/-- A continuation enters the queue of the cluster of the core that last ran it; where its region no longer holds that
cluster it is held until it can be placed elsewhere (R128). -/
def State.requeue (s : State) (uid : Nat) : State :=
  match s.ctx? uid with
  | some c =>
    if s.regionHolds c.region (clKey c.die.val (clusterOf c.core.val)) then s.enqueue uid c.die.val (clusterOf c.core.val)
    else s.modCtx uid fun c => { c with held := true }
  | none => s

/-! ## Arena slots (R104) -/

/-- Bytes of an arena slot. -/
def arenaSlot : Nat := 4736

/-- The memory of a record of a space. -/
def State.recordAt (s : State) (sp a : Nat) : Option Nat := (s.translate sp a 64).map (·.phys)

/-- Slot `k` of the arena of a region, in the space `sp` in which the launch concerned runs, is in use: by a continuation
that has not retired, or by one that was discarded from the same memory, in whichever region and world, and whose discarded
bit software has not cleared (R104, R125, R126). Launches of one region may run in several spaces (R150); the arena address is then taken in each
launch's own (DESIGN CHOICE, log 101). -/
def State.slotUsed (s : State) (r sp : Nat) (g : Region) (k : Nat) : Bool :=
  let a := g.arena + arenaSlot * k
  let q := s.recordAt sp a
  (s.ctxs.any fun p => p.2.record != 0 && p.2.state != .retired &&
      ((p.2.space == sp && p.2.record == a) || (q.isSome && s.recordAt p.2.space p.2.record == q)))
    || (match q with
      | some x => s.spent.contains x && s.field (s.regionWorld r) x 183 183 == 1
      | none => false)

/-- The lowest free slot of the arena in a space, unless the region is at its limit of contexts (R104, R105). -/
def State.freeRecord (s : State) (r sp : Nat) : Option Nat :=
  match s.region? r with
  | none => none
  | some g =>
    if s.liveCtx r < s.limCtx r then (List.range g.arenaN).find? fun k => !(s.slotUsed r sp g k)
    else none

/-- Record and image address of an arena slot. -/
def Region.slotAt (g : Region) (k : Nat) : Nat × Nat := (g.arena + arenaSlot * k, g.arena + arenaSlot * k + 64)

/-! ## New contexts -/

/-- A context as it is created (R58): every register zero and full. -/
def Context.fresh (world space region lid : Nat) (item : BitVec 64) (d : DieNo) (c : CoreNo) (pc : BitVec 64)
    (srmode : Bool) : Context :=
  { kind := .free, world := world, space := space, region := region, lid := lid, item := item, die := d, core := c,
    slot := none, state := .ready, record := 0, image := 0, origin := .item, wait := .none, pri := 0, qlink := 0,
    discarded := false, pc := pc, x := [], v := [], p := 1, xFull := BitVec.allOnes 64, vFull := BitVec.allOnes 32,
    pFull := BitVec.allOnes 8, xPois := 0, vPois := 0, xPend := 0, vPend := 0, pPend := 0, flags := 0, nanpos := 0,
    nanfmt := 0, nanSeq := none, cause := 0, causeOp := 0, trapPc := 0, trapAddr := 0, bwto := 0, rlim := 16, srmode := srmode,
    lines := [], virgin := BitVec.allOnes 73, kept := 0, sbuf := [], failed := [], fills := [], acqs := [], serial := 0,
    refusals := none, retryAt := 0, block := none, codeEnd := false, pastEnd := false,
    why := none, stepped := none, pendFault := none, began := none,
    skip := false, stallTo := 0, held := false, queued := none, queueAt := 0, unstarted := false, tied := false,
    channel := 0, landing := none, task := none, vwGen := none }

/-- Adds a context under a new handle. -/
def State.addCtx (s : State) (c : Context) : State :=
  { s with ctxs := KMap.put s.ctxs s.nextUid c, nextUid := s.nextUid + 1 }

/-- Lines that a context holds in the register cache of its core. -/
def Context.nLines (c : Context) : Nat := c.lines.length

/-- Every line of the register cache of a core, by context. -/
def State.cacheUse (s : State) (d c : Nat) : Nat :=
  ((s.ctxs.filter fun p => p.2.die.val == d && p.2.core.val == c).map fun p => p.2.nLines).sum

end Sys2Proof.Machine
end

