-- ==== Sys2Proof/Machine/Pages.lean ====
section
/-! DEFINITION. The register pages (R136): launch page (R385), router pages (R343), partition page (R394, R395), pool
table (R387), debug page (R410), system page (R416) and granule owner tables (R160). -/

namespace Sys2Proof.Machine

def launchPage : Nat := 0x3000000000
def routerPage : Nat := 0x3000010000
def exportPage : Nat := 0x3000020000
def poolPage : Nat := 0x3000080000
def debugPage : Nat := 0x3000100000
def systemPage : Nat := 0x3000200000
def ownerPage : Nat := 0x3001000000

/-- The load window of recovery, 64 MiB that no register page occupies (R418). -/
def loadWindow : Nat := pageBase + 0xC0000000

/-- A stored word. -/
def State.pageWord (s : State) (a : Nat) : Nat := (KMap.lookD s.pages a 0).toNat

/-- Stores a word of a page; the reset value is not listed. -/
def State.setPageWord (s : State) (a reset v : Nat) : State :=
  { s with pages := if v % 2 ^ 64 = reset then KMap.del s.pages a else KMap.put s.pages a (BitVec.ofNat 64 v) }

/-- Job id of the package (R343). -/
def State.job (s : State) : Nat := s.pageWord routerPage % 65536

/-- Lane health limit (R343). -/
def State.hlim (s : State) : Nat := (KMap.lookD s.pages (routerPage + 0xA00) 4096).toNat

/-- Slices that a partition holds, as a mask (R393). -/
def State.partHeld (s : State) (p : Nat) : Nat :=
  ((List.range 128).map fun k => if s.partHolds p k then 2 ^ k else 0).sum

/-- State field of a partition entry (R394). -/
def State.partState (s : State) (p : Nat) : Nat :=
  if KMap.has s.resetting p then 1 else if s.partUnused p then 2 else 0

/-- Bits of a word of an export or pool entry that are not res0: the entry keeps a res0 bit that software set, and is then
not in force (R131, R344, R387), but reads it as zero (R10; DEDUCED, log 93). -/
def pageMask (a : Nat) : Nat :=
  let o := a % 65536
  let w := o / 8 % 8
  if a - o = exportPage then
    if w = 7 then 2 ^ 64 - 1 else if w = 6 then 2 ^ 31 - 1 else if w = 5 then 2 ^ 33 - 1 else if w = 4 then 31
    else if w = 0 then 2 ^ 32 - 1 else 0
  else if a - o = poolPage ∧ o < 0x400 ∧ w % 2 = 0 then 2 ^ 64 - 2 ^ 40 + (2 ^ 30 - 2 ^ 16) + 1
  else 2 ^ 64 - 1

/-- A word of a register page as it reads: address a multiple of 8. -/
def State.readPage (s : State) (a : Nat) : Nat :=
  let o := a % 65536
  let b := a - o
  if b = launchPage then (if o = 0x10 then 64 - s.bells.length else 0)
  else if b = routerPage then
    if 0x200 ≤ o ∧ o < 0x800 then KMap.lookD s.router.score ((o - 0x200) / 8) 0
    else if 0x800 ≤ o ∧ o < 0x980 then KMap.lookD s.router.lanes ((o - 0x800) / 8) 0
    else if o = 0xA00 then s.hlim
    else s.pageWord a
  else if b = partPage then
    if o < 0x400 then
      let p := o / 64
      let w := o / 8 % 8
      if w = 0 then s.partState p
      else if w = 4 then s.partHeld p % 2 ^ 64
      else if w = 5 then s.partHeld p / 2 ^ 64
      else if w = 1 then 0
      else s.partWord p w
    else if o = 0x400 then 0
    else s.pageWord a
  else if b = systemPage then
    if o = 0 then
      s.boot.phase.val + s.boot.cause.toNat * 16 + bit s.boot.verified * 256 + bit s.boot.alert * 512
    else if o = 0x10 then s.boot.result.toNat
    else if 0x20 ≤ o ∧ o ≤ 0x58 then (KMap.lookD s.temps ((o - 0x20) / 8) 0).toNat
    else if 0x60 ≤ o ∧ o ≤ 0x98 then KMap.lookD s.cxlMib ((o - 0x60) / 8) 0
    else 0
  else if b = poolPage ∧ o = 0x400 then Config.poolIdentity.toNat
  else s.pageWord a &&& pageMask a

/-- Bytes of register pages. -/
def State.readPageBytes (s : State) (a n : Nat) : List Byte :=
  (List.range n).map fun i => BitVec.ofNat 8 (s.readPage ((a + i) / 8 * 8) / 256 ^ ((a + i) % 8))

/-! ## Lanes of the ports (R350) -/

/-- Lanes in use of a port: 0 four, 1 two, 2 none. -/
def State.portLanes (s : State) (p : Nat) : Nat := KMap.lookD s.router.lanes p 0

/-- A lane whose score exceeds hlim is retired with its partner: the port runs on two lanes, or is dead. -/
def State.retireLane (s : State) (port lane : Nat) : State :=
  let rt := s.router
  if KMap.lookD rt.score (port * 4 + lane) 0 ≤ s.hlim || KMap.has rt.gone (port * 2 + lane / 2) then s
  else { s with router := { rt with gone := KMap.put rt.gone (port * 2 + lane / 2) (),
                                    lanes := KMap.put rt.lanes port (s.portLanes port + 1) } }

/-- Retires every lane whose score exceeds hlim, as a write of hlim may leave some. -/
def State.retireLanes (s : State) : State :=
  s.router.score.foldl (fun (s : State) p => s.retireLane (p.1 / 4) (p.1 % 4)) s

/-! ## Writes -/

/-- A write of the host to a register page is dropped: in CONFIG_LOCKED and RUN the pages that index 13 measures, which are
the partition page, the router page and the export table, take none (R377, R383). -/
def State.tdiDrops (s : State) (a : Nat) : Bool :=
  s.boot.tdi != .unlocked && [partPage, routerPage, exportPage].contains (a - a % 65536)

/-- The keys over a granule before its owner changes stay over its contents (R375). -/
def State.keepKeys (s : State) (a : Nat) : State :=
  { s with mem := { s.mem with residue := KMap.putD s.mem.residue (a / 65536) [] (s.protOf a).2 } }

/-- Sets the owner of a granule (R160). -/
def State.setOwner (s : State) (d c g region : Nat) : State :=
  let a := localBase + d * 2 ^ 28 + c * 2 ^ 20 + g * 65536
  let s := if s.granOwner a = region then s else s.keepKeys a
  s.setPageWord (ownerPage + d * 65536 + 128 * c + 8 * g) 0 (region % 2 ^ 32)

/-- A slice in the mask is lent (R394). -/
def State.anyLent (s : State) (mask : Nat) : Bool := s.lends.any fun l => bits mask l.slice l.slice == 1

/-- A partition has a live launch. -/
def State.partBusy (s : State) (p : Nat) : Bool :=
  s.launches.any fun l => s.partOfRegion l.2.region == p

/-- Home masks of the other partitions. -/
def State.otherHomes (s : State) (p : Nat) : Nat :=
  ((List.range 16).filter (· != p)).foldl (fun m q => m ||| s.partHome q) 0

/-- A write of a word of a partition entry (R394). -/
def State.writePart (s : State) (p w v : Nat) : State :=
  let a := partPage + 64 * p + 8 * w
  if w = 3 then s.setPageWord a 0 v
  else if w = 2 then
    if v % 65536 ≠ 0 ∨ bits v 63 48 = 0 then s else s.setPageWord a (partReset p 2) v
  else if w = 6 ∨ w = 7 then
    let old := s.partHome p
    let new := if w = 6 then old / 2 ^ 64 * 2 ^ 64 + v % 2 ^ 64 else old % 2 ^ 64 + v % 2 ^ 64 * 2 ^ 64
    if s.partBusy p || s.anyLent (old ||| new) || (new &&& s.otherHomes p) != 0 then s
    else s.setPageWord a (partReset p w) v
  else s

/-- A write of a word of a debug entry by a world (R410): dropped when the entry it makes names another world, unless
it carries the trusted bit. -/
def State.writeDebug (s : State) (k w v world : Nat) (trusted : Bool) : State :=
  let a := debugPage + 16 * k + 8 * w
  let named := if w = 1 then bits v 63 48 else bits (s.pageWord (debugPage + 16 * k + 8)) 63 48
  if trusted || named == world then s.setPageWord a 0 (if w = 0 then v % 4 else v) else s

/-- A write of a whole word of a register page: address a multiple of 8; `full` when all 64 bits are written. -/
def State.writePage (s : State) (world a v : Nat) (full trusted : Bool) : State :=
  let o := a % 65536
  let b := a - o
  if b = launchPage then
    if !full then s
    else if o = 0 then { s with bells := s.bells ++ [.launch v] }
    else if o = 8 then { s with bells := s.bells ++ [.tree v] }
    else s
  else if b = routerPage then
    if o = 0 then s.setPageWord a 0 (v % 65536)
    else if o = 8 then s.setPageWord a 0 (v % 2)
    else if o < 0x200 then s.setPageWord a 0 (v % 2 ^ 14)
    else if o = 0xA00 then (s.setPageWord a 4096 v).retireLanes
    else s
  else if b = exportPage then s.setPageWord a 0 v
  else if b = partPage then
    if o < 0x400 then s.writePart (o / 64) (o / 8 % 8) v
    else if o = 0x400 then { s with partCmds := s.partCmds ++ [BitVec.ofNat 64 v] }
    else if o = 0x428 then s.setPageWord a 0 (v % 2 ^ 32)
    else if 0x410 ≤ o ∧ o ≤ 0x438 then s.setPageWord a 0 v
    else s
  else if b = poolPage then (if o < 0x400 then s.setPageWord a 0 v else s)
  else if b = debugPage then (if o < 0x400 then s.writeDebug (o / 16) (o / 8 % 2) v world trusted else s)
  else if b = systemPage then
    if (o = 8 ∧ (v = 1 ∨ v = 2)) ∨ o = 0x18 then { s with sysReqs := s.sysReqs ++ [(o, BitVec.ofNat 64 v)] } else s
  else if ownerPage ≤ b ∧ b < ownerPage + 8 * 65536 then
    if o < 32768 then s.setOwner ((b - ownerPage) / 65536) (o / 128) (o / 8 % 16) (v % 2 ^ 32) else s
  else s

/-- A store of up to 8 bytes within one word of a register page: bytes not written keep their stored value. -/
def State.storePage (s : State) (world a : Nat) (bs : List Byte) (trusted : Bool) : State :=
  let w := a / 8 * 8
  let old := leBytes 8 (if w - w % 65536 = exportPage ∨ w - w % 65536 = poolPage then s.pageWord w else s.readPage w)
  let new := old.take (a % 8) ++ bs ++ old.drop (a % 8 + bs.length)
  s.writePage world w (leNat new) (bs.length == 8) trusted

/-- A store of any size to register pages, word by word. -/
def State.storePageAll (s : State) (world a : Nat) (bs : List Byte) (trusted : Bool) : Nat → State
  | 0 => s
  | n + 1 =>
    if bs.isEmpty then s
    else
      let k := 8 - a % 8
      (s.storePage world a (bs.take k) trusted).storePageAll world (a + k) (bs.drop k) trusted n

end Sys2Proof.Machine
end

