-- ==== Sys2Proof/Machine/Ni.lean ====
section
/-! DEFINITION. The sending side of the fabric (R340 to R348): paths, live routes, requests that leave the package; and
the export table (R344). A request that has left is named by a handle: 8 times its number plus its die. -/

namespace Sys2Proof.Machine

/-- A die and a core as numbers of their ranges. -/
def dieOf (n : Nat) : DieNo := ⟨n % 8, Nat.mod_lt _ (by decide)⟩

/-! ## Topology (R4, R340, R342) -/

/-- Coordinates of a package: l0, l1, s0, s1. -/
def coords (p : Nat) : Nat × Nat × Nat × Nat := (p / 16 % 32, p / 512, p % 4, p / 4 % 4)

/-- Dimensions: L0, L1, S0, S1 are 0 to 3. -/
def coordOf (p dim : Nat) : Nat :=
  if dim = 0 then p / 16 % 32 else if dim = 1 then p / 512 else if dim = 2 then p % 4 else p / 4 % 4

/-- Order in which a path takes the dimensions (R342). -/
def pathDims (k : Nat) : List Nat :=
  if k = 0 then [0, 1, 2, 3] else if k = 1 then [1, 0, 3, 2] else if k = 2 then [2, 3, 0, 1] else [3, 2, 1, 0]

/-- The + direction is taken from `a` to `b` in a dimension: the shorter way round a torus, + on a tie. -/
def goesPlus (dim a b : Nat) : Bool :=
  if dim < 2 then decide ((b + 32 - a) % 32 ≤ 16) else decide (a < b)

/-- Ports of a path in a direction of a dimension (R340, R342). -/
def pathPorts (k dim : Nat) (plus : Bool) : List Nat :=
  let minus := if plus then 0 else 1
  if dim < 2 then
    let b := dim * 16 + minus * 8
    [b + 2 * k, b + 2 * k + 1]
  else [32 + (dim - 2) * 8 + minus * 4 + k]

/-- First dimension in which a path moves from `a` to `b`, and its direction. -/
def firstStep (k a b : Nat) : Option (Nat × Bool) :=
  ((pathDims k).find? fun dim => coordOf a dim != coordOf b dim).map fun dim =>
    (dim, goesPlus dim (coordOf a dim) (coordOf b dim))

/-- The package one step on from `a`. -/
def nextPkg (a dim : Nat) (plus : Bool) : Nat :=
  let m := if dim < 2 then 32 else 4
  let x := coordOf a dim
  let y := if plus then (x + 1) % m else (x + m - 1) % m
  let unit := if dim = 0 then 16 else if dim = 1 then 512 else if dim = 2 then 1 else 4
  a - x * unit + y * unit

/-- The dead list names the package (R343). Its words are 0 at reset and then name package 0: software marks the slots it
does not use before it sets bit 0. -/
def State.namedDead (s : State) (p : Nat) : Bool :=
  s.pageWord (routerPage + 8) % 2 == 1 &&
    (List.range 62).any fun i => s.pageWord (routerPage + 0x10 + 8 * i) % 2 ^ 14 == p && p != 0x3FFF

/-- The live port of path `k` that a step from the package in a dimension takes: of several the manual names none, and the
model takes the lowest (DESIGN CHOICE, log 111). -/
def State.stepPort (s : State) (k dim : Nat) (plus : Bool) : Option Nat :=
  (pathPorts k dim plus).find? fun p => s.portLanes p != 2

/-- A port as a number of its range. -/
def portNo (n : Nat) : Fin 48 := ⟨n % 48, Nat.mod_lt _ (by decide)⟩

/-- A route of path `k` by a port. -/
def routeBy (k : Nat) (detour : Bool) (p : Nat) : Route :=
  { path := ⟨k % 4, Nat.mod_lt _ (by decide)⟩, port := some (portNo p), detour := detour }

/-- The live route of path `k` from this package to another, as far as this package knows: by its first step, or by the
detour of R347 round a package named dead, in S0 or, where that step cannot be taken, in S1. -/
def State.routeOf (s : State) (k dest : Nat) : Option Route :=
  let me := s.pkg.toNat
  match firstStep k me dest with
  | none => some { path := ⟨k % 4, Nat.mod_lt _ (by decide)⟩, port := none, detour := false }
  | some (dim, plus) =>
    let next := nextPkg me dim plus
    if s.namedDead next && next != dest then
      ((s.stepPort k 2 (decide (coordOf me 2 < 3))).orElse fun _ => s.stepPort k 3 (decide (coordOf me 3 < 3))).map
        (routeBy k true)
    else if s.namedDead dest then none
    else (s.stepPort k dim plus).map (routeBy k false)

/-- The route of a request to `dest`: on its own path, else on the next in ascending order that is live (R347). -/
def State.livePath (s : State) (k dest : Nat) : Option Route :=
  ((List.range 4).map fun i => (k + i) % 4).findSome? fun j => s.routeOf j dest

/-- Outstanding requests of a die to a package on a path. -/
def State.pathLoad (s : State) (d dest k : Nat) : Nat :=
  let n := ((s.die d).ni.outst.filter fun p => p.2.pkg == dest && p.2.req.path.val == k).length
  match firstStep k s.pkg.toNat dest with
  | some (dim, plus) => if (pathPorts k dim plus).any fun p => s.portLanes p == 1 then 2 * n else n
  | none => n

/-- The path with the fewest outstanding requests, ties to the lowest (R342). -/
def State.choosePath (s : State) (d dest : Nat) : Nat :=
  (List.range 4).foldl (fun best k => if s.pathLoad d dest k < s.pathLoad d dest best then k else best) 0

/-- The best live path for a request that is sent again: of those that are live the one with the fewest outstanding requests,
the lowest of several, as R342 chooses (R348; DEDUCED, log 111). -/
def State.bestPath (s : State) (d dest : Nat) : Option Route :=
  ((List.range 4).foldl (fun (best : Option (Nat × Route)) k => match s.routeOf k dest with
    | none => best
    | some r => match best with
      | none => some (k, r)
      | some b => if s.pathLoad d dest k < s.pathLoad d dest b.1 then some (k, r) else best) none).map (·.2)

/-- The port by which a sending went out is dead: its replay buffer hands its flits on at once (R350). -/
def State.routeDead (s : State) (r : Option Route) : Bool :=
  match r.bind (·.port) with
  | some p => s.portLanes p.val == 2
  | none => false

/-! ## Requests -/

/-- Sent counts of a die to a package. -/
def State.sentCount (s : State) (d dest k : Nat) : Nat := KMap.lookD (s.die d).ni.sent (dest * 4 + k) 0

/-- Failed-store bits of R187. -/
def failDead : BitVec 4 := 1
def failRefused : BitVec 4 := 2
def failRetry : BitVec 4 := 4
def failPoisoned : BitVec 4 := 8

/-- Records a failed store of a context (R187). -/
def State.failStore (s : State) (uid : Nat) (scope : Scope) (path : Option (Fin 4)) (b : BitVec 4) : State :=
  s.modCtx uid fun c => { c with failed := c.failed ++ [{ scope := scope, path := path, bits := b }] }

/-- The request of a die to another package: numbered, given a path, counted, and kept until it is acknowledged (R342,
R348, R349). The flag carries the counts before its own sending. With no live route nothing leaves the package: the
request then fails (R348). -/
def State.sendReq (s : State) (d dest world off rlim : Nat) (die : DieNo) (op : FabOp) (todo : AckDo) : State :=
  let ni := (s.die d).ni
  let k := s.choosePath d dest
  let seq := KMap.lookD ni.seqs dest 0
  let cnt := fun j => BitVec.ofNat 32 (s.sentCount d dest j)
  let op := match op with
    | .flag size data m _ _ _ _ => FabOp.flag size data m (cnt 0) (cnt 1) (cnt 2) (cnt 3)
    | o => o
  let req : FabReq :=
    { srcPkg := s.pkg, srcDie := ⟨d % 8, Nat.mod_lt _ (by decide)⟩, seq := seq, path := ⟨k % 4, Nat.mod_lt _ (by decide)⟩,
      job := BitVec.ofNat 16 s.job, world := BitVec.ofNat 16 world, off := off, rlim := rlim, die := die, op := op }
  let via := s.livePath k dest
  let o : Outst := { req := req, pkg := dest, todo := todo, via := via, admitted := false, sentAt := s.cyc d, resent := 0, turned := 0, retryAt := none }
  let s := s.modNi d fun n =>
    { n with seqs := KMap.put n.seqs dest (seq + 1), outst := KMap.put n.outst n.nextOut o, nextOut := n.nextOut + 1,
             sent := if countsInSent op then KMap.put n.sent (dest * 4 + k) (KMap.lookD n.sent (dest * 4 + k) 0 + 1)
                     else n.sent }
  match via with
  | some r => s.emit (.request req dest r)
  | none => s

/-- Whether a package lies outside the job of this one: a request addressed to it fails at the sending NI with refused
(R341). A job is the packages whose routers hold one nonzero job id. -/
def State.noJob (s : State) (p : Nat) : Bool :=
  s.job == 0 || (p != s.pkg.toNat && KMap.lookD s.peers p 0 != s.job)

/-- The end of a wait that another package's memory holds for a request of this one goes to it, where the request has left
(R143, R205, R403; DESIGN CHOICE, log 110). -/
def State.unwait (s : State) (d h : Nat) : State :=
  match KMap.look (s.die d).ni.outst h with
  | none => s
  | some o =>
    (s.modNi d fun n => { n with outst := KMap.del n.outst h }).sendReq d o.pkg o.req.world.toNat 0 o.req.rlim o.req.die
      (.unwait o.req.seq) (.message none)

/-! ## Exports (R344) -/

/-- Word `w` of export entry `i`. -/
def State.exportWord (s : State) (i w : Nat) : Nat := s.pageWord (exportPage + 64 * i + 8 * w)

/-- An export entry. -/
structure Export where
  phys   : Nat
  len    : Nat
  off    : Nat
  rights : Nat
  world  : Nat
  job    : Nat
  deriving DecidableEq, Repr

/-- Entry `i`, where it is in use and holds no res0 bit, its rights byte included (R131, R344). -/
def State.exportOf (s : State) (i : Nat) : Option Export :=
  let w := s.exportWord i
  let len := bits (w 6) 30 0
  if len = 0 ∨ bits (w 6) 63 31 ≠ 0 ∨ bits (w 5) 63 33 ≠ 0 ∨ bits (w 4) 63 5 ≠ 0 ∨ w 3 ≠ 0 ∨ w 2 ≠ 0 ∨ w 1 ≠ 0
    ∨ bits (w 0) 63 32 ≠ 0 then none
  else some { phys := w 7, len := len, off := bits (w 5) 32 0, rights := bits (w 4) 7 0, world := bits (w 0) 31 16,
              job := bits (w 0) 15 0 }

/-- Valid entries: those whose window overlaps no other's. -/
def State.exports (s : State) : List Export :=
  let all := (List.range 1024).filterMap fun i => (s.exportOf i).map fun e => (i, e)
  (all.filter fun p => !(all.any fun q => q.1 != p.1 && overlaps p.2.off p.2.len q.2.off q.2.len)).map (·.2)

/-- Admission of a request: the physical address of an access of `n` bytes at offset `o` (R346). -/
def State.admits (s : State) (job world o n : Nat) (need : Need) : Option Nat :=
  match s.exports.find? fun e => e.job == job && e.world == world && within o n e.off e.len
      && need.okFor (BitVec.ofNat 8 e.rights) with
  | some e =>
    let q := e.phys + (o - e.off)
    (match s.homeOf q with
      | .nowhere | .job _ => none
      | _ => if s.allowed world q n need false then some q else none)
  | none => none

/-- Package and offset of a job-scope address (R345). -/
def jobPlace (a : Nat) : Nat × Nat := ((a - jobBase) / 2 ^ 33, (a - jobBase) % 2 ^ 33)

/-- Where a piece of memory lies: a job-scope address of the own package lies where its export table puts it (R174, R345). -/
def State.place (s : State) (world : Nat) (p : Nat × Nat) : Nat × Nat :=
  match s.homeOf p.1 with
  | .job k =>
    if k = s.pkg.toNat then
      let o := (jobPlace p.1).2
      match s.exports.find? fun e => e.job == s.job && e.world == world && within o p.2 e.off e.len with
      | some e => (e.phys + (o - e.off), p.2)
      | none => p
    else p
  | _ => p

/-- Where the memory of an access lies. -/
def State.places (s : State) (a : Acc) : List (Nat × Nat) := a.parts.map fun p => s.place a.world p

/-- Home of an access by the place of its memory (R174). -/
def State.placeHome (s : State) (a : Acc) : Home :=
  match a.parts with
  | [] => .nowhere
  | p :: _ => s.homeOf (s.place a.world p).1

end Sys2Proof.Machine
end

