-- ==== Sys2Proof/Machine/Perform.lean ====
section
/-! DEFINITION. What happens at the home of a word: stores and what hangs on them (R102, R166, R321, R204, R61), the
service of waiting accesses (R168), atomics (R201, R203). -/

namespace Sys2Proof.Machine

/-! ## Image lines (R61) -/

/-- Image lines of a context that a write of `[a, a + n)` touches. -/
def State.imageHits (s : State) (c : Context) (a n : Nat) : List Nat :=
  if c.state == .retired || c.image == 0 then []
  else match s.translateOne c.space c.image 4672 with
    | some t =>
      if overlaps a n t.phys 4672 then (List.range 73).filter fun k => overlaps a n (t.phys + 64 * k) 64 else []
    | none => (List.range 73).filter fun k => match s.translate c.space (c.image + 64 * k) 64 with
        | some t => partsMeet [(a, n)] t.parts
        | none => false

/-- Copies of the image lines that a write touches are written back and discarded; a line never written back is first
written with the value it reads as (R61, R95). -/
def State.editImages (s : State) (a n : Nat) : State :=
  s.ctxs.foldl (fun s p =>
    let ks := s.imageHits p.2 a n
    if ks.isEmpty then s
    else
      let s := ks.foldl (fun s k =>
        if p.2.virgin.getLsbD k || (KMap.has p.2.lines k && p.2.lineDirty k) then
          match s.translate p.2.space (p.2.image + 64 * k) 64 with
          | some t => s.writeOver p.2.world t.parts (p.2.lineBytes k)
          | none => s
        else s) s
      s.modCtx p.1 fun c => { c with lines := ks.foldl (fun m k => KMap.del m k) c.lines,
                                     virgin := ks.foldl (fun b k => setBit b k false) c.virgin }) s

/-- After such a write the control line of a context in a slot is fetched again, since the context cannot be without it; its
other lines come again when an instruction names them (R59, R61; DESIGN CHOICE, log 109). -/
def State.editDone (s : State) (a n : Nat) : State :=
  s.ctxs.foldl (fun s p =>
    if p.2.slot.isSome && (s.imageHits p.2 a n).contains 72 then
      s.modCtx p.1 fun c =>
        let y := s.refetchControl c
        { y with lines := KMap.put y.lines 72 { dirty := false, evict := false, use := (s.core c.die.val c.core.val).uses } }
    else s) s

/-! ## Register pages -/

/-- Ends the waits on words of register pages that a write has changed (R205). -/
def State.pageChanged (s : State) (a n : Nat) : State := s.endMonsBy (fun _ a n => leNat (s.readPageBytes a n)) a n

/-- A store to register pages, word by word. -/
def State.storePages (s : State) (world a : Nat) (bs : List Byte) (trusted : Bool) : State :=
  (s.storePageAll world a bs trusted (bs.length + 1)).pageChanged a bs.length

/-! ## RCB fields that software may not change (R102) -/

/-- RCBs on the chains of live regions. -/
def State.liveRcbs (s : State) : List Nat := (s.regions.flatMap fun p => p.2.chain.map (·.1)).dedup

/-- Byte `i` of an RCB lies wholly in a field that only the part writes. -/
def rcbRoByte (i : Nat) : Bool := (decide (24 ≤ i) && decide (i < 40)) || (decide (104 ≤ i) && decide (i < 112))

/-- The byte a software write leaves at an address: fields of a live RCB that only the part writes stay as they
are. -/
def State.keepRo (s : State) (w a : Nat) (b : Byte) : Byte :=
  match s.liveRcbs.find? fun r => within a 1 r 256 with
  | some r =>
    let old := s.readByte w a
    if rcbRoByte (a - r) then old
    else if a - r = 13 then (b &&& 0xCF) ||| (old &&& 0x30)
    else b
  | none => b

/-! ## Tracking of masters (R317, R321) -/

/-- Die of a master's home (R315). -/
def State.masterDie (s : State) (m : Master) : Nat := ((s.homeOf m.base).die?).getD 0

/-- Updates generation and dirty bit of a block, and queues its refresh (R321). -/
def State.trackBlock (s : State) (key : Nat) (m : Master) (b : Nat) : State :=
  let w := key / 256
  let ga := m.areaAt (8 * b)
  let da := m.areaAt (8 * masterBlocks m.desc + b / 8)
  let s := s.write w ga (leBytes 8 ((s.readNat w ga 8 + 1) % 2 ^ 64))
  let d := (s.readByte w da).toNat
  if d / 2 ^ (b % 8) % 2 = 1 then s
  else
    let s := s.write w da [BitVec.ofNat 8 (d + 2 ^ (b % 8))]
    s.modDie (s.masterDie m) fun k =>
      { k with refresh := k.refresh ++ [{ world := w, master := key % 256, block := b, view := none }] }

/-- Tracking of a write of `n` bytes (R321). -/
def State.track (s : State) (a n : Nat) : State :=
  s.masters.foldl (fun s p => (blocksTouched p.2 a n).foldl (fun s b => s.trackBlock p.1 p.2 b) s) s

/-! ## Dirty pages of a world (R405) -/

/-- Records a page of open vault, DRAM or CXL memory that a world wrote; at most 65,536. -/
def State.notePage (s : State) (w a : Nat) : State :=
  match s.homeOf a with
  | .vault _ _ | .dram _ | .cxl _ =>
    if (s.protOf a).1 ≠ 0 then s
    else { s with worlds := KMap.modify s.worlds w fun x =>
        if KMap.has x.dirty (a / 65536) then x
        else if x.dirty.length < 65536 then { x with dirty := KSet.set x.dirty (a / 65536) true }
        else { x with dirtyLost := true } }
  | _ => s

/-- Lines of pool memory that a write makes dirty in their port's cache (R389). -/
def State.notePool (s : State) (a n : Nat) : State := (linesOf a n).foldl (fun s l => s.dirtyPool l) s

/-! ## Stores at their home -/

/-- Words that `[a, a + n)` covers whole. -/
def wholeWords (a n : Nat) : List Nat := (wordsOf a n).filter fun x => within x 8 a n

/-- A write overtakes the scrubs of its range that are still to be done: it stays (R399). -/
def State.overtake (s : State) (w a n : Nat) : State :=
  if s.scrubs.isEmpty then s
  else { s with scrubs := s.scrubs.map fun q =>
    let lo := max a q.base
    let hi := min (a + n) (q.base + q.len)
    if lo < hi then { q with kept := q.kept ++ [(w, lo, hi - lo)] } else q }

/-- A write is performed: bytes, poison, full-empty bits, tracking, monitors, dirty pages. Waiting accesses are not yet
served. -/
def State.storeAt (s : State) (w a : Nat) (bs : List Byte) (fe : Option Bool) : State :=
  let n := bs.length
  let s := s.overtake w a n
  let s := s.editImages a n
  let s := s.notePool a n
  let s := s.writeBytes w a (bs.zipIdx.map fun p => s.keepRo w (a + p.2) p.1)
  let s := (wholeWords a n).foldl (fun s x => s.setPoison x false) s
  let s := match fe with
    | some f => (wordsOf a n).foldl (fun (s : State) x => s.setFull x f) s
    | none => s
  let s := s.track a n
  let s := s.notePage w a
  (s.editDone a n).endMonitors a n

/-- What a command's fe field makes of the words it writes (R298): 0 full, 1 unchanged, 2 empty. -/
def feOf (n : Nat) : Option Bool := if n = 0 then some true else if n = 1 then none else some false

/-- An engine writes poison where it would have written `[a, a + n)`: the lines are poisoned (R166, R306), and the words
of the piece take the full-empty state of its command (R302). -/
def State.poisonAt (s : State) (w a n : Nat) (fe : Option Bool) : State :=
  let lo := a / 64 * 64
  let k := (a + n + 63) / 64 * 64 - lo
  let s := s.overtake w a n
  let s := s.editImages lo k
  let s := s.notePool lo k
  let s := (wordsOf lo k).foldl (fun s x => s.setPoison x true) s
  let s := match fe with
    | some f => (wordsOf a n).foldl (fun (s : State) x => s.setFull x f) s
    | none => s
  let s := s.track lo k
  (s.notePage w a).editDone lo k

/-! ## Filling registers of a context -/

/-- A fill joins the fills on their way to a context (R55). -/
def State.pushFill (s : State) (uid : Nat) (f : Fill) : State := s.modCtx uid fun c => { c with fills := c.fills ++ [f] }

/-- A fill of a status word or value. -/
def valueFill (dest : AnyReg) (v : BitVec 64) : Fill :=
  { dest := dest, also := none, src := .value (v.setWidth 1024), flags := 0, nan := none, acq := none }

/-- A fill with poison. -/
def poisonFill (dest : AnyReg) : Fill :=
  { dest := dest, also := none, src := .poisoned, flags := 0, nan := none, acq := none }

/-- An acquire of a context has been performed (R179). -/
def State.acquired (s : State) (uid id : Nat) : State :=
  s.modCtx uid fun c =>
    { c with acqs := c.acqs.filter (· != id),
             sbuf := c.sbuf.map fun e => { e with after := e.after.filter (· != id) } }

/-! ## Waiting accesses (R167, R168) -/

/-- Every word of a footprint is full. -/
def State.allFull (s : State) (a n : Nat) : Bool := (wordsOf a n).all fun x => s.isFull x
/-- Every word of a footprint is empty. -/
def State.allEmpty (s : State) (a n : Nat) : Bool := (wordsOf a n).all fun x => !(s.isFull x)

/-- Cuts a footprint at line boundaries. -/
def splitLines (parts : List (Nat × Nat)) : List (Nat × Nat) :=
  parts.flatMap fun p => (linesOf p.1 p.2).map fun l =>
    let lo := max l p.1
    (lo, min (l + 64) (p.1 + p.2) - lo)

/-- Scale byte for a window access at a raw address (R162). -/
def State.scaleOf (s : State) (w win a : Nat) : Nat :=
  if win = 3 ∨ win = 4 then (s.readByte w (scaleAddr a)).toNat else 0

/-- Value and flags of a load from its raw bytes (R163). -/
def State.loadValue (s : State) (acc : Acc) (raw : List Byte) : BitVec 1024 × Nat :=
  match acc.parts with
  | p :: _ =>
    let r := decodeRaw acc.win (s.scaleOf acc.world acc.win p.1) raw
    (BitVec.ofNat 1024 (leNat r.1), r.2)
  | [] => (0, 0)

/-- The words that decide the poison of a load: its footprint, and the scale byte of a window (R162). -/
def loadWords (acc : Acc) : List (Nat × Nat) :=
  acc.parts ++ (if acc.win = 3 ∨ acc.win = 4 then (match acc.parts with
    | p :: _ => [(scaleAddr p.1, 1)]
    | [] => []) else [])

/-- A store of the context to another package that has not been acknowledged (R174). -/
def State.remoteStores (s : State) (uid : Nat) : Bool :=
  s.dies.any fun d => d.2.ni.outst.any fun o => match o.2.todo with
    | .store u => u == uid
    | .sync u none _ _ _ => u == uid
    | _ => false

/-- Takes a retired context away once nothing of it is in flight. -/
def State.reap (s : State) (uid : Nat) : State :=
  match s.ctx? uid with
  | some c => if c.state == .retired && c.sbuf.isEmpty && c.fills.isEmpty && !(s.remoteStores uid) then { s with ctxs := KMap.del s.ctxs uid } else s
  | none => s

/-- What a waiter may do now: the lines that its condition holds for. -/
def State.servable (s : State) (w : Waiter) : Option (Nat × Nat) :=
  match w.op with
  | .load _ _ _ _ left _ _ _ => left.find? fun p => s.allFull p.1 p.2
  | .store _ _ left => (left.find? fun p => s.allEmpty p.1 p.2.1).map fun p => (p.1, p.2.1)
  | .susp _ | .task _ _ => if s.isFull w.word then some (w.word, 8) else none
  | .remoteLoad _ _ _ acc _ => if acc.parts.all fun p => s.allFull p.1 p.2 then some (w.word, 8) else none
  | .remote _ _ _ acc _ => if acc.parts.all fun p => s.allEmpty p.1 p.2 then some (w.word, 8) else none
  | .paused .. => none

/-- The waiter waits on a word of `[a, a + n)`. -/
def waitsOn (w : Waiter) (a n : Nat) : Bool :=
  match w.op with
  | .load _ _ _ _ left _ _ _ => left.any fun p => overlaps a n (p.1 / 8 * 8) (p.1 % 8 + p.2)
  | .store _ _ left => left.any fun p => overlaps a n (p.1 / 8 * 8) (p.1 % 8 + p.2.1)
  | .remoteLoad _ _ _ acc _ | .remote _ _ _ acc _ => acc.parts.any fun p => overlaps a n (p.1 / 8 * 8) (p.1 % 8 + p.2)
  | _ => overlaps a n w.word 8

/-- Reads the raw bytes of a segment, poison, and the state after the checks of a read. -/
def State.readSeg (s : State) (w a n : Nat) : State × List Byte × Bool :=
  match s.homeOf a with
  | .page => (s, s.readPageBytes a n, false)
  | _ =>
    let s := s.checkRead w a n
    (s, s.readBytes w a n, s.anyPoison [(a, n)])

/-- The core of a context. -/
def State.coreOf (s : State) (uid : Nat) : Option Nat := (s.ctx? uid).map fun c => coreKey c.die.val c.core.val

/-- Takes one line for a waiting load, at its home, by a core. `parts` gives the order of its lines. -/
def State.takeLine (s : State) (by_ : Option Nat) (world : Nat) (consume : Bool) (p : Nat × Nat) : State × List Byte × Bool :=
  let r := ((s.l1Each [p] fun s l => s.l1Home by_ l consume)).readSeg world p.1 p.2
  let s := if consume then (wordsOf p.1 p.2).foldl (fun s x => s.setFull x false) r.1 else r.1
  (s, r.2.1, r.2.2)

/-- Ends a synchronising load: its fill is on its way, and it is performed as an acquire. -/
def State.endLoad (s : State) (uid : Nat) (dest : AnyReg) (acc : Acc) (raw : List Byte) (pois : Bool) (acq : Nat) :
    State :=
  let v := s.loadValue acc raw
  let s := s.acquired uid acq
  s.pushFill uid { dest := dest, also := none, src := if pois then .poisoned else .value v.1,
                   flags := if pois then 0 else flagBits v.2, nan := none, acq := none }

/-- A segment writes part of a poisoned word: the word stays poisoned, and the store has failed (R166, R187). -/
def State.partPoison (s : State) (parts : List (Nat × Nat)) : Bool :=
  parts.any fun p => (wordsOf p.1 p.2).any fun a => s.isPoisoned a && !(within a 8 p.1 p.2)

/-- Records a narrow store on a poisoned word of a context (R166, R187). -/
def State.notePartPoison (s : State) (uid : Nat) (acc : Acc) (bad : Bool) : State :=
  match s.ctx? uid with
  | some c => if bad then s.failStore uid ((s.accHome acc).scope c.die.val c.core.val) none failPoisoned else s
  | none => s

/-- Drops the first admitted entry of a store buffer with an access: it has been performed. -/
def dropAdmitted (acc : Acc) : List SEntry → List SEntry
  | [] => []
  | e :: es => if e.admitted && e.acc == acc then es else e :: dropAdmitted acc es

/-- Serves one waiter on one line; `none` for the waiter when it is done. -/
def State.serveOne (s : State) (w : Waiter) (p : Nat × Nat) : State × Option Waiter :=
  match w.op with
  | .load uid dest acc consume left got pois acq =>
    let r := s.takeLine (s.coreOf uid) w.world consume p
    let rest := left.filter (· != p)
    let first := decide ((splitLines acc.parts).head? = some p)
    let got' := if first then r.2.1 ++ got else got ++ r.2.1
    if rest.isEmpty then (r.1.endLoad uid dest acc got' (pois || r.2.2) acq, none)
    else (r.1, some { w with op := .load uid dest acc consume rest got' (pois || r.2.2) acq })
  | .store uid acc left =>
    match left.find? fun q => q.1 == p.1 with
    | none => (s, some w)
    | some q =>
      let bad := s.partPoison [(q.1, q.2.1)]
      let s := ((s.l1Home (s.coreOf uid) q.1 true).storeAt w.world q.1 q.2.2 (some true)).notePartPoison uid acc bad
      let rest := left.filter fun q => q.1 != p.1
      if rest.isEmpty then ((s.modCtx uid fun c => { c with sbuf := dropAdmitted acc c.sbuf }).reap uid, none)
      else (s, some { w with op := .store uid acc rest })
  | .susp uid => (s.modCtx uid fun c => { c with wait := .none }, none)
  | .task _ _ => (s, none)
  | .paused .. => (s, some w)
  | .remote pkg die seq acc data =>
    match acc.parts with
    | q :: _ =>
      let a : FabAck := if s.partPoison [q] then .poisoned else .performed 0
      (((s.l1Each [q] fun s l => s.l1Home none l true).storeAt w.world q.1 data (some true)).answer pkg die seq a, none)
    | [] => (s, none)
  | .remoteLoad pkg die seq acc consume =>
    match acc.parts with
    | q :: _ =>
      let r := s.takeLine none w.world consume q
      (r.1.answer pkg die seq (if r.2.2 then .poisoned else .performed (BitVec.ofNat 1024 (leNat r.2.1))), none)
    | [] => (s, none)

/-- The first waiter in order of admission that can be served, with its place and line. -/
def State.nextServable (s : State) (a n : Nat) : List Waiter → Nat → Option (Nat × Waiter × Nat × Nat)
  | [], _ => none
  | w :: ws, i =>
    if waitsOn w a n then
      match s.servable w with
      | some p => some (i, w, p)
      | none => s.nextServable a n ws (i + 1)
    else s.nextServable a n ws (i + 1)

/-- Serves the waiters on the words of `[a, a + n)` until no condition holds (R168). -/
def State.serveLoop (s : State) (a n : Nat) : Nat → State
  | 0 => s
  | fuel + 1 =>
    match s.nextServable a n s.retry 0 with
    | none => s
    | some (i, w, p) =>
      let r := s.serveOne w p
      let s := match r.2 with
        | some w' => { r.1 with retry := r.1.retry.set i w' }
        | none => { r.1 with retry := r.1.retry.eraseIdx i }
      s.serveLoop a n fuel

/-- Serves the waiters on the lines of `[a, a + n)`: serving one may change other words of its line. Each service takes
a line from a waiter, and a waiter has two at most. -/
def State.serve (s : State) (a n : Nat) : State :=
  let lo := a / 64 * 64
  s.serveLoop lo ((a + n + 63) / 64 * 64 - lo) (2 * s.retry.length + 1)

/-- A store performed at its home, and the service that follows. -/
def State.store (s : State) (w a : Nat) (bs : List Byte) (fe : Option Bool) : State :=
  (s.storeAt w a bs fe).serve a bs.length

/-- A full-empty bit set at its home (R171), and the service that follows. -/
def State.storeFe (s : State) (a : Nat) (full : Bool) : State := (s.setFull a full).serve a 8

/-- A store into the segments of an access, in order. -/
def State.storeParts (s : State) (w : Nat) : List (Nat × Nat) → List Byte → Option Bool → State
  | [], _, _ => s
  | p :: ps, bs, fe => (s.store w p.1 (bs.take p.2) fe).storeParts w ps (bs.drop p.2) fe

/-! ## Retry lists (R168) -/

/-- Key of the controller of an address (R168). -/
def State.controllerOf (s : State) (a : Nat) : Option Nat := (s.homeOf a).controller

/-- Addresses by which a waiter stands in retry lists. -/
def Waiter.places (w : Waiter) : List Nat :=
  match w.op with
  | .load _ _ _ _ left _ _ _ => left.map (·.1)
  | .store _ _ left => left.map (·.1)
  | _ => [w.word]

/-- Entries of the retry list of the controller of an address. -/
def State.listLen (s : State) (a : Nat) : Nat :=
  (s.retry.filter fun w => w.places.any fun x => s.controllerOf x == s.controllerOf a).length

/-- The retry list of the controller has room. -/
def State.listRoom (s : State) (a : Nat) : Bool := decide (s.listLen a < 256)

/-- A waiter is admitted. -/
def State.admitWaiter (s : State) (w : Waiter) : State := { s with retry := s.retry ++ [w] }

/-! ## Atomics (R201, R203) -/

/-- The new value of a read-modify-write; `none` writes nothing. -/
def atomNew (op : AtomOp) (w64 : Bool) (old b : BitVec 64) : Option (BitVec 64) × Nat :=
  let w := if w64 then 64 else 32
  let lo := fun (v : BitVec 64) => v.toNat % 2 ^ w
  let sx := fun (v : BitVec 64) => if w64 then v.toInt else (v.truncate 32 : BitVec 32).toInt
  let mk := fun (n : Nat) => some (BitVec.ofNat 64 (n % 2 ^ w))
  match op with
  | .red .add => (mk (lo old + lo b), 0)
  | .red .and => (mk (old &&& b).toNat, 0)
  | .red .or => (mk (old ||| b).toNat, 0)
  | .red .xor => (mk (old ^^^ b).toNat, 0)
  | .red .min => (mk (lo (if sx b < sx old then b else old)), 0)
  | .red .max => (mk (lo (if sx old < sx b then b else old)), 0)
  | .red .minu => (mk (min (lo old) (lo b)), 0)
  | .red .maxu => (mk (max (lo old) (lo b)), 0)
  | .swap => (mk (lo b), 0)
  | .cas e => (if lo old = lo e then mk (lo b) else none, 0)
  | .fadd => let r := fAdd .f32 .rne (old.toNat % 2 ^ 32) (b.toNat % 2 ^ 32)
             (mk r.1, r.2)

/-- An atomic performed on memory: the old value, or `none` on a poisoned word (R199), and the flags of an add. -/
def State.atomicAt (s : State) (world a : Nat) (op : AtomOp) (w64 : Bool) (b : BitVec 64) :
    State × Option (BitVec 64) × Nat :=
  let n := if w64 then 8 else 4
  match s.homeOf a with
  | .page =>
    let old := BitVec.ofNat 64 (leNat (s.readPageBytes a n))
    let r := atomNew op w64 old b
    (match r.1 with
      | some v => s.storePages world a (leBytes n v.toNat) true
      | none => s, some old, r.2)
  | _ =>
    let s := s.checkRead world a n
    if s.isPoisoned a then (s, none, 0)
    else
      let old := BitVec.ofNat 64 (s.readNat world a n)
      let r := atomNew op w64 old b
      (match r.1 with
        | some v => s.store world a (leBytes n v.toNat) none
        | none => s, some old, r.2)

/-! ## Reads and writes that may reach a job-scope address -/

/-- Free bytes: what another package's memory holds (log 6). -/
def State.freeBytes (s : State) : Nat → State × List Byte
  | 0 => (s, [])
  | n + 1 =>
    let r := s.draw
    let q := r.2.freeBytes n
    (q.1, leBytes 8 r.1.toNat ++ q.2)

/-- Reads bytes that lie in one segment, by an engine, a unit, or an instruction as it issues: the state, the bytes, and
poison. What another package's memory holds is free, and so is whether it is poisoned, or the request for it fails, which reads
as poison too (R346; log 6, log 113). -/
def State.readAny (s : State) (world a n : Nat) : State × List Byte × Bool :=
  match s.homeOf a with
  | .job p =>
    if p = s.pkg.toNat then
      match s.admits s.job world (jobPlace a).2 n .rd with
      | some q => s.readSeg world q n
      | none => (s, List.replicate n 0, true)
    else if s.noJob p then (s, List.replicate n 0, true)
    else
      let r := s.freeBytes ((n + 7) / 8)
      let q := r.1.draw
      (q.2, r.2.take n, q.1.getLsbD 0)
  | _ => (s.l1Each [(a, n)] fun s l => s.l1Home none l false).readSeg world a n

/-- The store mode that makes of full-empty bits what an engine's write makes of them. -/
def modeOf (fe : Option Bool) : StMode :=
  match fe with
  | some true => .fill
  | some false => .empty
  | none => .plain

/-- The retry limit of a request to another package that no context has issued. The manual gives none: the model takes what
fe.rlim is at reset (DESIGN CHOICE, log 114). -/
def unitRlim : Nat := 16

/-- Writes bytes that lie in one segment, by an engine or a unit of die `d`; `todo` is what the acknowledgement of another
package does, and `rlim` the retry limit of its command (R65, R346). -/
def State.writeAnyBy (s : State) (todo : AckDo) (d rlim world a : Nat) (bs : List Byte) (fe : Option Bool) : State :=
  match s.homeOf a with
  | .job p =>
    let o := (jobPlace a).2
    if p = s.pkg.toNat then
      match s.admits s.job world o bs.length .wr with
      | some q => s.store world q bs fe
      | none => s
    else if s.noJob p then s
    else s.sendReq d p world o rlim 0 (.store bs.length (BitVec.ofNat 1024 (leNat bs)) (modeOf fe)) todo
  | .page => s.storePages world a bs false
  | _ => (s.l1Each [(a, bs.length)] fun s l => s.l1Home none l true).store world a bs fe

/-- Writes bytes that lie in one segment, by a unit of die `d` that needs no word of a failure. -/
def State.writeAny (s : State) (d world a : Nat) (bs : List Byte) (fe : Option Bool) : State :=
  s.writeAnyBy (.store 0) d unitRlim world a bs fe

/-- Why an engine cannot write `[a, a + n)`: setting words of untagged memory empty (R157), an address of the own package
that no export admits (R345), or one of a package outside the job (R341). -/
def State.writeBar (s : State) (world a n : Nat) (fe : Option Bool) : Option Nat :=
  match s.homeOf a with
  | .job p =>
    if p = s.pkg.toNat then
      match s.admits s.job world (jobPlace a).2 n .wr with
      | some q => if fe == some false && s.untagged q then some causePermission else none
      | none => some causePermission
    else if s.noJob p then some causePermission else none
  | _ => if fe == some false && s.untagged a then some causePermission else none

/-- A status word goes to its sink. A memory sink is written as `ST.fill` writes, by the host's world (R386). -/
def State.sink (s : State) (k : Sink) (v : BitVec 64) : State :=
  match k with
  | .reg t => s.pushFill t.uid (valueFill t.dest v)
  | .mem a =>
    if a % 8 ≠ 0 then s
    else match s.homeOf a with
      | .nowhere => s
      | .page => s.storePages 0 a (leBytes 8 v.toNat) true
      | _ => s.writeAny 0 0 a (leBytes 8 v.toNat) (some true)
  | .nowhere => s

end Sys2Proof.Machine
end

