-- ==== Sys2Proof/Machine/Withdraw.lean ====
section
/-! DEFINITION. Withdrawing nodes of the mapping tree (R143, R144) and what a withdrawal does to waits, monitors,
tasks and views (R143, R206, R120, R326); retiring a space (R151). -/

namespace Sys2Proof.Machine

/-- Stored children of a node. -/
def State.children (s : State) (id : Nat) : List Nat :=
  (s.nodes.filter fun p => p.2.parent == some id).map (·.1)

/-- A node and its live descendants, itself first; a node already cut counts with no one (R145). -/
def State.subtree (s : State) : Nat → Nat → List Nat
  | 0, _ => []
  | fuel + 1, id =>
    match KMap.look s.nodes id with
    | none => []
    | some n => if n.cut then [] else id :: (s.children id).flatMap (s.subtree fuel)

/-- Depth of the tree: nodes lie at depth 0 to 16 (R129). -/
def treeFuel : Nat := 18

/-- Two lists share an element. -/
def meets (xs ys : List Nat) : Bool := xs.any fun x => ys.contains x

/-- Ends a tile task: its done word, if it has one, fills as `ST.fill` writes (R120). A done word that does not
translate is skipped. -/
def State.endTask (s : State) (t : TaskRef) (v : BitVec 64) : State :=
  match KMap.look (s.cluster t.die t.cl).tasks t.k with
  | none => s
  | some k =>
    let s := s.modCluster t.die t.cl fun c => { c with tasks := KMap.del c.tasks t.k }
    let s := { s with retry := s.retry.filter fun w => match w.op with
      | .task r _ => r != t
      | _ => true }
    if k.done = 0 then s
    else match s.resolveGlobal k.world k.space false k.done 8 8 .wr with
      | .error _ => s
      | .ok a => match a.parts with
        | p :: _ => s.writeAny t.die k.world p.1 (leBytes 8 v.toNat) (some true)
        | [] => s

/-- Cancels one wait on a word that a withdrawal has cut (R143). A waiting `ST.wefill` or `STV.wefill` is in none of the rule's
rows: the store is dropped, and no failed store is recorded (DESIGN CHOICE, log 127). -/
def State.cancelWait (s : State) (w : Waiter) : State :=
  match w.op with
  | .load uid dest _ _ _ _ _ acq => (s.acquired uid acq).pushFill uid (poisonFill dest)
  | .store uid acc _ => (s.modCtx uid fun c => { c with sbuf := dropAdmitted acc c.sbuf }).reap uid
  | .susp uid => s.modCtx uid fun c =>
      let a := match c.wait with
        | .word a => BitVec.ofNat 64 (a.toNat / 8 * 8)
        | _ => BitVec.ofNat 64 w.word
      { c with wait := .none, pendFault := some (BitVec.ofNat 8 causeUnmapped, a) }
  | .paused .. => s
  | .task t _ => s.endTask t (errWord 9)
  | .remote pkg die seq _ _ | .remoteLoad pkg die seq _ _ => s.answer pkg die seq .refused

/-- Cancels the waits on cut words. -/
def State.cancelWaits (s : State) (ids : List Nat) : State :=
  let hit := s.retry.filter fun w => meets w.nodes ids
  hit.foldl (fun s w => s.cancelWait w) { s with retry := s.retry.filter fun w => !(meets w.nodes ids) }

/-- A node has been cut. -/
def State.nodeCut (s : State) (id : Nat) : Bool :=
  match KMap.look s.nodes id with
  | some n => n.cut
  | none => false

/-- Cancels the wait of a synchronising access at another package, whose memory hears of it (R143; log 110): a load fills with
poison, a `SUSPEND` makes its continuation faulted. -/
def State.cancelFar (s : State) (d h : Nat) (o : Outst) : State :=
  let s := s.unwait d h
  match o.todo with
  | .sync uid (some r) _ acq _ => s.pushFill uid { poisonFill r with acq := acq }
  | .sync uid none acc _ _ => (s.modCtx uid fun c => match c.state, c.wait with
      | .suspended, .word _ =>
        { c with wait := .none, pendFault := some (BitVec.ofNat 8 causeUnmapped, BitVec.ofNat 64 (acc.va / 8 * 8)) }
      | _, _ => c).reap uid
  | _ => s

/-- The admitted waits of synchronising accesses at other packages that a test picks. -/
def State.farWaits (s : State) (f : Outst → Bool) : List (Nat × Nat × Outst) :=
  s.dies.flatMap fun d => (d.2.ni.outst.filter fun o => o.2.admitted && f o.2).map fun o => (d.1, o.1, o.2)

/-- Cancels the waits at other packages that a withdrawal of nodes cuts (R143). -/
def State.cancelFars (s : State) (ids : List Nat) : State :=
  (s.farWaits fun o => match o.todo with
    | .sync _ _ acc _ _ => meets acc.nodes ids
    | _ => false).foldl (fun (s : State) q => s.cancelFar q.1 q.2.1 q.2.2) s

/-- A monitor entry is cut in a cycle of its die: its wait ends with withdrawn (R206). -/
def Mon.withdrawn (m : Mon) (now : Nat) : Mon :=
  if m.ended.isNone then { m with ended := some (errWord 0x19), endedAt := now } else m

/-- A monitor entry after a withdrawal of nodes. -/
def cutMonitor (ids : List Nat) (now : Nat) (m : Mon) : Mon := if meets m.nodes ids then m.withdrawn now else m

/-- Ends the monitor waits on cut words with withdrawn (R206, R208). -/
def State.cutMonitors (s : State) (ids : List Nat) : State :=
  { s with dies := KMap.mapVals s.dies fun _ d =>
      { d with monitors := KMap.mapVals d.monitors fun _ m => cutMonitor ids d.cyc m } }

/-- A view faults with a cause (R326). -/
def View.fail (v : View) (cause : Nat) : View :=
  if v.faulted then v else { v with faulted := true, cause := BitVec.ofNat 8 cause, fails := v.fails + 1 }

/-- The view that a `VWSYNC` waits on has faulted. -/
def State.syncFaulted (s : State) (v : VSync) : Bool :=
  match KMap.look s.masters (v.world * 256 + v.master) with
  | none => false
  | some m => match KMap.look m.views v.view with
    | some w => w.serial == v.serial && w.faulted
    | none => false

/-- Fills with view_faulted every `VWSYNC` on a view that has faulted (R326, R333). -/
def State.endFaulted (s : State) : State :=
  let hit := s.vsyncs.filter s.syncFaulted
  let s := { s with vsyncs := s.vsyncs.filter fun v => !(s.syncFaulted v) }
  hit.foldl (fun (s : State) v => (s.acquired v.uid v.acq).pushFill v.uid (valueFill v.dest (errWord 0x56))) s

/-- Every view of a master on cut nodes is faulted with unmapped, and the `VWSYNC`s on them end (R326). -/
def State.cutMasters (s : State) (ids : List Nat) : State :=
  ({ s with masters := KMap.mapVals s.masters fun _ m =>
      if meets m.nodes ids then { m with views := KMap.mapVals m.views fun _ v => v.fail causeUnmapped } else m } :
    State).endFaulted

/-- The withdrawal instant of nodes: they are cut, and what waits on them ends (R143). A migration whose source is cut
switches nothing (R148). -/
def State.cutNodes (s : State) (ids : List Nat) : State :=
  let s := { s with
    nodes := KMap.mapVals s.nodes fun id n => if ids.contains id then { n with cut := true, gen := n.gen + 1 } else n
    moves := s.moves.map fun (m : Move) => if !m.ended && meets m.nodes ids then { m with cut := true } else m }
  (((s.cancelWaits ids).cancelFars ids).cutMonitors ids).cutMasters ids

/-- An access of a context already translated through one of the nodes is still in flight (R143). -/
def Context.inFlight (c : Context) (ids : List Nat) : Bool :=
  (c.sbuf.any fun e => meets e.acc.nodes ids) || c.fills.any fun f => match f.src with
    | .load a | .feget a | .atom a _ _ _ | .evid _ a _ => meets a.nodes ids
    | _ => false

/-- The memory behind nodes. -/
def State.backOf (s : State) (ids : List Nat) : List (Nat × Nat) :=
  ids.flatMap fun k => match KMap.look s.nodes k with
    | some n => n.back
    | none => []

/-- A request to another package is an access translated through nodes with some memory behind them: a load or a
synchronising access by its path, a store by its place, which is all that is left of it. -/
def Outst.through (o : Outst) (ids : List Nat) (parts : List (Nat × Nat)) : Bool :=
  match o.todo with
  | .fill _ _ a _ _ | .sync _ _ a _ _ => meets a.nodes ids
  | .store _ | .copy _ | .post _ | .quant => partsMeet [(jobBase + o.pkg * 2 ^ 33 + o.req.off, 128)] parts
  | .monitor _ | .message _ | .notice _ => false

/-- Every access already translated through nodes, with some memory behind them, is complete. -/
def State.settled (s : State) (ids : List Nat) (parts : List (Nat × Nat)) : Bool :=
  (s.ctxs.all fun p => !(p.2.inFlight ids)) && s.dies.all fun d => d.2.ni.outst.all fun o => !(o.2.through ids parts)

/-- Frees nodes: they leave their spaces' limits, and granted root pieces return (R129, R144). -/
def State.freeNodes (s : State) (ids : List Nat) : State :=
  { s with nodes := KMap.select s.nodes fun id _ => !(ids.contains id) }

/-- The success status of a withdrawal (R144): the shootdown time is a free value of at most 2,000. -/
def walkStatus (nodes : Nat) (shoot : BitVec 64) : BitVec 64 :=
  BitVec.ofNat 64 (shoot.toNat % 2001 * 2 ^ 44 + 8 * nodes % 2 ^ 24 * 2 ^ 20 + nodes % 2 ^ 20)

/-- Starts the withdrawal of nodes whose status goes to a sink; `retire` names a space that it retires. -/
def State.startWalk (s : State) (ids : List Nat) (k : Sink) (retire : Option Nat) : State :=
  let s := s.cutNodes ids
  { s with walks := s.walks ++ [{ sink := k, nodes := ids, retire := retire }] }

/-- Live nodes of a space, as the roots of what its retirement withdraws. -/
def State.spaceNodes (s : State) (sp : Nat) : List Nat :=
  ((s.nodes.filter fun p => p.2.space == sp && !p.2.cut).flatMap fun p => s.subtree treeFuel p.1).dedup

/-- A space stops being live: spaces that it created get its creator (R151). -/
def State.dropSpace (s : State) (sp : Nat) : State :=
  match KMap.look s.spaces sp with
  | none => s
  | some x => { s with spaces := KMap.mapVals (KMap.del s.spaces sp) fun _ y =>
      if y.creator = sp then { y with creator := x.creator } else y }

end Sys2Proof.Machine
end

