-- ==== Sys2Proof/Machine/Teardown.lean ====
section
/-! DEFINITION. The stop instant of a world's teardown (R402, R403): its contexts retire, its queues and units are
freed. What follows it is the meaning of TEARDOWN_REPORT (R404). -/

namespace Sys2Proof.Machine

/-- The world is being torn down. -/
def State.torn (s : State) (w : Nat) : Bool :=
  match KMap.look s.worlds w with
  | some x => x.tear.isSome
  | none => false

/-- Handles of the contexts of a world. -/
def State.worldCtxs (s : State) (w : Nat) : List Nat := (s.ctxs.filter fun p => p.2.world == w).map (·.1)

/-- Launches of a world. -/
def State.worldLaunches (s : State) (w : Nat) : List Nat := (s.launches.filter fun p => p.2.world == w).map (·.1)

/-- Regions of a world's launches. -/
def State.worldRegions (s : State) (w : Nat) : List Nat :=
  ((s.launches.filter fun p => p.2.world == w).map fun p => p.2.region).dedup

/-- A continuation of a torn world takes state retired, without resuming (R79); a failure to write its record is
skipped. -/
def State.retireRecords (s : State) (uids : List Nat) : State :=
  uids.foldl (fun s u => ((s.modCtx u fun c => { c with state := .retired }).writeRecord u).1) s

/-- The parts of a core that belong to a world's contexts and launches are emptied. -/
def dropCore (w : Nat) (uids lids : List Nat) (k : Core) : Core :=
  { k with
    slots := KMap.select k.slots fun _ u => !(uids.contains u)
    queue := k.queue.filter fun m => m.world != w
    landq := k.landq.filter fun q => !(lids.contains q.1)
    vec := k.vec.filter fun v => v.world != w
    mat := if (match k.mat.owner with
        | some o => uids.contains o
        | none => false) then k.mat.released.drop fun m => m.world == w
      else k.mat.drop fun m => m.world == w
    cpy := { k.cpy with
      queue := k.cpy.queue.filter fun q => q.world != w
      sched := k.cpy.sched.filter fun q => q.world != w
      run := match k.cpy.run with
        | some r => if r.cmd.world = w then none else some r
        | none => none } }

/-- The first live launch that selects every core of the die (R225). -/
def State.wireLaunch (s : State) (d : Nat) : Option (Nat × Nat) :=
  s.launches.foldl (fun best p =>
    if p.2.stage != .opening && p.2.dies.getLsbD d && p.2.clusters == BitVec.allOnes 16
        && p.2.cores == BitVec.allOnes 16 && !(s.torn p.2.world) then
      match best with
      | some b => match s.launch? b.2 with
        | some l => if p.2.order < l.order then some (p.2.world, p.1) else best
        | none => some (p.2.world, p.1)
      | none => some (p.2.world, p.1)
    else best) none

/-- Clears the barrier wires of a die: every arrival and epoch (R225). -/
def State.clearWires (s : State) (d : Nat) : State :=
  let s := s.modDie d fun k => { k with wires := none, bwWaits := [] }
  (List.range 256).foldl (fun (s : State) c =>
    if (s.core d c).lanes.isEmpty then s else s.modCore d c fun k => { k with lanes := [] }) s

/-- The wires of a die go to the first live launch that selects all of it, when they belong to none (R225). -/
def State.giveWires (s : State) (d : Nat) : State :=
  if (s.die d).wires.isSome then s
  else match s.wireLaunch d with
    | some p => s.modDie d fun k => { k with wires := some p }
    | none => s

/-- The parts of a die that belong to a world are freed (R208, R220, R231, R337, R359). -/
def dropDie (w : Nat) (k : Die) : Die :=
  let gone := (k.phasers.filter fun p => p.2.world == w).map (·.1)
  { k with
    monitors := KMap.select k.monitors fun _ m => m.world != w
    phasers := KMap.select k.phasers fun _ p => p.world != w
    members := KMap.select k.members fun _ m => !(gone.contains m.phaser)
    nb := k.nb.filter fun n => n.world != w
    refresh := k.refresh.filter fun r => r.world != w
    quant := k.quant.filter fun q => q.world != w
    ni := { k.ni with
      posts := KMap.select k.ni.posts fun _ p => p.world != w
      sends := KMap.select k.ni.sends fun _ p => p.world != w
      rts := k.ni.rts.filter fun r => r.world.toNat != w
      tokens := k.ni.tokens.filter fun t => match KMap.look k.ni.posts t.post with
        | some p => p.world != w
        | none => false
      ended := k.ni.ended.filter fun e => e.world != w } }

/-- The parts of a cluster that belong to a world are freed. -/
def dropCluster (w : Nat) (regs : List Nat) (k : Cluster) : Cluster :=
  { k with tasks := KMap.select k.tasks fun _ t => t.world != w
           pre := k.pre.filter fun q => !(regs.contains q.region) }

/-- Drop notices to the senders of a world's matched posts on other packages (R359); those of this package are of the
same world, and go with it. -/
def State.dropNotices (s : State) (w : Nat) : State :=
  (s.dies.flatMap fun d => d.2.ni.posts).foldl (fun s p =>
    if p.2.world = w then
      match p.2.hit with
      | some h => if h.pkg = s.pkg then s else s.emit (.drop h.pkg.toNat h.die.val (.send h.sendId))
      | none => s
    else s) s

/-- The stop instant (R403). A world whose teardown has begun is not stopped again. -/
def State.stopWorld (s : State) (w : Nat) (kind : TearKind) (cause : Nat) : State :=
  if !(KMap.has s.worlds w) || s.torn w then s
  else
    let uids := s.worldCtxs w
    let lids := s.worldLaunches w
    let regs := s.worldRegions w
    let s := s.dropNotices w
    let s := { s with worlds := KMap.modify s.worlds w fun x => { x with tear := some (kind, BitVec.ofNat 8 cause) } }
    let s := s.retireRecords uids
    let wired := (List.range 8).filter fun d => match (s.die d).wires with
      | some q => q.1 == w
      | none => false
    let far := s.farWaits fun o => o.req.world.toNat == w
    let s := far.foldl (fun (s : State) q => s.unwait q.1 q.2.1) s
    let deaf := s.remoteMons.filter fun m => m.world == w
    let lost := (s.net.filter fun m => m.world == w).filterMap fun m => m.remote
    let s := { s with
      ctxs := KMap.select s.ctxs fun _ c => c.world != w
      cores := KMap.mapD s.cores Core.empty (dropCore w uids lids)
      dies := KMap.mapD s.dies Die.empty (dropDie w)
      net := s.net.filter fun m => m.world != w
      retry := s.retry.filter fun x => x.world != w || (match x.op with
        | .remote .. | .remoteLoad .. => true
        | _ => false)
      remoteMons := s.remoteMons.filter fun m => m.world != w
      launchMsgs := s.launchMsgs.filter fun m => match m.sink with
        | .reg t => !(uids.contains t.uid)
        | _ => true
      restarts := s.restarts.filter fun r => !(regs.contains r.region)
      scheds := KMap.select s.scheds fun l _ => !(lids.contains l)
      masters := KMap.select s.masters fun k _ => k / 256 != w
      vsyncs := s.vsyncs.filter fun v => v.world != w
      savedMat := KMap.select s.savedMat fun u _ => !(uids.contains u)
      savedCpy := s.savedCpy.filter fun q => q.2.world != w
      savedVec := s.savedVec.filter fun v => v.world != w
      clusters := KMap.mapD s.clusters Cluster.empty (dropCluster w regs) }
    let s := deaf.foldl (fun (s : State) m => s.answer m.pkg m.die m.seq .refused) s
    let s := lost.foldl (fun (s : State) r => s.answer r.1 r.2.1 r.2.2 (.performed ((errWord 2).setWidth 1024))) s
    wired.foldl (fun s d => (s.clearWires d).giveWires d) s

/-- Retires the spaces bound to the regions of a world's live launches (R151; DESIGN CHOICE, log 122): the manual does not say
whether regions of launches that have completed count. Their reports have been written, which are addresses of these spaces
(R109, R405; log 123). -/
def State.retireSpaces (s : State) (w : Nat) : State :=
  let regs := s.worldRegions w
  (s.spaces.filter fun p => regs.contains p.2.region).foldl (fun s p =>
    (s.dropSpace p.1).startWalk (s.spaceNodes p.1) .nowhere (some p.1)) s

end Sys2Proof.Machine
end

