-- ==== Sys2Proof/Machine/Ops.lean ====
section
/-! DEFINITION. Named operations that many meanings share: leaving a slot (R61, R421), converting a handler (R94),
taking a fault (R89) and returning from one (R97, R99), ending a context (R96), landing packets that fault (R88),
engine addresses, and how an instruction issues (R37, R54, R55). -/

namespace Sys2Proof.Machine

/-- Outcome of a step. -/
abbrev Out := Host.Outcome State Fault Refusal

/-! ## Messages of the part (R89) -/

/-- Puts a message on its way; it reaches its core in the present cycle. -/
def State.post (s : State) (m : Msg) : State := { s with net := s.net ++ [m] }

/-- Header word of a received message (R83). -/
def msgHeader (chan : Nat) (line sendh : Bool) (core die pkg : Nat) : BitVec 64 :=
  BitVec.ofNat 64 (chan % 64 + bit line * 64 + bit sendh * 128 + core % 256 * 256 + die % 8 * 2 ^ 16
    + pkg % 2 ^ 14 * 2 ^ 19)

/-- A message that the part generates: channel 62 or 63, with a line payload. -/
def partMsg (chan : Nat) (d : DieNo) (c : CoreNo) (world lid : Nat) (item header : BitVec 64)
    (payload : List (BitVec 64)) (task : Option TaskRef) (since : Nat) : Msg :=
  { chan := chan, die := d, core := c, world := world, lid := lid, item := item, header := header,
    payload := payload, hpc := none, gen := true, status := none, remote := none, sender := 0, task := task,
    since := since, table := none }

/-- Word 3 of a fault message (R89). -/
def faultWord (cause op : BitVec 8) (slot core die pkg : Nat) : BitVec 64 :=
  BitVec.ofNat 64 (cause.toNat + op.toNat * 256 + slot % 8 * 2 ^ 16 + core % 256 * 2 ^ 24 + die % 8 * 2 ^ 32
    + pkg % 2 ^ 14 * 2 ^ 35)

/-- Sends the channel 62 message of a faulted context to the fault core of its region (R89). -/
def State.sendFault (s : State) (c : Context) (slot cxid : Nat) : State :=
  match s.region? c.region with
  | none => s
  | some g =>
    s.post (partMsg 62 g.fdie g.fcore c.world c.lid c.item (msgHeader 62 true false c.core.val c.die.val s.pkg.toNat)
      [BitVec.ofNat 64 cxid, c.trapPc, c.trapAddr, faultWord c.cause c.causeOp slot c.core.val c.die.val s.pkg.toNat,
       c.flags.setWidth 64, BitVec.ofNat 64 c.region, 0, 0] none (s.cyc g.fdie.val))

/-! ## Leaving a slot -/

/-- A context gives up its slot: the core forgets the slot's issue history. -/
def State.vacate (s : State) (uid : Nat) : State :=
  match s.ctx? uid with
  | none => s
  | some c => match c.slot with
    | none => s
    | some n =>
      let s := (s.settle c.region).unpauseAll uid (· == .issue)
      let s := s.modCore c.die.val c.core.val fun k =>
        { k with slots := KMap.del k.slots n.val, passed := KMap.del k.passed n.val,
                 starved := k.starved.filter (· != n) }
      s.modCtx uid fun c => { c with slot := none, why := none, stepped := none, began := none, skip := false,
                                     stallTo := 0, vwGen := none }

/-- The control line of a context out of its slot as software may have edited it (R61): read from memory when no copy
is resident. -/
def State.controlNow (s : State) (c : Context) : Context :=
  if KMap.has c.lines 72 || c.virgin.getLsbD 72 then c
  else match s.imageLine c 72 .rd with
    | .ok ps => c.takeControl (leNat (s.readOver c.world ps))
    | .error _ => c

/-- What a context becomes when its dirty lines are written back (R61, R421): the state, the context, and whether the
control line could be kept. Registers of a line that failed take value zero and poison. A control line that is not
resident stays as its image holds it. -/
def State.saveLines (s : State) (c : Context) : State × Context × Bool :=
  let ds := c.dirtyLines.filter (· != 72)
  let r := s.writeBackAll c ds
  let bad := r.2.map (·.1)
  if bad.isEmpty && !(KMap.has c.lines 72) then (r.1, c.releaseLines ds [], true)
  else
  let c := bad.foldl (fun (c : Context) n => c.poisonRegs n) (s.controlNow c)
  let c := match r.2 with
    | [] => c
    | (n, cause, _) :: _ =>
      let a := BitVec.ofNat 64 (c.image + 64 * n)
      if c.state = .faulted then { c with trapAddr := a }
      else { c with state := .faulted, cause := BitVec.ofNat 8 cause, causeOp := 0, trapPc := c.pc, trapAddr := a }
  if !c.ctlDirty then (r.1, c.releaseLines ds bad, true)
  else match r.1.writeBack c 72 with
  | .error _ => (r.1, c, false)
  | .ok s => (s, c.releaseLines (ds ++ [72]) bad, true)

/-- Takes state faulted because of a fault met at a change of state (R104); its control line is written again. -/
def State.faultNow (s : State) (uid cause addr : Nat) : State × Bool :=
  match s.ctx? uid with
  | none => (s, true)
  | some c =>
    let c := { s.controlNow c with state := .faulted, cause := BitVec.ofNat 8 cause, causeOp := 0, trapPc := c.pc,
                                   trapAddr := BitVec.ofNat 64 addr, queued := none, wait := .none }
    match s.writeBack c 72 with
    | .error _ => (s.setCtx uid c, false)
    | .ok s => (s.setCtx uid (c.cleanLine 72), true)

/-- Applies the account's charges (R106) and writes the record at a change of state; a failure faults the continuation (R104), and a control line that cannot
be kept tears its world down (R421). A continuation that is or becomes faulted has its message sent. -/
def State.changed (s : State) (uid slot : Nat) : State :=
  match s.ctx? uid with
  | none => s
  | some c0 =>
    let r := (s.settle c0.region).writeRecord uid
    let q := match r.2 with
      | none => (r.1, true)
      | some e => if c0.state == CxState.faulted || c0.state == CxState.retired then (r.1, true) else r.1.faultNow uid e.1 e.2
    if q.2 then
      match q.1.ctx? uid with
      | some c => if c.state == CxState.faulted then q.1.sendFault c slot c.cxid else q.1
      | none => q.1
    else q.1.stopWorld c0.world .controlLine c0.cause.toNat

/-- A free continuation leaves its slot for state suspended or faulted (R61), its state already set. -/
def State.leaveSaved (s : State) (uid : Nat) : State :=
  match s.ctx? uid with
  | none => s
  | some c =>
    let slot := match c.slot with
      | some n => n.val
      | none => 0
    let s := s.vacate uid
    match s.ctx? uid with
    | none => s
    | some c =>
      let r := s.saveLines c
      let s := r.1.setCtx uid r.2.1
      if r.2.2 then s.changed uid slot else s.stopWorld c.world .controlLine c.cause.toNat

/-- A free continuation leaves its slot for state ready: its lines become evictable (R60). -/
def State.leaveReady (s : State) (uid : Nat) : State :=
  match s.ctx? uid with
  | none => s
  | some c =>
    let slot := match c.slot with
      | some n => n.val
      | none => 0
    let s := s.vacate uid
    let s := s.modCtx uid fun c =>
      { c with state := .ready, wait := .none, lines := KMap.mapVals c.lines fun _ l => { l with evict := true } }
    s.changed uid slot

/-! ## Ending a context (R96) -/

/-- Ends a context: its slot is freed, a free continuation takes state retired, its stores drain on. -/
def State.endContext (s : State) (uid : Nat) : State :=
  let s := s.vacate uid
  let s := s.modCtx uid fun c => { c with state := .retired, lines := [], queued := none, failed := [],
                                          xPend := 0, vPend := 0, pPend := 0 }
  let s := (s.writeRecord uid).1
  s.reap uid

/-! ## Converting a handler (R94) -/

/-- A pinned handler becomes a free continuation in a slot of the arena, with its region's priority (R78); `none` when no
record is free. -/
def State.convert (s : State) (uid : Nat) : Option State :=
  match s.ctx? uid with
  | none => none
  | some c => match s.region? c.region, s.freeRecord c.region c.space with
    | some g, some k =>
      let p := g.slotAt k
      some (s.modCtx uid fun c =>
        { c with kind := .free, origin := .converted, record := p.1, image := p.2, pri := g.pri, state := .running })
    | _, _ => none

/-- The context is a pinned handler that has not suspended (R80). -/
def Context.isPinned (c : Context) : Bool := c.record == 0

/-! ## Engine addresses (R300) -/

/-- Memory of bytes within one line for an engine: mode, space, region and issuing core. -/
def State.engineAddr (s : State) (world space region d c : Nat) (mode : MemMode) (a n : Nat) (need : Need) :
    Except Nat (List (Nat × Nat)) :=
  match mode with
  | .global => match s.translate space a n with
    | none => .error causeUnmapped
    | some t =>
      if need.okFor t.rights && t.parts.all fun p => s.allowed world p.1 p.2 need false then .ok t.parts
      else .error causePermission
  | _ =>
    let p := localPlace mode (indexOf c) a
    let q := localPhys d c p.1 p.2
    match s.granuleFault region q with
    | some e => .error e
    | none => if s.allowed world q n need false then .ok [(q, n)] else .error causePermission

/-- Writes poison over memory that an engine would have written, and serves the waits on it (R306). A job-scope address of
the own package leads to its memory (R345); to that of another package a request of the engine's die goes (R346). -/
def State.poisonOver (s : State) (d rlim world : Nat) (ps : List (Nat × Nat)) (fe : Option Bool) : State :=
  ps.foldl (fun (s : State) q =>
    let p := s.place world q
    match s.homeOf p.1 with
    | .job k =>
      if k = s.pkg.toNat || s.noJob k then s
      else s.sendReq d k world (jobPlace p.1).2 rlim 0 (.poison p.2 (modeOf fe)) (.store 0)
    | _ => (s.poisonAt world p.1 p.2 fe).serve (p.1 / 64 * 64) ((p.1 + p.2 + 63) / 64 * 64 - p.1 / 64 * 64)) s

/-- Status code of a failed engine address (R305). -/
def copyCode (cause : Nat) : Nat := if cause = causeUnmapped then 0x41 else 0x42

/-! ## Posts and sends (R356 to R363) -/

/-- Keeps the record of an ended send or post; at most 1,024, the oldest dropped (R363). -/
def keepEnded (l : List Ended) (e : Ended) : List Ended :=
  let l := (l.filter fun x => !(x.world == e.world && x.addr == e.addr)) ++ [e]
  l.drop (l.length - 1024)

/-- A status word that fills after a register of another context has filled (R363). -/
def afterFill (dest : AnyReg) (first : Nat × AnyReg) (v : BitVec 64) : Fill :=
  { valueFill dest 0 with src := .following first.1 first.2 v }

/-- Package and die that a bulk descriptor names (R354, R355). -/
def blPkg (n : Nat) : Nat := bits n 319 306
def bsDie (n : Nat) : Nat := bits n 305 303

/-- The name by which a sender's notice names the post that its send is matched with: the send, its package and die. -/
def sendName (pkg die id : Nat) : Nat := (id * 2 ^ 14 + pkg) * 8 + die

/-- The post that a send is matched with. -/
def State.postNamed (s : State) (d name : Nat) : Option Nat :=
  ((s.die d).ni.posts.find? fun p => match p.2.hit with
    | some h => sendName h.pkg.toNat h.die.val h.sendId == name
    | none => false).map (·.1)

/-- The post of this package that a send is matched with. -/
def State.postOf (s : State) (d id : Nat) (p : Send) : Option Match :=
  let n := p.desc.toNat
  if blPkg n = s.pkg.toNat then
    ((s.postNamed (bsDie n) (sendName s.pkg.toNat d (8 * id + d))).bind fun k =>
      KMap.look (s.die (bsDie n)).ni.posts k).bind (·.hit)
  else none

/-- Bytes of a live send that its receiver has written in order (R363). On another package that is not known: it is free, up to
what has been sent (log 121). -/
def State.sendBytes (s : State) (d id : Nat) (p : Send) : Nat × State :=
  if blPkg p.desc.toNat = s.pkg.toNat then (((s.postOf d id p).map (·.bytes)).getD 0, s)
  else
    let q := s.draw
    (q.1.toNat % (p.sent + 1), q.2)

/-- Ends a send: its status fills and its record is kept, with its byte count. A `BCANCEL` that waits for its end fills after
it: 0 when it was cancelled, else not_found (R363). -/
def State.endSendWith (s : State) (d id : Nat) (v : BitVec 64) (ok : Bool) (bytes : Nat) : State :=
  match KMap.look (s.die d).ni.sends id with
  | none => s
  | some p =>
    let s := s.modNi d fun n =>
      { n with sends := KMap.del n.sends id,
               ended := keepEnded n.ended { world := p.world, addr := p.addr, state := if ok then 3 else 4, lapses := 0,
                                            bytes := bytes } }
    let s := s.pushFill p.uid (valueFill p.dest v)
    match p.cancel with
    | some t => s.pushFill t.uid (afterFill t.dest (p.uid, p.dest) (if v = errWord 0x65 then 0 else errWord 0x68))
    | none => s

/-- Ends a send. The receiver has told how much of one that ended whole or truncated it wrote. -/
def State.endSend (s : State) (d id : Nat) (v : BitVec 64) (ok : Bool) : State :=
  match KMap.look (s.die d).ni.sends id with
  | none => s
  | some p =>
    let q := if ok || v = errWord 0x66 then (p.sent, s) else s.sendBytes d id p
    q.2.endSendWith d id v ok q.1

/-- The sender of a matched send hears that it has been dropped, or cancelled (R357, R363): on this package at once. -/
def State.tellSender (s : State) (h : Match) (cancel : Bool) : State :=
  if h.pkg = s.pkg then s.endSendWith h.die.val (h.sendId / 8) (errWord (if cancel then 0x65 else 0x64)) false h.bytes
  else if cancel then s.emit (.cancel h.pkg.toNat h.die.val (.send h.sendId))
  else s.emit (.drop h.pkg.toNat h.die.val (.send h.sendId))

/-- Ends a post: its status fills, its tokens are revoked, its record is kept. `tell` sends a drop notice to a matched
sender. -/
def State.endPost (s : State) (d id : Nat) (v : BitVec 64) (ok tell : Bool) : State :=
  match KMap.look (s.die d).ni.posts id with
  | none => s
  | some p =>
    let bytes := match p.hit with
      | some h => h.bytes
      | none => 0
    let s := s.modNi d fun n =>
      { n with posts := KMap.del n.posts id, tokens := n.tokens.filter fun t => t.post != id,
               ended := keepEnded n.ended { world := p.world, addr := p.addr, state := if ok then 3 else 4,
                                            lapses := match p.hit with
                                              | some h => h.lapses
                                              | none => 0
                                            bytes := bytes } }
    let s := match p.hit with
      | some h => if tell then s.tellSender h false else s
      | none => s
    s.pushFill p.uid (valueFill p.dest v)

/-! ## Landing handlers that fault (R88, R307, R359) -/

/-- Mode codes of a descriptor. -/
def modeOfCode (n : Nat) : MemMode := MemMode.ofCode n

/-- The packet of a landing handler that faulted: its destination lines are written with poison, and its command or
post ends with landing_fault. -/
def State.landingFault (s : State) (c : Context) (l : Landing) : State :=
  match l with
  | .copy d k num dest len _ =>
    match (s.core d k).cpy.run with
    | none => s
    | some r =>
      if r.num != num || !r.landing then s
      else
      let mode := modeOfCode (bits r.cmd.desc.toNat 12 11)
      let s := (splitLines [(dest, len)]).foldl (fun (s : State) q =>
        match s.engineAddr r.cmd.world r.cmd.space r.cmd.region d k mode q.1 q.2 .wr with
        | .ok ps => s.poisonOver d r.cmd.rlim r.cmd.world ps (feOf (bits r.cmd.desc.toNat 23 22))
        | .error _ => s) s
      s.modCore d k fun x => { x with cpy := { x.cpy with run := x.cpy.run.map fun r =>
        { r with landing := false, ended := some (0x45, r.cmd.offset) } } }
  | .bulk d post _ _ dest len _ =>
    let s := (splitLines [(dest, len)]).foldl (fun (s : State) q =>
      match s.engineAddr c.world c.space c.region d 0 .global q.1 q.2 .wr with
      | .ok ps =>
        s.poisonOver d (((KMap.look (s.die d).ni.posts post).map (·.rlim)).getD unitRlim) c.world ps (some true)
      | .error _ => s) s
    s.endPost d post (errWord 0x45) false true

/-! ## Taking a fault (R89) and returning from one (R97, R99) -/

/-- A faulting continuation no longer waits in a retry list for the word of its `SUSPEND` (R94). -/
def State.endWordWait (s : State) (uid : Nat) (c : Context) : State :=
  match c.wait with
  | .word _ =>
    let s := { s with retry := s.retry.filter fun w => match w.op with
      | .susp u => u != uid
      | _ => true }
    (s.farWaits fun o => match o.todo with
      | .sync u none _ _ _ => u == uid
      | _ => false).foldl (fun (s : State) q => s.unwait q.1 q.2.1) s
  | _ => s

/-- A precise fault of a context, raised by the instruction with opcode `op`. The context becomes a faulted
continuation: a pinned handler is converted first, or ended with cxid 0 when no record is free; a landing handler is
ended; in slot 7 the world is torn down (R402). trap_pc is `tpc`. Where the context stood past the end of a block with
code_end set and faults for another reason, it stands there still when it is resumed at that PC (R31). A `TRAP n` or a breaking
`DBGBRK` in slot 4 of such a block, whose resume PC is the successor, has not stepped past it: the model goes on there without
illegal_instruction (DESIGN CHOICE, log 130). -/
def State.takeFault (s : State) (uid op cause addr : Nat) (tpc : BitVec 64) : State :=
  match s.ctx? uid with
  | none => s
  | some c =>
    if c.slot = some 7 then s.stopWorld c.world .slot7 cause
    else
      let s := s.endWordWait uid c
      let s := s.modCtx uid fun c =>
        { c with trapPc := tpc, trapAddr := BitVec.ofNat 64 addr, cause := BitVec.ofNat 8 cause,
                 causeOp := BitVec.ofNat 8 op, wait := .none, pendFault := none, refusals := none, retryAt := 0, vwGen := none, pc := tpc,
                 pastEnd := c.pastEnd && tpc == c.pc }
      let slot := match c.slot with
        | some n => n.val
        | none => 0
      let ended := fun (s : State) =>
        let s := match s.ctx? uid with
          | some c => s.sendFault c slot 0
          | none => s
        s.endContext uid
      match c.landing with
      | some l => ended (s.landingFault c l)
      | none =>
        if c.isPinned then
          match s.convert uid with
          | some s => (s.modCtx uid fun c => { c with state := .faulted }).leaveSaved uid
          | none => ended s
        else (s.modCtx uid fun c => { c with state := .faulted, queued := none, wait := .none }).leaveSaved uid

/-- PC at which a faulted continuation resumes (R97): after a software trap its successor, else the instruction
again. -/
def resumePc (cause : BitVec 8) (tpc : BitVec 64) : BitVec 64 :=
  if 0x20 ≤ cause.toNat ∧ cause.toNat < 0x40 then succPc tpc else tpc

/-- A faulted continuation returns from its fault (R99): ready, at its resume PC, in the queue of the cluster that last
ran it. R32 names `TRET` among the transfers of control, and R99 gives it no fault of its own: a resume PC that is
misaligned is reported when the continuation is resumed, on the fault channel, and `TRET` fills 0 (DESIGN CHOICE, log 80). -/
def State.returnFrom (s : State) (uid : Nat) : State :=
  match s.ctx? uid with
  | none => s
  | some c =>
    let k := s.controlNow c
    let pc := resumePc k.cause k.trapPc
    let s := s.setCtx uid { c with pc := pc, state := .ready, wait := .none, pastEnd := c.pastEnd && pc == c.pc }
    let s := s.changed uid 0
    match s.ctx? uid with
    | some c => if c.state = .ready then s.requeue uid else s
    | none => s

/-! ## How an instruction issues (R37, R54 to R56) -/

/-- What the body of an instruction answers. -/
inductive Res where
  /-- it has issued, with this state -/
  | done (s : State)
  /-- it does not issue yet -/
  | wait
  /-- it does not retire, but the state changes: an access refused, or one that waits where it is -/
  | hold (s : State)
  /-- it faults: cause and trap_addr -/
  | trap (cause addr : Nat)
  /-- it faults, reporting another trap_pc than its own (R412) -/
  | trapAt (cause addr : Nat) (tpc : BitVec 64)

/-- A register source: the register, and bit [18] of its field (R54). -/
structure Src where
  reg  : AnyReg
  bang : Bool

/-- Lines of the registers named, without x0. -/
def namedLines (rs : List AnyReg) : List Nat :=
  (rs.flatMap fun r => match r with
    | .x i => if i.val = 0 then [] else regLines r
    | .p _ => []
    | .v _ => regLines r).dedup

/-- Marks why a context did not issue. -/
def State.blocked (s : State) (uid : Nat) (w : Why) : State := s.modCtx uid fun c => { c with why := some w }

/-- What the issue of an instruction leaves in its context: hints (R38), the line uses (R59), the retired PC (R411). -/
def State.retired (s : State) (uid : Nat) (ctl : Ctl) (pc : BitVec 64) (rd wr : List Nat) : State :=
  match s.ctx? uid with
  | none => s
  | some c =>
    let now := s.cyc c.die.val
    let u := (s.core c.die.val c.core.val).uses
    let s := s.modCore c.die.val c.core.val fun k => { k with uses := k.uses + 1 }
    s.modCtx uid fun c =>
      if c.slot.isNone then { c with refusals := none, serial := c.serial + 1 }
      else
        let c := (c.touch u false rd).touch u true wr
        { c with why := none, refusals := none, serial := c.serial + 1, skip := ctl.yield, stepped := some pc,
                 stallTo := if ctl.stall = 0 then 0 else now + ctl.stall.toNat + 1,
                 began := match c.began with
                   | some n => some n
                   | none => some now }

/-- The guard's value (R37). -/
def guardTrue (ctl : Ctl) (c : Context) : Bool := c.getP ctl.pred.val != ctl.neg

/-- The issuing context has moved on to the sequential successor; past the end of a block with code_end set, that is
noted (R31, R32). -/
def State.movedOn (s : State) (uid : Nat) : State :=
  s.modCtx uid fun c =>
    { c with pc := succPc c.pc, pastEnd := c.codeEnd && decide (c.pc.toNat % 8 = 4),
             block := if c.pc.toNat % 8 = 4 then none else c.block }

/-- Lines of the registers that an instruction writes; a write of x0 is discarded (R36, R59). -/
def destLines (wr : List AnyReg) : List Nat :=
  ((wr.filter fun r => match r with
    | .x i => i.val != 0
    | _ => true).flatMap regLines).dedup

/-- Issues an instruction of opcode `op` in the context that `issuing` names. Faults that the encoding calls for come
first (R40), then the guard (R37), the lines of the registers named (R59), empty operands and poison (R54), pending
destinations (R55), and then the body, which sees the PC already moved on. The manual gives no order between a miss of a
register's line and empty_operand: the lines come first (DESIGN CHOICE, log 81). -/
def issue (op : Nat) (ctl : Ctl) (priv : Context → Bool) (rd : List Src) (wr : List AnyReg) (s : State)
    (body : Nat → Context → State → Res) : Out :=
  match s.ctx? s.issuing with
  | none => .fault .noIssuingContext
  | some c =>
    let uid := s.issuing
    let pc := c.pc
    let moved := s.movedOn uid
    if priv c then .next (s.takeFault uid op causePrivileged 0 pc)
    else if !(c.isFull (.p ctl.pred)) then .next (s.blocked uid .reg)
    else if !(guardTrue ctl c) then .next (moved.retired uid ctl pc [] [])
    else
      let rl := namedLines (rd.map (·.reg))
      let wl := namedLines wr
      match (rl ++ wl).find? fun n => !(KMap.has c.lines n) with
      | some n => .next (s.blocked uid (.line n (rl ++ wl)))
      | none =>
        if rd.any fun r => r.bang && !(c.isFull r.reg) then .next (s.takeFault uid op causeEmpty 0 pc)
        else if rd.any fun r => !(c.isFull r.reg) then .next (s.blocked uid .reg)
        else if rd.any fun r => c.isPois r.reg then .next (s.takeFault uid op causePoison 0 pc)
        else if wr.any fun r => c.isPend r then .next (s.blocked uid .reg)
        else
          match body uid c moved with
          | .done t => .next (t.retired uid ctl pc rl (destLines wr))
          | .wait => .next (s.blocked uid .other)
          | .hold t => .next ((t.modCtx uid fun k => { k with pc := pc, pastEnd := false, block := c.block }).blocked uid .other)
          | .trap cause addr => .next (s.takeFault uid op cause addr pc)
          | .trapAt cause addr tpc => .next (s.takeFault uid op cause addr tpc)

/-- No privilege check. -/
def noPriv (_ : Context) : Bool := false

/-- The context runs in slot 6: instructions that landing handlers may not execute (R88). -/
def inSlot6 (c : Context) : Bool := c.slot == some 6

/-! ## Short and long producers (R55) -/

/-- Writes the destination at issue. -/
def State.setReg (s : State) (uid : Nat) (r : AnyReg) (v : BitVec 64) : State :=
  s.modCtx uid fun c => c.setAny r (v.setWidth 1024)

/-- A capture with the place of its operation in the issue order of a context. -/
def NanCap.by (k : NanCap) (seq : Nat) : NanCap := { k with seq := seq }

/-- A fill of the instruction that issues: what it may capture bears its place in the issue order (R250). -/
def Fill.stamped (f : Fill) (seq : Nat) : Fill := { f with nan := f.nan.map fun k => k.by seq }

/-- A long producer: its destination goes pending, and the fill is on its way. -/
def State.produce (s : State) (uid : Nat) (f : Fill) : State :=
  s.modCtx uid fun c => { c.pend f.dest with fills := c.fills ++ [f.stamped c.serial] }

/-- A long producer that fills with a word. -/
def State.produceWord (s : State) (uid : Nat) (dest : AnyReg) (v : BitVec 64) : State := s.produce uid (valueFill dest v)

/-- A destination that goes pending until something else fills it. -/
def State.pendReg (s : State) (uid : Nat) (dest : AnyReg) : State := s.modCtx uid fun c => c.pend dest

end Sys2Proof.Machine
end

