-- ==== Sys2Proof/Machine/Operands.lean ====
section
/-! DEFINITION. Operands: register and immediate sources (R35, R54), memory operands (R158, R169), forwarding from the
store buffer (R176), blocks read at issue (R420), the scopes of release points (R180), and targets of control (R33). -/

namespace Sys2Proof.Machine

/-! ## Register operands -/

/-- A source of file x. -/
def xSrc (r : XSrc) : Src := ⟨.x r.reg, r.bang⟩
/-- A source of file v. -/
def vSrc (r : VSrc) : Src := ⟨.v r.reg, r.bang⟩
/-- A source of file p. -/
def pSrc (r : PSrc) : Src := ⟨.p r.reg, r.bang⟩

/-- Sources of an x/i operand. -/
def xiSrcs : XI → List Src
  | .x r => [xSrc r]
  | .i _ => []

/-- Value of an x register operand. -/
def xVal (c : Context) (r : XSrc) : BitVec 64 := c.getX r.reg.val
/-- Value of a v register operand. -/
def vVal (c : Context) (r : VSrc) : BitVec 1024 := c.getV r.reg.val

/-- Value of an x/i operand: an immediate is sign-extended to 64 bits (R66). -/
def xiVal (c : Context) : XI → BitVec 64
  | .x r => xVal c r
  | .i k => k.signExtend 64

/-- Base register of a memory operand. -/
def memSrc (m : MemOp) : Src := ⟨.x m.base, false⟩

/-! ## Scopes (R174, R180) -/

/-- Scope of the home of an entry, for its context. -/
def State.entryScope (s : State) (c : Context) (e : SEntry) : Scope := (s.placeHome e.acc).scope c.die.val c.core.val

/-- The entry is the marker of a fence. -/
def SEntry.isMarker (e : SEntry) : Bool :=
  match e.op with
  | .marker _ => true
  | _ => false

/-- Every earlier store of the context within the scope is complete (R174, R180). -/
def State.released (s : State) (uid : Nat) (c : Context) (sc : Scope) : Bool :=
  (c.sbuf.all fun e => e.isMarker || !(scopeCovers sc (s.entryScope c e)))
    && (!(scopeCovers sc .job) || !(s.remoteStores uid))

/-- The narrowest scope that contains a core (R180). -/
def scopeOfCore (c : Context) (die core : Nat) : Scope :=
  if c.die.val = die then (if c.core.val = core then .core else .die) else .pkg

/-- The wider of two scopes. -/
def widerScope (a b : Scope) : Scope := if scopeCovers a b then a else b

/-- Scope of an address for a context. -/
def State.addrScope (s : State) (c : Context) (a : Nat) : Scope :=
  (s.homeOf (s.place c.world (a, 1)).1).scope c.die.val c.core.val

/-! ## Forwarding (R176) -/

/-- What a load finds in the store buffer. -/
inductive Fwd where
  /-- nothing that overlaps: memory -/
  | memory
  | bytes (bs : List Byte)
  /-- an overlap that cannot be forwarded: the load waits -/
  | wait

/-- Bytes of segments within data laid out over the segments of an entry. -/
def pickBytes (parts : List (Nat × Nat)) (data : List Byte) (a n : Nat) : Option (List Byte) :=
  match parts with
  | [] => none
  | p :: ps =>
    if within a n p.1 p.2 then some ((data.drop (a - p.1)).take n)
    else pickBytes ps (data.drop p.2) a n

/-- The bytes that an entry writes, where it holds them. -/
def entryData (e : SEntry) : Option (List Byte) :=
  match e.op with
  | .store _ d => some d
  | .flag size _ d => some (leBytes size d.toNat)
  | _ => none

/-- The entry changes data. -/
def writesData (e : SEntry) : Bool :=
  match e.op with
  | .store .. | .flag .. | .red .. => true
  | _ => false

/-- Serves a load from the store buffer of its context (R176). -/
def State.forward (s : State) (sbuf : List SEntry) (acc : Acc) : Fwd :=
  let parts := s.places acc
  match (sbuf.filter fun e => writesData e && partsMeet (s.places e.acc) parts).getLast? with
  | none => .memory
  | some e => match entryData e with
    | none => .wait
    | some d =>
      match parts.mapM fun p => pickBytes (s.places e.acc) d p.1 p.2 with
      | some bs => .bytes bs.flatten
      | none => .wait

/-- The decoding of a load reads a scale byte that a buffered store of its context has not yet written (R162). -/
def scaleBuffered (c : Context) (acc : Acc) : Bool :=
  (acc.win == 3 || acc.win == 4) && c.sbuf.any fun e => writesData e && match acc.parts with
    | p :: _ => partsMeet e.acc.parts [(scaleAddr p.1, 1)]
    | [] => false

/-- Two lists of segments share a word. -/
def wordsMeet (xs ys : List (Nat × Nat)) : Bool :=
  xs.any fun p => ys.any fun q => overlaps (p.1 / 8 * 8) (p.1 % 8 + p.2) (q.1 / 8 * 8) (q.1 % 8 + q.2)

/-- An entry of the store buffer lies on the words of an access. -/
def State.wordBuffered (s : State) (c : Context) (acc : Acc) : Bool :=
  c.sbuf.any fun e => !e.isMarker && wordsMeet (s.places e.acc) (s.places acc)

/-! ## Where an access is performed (R345) -/

/-- Where an access goes. -/
inductive Place where
  /-- homes of this package; `job` where a job-scope address of the own package leads there -/
  | here (acc : Acc) (job : Bool)
  /-- an offset of another package's export space -/
  | far (pkg off : Nat)
  /-- the own export table admits it not -/
  | refused

/-- The segments of an access to the part's own job-scope space, at their place in its memory (R345). -/
def State.ownParts (s : State) (acc : Acc) (need : Need) : Option Acc :=
  match acc.parts with
  | [p] => (s.admits s.job acc.world (jobPlace p.1).2 p.2 need).map fun q => { acc with parts := [(q, p.2)] }
  | _ => none

/-- Where an access goes, by its home. -/
def State.whereIs (s : State) (acc : Acc) (need : Need) : Place :=
  match s.accHome acc with
  | .job p =>
    if p = s.pkg.toNat then
      match s.ownParts acc need with
      | some a => .here a true
      | none => .refused
    else .far p (match acc.parts with
      | q :: _ => (jobPlace q.1).2
      | [] => 0)
  | _ => .here acc false

/-! ## Targets of control (R32, R33) -/

/-- Control arrives at a target: misaligned, or not executable, faults at the instruction that transfers it. -/
def State.arrive (s : State) (c : Context) (t : BitVec 64) : Option (Nat × Nat) :=
  if badPc t then some (causeMisaligned, t.toNat)
  else match s.resolveGlobal c.world c.space (c.slot == some 7) (t.toNat / 64 * 64) 64 64 .ex with
    | .error e => some e
    | .ok _ => none

/-- Control continues at a target, whose block is fetched anew (R51). -/
def State.jump (s : State) (uid : Nat) (t : BitVec 64) : State := s.modCtx uid fun c => { c with pc := t, pastEnd := false, block := none }

/-- Transfers control, or faults. -/
def State.goto (s : State) (uid : Nat) (c : Context) (t : BitVec 64) : Res :=
  match s.arrive c t with
  | some e => .trap e.1 e.2
  | none => .done (s.jump uid t)

/-! ## Outcomes of accesses -/

/-- Goes on with what has been resolved, or faults with its cause and address. -/
def orTrap {α : Type} (e : Except (Nat × Nat) α) (k : α → Res) : Res :=
  match e with
  | .error e => .trap e.1 e.2
  | .ok a => k a

/-- A synchronising access is refused by its controller's full list (R168): it tries again after a wait, or faults
after fe.rlim + 1 refusals, by the value of fe.rlim with which it issued (R65). -/
def State.refuseAfter (s : State) (uid : Nat) (c : Context) (rlim word : Nat) : Res :=
  let k := c.refusals.getD 0 + 1
  if rlim < k then .trap causeRetry word
  else .hold (s.modCtx uid fun x =>
    { x with refusals := some k, retryAt := s.cyc c.die.val + 64 * 2 ^ min k 6 })

/-- The refusal of an access that has not yet issued. -/
def State.refuse (s : State) (uid : Nat) (c : Context) (word : Nat) : Res := s.refuseAfter uid c c.rlim.toNat word

/-- Earlier buffered stores that a locked access waits for (R177): those to homes on the issuing die when its own home
lies there, and those to its own words. -/
def State.lockReady (s : State) (c : Context) (acc : Acc) : Bool :=
  let onDie := (s.placeHome acc).die? == some c.die.val
  c.sbuf.all fun e => e.isMarker ||
    (!(onDie && (s.placeHome e.acc).die? == some c.die.val) && !(wordsMeet (s.places e.acc) (s.places acc)))

/-! ## Accesses to a migrating page (R147) -/

/-- The word at distance `i` from the start of an access: its physical address. -/
def partAt : List (Nat × Nat) → Nat → Nat
  | [], _ => 0
  | p :: ps, i => if i < p.2 then p.1 + i else partAt ps (i - p.2)

/-- An access that a migration holds is admitted to the retry list of its word's controller. -/
def State.admitPaused (s : State) (uid : Nat) (who : Paused) (m : Move) (acc : Acc) : State :=
  s.admitWaiter { word := partAt (s.places acc) 0 / 8 * 8, world := acc.world, nodes := acc.nodes, op := .paused uid who m.num }

/-- Goes on with an access that is issued, unless a migration holds it: it is then admitted to the retry list and issues
again in the order of admission, or is refused (R133, R147; log 47). -/
def State.throughMove (s : State) (uid : Nat) (c : Context) (acc : Acc) (go : State → Res) : Res :=
  match s.pauser uid .issue (s.places acc) with
  | none => go (s.unpause uid .issue)
  | some m =>
    if s.hasPaused uid .issue then .wait
    else if s.listRoom (partAt (s.places acc) 0) then .hold (s.admitPaused uid .issue m acc)
    else s.refuse uid c acc.va

/-! ## Loads -/

/-- Later loads and atomics of the context are held: an acquire has not been performed, or a fence of kind sc has not
filled (R179, R186). -/
def Context.loadsHeld (c : Context) : Bool :=
  !c.acqs.isEmpty || c.fills.any fun f => match f.src with
    | .fence _ _ sc => sc
    | _ => false

/-- Reads segments one after another: the state, their bytes, and whether a word of them is poisoned. -/
def State.readParts (s : State) (world : Nat) : List (Nat × Nat) → State × List Byte × Bool
  | [] => (s, [], false)
  | p :: ps =>
    let r := s.readSeg world p.1 p.2
    let q := r.1.readParts world ps
    (q.1, r.2.1 ++ q.2.1, r.2.2 || q.2.2)

/-- The memory that a plain load of core `c` of die `d` reads at homes of this package: through the L1, or at its home under
its hint (R165, R173). A job-scope line is in no L1 (R345). -/
def State.loadBytes (s : State) (d c : Nat) (loc : BitVec 2) (acc : Acc) (job : Bool) : State × List Byte × Bool :=
  let t := s.l1Each acc.parts fun s l => s.l1Read d c (if job then 2 else loc) l
  let r := t.readParts acc.world acc.parts
  (r.1, r.2.1, r.2.2 || r.1.anyPoison (loadWords acc))

/-! ## Blocks read at issue (R420) -/

/-- Outcome of reading a block. -/
inductive Block where
  | bytes (s : State) (bs : List Byte)
  | wait
  | hold (s : State)
  | trap (cause addr : Nat)

/-- Word `i` of a block: an access of 8 bytes, whose raw footprint through a decoding window is shorter (R161). -/
def blockWord (acc : Acc) (i : Nat) : Acc :=
  let raw := 8 / winDiv acc.win
  { acc with parts := [(partAt acc.parts (raw * i), raw)], size := 8, va := acc.va + raw * i }

/-- One word of a block, as a plain load: the state, its bytes, the flags of its decoding, and poison; none where it
waits for the store buffer. -/
def State.readWord (s : State) (c : Context) (loc : BitVec 2) (acc : Acc) : Option (State × List Byte × Nat × Bool) :=
  let give := fun (t : State) (raw : List Byte) (pois : Bool) =>
    let v := t.loadValue acc raw
    some (t, leBytes 8 v.1.toNat, v.2, pois)
  if scaleBuffered c acc then none
  else match s.forward c.sbuf acc with
    | .wait => none
    | .bytes raw => give s raw (s.anyPoison ((loadWords acc).drop acc.parts.length))
    | .memory => match s.whereIs acc .rd with
      | .here a job =>
        let r := s.loadBytes c.die.val c.core.val loc a job
        give r.1 r.2.1 r.2.2
      | .far _ _ | .refused =>
        let r := s.readAny acc.world (partAt acc.parts 0) 8
        give r.1 r.2.1 r.2.2

/-- Reads `k` words of a block from word `i` on. The flags of their decoding are set in the issuing context (R163). -/
def State.readWords (s : State) (uid : Nat) (c : Context) (loc : BitVec 2) (acc : Acc) : Nat → Nat → List Byte → Block
  | 0, _, got => .bytes s got
  | k + 1, i, got =>
    match s.readWord c loc (blockWord acc i) with
    | none => .wait
    | some (t, bs, fl, pois) =>
      if pois then .trap causePoison ((blockWord acc i).va / 8 * 8)
      else (t.modCtx uid fun x => x.addFlags (flagBits fl) none).readWords uid c loc acc k (i + 1) (got ++ bs)

/-- A block goes on, unless a migration holds its memory. -/
def State.blockThrough (s : State) (uid : Nat) (c : Context) (acc : Acc) (go : State → Block) : Block :=
  match s.pauser uid .issue (s.places acc) with
  | none => go (s.unpause uid .issue)
  | some m =>
    if s.hasPaused uid .issue then .wait
    else if s.listRoom (partAt (s.places acc) 0) then .hold (s.admitPaused uid .issue m acc)
    else match s.refuse uid c acc.va with
      | .hold t => .hold t
      | .trap cause a => .trap cause a
      | _ => .wait

/-- Reads the block of `n` bytes that a memory operand names, as plain loads (R420). R39 calls hint 01 of these instructions
local, without a word on ownership: the line is taken writable as `LD` takes it (DESIGN CHOICE, log 116). -/
def State.readBlock (s : State) (uid : Nat) (c : Context) (loc : BitVec 2) (m : MemOp) (n : Nat) : Block :=
  match s.resolve c m.mode (formAddr c m n) n .rd false .block with
  | .error e => .trap e.1 e.2
  | .ok acc => if c.loadsHeld then .wait else s.blockThrough uid c acc fun s => s.readWords uid c loc acc (n / 8) 0 []

/-- Goes on with a block read at issue (R420). -/
def Block.into (b : Block) (k : State → List Byte → Res) : Res :=
  match b with
  | .bytes s bs => k s bs
  | .wait => .wait
  | .hold s => .hold s
  | .trap cause addr => .trap cause addr

end Sys2Proof.Machine
end

