-- ==== Sys2Proof/Machine/Issue.lean ====
section
/-! DEFINITION. The issue cycle of a core (R114, R115): which slots are ready, the choice of a world and of a slot. -/

namespace Sys2Proof.Machine

/-- Budget of a pinned handler in cycles (R86, R88, R400). -/
def State.handlerLimit (s : State) (c : Context) : Nat :=
  if c.slot = some 6 then 1024
  else if (s.lendOf (clKey c.die.val (clusterOf c.core.val))).isSome then 4096
  else 65536

/-- The limit of R86 has passed for a pinned handler that has not suspended. -/
def State.overBudget (s : State) (c : Context) : Bool :=
  c.isPinned && c.slot.isSome && match c.began with
    | some n => decide (n + s.handlerLimit c < s.cyc c.die.val)
    | none => false

/-- A synchronising store of the context has neither been performed nor admitted (R167). -/
def Context.syncPending (c : Context) : Bool :=
  c.sbuf.any fun e => match e.op with
    | .store .wefill _ | .flag _ .wefill _ => !e.admitted
    | _ => false

/-- A synchronising access of the context that went to another package has been neither performed nor admitted there (R167,
R346). -/
def State.syncSent (s : State) (uid : Nat) : Bool :=
  s.dies.any fun d => d.2.ni.outst.any fun o => match o.2.todo with
    | .sync u _ _ _ _ => u == uid && !o.2.admitted
    | _ => false

/-- The context in a slot could issue (R38, R107, R114, R125, R167). A handler that waits in its slot for a monitor, a
phaser or a barrier could not. -/
def State.isReady (s : State) (uid : Nat) (c : Context) : Bool :=
  let d := c.die.val
  c.slot.isSome && !(s.tried.contains uid) && !c.skip && decide (c.stallTo ≤ s.cyc d)
    && (c.isPinned || (!(s.exhausted c.region) && !(s.stopped d (clusterOf c.core.val) c.region)))
    && !c.syncPending && c.retryAt == 0 && !(s.syncSent uid) && c.wait == .none && !(s.overBudget c)

/-- Ready slots of a core: slot, handle, context. -/
def State.readySlots (s : State) (d c : Nat) : List (Nat × Nat × Context) :=
  (s.core d c).slots.filterMap fun p => match s.ctx? p.2 with
    | some x => if s.isReady p.2 x then some (p.1, p.2, x) else none
    | none => none

/-- Issue weight of a world (R114). -/
def State.weightOf (s : State) (w : Nat) : Nat :=
  match KMap.look s.worlds w with
  | some x => x.weight
  | none => 1

/-- A free context of an exhausted region stops at its boundary and returns to the ready queue (R107). -/
def State.ejectExhausted (s : State) (d c : Nat) : State :=
  (s.core d c).slots.foldl (fun s p =>
    match s.ctx? p.2 with
    | some x =>
      if !x.isPinned && decide (p.1 < 6) && s.exhausted x.region && !x.syncPending && x.retryAt == 0 && !(s.syncSent p.2) && x.wait == .none then
        let s := s.leaveReady p.2
        match s.ctx? p.2 with
        | some y => if y.state == CxState.ready then s.requeue p.2 else s
        | none => s
      else s
    | none => s) s

/-- First world at or after `ptr`, wrapping, that passes a test; worlds ascending. -/
def firstFrom (ws : List Nat) (ptr : Nat) (f : Nat → Bool) : Option Nat :=
  match ws.find? fun w => decide (ptr ≤ w) && f w with
  | some w => some w
  | none => ws.find? f

/-- Stage 1 (R114): the world chosen, and the counters after it. -/
def chooseWorld (ws : List Nat) (weight : Nat → Nat) (deficit : KMap Nat) (ptr : Nat) :
    Option (Nat × KMap Nat × Nat) :=
  let dd := ws.map fun w => (w, KMap.lookD deficit w 0)
  let dd := if dd.any fun p => decide (0 < p.2) then dd else dd.map fun p => (p.1, p.2 + weight p.1)
  match firstFrom ws ptr fun w => decide (0 < KMap.lookD dd w 0) with
  | none => none
  | some w =>
    let left := KMap.lookD dd w 0 - 1
    let dd := (KMap.put dd w left).filter fun p => decide (0 < p.2)
    some (w, dd, if 0 < left then w else w + 1)

/-- Stage 2 (R115): the slot chosen among the ready slots of the world, by slot number. `pri` gives the effective
priority of a slot, `last` the slot of each priority that issued last in the world. -/
def chooseSlot (slots : List Nat) (starved : List Nat) (pri : Nat → Nat) (last : Nat → Option (Fin 8)) : Option Nat :=
  match starved.find? fun n => slots.contains n with
  | some n => some n
  | none =>
    if slots.contains 7 then some 7
    else if slots.contains 6 then some 6
    else
      match (slots.map pri).min? with
      | none => none
      | some p =>
        let best := slots.filter fun n => pri n == p
        match last p with
        | none => best.head?
        | some l => (best.find? fun n => decide (l.val < n)).orElse fun _ => best.head?

/-- A slot number as a key. -/
def slotFin (n : Nat) : Fin 8 := ⟨n % 8, Nat.mod_lt _ (by decide)⟩

/-- Key of the last issue of a world at a priority. -/
def lastKey (w pri : Nat) : Nat := w * 8 + pri % 8

/-- The core after the issue of a slot of a world (R115). -/
def Core.issued (k : Core) (dd : KMap Nat) (ptr w slot pri : Nat) (others : List Nat) : Core :=
  let passed := others.foldl (fun m n => KMap.put m n (KMap.lookD m n 0 + 1)) (KMap.del k.passed slot)
  let newly := others.filter fun n => KMap.lookD passed n 0 == 2
  { k with deficit := dd, ptr := ptr, passed := passed,
           starved := (k.starved.filter fun n => n.val != slot) ++ newly.map slotFin,
           lastIss := KMap.put k.lastIss (lastKey w pri) (slotFin slot) }

/-- Chooses world and slot of a core; the context goes to `issuing`, 0 when none is ready (R114, R115). -/
def State.selectIssue (s : State) (d c : Nat) : State :=
  let k := s.core d c
  let rs := s.readySlots d c
  let ws := ((rs.map fun r => r.2.2.world).dedup).mergeSort (· ≤ ·)
  match chooseWorld ws s.weightOf k.deficit k.ptr with
  | none => { s.modCore d c fun k => { k with deficit := [] } with issuing := 0 }
  | some (w, dd, ptr) =>
    let mine := rs.filter fun r => r.2.2.world == w
    let pri := fun n => match mine.find? fun r => r.1 == n with
      | some r => s.effPri r.2.2.region
      | none => 7
    match chooseSlot (mine.map (·.1)) (k.starved.map (·.val)) pri (fun p => KMap.look k.lastIss (lastKey w p)) with
    | none => { s with issuing := 0 }
    | some n =>
      match mine.find? fun r => r.1 == n with
      | none => { s with issuing := 0 }
      | some r =>
        { s.modCore d c fun k => k.issued dd ptr w n (pri n) ((mine.map (·.1)).filter (· != n)) with issuing := r.2.1 }

/-- The issue cycle is one that heat skips (R415): the first `skip` of every eight (DESIGN CHOICE, log 124). -/
def State.heatSkips (s : State) (d : Nat) : Bool := decide (s.cyc d % 8 < (s.die d).skip)

/-- ISSUE_CYCLE (R114): contexts of exhausted regions leave, then the core chooses. An issue cycle that heat skips, or
in which no slot is ready, chooses none (R415). -/
def execIssueCycle (d : DieNo) (c : CoreNo) (s : State) : Out :=
  let s := s.ejectExhausted d.val c.val
  if s.heatSkips d.val then .next { s with issuing := 0 }
  else .next (s.selectIssue d.val c.val)

end Sys2Proof.Machine
end

