-- ==== Sys2Proof/Machine/Fetch.lean ====
section
/-! DEFINITION. Fetching the instruction of a context (R29 to R33, R51), and the faults that stand at an instruction
boundary (R411, R421). -/

namespace Sys2Proof.Machine

/-- Key of a block in an instruction cache: its physical address div 64, with the world that fetched it. -/
def blockKey (a world : Nat) : Nat := a / 64 * 65536 + world

/-- Number of one bits of a byte. -/
def onesOf (b : Byte) : Nat := ((List.range 8).filter fun i => b.getLsbD i).length

/-- The 512 bits of a block hold an even number of ones (R29). -/
def parityOk (bs : List Byte) : Bool := (bs.map onesOf).sum % 2 == 0

/-- The block word: version 01 and no res0 bit (R29, R30). -/
def blockWordOk (bs : List Byte) : Bool := leNat (bs.take 4) % 4 == 1 && leNat (bs.take 4) / 16 == 0

/-- code_end (R29). -/
def blockEnds (bs : List Byte) : Bool := leNat (bs.take 4) / 4 % 2 == 1

/-- The instruction word in slot `n` of a block (R29). -/
def blockSlot (bs : List Byte) (n : Nat) : IWord := BitVec.ofNat 96 (leNat ((bs.drop (4 + 12 * n)).take 12))

/-- What a fetch gives. -/
inductive Fetched where
  /-- a precise fault: opcode, cause, trap_addr -/
  | fault (s : State) (op cause addr : Nat)
  /-- the block is being fetched again -/
  | wait (s : State)
  /-- the word, whether its block has code_end set, and the block -/
  | word (s : State) (w : IWord) (codeEnd : Bool) (bs : List Byte)

/-- Blocks that an instruction cache holds at most: 64 KiB (R1). -/
def icacheBlocks : Nat := 1024

/-- Room for one more block in an instruction cache: a full one gives up a block, which the manual does not name (log 6). -/
def State.icacheRoom (s : State) (d c : Nat) : State :=
  if (s.core d c).icache.length < icacheBlocks then s
  else
    let r := s.draw
    r.2.modCore d c fun k => { k with icache := k.icache.eraseIdx (r.1.toNat % k.icache.length) }

/-- Fetches a block into an instruction cache. -/
def State.loadBlock (s : State) (d c key a world : Nat) (again : Bool) : State :=
  let s := (s.checkRead world a 64).icacheRoom d c
  let b : IBlock := { bytes := s.readBytes world a 64, poison := s.anyPoison [(a, 64)], checked := false, again := again }
  s.modCore d c fun k => { k with icache := KMap.put k.icache key b }

/-- Drops a block from an instruction cache. -/
def State.dropBlock (s : State) (d c key : Nat) : State :=
  s.modCore d c fun k => { k with icache := KMap.del k.icache key }

/-- Takes the word from the copy of a block that the cache holds, with the checks of R30. -/
def State.takeBlock (s : State) (d c key slot blk : Nat) : Fetched :=
  match KMap.look (s.core d c).icache key with
  | none => .wait s
  | some b =>
    if b.checked then .word s (blockSlot b.bytes slot) (blockEnds b.bytes) b.bytes
    else if b.poison then .fault (s.dropBlock d c key) 0 causePoison blk
    else if !(parityOk b.bytes) then
      if b.again then .fault (s.dropBlock d c key) 0 causePoison blk
      else .wait ((s.dropBlock d c key).modCore d c fun k => { k with refetch := k.refetch ++ [key] })
    else if !(blockWordOk b.bytes) then
      .fault (s.dropBlock d c key) ((blockSlot b.bytes slot).toNat / 2 ^ 88) causeIllegal 0
    else
      .word (s.modCore d c fun k => { k with icache := KMap.put k.icache key { b with checked := true, again := false } })
        (blockSlot b.bytes slot) (blockEnds b.bytes) b.bytes

/-- Fetches the instruction of a context (R30 to R33): from the block that the context holds, else from the instruction
cache, which it fills where it lacks the block. Until the two conditions of R51 hold, the manual lets a core fetch the old
block or the new one: the model fetches the copy that the cache holds as long as it holds it (DESIGN CHOICE, log 82). -/
def State.fetch (s : State) (x : Context) : Fetched :=
  let d := x.die.val
  let c := x.core.val
  let p := x.pc.toNat
  if badPc x.pc then .fault s 0 causeMisaligned p
  else if x.pastEnd then .fault s 0 causeIllegal 0
  else match s.resolveGlobal x.world x.space (x.slot == some 7) (p / 64 * 64) 64 64 .ex with
    | .error e => .fault s 0 e.1 e.2
    | .ok a => match a.parts with
      | [] => .fault s 0 causeUnmapped (p / 64 * 64)
      | q :: _ =>
        match x.block.filter fun b => b.1 == p / 64 * 64 with
        | some b => .word s (blockSlot b.2 (p % 8)) (blockEnds b.2) b.2
        | none =>
          let key := blockKey q.1 x.world
          if (s.core d c).refetch.contains key then .wait s
          else
            let s := if KMap.has (s.core d c).icache key then s else s.loadBlock d c key q.1 x.world false
            s.takeBlock d c key (p % 8) (p / 64 * 64)

/-- BLOCK_REFETCH (R30): the block that was discarded first arrives a second time and is checked when it is issued from. -/
def execBlockRefetch (d : DieNo) (c : CoreNo) (s : State) : Out :=
  match (s.core d.val c.val).refetch with
  | [] => .next s
  | key :: _ =>
    let s := s.loadBlock d.val c.val key (key / 65536 * 64) (key % 65536) true
    .next (s.modCore d.val c.val fun k => { k with refetch := k.refetch.drop 1 })

/-- The context is debugged: it runs in slots 0 to 5 (R410). -/
def debuggable (c : Context) : Bool := match c.slot with
  | some n => decide (n.val < 6)
  | none => false

/-- Some entry that matches the context has the step bit, or the break bit. -/
def State.debugBit (s : State) (c : Context) (brk : Bool) : Bool :=
  debuggable c && (List.range 64).any fun k =>
    let lo := s.pageWord (debugPage + 16 * k)
    let hi := s.pageWord (debugPage + 16 * k + 8)
    bits hi 63 48 == c.world && bits hi 47 0 == c.cxid && (if brk then lo / 2 % 2 == 1 else lo % 2 == 1)

/-- A fault that stands at the boundary before a context's next instruction: a write-back or a fill that failed
(R59, R421), or a single step (R411): cause, trap_addr. -/
def State.boundaryFault (s : State) (c : Context) : Option (Nat × Nat) :=
  match c.pendFault with
  | some f => some (f.1.toNat, f.2.toNat)
  | none => match c.stepped with
    | some p => if s.debugBit c false then some (causeStep, p.toNat) else none
    | none => none

/-- What stands before the execution of an instruction. -/
inductive Prepared where
  /-- nothing executes: a fault has been taken, or the block is on its way -/
  | stop (s : State)
  | run (i : Instr) (s : State)

/-- The context that `issuing` names: its boundary fault, its fetch, and the decoding of its word (R30, R40, R41). -/
def State.prepare (s : State) : Prepared :=
  match s.ctx? s.issuing with
  | none => .stop s
  | some c => match s.boundaryFault c with
    | some f => .stop (s.takeFault s.issuing 0 f.1 f.2 c.pc)
    | none => match s.fetch c with
      | .fault s op cause addr => .stop (s.takeFault s.issuing op cause addr c.pc)
      | .wait s => .stop (s.blocked s.issuing .other)
      | .word s w e bs => match decode w with
        | .error _ => .stop (s.takeFault s.issuing (w.toNat / 2 ^ 88) causeIllegal 0 c.pc)
        | .ok i => .run i (s.modCtx s.issuing fun c => { c with codeEnd := e, block := some (c.pc.toNat / 64 * 64, bs) })

/-- The context has issued, faulted or gone: it no longer waits. -/
def State.didIssue (s : State) (uid : Nat) : Bool :=
  match s.ctx? uid with
  | none => true
  | some c => c.why.isNone

/-- The choice of a context that then did not issue is undone: the core's counters are those of `old`, and the context
is not tried again in this cycle. -/
def State.undoSelect (s : State) (uid : Nat) (old : State) (d c : Nat) : State :=
  let k0 := old.core d c
  let t := s.modCore d c fun k =>
    { k with deficit := k0.deficit, ptr := k0.ptr, passed := k0.passed, starved := k0.starved, lastIss := k0.lastIss }
  { t with tried := uid :: s.tried, issuing := 0 }

/-- The end of an issue cycle: the yield hint of every other context of the core is spent (R38). -/
def State.endCycle (s : State) (d c : Nat) : State :=
  let t := s.mapCtxs fun u x =>
    if x.skip && u != s.issuing && x.die.val == d && x.core.val == c then { x with skip := false } else x
  { t with tried := [], issuing := 0 }

/-! ## Placing an instruction -/

/-- A fetch block whose slot 0 holds a word and whose other slots are 0: version 01, its parity even (R29). -/
def oneBlock (w : Nat) : List Byte :=
  let bs := leBytes 4 1 ++ leBytes 12 w ++ List.replicate 48 0
  if parityOk bs then bs else leBytes 4 9 ++ leBytes 12 w ++ List.replicate 48 0

/-- Every image line resident and clean. -/
def allLines : KMap LineSt := (List.range 73).map fun n => (n, { dirty := false, evict := false, use := 0 })

/-- A continuation that stands before a PC in a slot of a core, with every line resident. -/
def placedCtx (d : DieNo) (c : CoreNo) (n : Fin 8) (pc : BitVec 64) : Context :=
  { Context.fresh 1 0 1 1 0 d c pc false with slot := some n, state := .running, lines := allLines, record := 64, image := 128 }

/-- An instruction placed in the first vault, in a block of its own, before a continuation of space 0 in slot 0 of core
0; the next action is an issue cycle of that core (log 24). -/
def State.placeWord (s : State) (w : Nat) : State :=
  let t := { s with mem := s.mem.setCells vaultBase (oneBlock w) }
  let t := (t.modCore 0 0 fun k => { k with slots := [(0, t.nextUid)] }).addCtx
    (placedCtx 0 0 0 (BitVec.ofNat 64 vaultBase))
  { t with agenda := [.event (.issueCycle 0 0)] }

end Sys2Proof.Machine
end

