-- ==== Sys2Proof/Machine/Lines.lean ====
section
/-! DEFINITION. The register cache of a core: lines brought in from their image, changes of registers of a context that is
not in a slot, victims and evictions (R57 to R62, R86, R95, R421). -/

namespace Sys2Proof.Machine

/-! ## Registers of lines changed (R59) -/

/-- After a change of the registers of line `n`: a line resident in a slot's context is dirty; otherwise the image in
memory takes the change (R59). -/
def State.keepLine (s : State) (c : Context) (n : Nat) : State × Context :=
  if c.record = 0 then (s, { c with lines := KMap.modify c.lines n fun l => { l with dirty := true } })
  else if c.slot.isSome && KMap.has c.lines n then
    (s, { c with lines := KMap.modify c.lines n fun l => { l with dirty := true } })
  else match s.writeBack c n with
    | .ok t => (t, c.cleanLine n)
    | .error e => (s, c.lineFailed n e.1)

/-- Changes registers of a context that lie on lines `ns`, and its control fields. -/
def State.landIn (s : State) (uid : Nat) (ns : List Nat) (f : Context → Context) : State :=
  match s.ctx? uid with
  | none => s
  | some c =>
    if c.state == .retired then (s.setCtx uid (f c)).reap uid
    else
      let all := (ns ++ [72]).dedup
      let c1 := all.foldl (fun (x : Context) n => match s.withLine x n with
        | .ok y => y
        | .error e => x.lineFailed n e.1) c
      let r := all.foldl (fun (p : State × Context) n => p.1.keepLine p.2 n) (s, f c1)
      r.1.setCtx uid r.2

/-! ## Room in the register cache (R59, R86, R421) -/

/-- Lines that the instruction on which a context is blocked names: they stay until it has read them (R59). -/
def Context.namedNow (c : Context) : List Nat :=
  match c.why with
  | some (.line _ ns) => ns
  | _ => []

/-- A line of a context may give way: not a line of a handler that has not suspended (R86), nor, in a slot, the control line
or a line that the context's instruction names (R59). -/
def Context.mayEvict (c : Context) (n : Nat) : Bool :=
  c.record != 0 && !(c.slot.isSome && (n == 72 || c.namedNow.contains n))

/-- Lines that may give way on a core. -/
def State.victims (s : State) (d c : Nat) : List (Nat × Nat × LineSt) :=
  (s.ctxs.filter fun p => p.2.die.val == d && p.2.core.val == c).flatMap fun p =>
    (p.2.lines.filter fun l => p.2.mayEvict l.1).map fun l => (p.1, l.1, l.2)

/-- The victim: an evictable line, else the least recently used (R59). The manual puts no order among evictable lines: the
model takes the first by context handle and line number (DESIGN CHOICE, log 83). -/
def State.victim (s : State) (d c : Nat) : Option (Nat × Nat × LineSt) :=
  match (s.victims d c).find? fun v => v.2.2.evict with
  | some v => some v
  | none => (s.victims d c).foldl (fun best v => match best with
      | none => some v
      | some b => if v.2.2.use < b.2.2.use then some v else best) none

/-- The write-back of a victim has failed: every other dirty line of its context is written back, the registers of the
lines that failed take value zero and poison, and the context faults at its next instruction boundary with the failure met
first. A control line that cannot be kept tears its world down (R421). -/
def State.evictFailed (s : State) (uid : Nat) (c : Context) (n cause : Nat) : State :=
  let others := c.dirtyLines.filter (· != n)
  let r := s.writeBackAll c others
  let bad := r.2.map (·.1)
  if n = 72 || bad.contains 72 then s.stopWorld c.world .controlLine c.cause.toNat
  else
    let s := r.1.modCtx uid fun c =>
      let c := (others.filter fun k => !(bad.contains k)).foldl (fun (c : Context) k => c.cleanLine k) c
      { c with lines := (n :: bad).foldl (fun m k => KMap.del m k) c.lines }
    s.landIn uid [] fun c => ((n :: bad).foldl (fun (c : Context) k => c.poisonRegs k) c).lineFailed n cause

/-- A line is evicted; a dirty one is written back (R59). -/
def State.evictLine (s : State) (uid n : Nat) : State :=
  match s.ctx? uid with
  | none => s
  | some c =>
    if !(KMap.has c.lines n) || c.record == 0 then s
    else if !(c.lineDirty n) then s.modCtx uid fun c => { c with lines := KMap.del c.lines n }
    else match s.writeBack c n with
      | .ok t => t.modCtx uid fun c => { c.cleanLine n with lines := KMap.del c.lines n }
      | .error e => s.evictFailed uid c n e.1

/-- Room for one more line on a core of 512; none where no line may give way (R86). -/
def State.lineRoom (s : State) (d c : Nat) : Option State :=
  if s.cacheUse d c < 512 then some s
  else match s.victim d c with
    | some v => some (s.evictLine v.1 v.2.1)
    | none => none

/-- Room for `n` more lines, which are still to be added. -/
def State.linesRoom (s : State) (d c : Nat) : Nat → Option State
  | 0 => some s
  | n + 1 => match s.linesRoom d c n with
    | none => none
    | some t =>
      if t.cacheUse d c + n < 512 then some t
      else match t.victim d c with
        | some v => some (t.evictLine v.1 v.2.1)
        | none => none

end Sys2Proof.Machine
end

