-- ==== Sys2Proof/Machine/Trust.lean ====
section
/-! DEFINITION. The Trust Controller's responder: live measurements (R377, R378), the answers to SPDM requests (R376) with
the import of sealing keys (R367), and the order in which requests are answered. -/

namespace Sys2Proof.Machine

/-! ## Measurements (R377, R378) -/

/-- The image that the resident firmware has come from: the flash, or the host's load (R418). -/
def Boot.source (b : Boot) : KMap Byte := if b.hostLoad then b.image else b.flash

/-- The configuration that index 13 measures (R377). -/
def State.configDigest (s : State) : BitVec 256 :=
  Config.measureMap s.job
    (s.pages.filter fun p => (decide (partPage ≤ p.1) && decide (p.1 < partPage + 0x400)) || p.1 / 65536 * 65536 == exportPage)
    (s.lends.map fun l => (l.slice, l.borrower))

/-- Digests of the measurement blocks 1 to 14, hashed live in one pass. Index 14 is the digest of the byte that names
the boot source. The memory behind the others, and how the configuration lies in it, the manual does not give: they are free
values of the image loaded, which reports a host's load as loaded (R418), and of the configuration. The boot ROM does not
change (log 21). -/
def State.digests (s : State) : List (BitVec 256) :=
  Config.measure 1 [] :: ((List.range 11).map fun i => Config.measure (i + 2) s.boot.source)
    ++ [s.configDigest, digestField (sha256 [if s.boot.hostLoad then 1 else 0])]

/-- The measurement summary (R378), and the state after the pass. -/
def State.summary (s : State) : BitVec 256 × State :=
  (digestField (sha256 (s.digests.flatMap fun d => leBytes 32 d.toNat)), { s with draws := s.draws + 1 })

/-! ## Answers -/

/-- An answer: its response code and its body. -/
def State.spdmReply (s : State) (code : Nat) (data : List Byte) : State :=
  { s.emit (.spdm code data) with draws := s.draws + 1 }

/-- ERROR with a code. -/
def State.spdmError (s : State) (e : Nat) : State := s.spdmReply 0x7F [BitVec.ofNat 8 e]

/-- An answer whose body the manual leaves to the standard (log 22). -/
def State.spdmAnswer (s : State) (code : Nat) (r : SpdmReq) : State :=
  s.spdmReply code (Config.spdm code r.payload s.draws)

/-- An answer that ends in a signature of the attestation key, over the request and the body (R376, log 21). -/
def State.spdmSigned (s : State) (code : Nat) (r : SpdmReq) (body : List Byte) : State :=
  let g := Config.sign s.draws (digestField (sha256 (r.payload ++ body)))
  s.spdmReply code (body ++ beBytes 32 g.1.toNat ++ beBytes 32 g.2.toNat)

/-- The request names the only certificate slot. -/
def State.spdmSlot (s : State) (r : SpdmReq) (f : State → State) : State :=
  if r.slot = 0 then f s else s.spdmError 0x01

/-- The request came in a secured session, whose handshake is complete. -/
def State.secured (s : State) (r : SpdmReq) : Option Nat :=
  match r.session with
  | some n => if KMap.look s.trust.sessions n = some true then some n else none
  | none => none

/-! ## The answer to each request (R376) -/

/-- VERSION: one entry, 1.3 (R376; its layout is that of DSP0274, log 22). -/
def State.answerGetVersion (s : State) (_ : SpdmReq) : State := s.spdmReply 0x04 ([0, 0, 0, 1] ++ leBytes 2 0x1300)

def State.answerGetCapabilities (s : State) (r : SpdmReq) : State := s.spdmAnswer 0x61 r

/-- What ALGORITHMS selects, in the bits of DSP0274 (R376, log 22): measurements in DMTF form with SHA-256, ECDSA P-256, SHA-256,
and the tables of DHE secp256r1, AES-256-GCM and the key schedule of SPDM; no other algorithm is offered. -/
def spdmAlgorithms : List Byte :=
  [3, 0] ++ leBytes 2 48 ++ [1, 2] ++ leBytes 4 2 ++ leBytes 4 0x10 ++ leBytes 4 1 ++ leBytes 12 0 ++ [0, 0] ++ leBytes 2 0
    ++ [2, 0x20] ++ leBytes 2 8 ++ [3, 0x20] ++ leBytes 2 2 ++ [5, 0x20] ++ leBytes 2 1

def State.answerNegotiateAlgorithms (s : State) (_ : SpdmReq) : State := s.spdmReply 0x63 spdmAlgorithms

def State.answerGetDigests (s : State) (r : SpdmReq) : State := s.spdmAnswer 0x01 r

def State.answerGetCertificate (s : State) (r : SpdmReq) : State := s.spdmSlot r fun s => s.spdmAnswer 0x02 r

def State.answerChallenge (s : State) (r : SpdmReq) : State :=
  s.spdmSlot r fun s => s.spdmSigned 0x03 r (Config.spdm 0x03 r.payload s.draws)

/-- A measurement block in DMTF form: index, specification 1, size, value type, value size, digest. The type is left to the
standard (log 22). -/
def measBlock (draw : Nat) (p : BitVec 256 × Nat) : List Byte :=
  [BitVec.ofNat 8 p.2, 1] ++ leBytes 2 35 ++ (Config.spdm 0x60 [BitVec.ofNat 8 p.2] draw).take 1 ++ leBytes 2 32
    ++ leBytes 32 p.1.toNat

/-- The blocks that an index names: all of them for 0xFF, none for 0. -/
def State.measBlocks (s : State) (index : Nat) : List (List Byte) :=
  ((s.digests.zipIdx 1).filter fun p => index == 0xFF || p.2 == index).map (measBlock s.draws)

/-- Index that a GET_MEASUREMENTS names. -/
def measIndex (r : SpdmReq) : Nat := match r.payload with
  | b :: _ => b.toNat
  | [] => 0

/-- Digests taken live, signed (R378). -/
def State.answerGetMeasurements (s : State) (r : SpdmReq) : State :=
  s.spdmSlot r fun s =>
    let i := measIndex r
    let bs := s.measBlocks i
    if i ≠ 0 ∧ bs.isEmpty = true then s.spdmError 0x01
    else s.spdmSigned 0x60 r ([BitVec.ofNat 8 (if i = 0 then 14 else bs.length)] ++ bs.flatten)

/-- At most four sessions are open. -/
def State.answerKeyExchange (s : State) (r : SpdmReq) : State :=
  s.spdmSlot r fun s =>
    if 4 ≤ s.trust.sessions.length then s.spdmError 0x0A
    else
      let n := s.trust.nextSess
      ({ s with trust := { s.trust with sessions := KMap.put s.trust.sessions n false, nextSess := n + 1 } }).spdmAnswer 0x64 r

/-- A handshake that verifies is complete. -/
def State.answerFinish (s : State) (r : SpdmReq) : State :=
  match r.session with
  | some n =>
    if KMap.look s.trust.sessions n = some false then
      ({ s with trust := { s.trust with sessions := KMap.put s.trust.sessions n true } }).spdmAnswer 0x65 r
    else s.spdmError 0x04
  | none => s.spdmError 0x04

def State.answerHeartbeat (s : State) (r : SpdmReq) : State :=
  match s.secured r with
  | some _ => s.spdmAnswer 0x68 r
  | none => s.spdmError 0x04

def State.answerEndSession (s : State) (r : SpdmReq) : State :=
  match s.secured r with
  | some n => ({ s with trust := { s.trust with sessions := KMap.del s.trust.sessions n } }).spdmAnswer 0x6C r
  | none => s.spdmError 0x04

/-- KEY_IMPORT (R367): one byte of slot and a key of 32 bytes. -/
def State.answerKeyImport (s : State) (r : SpdmReq) : State :=
  match s.secured r, r.payload with
  | some _, b :: key =>
    if key.length = 32 ∧ b.toNat < 16 then
      ({ s with trust := { s.trust with slots := KMap.putD s.trust.slots b.toNat 0 (BitVec.ofNat 256 (leNat key)) } }).spdmAnswer
        0x7E r
    else s.spdmError 0x01
  | _, _ => s.spdmError 0x04

/-- ERROR with UnsupportedRequest. -/
def State.answerUnsupported (s : State) (_ : SpdmReq) : State := s.spdmError 0x07

/-- The request code of a request. -/
def SpdmKind.code : SpdmKind → Nat
  | .getVersion => 0x84 | .getCapabilities => 0xE1 | .negotiateAlgorithms => 0xE3 | .getDigests => 0x81
  | .getCertificate => 0x82 | .challenge => 0x83 | .getMeasurements => 0xE0 | .keyExchange => 0xE4 | .finish => 0xE5
  | .heartbeat => 0xE8 | .endSession => 0xEC | .keyImport => 0xFE | .unsupported => 0xFF

/-- The answer to a request whose session, if it names one, is sound. -/
def State.spdmBody (s : State) (r : SpdmReq) : SpdmKind → State
  | .getVersion => s.answerGetVersion r
  | .getCapabilities => s.answerGetCapabilities r
  | .negotiateAlgorithms => s.answerNegotiateAlgorithms r
  | .getDigests => s.answerGetDigests r
  | .getCertificate => s.answerGetCertificate r
  | .challenge => s.answerChallenge r
  | .getMeasurements => s.answerGetMeasurements r
  | .keyExchange => s.answerKeyExchange r
  | .finish => s.answerFinish r
  | .heartbeat => s.answerHeartbeat r
  | .endSession => s.answerEndSession r
  | .keyImport => s.answerKeyImport r
  | .unsupported => s.answerUnsupported r

/-- A request that came in a session is answered with an error where the session is not open or its message does not
verify. -/
def State.answerSpdm (s : State) (k : SpdmKind) (r : SpdmReq) : State :=
  match r.session with
  | none => s.spdmBody r k
  | some n =>
    if !(KMap.has s.trust.sessions n) then s.spdmError 0x02
    else if !(Config.spdmOk k.code r.payload) then s.spdmError 0x06
    else s.spdmBody r k

/-! ## The order of answers (R376) -/

/-- The fill is evidence still to be made. -/
def Fill.isEvid (f : Fill) : Bool :=
  match f.src with
  | .evid req _ _ => !req.isEmpty
  | _ => false

/-- Requests for evidence in the responder's queue. -/
def State.evidCount (s : State) : Nat := (s.ctxs.map fun p => p.2.fills.countP Fill.isEvid).sum

/-- Requests in the responder's queue, SPDM and `EVID` together (R376). -/
def State.responderLoad (s : State) : Nat := s.evidCount + s.trust.queue.length

/-- A request for evidence that arrived earlier has not been answered. -/
def State.evidBefore (s : State) (order : Nat) : Bool :=
  s.ctxs.any fun p => p.2.fills.any fun f => match f.src with
    | .evid req _ n => !req.isEmpty && decide (n < order)
    | _ => false

/-- Answers requests of the queue, oldest first, up to one that a request for evidence came before. -/
def State.serveJobs (s : State) : List SpdmJob → State
  | [] => s
  | j :: js =>
    if s.evidBefore j.order then s
    else (({ s with trust := { s.trust with queue := js } } : State).answerSpdm j.kind j.req).serveJobs js

/-- The responder answers in the order of arrival what it can. -/
def State.serveSpdm (s : State) : State := s.serveJobs s.trust.queue

end Sys2Proof.Machine
end

