-- ==== Sys2Proof/Machine/Environ.lean ====
section
/-! DEFINITION. What happens to the package from outside its own rules: passing cycles (R7), stores of the host and of
other hosts of a pool (R384, R389), memory errors (R166), parity errors (R30, R62). -/

namespace Sys2Proof.Machine

/-- Every slot from 0 to 5 of a cluster's cores is occupied (R113). -/
def State.clusterFull (s : State) (d cl : Nat) : Bool :=
  (List.range 16).all fun i => (List.range 6).all fun n => !(s.slotFree d (coreAt cl i) n)

/-- `n` cycles pass on a die: its counter advances, every occupied slot charges its region, a charge that has come to
1,024 slot-cycles is applied (R106), clusters count the cycles for which they are full (R113), other packages hear of waits that
have ended (R208), and the responder goes on with its queue (R376). -/
def State.tick (s : State) (d n : Nat) : State :=
  let s := s.ctxs.foldl (fun s p =>
    if p.2.die.val = d ∧ p.2.slot.isSome then s.charge p.2.region (coreKey d p.2.core.val) n 0 else s) s
  let s := { s with ctxs := KMap.mapVals s.ctxs fun _ c => if c.die.val = d then { c with nanSeq := none } else c }
  let s := s.applyDue
  let s := (List.range 16).foldl (fun s cl =>
    if s.clusterFull d cl then s.modCluster d cl fun k => { k with busy := k.busy + n }
    else if (s.cluster d cl).busy = 0 then s
    else s.modCluster d cl fun k => { k with busy := 0 }) s
  (s.modDie d fun k => { k with cyc := k.cyc + n }).tellFar.serveSpdm

/-- A line leaves its port's cache; a `WAITA` on it sees what it holds then (R205, R389). -/
def State.dropPool (s : State) (line : Nat) : State := (s.discardPool line).endMonitors (line * 64) 64

/-- Copies that the device no longer holds as they are stay fewer than the lines of their port's cache: the lowest other one
leaves it (R389, log 106). -/
def State.staleRoom (s : State) (line : Nat) : State :=
  let mine := (s.portLines line).filter fun l => KMap.has s.poolDev l && !(KMap.has s.poolDirty l)
  if mine.length < poolLines then s
  else match mine.find? fun l => l != line with
    | some l => s.dropPool l
    | none => s

/-- Another host changes bytes of one line at the device. The port's cache keeps the copy that it has until the line leaves
it; a dirty copy will replace the whole line (R389). -/
def State.deviceStore (s : State) (a : Nat) (bs : List Byte) : State :=
  let line := a / 64
  let here := s.storedLine line
  let old := (KMap.look s.poolDev line).getD here
  let new := old.take (a % 64) ++ bs ++ old.drop (a % 64 + bs.length)
  if !(KMap.has s.poolIn line) then s.writeLine 0 (line * 64) new
  else if new = here && !(KMap.has s.poolDirty line) then { s with poolDev := KMap.del s.poolDev line }
  else ({ s with poolDev := KMap.put s.poolDev line new } : State).staleRoom line

/-- Another host changes bytes at the device, line by line. -/
def State.deviceStores (s : State) (a : Nat) (bs : List Byte) : Nat → State
  | 0 => s
  | n + 1 =>
    if bs.isEmpty then s
    else
      let k := 64 - a % 64
      (s.deviceStore a (bs.take k)).deviceStores (a + k) (bs.drop k) n

/-- The host's processor stores to host memory, or another host to the device side of a pool (R384, R389). -/
def State.outside (s : State) (a : Nat) (data : List Byte) : State :=
  match s.homeOf a with
  | .host => s.store 0 a data none
  | .cxl _ => if s.isPool a then s.deviceStores a data (data.length + 1) else s
  | _ => s

/-- The host writes into the load window: boot-ROM memory takes the bytes while the part is in recovery (R418). -/
def State.loadImage (s : State) (off : Nat) : List Byte → State
  | [] => s
  | b :: bs => ({ s with boot := { s.boot with image := KMap.putD s.boot.image off 0 b } }).loadImage (off + 1) bs

/-- A sleeping part has its dies gated but for the system page; the doorbells are held in the host link (R419). -/
def State.gated (s : State) (a : Nat) : Bool :=
  let b := a / 65536 * 65536
  s.boot.phase == 3 && b != systemPage && b != launchPage

/-- The host stores through space 0: raw into protected memory, trusted to register pages (R372, R383). It may set the
words full or empty, as it does with slots and completion words before a launch, but for untagged memory, whose words stay
full (R157). -/
def State.hostWrite (s : State) (a : Nat) (data : List Byte) (fe : Option Bool) : State :=
  if s.gated a then s
  else if within a data.length loadWindow (2 ^ 26) then (if s.boot.phase = 2 then s.loadImage (a - loadWindow) data else s)
  else match s.translate 0 a data.length with
  | none => s
  | some _ => match s.homeOf a with
    | .page => if s.tdiDrops a then s else s.storePages 0 a data true
    | .job _ => if (s.writeBar 0 a data.length fe).isSome then s else s.writeAny 0 0 a data fe
    | _ =>
      if !(s.allowed 0 a data.length .wr true) || (fe == some false && s.untagged a) then s
      else s.store 0 a data fe

/-- The host loads data under a `.layout` (R24): where it may write the memory, every 4 KiB of local memory that the data covers
takes the tag, which is valid (R164). The data themselves are a store of the host. -/
def State.hostTag (s : State) (a n : Nat) (tag : Byte) : State :=
  match s.translate 0 a n with
  | none => s
  | some _ => if s.gated a || !(s.allowed 0 a n .wr true) || tag.toNat < 128 || 12 ≤ tag.toNat % 16 then s else s.setTags a n tag

/-- A parity error on a line of the register cache (R62). A clean line is discarded and fetched again: the control line of a
context in a slot, which needs it, at once, every other when it is next needed. A dirty control line faults its context at
once, in a slot or out of one. -/
def State.lineParity (s : State) (uid line : Nat) : State :=
  match s.ctx? uid with
  | none => s
  | some c =>
    if !(KMap.has c.lines line) || c.state == .retired then s
    else if !(c.lineDirty line) then
      if line = 72 && c.slot.isSome then s.modCtx uid fun c => s.refetchControl c
      else s.modCtx uid fun c => { c with lines := KMap.del c.lines line }
    else if line = 72 then
      if c.state == .faulted then s.modCtx uid fun c => c.lineFailed 72 causePoison
      else s.takeFault uid 0 causePoison (c.image + 64 * 72) c.pc
    else s.landIn uid [] fun c => c.poisonRegs line

/-- A byte of an instruction cache's copy of a block changes; the copy is checked before it is next issued from
(R30). -/
def State.flipBlock (s : State) (d c blk byte : Nat) (b : Byte) : State :=
  match KMap.look (s.core d c).icache blk with
  | none => s
  | some x => s.modCore d c fun k =>
    { k with icache := KMap.put k.icache blk { x with bytes := x.bytes.set byte (((x.bytes[byte]?).getD 0) ^^^ b), checked := false } }

/-- The switch refuses an access to pool memory on its way: a load fills its destination with poison, and a store is a
failed store with refused set. -/
def State.switchRefuses (s : State) (f : XbarFlit) : State :=
  match f with
  | .fill uid k => s.modCtx uid fun c => { c with fills := c.fills.modify k fun f =>
      match f.src with
      | .load a => if a.parts.any fun p => s.isPool p.1 then { f with src := .poisoned } else f
      | _ => f }
  | .store uid k => match s.ctx? uid with
    | none => s
    | some c => match c.sbuf[k]? with
      | none => s
      | some e =>
        if e.isMarker || e.admitted || (c.sbuf.take k).any SEntry.isMarker || !(e.acc.parts.any fun p => s.isPool p.1) then s
        else (s.failStore uid (s.entryScope c e) none failRefused).modCtx uid fun c => { c with sbuf := c.sbuf.eraseIdx k }
  | _ => s

/-- An action that is no row of the opcode table. -/
def State.environ (s : State) (a : Action) : State :=
  match a with
  | .event _ => s
  | .tick d n => s.tick d.val n
  | .outsideStore a data => s.outside a data
  | .hostStore a data fe => s.hostWrite a data fe
  | .hostLayout a n tag => s.hostTag a n tag
  | .peerJob p j => if p = s.pkg then s else { s with peers := KMap.putD s.peers p.toNat 0 j.toNat }
  | .flash image => { s with boot := { s.boot with flash := image.foldl (fun m p => KMap.putD m p.1 0 p.2) [] } }
  | .tdisp t => { s with boot := { s.boot with tdi := t } }
  | .poolRefusal f => s.switchRefuses f
  | .poolEvict a => s.dropPool (a / 64)
  | .memoryError a => s.poisonLine a
  | .registerParity uid line => s.lineParity uid line
  | .blockFlip d c blk byte b => s.flipBlock d.val c.val blk byte b

end Sys2Proof.Machine
end

