-- ==== Sys2Proof/Machine/Stipple.lean ====
section
/-! DEFINITION. The Stipple generators of a core (R244, R245). -/

namespace Sys2Proof.Machine

/-- Job seed of a launch, which a handler may outlive (R5); free for no launch at all (log 6). -/
def State.jobSeed (s : State) (lid : Nat) : BitVec 64 × State :=
  match s.factsOf lid with
  | some l => (l.seed, s)
  | none => s.draw

/-- The converters that share a generator under SL-480 compatibility, in the order in which they request in one cycle
(R245). -/
inductive Converter where
  | scalar | vector | copy | view
  deriving DecidableEq, Repr

/-- Place of a converter in that order. -/
def Converter.rank : Converter → Nat
  | .scalar => 0 | .vector => 1 | .copy => 2 | .view => 3

/-- A converter later in the order has requested in this cycle: this one requests in the next (R245). -/
def State.convHeld (s : State) (lid lcore now : Nat) (k : Converter) : Bool :=
  match s.factsOf lid with
  | none => false
  | some l => match KMap.look l.requests lcore with
    | some r => r.1 == now && decide (k.rank < r.2)
    | none => false

/-- One step of the generator that the converters of a core share for a launch (R245): the stepped state. It starts
from coord = the logical core and seq = 0. -/
def State.compatStep (s : State) (lid lcore now : Nat) (k : Converter) : BitVec 64 × State :=
  match s.factsOf lid with
  | none => s.draw
  | some l =>
    let g := stippleStep (KMap.lookD l.stipple lcore (stippleSeed l.seed (BitVec.ofNat 64 lcore) 0))
    (g, s.modFacts lid fun l =>
      { l with stipple := KMap.put l.stipple lcore g, requests := KMap.put l.requests lcore (now, k.rank) })

/-- Logical core of a core in a launch; 0 where the launch does not select it. -/
def State.lcore (s : State) (lid d c : Nat) : Nat :=
  match s.factsOf lid with
  | some l => (l.lcoreOf d c).getD 0
  | none => 0

/-- The stepped generator for a command of one group (R243 to R245). -/
def State.oneGroup (s : State) (k : Converter) (srmode : Bool) (lid d c : Nat) (coord seq : BitVec 64) : BitVec 64 × State :=
  if srmode then s.compatStep lid (s.lcore lid d c) (s.cyc d) k
  else
    let r := s.jobSeed lid
    (stippleStep (stippleSeed r.1 coord seq), r.2)

/-- The stepped generator of a scalar conversion of a context: coord is id.item, seq is lin(PC) XOR the value (R244). -/
def State.scalarGroup (s : State) (c : Context) (v : BitVec 64) : BitVec 64 × State :=
  s.oneGroup .scalar c.srmode c.lid c.die.val c.core.val c.item (BitVec.ofNat 64 (linPc c.pc) ^^^ v)

/-- A scalar conversion of a context under SR must wait for the next cycle (R245). -/
def State.scalarHeld (s : State) (c : Context) : Bool :=
  c.srmode && s.convHeld c.lid (s.lcore c.lid c.die.val c.core.val) (s.cyc c.die.val) .scalar

end Sys2Proof.Machine
end

