-- ==== Sys2Proof/Machine/LoadStore.lean ====
section
/-! DEFINITION. Loads, stores, full-empty and line instructions, opcodes 0x40 to 0x49 (R169 to R173, R185, R186). -/

namespace Sys2Proof.Machine

/-! ## Loads -/

/-- The fill of a load from its raw bytes (R163, R166). -/
def State.loadFill (s : State) (dest : AnyReg) (acc : Acc) (raw : List Byte) (pois : Bool) (acq : Option Nat) : Fill :=
  let v := s.loadValue acc raw
  { dest := dest, also := none, src := if pois then .poisoned else .value v.1,
    flags := if pois then 0 else flagBits v.2, nan := none, acq := acq }

/-- A new acquire of a context (R179): its number. -/
def State.newAcq (s : State) (uid : Nat) : Nat × State :=
  match s.ctx? uid with
  | some c => (c.serial, s.modCtx uid fun c => { c with serial := c.serial + 1, acqs := c.acqs ++ [c.serial] })
  | none => (0, s)

/-- A load that is on its way to another die: the fill, which is an acquire when `acq` says so. -/
def State.loadLater (s : State) (uid : Nat) (dest : AnyReg) (src : FillSrc) (acq : Bool) : State :=
  let q := if acq then s.newAcq uid else (0, s)
  q.2.produce uid { dest := dest, also := none, src := src, flags := 0, nan := none,
                    acq := if acq then some q.1 else none }

/-- A request of a load to another package (R345, R346); at a package of no job it fails at once (R341). -/
def State.loadRemote (s : State) (uid : Nat) (c : Context) (dest : AnyReg) (acc : Acc) (p off : Nat) (acq : Bool) : State :=
  if s.noJob p then s.produce uid (poisonFill dest)
  else
    let q := if acq then s.newAcq uid else (0, s)
    (q.2.pendReg uid dest).sendReq c.die.val p acc.world off c.rlim.toNat c.die (.load acc.size)
      (.fill uid dest acc (if acq then some q.1 else none) false)

/-- A load performed now at homes of this package. `LDV` reads its words in one step (DESIGN CHOICE, log 91). -/
def State.loadNow (s : State) (d c : Nat) (loc : BitVec 2) (dest : AnyReg) (acc : Acc) (job : Bool) (acq : Option Nat) :
    State × Fill :=
  let r := s.loadBytes d c loc acc job
  (r.1, r.1.loadFill dest acc r.2.1 r.2.2 acq)

/-- A plain load: forwarded from the store buffer, performed in its turn where its home lies on the issuing die, or on
its way (R176 to R178). -/
def State.loadPlain (s : State) (uid : Nat) (c : Context) (ctl : Ctl) (dest : AnyReg) (acc : Acc) (acq : Bool) : Res :=
  if c.loadsHeld || scaleBuffered c acc then .wait
  else match s.forward c.sbuf acc with
    | .wait => .wait
    | .bytes raw =>
      .done (s.produce uid (s.loadFill dest acc raw (s.anyPoison ((loadWords acc).drop acc.parts.length)) none))
    | .memory => s.throughMove uid c acc fun s =>
      match s.whereIs acc .rd with
      | .far p off => .done (s.loadRemote uid c dest acc p off acq)
      | .refused => .done (s.produce uid (poisonFill dest))
      | .here a job =>
        if (s.accHome a).die? = some c.die.val then
          let r := s.loadNow c.die.val c.core.val ctl.loc dest a job none
          .done (r.1.produce uid r.2)
        else .done (s.loadLater uid dest (.load acc) acq)

/-! ## Synchronising loads (R167, R168) -/

/-- Serves a new waiter on every line that it can take now; what is left of it. -/
def State.serveFresh (s : State) (w : Waiter) : Nat → State × Option Waiter
  | 0 => (s, some w)
  | n + 1 =>
    match s.servable w with
    | none => (s, some w)
    | some p =>
      let r := s.serveOne w p
      match r.2 with
      | none => (r.1, none)
      | some w' => r.1.serveFresh w' n

/-- A waiter that has just arrived: what it can take is taken, the rest is admitted, and waiters on the words it has
changed are served. -/
def State.arriveWaiter (s : State) (w : Waiter) (parts : List (Nat × Nat)) : State :=
  let r := s.serveFresh w 3
  let t := match r.2 with
    | none => r.1
    | some w' => r.1.admitWaiter w'
  parts.foldl (fun (s : State) p => s.serve p.1 p.2) t

/-- Words on which the mode of an access faults with permission in untagged memory (R157). -/
def State.untaggedIn (s : State) (parts : List (Nat × Nat)) : Bool := parts.any fun p => s.untagged p.1

/-- A synchronising load on words of this package, at their home. -/
def State.loadWait (s : State) (uid : Nat) (c : Context) (dest : AnyReg) (acc : Acc) (consume : Bool) : Res :=
  let lines := splitLines acc.parts
  let left := lines.filter fun p => !(s.allFull p.1 p.2)
  if !(left.all fun p => s.listRoom p.1) then s.refuse uid c (acc.va / 8 * 8)
  else
    let q := s.newAcq uid
    let t := (q.2.pendReg uid dest).l1Each acc.parts fun s l => s.l1Home (some (coreKey c.die.val c.core.val)) l consume
    .done (t.arriveWaiter
      { word := partAt acc.parts 0 / 8 * 8, world := acc.world, nodes := acc.nodes,
        op := .load uid dest acc consume lines [] false q.1 } acc.parts)

/-- A synchronising load. On an untagged word `LD.wait` is performed at once as a plain load (R157). -/
def State.loadSync (s : State) (uid : Nat) (c : Context) (ctl : Ctl) (dest : AnyReg) (acc : Acc) (consume : Bool) :
    Res :=
  match s.whereIs acc .rd with
  | .refused => .trap causePermission acc.va
  | .far p off =>
    if s.noJob p then .trap causePermission acc.va
    else if c.loadsHeld || !(s.lockReady c acc) then .wait
    else
      let q := s.newAcq uid
      .done ((q.2.pendReg uid dest).sendReq c.die.val p acc.world off c.rlim.toNat c.die (.syncLoad acc.size consume)
        (.sync uid (some dest) acc (some q.1) (c.isFull dest)))
  | .here a _ =>
    if s.untaggedIn a.parts then
      if consume then .trap causePermission (acc.va / 8 * 8) else s.loadPlain uid c ctl dest acc true
    else if c.loadsHeld || !(s.lockReady c acc) || scaleBuffered c acc then .wait
    else s.throughMove uid c acc fun s => s.loadWait uid c dest a consume

/-- A load of `n` bytes into a register. -/
def loadOp (op : Nat) (ctl : Ctl) (n : Nat) (mode : LdMode) (dest : AnyReg) (m : MemOp) (s : State) : Out :=
  issue op ctl noPriv [memSrc m] [dest] s fun uid c t =>
    orTrap (t.resolve c m.mode (formAddr c m n) n .rd false .data) fun acc =>
      match mode with
      | .plain => t.loadPlain uid c ctl dest acc false
      | .wait => t.loadSync uid c ctl dest acc false
      | .consume => t.loadSync uid c ctl dest acc true

/-- Bytes of an access size. -/
def MSize.bytes : MSize → Nat
  | .b8 => 1 | .b16 => 2 | .b32 => 4 | .b64 => 8

def execLd (ctl : Ctl) (sz : MSize) (mode : LdMode) (d : Fin 64) (m : MemOp) (s : State) : Out :=
  loadOp 0x40 ctl (MSize.bytes sz) mode (.x d) m s

def execLdv (ctl : Ctl) (mode : LdMode) (d : Fin 32) (m : MemOp) (s : State) : Out :=
  loadOp 0x42 ctl 128 mode (.v d) m s

/-! ## Stores -/

/-- Entries of a store buffer that take its room: markers, and stores that wait in the retry list of their home, take none
(R167, R176, R186). -/
def Context.bufUsed (c : Context) : Nat := (c.sbuf.filter fun e => !e.isMarker && !e.admitted).length

/-- The store buffer has room for an entry. -/
def Context.bufRoom (c : Context) : Bool := decide (c.bufUsed < 16)

/-- An entry joins the store buffer of its context (R176). -/
def State.buffer (s : State) (uid : Nat) (acc : Acc) (op : StOp) (loc : BitVec 2) : State :=
  s.modCtx uid fun c =>
    { c with serial := c.serial + 1,
             sbuf := c.sbuf ++ [{ num := c.serial, acc := acc, op := op, loc := loc, rlim := c.rlim.toNat, after := c.acqs, admitted := false }] }

/-- A store mode that needs a full-empty bit of its own (R157). -/
def StMode.tagged : StMode → Bool
  | .wefill | .empty => true
  | .plain | .fill => false

/-- What a store writes: raw bytes and flags, encoded at issue (R163). `seq` is the source's part of the Stipple seed. -/
def State.encodeStore (s : State) (c : Context) (acc : Acc) (bs : List Byte) (src : BitVec 64) :
    State × List Byte × Nat :=
  let g := if winUsesSr acc.win acc.rnd then s.scalarGroup c src else (0, s)
  let r := encodeRaw acc.win (winRnd acc.rnd) (g.2.scaleOf acc.world acc.win (partAt acc.parts 0)) g.1 bs
  (g.2, r.1, r.2)

/-- The entry of a store: hint 11 on a job-scope address makes it an ordered flag (R349). -/
def State.storeEntry (s : State) (acc : Acc) (mode : StMode) (loc : BitVec 2) (data : List Byte) : StOp :=
  match s.accHome acc with
  | .job _ => if loc = 3 then .flag acc.size mode (BitVec.ofNat 1024 (leNat data)) else .store mode data
  | _ => .store mode data

/-- A store of bytes: its faults, its room in the buffer, its entry, and the flags of its encoding. -/
def State.storeBytes (s : State) (uid : Nat) (c : Context) (ctl : Ctl) (acc : Acc) (mode : StMode) (bs : List Byte)
    (src : BitVec 64) : Res :=
  if StMode.tagged mode && s.untaggedIn acc.parts then .trap causePermission (acc.va / 8 * 8)
  else if !c.bufRoom || scaleBuffered c acc || (winUsesSr acc.win acc.rnd && s.scalarHeld c) then .wait
  else s.throughMove uid c acc fun s =>
    let r := s.encodeStore c acc bs src
    .done ((r.1.modCtx uid fun k => k.addFlags (flagBits r.2.2) none).buffer uid acc
      (s.storeEntry acc mode ctl.loc r.2.1) ctl.loc)

def execSt (ctl : Ctl) (sz : MSize) (mode : StMode) (m : MemOp) (a : XI) (s : State) : Out :=
  issue 0x41 ctl noPriv (memSrc m :: xiSrcs a) [] s fun uid c t =>
    orTrap (t.resolve c m.mode (formAddr c m (MSize.bytes sz)) (MSize.bytes sz) .wr true .data) fun acc =>
      t.storeBytes uid c ctl acc mode (leBytes (MSize.bytes sz) (xiVal c a).toNat) (xiVal c a)

/-- STV. The manual names no 64-bit source value for the Stipple seed of a v register: it is a free function of the
register's value (log 94). -/
def execStv (ctl : Ctl) (mode : StMode) (m : MemOp) (a : VSrc) (s : State) : Out :=
  issue 0x43 ctl noPriv [memSrc m, vSrc a] [] s fun uid c t =>
    orTrap (t.resolve c m.mode (formAddr c m 128) 128 .wr true .data) fun acc =>
      t.storeBytes uid c ctl acc mode (leBytes 128 (vVal c a).toNat) (Config.vectorSource (vVal c a))

/-! ## Full-empty bits (R171) -/

def execFeset (ctl : Ctl) (full : Bool) (m : MemOp) (s : State) : Out :=
  issue 0x44 ctl noPriv [memSrc m] [] s fun uid c t =>
    orTrap (t.resolve c m.mode (formAddr c m 8) 8 .wr true .data) fun acc =>
      if !full && t.untaggedIn acc.parts then .trap causePermission (acc.va / 8 * 8)
      else if !c.bufRoom then .wait
      else t.throughMove uid c acc fun t => .done (t.buffer uid acc (.feset full) ctl.loc)

/-- State of a word as `FEGET` reads it; an untagged word reads 1 (R157). -/
def State.feWord (s : State) (a : Nat) : BitVec 64 :=
  if s.untagged a then 1
  else BitVec.ofNat 64 ((if s.isPoisoned a then 2 else 0) + if s.isFull a then 1 else 0)

/-- `FEGET` performed at its home: modified copies are recalled (R165). -/
def State.fegetAt (s : State) (d c a : Nat) : State × BitVec 64 :=
  (s.l1Home (some (coreKey d c)) a false, s.feWord a)

def execFeget (ctl : Ctl) (d : Fin 64) (m : MemOp) (s : State) : Out :=
  issue 0x45 ctl noPriv [memSrc m] [.x d] s fun uid c t =>
    orTrap (t.resolve c m.mode (formAddr c m 8) 8 .rd false .data) fun acc =>
      if c.loadsHeld || t.wordBuffered c acc then .wait
      else t.throughMove uid c acc fun t =>
        match t.whereIs acc .rd with
        | .refused => .done (t.produce uid (poisonFill (.x d)))
        | .far p off =>
          if t.noJob p then .done (t.produce uid (poisonFill (.x d)))
          else .done ((t.pendReg uid (.x d)).sendReq c.die.val p acc.world off c.rlim.toNat c.die .feget
            (.fill uid (.x d) acc none false))
        | .here a _ =>
          if (t.accHome a).die? = some c.die.val then
            let r := t.fegetAt c.die.val c.core.val (partAt a.parts 0)
            .done (r.1.produceWord uid (.x d) r.2)
          else .done (t.loadLater uid (.x d) (.feget acc) false)

/-! ## Lines (R172) -/

/-- The line that a memory operand names: bits [5:0] of the address are ignored. -/
def lineAddr (c : Context) (m : MemOp) : Nat := formAddr c m 64 / 64 * 64

/-- PREF: a translation that fails is dropped. -/
def execPref (ctl : Ctl) (own : Bool) (m : MemOp) (s : State) : Out :=
  issue 0x46 ctl noPriv [memSrc m] [] s fun _ c t =>
    if m.mode ≠ .global then .done t
    else match t.resolve c .global (lineAddr c m) 64 .rd false .data with
      | .error _ => .done t
      | .ok acc => .done (t.l1Pref c.die.val c.core.val ctl.loc (partAt acc.parts 0) own)

/-- A line instruction that takes a store-buffer entry; local modes have no effect. -/
def lineOp (op : Nat) (ctl : Ctl) (m : MemOp) (e : StOp) (s : State) : Out :=
  issue op ctl noPriv [memSrc m] [] s fun uid c t =>
    if m.mode ≠ .global then .done t
    else orTrap (t.resolve c .global (lineAddr c m) 64 .rd false .data) fun acc =>
      if !c.bufRoom then .wait else .done (t.buffer uid acc e ctl.loc)

def execWbl (ctl : Ctl) (m : MemOp) (s : State) : Out := lineOp 0x47 ctl m .wbl s

/-- `INVL.i` discards the core's copies of a block (R51). -/
def execInvl (ctl : Ctl) (icache : Bool) (m : MemOp) (s : State) : Out :=
  if icache then
    issue 0x48 ctl noPriv [memSrc m] [] s fun _ c t =>
      if m.mode ≠ .global then .done t
      else orTrap (t.resolve c .global (lineAddr c m) 64 .rd false .data) fun acc =>
        .done (t.modCore c.die.val c.core.val fun k =>
          { k with icache := KMap.select k.icache fun b _ => b / 65536 != partAt acc.parts 0 / 64 })
  else lineOp 0x48 ctl m .invl s

/-! ## FENCE (R185, R186) -/

/-- An access that touches nothing: that of a marker. -/
def noAcc (world : Nat) : Acc :=
  { parts := [], size := 0, win := 0, rnd := 0, world := world, trusted := false, nodes := [], va := 0 }

/-- FENCE: a marker joins the store buffer, and xd fills once the fence is satisfied. -/
def execFence (ctl : Ctl) (scope : Scope) (sc : Bool) (d : Fin 64) (s : State) : Out :=
  issue 0x49 ctl noPriv [] [.x d] s fun uid c t =>
    let id := c.serial
    let t := (t.modCtx uid fun c => { c with serial := c.serial + 1 }).buffer uid (noAcc c.world) (.marker id) 0
    .done (t.produce uid { dest := .x d, also := none, src := .fence id scope sc, flags := 0, nan := none, acq := none })

end Sys2Proof.Machine
end

