-- ==== Sys2Proof/Machine/Buffer.lean ====
section
/-! DEFINITION. The store buffer drains (R176 to R178, R184), and refused accesses try again (R168). -/

namespace Sys2Proof.Machine

/-! ## When an entry may leave (R176 to R179, R186) -/

/-- The entry is an ordered flag. -/
def SEntry.isFlag (e : SEntry) : Bool :=
  match e.op with
  | .flag .. => true
  | _ => false

/-- A synchronising store. -/
def SEntry.isSync (e : SEntry) : Bool :=
  match e.op with
  | .store .wefill _ | .flag _ .wefill _ => true
  | _ => false

/-- A later entry may be performed before an earlier one: their homes do not both lie on the issuing die, they touch
different words, the earlier one is no marker, and the later one no ordered flag and no synchronising store (R167, R177, R178,
R186, R349). -/
def State.mayPass (s : State) (c : Context) (later earlier : SEntry) : Bool :=
  !earlier.isMarker && !later.isFlag && !later.isSync && !(wordsMeet (s.places later.acc) (s.places earlier.acc))
    && !((s.placeHome later.acc).die? == some c.die.val && (s.placeHome earlier.acc).die? == some c.die.val)

/-- Entry `k` of a context may be performed now. -/
def State.mayDrain (s : State) (c : Context) (k : Nat) (e : SEntry) : Bool :=
  !e.isMarker && !e.admitted && e.after.isEmpty && c.retryAt == 0 && (c.sbuf.take k).all fun f => s.mayPass c e f

/-! ## Performing an entry -/

/-- Entry `k` leaves the buffer. -/
def State.unbuffer (s : State) (uid k : Nat) : State := s.modCtx uid fun c => { c with sbuf := c.sbuf.eraseIdx k }

/-- What a store mode other than wefill makes of the full-empty bit. -/
def StMode.fe : StMode → Option Bool
  | .plain => none
  | .fill | .wefill => some true
  | .empty => some false

/-- A store that does not wait, at homes of this package: a plain one through the L1 where it may (R165). -/
def State.storeHere (s : State) (uid : Nat) (c : Context) (e : SEntry) (acc : Acc) (job : Bool) (mode : StMode)
    (data : List Byte) : State :=
  match s.accHome acc with
  | .page => s.storePages acc.world (partAt acc.parts 0) data acc.trusted
  | _ =>
    let bad := s.partPoison acc.parts
    let s := s.l1Each acc.parts fun s l =>
      if mode == .plain && !job then s.l1Write c.die.val c.core.val e.loc l
      else s.l1Home (some (coreKey c.die.val c.core.val)) l true
    let s := s.storeParts acc.world acc.parts data (StMode.fe mode)
    if bad then s.failStore uid (s.entryScope c e) none failPoisoned else s

/-- Cuts data at line boundaries of the segments it lies over. -/
def cutData : List (Nat × Nat) → List Byte → List (Nat × Nat × List Byte)
  | [], _ => []
  | p :: ps, bs => (p.1, p.2, bs.take p.2) :: cutData ps (bs.drop p.2)

/-- A refused entry waits and tries again, or its context faults (R167, R168). -/
def State.refuseEntry (s : State) (uid : Nat) (c : Context) (k : Nat) (rlim word : Nat) : State :=
  match s.refuseAfter uid c rlim word with
  | .hold t => t
  | _ => (s.unbuffer uid k).takeFault uid 0x41 causeRetry word (c.stepped.getD c.pc)

/-- A wait-empty store at homes of this package (R167, R168). -/
def State.storeWait (s : State) (uid : Nat) (c : Context) (k rlim : Nat) (acc : Acc) (data : List Byte) : State :=
  let left := cutData (splitLines acc.parts) data
  let wait := left.filter fun p => !(s.allEmpty p.1 p.2.1)
  if !(wait.all fun p => s.listRoom p.1) then s.refuseEntry uid c k rlim (acc.va / 8 * 8)
  else
    let s := s.modCtx uid fun c =>
      { c with refusals := none,
               sbuf := c.sbuf.modify k fun e => { e with acc := acc, admitted := true } }
    let s := s.l1Each acc.parts fun s l => s.l1Home (some (coreKey c.die.val c.core.val)) l true
    s.arriveWaiter { word := partAt acc.parts 0 / 8 * 8, world := acc.world, nodes := acc.nodes,
                     op := .store uid acc left } acc.parts

/-- Opcode of a synchronising access: `LD`, `LDV`, `ST` or `STV`. -/
def syncOpcode (dest : Option AnyReg) (acc : Acc) : Nat :=
  match dest with
  | some (.v _) => 0x42
  | some _ => 0x40
  | none => if acc.size = 128 then 0x43 else 0x41

/-- A synchronising access that cannot go faults its context at the instruction that issued it (R346). -/
def State.failSync (s : State) (uid : Nat) (c : Context) (op cause va : Nat) : State :=
  s.takeFault uid op cause va (c.stepped.getD c.pc)

/-- A failed store that the own package's export table does not admit: it travelled on no path (R187, R345). -/
def State.refusedHere (s : State) (uid : Nat) (c : Context) (k : Nat) (e : SEntry) : State :=
  (s.unbuffer uid k).failStore uid (s.entryScope c e) none failRefused

/-- A store entry at homes of this package. Through the own export table, a mode that needs a full-empty bit of its own is
refused on untagged memory, as it is to another package (R157, R345). -/
def State.storeEntryHere (s : State) (uid : Nat) (c : Context) (k : Nat) (e : SEntry) (acc : Acc) (job : Bool) (mode : StMode)
    (data : List Byte) : State :=
  if job && StMode.tagged mode && s.untaggedIn acc.parts then
    if mode == .wefill then (s.unbuffer uid k).failSync uid c (syncOpcode none e.acc) causePermission e.acc.va
    else s.refusedHere uid c k e
  else if mode == .wefill then s.storeWait uid c k e.rlim acc data
  else (s.unbuffer uid k).storeHere uid c e acc job mode data

/-- An entry that the sending NI of a package of no job fails (R187, R341): it travelled on no path. An entry to another
package becomes a request (R174, R345). -/
def State.storeRemote (s : State) (uid : Nat) (c : Context) (k : Nat) (e : SEntry) (p off : Nat) (sync : Bool) (op : FabOp) :
    State :=
  if s.noJob p then
    if sync then (s.unbuffer uid k).failSync uid c (syncOpcode none e.acc) causePermission e.acc.va
    else s.refusedHere uid c k e
  else
    (s.unbuffer uid k).sendReq c.die.val p e.acc.world off e.rlim c.die op
      (if sync then .sync uid none e.acc none false else .store uid)

/-- A store or ordered flag of a store buffer is performed. -/
def State.drainStore (s : State) (uid : Nat) (c : Context) (k : Nat) (e : SEntry) (mode : StMode) (data : List Byte)
    (remote : FabOp) : State :=
  match s.whereIs e.acc .wr with
  | .here a job => s.storeEntryHere uid c k e a job mode data
  | .far p off => s.storeRemote uid c k e p off (mode == .wefill) remote
  | .refused =>
    if mode == .wefill then (s.unbuffer uid k).failSync uid c (syncOpcode none e.acc) causePermission e.acc.va
    else s.refusedHere uid c k e

/-- `FESET` performed at its home (R171). -/
def State.fesetAt (s : State) (d c a : Nat) (full : Bool) : State :=
  if s.untagged a then s else (s.l1Home (some (coreKey d c)) a true).storeFe (a / 8 * 8) full

/-- `FESET` is performed. -/
def State.drainFeset (s : State) (uid : Nat) (c : Context) (k : Nat) (e : SEntry) (full : Bool) : State :=
  match s.whereIs e.acc .wr with
  | .here a job =>
    if job && !full && s.untaggedIn a.parts then s.refusedHere uid c k e
    else (s.unbuffer uid k).fesetAt c.die.val c.core.val (partAt a.parts 0) full
  | .far p off => s.storeRemote uid c k e p off false (.feset full)
  | .refused => s.refusedHere uid c k e

/-- `RED` is performed (R199, R202). A job-scope word is in no L1 (R345). -/
def State.drainRed (s : State) (uid : Nat) (c : Context) (k : Nat) (e : SEntry) (op : RedOp) (w64 : Bool)
    (data : BitVec 64) : State :=
  match s.whereIs e.acc .rw with
  | .here a job =>
    let p := partAt a.parts 0
    let r := ((s.unbuffer uid k).l1Atomic c.die.val c.core.val (if job then 2 else e.loc) p).atomicAt e.acc.world p (.red op)
      w64 data
    if r.2.1.isNone then r.1.failStore uid (s.entryScope c e) none failPoisoned else r.1
  | .far p off => s.storeRemote uid c k e p off false (.atomic op w64 data false)
  | .refused => s.refusedHere uid c k e

/-- An entry of a store buffer is performed. -/
def State.drainEntry (s : State) (uid : Nat) (c : Context) (k : Nat) (e : SEntry) : State :=
  match e.op with
  | .store mode data =>
    s.drainStore uid c k e mode data (.store e.acc.size (BitVec.ofNat 1024 (leNat data)) mode)
  | .flag size mode data =>
    s.drainStore uid c k e mode (leBytes size data.toNat) (.flag size data mode 0 0 0 0)
  | .feset full => s.drainFeset uid c k e full
  | .red op w64 data => s.drainRed uid c k e op w64 data
  | .wbl => (s.unbuffer uid k).l1Clean c.die.val c.core.val (partAt e.acc.parts 0)
  | .invl => (s.unbuffer uid k).l1Drop c.die.val c.core.val (partAt e.acc.parts 0)
  | .marker _ => s

/-- STORE_BUFFER_DRAIN (R176): entry `k` of a context leaves, where the order of its accesses lets it. One that a migration
holds waits in its controller's retry list, or in its buffer while that list is full (R147). -/
def execStoreBufferDrain (uid k : Nat) (s : State) : Out :=
  match s.ctx? uid with
  | none => .next s
  | some c => match c.sbuf[k]? with
    | none => .next s
    | some e =>
      if !(s.mayDrain c k e) then .next s
      else match s.pauser uid (.entry e.num) (s.places e.acc) with
        | none => .next (((s.unpause uid (.entry e.num)).drainEntry uid c k e).reap uid)
        | some m =>
          if s.hasPaused uid (.entry e.num) || !(s.listRoom (partAt (s.places e.acc) 0)) then .next s
          else .next (s.admitPaused uid (.entry e.num) m e.acc)

end Sys2Proof.Machine
end

