-- ==== Sys2Proof/Machine/Messages.lean ====
section
/-! DEFINITION. Messages and work, opcodes 0x70 to 0x75 (R81, R100, R101, R122, R423), and the arrival queue of a core
(R84 to R89). -/

namespace Sys2Proof.Machine

/-! ## Sending (R81, R100, R423) -/

/-- Where a destination word leads: to a core of this package, to another package, or nowhere. -/
inductive SendTo where
  | here (die core : Nat)
  | away (pkg die core : Nat)
  | none

/-- Reads a destination word in the launch of a context (R81). -/
def State.sendTo (s : State) (c : Context) (v : BitVec 64) : SendTo :=
  let n := v.toNat
  if bits n 63 38 ≠ 0 ∨ bits n 30 25 ≠ 0 then .none
  else if bits n 31 31 = 1 then
    match (s.factsOf c.lid).bind fun l => l.coreOf (bits n 24 0) with
    | some p => .here p.1 p.2
    | none => .none
  else if bits n 24 11 = s.pkg.toNat then .here (bits n 10 8) (bits n 7 0)
  else if s.noJob (bits n 24 11) then .none
  else .away (bits n 24 11) (bits n 10 8) (bits n 7 0)

def coreNo (n : Nat) : CoreNo := ⟨n % 256, Nat.mod_lt _ (by decide)⟩
def chanNo (n : Nat) : Fin 64 := ⟨n % 64, Nat.mod_lt _ (by decide)⟩

/-- Sends a message: its release comes first (R180), and its status fills when it is accepted or refused (R84). -/
def State.sendMsg (s : State) (uid : Nat) (c : Context) (xs : Fin 64) (dst : BitVec 64) (payload : List (BitVec 64))
    (line : Bool) (hpc : Option (BitVec 64)) : Res :=
  let chan := dst.toNat / 2 ^ 32 % 64
  let hdr := msgHeader chan line hpc.isSome c.core.val c.die.val s.pkg.toNat
  match s.sendTo c dst with
  | .none => .done (s.produceWord uid (.x xs) (errWord 3))
  | .here d k =>
    if !(s.released uid c (scopeOfCore c d k)) then .wait
    else if s.unreachable (clKey d (clusterOf k)) c.region then .done (s.produceWord uid (.x xs) (errWord 3))
    else
      .done ((s.pendReg uid (.x xs)).post
        { chan := chan, die := dieOf d, core := coreNo k, world := c.world, lid := c.lid, item := c.item, header := hdr,
          payload := payload, hpc := hpc, gen := false, status := some { uid := uid, dest := .x xs }, remote := none,
          sender := uid, task := none, since := s.cyc d, table := none })
  | .away p d k =>
    if !(s.released uid c .job) then .wait
    else
      .done ((s.pendReg uid (.x xs)).sendReq c.die.val p c.world 0 c.rlim.toNat (dieOf d)
        (.message (chanNo chan) (coreNo k) (dieOf d) hdr c.item hpc payload c.lid)
        (.message (some { uid := uid, dest := .x xs })))

/-- Sources of a payload. -/
def payloadSrcs : SendPayload → List Src
  | .reg a => xiSrcs a
  | .line m => [memSrc m]

/-- The eight words of a line. -/
def lineWords (bs : List Byte) : List (BitVec 64) :=
  (List.range (bs.length / 8)).map fun i => BitVec.ofNat 64 (leNat ((bs.drop (8 * i)).take 8))

/-- Reads the payload of a send (R420) and sends it. -/
def State.sendWith (s : State) (uid : Nat) (c : Context) (loc : BitVec 2) (xs : Fin 64) (dst : BitVec 64) (p : SendPayload)
    (hpc : Option (BitVec 64)) : Res :=
  match p with
  | .reg a => s.sendMsg uid c xs dst [xiVal c a] false hpc
  | .line m => (s.readBlock uid c loc m 64).into fun s bs => s.sendMsg uid c xs dst (lineWords bs) true hpc

def execSend (ctl : Ctl) (xs : Fin 64) (dst : XSrc) (p : SendPayload) (s : State) : Out :=
  issue 0x70 ctl inSlot6 (xSrc dst :: payloadSrcs p) [.x xs] s fun uid c t => t.sendWith uid c ctl.loc xs (xVal c dst) p none

/-- The register after one; `SENDH` never names x63. -/
def nextReg (r : Fin 64) : Fin 64 := ⟨(r.val + 1) % 64, Nat.mod_lt _ (by decide)⟩

def execSendh (ctl : Ctl) (xs : Fin 64) (dst : XSrc) (p : SendPayload) (s : State) : Out :=
  issue 0x71 ctl inSlot6 (xSrc dst :: ⟨.x (nextReg dst.reg), false⟩ :: payloadSrcs p) [.x xs] s fun uid c t =>
    t.sendWith uid c ctl.loc xs (xVal c dst) p (some (c.getX (nextReg dst.reg).val))

/-! ## Channels (R101) -/

/-- Changes an entry of the issuing core's table of a context's world (R101). Where several tables of the world are resident
the manual names none: the model changes the one that a message of the context would select (R82): its own launch's, else
the one whose launch was accepted first (DESIGN CHOICE, log 85). -/
def State.modChan (s : State) (c : Context) (ch : Nat) (f : HEntry → HEntry) : State :=
  match s.tableFor c.die.val c.core.val c.lid c.world with
  | some t => s.modEntry c.die.val c.core.val t.lid ch f
  | none => s

/-- An encoding that masks channel 62 outside slot 7 (R101): it faults whatever its guard (R37). -/
def chmaskPriv (unmask : Bool) (ch : XI) (c : Context) : Bool :=
  match ch with
  | .i k => !unmask && k.toNat % 64 == 62 && c.slot != some 7
  | .x _ => false

/-- CHMASK: masking channel 62 is confined to slot 7. -/
def execChmask (ctl : Ctl) (unmask : Bool) (ch : XI) (s : State) : Out :=
  issue 0x72 ctl (chmaskPriv unmask ch) (xiSrcs ch) [] s fun _ c t =>
    let k := (xiVal c ch).toNat % 64
    if !unmask && k == 62 && c.slot != some 7 then .trap causePrivileged 0
    else .done (t.modChan c k fun e => { e with mask := !unmask })

def execChpri (ctl : Ctl) (ch pri : XI) (s : State) : Out :=
  issue 0x73 ctl noPriv (xiSrcs ch ++ xiSrcs pri) [] s fun _ c t =>
    .done (t.modChan c ((xiVal c ch).toNat % 64) fun e =>
      { e with pri := ⟨(xiVal c pri).toNat % 4, Nat.mod_lt _ (by decide)⟩ })

/-! ## Tile tasks (R119 to R122) -/

/-- A record of 128 bytes breaks R119. -/
def badTask (n : Nat) : Bool :=
  bits n 511 448 != 0 || bits n 383 323 != 0 || decide (3 < bits n 322 320) || bits n 319 256 % 8 != 0

/-- The task of a record. -/
def taskOf (c : Context) (n : Nat) : TTask :=
  { stage := .waiting, source := c.core, world := c.world, lid := c.lid, region := c.region, space := c.space, item := c.item,
    args := (List.range 8).map fun i => BitVec.ofNat 64 (n / 2 ^ (512 + 64 * i)),
    tag := BitVec.ofNat 64 (n / 2 ^ 384), kind := ⟨bits n 322 320 % 4, Nat.mod_lt _ (by decide)⟩, done := bits n 319 256,
    deps := ((List.range 4).map fun i => bits n (64 * i + 63) (64 * i)).filterMap fun a =>
      if a = 0 then none else some (a, false, false) }

/-- Marks dependence `i` of a task: met, waiting. -/
def State.markDep (s : State) (r : TaskRef) (i : Nat) (met waits : Bool) : State :=
  s.modCluster r.die r.cl fun k => { k with tasks := KMap.modify k.tasks r.k fun t =>
    { t with deps := t.deps.modify i fun p => (p.1, met, waits) } }

/-- Tests a dependence (R120): met when its word is full, else it waits in the retry list of the word's controller
where that has room; a word that faults ends the task. The full-empty bit of a word of another package is free. -/
def State.testDep (s : State) (r : TaskRef) (i : Nat) : State :=
  match KMap.look (s.cluster r.die r.cl).tasks r.k with
  | none => s
  | some t => match t.deps[i]? with
    | none => s
    | some (a, _, _) =>
      match s.resolveGlobal t.world t.space false a 8 8 .rd with
      | .error _ => s.endTask r (errWord 9)
      | .ok acc =>
        let here := fun (s : State) (w : Nat) =>
          if s.isFull w then s.markDep r i true false
          else if s.listRoom w then
            (s.markDep r i false true).admitWaiter { word := w, world := t.world, nodes := acc.nodes, op := .task r i }
          else s.markDep r i false false
        match s.accHome acc with
        | .job p =>
          if p = s.pkg.toNat then
            match s.ownParts acc .rd with
            | some q => here s (partAt q.parts 0)
            | none => s.endTask r (errWord 9)
          else if s.noJob p then s.endTask r (errWord 9)
          else
            let q := s.draw
            q.2.markDep r i (q.1.getLsbD 0) false
        | _ => here s (partAt acc.parts 0)

/-- Queues a task and tests its dependences. -/
def State.addTask (s : State) (uid : Nat) (c : Context) (xs : Fin 64) (t : TTask) : State :=
  let d := c.die.val
  let cl := clusterOf c.core.val
  let k := (s.cluster d cl).nextTask
  if 1024 ≤ (s.cluster d cl).tasks.length then s.produceWord uid (.x xs) (errWord 8)
  else
    let s := s.modCluster d cl fun x => { x with tasks := KMap.put x.tasks k t, nextTask := k + 1 }
    let s := s.produceWord uid (.x xs) 0
    (List.range t.deps.length).foldl (fun (s : State) i => s.testDep { die := d, cl := cl, k := k } i) s

def execTask (ctl : Ctl) (xs : Fin 64) (m : MemOp) (s : State) : Out :=
  issue 0x74 ctl noPriv [memSrc m] [.x xs] s fun uid c t =>
    (t.readBlock uid c ctl.loc m 128).into fun t bs =>
      if badTask (leNat bs) then .done (t.produceWord uid (.x xs) (errWord 9))
      else if !(t.released uid c .pkg) then .wait
      else .done (t.addTask uid c xs (taskOf c (leNat bs)))

/-- LAUNCH: a message to the launch controller, after a release at system scope. -/
def execLaunch (ctl : Ctl) (xs : Fin 64) (m : MemOp) (s : State) : Out :=
  issue 0x75 ctl noPriv [memSrc m] [.x xs] s fun uid c t =>
    let a := formAddr c m 256
    if a % 256 ≠ 0 then .trap causeMisaligned a
    else if !(t.released uid c .sys) then .wait
    else
      let t := t.pendReg uid (.x xs)
      .done { t with launchMsgs := t.launchMsgs ++
        [{ space := c.space, addr := a, issuer := some c.region, sink := .reg { uid := uid, dest := .x xs } }] }

/-! ## Arrival (R82, R84) -/

/-- The status of a message goes to its sender. -/
def State.msgStatus (s : State) (m : Msg) (v : BitVec 64) : State :=
  match m.remote with
  | some r => s.answer r.1 r.2.1 r.2.2 (.performed (v.setWidth 1024))
  | none => match m.status with
    | some t => s.pushFill t.uid (valueFill t.dest v)
    | none => s

/-- An entry after one more refusal; the count saturates. -/
def HEntry.refuse (e : HEntry) : HEntry :=
  { e with refused := if e.refused = BitVec.allOnes 32 then e.refused else e.refused + 1 }

/-- The queue of a core has room for a message: four entries are held back for channel 62. -/
def queueRoom (q : List Msg) (chan : Nat) : Bool :=
  decide (q.length < 64) && (chan == 62 || decide ((q.filter fun m => m.chan != 62).length < 60))

/-- An earlier message of the same sender, core and channel is still on its way. -/
def olderOnWay (net : List Msg) (k : Nat) (m : Msg) : Bool :=
  m.sender != 0 && (net.take k).any fun x =>
    x.sender == m.sender && x.die == m.die && x.core == m.core && x.chan == m.chan

/-- Takes message `k` out of the network. -/
def State.offNet (s : State) (k : Nat) : State := { s with net := s.net.eraseIdx k }

/-- A task whose message cannot start its handler ends with not_permitted, which R120 gives where entry 63 does not allow
it; where the message fails for another reason (no table, a core that is away, a timeout) the manual gives no status and the
model fills the same one (DESIGN CHOICE, log 86). -/
def State.taskRefused (s : State) (m : Msg) : State :=
  match m.task with
  | some r => s.endTask r (errWord 1)
  | none => s

/-- Cause of the fault that a fault message reports (R89). -/
def Msg.faultCause (m : Msg) : Nat := ((m.payload[3]?).getD 0).toNat % 256

/-- A message is refused. A fault message that finds no table, or an entry that is not permitted, tears its world down
(R89); one that is not accepted in time is dropped (R84). -/
def State.refuseMsg (s : State) (m : Msg) (code : Nat) : State :=
  if m.gen && m.chan == 62 then if code = 4 then s else s.stopWorld m.world .noTable m.faultCause
  else (s.msgStatus m (errWord code)).taskRefused m

/-- MESSAGE_ARRIVAL (R84): message `k` of the network is refused, accepted, or waits where it is. -/
def execMessageArrival (k : Nat) (s : State) : Out :=
  match s.net[k]? with
  | none => .next s
  | some m =>
    if olderOnWay s.net k m then .next s
    else
      let d := m.die.val
      let c := m.core.val
      let away := match s.launch? m.lid with
        | some l => s.unreachable (clKey d (clusterOf c)) l.region
        | none => s.isCycling (clKey d (clusterOf c))
      if away then .next ((s.offNet k).refuseMsg m 3)
      else match s.tableFor d c m.lid m.world with
      | none => .next ((s.offNet k).refuseMsg m 2)
      | some t =>
        let e := t.entry m.chan
        if !e.permitted || (!m.gen && decide (62 ≤ m.chan)) then
          .next (((s.offNet k).modEntry d c t.lid m.chan HEntry.refuse).refuseMsg m 1)
        else if queueRoom (s.core d c).queue m.chan then
          .next (((s.offNet k).modCore d c fun x => { x with queue := x.queue ++ [{ m with table := some t.lid }] }).msgStatus m 0)
        else .next s

/-- MESSAGE_TIMEOUT (R84). -/
def execMessageTimeout (k : Nat) (s : State) : Out :=
  match s.net[k]? with
  | none => .next s
  | some m =>
    if m.since + 65536 ≤ s.cyc m.die.val then .next ((s.offNet k).refuseMsg m 4) else .next s

/-- An outstanding request by its handle. -/
def State.outstOf (s : State) (h : Nat) : Option Outst := KMap.look (s.die (h % 8)).ni.outst (h / 8)

/-- An outstanding request is complete. -/
def State.dropOutst (s : State) (h : Nat) : State :=
  s.modNi (h % 8) fun n => { n with outst := KMap.del n.outst (h / 8) }

/-- REMOTE_MESSAGE_STATUS (R423): the acceptance or refusal of a message to another package comes back. -/
def execRemoteMessageStatus (seq : Nat) (status : BitVec 64) (s : State) : Out :=
  match s.outstOf seq with
  | none => .next s
  | some o => match o.todo with
    | .message t =>
      let s := s.dropOutst seq
      .next (match t with
        | some t => s.pushFill t.uid (valueFill t.dest status)
        | none => s)
    | _ => .next s

/-! ## Starting handlers (R83, R85 to R89) -/

/-- The table that a queued message selected when it arrived (R82). Where that table has left the core since, the manual
names none: the model selects anew among those that are resident (DESIGN CHOICE, log 87). -/
def State.msgTable (s : State) (d c : Nat) (m : Msg) : Option HTable :=
  match (s.core d c).tables.find? fun t => some t.lid == m.table && t.world == m.world with
  | some t => some t
  | none => s.tableFor d c m.lid m.world

/-- Arrivals of a world stay queued on a cluster: a region of the world is pre-empted there (R127). -/
def State.arrivalsHeld (s : State) (d cl w : Nat) : Bool :=
  (s.cluster d cl).pre.any fun p => s.regionWorld p.region == w

/-- Landing packets of a world wait on a cluster where a region of it has been pre-empted. Until then they are part of the
copies and posts that the choice finishes first (R125, R127, log 88). -/
def State.landingHeld (s : State) (d cl w : Nat) : Bool :=
  (s.cluster d cl).pre.any fun p => p.stage == .out && s.regionWorld p.region == w

/-- A message may start its handler in slots 0 to 5: its entry and its table. -/
def State.startable (s : State) (d c : Nat) (m : Msg) : Option (HTable × HEntry) :=
  if m.chan = 62 || s.arrivalsHeld d (clusterOf c) m.world then none
  else match s.msgTable d c m with
    | none => none
    | some t =>
      let e := t.entry m.chan
      if e.landing || e.mask then none else some (t, e)

/-- The first message of the highest priority among those that may start: its place, message, table, entry. -/
def State.firstStartable (s : State) (d c : Nat) : List Msg → Nat → Option (Nat × Msg × HTable × HEntry)
  | [], _ => none
  | m :: ms, i =>
    match s.startable d c m, s.firstStartable d c ms (i + 1) with
    | some p, some q => if p.2.pri ≤ q.2.2.2.pri then some (i, m, p.1, p.2) else some q
    | some p, none => some (i, m, p.1, p.2)
    | none, r => r

/-- The registers of a handler (R83): x1 the header, x2 onwards the payload. -/
def handlerRegs (m : Msg) : KMap (BitVec 64) :=
  m.payload.zipIdx.foldl (fun r p => KMap.putD r (p.2 + 2) 0 p.1) (KMap.putD [] 1 0 m.header)

/-- Lines of a handler's registers, created in the register cache without reading memory (R85). -/
def freshLines (ns : List Nat) : KMap LineSt :=
  ns.foldl (fun m n => KMap.put m n { dirty := true, evict := false, use := 0 }) []

/-- A context takes a slot of a core. -/
def State.enterSlot (s : State) (uid d c n : Nat) : State :=
  (s.modCore d c fun k => { k with slots := KMap.put k.slots n uid, passed := KMap.del k.passed n,
                                   starved := k.starved.filter fun x => x.val != n }).modCtx uid fun x =>
    { x with slot := some (slotFin n) }

/-- Starts the handler of a message in a slot. -/
def State.startHandler (s : State) (d c n : Nat) (m : Msg) (t : HTable) (e : HEntry) (kind : CtxKind) : State :=
  let x : Context := { Context.fresh t.world t.space t.region t.lid m.item (dieOf d) (coreNo c) (m.hpc.getD e.pc) t.compat with
    kind := kind, state := .running, channel := m.chan, task := m.task, x := handlerRegs m,
    lines := freshLines [0, 1, 72] }
  let u := s.nextUid
  (s.addCtx x).enterSlot u d c n

/-- HANDLER_START (R85). A handler whose first lines find no room in the register cache waits (R86, log 89). -/
def execHandlerStart (d : DieNo) (c : CoreNo) (s : State) : Out :=
  match s.freeSlot d.val c.val, s.firstStartable d.val c.val (s.core d.val c.val).queue 0, s.linesRoom d.val c.val 3 with
  | some n, some (i, m, t, e), some s =>
    .next ((s.modCore d.val c.val fun k => { k with queue := k.queue.eraseIdx i }).startHandler d.val c.val n m t e .pinned)
  | _, _, _ => .next s

/-- Place of the first fault message of a queue that is not held: no pre-emption holds its world's arrivals (R127), and
entry 62 of its table is not masked (R82, R85). -/
def firstFault : List (Msg × Bool) → Nat → Option (Nat × Msg)
  | [], _ => none
  | (m, held) :: ms, i => if m.chan = 62 && !held then some (i, m) else firstFault ms (i + 1)

/-- A fault message stays queued on a core. -/
def State.faultHeld (s : State) (d c : Nat) (m : Msg) : Bool :=
  s.arrivalsHeld d (clusterOf c) m.world || (match s.msgTable d c m with
    | some t => (t.entry 62).mask
    | none => false)

/-- FAULT_HANDLER_START (R89). -/
def execFaultHandlerStart (d : DieNo) (c : CoreNo) (s : State) : Out :=
  if !(s.slotFree d.val c.val 7) then .next s
  else match firstFault ((s.core d.val c.val).queue.map fun m => (m, s.faultHeld d.val c.val m)) 0,
      s.linesRoom d.val c.val 3 with
    | none, _ | _, none => .next s
    | some (i, m), some s =>
      let s := s.modCore d.val c.val fun k => { k with queue := k.queue.eraseIdx i }
      match s.msgTable d.val c.val m with
      | none => .next (s.stopWorld m.world .noTable m.faultCause)
      | some t => .next (s.startHandler d.val c.val 7 m t (t.entry 62) .faultHandler)

/-- Opcode of the instruction that a context stands before; 0 when its fetch yields no word. -/
def State.nextOpcode (s : State) (c : Context) : Nat :=
  match s.fetch c with
  | .word _ w _ _ => w.toNat / 2 ^ 88
  | _ => 0

/-- HANDLER_BUDGET (R86): the instruction that the handler would issue next, or on which it is blocked, faults. -/
def execHandlerBudget (uid : Nat) (s : State) : Out :=
  match s.ctx? uid with
  | none => .next s
  | some c =>
    if s.overBudget c then
      let pc := if c.wait == .none then c.pc else c.stepped.getD c.pc
      .next (s.takeFault uid (s.nextOpcode { c with pc := pc }) causeBudget 0 pc)
    else .next s

/-- A packet may not start its handler yet: its entry is masked (R82), or its world's packets wait (R127). -/
def State.packetHeld (s : State) (d c lid ch : Nat) : Bool :=
  match (s.core d c).tables.find? fun t => t.lid == lid with
  | some t => (t.entry ch).mask || s.landingHeld d (clusterOf c) t.world
  | none => false

/-- LANDING_PACKET_OFFER (R88): of the packets whose entries let them start, the one that has waited longest starts its
handler in slot 6. -/
def execLandingPacketOffer (d : DieNo) (c : CoreNo) (s : State) : Out :=
  if !(s.slotFree d.val c.val 6) then .next s
  else match (s.core d.val c.val).landq.find? fun q => !(s.packetHeld d.val c.val q.1 q.2.2.1) with
    | none => .next s
    | some (lid, l, ch, item) =>
      let rest := (s.core d.val c.val).landq.erase (lid, l, ch, item)
      match (s.core d.val c.val).tables.find? fun t => t.lid == lid with
      | some t =>
        match s.linesRoom d.val c.val 6 with
        | none => .next s
        | some s =>
        let s := s.modCore d.val c.val fun k => { k with landq := rest }
        let p := match l with
          | .copy _ _ _ dest len data => (dest, len, data)
          | .bulk _ _ _ _ dest len data => (dest, len, data)
        let half := fun (i : Nat) => BitVec.ofNat 1024 (leNat ((p.2.2.drop (128 * i)).take 128))
        let x : Context := { Context.fresh t.world t.space t.region lid item d c (t.entry ch).pc t.compat with
          kind := .landing, state := .running, channel := ch, landing := some l,
          x := KMap.putD (KMap.putD [] 1 0 (BitVec.ofNat 64 p.1)) 2 0 (BitVec.ofNat 64 p.2.1),
          v := KMap.putD (KMap.putD [] 0 0 (half 0)) 1 0 (half 1),
          lines := freshLines [0, 8, 9, 10, 11, 72] }
        let u := s.nextUid
        .next ((s.addCtx x).enterSlot u d.val c.val 6)
      | none => .next (s.modCore d.val c.val fun k => { k with landq := rest })

end Sys2Proof.Machine
end

