-- ==== Sys2Proof/Machine/Control.lean ====
section
/-! DEFINITION. Control and contexts, opcodes 0x00 to 0x0E (R93 to R99), but for `DONE`. -/

namespace Sys2Proof.Machine

/-! ## Branches (R93) -/

/-- NOP. -/
def execNop (ctl : Ctl) (s : State) : Out := issue 0x00 ctl noPriv [] [] s fun _ _ m => .done m

/-- BRA: next := t(imm). -/
def execBra (ctl : Ctl) (imm : BitVec 22) (s : State) : Out :=
  issue 0x01 ctl noPriv [] [] s fun uid c m => m.goto uid c (relTarget c.pc imm)

/-- BRI: next := xt. -/
def execBri (ctl : Ctl) (t : XSrc) (s : State) : Out :=
  issue 0x02 ctl noPriv [xSrc t] [] s fun uid c m => m.goto uid c (xVal c t)

/-- Sources of a call's target. -/
def callSrcs : CallTarget → List Src
  | .rel _ => []
  | .ind t => [xSrc t]

/-- Target of a call, read before the link register is written. -/
def callPc (c : Context) : CallTarget → BitVec 64
  | .rel imm => relTarget c.pc imm
  | .ind t => xVal c t

/-- CALL: xl := succ(PC), next := the target. -/
def execCall (ctl : Ctl) (l : Fin 64) (t : CallTarget) (s : State) : Out :=
  issue 0x03 ctl noPriv (callSrcs t) [.x l] s fun uid c m =>
    match m.arrive c (callPc c t) with
    | some e => .trap e.1 e.2
    | none => .done ((m.setReg uid (.x l) (succPc c.pc)).jump uid (callPc c t))

/-- RET: next := xt. -/
def execRet (ctl : Ctl) (t : XSrc) (s : State) : Out :=
  issue 0x04 ctl noPriv [xSrc t] [] s fun uid c m => m.goto uid c (xVal c t)

/-- LOOP: xc := xc − 1; the branch is taken when that is not 0. -/
def execLoop (ctl : Ctl) (xc : XSrc) (imm : BitVec 22) (s : State) : Out :=
  issue 0x05 ctl noPriv [xSrc xc] [.x xc.reg] s fun uid c m =>
    let n := xVal c xc - 1
    if n = 0 then .done (m.setReg uid (.x xc.reg) n)
    else match m.arrive c (relTarget c.pc imm) with
      | some e => .trap e.1 e.2
      | none => .done ((m.setReg uid (.x xc.reg) n).jump uid (relTarget c.pc imm))

/-- BRF: the branch is taken on the full-empty bit of a register, which is not read. -/
def execBrf (ctl : Ctl) (full : Bool) (r : AnyReg) (imm : BitVec 22) (s : State) : Out :=
  issue 0x0E ctl noPriv [] [] s fun uid c m =>
    if c.isFull r = full then m.goto uid c (relTarget c.pc imm) else .done m

/-! ## Giving up the slot (R79, R94) -/

/-- The context leaves its slot for state suspended, with what it waits for. -/
def State.suspendFor (s : State) (uid : Nat) (w : WaitFor) : State :=
  (s.modCtx uid fun c => { c with state := .suspended, wait := w }).leaveSaved uid

/-- The context leaves its slot for state ready and re-enters the ready queue of its cluster (R113). -/
def State.yieldSlot (s : State) (uid : Nat) : State :=
  let s := s.leaveReady uid
  match s.ctx? uid with
  | some c => if c.state == CxState.ready then s.requeue uid else s
  | none => s

/-- Writes the record of a continuation that stays in its slot; a failure faults it (R104). -/
def State.recordHere (s : State) (uid op : Nat) : State :=
  let r := s.writeRecord uid
  match r.2, s.ctx? uid with
  | some e, some c => r.1.takeFault uid op e.1 e.2 c.pc
  | _, _ => r.1

/-- SUSPEND first makes a pinned handler a free continuation; `none` when no record is free, or for the handler of slot 7,
which cannot be converted (R94, log 16). -/
def State.suspendable (s : State) (uid : Nat) (c : Context) : Option State :=
  if c.isPinned then if c.slot = some 7 then none else s.convert uid else some s

/-- xs := cxid. -/
def State.giveCxid (s : State) (uid : Nat) (xs : Fin 64) : State :=
  match s.ctx? uid with
  | some c => s.setReg uid (.x xs) (BitVec.ofNat 64 c.cxid)
  | none => s

/-- The continuation stays suspended, waiting in the retry list of a word's controller (R94, R168). -/
def State.waitWord (s : State) (uid : Nat) (acc : Acc) (word : Nat) : State :=
  let s := s.suspendFor uid (.word (BitVec.ofNat 64 acc.va))
  match s.ctx? uid with
  | some c =>
    if c.state == CxState.suspended then
      s.admitWaiter { word := word, world := c.world, nodes := acc.nodes, op := .susp uid }
    else s
  | none => s

/-- The memory wait of SUSPEND on a word of this package (R94, R167, R168). -/
def State.suspendWord (s : State) (uid : Nat) (c : Context) (xs : Fin 64) (acc : Acc) (a : Nat) : Res :=
  let w := a / 8 * 8
  if s.untagged w then .trap causePermission (acc.va / 8 * 8)
  else if c.loadsHeld || !(s.lockReady c acc) then .wait
  else s.throughMove uid c acc fun s => match (s.l1Home (some (coreKey c.die.val c.core.val)) w false).suspendable uid c with
    | none => .done (s.setReg uid (.x xs) (errWord 5))
    | some t =>
      let t := t.giveCxid uid xs
      if t.isFull w then .done (t.recordHere uid 0x06)
      else if t.listRoom w then .done (t.waitWord uid acc w)
      else s.refuse uid c (acc.va / 8 * 8)

/-- The memory wait of SUSPEND on a word of another package (R346): a request for it leaves, and its acknowledgement
ends the wait. -/
def State.suspendRemote (s : State) (uid : Nat) (c : Context) (xs : Fin 64) (acc : Acc) (a : Nat) : Res :=
  match s.suspendable uid c with
  | none => .done (s.setReg uid (.x xs) (errWord 5))
  | some t =>
    let t := (t.giveCxid uid xs).suspendFor uid (.word (BitVec.ofNat 64 acc.va))
    match t.ctx? uid with
    | some k =>
      if k.state == CxState.suspended then
        .done (t.sendReq c.die.val (jobPlace a).1 c.world (jobPlace a).2 c.rlim.toNat c.die (.syncLoad 8 false)
          (.sync uid none acc none false))
      else .done t
    | none => .done t

/-- SUSPEND with a memory operand: a handler that cannot be converted goes on with no_record, and forms no address. -/
def State.suspendOn (s : State) (uid : Nat) (c : Context) (xs : Fin 64) (m : MemOp) : Res :=
  if (s.suspendable uid c).isNone then .done (s.setReg uid (.x xs) (errWord 5))
  else orTrap (s.resolve c m.mode (formAddr c m 8) 8 .rd false .data) fun acc =>
    let a := partAt acc.parts 0
    match s.homeOf a with
    | .job p =>
      if p = s.pkg.toNat then
        match s.admits s.job c.world (jobPlace a).2 8 .rd with
        | some q => s.suspendWord uid c xs acc q
        | none => .trap causePermission acc.va
      else if c.loadsHeld || !(s.lockReady c acc) then .wait
      else s.suspendRemote uid c xs acc a
    | _ => s.suspendWord uid c xs acc a

/-- SUSPEND. -/
def execSuspend (ctl : Ctl) (xs : Fin 64) (m : Option MemOp) (s : State) : Out :=
  issue 0x06 ctl inSlot6 (m.toList.map memSrc) [.x xs] s fun uid c t =>
    match m with
    | some m => t.suspendOn uid c xs m
    | none => match t.suspendable uid c with
      | none => .done (t.setReg uid (.x xs) (errWord 5))
      | some t => .done ((t.giveCxid uid xs).yieldSlot uid)

/-- A context that executes YIELD within the cooperative window of a pre-emption is held and counted (R123). -/
def State.yieldHeld (s : State) (uid : Nat) (c : Context) : State :=
  let s := (s.modCtx uid fun c => { c with held := true }).leaveReady uid
  match s.region? c.region with
  | some g => s.setField c.world g.rcb 895 864 (s.field c.world g.rcb 895 864 + 1)
  | none => s

/-- YIELD. -/
def execYield (ctl : Ctl) (s : State) : Out :=
  issue 0x07 ctl inSlot6 [] [] s fun uid c m =>
    if c.isPinned then .done m
    else if m.preempted c.die.val (clusterOf c.core.val) c.region then .done (m.yieldHeld uid c)
    else .done (m.yieldSlot uid)

/-- WAITR: a handler of slots 0 to 5 is converted where a record is free; one that stays pinned waits in its slot. -/
def execWaitr (ctl : Ctl) (r : AnyReg) (s : State) : Out :=
  issue 0x0D ctl inSlot6 [] [] s fun uid c m =>
    if c.isFull r then .done m
    else if c.isPinned then
      if c.slot = some 7 then .wait
      else match m.convert uid with
        | some m => .done (m.suspendFor uid (.reg r))
        | none => .wait
    else .done (m.suspendFor uid (.reg r))

/-! ## Creating contexts and faults (R95 to R99) -/

/-- First line of an image that does not translate with rd and wr: cause and address (R95). -/
def State.imageFault (s : State) (c : Context) (img : Nat) : Option (Nat × Nat) :=
  (List.range 73).findSome? fun k => match s.resolveGlobal c.world c.space false (img + 64 * k) 64 64 .rw with
    | .error e => some e
    | .ok _ => none

/-- Entry PC of `SPAWN`. -/
def spawnPc (c : Context) : XI → BitVec 64
  | .i imm => relTarget c.pc imm
  | .x r => xVal c r

/-- The registers x1 to x7, which `SPAWN` copies. -/
def spawnArgs : List (Fin 64) := [1, 2, 3, 4, 5, 6, 7]

/-- sr.mode as it is created: 1 under SL-480 compatibility (R64, R108). -/
def State.compatOf (s : State) (lid : Nat) : Bool :=
  match s.factsOf lid with
  | some l => l.compat
  | none => false

/-- Makes the continuation of `SPAWN` in a slot of the arena (R95). A pinned handler has no record and so no priority of its
own for its continuation to take: the model gives the region's (DESIGN CHOICE, log 90). -/
def State.spawned (s : State) (uid : Nat) (c : Context) (xs : Fin 64) (pc : BitVec 64) (img : Nat) : State :=
  match s.region? c.region, s.freeRecord c.region c.space with
  | some g, some k =>
    let n : Context := { Context.fresh c.world c.space c.region c.lid c.item c.die c.core pc (s.compatOf c.lid) with
      origin := .spawn, record := (g.slotAt k).1, image := img,
      pri := if c.isPinned then g.pri else c.pri,
      x := spawnArgs.foldl (fun m r => KMap.putD m r.val 0 (c.getX r.val)) [] }
    let u := s.nextUid
    let s := (s.addCtx n).changed u 0
    let s := match s.ctx? u with
      | some x => if x.state == CxState.ready then s.requeue u else s
      | none => s
    s.produceWord uid (.x xs) (BitVec.ofNat 64 n.cxid)
  | _, _ => s.produceWord uid (.x xs) (errWord 5)

/-- SPAWN. x1 to x7 are read as its sources are. -/
def execSpawn (ctl : Ctl) (xs : Fin 64) (t : XI) (ximg : XSrc) (s : State) : Out :=
  issue 0x08 ctl inSlot6 (xiSrcs t ++ [xSrc ximg] ++ spawnArgs.map fun r => ⟨.x r, false⟩) [.x xs] s fun uid c m =>
    let img := (xVal c ximg).toNat
    if img % 64 ≠ 0 then .trap causeMisaligned img
    else match m.imageFault c img with
      | some e => .trap e.1 e.2
      | none =>
        let pc := spawnPc c t
        if badPc pc then .trap causeMisaligned pc.toNat
        else if !(m.released uid c .pkg) then .wait
        else .done (m.spawned uid c xs pc img)

/-- TRAP n. -/
def execTrap (ctl : Ctl) (n : Fin 32) (s : State) : Out :=
  issue 0x0A ctl noPriv [] [] s fun _ _ _ => .trap (0x20 + n.val) 0

/-- TFENCE: the default mask is 0x167. -/
def execTfence (ctl : Ctl) (mask : Option (BitVec 9)) (s : State) : Out :=
  issue 0x0B ctl noPriv [] [] s fun _ c m =>
    if c.anyPend then .wait
    else if c.flags &&& (mask.getD 0x167).setWidth 16 ≠ 0 then .trap causeArith 0
    else .done m

/-- TRET is legal only in slot 7. -/
def notSlot7 (c : Context) : Bool := c.slot != some 7

/-- The live continuation of a world with an id. -/
def State.byCxid (s : State) (w id : Nat) : Option (Nat × Context) :=
  s.ctxs.find? fun p => p.2.world == w && p.2.record != 0 && p.2.cxid == id && p.2.state != .retired

/-- TRET. -/
def execTret (ctl : Ctl) (xs : Fin 64) (xid : XSrc) (s : State) : Out :=
  issue 0x0C ctl notSlot7 [xSrc xid] [.x xs] s fun uid c m =>
    match m.byCxid c.world ((xVal c xid).toNat % 2 ^ 48) with
    | none => .done (m.produceWord uid (.x xs) (errWord 7))
    | some (u, k) =>
      if k.state == CxState.faulted then .done ((m.returnFrom u).produceWord uid (.x xs) 0)
      else .done (m.produceWord uid (.x xs) (errWord 6))

end Sys2Proof.Machine
end

