-- ==== Sys2Proof/Machine/Atomics.lean ====
section
/-! DEFINITION. Atomics, reductions and waits on addresses, opcodes 0x50 to 0x5B (R195 to R208). -/

namespace Sys2Proof.Machine

/-! ## Read-modify-write (R200 to R203) -/

/-- The fill of an atomic performed: its old value with the flags of an add, or poison (R199). -/
def atomFill (dest : AnyReg) (r : Option (BitVec 64) × Nat) (acq : Option Nat) : Fill :=
  match r.1 with
  | some v => { valueFill dest v with
      flags := flagBits r.2, nan := (scalarNan .f32 .f32 .f32).map fun x => x.by (acq.getD x.seq), acq := acq }
  | none => { poisonFill dest with acq := acq }

/-- What an atomic asks of the home on another package. -/
def atomFab (op : AtomOp) (w64 : Bool) (b : BitVec 64) : FabOp :=
  match op with
  | .red o => .atomic o w64 b true
  | .swap => .swap w64 b
  | .cas e => .cas w64 e b
  | .fadd => .fadd (b.truncate 32)

/-- The operation is `AFADD`. -/
def AtomOp.isFadd : AtomOp → Bool
  | .fadd => true
  | _ => false

/-- An atomic of a context (R195, R198): it waits for earlier stores as a locked access does, and is an acquire. -/
def State.atomicOp (s : State) (uid : Nat) (c : Context) (ctl : Ctl) (dest : AnyReg) (acc : Acc) (op : AtomOp)
    (w64 : Bool) (b : BitVec 64) : Res :=
  if c.loadsHeld || !(s.lockReady c acc) then .wait
  else s.throughMove uid c acc fun s =>
    match s.whereIs acc .rw with
    | .refused => .done (s.produce uid (poisonFill dest))
    | .far p off =>
      if s.noJob p then .done (s.produce uid (poisonFill dest))
      else
        let q := s.newAcq uid
        .done ((q.2.pendReg uid dest).sendReq c.die.val p acc.world off c.rlim.toNat c.die
          (atomFab op w64 b) (.fill uid dest acc (some q.1) op.isFadd))
    | .here x job =>
      if (s.accHome x).die? = some c.die.val then
        let a := partAt x.parts 0
        let r := (s.l1Atomic c.die.val c.core.val (if job then 2 else ctl.loc) a).atomicAt acc.world a op w64 b
        .done (r.1.produce uid (atomFill dest r.2 none))
      else .done (s.loadLater uid dest (.atom acc op w64 b) true)

/-- Is the width 64 bits? -/
def Width.is64 : Width → Bool
  | .w64 => true
  | .w32 => false

/-- Bytes of a width. -/
def Width.bytes : Width → Nat
  | .w64 => 8
  | .w32 => 4

/-- A value truncated to a width. -/
def Width.trunc (w : Width) (v : BitVec 64) : BitVec 64 :=
  match w with
  | .w64 => v
  | .w32 => (v.truncate 32 : BitVec 32).setWidth 64

/-- An atomic instruction: `f` makes its operation from the context. -/
def atomInstr (op : Nat) (ctl : Ctl) (w : Width) (d : Fin 64) (extra : List Src) (m : MemOp) (b : XI)
    (f : Context → AtomOp) (s : State) : Out :=
  issue op ctl noPriv (extra ++ memSrc m :: xiSrcs b) [.x d] s fun uid c t =>
    orTrap (t.resolve c m.mode (formAddr c m (Width.bytes w)) (Width.bytes w) .rw false .atomic) fun acc =>
      t.atomicOp uid c ctl (.x d) acc (f c) (Width.is64 w) (Width.trunc w (xiVal c b))

def execAadd (ctl : Ctl) (w : Width) (d : Fin 64) (m : MemOp) (b : XI) (s : State) : Out :=
  atomInstr 0x50 ctl w d [] m b (fun _ => .red .add) s

def execAand (ctl : Ctl) (w : Width) (d : Fin 64) (m : MemOp) (b : XI) (s : State) : Out :=
  atomInstr 0x51 ctl w d [] m b (fun _ => .red .and) s

def execAor (ctl : Ctl) (w : Width) (d : Fin 64) (m : MemOp) (b : XI) (s : State) : Out :=
  atomInstr 0x52 ctl w d [] m b (fun _ => .red .or) s

def execAxor (ctl : Ctl) (w : Width) (d : Fin 64) (m : MemOp) (b : XI) (s : State) : Out :=
  atomInstr 0x53 ctl w d [] m b (fun _ => .red .xor) s

def execAmin (ctl : Ctl) (w : Width) (u : Bool) (d : Fin 64) (m : MemOp) (b : XI) (s : State) : Out :=
  atomInstr 0x54 ctl w d [] m b (fun _ => .red (if u then .minu else .min)) s

def execAmax (ctl : Ctl) (w : Width) (u : Bool) (d : Fin 64) (m : MemOp) (b : XI) (s : State) : Out :=
  atomInstr 0x55 ctl w d [] m b (fun _ => .red (if u then .maxu else .max)) s

def execAswp (ctl : Ctl) (w : Width) (d : Fin 64) (m : MemOp) (b : XI) (s : State) : Out :=
  atomInstr 0x56 ctl w d [] m b (fun _ => .swap) s

/-- ACAS: the expected value is the old destination. -/
def execAcas (ctl : Ctl) (w : Width) (d : XSrc) (m : MemOp) (b : XI) (s : State) : Out :=
  atomInstr 0x57 ctl w d.reg [xSrc d] m b (fun c => .cas (Width.trunc w (xVal c d))) s

def execAfadd (ctl : Ctl) (d : Fin 64) (m : MemOp) (b : XSrc) (s : State) : Out :=
  atomInstr 0x58 ctl .w32 d [] m (.x b) (fun _ => .fadd) s

/-- RED takes a store-buffer entry (R202). -/
def execRed (ctl : Ctl) (op : RedOp) (w : Width) (m : MemOp) (b : XI) (s : State) : Out :=
  issue 0x59 ctl noPriv (memSrc m :: xiSrcs b) [] s fun uid c t =>
    orTrap (t.resolve c m.mode (formAddr c m (Width.bytes w)) (Width.bytes w) .rw true .atomic) fun acc =>
      if !c.bufRoom then .wait
      else t.throughMove uid c acc fun t =>
        .done (t.buffer uid acc (.red op (Width.is64 w) (Width.trunc w (xiVal c b))) ctl.loc)

/-! ## Waiting on an address (R204 to R208) -/

/-- Entries of a monitor table (R204). -/
def monitorEntries : Nat := 4096

/-- The context waits: a free continuation is suspended, a handler waits in its slot (R205). -/
def State.waitFor (s : State) (uid : Nat) (c : Context) (w : WaitFor) : State :=
  if c.isPinned then s.modCtx uid fun c => { c with wait := w } else s.suspendFor uid w

/-- Registers a monitor entry for a word, and the context waits. No L1 keeps the line writable (R204). -/
def State.registerMon (s : State) (uid : Nat) (c : Context) (dest : AnyReg) (acc : Acc) (a : Nat) (w64 : Bool)
    (e : BitVec 64) (t : Nat) : State :=
  let q := s.newAcq uid
  let d := c.die.val
  let m : Mon :=
    { addr := a, w64 := w64, expect := e, uid := uid, dest := dest, lim := s.limOwner c.region 6, world := c.world,
      nodes := acc.nodes, deadline := if t = 0 then none else some (s.cyc d + t), acq := q.1, ended := none, endedAt := 0,
      taker := none, order := s.nextOrder }
  let s := (q.2.pendReg uid dest).l1Home (some (coreKey d c.core.val)) a false
  let s := { s with nextOrder := s.nextOrder + 1 }
  let s := s.modDie d fun k => { k with monitors := KMap.put k.monitors k.nextMon m, nextMon := k.nextMon + 1 }
  s.waitFor uid c (.changed (BitVec.ofNat 64 a))

/-- The region has no room for a further monitor entry, or the table has none: the error code (R205, R206). -/
def State.monRefused (s : State) (c : Context) : Option Nat :=
  if s.limMon c.region ≤ s.liveMon c.region then some 0x21
  else if monitorEntries ≤ (s.die c.die.val).monitors.length then some 0x20
  else none

/-- The step of R205 at the home of a word of this package. -/
def State.waitStep (s : State) (uid : Nat) (c : Context) (dest : AnyReg) (acc : Acc) (a : Nat) (w64 : Bool)
    (e : BitVec 64) (t : Nat) : State :=
  let r := (s.l1Home (some (coreKey c.die.val c.core.val)) a false).readSeg acc.world a (monLen w64)
  if r.2.2 then r.1.produceWord uid dest (errWord 0x22)
  else if leNat r.2.1 ≠ e.toNat then r.1.produceWord uid dest 0
  else match r.1.monRefused c with
    | some code => r.1.produceWord uid dest (errWord code)
    | none => r.1.registerMon uid c dest acc a w64 e t

/-- `WAITA` on a word of another package: the entry lies in the issuing die's table, and the home is asked to tell of a
change (R204, R346). Where the sender has no entry for it, the home still tests the word first, and answers the error of a
wait (R205). -/
def State.waitRemote (s : State) (uid : Nat) (c : Context) (dest : AnyReg) (acc : Acc) (p off : Nat) (w64 : Bool)
    (e : BitVec 64) (t : Nat) : State :=
  if s.noJob p then s.produce uid (poisonFill dest)
  else match s.monRefused c with
    | some code =>
      let q := s.newAcq uid
      (q.2.pendReg uid dest).sendReq c.die.val p acc.world off c.rlim.toNat c.die (.waita w64 e (BitVec.ofNat 8 code))
        (.fill uid dest acc (some q.1) false)
    | none =>
      let k := (s.die c.die.val).nextMon
      (s.registerMon uid c dest acc (partAt acc.parts 0) w64 e t).sendReq c.die.val p acc.world off c.rlim.toNat c.die
        (.waita w64 e 0) (.monitor k)

/-- WAITA: the timeout is the old destination, in bits [31:0]. -/
def execWaita (ctl : Ctl) (w : Width) (d : XSrc) (m : MemOp) (e : XI) (s : State) : Out :=
  issue 0x5A ctl inSlot6 (xSrc d :: memSrc m :: xiSrcs e) [.x d.reg] s fun uid c t =>
    orTrap (t.resolve c m.mode (formAddr c m (Width.bytes w)) (Width.bytes w) .rd false .atomic) fun acc =>
      if c.loadsHeld || !(t.lockReady c acc) then .wait
      else t.throughMove uid c acc fun t =>
        let limit := (xVal c d).toNat % 2 ^ 32
        let v := Width.trunc w (xiVal c e)
        match t.whereIs acc .rd with
        | .refused => .done (t.produce uid (poisonFill (.x d.reg)))
        | .far p off => .done (t.waitRemote uid c (.x d.reg) acc p off (Width.is64 w) v limit)
        | .here a _ => .done (t.waitStep uid c (.x d.reg) a (partAt a.parts 0) (Width.is64 w) v limit)

/-! ## WAKEA (R207, R208) -/

/-- Who waits on a word: an entry of a die's table of this package, or one of another package. -/
inductive MonRef where
  | own (die num : Nat)
  | far (pkg : BitVec 14) (die : DieNo) (seq : Nat)
  deriving DecidableEq, Repr

/-- Waiting entries on the 8-byte word of an address, in order of registration (R207). A deadline of this cycle gives
way (R208). -/
def State.monsOn (s : State) (a : Nat) : List MonRef :=
  let own := s.dies.flatMap fun d => (d.2.monitors.filter fun m => m.2.yields d.2.cyc 1 && m.2.addr / 8 == a / 8).map fun m =>
    (m.2.order, MonRef.own d.1 m.1)
  let far := (s.remoteMons.filter fun m => m.yields (s.cyc m.home) 1 && m.addr / 8 == a / 8).map fun m => (m.order, MonRef.far m.pkg m.die m.seq)
  ((own ++ far).mergeSort fun x y => decide (x.1 ≤ y.1)).map (·.2)

/-- A wait ends with a status (R205); `taker` is the `WAKEA` that took it. -/
def Mon.finish (m : Mon) (v : BitVec 64) (now : Nat) (taker : Option Taker) : Mon :=
  { m with ended := some v, endedAt := now, taker := taker }

/-- Ends a monitor wait that has not ended, or whose end gives way to this one (R208). -/
def State.endMon (s : State) (d k : Nat) (v : BitVec 64) : State :=
  s.modDie d fun x => { x with monitors := KMap.modify x.monitors k fun m =>
    if m.ended.isNone || (v != 2 && m.yields x.cyc (if v = 1 then 1 else 0)) then m.finish v x.cyc none else m }

/-- `WAKEA` takes one entry. -/
def State.takeMon (s : State) (by_ : Taker) (r : MonRef) : State :=
  match r with
  | .own d k => s.modDie d fun x => { x with monitors := KMap.modify x.monitors k fun m => m.finish 1 x.cyc (some by_) }
  | .far pkg die seq =>
    { s with remoteMons := s.remoteMons.map fun m =>
        if m.pkg == pkg && m.die == die && m.seq == seq then
          { m with ended := some 1, endedAt := s.cyc m.home, taker := some by_ }
        else m }

/-- `WAKEA` takes entries on a word: the state, and how many (R207). -/
def State.wake (s : State) (by_ : Taker) (a n : Nat) : State × Nat :=
  let all := s.monsOn a
  let take := if n = 0 then all else all.take n
  (take.foldl (fun s r => s.takeMon by_ r) s, take.length)

/-- WAKEA: a release point at the scope of the word's home (R207). -/
def execWakea (ctl : Ctl) (d : Fin 64) (m : MemOp) (n : XI) (s : State) : Out :=
  issue 0x5B ctl noPriv (memSrc m :: xiSrcs n) [.x d] s fun uid c t =>
    orTrap (t.resolve c m.mode (formAddr c m 8) 8 .rd false .atomic) fun acc =>
      if c.loadsHeld || !(t.released uid c ((t.placeHome acc).scope c.die.val c.core.val)) then .wait
      else t.throughMove uid c acc fun t =>
        let k := (xiVal c n).toNat % 2 ^ 16
        match t.whereIs acc .rd with
        | .refused => .done (t.produce uid (poisonFill (.x d)))
        | .far p off =>
          if t.noJob p then .done (t.produce uid (poisonFill (.x d)))
          else
            .done ((t.pendReg uid (.x d)).sendReq c.die.val p acc.world off c.rlim.toNat c.die (.wakea (BitVec.ofNat 16 k))
              (.fill uid (.x d) acc none false))
        | .here a _ =>
          let r := t.wake (.ctx uid (.x d)) (partAt a.parts 0) k
          .done (r.1.produce uid { valueFill (.x d) 0 with src := .count (t.cyc c.die.val) r.2 })

/-- WAITA_TIMEOUT (R205). -/
def execWaitaTimeout (d : DieNo) (k : Nat) (s : State) : Out :=
  match KMap.look (s.die d.val).monitors k with
  | none => .next s
  | some m => match m.deadline with
    | some t => if t ≤ s.cyc d.val then .next (s.endMon d.val k 2) else .next s
    | none => .next s

/-- What a context waits for once its wait has ended and its fill is on its way: a suspended continuation is ready only when
the register has filled (R79). -/
def Context.waitFilled (c : Context) (dest : AnyReg) : Context :=
  { c with wait := if c.state == CxState.suspended then .reg dest else .none }

/-- The wait of a context has ended: it is performed as an acquire, and its register fills. -/
def State.endWait (s : State) (uid : Nat) (dest : AnyReg) (acq : Nat) (v : BitVec 64) : State :=
  ((s.acquired uid acq).modCtx uid fun c => c.waitFilled dest).pushFill uid (valueFill dest v)

/-- The request by which the entry of a die's table waits on a word of another package, where it has not been answered. -/
def State.farWait (s : State) (d k : Nat) : Option Nat :=
  ((s.die d).ni.outst.find? fun o => o.2.todo == .monitor k).map (·.1)

/-- The home of a far word hears that the wait on it has ended here (log 110). -/
def State.endFar (s : State) (d k : Nat) : State :=
  match s.farWait d k with
  | some h => s.unwait d h
  | none => s

/-- MONITOR_WAKE_NOTICE (R205): the end of a wait reaches the table, in a later cycle than it came; the entry is freed. -/
def execMonitorWakeNotice (d : DieNo) (k : Nat) (s : State) : Out :=
  match KMap.look (s.die d.val).monitors k with
  | none => .next s
  | some m => match m.ended with
    | none => .next s
    | some v =>
      if s.cyc d.val ≤ m.endedAt then .next s
      else
        let s := (s.modDie d.val fun x => { x with monitors := KMap.del x.monitors k }).endFar d.val k
        .next (s.endWait m.uid m.dest m.acq v)

end Sys2Proof.Machine
end

