-- ==== Sys2Proof/Machine/Sync.lean ====
section
/-! DEFINITION. Phasers and barriers, opcodes 0x60 to 0x69 (R211 to R233). -/

namespace Sys2Proof.Machine

/-! ## Phasers (R211 to R218) -/

/-- Fields of a phaser word (R212). -/
def phSerial (v : BitVec 64) : BitVec 24 := BitVec.ofNat 24 (v.toNat / 2 ^ 40)
def phDie (v : BitVec 64) : Nat := v.toNat / 2 ^ 34 % 8
def phIndex (v : BitVec 64) : Nat := v.toNat / 2 ^ 24 % 1024
def phMember (v : BitVec 64) : Nat := v.toNat % 2 ^ 16
def phRes0 (v : BitVec 64) : Bool := bits v.toNat 39 37 != 0 || bits v.toNat 23 16 != 0

/-- A phaser word. -/
def phWord (serial : BitVec 24) (d i m : Nat) : BitVec 64 :=
  BitVec.ofNat 64 (serial.toNat * 2 ^ 40 + d % 8 * 2 ^ 34 + i % 1024 * 2 ^ 24 + m % 2 ^ 16)

/-- The live phaser of a world that a word names (R211, R212). -/
def State.phaserOf (s : State) (w : Nat) (v : BitVec 64) : Option Phaser :=
  match KMap.look (s.die (phDie v)).phasers (phIndex v) with
  | some p => if !(phRes0 v) && p.serial == phSerial v && p.world == w then some p else none
  | none => none

/-- The live phaser and member that a member word names. -/
def State.memberOf (s : State) (w : Nat) (v : BitVec 64) : Option (Phaser × Member) :=
  match s.phaserOf w v, KMap.look (s.die (phDie v)).members (phMember v) with
  | some p, some m => if m.phaser == phIndex v then some (p, m) else none
  | _, _ => none

/-- Writes a phaser back. -/
def State.setPhaser (s : State) (d i : Nat) (p : Phaser) : State :=
  s.modDie d fun k => { k with phasers := KMap.put k.phasers i p }

/-- Writes a member back. -/
def State.setMember (s : State) (d i : Nat) (m : Member) : State :=
  s.modDie d fun k => { k with members := KMap.put k.members i m }

/-- `a` comes after `b` modulo 2^32 (R213). -/
def phAfter (a b : BitVec 32) : Bool := decide (0 < (a - b).toInt)

/-- Phase ends, as many as there are: at most two in one operation (R216). -/
def endPhases (p : Phaser) : Nat → Phaser
  | 0 => p
  | n + 1 =>
    if p.touched && p.arr0 == p.need0 then
      endPhases { p with ph := p.ph + 1, need0 := p.need1, arr0 := p.arr1, arr1 := 0, touched := decide (0 < p.arr1) } n
    else p

/-- After a signal or a drop: phases end, and the waits for them fill (R216, R217). -/
def State.settlePhaser (s : State) (d i : Nat) (p : Phaser) : State :=
  let q := endPhases p 3
  let ended := q.waits.filter fun w => phAfter q.ph w.target
  let s := s.setPhaser d i { q with waits := q.waits.filter fun w => !(phAfter q.ph w.target) }
  ended.foldl (fun s w => s.endWait w.uid w.dest w.acq (w.target.setWidth 64)) s

/-- A signal of a member: the phaser, the member and the phase counted, or an error code (R215). -/
def signal (p : Phaser) (m : Member) : Except Nat (Phaser × Member × BitVec 32) :=
  if m.mode == .wait then .error 0x28
  else if m.sp = p.ph then .ok ({ p with arr0 := p.arr0 + 1, touched := true }, { m with sp := m.sp + 1 }, m.sp)
  else if m.sp = p.ph + 1 then .ok ({ p with arr1 := p.arr1 + 1 }, { m with sp := m.sp + 1 }, m.sp)
  else .error 0x29

/-- A registration of a mode: the phaser and the new member (R214). -/
def joinPhaser (p : Phaser) (i : Nat) (mode : PhMode) : Phaser × Member :=
  let sp := if p.touched then p.ph + 1 else p.ph
  let n := if mode == .wait then 0 else 1
  ({ p with need1 := p.need1 + n, need0 := if p.touched then p.need0 else p.need0 + n },
   { phaser := i, mode := mode, sp := sp, wp := sp })

/-- A phaser after a member has been dropped (R218). -/
def dropMember (p : Phaser) (m : Member) : Phaser :=
  if m.mode == .wait then p
  else if m.sp = p.ph then { p with need0 := p.need0 - 1, need1 := p.need1 - 1, touched := true }
  else if m.sp = p.ph + 1 then { p with need1 := p.need1 - 1 }
  else { p with need1 := p.need1 - 1, arr1 := p.arr1 - 1 }

/-- The narrowest scope that contains the issuing die and the phaser's (R219). -/
def phScope (c : Context) (v : BitVec 64) : Scope := if c.die.val = phDie v then .die else .pkg

/-- The next serial: 24 bits, never 0 (R212). -/
def nextSerial (n : BitVec 24) : BitVec 24 := if n + 1 = 0 then 1 else n + 1

/-- Lowest number below `n` that a map does not list. -/
def freeKey {α : Type} (m : KMap α) (n : Nat) : Option Nat :=
  if n ≤ m.length then none else (List.range (m.length + 1)).find? fun i => !(KMap.has m i)

/-- PHNEW. -/
def execPhnew (ctl : Ctl) (xs : Fin 64) (s : State) : Out :=
  issue 0x60 ctl noPriv [] [.x xs] s fun uid c t =>
    let d := c.die.val
    if t.limPh c.region ≤ t.livePh c.region then .done (t.produceWord uid (.x xs) (errWord 0x26))
    else match freeKey (t.die d).phasers 1024 with
      | none => .done (t.produceWord uid (.x xs) (errWord 0x25))
      | some i =>
        let n := nextSerial (t.die d).serial
        let p : Phaser := { serial := n, world := c.world, lim := t.limOwner c.region 4, ph := 0, need0 := 0, arr0 := 0, need1 := 0,
                            arr1 := 0, touched := false, waits := [] }
        .done (((t.modDie d fun k => { k with serial := n }).setPhaser d i p).produceWord uid (.x xs)
          (phWord n d i 0xFFFF))

/-- PHREG. -/
def execPhreg (ctl : Ctl) (mode : PhMode) (xs : Fin 64) (xh : XSrc) (s : State) : Out :=
  issue 0x61 ctl noPriv [xSrc xh] [.x xs] s fun uid c t =>
    let v := xVal c xh
    match t.phaserOf c.world v with
    | none => .done (t.produceWord uid (.x xs) (errWord 0x24))
    | some p => match freeKey (t.die (phDie v)).members 16384 with
      | none => .done (t.produceWord uid (.x xs) (errWord 0x27))
      | some i =>
        let r := joinPhaser p (phIndex v) mode
        .done (((t.setPhaser (phDie v) (phIndex v) r.1).setMember (phDie v) i r.2).produceWord uid (.x xs)
          (phWord p.serial (phDie v) (phIndex v) i))

/-- PHDROP. -/
def execPhdrop (ctl : Ctl) (xs : Fin 64) (xm : XSrc) (s : State) : Out :=
  issue 0x62 ctl noPriv [xSrc xm] [.x xs] s fun uid c t =>
    let v := xVal c xm
    match t.memberOf c.world v with
    | none => .done (t.produceWord uid (.x xs) (errWord 0x24))
    | some (p, m) =>
      if !(t.released uid c (phScope c v)) then .wait
      else
        let t := t.modDie (phDie v) fun k => { k with members := KMap.del k.members (phMember v) }
        .done ((t.settlePhaser (phDie v) (phIndex v) (dropMember p m)).produceWord uid (.x xs) 0)

/-- PHSIG. -/
def execPhsig (ctl : Ctl) (xs : Fin 64) (xm : XSrc) (s : State) : Out :=
  issue 0x63 ctl noPriv [xSrc xm] [.x xs] s fun uid c t =>
    let v := xVal c xm
    match t.memberOf c.world v with
    | none => .done (t.produceWord uid (.x xs) (errWord 0x24))
    | some (p, m) =>
      if !(t.released uid c (phScope c v)) then .wait
      else match signal p m with
        | .error e => .done (t.produceWord uid (.x xs) (errWord e))
        | .ok (p, m, k) =>
          .done (((t.setMember (phDie v) (phMember v) m).settlePhaser (phDie v) (phIndex v) p).produceWord uid (.x xs)
            (k.setWidth 64))

/-- A member's wait (R217): its phaser, already brought up to date, and its target. A phase that has ended fills at
once. -/
def State.waitPhase (s : State) (uid : Nat) (c : Context) (xs : Fin 64) (v : BitVec 64) (target : BitVec 32) : State :=
  match KMap.look (s.die (phDie v)).phasers (phIndex v) with
  | none => s
  | some p =>
    if phAfter p.ph target then s.produceWord uid (.x xs) (target.setWidth 64)
    else
      let q := s.newAcq uid
      let w : PhWait := { uid := uid, dest := .x xs, target := target, acq := q.1 }
      let s := (q.2.pendReg uid (.x xs)).setPhaser (phDie v) (phIndex v) { p with waits := p.waits ++ [w] }
      s.waitFor uid c (.phaser (phDie v) (phIndex v))

/-- PHWAIT. -/
def execPhwait (ctl : Ctl) (xs : Fin 64) (xm : XSrc) (s : State) : Out :=
  issue 0x64 ctl inSlot6 [xSrc xm] [.x xs] s fun uid c t =>
    let v := xVal c xm
    match t.memberOf c.world v with
    | none => .done (t.produceWord uid (.x xs) (errWord 0x24))
    | some (_, m) =>
      if m.mode == .sig then .done (t.produceWord uid (.x xs) (errWord 0x28))
      else .done ((t.setMember (phDie v) (phMember v) { m with wp := m.wp + 1 }).waitPhase uid c xs v m.wp)

/-- PHNEXT: a signal and a wait in one step. -/
def execPhnext (ctl : Ctl) (xs : Fin 64) (xm : XSrc) (s : State) : Out :=
  issue 0x65 ctl inSlot6 [xSrc xm] [.x xs] s fun uid c t =>
    let v := xVal c xm
    match t.memberOf c.world v with
    | none => .done (t.produceWord uid (.x xs) (errWord 0x24))
    | some (p, m) =>
      if m.mode != .sw then .done (t.produceWord uid (.x xs) (errWord 0x28))
      else if !(t.released uid c (phScope c v)) then .wait
      else match signal p m with
        | .error e => .done (t.produceWord uid (.x xs) (errWord e))
        | .ok (p, n, _) =>
          let t := t.setMember (phDie v) (phMember v) { n with wp := n.wp + 1 }
          .done ((t.settlePhaser (phDie v) (phIndex v) p).waitPhase uid c xs v m.wp)

/-- PHFREE. -/
def execPhfree (ctl : Ctl) (xs : Fin 64) (xh : XSrc) (s : State) : Out :=
  issue 0x66 ctl noPriv [xSrc xh] [.x xs] s fun uid c t =>
    let v := xVal c xh
    match t.phaserOf c.world v with
    | none => .done (t.produceWord uid (.x xs) (errWord 0x24))
    | some _ =>
      if (t.die (phDie v)).members.any fun m => m.2.phaser == phIndex v then
        .done (t.produceWord uid (.x xs) (errWord 0x2A))
      else
        .done ((t.modDie (phDie v) fun k => { k with phasers := KMap.del k.phasers (phIndex v) }).produceWord uid
          (.x xs) 0)

/-! ## Barrier wires (R225 to R229) -/

/-- Key of a lane in a core. -/
def laneKey : BwDir → Nat
  | .row => 0 | .col => 1 | .both => 2

/-- A lane of a core. -/
def State.lane (s : State) (d c : Nat) (dir : BwDir) : Lane := KMap.lookD (s.core d c).lanes (laneKey dir) Lane.empty

/-- Writes a lane of a core back. -/
def State.setLane (s : State) (d c : Nat) (dir : BwDir) (l : Lane) : State :=
  s.modCore d c fun k => { k with lanes := KMap.putD k.lanes (laneKey dir) Lane.empty l }

/-- The context's world owns the barrier wires of its die (R225). -/
def State.ownsWires (s : State) (c : Context) : Bool :=
  match (s.die c.die.val).wires with
  | some w => w.1 == c.world
  | none => false

/-- BWARR: a release point at die scope; a lane holds one arrival ahead (R226, R229). -/
def execBwarr (ctl : Ctl) (dir : BwDir) (s : State) : Out :=
  issue 0x67 ctl noPriv [] [] s fun uid c t =>
    let l := t.lane c.die.val c.core.val dir
    if !(t.ownsWires c) then .trap causePermission 0
    else if l.e + 2 ≤ l.a || !(t.released uid c .die) then .wait
    else .done (t.setLane c.die.val c.core.val dir { l with a := l.a + 1, times := l.times ++ [t.cyc c.die.val] })

/-- BWWAIT (R227). Arrivals and waits count for the core: a continuation that waits resumes on it, also once its register
has filled (chapter 14; log 102). -/
def execBwwait (ctl : Ctl) (dir : BwDir) (xs : Fin 64) (s : State) : Out :=
  issue 0x68 ctl inSlot6 [] [.x xs] s fun uid c t =>
    let d := c.die.val
    let l := t.lane d c.core.val dir
    if !(t.ownsWires c) then .trap causePermission 0
    else if l.a ≤ l.e then .done (t.produceWord uid (.x xs) 0)
    else
      let q := t.newAcq uid
      let w : BwWait :=
        { uid := uid, dest := .x xs, core := c.core.val, dir := dir, n := l.a, acq := q.1,
          deadline := if c.bwto = 0 then none else some (t.cyc d + c.bwto.toNat) }
      let t := (q.2.pendReg uid (.x xs)).modDie d fun k => { k with bwWaits := k.bwWaits ++ [w] }
      .done ((t.modCtx uid fun c => { c with tied := !c.isPinned }).waitFor uid c (.wire dir))

/-- Direction and cores of a lane of a die (R3, R226). -/
def laneCores : LaneId → BwDir × List Nat
  | .row r => (.row, (List.range 16).map fun i => 16 * r.val + i)
  | .col c => (.col, (List.range 16).map fun i => 16 * i + c.val)
  | .both => (.both, List.range 256)

/-- Every core of the lane has made its next arrival. -/
def State.laneFull (s : State) (d : Nat) (dir : BwDir) (cs : List Nat) : Bool :=
  cs.all fun c => let l := s.lane d c dir
                  decide (l.e < l.a)

/-- The cycle at which a full lane releases: 12 cc after the last of its cores made its next arrival (R226). -/
def State.laneDue (s : State) (d : Nat) (dir : BwDir) (cs : List Nat) : Nat :=
  cs.foldl (fun m c => max m ((s.lane d c dir).times.headD 0)) 0 + 12

/-- What a barrier wait fills with at a release in cycle `due`: a timeout that passed before it comes first (R227). -/
def BwWait.status (w : BwWait) (due : Nat) : BitVec 64 :=
  match w.deadline with
  | some t => if t < due then errWord 0x2B else 0
  | none => 0

/-- Fills the waits of a die that a release in cycle `due` has ended (R227). -/
def State.fillBw (s : State) (d due : Nat) : State :=
  let ended := (s.die d).bwWaits.filter fun w => decide (w.n ≤ (s.lane d w.core w.dir).e)
  let s' := s.modDie d fun k => { k with bwWaits := k.bwWaits.filter fun w => !(decide (w.n ≤ (s.lane d w.core w.dir).e)) }
  ended.foldl (fun t w => t.endWait w.uid w.dest w.acq (w.status due)) s'

/-- BARRIER_RELEASE (R226). -/
def execBarrierRelease (d : DieNo) (lane : LaneId) (s : State) : Out :=
  let p := laneCores lane
  let due := s.laneDue d.val p.1 p.2
  if s.laneFull d.val p.1 p.2 && decide (due ≤ s.cyc d.val) then
    let s := p.2.foldl (fun (s : State) c =>
      let l := s.lane d.val c p.1
      s.setLane d.val c p.1 { l with e := l.e + 1, times := l.times.tail }) s
    .next (s.fillBw d.val due)
  else .next s

/-- Die and entry of a context's barrier wait. -/
def State.bwOf (s : State) (uid : Nat) : Option (Nat × BwWait) :=
  s.dies.findSome? fun d => (d.2.bwWaits.find? fun w => w.uid == uid).map fun w => (d.1, w)

/-- The lane of a core in a direction. -/
def laneOfCore (c : Nat) : BwDir → LaneId
  | .row => .row ⟨c / 16 % 16, Nat.mod_lt _ (by decide)⟩
  | .col => .col ⟨c % 16, Nat.mod_lt _ (by decide)⟩
  | .both => .both

/-- The lane of a wait releases at or before a cycle: the release wins over a timeout then (R227). -/
def State.releaseBy (s : State) (d : Nat) (w : BwWait) (t : Nat) : Bool :=
  let p := laneCores (laneOfCore w.core w.dir)
  s.laneFull d p.1 p.2 && decide (s.laneDue d p.1 p.2 ≤ t)

/-- BW_TIMEOUT (R227): the core's arrival stays in place. -/
def execBwTimeout (uid : Nat) (s : State) : Out :=
  match s.bwOf uid with
  | none => .next s
  | some (d, w) => match w.deadline with
    | none => .next s
    | some t =>
      if decide (t ≤ s.cyc d) && !(s.releaseBy d w t) then
        let s := s.modDie d fun k => { k with bwWaits := k.bwWaits.filter fun x => x.uid != uid }
        .next (s.endWait uid w.dest w.acq (errWord 0x2B))
      else .next s

/-! ## NI dissemination barrier (R230 to R233) -/

/-- The instance is the one named. -/
def NbInst.is (n : NbInst) (w : Nat) (sc : NbScope) (tag : BitVec 8) : Bool := n.world == w && n.scope == sc && n.tag == tag

/-- The instance of a die; a fresh one has epoch 0. -/
def State.nbInst (s : State) (d w : Nat) (sc : NbScope) (tag : BitVec 8) : NbInst :=
  match (s.die d).nb.find? fun n => n.is w sc tag with
  | some n => n
  | none => { world := w, scope := sc, tag := tag, epoch := 0, held := [], run := none }

/-- Writes an instance back. -/
def State.setNb (s : State) (d : Nat) (n : NbInst) : State :=
  s.modDie d fun k => { k with nb := (k.nb.filter fun x => !(x.is n.world n.scope n.tag)) ++ [n] }

/-- Instances in use on an NI: those with a barrier in progress or notices held. -/
def State.nbUsed (s : State) (d : Nat) : Nat := ((s.die d).nb.filter fun n => n.run.isSome || !n.held.isEmpty).length

/-- Least k with n ≤ 2^k. -/
def ceilLog2 (n : Nat) : Nat := if n ≤ 1 then 0 else Nat.log2 (n - 1) + 1

/-- Number of a participant: package and die, in the order in which participants are ranked (R230). -/
def nbKey (p d : Nat) : Nat := 8 * p + d

/-- Rank of a number in a list without repeats. -/
def rankIn (l : List Nat) (x : Nat) : Nat := (l.filter fun y => decide (y < x)).length

/-- The participants to notify, round by round, for one of a list of participants (R231). -/
def nbPeers (l : List Nat) (x : Nat) : List Nat :=
  let n := l.length
  (List.range (ceilLog2 n)).map fun k => (l.find? fun y => rankIn l y == (rankIn l x + 2 ^ k) % n).getD x

/-- The dies of this package that hold cores of the launches of a world. The host gives a job's launches one world id on
every package (R341). -/
def State.worldDies (s : State) (w : Nat) : List Nat :=
  (List.range 8).filter fun d => s.launches.any fun p => p.2.world == w && p.2.stage != .opening && p.2.dies.getLsbD d

/-- The participants on other packages of the job (R341). This package does not know which of their dies hold cores of the
job's launches: those are free (log 6). -/
def State.nbOthers (s : State) (n : NbInst) : List Nat :=
  ((Config.jobDies s.job n.world n.tag.toNat n.epoch).filter fun x =>
    decide (x < 2 ^ 17) && x / 8 != s.pkg.toNat && !(s.noJob (x / 8))).dedup

/-- The participants of a barrier (R230). -/
def State.nbMembers (s : State) (c : Context) (n : NbInst) : List Nat :=
  let own := fun (ds : List Nat) => ds.map fun d => nbKey s.pkg.toNat d
  match n.scope with
  | .launch => own ((List.range 8).filter fun d => match s.factsOf c.lid with
      | some l => l.dies.getLsbD d
      | none => d == c.die.val)
  | .pkg => own (List.range 8)
  | .job => own (s.worldDies c.world) ++ s.nbOthers n

/-- The package and die to notify in each round of a barrier. -/
def State.nbPlan (s : State) (c : Context) (n : NbInst) : List (Nat × Nat) :=
  (nbPeers (s.nbMembers c n) (nbKey s.pkg.toNat c.die.val)).map fun x => (x / 8, x % 8)

/-- Sends the notice of a round: to another package as a request, which is sent again and fails as others do (R348). -/
def State.nbNotify (s : State) (d : Nat) (n : NbInst) (r : NbRun) : State :=
  match r.peers[r.round]? with
  | none => s
  | some p =>
    let m : NbNotice := { world := BitVec.ofNat 16 n.world, scope := n.scope, tag := n.tag, epoch := n.epoch, round := r.round }
    if p.1 = s.pkg.toNat then { s with notices := s.notices ++ [(p.2, m)] }
    else s.sendReq d p.1 n.world 0 unitRlim (dieOf p.2) (.notice m) (.notice m)

/-- The epoch of an instance is over. -/
def NbInst.advance (n : NbInst) : NbInst :=
  { n with epoch := n.epoch + 1, run := none, held := n.held.filter fun h => decide (n.epoch < h.1) }

/-- The barrier has waited longer than its bw.timeout (R232). A release in the last cycle of it still counts. -/
def NbRun.late (r : NbRun) (now : Nat) : Bool :=
  match r.deadline with
  | some t => decide (t < now)
  | none => false

/-- Finishes the rounds whose notices are held, and the barrier after the last of them (R231). One whose timeout has passed is
abandoned (R232). -/
def State.nbRun (s : State) (d : Nat) (n : NbInst) : Nat → State
  | 0 => s
  | fuel + 1 =>
    match n.run with
    | none => s.setNb d n
    | some r =>
      if r.late (s.cyc d) then (s.setNb d n.advance).endWait r.uid r.dest r.acq (errWord 0x2B)
      else if r.peers.length ≤ r.round then (s.setNb d n.advance).endWait r.uid r.dest r.acq 0
      else if n.held.contains (n.epoch, r.round) then
        let r' := { r with round := r.round + 1 }
        (s.nbNotify d n r').nbRun d { n with run := some r' } fuel
      else s.setNb d n

/-- NBARR. A die whose sixteen instances are all in use makes it wait. -/
def execNbarr (ctl : Ctl) (sc : NbScope) (xs : Fin 64) (tag : XI) (s : State) : Out :=
  issue 0x69 ctl inSlot6 (xiSrcs tag) [.x xs] s fun uid c t =>
    let d := c.die.val
    let n := t.nbInst d c.world sc (BitVec.ofNat 8 (xiVal c tag).toNat)
    if n.run.isSome then .done (t.produceWord uid (.x xs) (errWord 0x2C))
    else if sc == .job && t.job == 0 then .done (t.produceWord uid (.x xs) (errWord 0x2D))
    else if !(t.released uid c (if sc == .job then .job else .pkg)) then .wait
    else if n.held.isEmpty && decide (16 ≤ t.nbUsed d) then .wait
    else
      let q := t.newAcq uid
      let r : NbRun :=
        { uid := uid, dest := .x xs, peers := t.nbPlan c n, round := 0, lost := false, acq := q.1,
          deadline := if c.bwto = 0 then none else some (t.cyc d + c.bwto.toNat) }
      let t := (q.2.pendReg uid (.x xs)).waitFor uid c (.nb sc n.tag)
      .done ((t.nbNotify d n r).nbRun d { n with run := some r } 20)

/-- A notice that needs an instance finds the sixteen of its NI in use: it waits (DESIGN CHOICE, log 103). -/
def State.nbCrowded (s : State) (d : Nat) (n : NbInst) : Bool :=
  n.run.isNone && n.held.isEmpty && decide (16 ≤ s.nbUsed d)

/-- A notice is on its way to an NI: those of other packages come as requests. -/
def State.takeNotice (s : State) (d : Nat) (n : NbNotice) : Option State :=
  if s.notices.contains (d, n) then some { s with notices := s.notices.erase (d, n) } else none

/-- A notice that a die sent cannot be delivered (R232): the barrier of its epoch, if it still runs, is lost. -/
def State.nbFailed (s : State) (d : Nat) (m : NbNotice) : State :=
  let n := s.nbInst d m.world.toNat m.scope m.tag
  match n.run with
  | some r => if n.epoch = m.epoch then s.setNb d { n with run := some { r with lost := true } } else s
  | none => s

/-- NBARR_NOTICE_ARRIVAL (R231): a notice of an epoch that is over is discarded. -/
def execNbarrNoticeArrival (d : DieNo) (m : NbNotice) (s : State) : Out :=
  match s.takeNotice d.val m with
  | none => .next s
  | some t =>
    let n := s.nbInst d.val m.world.toNat m.scope m.tag
    if m.epoch < n.epoch then .next t
    else if s.nbCrowded d.val n then .next s
    else .next (t.nbRun d.val { n with held := n.held ++ [(m.epoch, m.round)] } 20)

/-- Die and instance of a context's barrier. -/
def State.nbOf (s : State) (uid : Nat) : Option (Nat × NbInst × NbRun) :=
  s.dies.findSome? fun d => d.2.nb.findSome? fun n => match n.run with
    | some r => if r.uid = uid then some (d.1, n, r) else none
    | none => none

/-- NBARR_TIMEOUT (R232): the epoch is abandoned; with `dead` because a notice could not be delivered after the recovery of
its link. -/
def execNbarrTimeout (uid : Nat) (dead : Bool) (s : State) : Out :=
  match s.nbOf uid with
  | none => .next s
  | some (d, n, r) =>
    if dead then
      if r.lost then .next ((s.setNb d n.advance).endWait uid r.dest r.acq (errWord 0x2D)) else .next s
    else match r.deadline with
      | some t =>
        if t ≤ s.cyc d then .next ((s.setNb d n.advance).endWait uid r.dest r.acq (errWord 0x2B)) else .next s
      | none => .next s

end Sys2Proof.Machine
end

