-- ==== Sys2Proof/Machine/Landing.lean ====
section
/-! DEFINITION. A fill lands in its register (R55, R56, R59, R65), and a miss of the register cache is served (R59, R60,
R95). -/

namespace Sys2Proof.Machine

/-- Lines that a fill of a register changes. -/
def fillLines (dest : AnyReg) : List Nat :=
  match dest with
  | .x r => if r.val = 0 then [] else regLines dest
  | _ => regLines dest

/-- Lines that a fill changes. -/
def Fill.lines (f : Fill) : List Nat :=
  match f.also with
  | some r => (fillLines f.dest ++ fillLines r.1).dedup
  | none => fillLines f.dest

/-- A value, or poison, lands: the register is full and no longer pending, the flags are ORed in, and an acquire that the
fill ends is performed (R55, R56, R65, R179). -/
def State.land (s : State) (uid : Nat) (f : Fill) (v : Option (BitVec 1024)) : State :=
  let s := s.landIn uid f.lines fun c =>
    let c := match v with
      | some a => c.setAny f.dest a
      | none => c.setPois f.dest
    let c := match f.also with
      | some r => c.setAny r.1 r.2
      | none => c
    c.addFlags f.flags f.nan
  match f.acq with
  | some a => s.acquired uid a
  | none => s

/-- Fills a register with a word at once. -/
def State.landWord (s : State) (uid : Nat) (dest : AnyReg) (v : BitVec 64) : State :=
  s.land uid (valueFill dest v) (some (v.setWidth 1024))

/-! ## Misses of the register cache (R59, R60) -/

/-- The line a context misses arrives: read from its image, or created (R59, R95). Where no line may give way the context
stays blocked (R86). -/
def State.fetchLine (s : State) (uid n : Nat) : State :=
  match s.ctx? uid with
  | none => s
  | some c => match s.lineRoom c.die.val c.core.val with
    | none => s
    | some s => match s.ctx? uid with
    | none => s
    | some c => match s.withLine c n with
      | .ok y => s.setCtx uid { y with
          lines := KMap.put y.lines n { dirty := false, evict := false, use := (s.core c.die.val c.core.val).uses }, why := none }
      | .error e => s.takeFault uid (s.nextOpcode c) e.1 (c.image + 64 * n) c.pc

/-- REGISTER_LINE_FILL (R59). -/
def execRegisterLineFill (uid line : Nat) (s : State) : Out :=
  match s.ctx? uid with
  | none => .next s
  | some c =>
    match c.why with
    | some (.line n _) =>
      if c.slot.isSome && n == line && line < 73 && !(KMap.has c.lines line) then .next (s.fetchLine uid line) else .next s
    | _ => .next s

/-- WRITE_BACK_FAILURE (R421): an eviction of a dirty line whose write-back fails. -/
def execWriteBackFailure (uid line : Nat) (s : State) : Out :=
  match s.ctx? uid with
  | none => .next s
  | some c =>
    if !(KMap.has c.lines line) || !(c.lineDirty line) || !(c.mayEvict line) then .next s
    else match s.writeBack c line with
      | .error e => .next (s.evictFailed uid c line e.1)
      | .ok _ => .next s

end Sys2Proof.Machine
end

