-- ==== Sys2Proof/Machine/Approx.lean ====
section
/-! DEFINITION. Arithmetic on lanes that the engines share: exact sums of products (R251, R276), and the approximations
of the vector engine (R267 to R271), each defined to the bit. -/

namespace Sys2Proof.Machine

/-! ## Exact sums -/

/-- Products of two lists of values, with the flags of an invalid product. -/
def products (as bs : List Val) : List VF := List.zipWith mulV as bs

/-- Infinities of both signs are among the terms of a sum. -/
def infClash (vs : List Val) : Bool := vs.contains (.inf true) && vs.contains (.inf false)

/-- acc + Σ a·b, exact (R251): a NaN input gives NaN, and an invalid product or ∞ − ∞ makes one. Beside a NaN input they
still set invalid (R249). -/
def dotV (acc : Val) (as bs : List Val) : VF :=
  let ps := products as bs
  match nanIn (acc :: (as ++ bs)) with
  | some r =>
    (r.1, if infClash (acc :: ps.map (·.1)) || ps.any fun p => p.2 / flInvalid % 2 == 1 then r.2 ||| flInvalid else r.2)
  | none =>
    if ps.any fun p => isNanV p.1 then invalidVF
    else ps.foldl (fun (r : VF) p =>
      let q := addV .rne r.1 p.1
      (q.1, r.2 ||| q.2)) (acc, 0)

/-! ## Rationals rounded to FP32 (R267) -/

/-- A rational: numerator, and a denominator that is not 0. -/
abbrev Rat2 := Int × Nat

/-- Rounds to FP32, to nearest even. -/
def roundQ (q : Rat2) : Rat2 :=
  match unpack .f32 (roundTo .f32 .rne false 0 (decide (q.1 < 0)) q.1.natAbs q.2).1 with
  | .fin s n d => (if s then -(n : Int) else n, d)
  | _ => (0, 1)

/-- Product and sum. -/
def mulQ (a b : Rat2) : Rat2 := (a.1 * b.1, a.2 * b.2)
def addQ (a b : Rat2) : Rat2 := if a.2 = b.2 then (a.1 + b.1, a.2) else (a.1 * b.2 + b.1 * a.2, a.2 * b.2)
def negQ (a : Rat2) : Rat2 := (-a.1, a.2)

/-- A rational times 2^e. -/
def scaleQ (a : Rat2) (e : Int) : Rat2 :=
  if 0 ≤ e then (a.1 * (2 ^ e.toNat : Nat), a.2) else (a.1, a.2 * 2 ^ (-e).toNat)

/-- Largest integer not above a rational. -/
def floorQ (a : Rat2) : Int := a.1.fdiv a.2

/-- A rational as an FP32 lane: of the flags, only overflow (R267). -/
def laneQ (neg : Bool) (q : Rat2) : Nat × Nat :=
  let r := roundTo .f32 .rne false 0 neg q.1.natAbs q.2
  (r.1, if r.2 / flOverflow % 2 = 1 then flOverflow else 0)

/-- A value of FP32 that an encoding names, as a rational. -/
def constQ (a : Nat) : Rat2 :=
  match unpack .f32 a with
  | .fin s n d => (if s then -(n : Int) else n, d)
  | _ => (0, 1)

/-- An FP32 encoding with a sign. -/
def signed32 (neg : Bool) (a : Nat) : Nat := if neg then 2 ^ 31 + a else a

/-- The canonical NaN that an approximation makes. -/
def madeNan : Nat × Nat := (fmtNan .f32, flInvalid + flNanMade)

/-- The NaN that a NaN input gives. -/
def givenNan (sig : Bool) : Nat × Nat := (fmtNan .f32, if sig then flInvalid else 0)

/-- m of a finite nonzero ±m·2^E with m in [1, 2), and E (R267). -/
def normQ (n d : Nat) : Rat2 × Int :=
  let e := floorLog2 n d
  let p := scale2 n d (-e)
  (((p.1 : Nat), p.2), e)

/-- floor((m − 1)·k). -/
def indexQ (m : Rat2) (k : Nat) : Nat := (floorQ (mulQ (addQ m (-1, 1)) (k, 1))).toNat

/-! ## The four approximations -/

/-- `VRCPA` (R268). -/
def rcpLane (a : Nat) : Nat × Nat :=
  match unpack .f32 a with
  | .nan s => givenNan s
  | .inf neg => (signed32 neg 0, 0)
  | .fin neg n d =>
    if n = 0 then (signed32 neg (fmtInf .f32), flDiv0)
    else
      let me := normQ n d
      let s := roundQ (512, 2 * indexQ me.1 256 + 513)
      let t := roundQ (addQ (1, 1) (negQ (mulQ me.1 s)))
      let y := roundQ (addQ s (mulQ s t))
      laneQ neg (scaleQ y (-me.2))

/-- The square root of n/d rounded to FP32. -/
def sqrtQ (n d : Nat) : Rat2 :=
  match (sqrtV (.fin false n d)).1 with
  | .fin _ a b => roundQ ((a : Nat), b)
  | _ => (0, 1)

/-- `VRSQA` (R269). -/
def rsqLane (a : Nat) : Nat × Nat :=
  match unpack .f32 a with
  | .nan s => givenNan s
  | .inf neg => if neg then madeNan else (0, 0)
  | .fin neg n d =>
    if n = 0 then (signed32 neg (fmtInf .f32), flDiv0)
    else if neg then madeNan
    else
      let me := normQ n d
      let q := me.2 % 2
      let mq := scaleQ me.1 q
      let s := sqrtQ 256 ((257 + 2 * indexQ me.1 128) * 2 ^ q.toNat)
      let u := roundQ (mulQ s s)
      let t := roundQ (addQ (1, 1) (negQ (mulQ mq u)))
      let y := roundQ (addQ s (scaleQ (mulQ s t) (-1)))
      laneQ false (scaleQ y (-((me.2 - q) / 2)))

/-- Largest t below 2^41 with t^256 at most x, bit by bit. -/
def root256 (x : Nat) : Nat → Nat → Nat
  | 0, acc => acc
  | b + 1, acc => root256 x b (if (acc + 2 ^ b) ^ 256 ≤ x then acc + 2 ^ b else acc)

/-- round(2^(i/256)): 2^(i/256) is irrational but for i = 0, and is taken to 40 bits and one that says so. -/
def expSeed (i : Nat) : Rat2 :=
  if i = 0 then (1, 1) else roundQ ((2 * root256 (2 ^ (i + 256 * 40)) 41 0 + 1 : Nat), 2 ^ 41)

/-- `VEXP2A` (R270). -/
def exp2Lane (a : Nat) : Nat × Nat :=
  match unpack .f32 a with
  | .nan s => givenNan s
  | .inf neg => if neg then (0, 0) else (fmtInf .f32, 0)
  | .fin neg n d =>
    let x : Rat2 := (if neg then -(n : Int) else n, d)
    if !neg && decide (128 * d ≤ n) then (fmtInf .f32, flOverflow)
    else if neg && decide (150 * d < n) then (0, 0)
    else
      let k := floorQ x
      let f := addQ x (-k, 1)
      let i := (floorQ (mulQ f (256, 1))).toNat
      let r := addQ f (-(i : Int), 256)
      let s := expSeed i
      let y := roundQ (addQ s (mulQ s (roundQ (mulQ r (constQ 0x3F317218)))))
      laneQ false (scaleQ y k)

/-- Bits of log2 of a number in [1, 2) held with 160 fraction bits, by repeated squaring. -/
def log2Bits : Nat → Nat → Nat → Nat
  | 0, _, acc => acc
  | k + 1, x, acc =>
    let y := x * x / 2 ^ 160
    if 2 ^ 161 ≤ y then log2Bits k (y / 2) (2 * acc + 1) else log2Bits k y (2 * acc)

/-- round(log2(1 + i/256)): irrational but for i = 0, and taken to 60 bits and one that says so. -/
def logSeed (i : Nat) : Rat2 :=
  if i = 0 then (0, 1) else roundQ ((2 * log2Bits 60 ((256 + i) * 2 ^ 152) 0 + 1 : Nat), 2 ^ 61)

/-- `VLOG2A` (R271). -/
def log2Lane (a : Nat) : Nat × Nat :=
  match unpack .f32 a with
  | .nan s => givenNan s
  | .inf neg => if neg then madeNan else (fmtInf .f32, 0)
  | .fin neg n d =>
    if n = 0 then (signed32 true (fmtInf .f32), flDiv0)
    else if neg then madeNan
    else
      let me := normQ n d
      let i := indexQ me.1 256
      let e := addQ me.1 (-((256 + i : Nat) : Int), 256)
      let q := roundQ (256, 256 + i)
      let y := roundQ (addQ (logSeed i) (mulQ (roundQ (mulQ e q)) (constQ 0x3FB8AA3B)))
      let z := addQ (me.2, 1) y
      laneQ (decide (z.1 < 0)) z

end Sys2Proof.Machine
end

