-- ==== Sys2Proof/Machine/Lanes.lean ====
section
/-! DEFINITION. What the vector engine computes: lanes of a v register and the results of its commands (R262 to R276).
-/

namespace Sys2Proof.Machine

/-! ## Lanes -/

/-- Lane `i` of width `w`. -/
def laneOf (w : Nat) (v : BitVec 1024) (i : Nat) : Nat := v.toNat / 2 ^ (w * i) % 2 ^ w

/-- The lanes of a v register. -/
def lanesOf (w : Nat) (v : BitVec 1024) : List Nat := (List.range (1024 / w)).map (laneOf w v)

/-- A v register from its lanes. -/
def ofLanes (w : Nat) (ls : List Nat) : BitVec 1024 := BitVec.ofNat 1024 (ls.foldr (fun e n => n * 2 ^ w + e % 2 ^ w) 0)

/-- A result without flags. -/
def plainResult (v : BitVec 1024) : Result := { value := v, flags := 0, nan := none }

/-- Flags of a list of lanes together. -/
def flagsOf (rs : List (Nat × Nat)) : Nat := rs.foldl (fun f r => f ||| r.2) 0

/-- The capture of a command: its first lane that makes a NaN, in [31:16] (R259). `base` is the lane of the first
result. -/
def laneNan (fmt : BitVec 16) (base : Nat) (rs : List (Nat × Nat)) : Option NanCap :=
  (rs.findIdx? fun r => r.2 / flNanMade % 2 == 1).map fun i => { pos := BitVec.ofNat 64 ((base + i) * 65536), fmt := fmt }

/-- A result from its lanes and their flags. -/
def laneResult (w : Nat) (fmt : BitVec 16) (rs : List (Nat × Nat)) : Result :=
  { value := ofLanes w (rs.map (·.1)), flags := flagBits (flagsOf rs), nan := laneNan fmt 0 rs }

/-! ## Lane arithmetic (R262) -/

/-- Lane operations of two operands. -/
inductive LaneOp where
  | add | sub | mul | min | max | and | or | xor
  deriving DecidableEq, Repr

/-- Integer lanes: they wrap, and set no flag. -/
def intLane (op : LaneOp) (t : ElemType) (a b : Nat) : Nat :=
  let w := t.bits
  match op with
  | .add => (a + b) % 2 ^ w
  | .sub => (a + 2 ^ w - b) % 2 ^ w
  | .mul => a * b % 2 ^ w
  | .min => if intOf t b < intOf t a then b else a
  | .max => if intOf t a < intOf t b then b else a
  | .and => a &&& b
  | .or => a ||| b
  | .xor => a ^^^ b

/-- Floating-point lanes, as the scalar instructions with RNE. -/
def floatLane (op : LaneOp) (t : ElemType) (a b : Nat) : Nat × Nat :=
  match op with
  | .add => fAdd t .rne a b
  | .sub => fSub t .rne a b
  | .mul => fMul t .rne a b
  | .min => fMinMax t false a b
  | .max => fMinMax t true a b
  | .and | .or | .xor => (intLane op t a b, 0)

/-- A lane of either kind. -/
def laneArith (op : LaneOp) (t : ElemType) (a b : Nat) : Nat × Nat :=
  if isFloat t then floatLane op t a b else (intLane op t a b, 0)

/-- |a| of a floating-point lane. -/
def floatAbs (t : ElemType) (a : Nat) : Nat × Nat :=
  match unpack t a with
  | .nan s => (fmtNan t, if s then flInvalid else 0)
  | _ => (a % fmtSign t, 0)

/-- `VABS`. -/
def absLane (t : ElemType) (a : Nat) : Nat × Nat :=
  if isFloat t then floatAbs t a else (lowBits t.bits (intOf t a).natAbs, 0)

/-- `VCMP` (R264). -/
def cmpLane (t : ElemType) (a b : Nat) : Nat × Nat :=
  if isFloat t then
    let x := unpack t a
    let y := unpack t b
    if isNanV x || isNanV y then (8, if isSigV x || isSigV y then flInvalid else 0)
    else (if ltV x y then 1 else if ltV y x then 4 else 2, 0)
  else
    let x := intOf t a
    let y := intOf t b
    (if x < y then 1 else if y < x then 4 else 2, 0)

/-- A shift count: bits [7:0] of a lane, signed (R263). -/
def shiftCount (b : Nat) : Int := (BitVec.ofNat 8 b).toInt

/-- Left shift of a lane. -/
def shlBits (w a n : Nat) : Nat := if w ≤ n then 0 else a * 2 ^ n % 2 ^ w

/-- `VSHL` (R263). -/
def shlLane (t : ElemType) (a b : Nat) : Nat :=
  let c := shiftCount b
  if 0 ≤ c then shlBits t.bits a c.toNat else a / 2 ^ (-c).toNat

/-- `VSHR` (R263): signed types fill with the sign bit. -/
def shrLane (t : ElemType) (a b : Nat) : Nat :=
  let c := shiftCount b
  if 0 ≤ c then
    if t = .u8 then a / 2 ^ c.toNat else lowBits t.bits ((intOf t a).fdiv (2 ^ c.toNat : Nat))
  else shlBits t.bits a (-c).toNat

/-! ## Reductions and scans (R272) -/

/-- One level of the pairwise tree. -/
def pairUp (f : Nat → Nat → Nat × Nat) : List Nat → List (Nat × Nat)
  | a :: b :: t => f a b :: pairUp f t
  | [a] => [(a, 0)]
  | [] => []

/-- The pairwise tree over `n` levels: value, flags. -/
def treeRed (f : Nat → Nat → Nat × Nat) : Nat → List Nat → Nat → Nat × Nat
  | 0, ys, fl => (ys.headD 0, fl)
  | n + 1, ys, fl =>
    let rs := pairUp f ys
    treeRed f n (rs.map (·.1)) (fl ||| flagsOf rs)

/-- L = log2 of the number of lanes. -/
def levels (t : ElemType) : Nat := Nat.log2 (1024 / t.bits)

/-- The operation of `VRED` and `VSCAN`. -/
def redOp (op : Fin 3) : LaneOp := if op = 0 then .add else if op = 1 then .min else .max

/-- `VRED`. -/
def redResult (t : ElemType) (op : Fin 3) (v : BitVec 1024) : Result :=
  laneResult t.bits (nanFmt t t t) [treeRed (laneArith (redOp op) t) (levels t) (lanesOf t.bits v) 0]

/-- One doubling of a scan at distance `d`: lanes with the flags they have gathered. -/
def scanStep (f : Nat → Nat → Nat × Nat) (d : Nat) (ys : List (Nat × Nat)) : List (Nat × Nat) :=
  ys.take d ++ List.zipWith (fun a b => let r := f a.1 b.1
                                        (r.1, b.2 ||| r.2)) ys (ys.drop d)

/-- `VSCAN`. -/
def scanResult (t : ElemType) (op : Fin 3) (v : BitVec 1024) : Result :=
  laneResult t.bits (nanFmt t t t)
    ((List.range (levels t)).foldl (fun ys k => scanStep (laneArith (redOp op) t) (2 ^ k) ys)
      ((lanesOf t.bits v).map fun a => (a, 0)))

/-- The larger of two magnitudes; a NaN wins. -/
def amaxLane (t : ElemType) (a b : Nat) : Nat × Nat :=
  let x := floatAbs t a
  let y := floatAbs t b
  let fl := x.2 ||| y.2
  if isNanV (unpack t a) then (x.1, fl)
  else if isNanV (unpack t b) then (y.1, fl)
  else (if ltV (unpack t x.1) (unpack t y.1) then y.1 else x.1, fl)

/-- `VAMAX`. -/
def amaxResult (t : ElemType) (v : BitVec 1024) : Result :=
  laneResult t.bits (nanFmt t t t) [treeRed (amaxLane t) (levels t) (lanesOf t.bits v) 0]

/-! ## Conversion (R265) -/

/-- Fields of the control value of `VCVT`. -/
def cvtPart (ctl : BitVec 22) : Nat := bits ctl.toNat 12 8
def cvtSat (ctl : BitVec 22) : Bool := bits ctl.toNat 7 7 == 1
def cvtRnd (ctl : BitVec 22) : Rnd := winRnd (bits ctl.toNat 6 4)
def cvtSrc (ctl : BitVec 22) : ElemType := (vcvtSrc ctl).getD .i64

/-- `VCVT`: `g` is the stepped Stipple state. -/
def cvtResult (t : ElemType) (ctl : BitVec 22) (src old : BitVec 1024) (g : BitVec 64) : Result :=
  let st := cvtSrc ctl
  let m := 1024 / max st.bits t.bits
  let first := if st.bits < t.bits then cvtPart ctl * m else 0
  let base := if t.bits < st.bits then cvtPart ctl * m else 0
  let rs := (List.range m).map fun j =>
    convert st t (cvtRnd ctl) (cvtSat ctl) (stippleLane g j) (laneOf st.bits src (first + j))
  let keep := lanesOf t.bits old
  { value := ofLanes t.bits (keep.take base ++ rs.map (·.1) ++ keep.drop (base + m)), flags := flagBits (flagsOf rs),
    nan := laneNan (nanFmt t st st) base rs }

/-! ## Quantisation (R274, R275) -/

/-- emax of a type. -/
def quantEmax (t : ElemType) : Int :=
  match t with
  | .i8 => 6 | .e4m3 => 8 | .e5m2 => 15 | _ => 0

/-- Bounds of an integer type of a block. -/
def quantRange (t : ElemType) : Int × Int := if t = .t2 then (-1, 1) else (-128, 127)

/-- Largest magnitude of finite values, as a rational. -/
def maxMag (vs : List Val) : Nat × Nat :=
  vs.foldl (fun m v => match v with
    | .fin _ n d => if m.1 * d < n * m.2 then (n, d) else m
    | _ => m) (0, 1)

/-- The computed scale of a block, and its flags. -/
def blockScale (t : ElemType) (vs : List Val) : Nat × Nat :=
  let inf := vs.any fun v => match v with
    | .inf _ => true
    | _ => false
  if inf || vs.any isNanV then
    (255, (if inf || vs.any isSigV then flInvalid else 0) + if inf && !(vs.any isNanV) then flNanMade else 0)
  else
    let m := maxMag vs
    if m.1 = 0 then (127, 0)
    else ((max 0 (min 254 (floorLog2 m.1 m.2 - quantEmax t + 127))).toNat, 0)

/-- Rounds a scaled value to an element of a block, saturating; saturation that changes a value, an infinity too, sets
overflow and inexact (R274). -/
def quantElem (t : ElemType) (m : Rnd) (r : Nat) (v : Val) : Nat × Nat :=
  if isFloat t then
    roundVF t m true r (v, match v with
      | .nan q => if q then flInvalid else 0
      | .inf _ => flOverflow + flInexact
      | .fin .. => 0)
  else
    let lo := (quantRange t).1
    let hi := (quantRange t).2
    match v with
    | .nan _ => (0, flInvalid)
    | .inf s => (lowBits t.bits (if s then lo else hi), flOverflow + flInexact)
    | .fin s n d =>
      let k := roundInt m r s n d
      let i : Int := if s then -(k : Int) else k
      if i < lo then (lowBits t.bits lo, flOverflow + flInexact)
      else if hi < i then (lowBits t.bits hi, flOverflow + flInexact)
      else (lowBits t.bits i, if k * d = n then 0 else flInexact)

/-- The elements of a block under a scale. -/
def quantBlock (t : ElemType) (m : Rnd) (e : Nat) (g : BitVec 64) (vs : List Val) : List (Nat × Nat) :=
  vs.zipIdx.map fun p => if e = 255 then (0, 0) else quantElem t m (stippleLane g p.2) (scaleV p.1 (127 - (e : Int)))

/-- Lane of the first infinity of a block. -/
def firstInf (vs : List Val) : Nat :=
  (vs.findIdx? fun v => match v with
    | .inf _ => true
    | _ => false).getD 0

/-- `VQNT`: elements into part p of vd, the scale into byte p of vd+1. -/
def qntResults (t : ElemType) (ctl : BitVec 22) (src old scales : BitVec 1024) (g : BitVec 64) : List Result :=
  let p := bits ctl.toNat 4 0
  let vs := (lanesOf 32 src).map (unpack .f32)
  let sc := if bits ctl.toNat 8 8 = 1 then (laneOf 8 scales p, 0) else blockScale t vs
  let rs := quantBlock t (winRnd (bits ctl.toNat 7 5)) sc.1 g vs
  let keep := lanesOf t.bits old
  let fmt := nanFmt t .f32 .f32
  let nan := if sc.2 / flNanMade % 2 = 1 then some { pos := BitVec.ofNat 64 ((32 * p + firstInf vs) * 65536), fmt := fmt }
    else laneNan fmt (32 * p) rs
  [{ value := ofLanes t.bits (keep.take (32 * p) ++ rs.map (·.1) ++ keep.drop (32 * p + 32)),
     flags := flagBits (flagsOf rs ||| sc.2), nan := nan },
   plainResult (ofLanes 8 ((lanesOf 8 scales).set p sc.1))]

/-- One element of a block as FP32 under its scale (R275). -/
def unquantElem (t : ElemType) (e a : Nat) : Nat × Nat :=
  let fl := tritFlag t a
  if e = 255 then (fmtNan .f32, fl)
  else
    let v : Val := if isFloat t then unpack t a else
      let i := intOf t a
      .fin (decide (i < 0)) i.natAbs 1
    let r := roundVF .f32 .rne false 0 (scaleV v ((e : Int) - 127), 0)
    (r.1, r.2 ||| fl)

/-- `VDQNT`. -/
def unquantResult (t : ElemType) (ctl : BitVec 22) (src scales : BitVec 1024) : Result :=
  let p := bits ctl.toNat 4 0
  laneResult 32 (nanFmt .f32 t t)
    ((List.range 32).map fun j => unquantElem t (laneOf 8 scales p) (laneOf t.bits src (32 * p + j)))

/-! ## Dot products (R276) -/

/-- Accumulator lane of `VDOT` from its group. -/
def dotLane (t : ElemType) (acc : Nat) (as bs : List Nat) : Nat × Nat :=
  if isFloat t then
    roundVF .f32 .rne false 0 (dotV (unpack .f32 acc) (as.map (unpack t)) (bs.map (unpack t)))
  else
    let s := (List.zipWith (fun a b => intOf t a * intOf t b) as bs).foldl (· + ·) (intOf .i32 acc)
    (lowBits 32 s, if s < -(2 ^ 31 : Int) ∨ (2 ^ 31 : Int) ≤ s then flOverflow else 0)

/-- `VDOT`. -/
def dotResult (t : ElemType) (acc a b : BitVec 1024) : Result :=
  let g := 32 / t.bits
  let group := fun (v : BitVec 1024) (j : Nat) => (List.range g).map fun k => laneOf t.bits v (g * j + k)
  laneResult 32 (nanFmt (if isFloat t then .f32 else .i32) t t)
    ((List.range 32).map fun j => dotLane t (laneOf 32 acc j) (group a j) (group b j))

end Sys2Proof.Machine
end

