-- ==== Sys2Proof/Machine/Copy.lean ====
section
/-! DEFINITION. The copy engine and copy schedules, opcodes 0xB0 to 0xB3 (R295 to R314). -/

namespace Sys2Proof.Machine

/-! ## Descriptors (R298, R299) -/

def cpSrc (n : Nat) : Nat := bits n 511 448
def cpDst (n : Nat) : Nat := bits n 447 384
def cpC0 (n : Nat) : Nat := bits n 63 44
def cpStype (n : Nat) : Nat := bits n 43 40
def cpDtype (n : Nat) : Nat := bits n 39 36
def cpRnd (n : Nat) : Nat := bits n 35 33
def cpSat (n : Nat) : Bool := bits n 32 32 == 1
def cpTag (n : Nat) : Nat := bits n 31 24
def cpFe (n : Nat) : Nat := bits n 23 22
def cpLand (n : Nat) : Bool := bits n 21 21 == 1
def cpLch (n : Nat) : Nat := bits n 20 15
def cpSmode (n : Nat) : MemMode := MemMode.ofCode (bits n 14 13)
def cpDmode (n : Nat) : MemMode := MemMode.ofCode (bits n 12 11)

/-- Extent of dimension 1 to 4. -/
def cpExt (n k : Nat) : Nat := bits n (143 + 80 * (k - 1)) (128 + 80 * (k - 1))
/-- Source and destination strides of dimension 1 to 4. -/
def cpSs (n k : Nat) : Int := sbits n (127 + 80 * (k - 1)) (96 + 80 * (k - 1))
def cpDs (n k : Nat) : Int := sbits n (95 + 80 * (k - 1)) (64 + 80 * (k - 1))

/-- Source and destination types. -/
def cpS (n : Nat) : ElemType := (ElemType.ofCode (cpStype n)).getD .i64
def cpD (n : Nat) : ElemType := (ElemType.ofCode (cpDtype n)).getD .i64

/-- Bytes of an element: that its addresses are multiples of. -/
def elemSize (t : ElemType) : Nat := max 1 (t.bits / 8)

/-- Bytes of `k` contiguous elements. -/
def runBytes (t : ElemType) (k : Nat) : Nat := k * t.bits / 8

/-- Destination bytes of a dimension-0 run, number of runs, and destination bytes of the box. -/
def cpRun (n : Nat) : Nat := runBytes (cpD n) (cpC0 n)
def cpRuns (n : Nat) : Nat := cpExt n 1 * cpExt n 2 * cpExt n 3 * cpExt n 4
def cpTotal (n : Nat) : Nat := cpRun n * cpRuns n

/-- A local address whose bits [63:24] are not all zero. -/
def badLocal (m : MemMode) (a : Nat) : Bool := m != .global && a / 2 ^ 24 != 0

/-- A descriptor passes R299. -/
def cpOk (n : Nat) : Bool :=
  let ss := elemSize (cpS n)
  let ds := elemSize (cpD n)
  let same := cpStype n == cpDtype n
  n % 2 ^ 11 == 0 && cpFe n != 3 && decide (cpStype n < 12) && decide (cpDtype n < 12)
    && !(cpTag n / 128 == 1 && decide (12 ≤ cpTag n % 16))
    && !(same && (cpRnd n != 0 || cpSat n)) && !(!same && (cpS n == .t2 || cpD n == .t2 || decide (5 ≤ cpRnd n)))
    && !((cpS n == .t2 || cpD n == .t2) && cpC0 n % 4 != 0)
    && cpSrc n % ss == 0 && cpDst n % ds == 0
    && ([1, 2, 3, 4].all fun k => cpSs n k % (ss : Int) == 0 && cpDs n k % (ds : Int) == 0)
    && !(badLocal (cpSmode n) (cpSrc n)) && !(badLocal (cpDmode n) (cpDst n)) && decide (cpTotal n < 2 ^ 36)
    && !(cpLand n && cpFe n == 2)

/-! ## Pieces (R300) -/

/-- A piece or packet: source and destination addresses, destination bytes, elements, and the index of its first
element. -/
structure Piece where
  sa    : Nat
  da    : Nat
  bytes : Nat
  elems : Nat
  first : Nat
  deriving DecidableEq, Repr

/-- Indices of run `r` in dimensions 1 to 4. -/
def runIndex (n r k : Nat) : Nat :=
  let e := fun (j : Nat) => max 1 (cpExt n j)
  if k = 1 then r % e 1 else if k = 2 then r / e 1 % e 2 else if k = 3 then r / (e 1 * e 2) % e 3
  else r / (e 1 * e 2 * e 3)

/-- Address of a byte of a run: `off` bytes in. -/
def cpAddr (n r off : Nat) (base : Nat) (stride : Nat → Nat → Int) : Nat :=
  wrap64 (([1, 2, 3, 4].foldl (fun (a : Int) k => a + (runIndex n r k : Nat) * stride n k) (base : Nat)) + (off : Nat))

/-- The piece of the stream that begins at an offset. -/
def pieceAt (n off : Nat) : Piece :=
  let run := max 1 (cpRun n)
  let r := off / run
  let o := off % run
  let da := cpAddr n r o (cpDst n) cpDs
  let unit := if cpLand n then 256 else 64
  let k := min (run - o) (unit - da % unit)
  let e0 := o * 8 / (cpD n).bits
  { sa := cpAddr n r (runBytes (cpS n) e0) (cpSrc n) cpSs, da := da, bytes := k, elems := k * 8 / (cpD n).bits,
    first := r * cpC0 n + e0 }

/-- Cuts `n` bytes at `a` into parts within lines. -/
def lineCuts (a n : Nat) : List (Nat × Nat) := splitLines [(a, n)]

/-- An address of an engine, in one line (R300). -/
def State.copyAddr (s : State) (k : CopyCmd) (d c : Nat) (mode : MemMode) (a n : Nat) (need : Need) :
    Except Nat (List (Nat × Nat)) :=
  if badLocal mode a then .error causeUnmapped else s.engineAddr k.world k.space k.region d c mode a n need

/-- Translates every part of a range. -/
def State.copyParts (s : State) (k : CopyCmd) (d c : Nat) (mode : MemMode) (need : Need) :
    List (Nat × Nat) → Except Nat (List (Nat × Nat))
  | [] => .ok []
  | p :: ps => match s.copyAddr k d c mode p.1 p.2 need, s.copyParts k d c mode need ps with
    | .ok q, .ok r => .ok (q ++ r)
    | .error e, _ => .error e
    | _, .error e => .error e

/-- Reads parts wherever they lie. -/
def State.readAnys (s : State) (world : Nat) : List (Nat × Nat) → State × List Byte × Bool
  | [] => (s, [], false)
  | p :: ps =>
    let r := s.readAny world p.1 p.2
    let q := r.1.readAnys world ps
    (q.1, r.2.1 ++ q.2.1, r.2.2 || q.2.2)

/-- Writes bytes over parts; `todo` is what acknowledgements of other packages do. -/
def State.writeAnysBy (s : State) (todo : AckDo) (d rlim world : Nat) (fe : Option Bool) :
    List (Nat × Nat) → List Byte → State
  | [], _ => s
  | p :: ps, bs =>
    (s.writeAnyBy todo d rlim world p.1 (bs.take p.2) fe).writeAnysBy todo d rlim world fe ps (bs.drop p.2)

/-- Writes bytes over parts, by a unit that needs no word of a failure. -/
def State.writeAnys (s : State) (d world : Nat) (fe : Option Bool) (ps : List (Nat × Nat)) (bs : List Byte) : State :=
  s.writeAnysBy (.store 0) d unitRlim world fe ps bs

/-- Why an engine cannot write some parts. -/
def State.writeBars (s : State) (world : Nat) (fe : Option Bool) (ps : List (Nat × Nat)) : Option Nat :=
  ps.findSome? fun p => s.writeBar world p.1 p.2 fe

/-! ## Conversion (R301) -/

/-- The generator of the next piece: the stepped state, and the command after it. -/
def State.pieceGroup (s : State) (k : CopyCmd) (d c : Nat) : BitVec 64 × State :=
  let n := k.desc.toNat
  if winRnd (cpRnd n) != .sr || neverInexact (cpS n) (cpD n) then (0, s)
  else if k.srmode then s.compatStep k.lid (s.lcore k.lid d c) (s.cyc d) .copy
  else
    let r := s.jobSeed k.lid
    ((List.range (k.groups + 1)).foldl (fun g _ => stippleStep g) (stippleSeed r.1 k.coord k.seq), r.2)

/-- The destination bytes of a piece from its source bytes, with flags by element. -/
def pieceBytes (n : Nat) (g : BitVec 64) (src : List Byte) : List Byte × List (Nat × Nat) :=
  if cpStype n = cpDtype n then (src, [])
  else
    let z := elemSize (cpS n)
    let rs := (List.range (src.length / z)).map fun j =>
      convert (cpS n) (cpD n) (winRnd (cpRnd n)) (cpSat n) (stippleLane g j) (leNat ((src.drop (z * j)).take z))
    (rs.flatMap fun r => leBytes (elemSize (cpD n)) r.1, rs)

/-- A command after a piece: flags and first NaN gathered, and one more group drawn. -/
def CopyCmd.after (k : CopyCmd) (p : Piece) (rs : List (Nat × Nat)) : CopyCmd :=
  let n := k.desc.toNat
  let here := (rs.findIdx? fun r => r.2 / flNanMade % 2 == 1).map fun j =>
    ({ pos := BitVec.ofNat 64 ((p.first + j) % 2 ^ 16 * 2 ^ 16), fmt := nanFmt (cpD n) (cpS n) (cpS n) } : NanCap)
  { k with flags := k.flags ||| flagBits (flagsOf rs), nan := k.nan.orElse fun _ => here, groups := k.groups + 1 }

/-! ## The engine (R295 to R297, R302, R306) -/

/-- Changes the copy engine of a core. -/
def State.modCpy (s : State) (d c : Nat) (f : CopyEng → CopyEng) : State :=
  s.modCore d c fun k => { k with cpy := f k.cpy }

/-- Changes the command that runs. -/
def State.modRun (s : State) (d c : Nat) (f : CopyRun → CopyRun) : State :=
  s.modCpy d c fun e => { e with run := e.run.map f }

/-- Destination parts of the whole box, run by run. -/
def boxParts (n : Nat) (dst : Bool) : List (Nat × Nat) :=
  (List.range (cpRuns n)).flatMap fun r =>
    if dst then lineCuts (cpAddr n r 0 (cpDst n) cpDs) (cpRun n)
    else lineCuts (cpAddr n r 0 (cpSrc n) cpSs) (runBytes (cpS n) (cpC0 n))

/-- Writes the layout tag to every 4 KiB of local memory that holds a destination byte, reached in any mode, through the own
package's export table too (R302, R164, R345). -/
def State.writeTags (s : State) (k : CopyCmd) (d c : Nat) : State :=
  let n := k.desc.toNat
  if cpTag n < 128 then s
  else (boxParts n true).foldl (fun (s : State) p =>
    match s.copyAddr k d c (cpDmode n) p.1 p.2 .wr with
    | .error _ => s
    | .ok qs => qs.foldl (fun (s : State) q =>
        let m := s.place k.world q
        s.setTags m.1 m.2 (BitVec.ofNat 8 (cpTag n))) s) s

/-- The next command, and the queue it came from: true for the schedule queue. -/
def CopyEng.next (e : CopyEng) : Option (CopyCmd × Bool) :=
  match e.queue, e.sched with
  | [], [] => none
  | k :: _, [] => some (k, false)
  | [], k :: _ => some (k, true)
  | k :: _, q :: _ => if e.alt then some (q, true) else some (k, false)

/-- How a command begins: its end, where it has one at once. -/
def startEnd (n : Nat) : Option (BitVec 8 × Nat) :=
  if !(cpOk n) then some (0x40, 0) else if cpTotal n = 0 then some (0, 0) else none

/-- COPY_COMMAND_START (R297). -/
def execCopyCommandStart (d : DieNo) (c : CoreNo) (s : State) : Out :=
  let e := (s.core d.val c.val).cpy
  if e.run.isSome then .next s
  else match e.next with
    | none => .next s
    | some (k, sch) =>
      let s := s.modCpy d.val c.val fun e =>
        { queue := if sch then e.queue else e.queue.drop 1, sched := if sch then e.sched.drop 1 else e.sched,
          run := some { num := s.nextOrder, cmd := k, ended := startEnd k.desc.toNat, landing := false, sent := [],
                          piece := k.offset, abort := none }, alt := !sch }
      let s := { s with nextOrder := s.nextOrder + 1 }
      if (startEnd k.desc.toNat).isNone && k.offset == 0 then .next (s.writeTags k d.val c.val) else .next s

/-- The run stops with a code at its present offset. -/
def State.stopRun (s : State) (d c : Nat) (code : Nat) : State :=
  s.modRun d c fun r => { r with ended := some (BitVec.ofNat 8 code, r.cmd.offset) }

/-- Bytes of the stream are written, by requests to other packages among others, and the stream may have ended. -/
def State.writePiece (s : State) (d c : Nat) (k : CopyCmd) (parts : List (Nat × Nat)) (bs : List Byte) (n wrote : Nat) :
    State :=
  let first := (s.die d).ni.nextOut
  let s := s.writeAnysBy (.copy (coreNo c)) d k.rlim k.world (feOf (cpFe k.desc.toNat)) parts bs
  let k' := { k with offset := k.offset + n, wrote := k.wrote + wrote }
  (s.modRun d c fun r =>
    { r with cmd := k', landing := false, sent := (List.range ((s.die d).ni.nextOut - first)).map (first + ·),
             piece := k.offset,
             ended := match r.ended with
               | some e => some (e.1, k'.offset)
               | none => if cpTotal k.desc.toNat ≤ k'.offset then some (0, k'.offset) else none }).charge k.region
    (coreKey d c) 0 wrote

/-- A request of the piece under way has not been answered. -/
def State.runWaits (s : State) (d : Nat) (r : CopyRun) : Bool := r.sent.any fun h => KMap.has (s.die d).ni.outst h

/-- A write to another package has failed: the command stops at its piece (R306). -/
def State.copyFail (s : State) (d c h code : Nat) : State :=
  s.modRun d c fun r => if r.sent.contains h then { r with ended := some (BitVec.ofNat 8 code, r.piece) } else r

/-- Where a packet of a world lands: the core whose local memory holds its destination, else the commanding core (R307,
R345). -/
def State.landingCore (s : State) (world d c : Nat) (parts : List (Nat × Nat)) : Nat × Nat :=
  match parts with
  | p :: _ => (match s.homeOf (s.place world p).1 with
    | .local d' c' => (d', c')
    | _ => (d, c))
  | [] => (d, c)

/-- Offers a packet of run `num` to slot 6 (R88, R307). -/
def State.offerPacket (s : State) (d c num : Nat) (k : CopyCmd) (p : Piece) (parts : List (Nat × Nat)) (bs : List Byte) : State :=
  let at_ := s.landingCore k.world d c parts
  let ch := cpLch k.desc.toNat
  match s.tableFor at_.1 at_.2 k.lid k.world with
  | none => s.stopRun d c 0x43
  | some t =>
    let e := t.entry ch
    if e.permitted && e.landing then
      (s.modRun d c fun r => { r with cmd := k, landing := true }).modCore at_.1 at_.2 fun x =>
        { x with landq := x.landq ++ [(t.lid, .copy d c num p.da p.bytes bs, ch, k.item)] }
    else s.stopRun d c 0x43

/-- The next piece or packet of the command that runs (R306). With `bad` its source arrives as poison (R408). -/
def State.nextPiece (s : State) (d c num : Nat) (k : CopyCmd) (bad : Bool) : State :=
  let n := k.desc.toNat
  let p := pieceAt n k.offset
  if k.srmode && winRnd (cpRnd n) == .sr && s.convHeld k.lid (s.lcore k.lid d c) (s.cyc d) .copy then s
  else match s.copyParts k d c (cpSmode n) .rd (lineCuts p.sa (runBytes (cpS n) p.elems)),
      s.copyParts k d c (cpDmode n) .wr (lineCuts p.da p.bytes) with
  | .error e, _ | _, .error e => s.stopRun d c (copyCode e)
  | .ok ss, .ok ds =>
    if s.migrating ss || s.migrating ds then s
    else match s.writeBars k.world (feOf (cpFe n)) ds with
    | some e => s.stopRun d c (copyCode e)
    | none =>
      let r := s.readAnys k.world ss
      if r.2.2 || bad then (r.1.poisonOver d k.rlim k.world ds (feOf (cpFe n))).stopRun d c 0x22
      else
        let g := r.1.pieceGroup k d c
        let b := pieceBytes n g.1 r.2.1
        let k := k.after p b.2
        if cpLand n then g.2.offerPacket d c num k p ds b.1
        else g.2.writePiece d c k ds b.1 p.bytes p.bytes

/-- The copy engine of a core does its next piece, if it may. -/
def State.copyStep (s : State) (d c : Nat) (bad : Bool) : State :=
  match (s.core d c).cpy.run with
  | none => s
  | some r =>
    if r.ended.isSome || r.landing || r.abort.isSome || s.runWaits d r then s else s.nextPiece d c r.num r.cmd bad

/-- COPY_PIECE_WRITE (R306). -/
def execCopyPieceWrite (d : DieNo) (c : CoreNo) (s : State) : Out := .next (s.copyStep d.val c.val false)

/-! ## Completion (R303, R304) -/

/-- A signal by an engine (R303): 0, or the code of its refusal. -/
def State.signalBy (s : State) (world : Nat) (v : BitVec 64) : State × Nat :=
  match s.memberOf world v with
  | none => (s, 0x24)
  | some (p, m) => match signal p m with
    | .error e => (s, e)
    | .ok (p, m, _) => ((s.setMember (phDie v) (phMember v) m).settlePhaser (phDie v) (phIndex v) p, 0)

/-- The success word. -/
def copyDone (k : CopyCmd) (sig : Nat) : BitVec 64 :=
  BitVec.ofNat 64 (k.wrote % 2 ^ 36 * 2 ^ 8 + sig % 256 * 2 ^ 44 + k.flags.toNat % 512 * 2 ^ 52)

/-- The failure word. -/
def copyFailed (code : BitVec 8) (off : Nat) : BitVec 64 := BitVec.ofNat 64 (2 ^ 63 + code.toNat + off % 2 ^ 36 * 2 ^ 8)

/-- The status of a command goes to its register, or to the done word of its schedule entry (R309). -/
def State.copyStatus (s : State) (k : CopyCmd) (v : BitVec 64) : State :=
  match k.by_ with
  | .ctx t => s.pushFill t.uid { valueFill t.dest v with flags := k.flags, nan := k.nan.map fun x => x.by k.order }
  | .sched _ _ done =>
    if done = 0 then s
    else match s.resolveGlobal k.world k.space false done 8 8 .wr with
      | .ok a => s.writeAny 0 k.world (partAt a.parts 0) (leBytes 8 v.toNat) (some true)
      | .error _ => s

/-- A write of an engine to another package has not been acknowledged. -/
def State.engineWrites (s : State) (d : Nat) : Bool := (s.die d).ni.outst.any fun o => o.2.todo == .store 0

/-- How the command that runs has ended: code and offset. One that `CPABT` reached before its last write was complete is
aborted, where it has not failed (R314). -/
def CopyRun.end? (r : CopyRun) : Option (BitVec 8 × Nat) :=
  if r.abort.isSome then match r.ended with
    | some (0, off) => some (0x44, off)
    | some e => some e
    | none => some (0x44, r.cmd.offset)
  else r.ended

/-- A command is aborted at an offset: its register fills at once, or its done word. -/
def State.abortCmd (s : State) (k : CopyCmd) (off : Nat) : State :=
  let v := copyFailed 0x44 off
  match k.by_ with
  | .ctx t => s.land t.uid { valueFill t.dest v with flags := k.flags, nan := k.nan.map fun x => x.by k.order } (some (v.setWidth 1024))
  | .sched .. => s.copyStatus k v

/-- A command that a `CPABT` reached in the middle of a piece has ended as aborted: it joins that `CPABT`'s count (R314). -/
def State.countAbort (s : State) (t : Option Target) : State :=
  match t with
  | none => s
  | some t => s.modCtx t.uid fun c => { c with fills := c.fills.map fun f => match f.src with
      | .aborted n all => if f.dest == t.dest then { f with src := .aborted (n + 1) all } else f
      | _ => f }

/-- COPY_COMMAND_COMPLETE (R303): the member is signalled, and the status fills; that of an aborted command before the `CPABT`
which counts it (R314). -/
def execCopyCommandComplete (d : DieNo) (c : CoreNo) (s : State) : Out :=
  match (s.core d.val c.val).cpy.run with
  | none => .next s
  | some r => match r.end? with
    | none => .next s
    | some (code, off) =>
      if r.landing || s.runWaits d.val r then .next s
      else
        let s := s.modCpy d.val c.val fun e => { e with run := none }
        if code = 0x44 then .next ((s.abortCmd r.cmd off).countAbort r.abort)
        else if code ≠ 0 then .next (s.copyStatus r.cmd (copyFailed code off))
        else
          let q := if r.cmd.member = 0 then (s, 0) else s.signalBy r.cmd.world r.cmd.member
          .next (q.1.copyStatus r.cmd (copyDone r.cmd q.2))

/-! ## The end of a landing handler (R88, R307) -/

/-- The packet of run `num` of a copy is stored at `DONE`: the first x2 bytes of v0 and v1 at the address in x1. Where that run
has been dropped meanwhile nothing is stored. -/
def State.landCopy (s : State) (x : Context) (d c num : Nat) (len : Nat) : State :=
  match (s.core d c).cpy.run with
  | none => s
  | some r =>
    if r.num != num || !r.landing then s
    else
    let k := r.cmd
    let n := k.desc.toNat
    let z := (x.getX 2).toNat
    let stop := fun (code : Nat) => (s.modRun d c fun r => { r with landing := false }).stopRun d c code
    if 256 < z then stop 0x45
    else match s.copyParts k d c (cpDmode n) .wr (lineCuts (x.getX 1).toNat z) with
      | .error e => stop (copyCode e)
      | .ok ds => match s.writeBars k.world (feOf (cpFe n)) ds with
        | some e => stop (copyCode e)
        | none =>
          let bs := (leBytes 128 (x.getV 0).toNat ++ leBytes 128 (x.getV 1).toNat).take z
          s.writePiece d c k ds bs len z

/-! ## Instructions (R312 to R314) -/

/-- A command joins the queue of its core's engine and its register goes pending; it waits while two are queued. -/
def State.copyCmd (s : State) (uid : Nat) (c : Context) (dest : Fin 64) (desc : Nat) (member : BitVec 64) : Res :=
  let d := c.die.val
  let k := c.core.val
  if 2 ≤ (s.core d k).cpy.queue.length then .wait
  else
    let cmd : CopyCmd :=
      { by_ := .ctx { uid := uid, dest := .x dest }, world := c.world, lid := c.lid, region := c.region, space := c.space,
        coord := c.item, seq := BitVec.ofNat 64 (linPc c.pc) ^^^ BitVec.ofNat 64 (cpSrc desc) ^^^ BitVec.ofNat 64 (cpDst desc),
        item := c.item, srmode := c.srmode, rlim := c.rlim.toNat, order := c.serial, desc := BitVec.ofNat 512 desc, member := member, offset := 0, wrote := 0,
        flags := 0, nan := none, groups := 0 }
    .done ((s.pendReg uid (.x dest)).modCpy d k fun e => { e with queue := e.queue ++ [cmd] })

/-- The widest scope of the sources of a box (R180). -/
def State.copyScope (s : State) (c : Context) (n : Nat) : Scope :=
  if !(cpOk n) then .core
  else (boxParts n false).foldl (fun (w : Scope) p =>
    match s.engineAddr c.world c.space c.region c.die.val c.core.val (cpSmode n) p.1 p.2 .rd with
    | .ok qs => qs.foldl (fun (w : Scope) q => widerScope w (s.addrScope c q.1)) w
    | .error _ => w) .core

def execCpy (ctl : Ctl) (xs : Fin 64) (m : MemOp) (ph : XI) (s : State) : Out :=
  issue 0xB0 ctl noPriv (memSrc m :: xiSrcs ph) [.x xs] s fun uid c t =>
    (t.readBlock uid c ctl.loc m 64).into fun t bs =>
      if !(t.released uid c (t.copyScope c (leNat bs))) then .wait
      else t.copyCmd uid c xs (leNat bs) (xiVal c ph)

/-- The checks of R158 and R159 on an address that is not accessed at issue. -/
def formFault (mode : MemMode) (a size : Nat) : Option (Nat × Nat) :=
  if mode = .global then (if a % size ≠ 0 then some (causeMisaligned, a) else none)
  else
    let win := a / 2 ^ 24 % 8
    let rnd := a / 2 ^ 27 % 8
    if a / 2 ^ 30 ≠ 0 ∨ win = 7 ∨ 5 ≤ rnd then some (causeUnmapped, a)
    else if win = 0 ∧ rnd ≠ 0 then some (causeMisaligned, a)
    else if a % (size / winDiv win) ≠ 0 then some (causeMisaligned, a)
    else none

/-- The descriptor of `CPYI` (R313). A length of 2^20 bytes or more makes a descriptor that breaks R299. -/
def cpyiDesc (src dst len : Nat) (ms md : MemMode) : Nat :=
  ms.code * 2 ^ 13 + md.code * 2 ^ 11 + len / 8 % 2 ^ 20 * 2 ^ 44 + 2 ^ 128 + 2 ^ 208 + 2 ^ 288 + 2 ^ 368
    + dst % 2 ^ 64 * 2 ^ 384 + src % 2 ^ 64 * 2 ^ 448 + (if 2 ^ 20 ≤ len then 1 else 0)

def execCpyi (ctl : Ctl) (xs : XSrc) (dst src : MemOp) (s : State) : Out :=
  issue 0xB1 ctl noPriv [xSrc xs, memSrc dst, memSrc src] [.x xs.reg] s fun uid c t =>
    let len := (xVal c xs).toNat
    let da := formAddr c dst 8
    let sa := formAddr c src 8
    match (formFault dst.mode da 8).orElse fun _ => formFault src.mode sa 8 with
    | some e => .trap e.1 e.2
    | none =>
      if len % 8 ≠ 0 then .trap causeMisaligned len
      else
        let n := cpyiDesc sa da len src.mode dst.mode
        if !(t.released uid c (t.copyScope c n)) then .wait
        else t.copyCmd uid c xs.reg n 0

/-- Adds an advance to a field of an address. -/
def stepAddr (a : Nat) (q : Nat) (d : BitVec 64) : Nat := wrap64 ((a : Int) + (q : Nat) * d.toInt)

/-- The command of release `r` of a schedule: its core's logical number with it (R309). -/
def schedCmd (sc : Sched) (lid world region space : Nat) (compat : Bool) (r : Nat) : Option (Nat × CopyCmd) :=
  (sc.entries[r % max 1 sc.n]?).map fun e =>
    let q := r / max 1 sc.n
    let n := e.2.2.2.toNat
    let src := stepAddr (cpSrc n) q sc.sstep
    let dst := stepAddr (cpDst n) q sc.dstep
    (e.1, { by_ := .sched lid r e.2.2.1, world := world, lid := lid, region := region, space := space,
            coord := BitVec.ofNat 64 r, seq := BitVec.ofNat 64 src ^^^ BitVec.ofNat 64 dst, item := BitVec.ofNat 64 r,
            srmode := compat, rlim := unitRlim, order := 0, desc := BitVec.ofNat 512 (n % 2 ^ 384 + dst * 2 ^ 384 + src * 2 ^ 448), member := e.2.1,
            offset := 0, wrote := 0, flags := 0, nan := none, groups := 0 })

/-- Releases `k` entries from release `r` on. -/
def State.releaseEntries (s : State) (lid : Nat) (l : Launch) (sc : Sched) : Nat → Nat → State
  | 0, _ => s
  | k + 1, r =>
    let s := match schedCmd sc lid l.world l.region l.space l.compat r with
      | some (lc, cmd) => (match l.coreOf lc with
        | some (d, c) => s.modCpy d c fun e => { e with sched := e.sched ++ [cmd] }
        | none => s)
      | none => s
    s.releaseEntries lid l sc k (r + 1)

/-- CPSTG (R310). -/
def execCpstg (ctl : Ctl) (xs : Fin 64) (k : XI) (s : State) : Out :=
  issue 0xB2 ctl noPriv (xiSrcs k) [.x xs] s fun uid c t =>
    let n := (xiVal c k).toNat % 65536
    match KMap.look t.scheds c.lid, t.launch? c.lid with
    | some sc, some l =>
      if sc.ended || (sc.rounds != 0 && decide (sc.n * sc.rounds < sc.count + n)) then
        .done (t.produceWord uid (.x xs) (errWord 0x47))
      else if !(t.released uid c .pkg) then .wait
      else
        let t := t.releaseEntries c.lid l sc n sc.count
        let t := { t with scheds := KMap.put t.scheds c.lid { sc with count := (sc.count + n) % 2 ^ 64 } }
        .done (t.produceWord uid (.x xs) (BitVec.ofNat 64 (sc.count + n)))
    | _, _ => .done (t.produceWord uid (.x xs) (errWord 0x46))

/-- The command is one of a context. -/
def CopyCmd.ofCtx (k : CopyCmd) (uid : Nat) : Bool :=
  match k.by_ with
  | .ctx t => t.uid == uid
  | .sched .. => false

/-- The command is an entry of a launch's schedule. -/
def CopyCmd.ofSched (k : CopyCmd) (lid : Nat) : Bool :=
  match k.by_ with
  | .ctx _ => false
  | .sched l _ _ => l == lid

/-- Aborts the commands of one engine that a test picks, and counts them. The command that runs stops at a piece boundary:
where the writes of its last piece are not complete, or its packet is with a landing handler, it ends by itself when they
are, and is counted then. A command whose last write is complete is not aborted. `by_` is the `CPABT`. -/
def State.abortEngine (s : State) (by_ : Target) (d c : Nat) (f : CopyCmd → Bool) : State × Nat :=
  let e := (s.core d c).cpy
  let hit := e.queue.filter f ++ e.sched.filter f
  let s := s.modCpy d c fun e =>
    { e with queue := e.queue.filter fun k => !(f k), sched := e.sched.filter fun k => !(f k) }
  let q : State × Nat := match e.run with
    | none => (s, 0)
    | some r =>
      if !(f r.cmd) || r.abort.isSome then (s, 0)
      else if r.landing || s.runWaits d r then (s.modRun d c fun r => { r with abort := some by_ }, 0)
      else if r.ended.isSome then (s, 0)
      else ((s.modCpy d c fun e => { e with run := none }).abortCmd r.cmd r.cmd.offset, 1)
  (hit.foldl (fun (s : State) k => s.abortCmd k k.offset) q.1, hit.length + q.2)

/-- Cores whose engines may hold entries of the schedule of a launch. -/
def Launch.coreList (l : Launch) : List (Nat × Nat) := (List.range l.nCores).filterMap fun i => l.coreOf i

/-- Ends the schedule of a launch: released entries not yet complete are aborted (R314). -/
def State.abortSched (s : State) (by_ : Target) (lid : Nat) (l : Launch) : State × Nat :=
  let s := { s with scheds := KMap.modify s.scheds lid fun x => { x with ended := true } }
  let saved := s.savedCpy.filter fun p => p.2.ofSched lid
  let s := { s with savedCpy := s.savedCpy.filter fun p => !(p.2.ofSched lid) }
  let s := saved.foldl (fun (s : State) p => s.abortCmd p.2 p.2.offset) s
  l.coreList.foldl (fun (r : State × Nat) p =>
    let q := r.1.abortEngine by_ p.1 p.2 fun k => k.ofSched lid
    (q.1, r.2 + q.2)) (s, saved.length)

/-- A command of the context, or with `all` an entry of its launch's schedule, is still being aborted. -/
def State.aborting (s : State) (uid lid : Nat) (all : Bool) : Bool :=
  s.cores.any fun p => match p.2.cpy.run with
    | some r => r.abort.isSome && (r.cmd.ofCtx uid || (all && r.cmd.ofSched lid))
    | none => false

/-- CPABT (R314): xs fills with the number of commands and entries aborted, once each of their statuses has filled. -/
def execCpabt (ctl : Ctl) (xs : Fin 64) (a : XI) (s : State) : Out :=
  issue 0xB3 ctl noPriv (xiSrcs a) [.x xs] s fun uid c t =>
    let all := (xiVal c a).getLsbD 0
    let me : Target := { uid := uid, dest := .x xs }
    let r := t.abortEngine me c.die.val c.core.val fun q => q.ofCtx uid
    let q := match all, r.1.launch? c.lid with
      | true, some l => r.1.abortSched me c.lid l
      | _, _ => (r.1, 0)
    .done (q.1.produce uid { valueFill (.x xs) 0 with src := .aborted (r.2 + q.2) all })

end Sys2Proof.Machine
end

