-- ==== Sys2Proof/Machine/Views.lean ====
section
/-! DEFINITION. Master tensors and their views, opcodes 0xC0 to 0xC6 (R315 to R337), and the view engine (R322, R323,
R336). -/

namespace Sys2Proof.Machine

/-! ## Master records (R316, R317) -/

def msD0 (n : Nat) : Nat := bits n 159 128
def msD1 (n : Nat) : Nat := bits n 191 160
def msD2 (n : Nat) : Nat := bits n 223 192
def msD3 (n : Nat) : Nat := bits n 255 224
def msBase (n : Nat) : Nat := bits n 63 0
def msTrack (n : Nat) : Nat := bits n 127 64
/-- Bytes between rows, planes and volumes. -/
def msStep (n k : Nat) : Nat := bits n (287 + 32 * (k - 1)) (256 + 32 * (k - 1))

/-- Element type of a master. -/
def msType (n : Nat) : ElemType := (ElemType.ofCode (bits n 355 352)).getD .i64

/-- Bytes of an element. -/
def msElem (n : Nat) : Nat := masterElem (BitVec.ofNat 1024 n)

/-- Offsets of the rows of a box of `e1` × `e2` × `e3` rows. -/
def rowOffsets (e1 e2 e3 s1 s2 s3 : Nat) : List Nat :=
  (List.range e3).flatMap fun i3 => (List.range e2).flatMap fun i2 => (List.range e1).map fun i1 => i3 * s3 + i2 * s2 + i1 * s1

/-- Rows of `len` bytes at these offsets share no byte. -/
def rowsApart (len : Nat) : List Nat → Bool
  | a :: b :: t => decide (a + len ≤ b) && rowsApart len (b :: t)
  | _ => true

/-- Offsets in rising order. -/
def rising (l : List Nat) : List Nat := l.mergeSort fun x y => decide (x ≤ y)

/-- Rows of a master's data, from its base. -/
def msRows (n : Nat) : List Nat := rowOffsets (msD1 n) (msD2 n) (msD3 n) (msStep n 1) (msStep n 2) (msStep n 3)

/-- Bytes from the base of a master to the end of its data. -/
def msSpan (n : Nat) : Nat :=
  (msD3 n - 1) * msStep n 3 + (msD2 n - 1) * msStep n 2 + (msD1 n - 1) * msStep n 1 + msD0 n * msElem n

/-- Blocks of a master record. -/
def msBlocks (n : Nat) : Nat := masterBlocks (BitVec.ofNat 1024 n)

/-- A master record passes R316 and R317. -/
def msOk (n : Nat) : Bool :=
  let t := bits n 355 352
  let z := 32 * msElem n
  bits n 1023 356 == 0 && (t == 6 || t == 7 || t == 8) && msD0 n % 32 == 0 && decide (0 < msD0 n) && decide (0 < msD1 n)
    && decide (0 < msD2 n) && decide (0 < msD3 n) && msTrack n % 64 == 0 && msBase n % z == 0
    && decide (msBlocks n ≤ 2 ^ 24) && ([1, 2, 3].all fun k => msStep n k % z == 0)
    && rowsApart (msD0 n * msElem n) (rising (msRows n))

/-! ## View records (R318, R319) -/

def vwShards (v : Nat) : Nat := bits v 363 360 + 1
def vwType (v : Nat) : ElemType := (ElemType.ofCode (bits v 359 356)).getD .i64
def vwSat (v : Nat) : Bool := bits v 355 355 == 1
def vwRnd (v : Nat) : Nat := bits v 354 352
def vwSstr (v : Nat) : Int := sbits v 351 288
def vwStep (v k : Nat) : Nat := bits v (223 + 32 * (k - 1)) (192 + 32 * (k - 1))
def vwTag (v : Nat) : Nat := bits v 371 364

/-- The view format is scaled. -/
def vwScaled (v : Nat) : Bool := (vwType v).isQuant

/-- Bytes of a view block. -/
def vwBlock (v : Nat) : Nat := 4 * (vwType v).bits

/-- Rows per shard. -/
def vwH (n v : Nat) : Nat := msD1 n / vwShards v

/-- Blocks of a shard. -/
def vwCount (n v : Nat) : Nat := msD3 n * msD2 n * vwH n v * (msD0 n / 32)

/-- Address at shard `s`. -/
def shardAt (v s base off : Nat) : Nat := wrap64 ((base : Int) + (s : Nat) * vwSstr v + (off : Nat))

/-- Rows of a shard's data, from its first byte. -/
def vwRows (n v : Nat) : List Nat := rowOffsets (vwH n v) (msD2 n) (msD3 n) (vwStep v 1) (vwStep v 2) (vwStep v 3)

/-- Bytes of a row of view data. -/
def vwRow (n v : Nat) : Nat := msD0 n / 32 * vwBlock v

/-- A view record passes R318 and R319 for its master, but for where its shards lie. -/
def vwOk (n v : Nat) : Bool :=
  let f := bits v 359 356
  let scaled := f == 3 || f == 9 || f == 10 || f == 11
  bits v 1023 372 == 0 && (scaled || f == 6 || f == 7 || f == 8) && !(scaled && vwSat v) && decide (vwRnd v ≤ 4)
    && (decide (vwTag v < 128) || vwTag v == 128 + f) && msD1 n % vwShards v == 0 && bits v 191 128 % 8 == 0
    && ([1, 2, 3].all fun k => vwStep v k % vwBlock v == 0)
    && rowsApart (vwRow n v) (rising ((List.range (vwShards v)).flatMap fun s => (vwRows n v).map fun r =>
        shardAt v s (bits v 63 0) r))

/-- Ranges of a shard: its rows of data, its scales, its tags. -/
def shardRanges (n v s : Nat) : List (Nat × Nat) :=
  ((vwRows n v).map fun r => (shardAt v s (bits v 63 0) r, vwRow n v))
    ++ (if vwScaled v then [(shardAt v s (bits v 127 64) 0, vwCount n v)] else [])
    ++ [(shardAt v s (bits v 191 128) 0, 8 * vwCount n v)]

/-- Where a master block lies in a view: shard and local index (R319). -/
def viewPlace (n v b : Nat) : Nat × Nat :=
  let q := b % (msD0 n / 32)
  let i1 := b / (msD0 n / 32) % msD1 n
  let hi := b / (msD0 n / 32) / msD1 n
  (i1 / vwH n v, (hi * vwH n v + i1 % vwH n v) * (msD0 n / 32) + q)

/-- The master block of a shard's local index. -/
def viewBlock (n v s lb : Nat) : Nat :=
  let q := lb % (msD0 n / 32)
  let r := lb / (msD0 n / 32) % vwH n v
  let hi := lb / (msD0 n / 32) / vwH n v
  (hi * msD1 n + s * vwH n v + r) * (msD0 n / 32) + q

/-- Addresses of a view block: data, scale, tag (R319). -/
def viewAddrs (n v b : Nat) : Nat × Nat × Nat :=
  let p := viewPlace n v b
  let q := p.2 % (msD0 n / 32)
  let r := p.2 / (msD0 n / 32) % vwH n v
  let hi := p.2 / (msD0 n / 32) / vwH n v
  (shardAt v p.1 (bits v 63 0) (hi / msD2 n * vwStep v 3 + hi % msD2 n * vwStep v 2 + r * vwStep v 1 + q * vwBlock v),
   shardAt v p.1 (bits v 127 64) p.2, shardAt v p.1 (bits v 191 128) (8 * p.2))

/-! ## Translation -/

/-- Physical parts of a range of a space, line by line; a cause where one fails. -/
def State.rangeParts (s : State) (world space a n : Nat) (need : Need) : Except Nat (List (Nat × Nat)) :=
  (lineCuts a n).foldr (fun p r => match s.resolveGlobal world space false p.1 p.2 1 need, r with
    | .ok q, .ok ps => .ok (q.parts ++ ps)
    | .error e, _ => .error e.1
    | _, .error e => .error e) (.ok [])

/-- Physical parts of every range of a view; those that do not translate are left out. -/
def State.viewParts (s : State) (world space n v : Nat) : List (Nat × Nat) :=
  ((List.range (vwShards v)).flatMap fun k => shardRanges n v k).flatMap fun r =>
    match s.rangeParts world space r.1 r.2 .none with
    | .ok ps => ps
    | .error _ => []

/-- Controllers of the parts of a range of a view that translates for reading and writing. A registered tracking area
translates: that view storage overlaps it is another refusal (R327). -/
def State.shardHomes (s : State) (world space a n : Nat) : List (Option Nat) :=
  (lineCuts a n).flatMap fun p => match s.translate space p.1 p.2 with
    | none => [none]
    | some t => t.parts.map fun q =>
        if Need.rw.okFor t.rights && (s.inTrack q.1 q.2 || s.allowed world q.1 q.2 .rw false) then s.controllerOf q.1
        else none

/-- The ranges of a shard translate for reading and writing, and lie in the memory of one controller. -/
def State.shardOk (s : State) (world space n v k : Nat) : Bool :=
  let cs := (shardRanges n v k).flatMap fun r => s.shardHomes world space r.1 r.2
  match cs with
  | [] => true
  | c :: _ => c.isSome && cs.all (· == c)

/-- Parts of a registered master's data and tracking area. -/
def Master.parts (m : Master) : List (Nat × Nat) :=
  m.area ++ (msRows m.desc.toNat).flatMap fun r => backSlice m.data r (msD0 m.desc.toNat * msElem m.desc.toNat)

/-- Key of a master: world and number. -/
def masterKey (w n : Nat) : Nat := w * 256 + n

/-- Masters of a world: number and master. -/
def State.mastersOf (s : State) (w : Nat) : List (Nat × Master) :=
  (s.masters.filter fun p => p.1 / 256 == w).map fun p => (p.1 % 256, p.2)

/-- Parts overlap a registered master, tracking area or view of the world. -/
def State.viewClash (s : State) (w : Nat) (ps : List (Nat × Nat)) : Bool :=
  (s.mastersOf w).any fun m => partsMeet ps m.2.parts ||
    m.2.views.any fun v => partsMeet ps (s.viewParts w v.2.space m.2.desc.toNat v.2.desc.toNat)

/-- The controller of a range within one vault or one die's DRAM. -/
def State.masterHome (s : State) (a n : Nat) : Option Nat :=
  match s.homeOf a with
  | .vault _ _ | .dram _ => if s.controllerOf a == s.controllerOf (a + n - 1) then s.controllerOf a else none
  | _ => none

/-- Every part lies in the memory of one vault, or of one die's DRAM (R315). -/
def State.oneHome (s : State) (ps : List (Nat × Nat)) : Bool :=
  match ps with
  | [] => false
  | p :: _ => (s.masterHome p.1 p.2).isSome && ps.all fun q => s.masterHome q.1 q.2 == s.masterHome p.1 p.2

/-! ## Queues of the view engine -/

/-- Adds an entry to the refresh queue of a master's home die. -/
def State.queueRefresh (s : State) (m : Master) (r : List Refresh) : State :=
  s.modDie (s.masterDie m) fun k => { k with refresh := k.refresh ++ r }

/-- Entries for every block of one view. -/
def allBlocks (w num v n : Nat) : List Refresh :=
  (List.range (msBlocks n)).map fun b => { world := w, master := num, block := b, view := some v }

/-- Changes a view. -/
def State.modView (s : State) (w num v : Nat) (f : View → View) : State :=
  { s with masters := KMap.modify s.masters (masterKey w num) fun m => { m with views := KMap.modify m.views v f } }

/-- Tag of a view block; `none` where it does not translate. -/
def State.viewTag (s : State) (w : Nat) (m : Master) (v : View) (b : Nat) : Option Nat :=
  match s.resolveGlobal w v.space false (viewAddrs m.desc.toNat v.desc.toNat b).2.2 8 1 .none with
  | .ok a => some (s.readNat w (partAt a.parts 0) 8)
  | .error _ => none

/-- Generation of a block. -/
def State.genOf (s : State) (w : Nat) (m : Master) (b : Nat) : Nat := s.readNat w (m.areaAt (8 * b)) 8

/-- What a waiting `VWSYNC` has come to (R333). -/
def State.syncEnd (s : State) (v : VSync) : Option (BitVec 64) :=
  match KMap.look s.masters (masterKey v.world v.master) with
  | none => some (errWord 0x55)
  | some m => match KMap.look m.views v.view with
    | none => some (errWord 0x55)
    | some w =>
      if w.serial ≠ v.serial then some (errWord 0x55)
      else if w.faulted then some (errWord 0x56)
      else if v.gens.zipIdx.all fun g => match s.viewTag v.world m w g.2 with
          | some t => decide (g.1.toNat ≤ t)
          | none => false
      then some 0 else none

/-- Fills every `VWSYNC` whose wait has ended. -/
def State.endSyncs (s : State) : State :=
  let done := s.vsyncs.filterMap fun v => (s.syncEnd v).map fun r => (v, r)
  let s := { s with vsyncs := s.vsyncs.filter fun v => (s.syncEnd v).isNone }
  done.foldl (fun (s : State) p => (s.acquired p.1.uid p.1.acq).pushFill p.1.uid (valueFill p.1.dest p.2)) s

/-! ## Registration (R329) -/

/-- Registers a view of a registered master: its tags are zero, its layout tags written, its blocks queued. -/
def State.addView (s : State) (c : Context) (num : Nat) (m : Master) (v : Nat) (k : Nat) : State × BitVec 64 :=
  let old := match KMap.look s.worlds c.world with
    | some w => w.viewSerial
    | none => 0
  let serial := nextSerial old
  let r := s.jobSeed c.lid
  let s := r.2
  let view : View :=
    { serial := serial, desc := BitVec.ofNat 1024 v, space := c.space, region := c.region, seed := r.1, srmode := c.srmode,
      lid := c.lid, lcore := s.lcore c.lid c.die.val c.core.val, faulted := false, cause := 0, flags := 0, fails := 0 }
  let s := { s with worlds := KMap.modify s.worlds c.world fun w => { w with viewSerial := serial }
                    masters := KMap.put s.masters (masterKey c.world num) { m with views := KMap.put m.views k view } }
  let n := m.desc.toNat
  let s := (List.range (msBlocks n)).foldl (fun (s : State) b =>
    match s.resolveGlobal c.world c.space false (viewAddrs n v b).2.2 8 1 .wr with
    | .ok a => s.store c.world (partAt a.parts 0) (leBytes 8 0) (some true)
    | .error _ => s) s
  let s := if vwTag v < 128 then s
    else ((List.range (vwShards v)).flatMap fun q => (vwRows n v).map fun r => (shardAt v q (bits v 63 0) r, vwRow n v)).foldl
      (fun (s : State) p => match s.rangeParts c.world c.space p.1 p.2 .wr with
        | .ok ps => ps.foldl (fun (s : State) q => match s.homeOf q.1 with
            | .local _ _ => { s with mem := { s.mem with tags := KMap.putD s.mem.tags (q.1 / 4096) 0 (BitVec.ofNat 8 (vwTag v)) } }
            | _ => s) s
        | .error _ => s) s
  (s.queueRefresh m (allBlocks c.world num k n),
   BitVec.ofNat 64 (serial.toNat * 2 ^ 40 + num % 256 * 2 ^ 8 + k % 4))

/-- A new master: every generation 1, every dirty bit 0; no L1 keeps a line of its data writable (R315). -/
def State.addMaster (s : State) (w num : Nat) (m : Master) : State :=
  let b := masterBlocks m.desc
  let s := (List.range b).foldl (fun (s : State) i => s.write w (m.areaAt (8 * i)) (leBytes 8 1)) s
  let s := (List.range ((b + 63) / 64)).foldl (fun (s : State) i => s.write w (m.areaAt (8 * b + 8 * i)) (leBytes 8 0)) s
  ({ s with masters := KMap.put s.masters (masterKey w num) m } : State).l1Unwatch

/-- The refusals of `VWREG` in order, or the master it names: as registered, or new under a number. -/
def State.vwregCheck (s : State) (c : Context) (n v : Nat) : Except Nat (Nat × Master × Bool) :=
  if !(msOk n) then .error 0x50
  else match s.translate c.space (msBase n) (msSpan n), s.translate c.space (msTrack n) (trackBytes (BitVec.ofNat 1024 n)) with
    | some p, some q =>
      if !(Need.rw.okFor p.rights && Need.rw.okFor q.rights) then .error 0x10
      else
        let new : Master := { desc := BitVec.ofNat 1024 n, space := c.space, data := p.parts, area := q.parts,
                              nodes := p.nodes ++ q.nodes, views := [] }
        if !(s.oneHome new.parts) then .error 0x50
        else if !(vwOk n v) || !((List.range (vwShards v)).all fun k => s.shardOk c.world c.space n v k) then .error 0x51
        else
          let old := (s.mastersOf c.world).find? fun m => m.2.base == p.phys
          let vp := s.viewParts c.world c.space n v
          match old with
          | some (num, m) =>
            if m.desc != new.desc || s.viewClash c.world vp then .error 0x54
            else if 4 ≤ m.views.length then .error 0x53
            else .ok (num, m, false)
          | none =>
            if s.viewClash c.world (new.parts ++ vp) then .error 0x54
            else match (List.range 256).find? fun i => !(KMap.has s.masters (masterKey c.world i)) with
              | none => .error 0x52
              | some num => .ok (num, new, true)
    | _, _ => .error 0x10

def execVwreg (ctl : Ctl) (xs : Fin 64) (mb mc : MemOp) (s : State) : Out :=
  issue 0xC0 ctl noPriv [memSrc mb, memSrc mc] [.x xs] s fun uid c t =>
    (t.readBlock uid c ctl.loc mb 128).into fun t bs => (t.readBlock uid c ctl.loc mc 128).into fun t vs =>
      match t.vwregCheck c (leNat bs) (leNat vs) with
      | .error e => .done (t.produceWord uid (.x xs) (errWord e))
      | .ok (num, m, new) =>
        let t := if new then t.addMaster c.world num m else t
        let k := ((List.range 4).find? fun i => !(KMap.has m.views i)).getD 0
        let r := t.addView c num m (leNat vs) k
        .done (r.1.produceWord uid (.x xs) r.2)

/-! ## Handles (R320) -/

/-- The live view that a handle names: master number, master, view number, view. -/
def State.viewOf (s : State) (w : Nat) (h : BitVec 64) : Option (Nat × Master × Nat × View) :=
  let n := h.toNat
  if bits n 39 16 ≠ 0 ∨ bits n 7 2 ≠ 0 then none
  else
    let num := bits n 15 8
    match KMap.look s.masters (masterKey w num) with
    | none => none
    | some m => match KMap.look m.views (n % 4) with
      | none => none
      | some v => if v.serial.toNat = bits n 63 40 then some (num, m, n % 4, v) else none

/-- VWDROP (R330). -/
def execVwdrop (ctl : Ctl) (xs : Fin 64) (xh : XSrc) (s : State) : Out :=
  issue 0xC1 ctl noPriv [xSrc xh] [.x xs] s fun uid c t =>
    match t.viewOf c.world (xVal c xh) with
    | none => .done (t.produceWord uid (.x xs) (errWord 0x55))
    | some (num, m, k, _) =>
      let left := KMap.del m.views k
      let key := masterKey c.world num
      let t := t.modDie (t.masterDie m) fun d => { d with refresh := d.refresh.filter fun r =>
        !(r.world == c.world && r.master == num && (r.view == some k || left.isEmpty)) }
      let t := { t with masters := if left.isEmpty then KMap.del t.masters key else KMap.put t.masters key { m with views := left } }
      .done (t.endSyncs.produceWord uid (.x xs) 0)

/-- VWCLR (R335). -/
def execVwclr (ctl : Ctl) (xs : Fin 64) (xh : XSrc) (s : State) : Out :=
  issue 0xC6 ctl noPriv [xSrc xh] [.x xs] s fun uid c t =>
    match t.viewOf c.world (xVal c xh) with
    | none => .done (t.produceWord uid (.x xs) (errWord 0x55))
    | some (num, m, k, v) =>
      if !v.faulted then .done (t.produceWord uid (.x xs) (errWord 0x57))
      else
        let t := t.modView c.world num k fun v => { v with faulted := false, cause := 0, flags := 0 }
        .done ((t.queueRefresh m (allBlocks c.world num k m.desc.toNat)).produceWord uid (.x xs) 0)

/-! ## Reading view blocks (R331 to R334) -/

/-- The registered view block of a world whose tag word lies at a physical address: master number, master, view number,
view, block. -/
def State.blockAtTag (s : State) (w a : Nat) : Option (Nat × Master × Nat × View × Nat) :=
  (s.mastersOf w).findSome? fun m => m.2.views.findSome? fun v =>
    let n := m.2.desc.toNat
    let d := v.2.desc.toNat
    ((List.range (msBlocks n)).find? fun b =>
      match s.resolveGlobal w v.2.space false (viewAddrs n d b).2.2 8 1 .none with
      | .ok q => partAt q.parts 0 == a
      | .error _ => false).map fun b => (m.1, m.2, v.1, v.2, b)

/-- Earlier stores of the context whose home is a master's have been performed. -/
def State.masterQuiet (s : State) (c : Context) (m : Master) : Bool :=
  c.sbuf.all fun e => e.isMarker || e.acc.parts.all fun p =>
    s.controllerOf (s.place c.world p).1 != s.controllerOf m.base

/-- A view block decoded to FP32 lanes (R275, R331). -/
def decodeView (v : Nat) (bs : List Byte) (e : Nat) : List (Nat × Nat) :=
  let t := vwType v
  let w := t.bits
  (List.range 32).map fun j =>
    let a := leNat bs / 2 ^ (w * j) % 2 ^ w
    if vwScaled v then unquantElem t e a else convert t .f32 .rne false 0 a

/-- Reads parts as a plain load of core `c` of die `d` does under its locality hint (R39, R165). -/
def State.readHint (s : State) (d c : Nat) (loc : BitVec 2) (w : Nat) (ps : List (Nat × Nat)) : State × List Byte × Bool :=
  (s.l1Each ps fun s l => s.l1Read d c loc l).readParts w ps

/-- A view block as a reader of core `c` of die `d` finds it under a hint: state, data, scale, tag, poison; a cause where it
does not translate. -/
def State.readView (s : State) (d c : Nat) (loc : BitVec 2) (w : Nat) (m : Master) (v : View) (b : Nat) :
    Except Nat (State × List Byte × Nat × Nat × Bool) :=
  let n := m.desc.toNat
  let vd := v.desc.toNat
  let a := viewAddrs n vd b
  let sc := if vwScaled vd then s.rangeParts w v.space a.2.1 1 .none else .ok []
  match s.rangeParts w v.space a.1 (vwBlock vd) .none, sc, s.rangeParts w v.space a.2.2 8 .none with
  | .ok p, .ok q, .ok r =>
    let x := s.readHint d c loc w p
    let y := x.1.readHint d c loc w q
    let z := y.1.readHint d c loc w r
    .ok (z.1, x.2.1, leNat y.2.1, leNat z.2.1, x.2.2 || y.2.2 || z.2.2)
  | .error e, _, _ | _, .error e, _ | _, _, .error e => .error e

/-- Destinations of `VWLD`. -/
def vwldDests (pol : VwPolicy) (d : Fin 32) : List AnyReg :=
  .v d :: (match pol with
    | .staleok p => [.p p]
    | _ => [])

/-- Whether the view that a waiting `VWLD` reads has been dropped, or has faulted, since it began to wait (R330, R331). -/
def Context.viewLost (c : Context) (v : View) : Bool :=
  match c.vwGen with
  | some h => h.serial != v.serial || h.fails != v.fails
  | none => false

/-- The generation that a `VWLD` compares with: `g`, or the one it has been waiting with. -/
def Context.viewGen (c : Context) (g : Nat) : BitVec 64 := (c.vwGen.map (·.gen)).getD (BitVec.ofNat 64 g)

/-- `VWLD` waits, remembering the generation that it compares with and the view as it stands. -/
def holdVwld (s : State) (uid : Nat) (g : BitVec 64) (v : View) : Res :=
  .hold (s.modCtx uid fun c => { c with vwGen := some { gen := g, serial := v.serial, fails := v.fails } })

/-- The hint under which `VWLD` reads: its own, but `.wait` reads at the home (R332). -/
def vwldHint (pol : VwPolicy) (loc : BitVec 2) : BitVec 2 := if pol == .wait then 2 else loc

/-- The read of `VWLD` on a block of a view (R331). -/
def State.vwld (s : State) (uid : Nat) (c : Context) (pol : VwPolicy) (loc : BitVec 2) (d : Fin 32) (va : Nat) (m : Master)
    (v : View) (b : Nat) : Res :=
  let g := c.viewGen (s.genOf c.world m b)
  match s.readView c.die.val c.core.val (vwldHint pol loc) c.world m v b with
  | .error _ => .trap causeViewFault va
  | .ok (t, bs, e, tag, pois) =>
    let stale := decide (tag < g.toNat)
    if stale && pol == .wait then holdVwld s uid g v
    else if stale && pol == .trap then .trap causeViewStale va
    else if pois then .trap causePoison va
    else
      let rs := decodeView v.desc.toNat bs e
      .done (t.modCtx uid fun c =>
        let c := (c.setV d (ofLanes 32 (rs.map (·.1)))).addFlags (flagBits (flagsOf rs)) none
        let c := match pol with
          | .staleok p => c.setP p stale
          | _ => c
        { c with vwGen := none })

def execVwld (ctl : Ctl) (pol : VwPolicy) (d : Fin 32) (m : MemOp) (s : State) : Out :=
  issue 0xC2 ctl noPriv [memSrc m] (vwldDests pol d) s fun uid c t =>
    orTrap (t.resolve c m.mode (formAddr c m 8) 8 .rd false .data) fun acc =>
      match if acc.win = 0 then t.blockAtTag c.world (partAt acc.parts 0) else none with
      | none => .trap causeViewFault acc.va
      | some (_, mm, _, v, b) =>
        if c.loadsHeld || !(t.masterQuiet c mm) then .wait
        else t.throughMove uid c acc fun t =>
          if v.faulted || c.viewLost v then .trap causeViewFault acc.va
          else t.vwld uid c pol ctl.loc d acc.va mm v b

/-- VWSYNC (R333). -/
def execVwsync (ctl : Ctl) (xs : Fin 64) (xh : XSrc) (s : State) : Out :=
  issue 0xC3 ctl noPriv [xSrc xh] [.x xs] s fun uid c t =>
    match t.viewOf c.world (xVal c xh) with
    | none => .done (t.produceWord uid (.x xs) (errWord 0x55))
    | some (num, m, k, w) =>
      if c.loadsHeld || !(t.masterQuiet c m) then .wait
      else
        let q := t.newAcq uid
        let t := q.2.pendReg uid (.x xs)
        let v : VSync := { uid := uid, dest := .x xs, acq := q.1, world := c.world, master := num, view := k, serial := w.serial,
                           gens := (List.range (msBlocks m.desc.toNat)).map fun b => BitVec.ofNat 64 (t.genOf c.world m b) }
        .done ({ t with vsyncs := t.vsyncs ++ [v] }).endSyncs

/-- View blocks of a view that are queued for refresh. -/
def State.viewPend (s : State) (w num k : Nat) (m : Master) : Nat :=
  ((s.die (s.masterDie m)).refresh.filter fun r => r.world == w && r.master == num && (r.view.isNone || r.view == some k)).length

/-- The status word of a view (R334). -/
def State.viewStatus (s : State) (w num k : Nat) (m : Master) (v : View) : BitVec 64 :=
  BitVec.ofNat 64 (bit v.faulted + v.flags.toNat % 512 * 16 + v.cause.toNat * 2 ^ 16
    + min (s.viewPend w num k m) (2 ^ 32 - 1) * 2 ^ 32)

/-- VWGEN (R334). -/
def execVwgen (ctl : Ctl) (d : Fin 64) (m : MemOp) (sel : VwSel) (s : State) : Out :=
  issue 0xC4 ctl noPriv [memSrc m] [.x d] s fun uid c t =>
    orTrap (t.resolve c m.mode (formAddr c m 8) 8 .rd false .data) fun acc =>
      match if acc.win = 0 then t.blockAtTag c.world (partAt acc.parts 0) else none with
      | none => .trap causeViewFault acc.va
      | some (num, mm, k, v, b) =>
        if c.loadsHeld then .wait
        else t.throughMove uid c acc fun t => match sel with
          | .tag => .done (t.produceWord uid (.x d) (BitVec.ofNat 64 ((t.viewTag c.world mm v b).getD 0)))
          | .gen => .done (t.produceWord uid (.x d) (BitVec.ofNat 64 (t.genOf c.world mm b)))
          | .status => .done (t.produceWord uid (.x d) (t.viewStatus c.world num k mm v))

/-! ## Refresh (R322 to R326) -/

/-- A view faults with a cause, and the `VWSYNC`s on it end (R326). -/
def State.failView (s : State) (w num k cause : Nat) : State :=
  (s.modView w num k fun v => v.fail cause).endSyncs

/-- Address of a block of a master. -/
def blockAddr (m : Master) (b : Nat) : Nat :=
  let n := m.desc.toNat
  let q := b % (msD0 n / 32)
  let i1 := b / (msD0 n / 32) % msD1 n
  let hi := b / (msD0 n / 32) / msD1 n
  m.dataAt (hi / msD2 n * msStep n 3 + hi % msD2 n * msStep n 2 + i1 * msStep n 1 + q * 32 * msElem n)

/-- A refresh of a view from a master of type `mt` steps a generator: a type pair that can never be inexact takes no step
(R243, R248). -/
def View.steps (v : View) (mt : ElemType) : Bool :=
  winRnd (vwRnd v.desc.toNat) == .sr && (vwScaled v.desc.toNat || !(neverInexact mt (vwType v.desc.toNat)))

/-- The generator of a refresh of a master of type `mt` by the engine of die `d`: stepped state (R325). -/
def State.viewGroup (s : State) (d : Nat) (mt : ElemType) (v : View) (b k : Nat) (g : Nat) : BitVec 64 × State :=
  if !(v.steps mt) then (0, s)
  else if v.srmode then s.compatStep v.lid v.lcore (s.cyc d) .view
  else (stippleStep (stippleSeed v.seed (BitVec.ofNat 64 b ^^^ BitVec.ofNat 64 (k * 2 ^ 62)) (BitVec.ofNat 64 g)), s)

/-- The block of a view made from a snapshot: elements, scale, flags; `none` when a scaled view meets a NaN or an
infinity (R323). -/
def makeView (mt : ElemType) (v : Nat) (g : BitVec 64) (xs : List Nat) : Option (List Nat × Nat × Nat) :=
  let t := vwType v
  let m := winRnd (vwRnd v)
  if vwScaled v then
    let vs := xs.map (unpack mt)
    let sc := blockScale t vs
    if sc.1 = 255 then none
    else
      let rs := quantBlock t m sc.1 g vs
      some (rs.map (·.1), sc.1, flagsOf rs)
  else
    let rs := xs.zipIdx.map fun p => convert mt t m (vwSat v) (stippleLane g p.2) p.1
    some (rs.map (·.1), 0, flagsOf rs)

/-- Packs elements of a block. -/
def packElems (w : Nat) (es : List Nat) : List Byte := leBytes (4 * w) (es.foldr (fun e n => n * 2 ^ w + e % 2 ^ w) 0)

/-- Writes parts at their home, words set full; accesses that wait on them are not yet served. -/
def State.publishParts (s : State) (w : Nat) : List (Nat × Nat) → List Byte → State
  | [], _ => s
  | p :: ps, bs =>
    ((s.l1Each [p] fun s l => s.l1Home none l true).storeAt w p.1 (bs.take p.2) (some true)).publishParts w ps
      (bs.drop p.2)

/-- Serves the accesses that wait on parts. -/
def State.serveParts (s : State) (ps : List (Nat × Nat)) : State := ps.foldl (fun (s : State) p => s.serve p.1 p.2) s

/-- Publishes a view block from a snapshot: data, scale and tag in one step at the block's home (R182, R323). A block whose
refresh faults takes no step of the generator. -/
def State.publishView (s : State) (w num k b g : Nat) (m : Master) (v : View) (xs : List Nat) : State :=
  let n := m.desc.toNat
  let d := v.desc.toNat
  let a := viewAddrs n d b
  let r := s.viewGroup (s.masterDie m) (msType n) v b k g
  let sc := if vwScaled d then r.2.rangeParts w v.space a.2.1 1 .rw else .ok []
  match makeView (msType n) d r.1 xs with
  | none => s.failView w num k causeArith
  | some (es, e, fl) =>
    let s := r.2.modView w num k fun v => { v with flags := v.flags ||| flagBits fl }
    match s.rangeParts w v.space a.1 (vwBlock d) .rw, sc, s.rangeParts w v.space a.2.2 8 .rw with
    | .ok p, .ok q, .ok t =>
      if s.anyPoison (p ++ q ++ t) then s.failView w num k causePoison
      else if (match s.viewTag w m v b with
          | some old => decide (old < g)
          | none => false) then
        let s := s.publishParts w (p ++ q ++ t)
          (packElems (vwType d).bits es ++ (if vwScaled d then [BitVec.ofNat 8 e] else []) ++ leBytes 8 g)
        ((s.serveParts (p ++ q ++ t)).charge v.region (coreKey (s.masterDie m) 0) 0 (vwBlock d + q.length + 8)).endSyncs
      else s
    | .error x, _, _ | _, .error x, _ | _, _, .error x => s.failView w num k x

/-- Serves one entry of the refresh queue: the snapshot, and the views made from it (R322). -/
def State.serveRefresh (s : State) (r : Refresh) (bad : Bool) : State :=
  match KMap.look s.masters (masterKey r.world r.master) with
  | none => s
  | some m =>
    let n := m.desc.toNat
    let g := s.genOf r.world m r.block
    let z := msElem n
    let x := s.readSeg r.world (blockAddr m r.block) (32 * z)
    let xs := (List.range 32).map fun j => leNat ((x.2.1.drop (z * j)).take z)
    let da := m.areaAt (8 * msBlocks n + r.block / 8)
    let s := x.1.write r.world da [x.1.readByte r.world da &&& ~~~(BitVec.ofNat 8 (2 ^ (r.block % 8)))]
    let pois := x.2.2 || bad
    m.views.foldl (fun (s : State) v =>
      if (r.view.isSome && r.view != some v.1) || v.2.faulted then s
      else if pois then s.failView r.world r.master v.1 causePoison
      else s.publishView r.world r.master v.1 r.block g m v.2 xs) s

/-- A view of the entry's master must let other converters of its core go first: the entry is served in the next cycle
(R245). -/
def State.refreshHeld (s : State) (d : Nat) (r : Refresh) : Bool :=
  match KMap.look s.masters (masterKey r.world r.master) with
  | none => false
  | some m => m.views.any fun v => v.2.srmode && v.2.steps (msType m.desc.toNat) &&
      s.convHeld v.2.lid v.2.lcore (s.cyc d) .view

/-- The quantisation command at the head of a die's queue waits for acknowledgements of other packages. -/
def State.quantWaits (s : State) (d : Nat) : Bool :=
  match (s.die d).quant with
  | [] => false
  | q :: _ => q.sent.any fun h => KMap.has (s.die d).ni.outst h

/-- The view engine of a die serves its refresh queue, if it may; with `bad` the master's data arrives as poison. -/
def State.viewStep (s : State) (d : Nat) (bad : Bool) : State :=
  match (s.die d).refresh with
  | [] => s
  | r :: rest =>
    if (s.die d).quantTurn && !(s.die d).quant.isEmpty && !(s.quantWaits d) || s.refreshHeld d r then s
    else (s.modDie d fun k => { k with refresh := rest, quantTurn := true }).serveRefresh r bad

/-- VIEW_REFRESH (R322): the refresh queue and the quantisation queue are served alternately (R336). -/
def execViewRefresh (d : DieNo) (s : State) : Out := .next (s.viewStep d.val false)

/-! ## Quantisation (R336) -/

def qtSfmt (n : Nat) : ElemType := (ElemType.ofCode (bits n 295 292)).getD .i64
def qtDfmt (n : Nat) : ElemType := (ElemType.ofCode (bits n 291 288)).getD .i64

/-- A descriptor passes R336. -/
def qtOk (n : Nat) : Bool :=
  let f := bits n 295 292
  let g := bits n 291 288
  (f == 6 || f == 7 || f == 8) && (g == 3 || g == 9 || g == 10 || g == 11) && decide (bits n 287 285 ≤ 4)
    && n % 2 ^ 285 == 0 && bits n 511 448 % (4 * (qtSfmt n).bits) == 0 && bits n 447 384 % (4 * (qtDfmt n).bits) == 0

/-- Scope of the source of a `QUANT` (R180). -/
def State.quantScope (s : State) (c : Context) (n : Nat) : Scope :=
  (lineCuts (bits n 511 448) (bits n 319 296 * (4 * (qtSfmt n).bits))).foldl (fun (w : Scope) p =>
    match s.translate c.space p.1 p.2 with
    | some t => t.parts.foldl (fun (w : Scope) q => widerScope w (s.addrScope c q.1)) w
    | none => w) .core

def execQuant (ctl : Ctl) (xs : Fin 64) (m : MemOp) (s : State) : Out :=
  issue 0xC5 ctl noPriv [memSrc m] [.x xs] s fun uid c t =>
    (t.readBlock uid c ctl.loc m 64).into fun t bs =>
      let n := leNat bs
      if 64 ≤ (t.die c.die.val).quant.length then .done (t.produceWord uid (.x xs) (errWord 0x58))
      else if !(qtOk n) then .done (t.produceWord uid (.x xs) (errWord 0x59))
      else if !(t.released uid c (t.quantScope c n)) then .wait
      else
        let q : Quant := { uid := uid, dest := .x xs, world := c.world, space := c.space, region := c.region, lid := c.lid,
                           item := c.item, pc := c.pc, srmode := c.srmode, rlim := c.rlim.toNat, order := c.serial, desc := BitVec.ofNat 512 n, next := 0,
                           flags := 0, nan := none, fail := none, sent := [] }
        .done ((t.pendReg uid (.x xs)).modDie c.die.val fun k => { k with quant := k.quant ++ [q] })

/-- Generator of block `i` of a `QUANT`. -/
def State.quantGroup (s : State) (q : Quant) (i : Nat) : BitVec 64 × State :=
  let n := q.desc.toNat
  if winRnd (bits n 287 285) != .sr then (0, s)
  else if q.srmode then
    match s.ctx? q.uid with
    | some c => s.compatStep q.lid (s.lcore q.lid c.die.val c.core.val) (s.cyc c.die.val) .view
    | none => s.draw
  else
    let r := s.jobSeed q.lid
    let seed := stippleSeed r.1 q.item
      (BitVec.ofNat 64 (linPc q.pc) ^^^ BitVec.ofNat 64 (bits n 511 448) ^^^ BitVec.ofNat 64 (bits n 447 384))
    ((List.range (i + 1)).foldl (fun g _ => stippleStep g) seed, r.2)

/-- The command must let other converters of its core go first (R245). -/
def State.quantHeld (s : State) (q : Quant) : Bool :=
  q.srmode && winRnd (bits q.desc.toNat 287 285) == .sr && (match s.ctx? q.uid with
    | some c => s.convHeld q.lid (s.lcore q.lid c.die.val c.core.val) (s.cyc c.die.val) .view
    | none => false)

/-- Why the view engine cannot write some parts; words are set full. -/
def State.quantBars (s : State) (q : Quant) (ps : List (Nat × Nat)) : Option Nat :=
  (s.writeBars q.world (some true) ps).map copyCode

/-- One block of a `QUANT` by the engine of die `d`: the command after it. -/
def State.quantOne (s : State) (d : Nat) (q : Quant) (bad : Bool) : State × Quant :=
  let n := q.desc.toNat
  let i := q.next
  let sb := 4 * (qtSfmt n).bits
  let db := 4 * (qtDfmt n).bits
  let get := fun (a k : Nat) (need : Need) => s.rangeParts q.world q.space (a % 2 ^ 64) k need
  match get (bits n 511 448 + i * sb) sb .rd, get (bits n 447 384 + i * db) db .wr, get (bits n 383 320 + i) 1 .wr with
  | .ok ps, .ok qs, .ok rs =>
    match s.quantBars q (qs ++ rs) with
    | some code => (s, { q with fail := some (code, i) })
    | none =>
      let x := s.readAnys q.world ps
      if x.2.2 || bad then (x.1.poisonOver d q.rlim q.world qs (some true), { q with fail := some (0x22, i) })
      else
        let g := x.1.quantGroup q i
        let es := (List.range 32).map fun j => unpack (qtSfmt n) (leNat ((x.2.1.drop (sb / 32 * j)).take (sb / 32)))
        let sc := blockScale (qtDfmt n) es
        let os := quantBlock (qtDfmt n) (winRnd (bits n 287 285)) sc.1 g.1 es
        let first := (s.die d).ni.nextOut
        let t := g.2.writeAnysBy .quant d q.rlim q.world (some true) (qs ++ rs)
          (packElems (qtDfmt n).bits (os.map (·.1)) ++ [BitVec.ofNat 8 sc.1])
        let fl := flagsOf os ||| sc.2
        let nan := if fl / flNanMade % 2 = 1 then
            some ({ pos := BitVec.ofNat 64 ((32 * i + firstInf es) % 2 ^ 16 * 2 ^ 16),
                    fmt := nanFmt (qtDfmt n) (qtSfmt n) (qtSfmt n) } : NanCap) else none
        (t.charge q.region (coreKey d 0) 0 (db + 1),
         { q with next := i + 1, flags := q.flags ||| flagBits fl, nan := q.nan.orElse fun _ => nan,
                  sent := (List.range ((t.die d).ni.nextOut - first)).map (first + ·) })
  | .error e, _, _ | _, .error e, _ | _, _, .error e => (s, { q with fail := some (copyCode e, i) })

/-- A `QUANT` is over: every block is written, or one has failed. -/
def Quant.over (q : Quant) : Bool := q.fail.isSome || decide (bits q.desc.toNat 319 296 ≤ q.next)

/-- A write to another package has failed: the command ends at its block (R306, R336). -/
def State.quantFail (s : State) (d h code : Nat) : State :=
  s.modDie d fun k => { k with quant := match k.quant with
    | q :: rest => (if q.sent.contains h then { q with fail := some (code, q.next - 1) } else q) :: rest
    | [] => [] }

/-- QUANT_SERVICE (R336): the command at the head of the queue quantises a block; once it is over and its writes are
complete its status fills (R181). With `bad` the source of the block arrives as poison. -/
def State.quantStep (s : State) (d : Nat) (bad : Bool) : State :=
  match (s.die d).quant with
  | [] => s
  | q :: rest =>
    if !(s.die d).quantTurn && !(s.die d).refresh.isEmpty || s.quantWaits d || s.quantHeld q then s
    else if q.over then
      let v := match q.fail with
        | some (code, i) => copyFailed (BitVec.ofNat 8 code) i
        | none => 0
      (s.modDie d fun k => { k with quant := rest, quantTurn := false }).pushFill q.uid
        { valueFill q.dest v with flags := q.flags, nan := q.nan.map fun x => x.by q.order }
    else
      let z := s.quantOne d q bad
      z.1.modDie d fun k => { k with quant := z.2 :: rest, quantTurn := false }

def execQuantService (d : DieNo) (s : State) : Out := .next (s.quantStep d.val false)

end Sys2Proof.Machine
end

