-- ==== Sys2Proof/Machine/Bulk.lean ====
section
/-! DEFINITION. Bulk transfer and pull tokens, opcodes 0xE0 to 0xE3, and the events of the grant scheduler (R353 to
R363). Between NIs of one package a message arrives at once. -/

namespace Sys2Proof.Machine

/-! ## Descriptors (R354, R355) -/

def bsSrc (n : Nat) : Nat := bits n 511 448
def blLen (n : Nat) : Nat := bits n 447 416
def bsPre (n : Nat) : Nat := bits n 415 400
def blTag (n : Nat) : Nat := bits n 383 320
def bpLand (n : Nat) : Bool := bits n 415 415 == 1
def bpChan (n : Nat) : Nat := bits n 414 409
def bpAny (n : Nat) : Bool := bits n 305 305 == 1

/-- A length is a multiple of 8 and at least 8. -/
def badLen (n : Nat) : Bool := blLen n % 8 != 0 || blLen n == 0

/-- A send descriptor breaks R354. -/
def badSend (n : Nat) : Bool :=
  badLen n || bsPre n % 8 != 0 || decide (8192 < bsPre n) || decide (blLen n < bsPre n) || bits n 399 384 != 0
    || bits n 302 0 != 0

/-- A post descriptor breaks R355. -/
def badPost (n : Nat) : Bool := badLen n || bits n 408 384 != 0 || bits n 304 0 != 0

/-! ## Posts and sends -/

def State.post? (s : State) (d id : Nat) : Option Post := KMap.look (s.die d).ni.posts id
def State.send? (s : State) (d id : Nat) : Option Send := KMap.look (s.die d).ni.sends id

/-- Changes a post. -/
def State.modPost (s : State) (d id : Nat) (f : Post → Post) : State :=
  s.modNi d fun n => { n with posts := KMap.modify n.posts id f }

/-- Changes what a post is matched with. -/
def State.modMatch (s : State) (d id : Nat) (f : Match → Match) : State :=
  s.modPost d id fun p => { p with hit := p.hit.map f }

/-- Changes a send. -/
def State.modSend (s : State) (d id : Nat) (f : Send → Send) : State :=
  s.modNi d fun n => { n with sends := KMap.modify n.sends id f }

/-- Bytes that a matched post takes: the message, or its buffer's length (R356). -/
def takes (p : Post) (h : Match) : Nat := min h.msgLen (blLen p.desc.toNat)

/-- The region is pre-empted on every cluster of a die that it holds (R358). -/
def State.outOn (s : State) (d r : Nat) : Bool :=
  let held := (List.range 16).filter fun cl => s.regionHolds r (clKey d cl)
  !held.isEmpty && held.all fun cl => match s.preOf d cl r with
    | some p => p.stage == .out
    | none => false

/-- The end of a send whose last byte has been acknowledged (R356, R359). -/
def State.sendAcked (s : State) (d id got : Nat) : State :=
  match s.send? d id with
  | none => s
  | some p =>
    let s := s.modSend d id fun q => { q with sent := got }
    if got < blLen p.desc.toNat then s.endSend d id (errWord 0x66) false
    else s.endSend d id (BitVec.ofNat 64 got) true

/-- What the receiver answers to a send: the last byte written, refused, or turned back for lack of room. A send that is
turned back fe.rlim + 1 times fills no_receiver (R356). -/
def State.sendAnswer (s : State) (d id : Nat) (a : FabAck) : State :=
  match s.send? d id with
  | none => s
  | some p => match a with
    | .performed v => s.sendAcked d id v.toNat
    | .refused => s.endSend d id (errWord 0x61) false
    | .poisoned | .dead | .admitted => s
    | .retry =>
      let k := p.turned + 1
      if p.cancel.isSome then s.endSend d id (errWord 0x65) false
      else if p.rlim < k then s.endSend d id (errWord 0x63) false
      else s.modSend d id fun q => { q with turned := k, retryAt := some (s.cyc d + 64 * 2 ^ min k 6) }

/-- Answers a send. -/
def State.answerSend (s : State) (pkg : BitVec 14) (die : DieNo) (id : Nat) (a : FabAck) : State :=
  if pkg = s.pkg then s.sendAnswer die.val (id / 8) a else s.emit (.ack pkg die id a)

/-! ## Writing into a posted buffer (R357, R359) -/

/-- Bytes in order, after ranges written beyond them. -/
def inOrder (done : List (Nat × Nat)) : Nat → Nat → Nat
  | 0, b => b
  | n + 1, b => match done.find? fun r => decide (r.1 ≤ b) && decide (b < r.1 + r.2) with
    | some r => inOrder done n (r.1 + r.2)
    | none => b

/-- A write into a posted buffer at another package has not been acknowledged. -/
def State.postWrites (s : State) (d id : Nat) : Bool := (s.die d).ni.outst.any fun o => o.2.todo == .post id

/-- A post whose every byte is written, with its writes complete, fills, and its sender hears of it (R359). -/
def State.finishPost (s : State) (d id : Nat) : State :=
  match s.post? d id with
  | none => s
  | some p => match p.hit with
    | none => s
    | some h =>
      if h.bytes < takes p h || h.landing != 0 || s.postWrites d id then s
      else
        let whole := h.msgLen ≤ blLen p.desc.toNat
        let v := if whole then BitVec.ofNat 64 (h.pkg.toNat * 2 ^ 49 + h.die.val * 2 ^ 46 + h.bytes) else errWord 0x66
        (s.endPost d id v whole false).answerSend h.pkg h.die h.sendId (.performed (BitVec.ofNat 1024 h.bytes))

/-- A range of a message is written: it counts for its token, whose slot is freed with its last byte, and for its
post. -/
def State.wrote (s : State) (d id : Nat) (seq : BitVec 32) (off len : Nat) : State :=
  let s := s.modNi d fun n =>
    { n with tokens := (n.tokens.map fun t => if t.seq = seq then { t with got := t.got + len } else t).filter fun t =>
        !(t.seq == seq && decide (t.len ≤ t.got)) }
  let s := s.modMatch d id fun h =>
    let done := (off, len) :: h.done
    let b := inOrder done done.length h.bytes
    { h with bytes := b, done := done.filter fun r => decide (b < r.1 + r.2) }
  s.finishPost d id

/-- Offers a packet of a landing post to slot 6 of the core whose local memory holds its destination, else of the core
that issued `BPOST` (R359). -/
def State.offerBulk (s : State) (d id : Nat) (p : Post) (seq : BitVec 32) (off : Nat) (bs : List Byte) : State :=
  let dest := bsSrc p.desc.toNat + off
  let at_ := match s.translate p.space dest 1 with
    | some t => s.landingCore p.world d p.core.val [(t.phys, 1)]
    | none => (d, p.core.val)
  let ch := bpChan p.desc.toNat
  match s.tableFor at_.1 at_.2 p.lid p.world with
  | none => s.endPost d id (errWord 0x43) false true
  | some t =>
    let e := t.entry ch
    if e.permitted && e.landing then
      (s.modMatch d id fun h => { h with landing := h.landing + 1 }).modCore at_.1 at_.2 fun x =>
        { x with landq := x.landq ++ [(t.lid, .bulk d id seq off dest bs.length bs, ch, p.item)] }
    else s.endPost d id (errWord 0x43) false true

/-- Stores bytes at an address of a post's space, which is the receiver's (R353): each word is set full with its data (R359); the receiver is charged. -/
def State.bulkStore (s : State) (d id : Nat) (p : Post) (a : Nat) (bs : List Byte) : Except Nat State :=
  match s.rangeParts p.world p.space a bs.length .wr with
  | .error e => .error (copyCode e)
  | .ok ds => match s.writeBars p.world (some true) ds with
    | some e => .error (copyCode e)
    | none => .ok ((s.writeAnysBy (.post id) d p.rlim p.world (some true) ds bs).charge p.region (coreKey d 0) 0 bs.length)

/-- Cuts bytes into packets of 256 (R88). -/
def packets : Nat → Nat → List Byte → List (Nat × List Byte)
  | 0, _, _ => []
  | n + 1, off, bs => if bs.isEmpty then [] else (off, bs.take 256) :: packets n (off + 256) (bs.drop 256)

/-- Bytes of a message reach the post that they are for. -/
def State.bulkIn (s : State) (d id : Nat) (seq : BitVec 32) (off : Nat) (bs : List Byte) : State :=
  match s.post? d id with
  | none => s
  | some p =>
    if bs.isEmpty then s
    else if bpLand p.desc.toNat then
      (packets bs.length off bs).foldl (fun (s : State) q => match s.post? d id with
        | some p => s.offerBulk d id p seq q.1 q.2
        | none => s) s
    else match s.bulkStore d id p (bsSrc p.desc.toNat + off) bs with
      | .ok t => t.wrote d id seq off bs.length
      | .error code => s.endPost d id (errWord code) false true

/-- Data flits under a token (R357): those of a token that is no longer live, or whose first flit is late, are
discarded. -/
def State.bulkArrive (s : State) (d : Nat) (f : BulkFlit) : State :=
  match (s.die d).ni.tokens.find? fun t => t.seq == f.seq with
  | none => s
  | some t =>
    let late := !t.came && decide (t.issued + 4096 < s.cyc d)
    let inside := decide (t.off ≤ f.off) && decide (f.off + f.data.length ≤ t.off + t.len)
    if late || !inside then s
    else (s.modNi d fun n => { n with tokens := n.tokens.map fun x => if x.seq = f.seq then { x with came := true } else x }).bulkIn
      d t.post f.seq f.off f.data

/-- The packet of a landing handler is stored at `DONE` (R88, R307, R359): the first x2 bytes of v0 and v1 at the address
in x1. A packet whose token has been revoked is discarded. -/
def State.landBulk (s : State) (x : Context) (d id : Nat) (seq : BitVec 32) (off len : Nat) : State :=
  match s.post? d id with
  | none => s
  | some p =>
    let s := s.modMatch d id fun h => { h with landing := h.landing - 1 }
    let z := (x.getX 2).toNat
    if seq != 0 && !((s.die d).ni.tokens.any fun t => t.seq == seq) then s
    else if 256 < z then s.endPost d id (errWord 0x45) false true
    else
      let bs := (leBytes 128 (x.getV 0).toNat ++ leBytes 128 (x.getV 1).toNat).take z
      match s.bulkStore d id p (x.getX 1).toNat bs with
      | .ok t => t.wrote d id seq off len
      | .error code => s.endPost d id (errWord code) false true

/-! ## Requests to send (R356) -/

/-- The post accepts the request. -/
def Post.accepts (p : Post) (r : Rts) : Bool :=
  p.hit.isNone && p.world == r.world.toNat && blTag p.desc.toNat == r.tag.toNat
    && (bpAny p.desc.toNat || blPkg p.desc.toNat == r.srcPkg.toNat)

/-- The oldest post that accepts a request. -/
def Ni.postFor (n : Ni) (r : Rts) : Option (Nat × Post) :=
  n.posts.foldl (fun best p =>
    if p.2.accepts r then
      match best with
      | some b => if p.2.order < b.2.order then some p else best
      | none => some p
    else best) none

/-- Matches a post with a request: its prefix is written into the buffer. -/
def State.matchPost (s : State) (d id : Nat) (p : Post) (r : Rts) : State :=
  let n := min r.data.length (min r.len (blLen p.desc.toNat))
  let h : Match :=
    { pkg := r.srcPkg, die := r.srcDie, sendId := r.sendId, msgLen := r.len, next := n, again := [], bytes := 0, done := [],
      lapses := 0, paused := s.outOn d p.region, line := none, landing := 0 }
  (s.modPost d id fun p => { p with hit := some h }).bulkIn d id 0 0 (r.data.take n)

/-- A request to send reaches the receiving NI: matched, left waiting without its prefix, or turned back. -/
def State.rtsIn (s : State) (d : Nat) (r : Rts) : State :=
  if r.srcPkg != s.pkg && (s.job == 0 || r.job.toNat != s.job) then s.answerSend r.srcPkg r.srcDie r.sendId .refused
  else match (s.die d).ni.postFor r with
    | some (id, p) => s.matchPost d id p r
    | none =>
      if (s.die d).ni.rts.length < 256 then s.modNi d fun n => { n with rts := n.rts ++ [{ r with data := [] }] }
      else s.answerSend r.srcPkg r.srcDie r.sendId .retry

/-- Reads bytes of a message from the sender's memory, in the sender's space (R353); an error is the code of R360. -/
def State.bulkRead (s : State) (d : Nat) (p : Send) (off len : Nat) : Except Nat (State × List Byte) :=
  match s.rangeParts p.world p.space (bsSrc p.desc.toNat + off) len .rd with
  | .error e => .error (copyCode e)
  | .ok ps =>
    let r := s.readAnys p.world ps
    if r.2.2 then .error 0x22 else .ok (r.1.charge p.region (coreKey d 0) 0 len, r.2.1)

/-- Sends the request and the prefix of a send. -/
def State.sendRts (s : State) (d id : Nat) : State :=
  match s.send? d id with
  | none => s
  | some p =>
    let n := p.desc.toNat
    let away := blPkg n != s.pkg.toNat
    if away && (s.livePath 0 (blPkg n)).isNone then s.endSend d id (errWord 0x62) false
    else match s.bulkRead d p 0 (bsPre n) with
      | .error code => s.endSend d id (errWord code) false
      | .ok (t, bs) =>
        let t := t.modSend d id fun q => { q with sent := max q.sent (bsPre n), retryAt := none }
        let r : Rts :=
          { srcPkg := t.pkg, srcDie := dieOf d, sendId := 8 * id + d, world := BitVec.ofNat 16 p.world,
            job := BitVec.ofNat 16 t.job, tag := BitVec.ofNat 64 (blTag n), len := blLen n, data := bs }
        if away then t.emit (.rts (blPkg n) (bsDie n) r) else t.rtsIn (bsDie n) r

/-- RTS_ARRIVAL (R356): a request from another package; those of this one have been taken in when they were sent. -/
def execRtsArrival (d : DieNo) (r : Rts) (s : State) : Out :=
  if r.srcPkg = s.pkg || s.boot.phase ≠ 1 then .next s else .next (s.rtsIn d.val r)

/-! ## Tokens (R357) -/

/-- Data flits of 256 bytes. -/
def State.sendFlits (s : State) (pkg die : Nat) (seq : BitVec 32) (l : List (Nat × List Byte)) : State :=
  l.foldl (fun (s : State) q =>
    let f : BulkFlit := { seq := seq, off := q.1, data := q.2 }
    if pkg = s.pkg.toNat then s.bulkArrive die f else s.emit (.bulk pkg die f)) s

/-- The sending NI, that of the sender's die, serves a token from memory without a core: whatever has become of the sending
context (R353). One whose send is being cancelled it answers with the cancel. -/
def State.serveToken (s : State) (d : Nat) (t : TokenMsg) : State :=
  match s.send? d (t.sendId / 8) with
  | none => s
  | some p =>
    if p.cancel.isSome && blPkg p.desc.toNat != s.pkg.toNat then
      s.emit (.cancel (blPkg p.desc.toNat) (bsDie p.desc.toNat) (.post (sendName s.pkg.toNat d t.sendId)))
    else if p.cancel.isSome || blLen p.desc.toNat < t.off + t.len then s
    else match s.bulkRead d p t.off t.len with
      | .error code => s.endSend d (t.sendId / 8) (errWord code) false
      | .ok (s, bs) =>
        let s := s.modSend d (t.sendId / 8) fun q => { q with sent := max q.sent (t.off + t.len), begun := true }
        s.sendFlits (blPkg p.desc.toNat) (bsDie p.desc.toNat) t.seq (packets t.len t.off bs)

/-- TOKEN_ARRIVAL (R357). -/
def execTokenArrival (d : DieNo) (t : TokenMsg) (s : State) : Out := .next (s.serveToken d.val t)

/-- Tokens outstanding for a post. -/
def Ni.tokensOf (n : Ni) (id : Nat) : Nat := (n.tokens.filter fun t => t.post == id).length

/-- A post may be granted a token. -/
def State.grantable (s : State) (d id : Nat) (p : Post) : Bool :=
  match p.hit with
  | none => false
  | some h =>
    !h.paused && (!h.again.isEmpty || decide (h.next < takes p h)) && decide ((s.die d).ni.tokensOf id < 4)
      && decide (s.liveTok p.region < s.limTok p.region)

/-- The post that the grant scheduler serves next: the highest priority that has one, round-robin within it. -/
def State.nextGrant (s : State) (d : Nat) : Option (Nat × Post) :=
  let ni := (s.die d).ni
  let ok := ni.posts.filter fun p => s.grantable d p.1 p.2
  (List.range 8).findSome? fun g =>
    let l := ok.filter fun p => p.2.prio.val == g
    match l.find? fun p => decide (KMap.lookD ni.served g 0 < p.1) with
    | some p => some p
    | none => l.head?

/-- TOKEN_ISSUE (R357): posts that are wholly written fill first. -/
def execTokenIssue (d : DieNo) (s : State) : Out :=
  let s := (s.die d.val).ni.posts.foldl (fun (s : State) p => s.finishPost d.val p.1) s
  let ni := (s.die d.val).ni
  if 1024 ≤ ni.tokens.length then .next s
  else match s.nextGrant d.val with
    | none => .next s
    | some (id, p) => match p.hit with
      | none => .next s
      | some h =>
        let r : Nat × Nat := match h.again with
          | r :: _ => r
          | [] => (h.next, min 16384 (takes p h - h.next))
        let s := s.modMatch d.val id fun h => match h.again with
          | _ :: rs => { h with again := rs }
          | [] => { h with next := h.next + r.2 }
        let seq := ni.nextTok
        let s := s.modNi d.val fun n =>
          { n with nextTok := if seq + 1 = 0 then 1 else seq + 1, served := KMap.put n.served p.prio.val id,
                   tokens := n.tokens ++ [{ seq := seq, post := id, off := r.1, len := r.2, got := 0, came := false,
                                            issued := s.cyc d.val }] }
        let t : TokenMsg := { sendId := h.sendId, seq := seq, off := r.1, len := r.2 }
        .next (if h.pkg = s.pkg then s.serveToken h.die.val t else s.emit (.token h.pkg.toNat h.die.val t))

/-- TOKEN_EXPIRY (R357) of token `k` of the NI: a flit that arrives in the cycle of expiry is still in time. -/
def execTokenExpiry (d : DieNo) (k : Nat) (s : State) : Out :=
  match (s.die d.val).ni.tokens[k]? with
  | none => .next s
  | some t =>
    if t.came || s.cyc d.val ≤ t.issued + 4096 then .next s
    else
      let s := s.modNi d.val fun n => { n with tokens := n.tokens.eraseIdx k }
      let s := s.modMatch d.val t.post fun h => { h with lapses := h.lapses + 1, again := h.again ++ [(t.off, t.len)] }
      match (s.post? d.val t.post).bind fun p => p.hit with
      | some h => if 3 ≤ h.lapses then .next (s.endPost d.val t.post (errWord 0x64) false true) else .next s
      | none => .next s

/-- BULK_DATA_ARRIVAL (R357, R359). -/
def execBulkDataArrival (d : DieNo) (f : BulkFlit) (s : State) : Out := .next (s.bulkArrive d.val f)

/-- DROP_NOTICE_ARRIVAL (R357): the send fills orphaned. -/
def execDropNoticeArrival (d : DieNo) (n : BulkNotice) (s : State) : Out :=
  match n with
  | .send id => .next (s.endSend d.val (id / 8) (errWord 0x64) false)
  | .post _ => .next s

/-! ## Cancelling (R363) -/

/-- The last byte of the transfer that a send is matched with has been written: it completes, whatever a cancel asks
(R363). -/
def State.sendWhole (s : State) (d name : Nat) : Bool :=
  match s.postNamed d name with
  | none => false
  | some id => match s.post? d id with
    | some p => (match p.hit with
      | some h => decide (takes p h ≤ h.bytes)
      | none => false)
    | none => false

/-- A sender's cancel reaches the receiving NI: its post fills cancelled, or its waiting request goes. -/
def State.cancelPost (s : State) (d name : Nat) : State :=
  let s := s.modNi d fun n => { n with rts := n.rts.filter fun r => sendName r.srcPkg.toNat r.srcDie.val r.sendId != name }
  match s.postNamed d name with
  | some id => s.endPost d id (errWord 0x65) false false
  | none => s

/-- The receiving NI holds the request of a send, matched or waiting. -/
def State.knowsSend (s : State) (d name : Nat) : Bool :=
  (s.postNamed d name).isSome || (s.die d).ni.rts.any fun r => sendName r.srcPkg.toNat r.srcDie.val r.sendId == name

/-- CANCEL_NOTICE_ARRIVAL (R363): the receiving NI answers a sender's cancel with one of its own. A transfer that has been
wholly written completes, and one whose post has ended has been answered already: neither is cancelled. -/
def execCancelNoticeArrival (d : DieNo) (n : BulkNotice) (s : State) : Out :=
  match n with
  | .send id => .next (s.endSend d.val (id / 8) (errWord 0x65) false)
  | .post name =>
    if s.sendWhole d.val name || !(s.knowsSend d.val name) then .next s
    else .next ((s.cancelPost d.val name).emit (.cancel (name / 8 % 2 ^ 14) (name % 8) (.send (name / 2 ^ 17))))

/-! ## Instructions (R361 to R363) -/

/-- Live sends of a world with a descriptor address: die and number. -/
def State.sendsAt (s : State) (w a : Nat) : List (Nat × Nat) :=
  s.dies.flatMap fun d => (d.2.ni.sends.filter fun p => p.2.world == w && p.2.addr == a).map fun p => (d.1, p.1)

/-- Live posts of a world with a descriptor address. -/
def State.postsAt (s : State) (w a : Nat) : List (Nat × Nat) :=
  s.dies.flatMap fun d => (d.2.ni.posts.filter fun p => p.2.world == w && p.2.addr == a).map fun p => (d.1, p.1)

/-- Forgets the ended records of a descriptor address that is named again. -/
def State.forgetEnded (s : State) (w a : Nat) : State :=
  s.dies.foldl (fun (s : State) p =>
    if p.2.ni.ended.any fun e => e.world == w && e.addr == a then
      s.modNi p.1 fun n => { n with ended := n.ended.filter fun e => !(e.world == w && e.addr == a) }
    else s) s

/-- The table of an NI is full: 1,024 posts and sends. -/
def State.niFull (s : State) (d : Nat) : Bool := decide (1024 ≤ (s.die d).ni.posts.length + (s.die d).ni.sends.length)

/-- The widest scope of the homes of a range of global addresses (R180). -/
def State.vaScope (s : State) (c : Context) (va n : Nat) : Scope :=
  (linesOf va n).foldl (fun (w : Scope) l => match s.translate c.space l 1 with
    | some t => widerScope w (s.addrScope c t.phys)
    | none => w) .core

/-- BSEND. -/
def execBsend (ctl : Ctl) (xs : Fin 64) (m : MemOp) (s : State) : Out :=
  issue 0xE0 ctl inSlot6 [memSrc m] [.x xs] s fun uid c t =>
    (t.readBlock uid c ctl.loc m 64).into fun t bs =>
      let n := leNat bs
      let d := c.die.val
      if badSend n then .done (t.produceWord uid (.x xs) (errWord 0x60))
      else if blPkg n ≠ t.pkg.toNat ∧ t.noJob (blPkg n) then .done (t.produceWord uid (.x xs) (errWord 0x61))
      else if t.niFull d then .done (t.produceWord uid (.x xs) (errWord 0x67))
      else if !(t.released uid c (t.vaScope c (bsSrc n) (blLen n))) then .wait
      else
        let a := formAddr c m 64
        let id := (t.die d).ni.nextOut
        let p : Send :=
          { uid := uid, dest := .x xs, addr := a, world := c.world, region := c.region, space := c.space,
            desc := BitVec.ofNat 512 n, sent := 0, turned := 0, retryAt := none, rlim := c.rlim.toNat, begun := false,
            cancel := none }
        let t := (t.pendReg uid (.x xs)).forgetEnded c.world a
        .done ((t.modNi d fun k => { k with sends := KMap.put k.sends id p, nextOut := id + 1 }).sendRts d id)

/-- BPOST: the post is matched with the oldest waiting request that it accepts. -/
def execBpost (ctl : Ctl) (g : Fin 8) (xs : Fin 64) (m : MemOp) (s : State) : Out :=
  issue 0xE1 ctl inSlot6 [memSrc m] [.x xs] s fun uid c t =>
    (t.readBlock uid c ctl.loc m 64).into fun t bs =>
      let n := leNat bs
      let d := c.die.val
      if badPost n then .done (t.produceWord uid (.x xs) (errWord 0x60))
      else if t.niFull d then .done (t.produceWord uid (.x xs) (errWord 0x67))
      else if !(t.released uid c (t.vaScope c (bsSrc n) (blLen n))) then .wait
      else
        let a := formAddr c m 64
        let id := (t.die d).ni.nextOut
        let p : Post :=
          { uid := uid, dest := .x xs, addr := a, world := c.world, region := c.region,
            lim := t.limOwner c.region 5, space := c.space, lid := c.lid, item := c.item, core := c.core, prio := g, rlim := c.rlim.toNat, desc := BitVec.ofNat 512 n, order := t.nextOrder, hit := none }
        let t := (t.pendReg uid (.x xs)).forgetEnded c.world a
        let t := { t with nextOrder := t.nextOrder + 1 }
        let t := t.modNi d fun k => { k with posts := KMap.put k.posts id p, nextOut := id + 1 }
        match (t.die d).ni.rts.find? fun r => p.accepts r with
        | some r => .done ((t.modNi d fun k => { k with rts := k.rts.erase r }).matchPost d id p r)
        | none => .done t

/-- Cancels a send: on this package at once; elsewhere the receiving NI answers. -/
def State.cancelSend (s : State) (uid : Nat) (xs : Fin 64) (d id : Nat) (p : Send) : Res :=
  let n := p.desc.toNat
  if p.cancel.isSome then .wait
  else if blPkg n = s.pkg.toNat then
    if s.sendWhole (bsDie n) (sendName s.pkg.toNat d (8 * id + d)) then .wait
    else .done (((s.endSend d id (errWord 0x65) false).cancelPost (bsDie n) (sendName s.pkg.toNat d (8 * id + d))).produce uid
        (afterFill (.x xs) (p.uid, p.dest) 0))
  else
    .done (((s.pendReg uid (.x xs)).modSend d id fun q => { q with cancel := some { uid := uid, dest := .x xs } }).emit
      (.cancel (blPkg n) (bsDie n) (.post (sendName s.pkg.toNat d (8 * id + d)))))

/-- BCANCEL. -/
def execBcancel (ctl : Ctl) (xs : Fin 64) (m : MemOp) (s : State) : Out :=
  issue 0xE2 ctl noPriv [memSrc m] [.x xs] s fun uid c t =>
    let a := formAddr c m 64
    if a % 64 ≠ 0 then .trap causeMisaligned a
    else match t.sendsAt c.world a, t.postsAt c.world a with
      | (d, id) :: _, _ => match t.send? d id with
        | some p => t.cancelSend uid xs d id p
        | none => .wait
      | [], (d, id) :: _ => match t.post? d id with
        | some p =>
          let r := (t.endPost d id (errWord 0x65) false false).produce uid (afterFill (.x xs) (p.uid, p.dest) 0)
          match p.hit with
          | some h => if takes p h ≤ h.bytes then .wait else .done (r.tellSender h true)
          | none => .done r
        | none => .wait
      | [], [] => .done (t.produceWord uid (.x xs) (errWord 0x68))

/-- A record word (R363). -/
def statWord (state lapses tokens bytes : Nat) : BitVec 64 :=
  BitVec.ofNat 64 (state % 8 * 2 ^ 60 + lapses % 4 * 2 ^ 58 + tokens % 8 * 2 ^ 55 + bytes % 2 ^ 32)

/-- The record of a send or post that is live, or kept as ended. -/
def State.bulkRecord (s : State) (w a : Nat) : BitVec 64 × State :=
  match s.sendsAt w a, s.postsAt w a with
  | (d, id) :: _, _ => match s.send? d id with
    | some p =>
      if p.begun || (s.postOf d id p).isSome then
        let q := s.sendBytes d id p
        (statWord 1 0 0 q.1, q.2)
      else (statWord 0 0 0 0, s)
    | none => (errWord 0x68, s)
  | [], (d, id) :: _ => match s.post? d id with
    | some p => (match p.hit with
      | some h => (statWord (if h.paused then 2 else 1) h.lapses ((s.die d).ni.tokensOf id) h.bytes, s)
      | none => (statWord 0 0 0 0, s))
    | none => (errWord 0x68, s)
  | [], [] => match (s.dies.flatMap fun d => d.2.ni.ended).find? fun e => e.world == w && e.addr == a with
    | some e => (statWord e.state e.lapses 0 e.bytes, s)
    | none => (errWord 0x68, s)

/-- BSTAT. -/
def execBstat (ctl : Ctl) (d : Fin 64) (m : MemOp) (s : State) : Out :=
  issue 0xE3 ctl noPriv [memSrc m] [.x d] s fun uid c t =>
    let a := formAddr c m 64
    if a % 64 ≠ 0 then .trap causeMisaligned a
    else
      let r := t.bulkRecord c.world a
      .done (r.2.produceWord uid (.x d) r.1)

end Sys2Proof.Machine
end

