-- ==== Sys2Proof/Machine/Fabric.lean ====
section
/-! DEFINITION. The events of the fabric: requests of other packages (R346), acknowledgements, re-sending and skip
notices (R346, R348), ordered flags (R349), link recovery (R350 to R352), and parity errors inside the package (R408). -/

namespace Sys2Proof.Machine

/-! ## Requests of other packages (R346) -/

/-- Bytes that a request touches. -/
def opBytes : FabOp → Nat
  | .load n | .syncLoad n _ | .store n _ _ | .flag n _ _ _ _ _ _ | .poison n _ => n
  | .atomic _ w _ _ | .swap w _ | .cas w _ _ | .waita w _ _ => if w then 8 else 4
  | .fadd _ => 4
  | .feset _ | .feget | .wakea _ => 8
  | .message .. | .unwait _ | .notice _ => 0

/-- Rights that a request needs (R131, R133). -/
def opNeed : FabOp → Need
  | .load _ | .syncLoad _ false | .feget | .waita .. | .wakea _ => .rd
  | .syncLoad _ true => .rd
  | .store .. | .flag .. | .feset _ | .poison .. => .wr
  | .atomic .. | .swap .. | .cas .. | .fadd _ => .rw
  | .message .. | .unwait _ | .notice _ => .none

/-- The access of a request at its home. -/
def reqAcc (r : FabReq) (q : Nat) : Acc :=
  { parts := [(q, opBytes r.op)], size := opBytes r.op, win := 0, rnd := 0, world := r.world.toNat, trusted := false, nodes := [],
    va := 0 }

/-- A load of another package that does not wait. -/
def State.loadFor (s : State) (r : FabReq) (q n : Nat) : State :=
  let z := s.readAny r.world.toNat q n
  z.1.answer r.srcPkg r.srcDie r.seq (if z.2.2 then .poisoned else .performed (BitVec.ofNat 1024 (leNat z.2.1)))

/-- A request of another package stands in a retry list. -/
def State.waitsHere (s : State) (r : FabReq) : Bool :=
  s.retry.any fun w => match w.op with
    | .remote p d q _ _ | .remoteLoad p d q _ _ => reqIs r p d q
    | _ => false

/-- A waiting access of another package: performed, admitted, which its sender hears of (R167), or turned back where the list
of its controller is full (R168). In untagged memory `LD.wait` is performed at once, and the others are refused (R157). -/
def State.waitRemoteHere (s : State) (r : FabReq) (q : Nat) (op : WaitOp) : State :=
  let w : Waiter := { word := q / 8 * 8, world := r.world.toNat, nodes := [], op := op }
  if s.untagged q then
    match r.op with
    | .syncLoad n false => s.loadFor r q n
    | _ => s.answer r.srcPkg r.srcDie r.seq .refused
  else if (s.servable w).isNone && !(s.listRoom q) then s.answer r.srcPkg r.srcDie r.seq .retry
  else
    let t := s.arriveWaiter w [(q, opBytes r.op)]
    if t.waitsHere r then t.emit (.ack r.srcPkg r.srcDie r.seq .admitted) else t

/-- A store of another package that does not wait; one that empties untagged words is refused (R157). -/
def State.storeFor (s : State) (r : FabReq) (q n : Nat) (data : BitVec 1024) (mode : StMode) : State :=
  if mode == .empty && s.untagged q then s.answer r.srcPkg r.srcDie r.seq .refused
  else
  let bad := s.partPoison [(q, n)]
  let s := s.writeAny r.die.val r.world.toNat q (leBytes n data.toNat) (StMode.fe mode)
  s.answer r.srcPkg r.srcDie r.seq (if bad then .poisoned else .performed 0)

/-- A read-modify-write of another package: its old value, with the flags of an add above it. -/
def State.atomicFor (s : State) (r : FabReq) (q : Nat) (op : AtomOp) (w64 : Bool) (b : BitVec 64) : State :=
  let z := (s.l1Home none q true).atomicAt r.world.toNat q op w64 b
  z.1.answer r.srcPkg r.srcDie r.seq (match z.2.1 with
    | some v => .performed (BitVec.ofNat 1024 (v.toNat + z.2.2 * 2 ^ 64))
    | none => .poisoned)

/-- A `WAITA` of another package: it is told when the value is another (R204, R205). With a code the sender's table or its
limit has no room: the wait is answered with that code where it would begin. No L1 keeps the line writable. -/
def State.waitaFor (s : State) (r : FabReq) (q : Nat) (w64 : Bool) (e : BitVec 64) (full : BitVec 8) : State :=
  let z := (s.l1Home none q false).readSeg r.world.toNat q (monLen w64)
  if z.2.2 then z.1.answer r.srcPkg r.srcDie r.seq .poisoned
  else if leNat z.2.1 ≠ e.toNat then z.1.answer r.srcPkg r.srcDie r.seq (.performed 0)
  else if full ≠ 0 then z.1.answer r.srcPkg r.srcDie r.seq (.performed ((errWord full.toNat).setWidth 1024))
  else
    let m : RemoteMon :=
      { pkg := r.srcPkg, die := r.srcDie, seq := r.seq, addr := q, w64 := w64, expect := e, world := r.world.toNat,
        order := z.1.nextOrder, home := z.1.homeDie q, ended := none, endedAt := 0, taker := none }
    (({ z.1 with remoteMons := z.1.remoteMons ++ [m], nextOrder := z.1.nextOrder + 1 } : State).l1Unwatch).emit
      (.ack r.srcPkg r.srcDie r.seq .admitted)

/-- A `WAKEA` of another package takes entries; their number is answered once its cycle has passed (R207, R208). -/
def State.wakeFor (s : State) (r : FabReq) (q n : Nat) : State :=
  let z := s.wake (.far r.srcPkg r.srcDie r.seq) q n
  let d := z.1.homeDie q
  { z.1 with router := { z.1.router with wakes := z.1.router.wakes ++
      [{ pkg := r.srcPkg, die := r.srcDie, seq := r.seq, n := z.2, home := d, at_ := z.1.cyc d }] } }

/-- A wait of another package has ended at its sender: its entry, or its place in a retry list, is given up (log 110). -/
def State.unwaitFor (s : State) (r : FabReq) (q : Nat) : State :=
  { s with
    remoteMons := s.remoteMons.filter fun m => !(m.pkg == r.srcPkg && m.die == r.srcDie && m.seq == q)
    retry := s.retry.filter fun w => match w.op with
      | .remote p d n _ _ | .remoteLoad p d n _ _ => !(p == r.srcPkg && d == r.srcDie && n == q)
      | _ => true
    router := { s.router with inbound := s.router.inbound.filter fun x => !(reqIs x r.srcPkg r.srcDie q) } }.answer
      r.srcPkg r.srcDie r.seq (.performed 0)

/-- An engine of another package writes poison (R306). -/
def State.poisonFor (s : State) (r : FabReq) (q n : Nat) (mode : StMode) : State :=
  (s.poisonOver r.die.val unitRlim r.world.toNat [(q, n)] (StMode.fe mode)).answer r.srcPkg r.srcDie r.seq (.performed 0)

/-- `FESET` of another package. -/
def State.fesetFor (s : State) (r : FabReq) (q : Nat) (full : Bool) : State :=
  if s.untagged q then s.answer r.srcPkg r.srcDie r.seq (if full then .performed 0 else .refused)
  else ((s.l1Home none q true).storeFe (q / 8 * 8) full).answer r.srcPkg r.srcDie r.seq (.performed 0)

/-- Performs an admitted request at its home (R346). -/
def State.performFor (s : State) (r : FabReq) (q : Nat) : State :=
  let ack := fun (s : State) (a : FabAck) => s.answer r.srcPkg r.srcDie r.seq a
  match r.op with
  | .load n => s.loadFor r q n
  | .syncLoad _ consume => s.waitRemoteHere r q (.remoteLoad r.srcPkg r.srcDie r.seq (reqAcc r q) consume)
  | .store n data .wefill => s.waitRemoteHere r q (.remote r.srcPkg r.srcDie r.seq (reqAcc r q) (leBytes n data.toNat))
  | .store n data mode => s.storeFor r q n data mode
  | .flag n data .wefill _ _ _ _ =>
    s.waitRemoteHere r q (.remote r.srcPkg r.srcDie r.seq (reqAcc r q) (leBytes n data.toNat))
  | .flag n data mode _ _ _ _ => s.storeFor r q n data mode
  | .atomic op w64 b _ => s.atomicFor r q (.red op) w64 b
  | .swap w64 b => s.atomicFor r q .swap w64 b
  | .cas w64 e b => s.atomicFor r q (.cas e) w64 b
  | .fadd b => s.atomicFor r q .fadd false (b.setWidth 64)
  | .feset full => s.fesetFor r q full
  | .feget =>
    let s := s.l1Home none q false
    ack s (.performed ((s.feWord q).setWidth 1024))
  | .waita w64 e full => s.waitaFor r q w64 e full
  | .wakea n => s.wakeFor r q n.toNat
  | .poison n mode => s.poisonFor r q n mode
  | .message .. | .unwait _ | .notice _ => s

/-- A message of another package is on its way to its core (R423). -/
def State.messageFor (s : State) (r : FabReq) : State :=
  match r.op with
  | .message chan core die hdr item hpc payload lid =>
    s.post { chan := chan.val, die := die, core := core, world := r.world.toNat, lid := lid, item := item, header := hdr,
             payload := payload, hpc := hpc, gen := false, status := none, remote := some (r.srcPkg, r.srcDie, r.seq),
             sender := 0, task := none, since := s.cyc die.val, table := none }
  | _ => s

/-- A notice of a barrier comes from another package of the job: it is on its way to the barrier's instance (R231). -/
def State.noticeFor (s : State) (r : FabReq) (n : NbNotice) : State :=
  if s.job == 0 || r.job.toNat != s.job then s.answer r.srcPkg r.srcDie r.seq .refused
  else ({ s with notices := s.notices ++ [(r.die.val, n)] } : State).answer r.srcPkg r.srcDie r.seq (.performed 0)

/-- Every count of a sending NI has reached what a flag carries, modulo 2^32 (R349). -/
def Router.released (rt : Router) (r : FabReq) : Bool :=
  match r.op with
  | .flag _ _ _ c0 c1 c2 c3 => [c0, c1, c2, c3].zipIdx.all fun p =>
      decide ((KMap.lookD rt.done (senderKey r.srcPkg r.srcDie * 4 + p.2) 0 + 2 ^ 32 - p.1.toNat) % 2 ^ 32 < 2 ^ 31)
  | _ => true

/-- Admission and performance of a request that its NI takes (R346). -/
def State.takeRequest (s : State) (r : FabReq) : State :=
  match r.op with
  | .message .. => s.messageFor r
  | .unwait q => s.unwaitFor r q
  | .notice n => s.noticeFor r n
  | _ => match s.admits r.job.toNat r.world.toNat r.off (opBytes r.op) (opNeed r.op) with
    | none => s.answer r.srcPkg r.srcDie r.seq .refused
    | some q => s.performFor r q

/-- Requests in the inbound queue of a die's NI: one that waits in a retry list or in a monitor entry has left it. -/
def State.niQueue (s : State) (d : DieNo) : Nat :=
  (s.router.inbound.filter fun x => x.die == d && !(s.waitsHere x)
    && !(s.remoteMons.any fun m => reqIs x m.pkg m.die m.seq)).length

/-- The NI that performs a request takes it, or turns it back where it holds 512 (R346). -/
def State.toNi (s : State) (r : FabReq) : State :=
  if 512 ≤ s.niQueue r.die then
    ({ s with router := s.router.turnedBack r } : State).emit (.ack r.srcPkg r.srcDie r.seq .retry)
  else ({ s with router := { s.router with inbound := s.router.inbound ++ [r] } } : State).takeRequest r

/-- FABRIC_REQUEST_RECEIVE (R346): a request already performed is acknowledged again, and one under way is left alone; a
full NI turns it back; a flag waits at the router for the counts it carries (R349). A part that is not ready takes none: its
links are trained as it becomes so (R417), and its dies are gated while it sleeps (R419). -/
def execFabricRequestReceive (r : FabReq) (s : State) : Out :=
  if s.boot.phase ≠ 1 then .next s
  else match KMap.look (KMap.lookD s.router.seen (senderKey r.srcPkg r.srcDie) []) r.seq with
  | some a => .next (s.emit (.ack r.srcPkg r.srcDie r.seq a))
  | none =>
    if (s.router.inbound ++ s.router.flags.map (·.req)).any fun x => reqIs x r.srcPkg r.srcDie r.seq then .next s
    else if s.router.released r then .next (s.toNi r)
    else .next { s with router := { s.router with flags := s.router.flags ++ [{ req := r, since := s.cyc r.die.val }] } }

/-- A flag leaves the router. -/
def State.dropFlag (s : State) (k : Nat) : State :=
  { s with router := { s.router with flags := s.router.flags.eraseIdx k } }

/-- A flag held too long is discarded and fails with dead, which its path tag counts as an arrival (R349). -/
def State.failFlag (s : State) (r : FabReq) : State :=
  ({ s with router := { s.router with inbound := s.router.inbound ++ [r] } } : State).answer r.srcPkg r.srcDie r.seq .dead

/-- ORDERED_FLAG_RELEASE (R349). -/
def execOrderedFlagRelease (k : Nat) (s : State) : Out :=
  match s.router.flags[k]? with
  | none => .next s
  | some f => if s.router.released f.req then .next ((s.dropFlag k).toNi f.req) else .next s

/-- ORDERED_FLAG_TIMEOUT (R349). -/
def execOrderedFlagTimeout (k : Nat) (s : State) : Out :=
  match s.router.flags[k]? with
  | none => .next s
  | some f =>
    if f.since + 65536 ≤ s.cyc f.req.die.val then .next ((s.dropFlag k).failFlag f.req)
    else .next s

/-- SKIP_NOTICE_ARRIVAL (R348): it counts as an arrival under its path tag. -/
def execSkipNoticeArrival (pkg : BitVec 14) (die : DieNo) (path : Fin 4) (s : State) : Out :=
  .next { s with router := s.router.arrived pkg die path.val }

/-! ## At the sender (R346, R348) -/

/-- How a request failed. -/
inductive FabFail where
  | refused | exhausted | dead | poisoned
  deriving DecidableEq, Repr

/-- Failed-store bits (R187). -/
def FabFail.storeBits : FabFail → BitVec 4
  | .refused => failRefused
  | .exhausted => failRetry
  | .dead => failDead
  | .poisoned => failPoisoned

/-- Code of an engine's command whose write to another package has failed: R305 has none of its own for it. A write that is
dead reached no memory; the rest were not permitted (DESIGN CHOICE, log 97). -/
def FabFail.engineCode : FabFail → Nat
  | .dead => 0x41
  | _ => 0x42

/-- Causes that R167 holds back for a synchronising access. -/
def FabFail.cause : FabFail → Nat
  | .refused => causePermission
  | .exhausted => causeRetry
  | .dead => causeUnmapped
  | .poisoned => causePoison

/-- Status of a message that failed (R423, R360). The manual gives no code for one that is turned back more often than its
retry limit: it fills timeout (DESIGN CHOICE, log 96). -/
def FabFail.status : FabFail → BitVec 64
  | .dead => errWord 0x62
  | .exhausted => errWord 4
  | _ => errWord 3

/-- A synchronising access to another package fails: a suspended context faults when it is resumed, another at the
instruction that issued it (R346). -/
def State.syncFailed (s : State) (uid op cause va : Nat) : State :=
  match s.ctx? uid with
  | none => s
  | some c =>
    if c.state == CxState.suspended then
      s.modCtx uid fun c =>
        { c with wait := .none, pendFault := some (BitVec.ofNat 8 cause, BitVec.ofNat 64 va) }
    else s.failSync uid c op cause va

/-- The register of a synchronising load that faults is as it was before the load issued (R346). -/
def State.unissue (s : State) (uid : Nat) (dest : Option AnyReg) (acq : Option Nat) (full : Bool) : State :=
  let s := match acq with
    | some a => s.acquired uid a
    | none => s
  match dest with
  | some r => s.modCtx uid fun c => (c.unpend r).markFull r full
  | none => s

/-- A monitor wait on another package ends with a fill. -/
def State.dropMonitor (s : State) (d k : Nat) (f : AnyReg → Fill) : State :=
  match KMap.look (s.die d).monitors k with
  | none => s
  | some m =>
    let s := s.modDie d fun x => { x with monitors := KMap.del x.monitors k }
    ((s.acquired m.uid m.acq).modCtx m.uid fun c => c.waitFilled m.dest).pushFill m.uid (f m.dest)

/-- A request is complete, without success. -/
def State.reqFailed (s : State) (h : Nat) (o : Outst) (e : FabFail) : State :=
  let s := s.dropOutst h
  match o.todo with
  | .fill uid dest _ acq _ => s.pushFill uid (match o.req.op, e with
      | .waita .., .poisoned => { valueFill dest (errWord 0x22) with acq := acq }
      | _, _ => { poisonFill dest with acq := acq })
  | .copy c => s.copyFail (h % 8) c.val (h / 8) e.engineCode
  | .post id => s.endPost (h % 8) id (errWord e.engineCode) false true
  | .quant => s.quantFail (h % 8) (h / 8) e.engineCode
  | .store uid => if uid = 0 then s else (s.failStore uid .job (some o.req.path) e.storeBits).reap uid
  | .sync uid dest acc acq full => match e, dest with
    | .poisoned, some r => s.pushFill uid { poisonFill r with acq := acq }
    | .poisoned, none => s.failStore uid .job (some o.req.path) failPoisoned
    | _, _ => (s.unissue uid dest acq full).syncFailed uid (syncOpcode dest acc) e.cause acc.va
  | .monitor k => s.dropMonitor (h % 8) k fun r => if e = .poisoned then valueFill r (errWord 0x22) else poisonFill r
  | .message t => match t with
    | some t => s.pushFill t.uid (valueFill t.dest e.status)
    | none => s
  | .notice n => s.nbFailed (h % 8) n

/-- A request that will not be sent again: the receiver's counts hear of it by a skip notice on a live route (R348). -/
def State.skipFor (s : State) (o : Outst) : State :=
  if countsInSent o.req.op && (s.livePath o.req.path.val o.pkg).isSome then s.emit (.skip o.pkg o.req.srcDie o.req.path) else s

/-- A request has been performed. -/
def State.reqDone (s : State) (h : Nat) (o : Outst) (v : BitVec 1024) : State :=
  let s := s.dropOutst h
  match o.todo with
  | .fill uid dest _ acq fadd =>
    let f : Fill :=
      if fadd then atomFill dest (some (v.setWidth 64), v.toNat / 2 ^ 64 % 2 ^ 16) acq
      else { dest := dest, also := none, src := .value v, flags := 0, nan := none, acq := acq }
    s.pushFill uid f
  | .store uid => s.reap uid
  | .copy _ | .post _ | .quant | .notice _ => s
  | .sync uid dest _ acq _ => match dest with
    | some r => s.pushFill uid { dest := r, also := none, src := .value v, flags := 0, nan := none, acq := acq }
    | none => (s.modCtx uid fun c => match c.state, c.wait with
      | .suspended, .word _ => { c with wait := .none }
      | _, _ => c).reap uid
  | .monitor k => s.endMon (h % 8) k (v.setWidth 64)
  | .message t => match t with
    | some t => s.pushFill t.uid (valueFill t.dest (v.setWidth 64))
    | none => s

/-- Changes an outstanding request. -/
def State.modOutst (s : State) (h : Nat) (f : Outst → Outst) : State :=
  s.modNi (h % 8) fun n => { n with outst := KMap.modify n.outst (h / 8) f }

/-- A synchronising access has been admitted at its home: it holds its context no longer (R167). So has a `WAITA`. Where a withdrawal has cut its
word meanwhile the wait is cancelled at once (R143). -/
def State.reqAdmitted (s : State) (h : Nat) (o : Outst) : State :=
  match o.todo with
  | .sync _ _ acc _ _ =>
    if acc.nodes.any fun k => s.nodeCut k then s.cancelFar (h % 8) (h / 8) o
    else s.modOutst h fun o => { o with admitted := true }
  | .monitor _ => s.modOutst h fun o => { o with admitted := true }
  | _ => s

/-- FABRIC_ACK_ARRIVAL (R346): `seq` names the request at its sender, as its die's number for it times 8 plus the die. -/
def execFabricAckArrival (seq : Nat) (a : FabAck) (s : State) : Out :=
  match s.outstOf seq with
  | none => .next (s.sendAnswer (seq % 8) (seq / 8) a)
  | some o => match a with
    | .performed v => .next (s.reqDone seq o v)
    | .refused => .next (s.reqFailed seq o .refused)
    | .poisoned => .next (s.reqFailed seq o .poisoned)
    | .dead => .next (s.reqFailed seq o .dead)
    | .admitted => .next (s.reqAdmitted seq o)
    | .retry =>
      let k := o.turned + 1
      if o.req.rlim < k then .next (s.reqFailed seq o .exhausted)
      else .next (s.modOutst seq fun o => { o with turned := k, retryAt := some (s.cyc (seq % 8) + 64 * 2 ^ min k 6) })

/-- FABRIC_RESEND_TIMEOUT (R348): sent again on the best live path under its own path tag, after 8,192 cycles, or at once where
the port by which it went out is dead, whose replay buffer hands it on (R350); after the fourth re-sending, or with no live
route, it fails with dead. -/
def execFabricResendTimeout (seq : Nat) (s : State) : Out :=
  match s.outstOf seq with
  | none => match s.send? (seq % 8) (seq / 8) with
    | some p => if (s.livePath 0 (blPkg p.desc.toNat)).isNone && blPkg p.desc.toNat != s.pkg.toNat then
        .next (s.endSend (seq % 8) (seq / 8) (errWord 0x62) false) else .next s
    | none => .next s
  | some o =>
    let due := o.retryAt.isNone && !o.admitted && (decide (o.sentAt + 8192 ≤ s.cyc (seq % 8)) || s.routeDead o.via)
    match s.bestPath (seq % 8) o.pkg with
    | none => .next (s.reqFailed seq o .dead)
    | some r =>
      if !due then .next s
      else if 4 ≤ o.resent then .next ((s.skipFor o).reqFailed seq o .dead)
      else .next ((s.modOutst seq fun x => { x with resent := o.resent + 1, sentAt := s.cyc (seq % 8), via := some r }).emit
        (.request o.req o.pkg r))

/-- The context, if any, that a request is for. -/
def State.outstUid (s : State) (d : Nat) (o : Outst) : Nat :=
  match o.todo with
  | .fill uid .. | .store uid | .sync uid .. => uid
  | .monitor k => match KMap.look (s.die d).monitors k with
    | some m => m.uid
    | none => 0
  | .copy c => match (s.core d c.val).cpy.run with
    | some r => (match r.cmd.by_ with
      | .ctx t => t.uid
      | .sched .. => 0)
    | none => 0
  | .post id => match s.post? d id with
    | some p => p.uid
    | none => 0
  | .quant => match (s.die d).quant with
    | q :: _ => q.uid
    | [] => 0
  | .notice n => match (s.nbInst d n.world.toNat n.scope n.tag).run with
    | some r => r.uid
    | none => 0
  | .message t => match t with
    | some t => t.uid
    | none => 0

/-- Sends again the requests and sends of a context that were turned back, where their wait has passed (R346, R356). -/
def State.sendAgain (s : State) (uid d : Nat) : State :=
  let now := s.cyc d
  let due := fun (t : Option Nat) => match t with
    | some n => decide (n ≤ now)
    | none => false
  let ni := (s.die d).ni
  let s := ni.outst.foldl (fun (s : State) p =>
    if s.outstUid d p.2 = uid && due p.2.retryAt then
      let via := s.livePath p.2.req.path.val p.2.pkg
      let s := s.modOutst (8 * p.1 + d) fun o => { o with retryAt := none, sentAt := now, via := via }
      match via with
      | some r => s.emit (.request p.2.req p.2.pkg r)
      | none => s
    else s) s
  ni.sends.foldl (fun (s : State) p => if p.2.uid = uid && due p.2.retryAt then s.sendRts d p.1 else s) s

/-- RETRY_BACKOFF_EXPIRY (R168, R346): the wait after a refusal has passed, of the access that holds a context, and of what
it has sent to other packages. -/
def execRetryBackoffExpiry (uid : Nat) (s : State) : Out :=
  let s := s.modCtx uid fun c => if c.retryAt ≠ 0 ∧ c.retryAt ≤ s.cyc c.die.val then { c with retryAt := 0 } else c
  .next (s.dies.foldl (fun (s : State) p => s.sendAgain uid p.1) s)

/-! ## Link recovery (R350 to R352) -/

/-- Raises the score of a lane. -/
def State.raiseScore (s : State) (port lane n : Nat) : State :=
  let k := port * 4 + lane
  ({ s with router := { s.router with score := KMap.putD s.router.score k 0 (KMap.lookD s.router.score k 0 + n) } }).retireLane port lane

/-- CORRECTED_CODEWORD (R350). -/
def execCorrectedCodeword (port : Fin 48) (lane : Fin 4) (s : State) : Out := .next (s.raiseScore port.val lane.val 1)

/-- FLIT_NAK_REPLAY (R350): a CRC failure raises the score by 16, and the previous hop hears of it. -/
def execFlitNakReplay (port : Fin 48) (lane : Fin 4) (s : State) : Out :=
  .next ((s.raiseScore port.val lane.val 16).emit (.nak port.val lane.val))

/-- HEALTH_SCORE_HALVING (R350). -/
def execHealthScoreHalving (s : State) : Out :=
  .next { s with router := { s.router with score := KMap.mapD s.router.score 0 fun n => n / 2 } }

/-- PARITY_TOPUP (R351): one that makes the kept flit pass ends its recovery; after the third that does not, the whole flit
is replayed. -/
def execParityTopup (port : Fin 48) (good : Bool) (s : State) : Out :=
  let n := KMap.lookD s.router.kept port.val 0 + 1
  if good || 3 ≤ n then
    let s := { s with router := { s.router with kept := KMap.del s.router.kept port.val } }
    .next (if good then s else s.emit (.nak port.val 0))
  else .next { s with router := { s.router with kept := KMap.put s.router.kept port.val n } }

/-- STOMP_TAIL (R352): the previous hop replays the packet. -/
def execStompTail (port : Fin 48) (s : State) : Out := .next (s.emit (.nak port.val 0))

/-! ## Parity inside the package (R408) -/

/-- A fill whose data has come over the crossbar or the on-die network. Fences, counts and results of the core's own engines
have not. -/
def FillSrc.carried : FillSrc → Bool
  | .value _ | .load _ | .feget _ | .atom .. | .pool .. | .poolAck .. | .evid .. => true
  | _ => false

/-- CROSSBAR_PARITY_ERROR (R408): the replays of a flit have failed. Data arrives as poison: at a register, a copy engine, a
view or quantisation engine, or a send. A request fails as dead: a store that may be performed now, a request to another
package, or a message. A fault message is dropped, as one that times out is (R84). -/
def execCrossbarParityError (f : XbarFlit) (s : State) : Out :=
  match f with
  | .fill uid k => .next (s.modCtx uid fun c => { c with fills := c.fills.modify k fun f =>
      if f.src.carried then { f with src := .poisoned, flags := 0, nan := none } else f })
  | .store uid k => match s.ctx? uid with
    | none => .next s
    | some c => match c.sbuf[k]? with
      | none => .next s
      | some e =>
        if s.mayDrain c k e then .next ((s.failStore uid (s.entryScope c e) none failDead).unbuffer uid k) else .next s
  | .request h => match s.outstOf h with
    | none => .next s
    | some o => .next ((s.skipFor o).reqFailed h o .dead)
  | .message k => match s.net[k]? with
    | none => .next s
    | some m =>
      .next (if m.gen && m.chan == 62 then s.offNet k
        else ((s.offNet k).msgStatus m FabFail.dead.status).taskRefused m)
  | .copy d c => .next (s.copyStep d.val c.val true)
  | .view d => .next (s.viewStep d.val true)
  | .quant d => .next (s.quantStep d.val true)
  | .send d id => match s.send? d.val id with
    | none => .next s
    | some _ => .next (s.endSend d.val id (errWord 0x22) false)

end Sys2Proof.Machine
end

