-- ==== Sys2Proof/Machine/Array.lean ====
section
/-! DEFINITION. What the matrix engine computes on its own state: layout words (R281), the array (R283), Crosshatch
(R284, R285), results (R286) and the state word (R292). -/

namespace Sys2Proof.Machine

/-! ## Layout and control words (R281, R286) -/

/-- Fields of a layout word. -/
def layStride (w : BitVec 64) : Nat := bits w.toNat 35 16
def layJt (w : BitVec 64) : Nat := bits w.toNat 15 12
def laySpan (w : BitVec 64) : Nat := bits w.toNat 10 8
def layFmt (w : BitVec 64) : Nat := bits w.toNat 3 0

/-- The format code of a layout word, where it is one of R49. -/
def layType (w : BitVec 64) : ElemType := (ElemType.ofCode (layFmt w)).getD .i64

/-- Formats that `MLDA` (A) and `MLDB` (B) take. -/
def stageFmt (b : Bool) (t : ElemType) : Bool :=
  match t with
  | .i8 => !b
  | .t2 => b
  | .e4m3 | .e5m2 | .f16 | .bf16 | .f32 | .f64 => true
  | _ => false

/-- A layout word obeys its map. -/
def layOk (b : Bool) (w : BitVec 64) : Bool :=
  bits w.toNat 63 36 == 0 && layStride w % 64 == 0 && (b || layJt w == 0) && bits w.toNat 11 11 == 0
    && bits w.toNat 7 4 == 0 && (ElemType.ofCode (layFmt w)).isSome && stageFmt b (layType w)

/-- Rows of A or columns of B, and the bytes of each. -/
def layRows (b : Bool) : Nat := if b then 32 else 16
def layBytes (b : Bool) (w : BitVec 64) : Nat := if b && layFmt w == ElemType.t2.code then 48 else 192

/-- Bytes that lie together in a row: its chunks of 16, or single bytes where rows are not so aligned. -/
def layChunk (w : BitVec 64) : Nat := if layStride w % 16 = 0 then 16 else 1

/-- Offset of logical byte `o` of row `q` (R282). -/
def layOff (base : Nat) (w : BitVec 64) (q o : Nat) : Nat :=
  let s := 16 * 2 ^ laySpan w
  (base + q * layStride w + o) ^^^ ((q % 16 * s / 16) &&& (s - 16))

/-- Offsets of the chunks of row `q`, in logical order. -/
def layRow (b : Bool) (base : Nat) (w : BitVec 64) (q : Nat) : List Nat :=
  (List.range (layBytes b w / layChunk w)).map fun i => layOff base w q (i * layChunk w)

/-- A control word of `MSTA` obeys its map. -/
def mstaOk (w : BitVec 64) : Bool :=
  bits w.toNat 63 36 == 0 && layStride w % 32 == 0 && bits w.toNat 15 8 == 0 && decide (bits w.toNat 6 4 ≤ 4)

/-! ## Elements of staged rows -/

/-- The elements of a row or a column. -/
def rowElems (t : ElemType) (bs : List Byte) : List Nat :=
  if t = .t2 then bs.flatMap fun b => (List.range 4).map fun k => b.toNat / 4 ^ k % 4
  else (List.range (bs.length / (t.bits / 8))).map fun k => leNat ((bs.drop (k * (t.bits / 8))).take (t.bits / 8))

/-! ## Accumulators (R280) -/

/-- The kind of accumulator is narrow. -/
def AccKind.narrow : AccKind → Bool
  | .narrow8 | .narrow16 => true
  | _ => false

/-- Type of an accumulator's value. -/
def AccKind.elem : AccKind → ElemType
  | .narrow8 => .i8 | .narrow16 => .i16 | .fp32 => .f32 | .fp64 => .f64 | _ => .i32

/-- Lane (i, c). -/
def accKey (i c : Nat) : Nat := 512 * i + c

/-- Value of a lane. -/
def MatEng.lane (m : MatEng) (i c : Nat) : Nat :=
  if m.kind = .fp64 then
    (KMap.lookD m.acc (512 * i + 2 * c) 0).toNat + (KMap.lookD m.acc (512 * i + 2 * c + 1) 0).toNat * 2 ^ 32
  else (KMap.lookD m.acc (accKey i c) 0).toNat

/-- Writes a lane. -/
def MatEng.setLane (m : MatEng) (i c v : Nat) : MatEng :=
  if m.kind = .fp64 then
    { m with acc := KMap.putD (KMap.putD m.acc (512 * i + 2 * c) 0 (BitVec.ofNat 32 v)) (512 * i + 2 * c + 1) 0
                      (BitVec.ofNat 32 (v / 2 ^ 32)) }
  else { m with acc := KMap.putD m.acc (accKey i c) 0 (BitVec.ofNat 32 v) }

/-- A lane's state: 0 valid, 1 spilled, 2 overflowed. -/
def MatEng.laneState (m : MatEng) (i c : Nat) : Nat := KMap.lookD m.lanes (accKey i c) 0

/-- Some queue of the bound tile holds an entry. -/
def MatEng.queued (m : MatEng) : Bool := m.pos.any (fun p => !p.2.isEmpty) || m.neg.any fun p => !p.2.isEmpty

/-- Nothing accumulated: every lane 0 and valid, queues empty and unbound (R291). -/
def MatEng.zeroed (m : MatEng) (k : AccKind) : MatEng :=
  { m with kind := k, acc := [], lanes := [], bound := none, pos := [], neg := [], steps := [] }

/-! ## Crosshatch (R284, R285) -/

/-- One lane of a narrow accumulator with its queues. -/
structure Cross where
  acc   : Int
  pos   : List Int
  neg   : List Int
  spilt : Bool
  deriving DecidableEq, Repr

/-- Releases a value into the accumulator of `b` bits. -/
def Cross.release (x : Cross) (b : Nat) (v : Int) : Cross :=
  let a := x.acc + v
  if a < -(2 ^ (b - 1) : Int) ∨ (2 ^ (b - 1) : Int) ≤ a then { x with acc := a, pos := [], neg := [], spilt := true }
  else { x with acc := a }

/-- Releases the head of a queue. -/
def Cross.releaseHead (x : Cross) (b : Nat) (plus : Bool) : Cross :=
  match if plus then x.pos else x.neg with
  | [] => x
  | v :: t => ({ x with pos := if plus then t else x.pos, neg := if plus then x.neg else t }).release b v

/-- A group sum arrives: the lane, and how many releases it forced. -/
def Cross.arrive (x : Cross) (b : Nat) (n : Nat) (v : Int) : Cross × Nat :=
  if v = 0 ∨ x.spilt then (x, n)
  else
    let plus := decide (0 < v)
    let full := decide (16 ≤ (if plus then x.pos else x.neg).length)
    let y := if full then x.releaseHead b plus else x
    let n := if full then n + 1 else n
    if y.spilt then (y, n)
    else (if plus then { y with pos := y.pos ++ [v] } else { y with neg := y.neg ++ [v] }, n)

/-- Releases of one cycle, up to `n` more. -/
def Cross.drain (x : Cross) (b : Nat) : Nat → Cross
  | 0 => x
  | n + 1 =>
    if x.spilt then x
    else if 0 ≤ x.acc ∧ !x.neg.isEmpty then (x.releaseHead b false).drain b n
    else if x.acc < 0 ∧ !x.pos.isEmpty then (x.releaseHead b true).drain b n
    else x

/-- One cycle of a step: three group sums, then the releases left of three. -/
def Cross.cycle (x : Cross) (b : Nat) (gs : List Int) : Cross :=
  let r := gs.foldl (fun (p : Cross × Nat) v => p.1.arrive b p.2 v) (x, 0)
  r.1.drain b (3 - r.2)

/-- The eight cycles of a step over its 24 group sums. -/
def Cross.step (x : Cross) (b : Nat) (gs : List Int) : Cross :=
  (List.range 8).foldl (fun (x : Cross) e => x.cycle b ((gs.drop (3 * e)).take 3)) x

/-- While both queues hold entries, releases by the rule (R285). -/
def Cross.residue (x : Cross) (b : Nat) : Nat → Cross
  | 0 => x
  | n + 1 =>
    if x.spilt || x.pos.isEmpty || x.neg.isEmpty then x
    else (x.releaseHead b (decide (x.acc < 0))).residue b n

/-- Width of a narrow accumulator. -/
def AccKind.width : AccKind → Nat
  | .narrow8 => 9
  | _ => 17

/-- Queues of a lane of the bound tile. -/
def MatEng.cross (m : MatEng) (i c : Nat) : Cross :=
  { acc := intOf .i32 (m.lane i c), pos := KMap.lookD m.pos (accKey i c) [], neg := KMap.lookD m.neg (accKey i c) [],
    spilt := m.laneState i c == 1 }

/-- Puts a lane back with its queues. -/
def MatEng.setCross (m : MatEng) (i c : Nat) (x : Cross) : MatEng :=
  let k := accKey i c
  let m := m.setLane i c (lowBits 32 x.acc)
  { m with pos := KMap.putD m.pos k [] x.pos, neg := KMap.putD m.neg k [] x.neg,
           lanes := if x.spilt then KMap.put m.lanes k 1 else m.lanes }

/-! ## The array (R283) -/

/-- Legal combinations of formats and accumulator. -/
def pairOk (a b : ElemType) (k : AccKind) : Bool :=
  match k with
  | .narrow8 | .narrow16 | .int32 => a == .i8 && b == .t2
  | .fp32 => ((a == .e4m3 || a == .e5m2) && (b == .e4m3 || b == .e5m2)) || (a == b && (a == .f16 || a == .bf16 || a == .f32))
  | .fp64 => a == .f64 && b == .f64
  | .none => false

/-- Elements of K in one step. -/
def stepDepth (a : ElemType) : Nat := 1536 / a.bits

/-- What a step changes: the engine, flags, and the first NaN. -/
structure Acc3 where
  eng   : MatEng
  flags : Nat
  nan   : Option NanCap

/-- A NaN's place: row, column, element of K (R64, R250). -/
def tileNan (row col k : Nat) (fmt : BitVec 16) : NanCap :=
  { pos := BitVec.ofNat 64 (row % 2 ^ 16 + col % 2 ^ 16 * 2 ^ 16 + k % 2 ^ 16 * 2 ^ 32), fmt := fmt }

/-- The first NaN is kept. -/
def Acc3.note (x : Acc3) (fl : Nat) (n : NanCap) : Acc3 :=
  { x with flags := x.flags ||| fl, nan := if x.nan.isNone && fl / flNanMade % 2 == 1 then some n else x.nan }

/-- One lane of a floating-point step. -/
def floatStep (x : Acc3) (m s i c : Nat) (ta tb : ElemType) (a b : List Nat) : Acc3 :=
  let t := x.eng.kind.elem
  let as := a.map (unpack ta)
  let bs := b.map (unpack tb)
  let r := roundVF t .rne false 0 (dotV (unpack t (x.eng.lane i c)) as bs)
  let k := ((List.zipWith mulV as bs).findIdx? fun p => isNanV p.1).getD 0
  ({ x with eng := x.eng.setLane i c r.1 }).note r.2
    (tileNan (16 * m + i) c (s * stepDepth ta + k) (nanFmt t ta tb))

/-- Exact group sums of a ternary step. -/
def groupSums (a t : List Nat) : List Int :=
  let ps := List.zipWith (fun x y => intOf .i8 x * intOf .t2 y) a t
  (List.range 24).map fun g => ((ps.drop (8 * g)).take 8).foldl (· + ·) 0

/-- One lane of a ternary step. -/
def tritStep (x : Acc3) (i c : Nat) (a t : List Nat) : Acc3 :=
  let gs := groupSums a t
  if x.eng.kind.narrow then
    if x.eng.laneState i c ≠ 0 then x
    else
      let y := (x.eng.cross i c).step x.eng.kind.width gs
      { x with eng := x.eng.setCross i c y, flags := x.flags ||| (if y.spilt then flSpill else 0) }
  else
    let v := gs.foldl (· + ·) (intOf .i32 (x.eng.lane i c))
    { x with eng := x.eng.setLane i c (lowBits 32 v),
             flags := x.flags ||| (if v < -(2 ^ 31 : Int) ∨ (2 ^ 31 : Int) ≤ v then flOverflow else 0) }

/-- A tile's lanes (i, j) in ascending order. -/
def tileLanes : List (Nat × Nat) := (List.range 16).flatMap fun i => (List.range 32).map fun j => (i, j)

/-- One step of `MMA` (R283): A stage times the current tile. `m` is the ring position. -/
def MatEng.multiply (e : MatEng) (m : Nat) (ta : ElemType) (rows : List (List Byte)) (h : Tile) : Acc3 :=
  let as := rows.map (rowElems ta)
  let bs := h.cols.map (rowElems h.fmt)
  let s := KMap.lookD e.steps h.jt 0
  let bad := h.fmt == .t2 && bs.any fun col => col.any fun v => v == 2
  let x := tileLanes.foldl (fun (x : Acc3) p =>
    let a := (as[p.1]?).getD []
    let b := (bs[p.2]?).getD []
    let c := 32 * h.jt + p.2
    if h.fmt == .t2 then tritStep x p.1 c a b else floatStep x m s p.1 c ta h.fmt a b)
    { eng := e, flags := if bad then flBadTrit else 0, nan := none }
  { x with eng := { x.eng with steps := KMap.put x.eng.steps h.jt (s + 1) } }

/-! ## The residue pass (R285) -/

/-- Outcome of a residue pass. -/
structure Closing where
  eng    : MatEng
  flags  : Nat
  spills : Nat
  overs  : Nat
  first  : Option (Nat × Nat)

/-- The pass on one lane of column tile `jt`. -/
def closeLane (z : Closing) (m jt i j : Nat) : Closing :=
  let c := 32 * jt + j
  if z.eng.laneState i c ≠ 0 then z
  else
    let x := (z.eng.cross i c).residue z.eng.kind.width 33
    if x.spilt then { z with eng := z.eng.setCross i c x, flags := z.flags ||| flSpill, spills := z.spills + 1 }
    else
      let f := (x.pos ++ x.neg).foldl (· + ·) x.acc
      let r := intRange z.eng.kind.elem
      if f < r.1 ∨ r.2 < f then
        { z with eng := { z.eng with lanes := KMap.put z.eng.lanes (accKey i c) 2 },
                 flags := z.flags ||| flPairOver, overs := z.overs + 1,
                 first := z.first.orElse fun _ => some (16 * m + i, c) }
      else { z with eng := z.eng.setLane i c (lowBits 32 f) }

/-- `MCLOSE`: the engine, flags, and the status word. -/
def MatEng.close (e : MatEng) (m : Nat) : MatEng × Nat × BitVec 64 :=
  match e.bound with
  | none => (e, 0, 0)
  | some jt =>
    if !e.kind.narrow then (e, 0, 0)
    else
      let z := tileLanes.foldl (fun z p => closeLane z m jt p.1 p.2)
        { eng := e, flags := 0, spills := 0, overs := 0, first := none }
      let f := z.first.getD (0, 0)
      ({ z.eng with bound := none, pos := [], neg := [] }, z.flags,
       BitVec.ofNat 64 (z.spills * 2 ^ 16 + z.overs * 2 ^ 26 + f.1 % 256 * 2 ^ 36 + f.2 % 512 * 2 ^ 44))

/-! ## Results (R286) -/

/-- The pattern that a lane without a value stores. -/
def noValue (t : ElemType) : Nat := if isFloat t then fmtNan t else 2 ^ (t.bits - 1)

/-- A row of a column tile as it is stored: its elements with their flags; `g` is the row's Stipple state. The canonical
NaN of a lane without a value is a NaN made from no NaN (R249). -/
def MatEng.storeRow (e : MatEng) (t : ElemType) (rnd : Rnd) (sat : Bool) (g : BitVec 64) (jt i : Nat) : List (Nat × Nat) :=
  (List.range 32).map fun j =>
    let c := 32 * jt + j
    if e.laneState i c ≠ 0 then (noValue t, if isFloat t then flNanMade else 0)
    else convert (if e.kind.elem == .f32 || e.kind.elem == .f64 then e.kind.elem else .i32) t rnd sat (stippleLane g j) (e.lane i c)

/-! ## The state word (R292) -/

/-- Codes of the kinds. -/
def AccKind.code : AccKind → Nat
  | .none => 0 | .narrow8 => 1 | .narrow16 => 2 | .int32 => 3 | .fp32 => 4 | .fp64 => 5

/-- `MSTAT`. -/
def MatEng.word (e : MatEng) : BitVec 64 :=
  let count := fun (k : Nat) => (e.lanes.filter fun p => p.2 == k).length
  let nq := ((e.pos.map (·.1)) ++ (e.neg.map (·.1))).dedup.length
  BitVec.ofNat 64 (count 1 + count 2 * 2 ^ 16 + (if e.bound.isSome then nq else 0) * 2 ^ 30 + e.kind.code * 2 ^ 40
    + bit e.bound.isSome * 2 ^ 43 + e.bound.getD 0 * 2 ^ 44 + bit e.astage.isSome * 2 ^ 48 + e.latch.length * 2 ^ 49
    + (e.n - 1) % 16 * 2 ^ 51 + Nat.log2 e.ring * 2 ^ 55)

end Sys2Proof.Machine
end

