-- ==== Sys2Proof/Machine/Matrix.lean ====
section
/-! DEFINITION. The matrix engine, opcodes 0xA0 to 0xA8 (R277 to R292, R424). -/

namespace Sys2Proof.Machine

/-! ## Footprints (R282, R286) -/

/-- Changes the matrix engine of a core. -/
def State.modMat (s : State) (d c : Nat) (f : MatEng → MatEng) : State :=
  s.modCore d c fun k => { k with mat := f k.mat }

/-- The address of a matrix operand: the faults of R158, those that R282 adds, or the offset in the core's local
memory. -/
def matBase (a align : Nat) : Except (Nat × Nat) Nat :=
  if a / 2 ^ 30 ≠ 0 ∨ a / 2 ^ 24 % 8 = 7 ∨ 5 ≤ a / 2 ^ 27 % 8 then .error (causeUnmapped, a)
  else if a / 2 ^ 24 ≠ 0 ∨ a % align ≠ 0 then .error (causeMisaligned, a)
  else .ok (a % 2 ^ 20)

/-- Range, granule and home checks of chunks of `n` bytes at offsets of the core's local memory. -/
def State.chunkFault (s : State) (c : Context) (a : Nat) (offs : List Nat) (n : Nat) (need : Need) : Option (Nat × Nat) :=
  if offs.any fun o => 2 ^ 20 < o + n then some (causeUnmapped, a)
  else offs.findSome? fun o =>
    let q := localPhys c.die.val c.core.val (indexOf c.core.val) o
    match (s.granuleFault c.region q).orElse fun _ => s.granuleFault c.region (q + n - 1) with
    | some e => some (e, a)
    | none => if s.allowed c.world q n need false then none else some (causePermission, a)

/-- First 4 KiB of the footprint whose layout tag does not match a layout word. -/
def State.tagFault (s : State) (c : Context) (w : BitVec 64) (offs : List Nat) : Option (Nat × Nat) :=
  let want := BitVec.ofNat 8 (128 + laySpan w * 16 + layFmt w)
  let ks := (offs.map fun o => o / 4096).dedup.mergeSort fun x y => decide (x ≤ y)
  (ks.find? fun k => KMap.lookD s.mem.tags (localPhys c.die.val c.core.val (indexOf c.core.val) (4096 * k) / 4096) 0 != want).map
    fun k => (causeLayout, 4096 * k)

/-- Chunks of a whole footprint. -/
def layAll (b : Bool) (base : Nat) (w : BitVec 64) : List Nat :=
  (List.range (layRows b)).flatMap fun q => layRow b base w q

/-! ## Issue (R278) -/

/-- A command takes an entry of the queue, its register goes pending; it waits while both entries are taken. -/
def State.matCmd (s : State) (uid : Nat) (c : Context) (dest : Fin 64) (op : MatOp) : Res :=
  if 2 ≤ (s.core c.die.val c.core.val).mat.queue.length then .wait
  else
    let m : MatCmd := { uid := uid, world := c.world, lid := c.lid, dest := .x dest, op := op, item := c.item, pc := c.pc,
                        srmode := c.srmode, order := c.serial }
    .done ((s.pendReg uid (.x dest)).modMat c.die.val c.core.val fun e => { e with queue := e.queue ++ [m] })

/-- `MLDA` and `MLDB`. -/
def loadStage (op : Nat) (ctl : Ctl) (b : Bool) (xs : Fin 64) (m : MemOp) (xl : XSrc) (s : State) : Out :=
  issue op ctl noPriv [memSrc m, xSrc xl] [.x xs] s fun uid c t =>
    let a := formAddr c m 64
    let w := xVal c xl
    if m.mode ≠ .own then .trap causeIllegal 0
    else orTrap (matBase a 64) fun base =>
      let offs := layAll b base w
      match (t.chunkFault c a offs (layChunk w) .rd).orElse fun _ => if layOk b w then t.tagFault c w offs else none with
      | some e => .trap e.1 e.2
      | none =>
        if !(t.released uid c .core) then .wait
        else t.matCmd uid c xs (if b then .mldb base w else .mlda base w)

def execMlda (ctl : Ctl) (xs : Fin 64) (m : MemOp) (xl : XSrc) (s : State) : Out := loadStage 0xA0 ctl false xs m xl s

def execMldb (ctl : Ctl) (xs : Fin 64) (m : MemOp) (xl : XSrc) (s : State) : Out := loadStage 0xA1 ctl true xs m xl s

/-- A command without a memory operand. -/
def matPlain (op : Nat) (ctl : Ctl) (xs : Fin 64) (rd : List Src) (f : Context → MatOp) (s : State) : Out :=
  issue op ctl noPriv rd [.x xs] s fun uid c t => t.matCmd uid c xs (f c)

def execMma (ctl : Ctl) (xs : Fin 64) (k : XI) (s : State) : Out :=
  matPlain 0xA2 ctl xs (xiSrcs k) (fun c => .mma (xiVal c k)) s

def execMring (ctl : Ctl) (xs : Fin 64) (s : State) : Out := matPlain 0xA3 ctl xs [] (fun _ => .mring) s

def execMzero (ctl : Ctl) (wide : Bool) (xs : Fin 64) (t : XI) (s : State) : Out :=
  matPlain 0xA4 ctl xs (xiSrcs t) (fun c => .mzero wide (xiVal c t)) s

def execMclose (ctl : Ctl) (xs : Fin 64) (s : State) : Out := matPlain 0xA5 ctl xs [] (fun _ => .mclose) s

def execMsta (ctl : Ctl) (t : ElemType) (xs : Fin 64) (m : MemOp) (xc : XSrc) (s : State) : Out :=
  issue 0xA6 ctl noPriv [memSrc m, xSrc xc] [.x xs] s fun uid c q =>
    let a := formAddr c m 32
    let w := xVal c xc
    if m.mode ≠ .own then .trap causeIllegal 0
    else orTrap (matBase a 32) fun base =>
      match q.chunkFault c a ((List.range 16).map fun i => base + i * layStride w) (4 * t.bits) .wr with
      | some e => .trap e.1 e.2
      | none => q.matCmd uid c xs (.msta t base w)

def execMstat (ctl : Ctl) (xd : Fin 64) (s : State) : Out := matPlain 0xA7 ctl xd [] (fun _ => .mstat) s

def execMrcfg (ctl : Ctl) (xs : Fin 64) (cfg : XI) (s : State) : Out :=
  matPlain 0xA8 ctl xs (xiSrcs cfg) (fun c => .mrcfg (xiVal c cfg)) s

/-! ## Commands (R291) -/

/-- How a command that starts comes out. -/
inductive MatRes where
  /-- it has run: the state, its status, flags and first NaN -/
  | fin (s : State) (v : BitVec 64) (fl : Nat) (nan : Option NanCap)
  | wait
  /-- its tile is on its way -/
  | send

/-- An error status: no other effect. -/
def matErr (s : State) (code : Nat) : MatRes := .fin s (errWord code) 0 none

/-- A charge to the region of the command's context. -/
def State.matCharge (s : State) (uid n : Nat) : State :=
  match s.ctx? uid with
  | some c => s.charge c.region (coreKey c.die.val c.core.val) 0 n
  | none => s

/-- Reads rows from local memory; `none` where a word is poisoned. -/
def State.readRows (s : State) (world d c : Nat) (b : Bool) (base : Nat) (w : BitVec 64) : State × Option (List (List Byte)) :=
  let at_ := fun o => localPhys d c (indexOf c) o
  let parts := (layAll b base w).map fun o => (at_ o, layChunk w)
  let s := parts.foldl (fun (s : State) p => s.checkRead world p.1 p.2) s
  if s.anyPoison parts then (s, none)
  else (s, some ((List.range (layRows b)).map fun q => (layRow b base w q).flatMap fun o => s.readBytes world (at_ o) (layChunk w)))

/-- `MLDA`. -/
def State.runMlda (s : State) (k : MatCmd) (d c base : Nat) (w : BitVec 64) : MatRes :=
  if !(layOk false w) then matErr s 0x32
  else match s.readRows k.world d c false base w with
    | (s, none) => matErr s 0x22
    | (s, some rows) => .fin ((s.modMat d c fun e => { e with astage := some (layType w, rows) }).matCharge k.uid 3072) 0 0 none

/-- `MLDB`. A tile that it lands in the cycle of a ring tile's arrival is placed ahead of that tile (R287): in a cycle in
which one has arrived already, it lands none. -/
def State.runMldb (s : State) (k : MatCmd) (d c base : Nat) (w : BitVec 64) : MatRes :=
  if !(layOk true w) then matErr s 0x32
  else if (s.core d c).mat.arrived = some (s.cyc d) then .wait
  else if 2 ≤ (s.core d c).mat.latch.length then matErr s 0x35
  else match s.readRows k.world d c true base w with
    | (s, none) => matErr s 0x22
    | (s, some cols) =>
      .fin ((s.modMat d c fun e => { e with latch := e.latch ++ [{ fmt := layType w, jt := layJt w, cols := cols }] }).matCharge
        k.uid (32 * layBytes true w)) 0 0 none

/-- `MMA`. -/
def State.runMma (s : State) (d c : Nat) (ctl : BitVec 64) : MatRes :=
  let e := (s.core d c).mat
  if ctl.toNat / 2 ≠ 0 then matErr s 0x3A
  else if e.kind = .none then matErr s 0x31
  else match e.held.orElse fun _ => e.astage, e.latch with
    | none, _ => matErr s 0x34
    | some _, [] => if e.ring = 1 then matErr s 0x34 else .wait
    | some a, h :: rest =>
      if e.n ≤ h.jt then matErr s 0x39
      else if !(pairOk a.1 h.fmt e.kind) then matErr s 0x33
      else if e.kind.narrow && e.bound != some h.jt && e.queued then matErr s 0x38
      else
        let e := if e.kind.narrow then { e with bound := some h.jt } else e
        let x := e.multiply (indexOf c % e.ring) a.1 a.2 h
        .fin (s.modMat d c fun _ => if ctl.toNat % 2 = 1 then { x.eng with latch := rest } else x.eng) 0 x.flags x.nan

/-- Index of the next member of a ring. -/
def ringNext (ix ring : Nat) : Nat := ix - ix % ring + (ix % ring + 1) % ring

/-- The core of the next member. -/
def nextCore (c ring : Nat) : Nat := coreAt (clusterOf c) (ringNext (indexOf c) ring)

/-- The next engine can take a tile, cannot yet, or never can (R287). -/
def State.ringTakes (s : State) (d c : Nat) : Option Bool :=
  let e := (s.core d c).mat
  if e.ring = 1 then some true
  else
    let n := (s.core d (nextCore c e.ring)).mat
    match n.owner with
    | none => some false
    | some u =>
      let w := (s.ctx? u).map (·.world)
      let mine := e.owner.bind fun o => (s.ctx? o).map (·.world)
      if w != mine || n.ring != e.ring then none else some (decide (n.latch.length < 2))

/-- The current tile can move to the next latch now. -/
def State.ringMoves (s : State) (d c : Nat) : Bool :=
  s.ringTakes d c == some true && !(s.core d c).mat.latch.isEmpty

/-- `MRING` as it starts. -/
def State.runMring (s : State) (d c : Nat) : MatRes :=
  let e := (s.core d c).mat
  if s.ringTakes d c = none then matErr s 0x36
  else if e.latch.isEmpty ∧ e.ring = 1 then matErr s 0x34
  else .send

/-- The kind that `MZERO` names. -/
def zeroKind (wide : Bool) (t : BitVec 64) : Option AccKind :=
  if wide then (if t = 1 then some .int32 else if t = 6 then some .fp32 else if t = 5 then some .fp64 else none)
  else if t = 3 then some .narrow8 else if t = 2 then some .narrow16 else none

/-- `MZERO`. -/
def State.runMzero (s : State) (d c : Nat) (wide : Bool) (t : BitVec 64) : MatRes :=
  match zeroKind wide t with
  | none => matErr s 0x3A
  | some k =>
    if k = .fp64 ∧ 8 < (s.core d c).mat.n then matErr s 0x39
    else .fin (s.modMat d c fun e => e.zeroed k) 0 0 none

/-- The stepped generator of row `i` of an `MSTA` (R243, R286). The order of R245 does not name the matrix engine's
converter: it requests as the vector converter does (DESIGN CHOICE, log 95). -/
def State.rowGroup (s : State) (k : MatCmd) (d c jt : Nat) (w : BitVec 64) (i : Nat) : BitVec 64 × State :=
  if k.srmode then s.compatStep k.lid (s.lcore k.lid d c) (s.cyc d) .vector
  else
    let r := s.jobSeed k.lid
    let seed := stippleSeed r.1 (k.item * 16 + BitVec.ofNat 64 jt) (BitVec.ofNat 64 (linPc k.pc) ^^^ w)
    ((List.range (i + 1)).foldl (fun g _ => stippleStep g) seed, r.2)

/-- Stores the rows of an `MSTA` from row `i` on: the state, flags, first NaN. -/
def State.storeRows (s : State) (k : MatCmd) (d c base jt : Nat) (t : ElemType) (w : BitVec 64) (steps : Bool) :
    List Nat → Nat → Option NanCap → State × Nat × Option NanCap
  | [], fl, nan => (s, fl, nan)
  | i :: is, fl, nan =>
    let e := (s.core d c).mat
    let g := if steps then s.rowGroup k d c jt w i else (0, s)
    let rs := e.storeRow t (winRnd (bits w.toNat 6 4)) (bits w.toNat 7 7 == 1) g.1 jt i
    let s := g.2.store k.world (localPhys d c (indexOf c) (base + i * layStride w))
      (rs.flatMap fun r => leBytes (t.bits / 8) r.1) (some true)
    let here := (rs.findIdx? fun r => r.2 / flNanMade % 2 == 1).map fun j =>
      tileNan (16 * (indexOf c % e.ring) + i) (32 * jt + j) 0 (nanFmt t e.kind.elem e.kind.elem)
    s.storeRows k d c base jt t w steps is (fl ||| flagsOf rs) (nan.orElse fun _ => here)

/-- `MSTA`. -/
def State.runMsta (s : State) (k : MatCmd) (d c : Nat) (t : ElemType) (base : Nat) (w : BitVec 64) : MatRes :=
  let e := (s.core d c).mat
  let jt := bits w.toNat 3 0
  if !(mstaOk w) then matErr s 0x32
  else if e.kind = .none then matErr s 0x31
  else if e.n ≤ jt then matErr s 0x39
  else if e.kind.narrow && e.bound == some jt && e.queued then matErr s 0x38
  else
    let steps := winRnd (bits w.toNat 6 4) == .sr && !(neverInexact e.kind.elem t)
    let r := s.storeRows k d c base jt t w steps (List.range 16) 0 none
    .fin (r.1.matCharge k.uid (64 * t.bits)) 0 r.2.1 r.2.2

/-- `MRCFG`: the ownership check is a claim. -/
def State.runMrcfg (s : State) (k : MatCmd) (d c : Nat) (cfg : BitVec 64) : MatRes :=
  let lg := bits cfg.toNat 2 0
  if cfg.toNat / 256 ≠ 0 ∨ bits cfg.toNat 3 3 = 1 ∨ (4 < lg ∧ lg ≠ 7) then matErr s 0x3A
  else if lg = 7 then .fin (s.modMat d c fun e => e.released) 0 0 none
  else .fin (s.modMat d c fun e => e.configured k.uid (2 ^ lg) (bits cfg.toNat 7 4 + 1)) 0 0 none

/-- The operation of a command that may run. -/
def State.runMat (s : State) (k : MatCmd) (d c : Nat) : MatRes :=
  match k.op with
  | .mlda base w => s.runMlda k d c base w
  | .mldb base w => s.runMldb k d c base w
  | .mma ctl => s.runMma d c ctl
  | .mring => s.runMring d c
  | .mzero wide t => s.runMzero d c wide t
  | .mclose =>
    let r := (s.core d c).mat.close (indexOf c % (s.core d c).mat.ring)
    .fin (s.modMat d c fun _ => r.1) r.2.2 r.2.1 none
  | .msta t base w => s.runMsta k d c t base w
  | .mstat => .fin s (s.core d c).mat.word 0 none
  | .mrcfg cfg => s.runMrcfg k d c cfg

/-- The command is an `MRCFG`. -/
def MatOp.isCfg : MatOp → Bool
  | .mrcfg _ => true
  | _ => false

/-- The ownership check of R277, and the command. -/
def State.startMat (s : State) (k : MatCmd) (d c : Nat) : MatRes :=
  match (s.core d c).mat.owner with
  | some o => if o = k.uid then s.runMat k d c else matErr s 0x30
  | none => if k.op.isCfg then s.runMat k d c else matErr s 0x30

/-- The fill of a matrix status (R278). -/
def matFill (k : MatCmd) (v : BitVec 64) (fl : Nat) (nan : Option NanCap) : Fill :=
  { valueFill k.dest v with flags := flagBits fl, nan := nan.map fun n => n.by k.order }

/-- The command runs in the load unit. -/
def MatOp.isLoad : MatOp → Bool
  | .mlda .. | .mldb .. | .mring => true
  | _ => false

/-- The command neither reads nor changes the latch: `MZERO`, `MCLOSE` and `MSTA`. -/
def MatOp.latchFree : MatOp → Bool
  | .mzero .. | .mclose | .msta .. => true
  | _ => false

/-- The command fills the A stage. -/
def MatOp.fillsStage : MatOp → Bool
  | .mlda .. => true
  | _ => false

/-- A command may start (R279): its unit is free, and what it reads is complete. Behind an `MRING` that holds the load
unit, the owner's commands start that leave the latch alone: which tile is current depends on that `MRING`. Behind an
`MMA` that waits for its tile in the array unit, an `MLDA` starts, since the A stage is double-buffered; `MLDB` and `MRING`
do not, since which tile is current depends on that `MMA` (log 108). -/
def MatEng.mayStart (e : MatEng) (k : MatCmd) : Bool :=
  (e.array.isNone || (k.op.isLoad && (e.owner != some k.uid || k.op.fillsStage)))
    && (e.sending.isNone || (!k.op.isLoad && (e.owner != some k.uid || k.op.latchFree)))

/-- The `MMA` in the array unit runs, where its tile has come. -/
def State.runArray (s : State) (k : MatCmd) (d c : Nat) : State :=
  match s.startMat k d c with
  | .fin t v fl nan => (t.modMat d c fun e => { e with array := none, held := none }).pushFill k.uid (matFill k v fl nan)
  | _ => s

/-- The command at the head of the queue starts: it runs, waits in its unit, or stays. -/
def State.startHead (s : State) (k : MatCmd) (d c : Nat) : State :=
  let pop := fun (t : State) => t.modMat d c fun e => { e with queue := e.queue.drop 1 }
  match s.startMat k d c with
  | .fin t v fl nan => (pop t).pushFill k.uid (matFill k v fl nan)
  | .wait => if k.op.isLoad then s
    else (pop s).modMat d c fun e => { e with array := some (k, s.cyc d), held := e.astage }
  | .send => (pop s).modMat d c fun e =>
      { e with sending := some k, since := if s.ringMoves d c then none else some (s.cyc d) }

/-- The command at the head starts, where it may. -/
def State.startNext (s : State) (d c : Nat) : State :=
  let e := (s.core d c).mat
  match e.queue with
  | [] => s
  | k :: _ => if e.mayStart k then s.startHead k d c else s

/-- MATRIX_COMMAND_START (R279): an `MMA` that waits in the array unit goes on once its tile has come, or the command at
the head starts. A command frees its entry of the queue when it starts (R257). -/
def execMatrixCommandStart (d : DieNo) (c : CoreNo) (s : State) : Out :=
  let e := (s.core d.val c.val).mat
  match e.array with
  | some p => .next (if e.latch.isEmpty then s.startNext d.val c.val else s.runArray p.1 d.val c.val)
  | none => .next (s.startNext d.val c.val)

/-- Moves the current tile of a core to the tail of the next latch. -/
def State.moveTile (s : State) (d c : Nat) (h : Tile) : State :=
  let n := if (s.core d c).mat.ring = 1 then c else nextCore c (s.core d c).mat.ring
  (s.modMat d c fun e => { e with latch := e.latch.drop 1 }).modMat d n fun e =>
    { e with latch := e.latch ++ [h], arrived := some (s.cyc d) }

/-- The `MRING` in the load unit is done. -/
def State.endRing (s : State) (k : MatCmd) (d c code : Nat) : State :=
  (s.modMat d c fun e => { e with sending := none, since := none }).pushFill k.uid
    (matFill k (if code = 0 then 0 else errWord code) 0 none)

/-- RING_TILE_ARRIVAL (R287): the tile reaches the next latch, where that takes it, and its status fills; else it waits. -/
def execRingTileArrival (d : DieNo) (c : CoreNo) (s : State) : Out :=
  let e := (s.core d.val c.val).mat
  match e.sending with
  | none => .next s
  | some k =>
    match s.ringTakes d.val c.val, e.latch with
    | none, _ => .next (s.endRing k d.val c.val 0x36)
    | some true, h :: _ =>
      .next (((s.moveTile d.val c.val h).matCharge k.uid (if h.fmt = .t2 then 1536 else 6144)).endRing k d.val c.val 0)
    | _, _ => .next (s.modMat d.val c.val fun e => { e with since := e.since.orElse fun _ => some (s.cyc d.val) })

/-- A wait that began at a cycle has lasted 65,536 cycles. -/
def State.ringLate (s : State) (d t : Nat) : Bool := decide (t + 65536 ≤ s.cyc d)

/-- RING_TIMEOUT (R287): a wait of 65,536 cycles ends, of the `MRING` in the load unit or of the `MMA` in the array unit;
the tile stays in place. -/
def execRingTimeout (d : DieNo) (c : CoreNo) (s : State) : Out :=
  let e := (s.core d.val c.val).mat
  if e.since.any (fun t => s.ringLate d.val t) && !(s.ringMoves d.val c.val) then
    match e.sending with
    | some k => .next (s.endRing k d.val c.val 0x37)
    | none => .next s
  else match e.array with
    | some p =>
      if s.ringLate d.val p.2 && e.latch.isEmpty then
        .next ((s.modMat d.val c.val fun e => { e with array := none, held := none }).pushFill p.1.uid
          (matFill p.1 (errWord 0x37) 0 none))
      else .next s
    | none => .next s

end Sys2Proof.Machine
end

