-- ==== Sys2Proof/Machine/Tree.lean ====
section
/-! DEFINITION. The mapping tree: `MAP`, `GRANT`, `UNMAP`, `PROBE`, `SPACE` and `RETIRESP` as operations of a space (R129
to R131, R139 to R146, R149 to R151), which the instructions and the host's tree commands share, and the end of a
withdrawal (R144). -/

namespace Sys2Proof.Machine

/-! ## Extents (R129, R130) -/

/-- Adjacent pieces that go on from one another are one piece. -/
def backMerge : List (Nat × Nat) → List (Nat × Nat)
  | [] => []
  | (p, l) :: t => match backMerge t with
    | (q, m) :: r => if q = p + l then (p, l + m) :: r else (p, l) :: (q, m) :: r
    | [] => [(p, l)]

/-- Path code of an extent (R146): 1, 2, 3 for a page of 64 KiB, 2 MiB, 1 GiB; 0 for the range path. -/
def pathCode (addr len : Nat) (back : List (Nat × Nat)) : Nat :=
  match backMerge back with
  | [(p, _)] =>
    let ok := decide (addr % len = 0) && decide (p % len = 0)
    if ok && len == 2 ^ 16 then 1 else if ok && len == 2 ^ 21 then 2 else if ok && len == 2 ^ 30 then 3 else 0
  | _ => 0

/-- The node takes the range path. -/
def Node.isRange (n : Node) : Bool := pathCode n.addr n.len n.back == 0

/-- The least number from `k` on that rising keys do not list. -/
def firstGap {α : Type} : KMap α → Nat → Nat
  | [], k => k
  | (a, _) :: t, k => if a < k then firstGap t k else if a = k then firstGap t (k + 1) else k

/-- The id of a new node of a space: in the range of die (space mod 8), at the lowest free index. -/
def freshId (m : KMap Node) (sp : Nat) : Nat := firstGap m (sp % 8 * 2 ^ 16)

/-- Every node lies in the range of its space, and no space holds more than 4,096 range-path extents. -/
def treeFits (m : KMap Node) : Bool :=
  (m.all fun p => p.1 / 2 ^ 16 == p.2.space % 8 && p.1 % 2 ^ 16 != 65535) &&
    (m.map fun p => p.2.space).dedup.all fun sp =>
      decide ((m.filter fun p => p.2.space == sp && p.2.isRange).length ≤ 4096)

/-! ## Splitting (R142) -/

/-- Live children of a node in a map of nodes. -/
def kids (m : KMap Node) (id : Nat) : List (Nat × Node) := m.filter fun p => p.2.parent == some id && !p.2.cut

/-- Splits a node at an offset within it, and its descendants at the same point: the map, and the id of the right
part. -/
def splitNode : Nat → KMap Node → Nat → Nat → KMap Node × Nat
  | 0, m, id, _ => (m, id)
  | f + 1, m, id, o =>
    match KMap.look m id with
    | none => (m, id)
    | some n =>
      let r := freshId m n.space
      let cs := kids m id
      let m := KMap.put m id { n with len := o, back := backSlice n.back 0 o }
      let m := KMap.put m r
        { n with addr := n.addr + o, len := n.len - o, back := backSlice n.back o (n.len - o), off := n.off + o,
                 rootAt := n.rootAt.map (· + o) }
      (cs.foldl (fun m c =>
        if c.2.off + c.2.len ≤ o then m
        else if o ≤ c.2.off then KMap.put m c.1 { c.2 with parent := some r, off := c.2.off - o }
        else
          let q := splitNode f m c.1 (o - c.2.off)
          KMap.modify q.1 q.2 fun x => { x with parent := some r, off := 0 }) m, r)

/-- A node and its live descendants in a map of nodes. -/
def below (m : KMap Node) : Nat → Nat → List Nat
  | 0, _ => []
  | f + 1, id => id :: (kids m id).flatMap fun c => below m f c.1

/-- The descendants of a node take the AND of their rights and its new rights (R142). -/
def narrow (m : KMap Node) (id : Nat) (rights : BitVec 8) : KMap Node :=
  (below m treeFuel id).foldl (fun m k => KMap.modify m k fun n => { n with rights := n.rights &&& rights }) m

/-! ## What a space holds (R140) -/

/-- A node that a space holds over a range: the stored node, if it is one, its memory, rights and depth, and the offset of
the range within it. -/
structure Held where
  id     : Option Nat
  back   : List (Nat × Nat)
  rights : BitVec 8
  depth  : Nat
  off    : Nat

/-- The live node of a space that covers a range. -/
def State.holds (s : State) (sp a n : Nat) : Option Held :=
  if sp = 0 then
    match s.rootNode a with
    | some (b, l) =>
      if within a n b l && !(s.rootGone a n) then
        some { id := none, back := [(a, n)], rights := 0x1F, depth := 0, off := a }
      else none
    | none => none
  else match s.nodeAt sp a n with
    | some (id, x) =>
      some { id := some id, back := backSlice x.back (a - x.addr) n, rights := x.rights, depth := x.depth, off := a - x.addr }
    | none => none

/-- The space is live (R149). -/
def State.spaceLive (s : State) (t : Nat) : Bool := t == 0 || KMap.has s.spaces t

/-! ## Requests (R139) -/

structure MapReq where
  rights : Nat
  dst : Nat
  len : Nat
  src : Nat

/-- The request of 32 bytes. -/
def mapReq (n : Nat) : MapReq :=
  { rights := bits n 199 192, dst := bits n 191 128, len := bits n 127 64, src := bits n 63 0 }

/-- The memory holds part of a register page, and the extent is not that page (R136). -/
def State.splitsPage (s : State) (addr len : Nat) (back : List (Nat × Nat)) : Bool :=
  (back.any fun p => match s.homeOf p.1 with
    | .page => true
    | _ => false) && pathCode addr len back != 1

/-- The checks of R140 in order, or the source's node and the target space. A target range that passes 2^64, for which the
rule names no check, answers bad_extent (DESIGN CHOICE, log 99). The rule gives the split of a register page (R136) no place in
its order: it is part of the first check, before no_space and rights_exceeded (DESIGN CHOICE, log 129). -/
def State.mapCheck (s : State) (n sp t : Nat) (isMap : Bool) : Except Nat Held :=
  let r := mapReq n
  let h := s.holds sp r.src r.len
  let bad := bits n 255 200 != 0 || r.rights / 32 != 0 || r.len == 0 || r.len % 8 != 0 || r.src % 8 != 0 || r.dst % 8 != 0
    || decide (2 ^ 64 < r.dst + r.len)
    || match h with
      | some h => s.splitsPage r.dst r.len h.back
      | none => false
  if bad then .error 0x14
  else if t = 0 || !(KMap.has s.spaces t) then .error 0x15
  else match h with
    | none => .error 0x10
    | some h =>
      let rights := BitVec.ofNat 8 r.rights
      if rights &&& ~~~h.rights ≠ 0 ∨ h.rights.getLsbD 3 = false then .error 0x11
      else if isMap && h.depth == 16 then .error 0x13
      else if s.nodes.any fun p => p.2.space == t && !p.2.cut && overlaps r.dst r.len p.2.addr p.2.len then .error 0x17
      else .ok h

/-- MAP (R141): the state, and the status. -/
def State.treeMap (s : State) (n sp t : Nat) : State × BitVec 64 :=
  match s.mapCheck n sp t true with
  | .error e => (s, errWord e)
  | .ok h =>
    let r := mapReq n
    let id := freshId s.nodes t
    let x : Node :=
      { space := t, addr := r.dst, len := r.len, back := backMerge h.back, rights := BitVec.ofNat 8 r.rights, parent := h.id,
        off := h.off, depth := h.depth + 1, gen := s.gens, birth := s.gens, rootAt := none, cut := false }
    let m := KMap.put s.nodes id x
    if treeFits m then ({ s with nodes := m, gens := s.gens + 1 }, BitVec.ofNat 64 id) else (s, errWord 0x12)

/-! ## GRANT (R142) -/

/-- Moves a node to an address of a space, with new rights: the map, and its id. -/
def moveNode (m : KMap Node) (id t dst : Nat) (rights : BitVec 8) : KMap Node × Nat :=
  match KMap.look m id with
  | none => (m, id)
  | some n =>
    let x := { n with space := t, addr := dst, rights := rights, back := backMerge n.back }
    if n.space % 8 = t % 8 then (narrow (KMap.put m id x) id rights, id)
    else
      let k := freshId m t
      let cs := kids m id
      let m := KMap.put (KMap.del m id) k x
      let m := cs.foldl (fun m c => KMap.modify m c.1 fun y => { y with parent := some k }) m
      (narrow m k rights, k)

/-- The map after a grant of `[o, o + len)` of a stored node. -/
def grantNode (m : KMap Node) (id o len t dst : Nat) (rights : BitVec 8) : KMap Node × Nat :=
  match KMap.look m id with
  | none => (m, id)
  | some n =>
    let a := if o = 0 then (m, id) else splitNode treeFuel m id o
    let b := if o + len = n.len then a.1 else (splitNode treeFuel a.1 a.2 len).1
    moveNode b a.2 t dst rights

/-- The map after a grant of a piece of a root node: the nodes mapped from it become its children. -/
def grantRoot (m : KMap Node) (birth src len t dst : Nat) (rights : BitVec 8) : KMap Node × Nat :=
  let id := freshId m t
  let x : Node :=
    { space := t, addr := dst, len := len, back := [(src, len)], rights := rights, parent := none, off := src, depth := 0,
      gen := birth, birth := birth, rootAt := some src, cut := false }
  let tops := fun (m : KMap Node) => m.filter fun p => p.2.parent.isNone && p.2.rootAt.isNone && !p.2.cut && overlaps p.2.off p.2.len src len
  let m := KMap.put m id x
  let m := (tops m).foldl (fun m p => if p.2.off < src then (splitNode treeFuel m p.1 (src - p.2.off)).1 else m) m
  let m := (tops m).foldl (fun m p => if src + len < p.2.off + p.2.len then (splitNode treeFuel m p.1 (src + len - p.2.off)).1 else m) m
  let m := (tops m).foldl (fun m p => KMap.put m p.1 { p.2 with parent := some id, off := p.2.off - src }) m
  (narrow m id rights, id)

/-- The memory behind an extent holds the byte. -/
def backHas (back : List (Nat × Nat)) (a : Nat) : Bool := back.any fun p => decide (p.1 ≤ a) && decide (a < p.1 + p.2)

/-- Address in a node's extent of a byte of the memory behind it. -/
def Node.vaOf (n : Node) (a : Nat) : Option Nat := (offsetIn a n.back 0).map (n.addr + ·)

/-- What a grant changes: the nodes before it, the piece of a root node granted, if it is one, with its new node, and the
mark of what it cuts. -/
structure Granted where
  old  : KMap Node
  root : Option (Nat × Nat × Nat)
  mark : Nat

/-- The node that covers a byte of memory after a grant, for what was translated through node `h` before it: the part of
that node at the same address of the same space. -/
def Granted.cover (g : Granted) (new : KMap Node) (h a : Nat) : Option (Nat × Node) :=
  match KMap.look g.old h with
  | none => none
  | some n => new.find? fun p =>
      p.2.birth == n.birth && p.2.space == n.space && !p.2.cut && (p.2.vaOf a).isSome && p.2.vaOf a == n.vaOf a

/-- A path of translation of a byte of memory after a grant: none when the translation is cut (R142). -/
def State.rePath (s : State) (g : Granted) (path : List Nat) (a : Nat) (need : Need) : Option (List Nat) :=
  match path with
  | [] => some []
  | h :: _ =>
    if h = rootId then match g.root with
      | some r => if overlaps a 1 r.1 r.2.1 then none else some path
      | none => some path
    else if rootId < h then some path
    else match g.cover s.nodes h a with
    | none => none
    | some (id, n) => if need.okFor n.rights then some (s.pathUp treeFuel id) else none

/-- The path of an access to segments after a grant: the mark of the grant where some of it is cut. -/
def State.reNodes (s : State) (g : Granted) (path : List Nat) (parts : List (Nat × Nat)) (need : Need) : List Nat :=
  match parts with
  | [] => path
  | p :: _ =>
    match s.rePath g path p.1 need with
    | none => [g.mark]
    | some q => if parts.all fun x => (s.rePath g path (x.1 + x.2 - 1) need).isSome then q else [g.mark]

/-- An access already translated, after a grant. -/
def State.reAcc (s : State) (g : Granted) (need : Need) (a : Acc) : Acc :=
  { a with nodes := s.reNodes g a.nodes a.parts need }

/-- What a waiting access needs of its node. -/
def waiterNeed (w : Waiter) : Need :=
  match w.op with
  | .store .. | .remote .. => .wr
  | _ => .rd

/-- A buffered store after a grant. -/
def State.reEntry (s : State) (g : Granted) (e : SEntry) : SEntry := { e with acc := s.reAcc g .wr e.acc }

/-- A fill after a grant. -/
def State.reFill (s : State) (g : Granted) (f : Fill) : Fill :=
  { f with src := match f.src with
    | .load a => .load (s.reAcc g .rd a)
    | .feget a => .feget (s.reAcc g .rd a)
    | .atom a op w b => .atom (s.reAcc g .rw a) op w b
    | .evid r a n => .evid r (s.reAcc g .wr a) n
    | x => x }

/-- A request to another package after a grant. -/
def State.reOutst (s : State) (g : Granted) (o : Outst) : Outst :=
  { o with todo := match o.todo with
    | .fill u d a q x => .fill u d (s.reAcc g .rd a) q x
    | .sync u d a q f => .sync u d (s.reAcc g .rd a) q f
    | x => x }

/-- A waiting access after a grant, which has not cut it. -/
def State.reWaiter (s : State) (g : Granted) (w : Waiter) : Waiter :=
  { w with nodes := (s.rePath g w.nodes w.word (waiterNeed w)).getD w.nodes
           op := match w.op with
             | .load u d a c l b p q => .load u d (s.reAcc g .rd a) c l b p q
             | .store u a l => .store u (s.reAcc g .wr a) l
             | x => x }

/-- A monitor entry after a grant. -/
def State.grantedMon (s : State) (g : Granted) (now : Nat) (m : Mon) : Mon :=
  match s.rePath g m.nodes m.addr .rd with
  | some p => { m with nodes := p }
  | none => m.withdrawn now

/-- The nodes that now translate a range of a space, with those above them; none where some byte of it has none. -/
def State.coverPaths (s : State) (sp a n : Nat) : Option (List Nat) :=
  if sp = 0 then (s.translate 0 a n).map (·.nodes)
  else
    let ns := s.nodes.filter fun p => p.2.space == sp && !p.2.cut && overlaps a n p.2.addr p.2.len
    if (ns.map fun p => min (a + n) (p.2.addr + p.2.len) - max a p.2.addr).sum = n then
      some (ns.flatMap fun p => s.pathUp treeFuel p.1)
    else none

/-- A master after a grant: the nodes that cover its data and its tracking area now, which a withdrawal may cut (R326). -/
def State.grantedMaster (s : State) (m : Master) : Master :=
  let n := m.desc.toNat
  let rs := (msTrack n, trackBytes m.desc) :: (msRows n).map fun r => (msBase n + r, msD0 n * msElem n)
  match rs.mapM fun r => s.coverPaths m.space r.1 r.2 with
  | some ps => { m with nodes := ps.flatten.dedup }
  | none => { m with views := KMap.mapVals m.views fun _ v => v.fail causeUnmapped }

/-- A migration after a grant: its source page is that of the node that has its memory now, in whichever space. -/
def State.grantedMove (s : State) (g : Granted) (m : Move) : Move :=
  let a := (m.pairs.headD (0, 0, 0)).1
  match m.nodes with
  | [] => (match g.root with
    | some r => if overlaps a 1 r.1 r.2.1 then { m with nodes := [r.2.2] } else m
    | none => m)
  | h :: _ => match KMap.look g.old h with
    | none => m
    | some n => (match s.nodes.find? fun p => p.2.birth == n.birth && (p.2.vaOf a).isSome with
      | some p => { m with nodes := s.pathUp treeFuel p.1 }
      | none => m)

/-- What waits on translations that a grant cuts ends; what goes on has its path anew (R142, R143). -/
def State.cutByGrant (s : State) (g : Granted) : State :=
  let gone := fun (w : Waiter) => (s.rePath g w.nodes w.word (waiterNeed w)).isNone
  let hit := s.retry.filter gone
  let keep := s.retry.filter fun (w : Waiter) => !(gone w)
  let s := hit.foldl (fun (s : State) w => s.cancelWait w) { s with retry := keep }
  let s := (s.farWaits fun o => match o.todo with
    | .sync _ _ acc _ _ => (s.rePath g acc.nodes (partAt acc.parts 0) .rd).isNone
    | _ => false).foldl (fun (s : State) q => s.cancelFar q.1 q.2.1 q.2.2) s
  ({ s with
    retry := s.retry.map (s.reWaiter g)
    ctxs := KMap.mapVals s.ctxs fun _ c => { c with sbuf := c.sbuf.map (s.reEntry g), fills := c.fills.map (s.reFill g) }
    dies := KMap.mapVals s.dies fun _ d =>
      { d with monitors := KMap.mapVals d.monitors fun _ m => s.grantedMon g d.cyc m
               ni := { d.ni with outst := KMap.mapVals d.ni.outst fun _ o => s.reOutst g o } }
    masters := KMap.mapVals s.masters fun _ m => s.grantedMaster m
    moves := s.moves.map (s.grantedMove g) } : State).endFaulted

/-- GRANT: the state, and the status unless it comes after the shootdown. -/
def State.treeGrant (s : State) (n sp t : Nat) (k : Sink) : State × Option (BitVec 64) :=
  match s.mapCheck n sp t false with
  | .error e => (s, some (errWord e))
  | .ok h =>
    let r := mapReq n
    let rights := BitVec.ofNat 8 r.rights
    let g := match h.id with
      | some id => grantNode s.nodes id h.off r.len t r.dst rights
      | none => grantRoot s.nodes s.gens r.src r.len t r.dst rights
    if !(treeFits g.1) then (s, some (errWord 0x12))
    else
      let mark := 2 ^ 19 + s.gens
      let root := if h.id.isNone then some (r.src, r.len, g.2) else none
      let u := ({ s with nodes := g.1, gens := s.gens + 1 }).cutByGrant { old := s.nodes, root := root, mark := mark }
      let v := BitVec.ofNat 64 g.2
      if u.settled [mark] h.back then (u, some v)
      else ({ u with grants := u.grants ++ [{ sink := k, nodes := [mark], parts := h.back, value := v }] }, none)

/-! ## UNMAP and PROBE (R143, R146) -/

/-- The node is at or below a node of the issuing space; space 0 holds every node. -/
def State.atOrBelow (s : State) (sp id : Nat) : Bool :=
  sp == 0 || (s.pathUp treeFuel id).any fun k => match KMap.look s.nodes k with
    | some n => n.space == sp
    | none => false

/-- A space id from an operand: higher bits must be zero, and the space live. -/
def State.spaceArg (s : State) (t : Nat) : Bool := decide (t < 2 ^ 16) && s.spaceLive t

/-- A root node covers the byte (R129). -/
def State.rootCovers (s : State) (va : Nat) : Bool :=
  match s.rootNode va with
  | some (b, l) => within va 1 b l && !(s.rootGone va 1)
  | none => false

/-- UNMAP: an error status, or the withdrawal begins and its status comes with the end of its walk. The Burin holds no
record of a root node that it could cut: space 0 that names one is answered not_mapped (log 46). -/
def State.treeUnmap (s : State) (sp va t : Nat) (k : Sink) : State × Option (BitVec 64) :=
  if !(s.spaceArg t) then (s, some (errWord 0x15))
  else if t = 0 then (s, some (errWord (if sp ≠ 0 ∧ s.rootCovers va then 0x10 else 0x18)))
  else match s.nodeAt t va 1 with
    | none => (s, some (errWord 0x18))
    | some (id, _) =>
      if s.atOrBelow sp id then (s.startWalk (s.subtree treeFuel id) k none, none) else (s, some (errWord 0x10))

/-- Kind of the memory behind an address (R146): 0 memory, 1 a private and 2 a shared register page. -/
def memKind (a : Nat) : Nat :=
  match pageKind a with
  | some .privatePage => 1
  | some .shared => 2
  | none => 0

/-- A probe status. The page that a `MOVEPG` holds is its source page (DESIGN CHOICE, log 100). -/
def State.probeWord (s : State) (id depth path pa : Nat) (rights : BitVec 8) : BitVec 64 :=
  BitVec.ofNat 64 (id * 2 ^ 26 + depth * 2 ^ 21 + path * 2 ^ 19 + bit (s.migrating [(pa, 1)]) * 2 ^ 18 + memKind pa * 2 ^ 16
    + rights.toNat)

/-- PROBE. -/
def State.treeProbe (s : State) (sp va t : Nat) : BitVec 64 :=
  if !(s.spaceArg t) then errWord 0x15
  else if t = 0 then
    match s.rootNode va with
    | some (b, l) =>
      if s.rootGone va 1 || !(within va 1 b l) then errWord 0x18
      else if sp = 0 then s.probeWord 0x7FFFF 0 (pathCode b l [(b, l)]) va 0x1F
      else errWord 0x10
    | none => errWord 0x18
  else match s.nodeAt t va 1 with
    | none => errWord 0x18
    | some (id, n) =>
      if s.atOrBelow sp id then
        s.probeWord id n.depth (pathCode n.addr n.len n.back) (match backSlice n.back (va - n.addr) 1 with
          | p :: _ => p.1
          | [] => 0) n.rights
      else errWord 0x10

/-! ## SPACE and RETIRESP (R150, R151) -/

/-- SPACE: the lowest free id. -/
def State.treeSpace (s : State) (sp g : Nat) : State × BitVec 64 :=
  let r := g % 2 ^ 32
  if r = 0 then (s, errWord 0x14)
  else if s.spaces.any fun p => p.2.region == r then (s, errWord 0x16)
  else if 16384 ≤ s.spaces.length then (s, errWord 0x12)
  else
    let used : KMap Unit := s.walks.foldl (fun m w => match w.retire with
      | some t => KMap.put m t ()
      | none => m) (s.spaces.map fun p => (p.1, ()))
    let id := firstGap used 1
    ({ s with spaces := KMap.put s.spaces id { region := r, creator := sp } }, BitVec.ofNat 64 id)

/-- Live work in a space: a continuation or a launch. -/
def State.spaceBusy (s : State) (t : Nat) : Bool :=
  (s.ctxs.any fun p => p.2.space == t && p.2.state != .retired) || s.launches.any fun p => p.2.space == t

/-- RETIRESP. -/
def State.treeRetire (s : State) (sp t : Nat) (k : Sink) : State × Option (BitVec 64) :=
  if 2 ^ 16 ≤ t then (s, some (errWord 0x15))
  else match KMap.look s.spaces t with
    | none => (s, some (errWord 0x15))
    | some x =>
      if sp ≠ 0 ∧ x.creator ≠ sp then (s, some (errWord 0x10))
      else if s.spaceBusy t then (s, some (errWord 0x16))
      else ((s.dropSpace t).startWalk (s.spaceNodes t) k (some t), none)

/-- A status fills its register at once, or goes to its sink. -/
def State.sinkNow (s : State) (k : Sink) (v : BitVec 64) : State :=
  match k with
  | .reg t => s.landWord t.uid t.dest v
  | k => s.sink k v

/-- UNMAP_WALK_DONE (R144): withdrawal `k` has shot down and walked; after the withdrawals are counted the grants that wait
for their shootdown. The nodes leave their limits, and a retired id may be used again, as the status fills (R144, R151). -/
def execUnmapWalkDone (k : Nat) (s : State) : Out :=
  match s.walks[k]? with
  | some w =>
    if s.settled w.nodes (s.backOf w.nodes) then
      let q := s.draw
      .next ((({ q.2 with walks := q.2.walks.eraseIdx k }).freeNodes w.nodes).sinkNow w.sink (walkStatus w.nodes.length q.1))
    else .next s
  | none => match s.grants[k - s.walks.length]? with
    | some g =>
      if s.settled g.nodes g.parts then
        .next (({ s with grants := s.grants.eraseIdx (k - s.walks.length) }).sinkNow g.sink g.value)
      else .next s
    | none => .next s

end Sys2Proof.Machine
end

