-- ==== Sys2Proof/Machine/Fills.lean ====
section
/-! DEFINITION. `PUBLISH` and `OBSERVE` (R390 to R392), `EVID` (R380 to R382), `DBGBRK` (R412), `ILL` (R41), `DONE`
(R96), and the fills of long producers (R55, R56, R186, R187). -/

namespace Sys2Proof.Machine

/-! ## Issue -/

/-- `PUBLISH` and `OBSERVE` issue: the range is worked through later (R390). -/
def poolOp (op : Nat) (ctl : Ctl) (observe : Bool) (xs : Fin 64) (m : MemOp) (len : XI) (s : State) : Out :=
  issue op ctl noPriv (memSrc m :: xiSrcs len) [.x xs] s fun uid c t =>
    let a := formAddr c m 64
    if a % 64 ≠ 0 then .trap causeMisaligned a
    else
      let n := (xiVal c len).toNat
      if n = 0 then .done (t.loadLater uid (.x xs) (.value 0) observe)
      else if n % 64 ≠ 0 ∨ 2 ^ 26 < n then .done (t.loadLater uid (.x xs) (.value ((errWord 0x71).setWidth 1024)) observe)
      else .done (t.loadLater uid (.x xs) (.pool observe a n c.serial) observe)

/-- PUBLISH. -/
def execPublish (ctl : Ctl) (xs : Fin 64) (m : MemOp) (len : XI) (s : State) : Out :=
  poolOp 0x4A ctl false xs m len s

/-- OBSERVE is an acquire (R392). -/
def execObserve (ctl : Ctl) (xs : Fin 64) (m : MemOp) (len : XI) (s : State) : Out :=
  poolOp 0x4B ctl true xs m len s

/-- EVID: the request line is copied at issue, and the reply is checked as a store after it (R40, R380). -/
def execEvid (ctl : Ctl) (xs : Fin 64) (m : MemOp) (xr : XSrc) (s : State) : Out :=
  issue 0xF0 ctl inSlot6 [memSrc m, xSrc xr] [.x xs] s fun uid c t =>
    let r := (xVal c xr).toNat
    (t.readBlock uid c ctl.loc m 64).into fun t bs =>
      orTrap (t.resolveGlobal c.world c.space (c.slot == some 7) r 256 64 .wr) fun reply =>
        if !(t.released uid c (t.vaScope c (formAddr c m 64) 64)) then .wait
        else if 64 ≤ t.responderLoad then .done (t.produceWord uid (.x xs) (errWord 0x70))
        else .done ({ t with nextOrder := t.nextOrder + 1 }.produce uid
          { dest := .x xs, also := none, src := .evid bs reply t.nextOrder, flags := 0, nan := none, acq := none })

/-- DBGBRK: it breaks in a debugged context whose entry has the break bit (R412). -/
def execDbgbrk (ctl : Ctl) (s : State) : Out :=
  issue 0xF1 ctl noPriv [] [] s fun _ c t =>
    if t.debugBit c true then .trapAt causeBreak c.pc.toNat (succPc c.pc) else .done t

/-- ILL faults whatever its other fields hold. -/
def execIll (_ : BitVec 88) (s : State) : Out :=
  match s.ctx? s.issuing with
  | none => .fault .noIssuingContext
  | some c => .next (s.takeFault s.issuing 0xFF causeIllegal 0 c.pc)

/-! ## DONE (R96) -/

/-- The matrix engines that a context owns are released (R277), on whichever core they are. -/
def State.releaseMat (s : State) (uid : Nat) : State :=
  { s with cores := KMap.mapD s.cores Core.empty fun k =>
      if k.mat.owner = some uid then { k with mat := k.mat.released } else k }

/-- What the end of a landing handler does to its packet (R88, R307, R359). -/
def State.landPacket (s : State) (c : Context) : State :=
  match c.landing with
  | some (.copy d k num _ len _) => s.landCopy c d k num len
  | some (.bulk d post seq off _ len _) => s.landBulk c d post seq off len
  | none => s

/-- DONE issues only when no register of its context is pending. -/
def execDone (ctl : Ctl) (s : State) : Out :=
  issue 0x09 ctl noPriv [] [] s fun uid c t =>
    if c.anyPend then .wait
    else .done (((t.releaseMat uid).landPacket c).endContext uid)

/-! ## Fences (R186, R187) -/

/-- Entries of a store buffer before the marker of a fence. -/
def beforeMarker (id : Nat) (es : List SEntry) : List SEntry :=
  es.takeWhile fun e => match e.op with
    | .marker k => k != id
    | _ => true

/-- The fill is a load or an atomic that has not been performed. -/
def Fill.isAccess (f : Fill) : Bool :=
  match f.src with
  | .load _ | .feget _ | .atom .. => true
  | _ => false

/-- A load, atomic or synchronising access of the context at another package has not been answered. -/
def State.remoteAccess (s : State) (uid : Nat) : Bool :=
  s.dies.any fun d => d.2.ni.outst.any fun o => match o.2.todo with
    | .fill u _ _ _ _ | .sync u _ _ _ _ => u == uid
    | _ => false

/-- A fence is satisfied: every earlier covered entry is complete, and for kind sc every earlier load, atomic and
synchronising access is performed. -/
def State.fenceMet (s : State) (uid : Nat) (c : Context) (k id : Nat) (scope : Scope) (sc : Bool) : Bool :=
  let before := beforeMarker id c.sbuf
  (before.all fun e => e.isMarker || !(scopeCovers scope (s.entryScope c e)))
    && (!(scopeCovers scope .job) || !(s.remoteStores uid))
    && (!sc || ((c.acqs.all fun n => decide (id < n)) && !((c.fills.take k).any Fill.isAccess) && !(before.any SEntry.isSync)
      && !(s.remoteAccess uid)))

/-- Status word of R187 for failed stores. -/
def failWord (fs : List FailRec) : BitVec 64 :=
  if fs.isEmpty then 0
  else
    let paths := fs.foldl (fun n f => match f.path with
      | some k => n ||| 2 ^ k.val
      | none => n) 0
    BitVec.ofNat 64 (2 ^ 63 + min fs.length 65535 * 2 ^ 32 + paths * 2 ^ 28
      + fs.foldl (fun n f => n ||| f.bits.toNat) 0)

/-- The fence's marker goes, and what it covers of the record of failures is reported and cleared. -/
def Context.fenced (c : Context) (id : Nat) (scope : Scope) : Context :=
  { c with failed := c.failed.filter fun f => !(scopeCovers scope f.scope),
           sbuf := c.sbuf.filter fun e => match e.op with
             | .marker k => k != id
             | _ => true }

/-! ## Evidence (R381, R382) -/

/-- An evidence record of 256 bytes (R382), and the state after it. -/
def State.evidence (s : State) (world : Nat) (req : List Byte) : List Byte × State :=
  let m := s.summary
  let s := m.2
  let w := KMap.look s.worlds world
  let n := s.trust.seq + 1
  let job := match w with
    | some x => x.job
    | none => 0
  let digest := match w with
    | some x => x.digest
    | none => 0
  let body := leBytes 2 1 ++ leBytes 2 world ++ leBytes 2 job ++ leBytes 2 0 ++ leBytes 2 s.pkg.toNat ++ leBytes 6 0
    ++ leBytes 8 n.toNat ++ leBytes 40 0 ++ (req.drop 32).take 32 ++ req.take 32 ++ leBytes 32 digest.toNat
    ++ leBytes 32 m.1.toNat
  let g := Config.sign s.draws (digestField (sha256 body))
  (body ++ beBytes 32 g.1.toNat ++ beBytes 32 g.2.toNat,
   { s with draws := s.draws + 1, trust := { s.trust with seq := n } })

/-! ## Pool memory (R391) -/

/-- Where the work on a range ends: with the lines written back, each with what the device held of it, and the number of lines
discarded. -/
inductive PoolEnd where
  | done (s : State) (sent : List (Nat × List Byte)) (ds : Nat)
  | failed (s : State) (code : Nat)
  | wait

/-- Works line by line over a range. -/
def State.poolWork (s : State) (c : Context) (observe : Bool) (upto : Nat) :
    List Nat → List (Nat × List Byte) → Nat → PoolEnd
  | [], sent, ds => .done s sent ds
  | l :: ls, sent, ds =>
    match s.resolveGlobal c.world c.space (c.slot == some 7) l 64 64 .rd with
    | .error e => .failed s (copyCode e.1)
    | .ok acc =>
      let a := partAt acc.parts 0
      if !(s.isPool a) then s.poolWork c observe upto ls sent ds
      else if c.sbuf.any fun e => decide (e.num < upto) && !e.isMarker && partsMeet e.acc.parts [(a, 64)] then .wait
      else
        let line := a / 64
        (if observe then s.dropPool line else s.writeBackPool line).poolWork c observe upto ls
          (if KMap.has s.poolDirty line then (line, (KMap.look s.poolDev line).getD []) :: sent else sent)
          (if observe then ds + 1 else ds)

/-- Lines of an aligned range. -/
def rangeLines (a n : Nat) : List Nat := (List.range (n / 64)).map fun i => a + 64 * i

/-- A write-back did not reach the device, which still holds `old`. -/
def State.poolKept (s : State) (line : Nat) (old : List Byte) : State :=
  if KMap.has s.poolIn line then { s with poolDev := KMap.put s.poolDev line old }
  else (s.writeLine 0 (line * 64) old).endMonitors (line * 64) 64

/-- Write-backs that were not acknowledged in time: the manual does not say which of them reached the device (log 6). -/
def State.poolLost (s : State) (sent : List (Nat × List Byte)) : State :=
  sent.foldl (fun (s : State) p =>
    let r := s.draw
    if r.1.getLsbD 0 then r.2 else r.2.poolKept p.1 p.2) s

/-- Cycles within which the device acknowledges (R391). -/
def poolAckMax : Nat := 65536

/-! ## LONG_PRODUCER_FILL (R55, R56) -/

/-- Takes fill `k` of a context off its way. -/
def State.takeFill (s : State) (uid k : Nat) : State := s.modCtx uid fun c => { c with fills := c.fills.eraseIdx k }

/-- An access of another die is performed, unless a migration holds its page: it is then admitted to the retry list, and
performed in the order of admission (R147; log 47). Where the migration ends because its source is cut, an access already
translated is performed on the memory as it stands: so R143 and R56 have it, where R148 lets queued accesses fault (DESIGN
CHOICE, log 128). -/
def State.fillThrough (s : State) (uid : Nat) (f : Fill) (acc : Acc) (go : State → State) : State :=
  match s.pauser uid (.fill f.dest) (s.places acc) with
  | none => go (s.unpause uid (.fill f.dest))
  | some m =>
    if s.hasPaused uid (.fill f.dest) || !(s.listRoom (partAt (s.places acc) 0)) then s
    else s.admitPaused uid (.fill f.dest) m acc

/-- A load of another die is performed and lands (R178). -/
def State.fillLoad (s : State) (uid : Nat) (c : Context) (k : Nat) (f : Fill) (acc : Acc) : State :=
  let t := s.takeFill uid k
  match t.whereIs acc .rd with
  | .here a job =>
    let r := t.loadNow c.die.val c.core.val 0 f.dest a job f.acq
    r.1.land uid r.2 (match r.2.src with
      | .value v => some v
      | _ => none)
  | .far _ _ | .refused => t.land uid f none

/-- `FEGET` of another die is performed and lands (R171). -/
def State.fillFeget (s : State) (uid : Nat) (c : Context) (k : Nat) (f : Fill) (acc : Acc) : State :=
  let t := s.takeFill uid k
  match t.whereIs acc .rd with
  | .here a _ =>
    let r := t.fegetAt c.die.val c.core.val (partAt a.parts 0)
    r.1.land uid f (some (r.2.setWidth 1024))
  | .far _ _ | .refused => t.land uid f none

/-- An atomic of another die is performed and lands (R195, R199). -/
def State.fillAtom (s : State) (uid : Nat) (c : Context) (k : Nat) (f : Fill) (acc : Acc) (op : AtomOp) (w64 : Bool)
    (b : BitVec 64) : State :=
  let t := s.takeFill uid k
  match t.whereIs acc .rw with
  | .here x _ =>
    let a := partAt x.parts 0
    let r := (t.l1Home (some (coreKey c.die.val c.core.val)) a true).atomicAt acc.world a op w64 b
    r.1.land uid (atomFill f.dest r.2 f.acq) (r.2.1.map fun v => v.setWidth 1024)
  | .far _ _ | .refused => t.land uid f none

/-- A fence fills (R186, R187). -/
def State.fillFence (s : State) (uid : Nat) (c : Context) (k : Nat) (f : Fill) (id : Nat) (scope : Scope) (sc : Bool) :
    State :=
  if s.fenceMet uid c k id scope sc then
    let w := failWord (c.failed.filter fun f => scopeCovers scope f.scope)
    ((s.takeFill uid k).modCtx uid fun c => c.fenced id scope).land uid f (some (w.setWidth 1024))
  else s

/-- An evidence record is written, in the order of arrival (R376), and its status fills once the writes are complete
(R381). -/
def State.fillEvid (s : State) (uid : Nat) (c : Context) (k : Nat) (f : Fill) (req : List Byte) (reply : Acc)
    (order : Nat) : State :=
  if req.isEmpty then
    if s.engineWrites c.die.val then s else (s.takeFill uid k).land uid f (some 0)
  else if s.evidBefore order || s.migrating reply.parts then s
  else
    let r := s.serveSpdm.evidence c.world req
    ((r.2.writeAnys c.die.val c.world (some true) (splitLines reply.parts) r.1).modCtx uid fun c =>
      { c with fills := c.fills.modify k fun f => { f with src := .evid [] reply order } }).serveSpdm

/-- `PUBLISH` or `OBSERVE` works through its range; where it has written lines back it then waits for the device (R391). -/
def State.fillPool (s : State) (uid : Nat) (c : Context) (k : Nat) (f : Fill) (observe : Bool) (va n upto : Nat) :
    State :=
  match s.poolWork c observe upto (rangeLines va n) [] 0 with
  | .wait => s
  | .failed t code => (t.takeFill uid k).land uid f (some ((errWord code).setWidth 1024))
  | .done t sent ds =>
    if sent.isEmpty then (t.takeFill uid k).land uid f (some (BitVec.ofNat 1024 (ds * 2 ^ 32)))
    else t.modCtx uid fun c =>
      { c with fills := c.fills.modify k fun f => { f with src := .poolAck (s.cyc c.die.val) sent ds } }

/-- The wait for the device ends: every write-back is acknowledged, or 65,536 cc have passed (R391). -/
def State.fillPoolAck (s : State) (uid : Nat) (c : Context) (k : Nat) (f : Fill) (since : Nat) (sent : List (Nat × List Byte))
    (ds : Nat) : State :=
  if since + poolAckMax ≤ s.cyc c.die.val then
    ((s.poolLost sent).takeFill uid k).land uid f (some ((errWord 0x72).setWidth 1024))
  else (s.takeFill uid k).land uid f (some (BitVec.ofNat 1024 (ds * 2 ^ 32 + sent.length)))

/-- A fill of a register of a context is on its way. -/
def State.fillsSoon (s : State) (uid : Nat) (dest : AnyReg) : Bool :=
  match s.ctx? uid with
  | some c => c.fills.any fun f => f.dest == dest
  | none => false

/-- Fill `k` of a context, where nothing holds it back. -/
def State.fillNow (s : State) (uid : Nat) (c : Context) (k : Nat) (f : Fill) : State :=
  match f.src with
  | .value v => (s.takeFill uid k).land uid f (some v)
  | .poisoned => (s.takeFill uid k).land uid f none
  | .result v => (s.takeFill uid k).land uid f (some v)
  | .count now n =>
    if s.cyc c.die.val ≤ now then s else (s.takeFill uid k).land uid f (some (BitVec.ofNat 1024 n))
  | .load acc => s.fillThrough uid f acc fun s => s.fillLoad uid c k f acc
  | .feget acc => s.fillThrough uid f acc fun s => s.fillFeget uid c k f acc
  | .atom acc op w64 b => s.fillThrough uid f acc fun s => s.fillAtom uid c k f acc op w64 b
  | .aborted n all =>
    if s.aborting uid c.lid all then s else (s.takeFill uid k).land uid f (some (BitVec.ofNat 1024 n))
  | .space sp g =>
    let r := s.treeSpace sp g
    (r.1.takeFill uid k).land uid f (some (r.2.setWidth 1024))
  | .following u dest v =>
    if s.fillsSoon u dest then s else (s.takeFill uid k).land uid f (some (v.setWidth 1024))
  | .fence id scope sc => s.fillFence uid c k f id scope sc
  | .evid req reply order => s.fillEvid uid c k f req reply order
  | .pool observe va n upto => s.fillPool uid c k f observe va n upto
  | .poolAck since sent ds => s.fillPoolAck uid c k f since sent ds

/-- LONG_PRODUCER_FILL. -/
def execLongProducerFill (uid k : Nat) (s : State) : Out :=
  match s.ctx? uid with
  | none => .next s
  | some c => match c.fills[k]? with
    | none => .next s
    | some f => .next (s.fillNow uid c k f)

/-- The first `PUBLISH` or `OBSERVE` of a context whose device has had its time. -/
def State.poolLate (s : State) (c : Context) : Option (Fill × Nat) :=
  c.fills.zipIdx.find? fun p => match p.1.src with
    | .poolAck since _ _ => decide (since + poolAckMax ≤ s.cyc c.die.val)
    | _ => false

/-- POOL_ACK_TIMEOUT: a `PUBLISH` or `OBSERVE` whose write-backs have not been acknowledged for 65,536 cc ends with
pool_dead (R391). -/
def execPoolAckTimeout (uid : Nat) (s : State) : Out :=
  match s.ctx? uid with
  | none => .next s
  | some c => match s.poolLate c with
    | none => .next s
    | some p => .next (s.fillNow uid c p.2 p.1)

end Sys2Proof.Machine
end

