-- ==== Sys2Proof/Machine/Preempt.lean ====
section
/-! DEFINITION. Pre-emption: the request (R123), the estimates and the choice (R124, R125), drain, save and discard
(R125, R126, R260, R288, R311, R358), resume and restart continuations (R128). -/

namespace Sys2Proof.Machine

/-! ## Result words of partition commands (R395) -/

/-- Writes the result word of a partition command: at 0x408, and at the address of space 0 that 0x420 holds. A write there
that faults is skipped. -/
def State.partResult (s : State) (v : BitVec 64) : State :=
  let s := (s.setPageWord (partPage + 0x408) 0 v.toNat).pageChanged (partPage + 0x408) 8
  let a := s.pageWord (partPage + 0x420)
  if a = 0 then s
  else match s.resolveGlobal 0 0 true a 8 8 .wr with
    | .ok acc => s.sink (.mem (partAt acc.parts 0)) v
    | .error _ => s

/-- Something of a PREEMPT command's clusters has not finished its choice. -/
def State.preWaits (s : State) (todo : List (Nat × Nat)) : Bool :=
  todo.any fun q => match s.preOf (q.2 / 16) (q.2 % 16) q.1 with
    | some p => p.stage != .out
    | none => false

/-- The PREEMPT commands whose clusters have all finished write their result words (R396). -/
def State.preemptDone (s : State) : State :=
  let isDone := fun (w : PartWait) => match w with
    | .preempt todo => !(s.preWaits todo)
    | _ => false
  let n := s.partWaits.countP isDone
  let s := { s with partWaits := s.partWaits.filter fun w => !(isDone w) }
  (List.range n).foldl (fun (s : State) _ => s.partResult 0) s

/-! ## The request (R123) -/

/-- Changes the pre-emption of a region on a cluster. -/
def State.modPre (s : State) (d cl r : Nat) (f : Preempt → Preempt) : State :=
  s.modCluster d cl fun k => { k with pre := k.pre.map fun p => if p.region = r then f p else p }

/-- Opens the cooperative window of a region on a cluster. A pre-emption of it that is in force there goes on as it is, held by
the new request too (DESIGN CHOICE, log 118). -/
def State.openWindow (s : State) (r key win deadline : Nat) (by_ : PreBy) : State :=
  let d := key / 16
  let cl := key % 16
  if !(s.regionHolds r key) then s
  else match s.preOf d cl r with
  | some _ => s.modPre d cl r fun p => { p with owners := p.owners.filter (· != by_) ++ [by_] }
  | none => s.modCluster d cl fun k =>
    { k with pre := k.pre ++ [{ region := r, owners := [by_], stage := .window (s.cyc d + win), deadline := s.cyc d + deadline,
                                remain := deadline - win, choice := none, nDiscard := 0, discards := false, segs := [] }] }

/-- A request for a region and its descendants on the slices of a mask, with deadline D (R123). The window of each is its own
effective ywin (DESIGN CHOICE, log 117). -/
def State.requestPre (s : State) (r slices deadline : Nat) (by_ : PreBy) : State :=
  (s.descendants r).foldl (fun s q =>
    let win := min (s.ywin q) deadline
    ((List.range 128).filter fun k => bits slices k k == 1).foldl (fun s k => s.openWindow q k win deadline by_) s) s

/-- PREEMPTION_REQUEST: a request of the launch controller (R123). -/
def execPreemptionRequest (region : BitVec 32) (slices : BitVec 128) (deadline : BitVec 32) (s : State) : Out :=
  .next (s.requestPre region.toNat slices.toNat deadline.toNat .controller)

/-! ## Estimates (R124) -/

/-- The context is one of the region's that pre-emption reaches: no pinned handler (R127). -/
def State.inRegion (s : State) (r uid : Nat) : Bool :=
  match s.ctx? uid with
  | some c => c.region == r && c.record != 0
  | none => false

/-- Continuations of a region that last ran on a cluster and have not retired. -/
def State.freeCtxs (s : State) (d cl r : Nat) : List (Nat × Context) :=
  s.ctxs.filter fun p => p.2.record != 0 && p.2.die.val == d && clusterOf p.2.core.val == cl && p.2.region == r
    && p.2.state != CxState.retired

/-- Free continuations of a region in slots of a cluster. -/
def State.slotCtxs (s : State) (d cl r : Nat) : List Nat :=
  (s.ctxs.filter fun p => p.2.slot.isSome && p.2.record != 0 && p.2.die.val == d && clusterOf p.2.core.val == cl
    && p.2.region == r).map (·.1)

/-- Cores of a cluster, ascending. -/
def clusterCores (cl : Nat) : List Nat := (List.range 16).map fun i => coreAt cl i

/-- Lines of the matrix engine's state (R288): N is 32 n. -/
def matLines (e : MatEng) : Nat :=
  1 + (if e.kind = .fp64 then 64 * e.n else 32 * e.n) + 96 * e.latch.length + (if e.astage.isSome then 48 else 0)
    + (if e.queued then 352 else 0) + e.queue.length

/-- Lines of the matrix engine that a region's owner has there. -/
def State.matShare (s : State) (d c r : Nat) : Nat :=
  match (s.core d c).mat.owner with
  | some u => if s.inRegion r u then matLines (s.core d c).mat else 0
  | none => 0

/-- Cycles that a wait which began at a cycle still has before its timeout (R287, R288). -/
def State.ringLeft (s : State) (d t : Nat) : Nat := t + 65536 - s.cyc d

/-- The remaining timeouts of the ring waits of a region on a core: a ring wait counts at its remaining timeout (R288). -/
def State.ringShare (s : State) (d c r : Nat) : Nat :=
  let e := (s.core d c).mat
  (match e.sending, e.since with
    | some k, some t => if s.inRegion r k.uid then s.ringLeft d t else 0
    | _, _ => 0) +
  (match e.array with
    | some p => if s.inRegion r p.1.uid then s.ringLeft d p.2 else 0
    | none => 0)

/-- A copy command is one of a region's that pre-emption reaches. -/
def State.copyIn (s : State) (r : Nat) (k : CopyCmd) : Bool :=
  match k.by_ with
  | .ctx t => s.inRegion r t.uid
  | .sched .. => k.region == r

/-- The command under way on a copy engine, where it is one of a region's and has not ended. -/
def State.copyUnder (s : State) (d c r : Nat) : List CopyCmd :=
  match (s.core d c).cpy.run with
  | some x => if s.copyIn r x.cmd ∧ x.end?.isNone then [x.cmd] else []
  | none => []

/-- Commands of a region on a copy engine that its save area takes: the one under way and the command queue (R311). -/
def State.copySaved (s : State) (d c r : Nat) : List CopyCmd :=
  s.copyUnder d c r ++ (s.core d c).cpy.queue.filter fun k => s.copyIn r k

/-- A command of a region is on a copy engine, or an entry of its schedules. -/
def State.copyBusy (s : State) (d c r : Nat) : Bool :=
  let e := (s.core d c).cpy
  ((e.run.toList.map (·.cmd)) ++ e.queue ++ e.sched).any fun k => s.copyIn r k

/-- Engine state lines of a region on a core (R260, R288, R311). -/
def State.engineLines (s : State) (d c r : Nat) : Nat :=
  7 * ((s.core d c).vec.countP fun v => s.inRegion r v.uid) + s.matShare d c r + 2 * (s.copySaved d c r).length

/-- Dirty resident register lines of a region's continuations on a core. -/
def State.dirtyShare (s : State) (d c r : Nat) : Nat :=
  ((s.ctxs.filter fun p => p.2.region == r && p.2.record != 0 && p.2.die.val == d && p.2.core.val == c).map fun p =>
    p.2.dirtyLines.length).sum

/-- E_save with more engine state on a core: the largest over the cluster's cores. -/
def State.eSaveWith (s : State) (d cl r core more : Nat) : Nat :=
  (clusterCores cl).foldl (fun m c =>
    max m (16 + s.dirtyShare d c r + s.engineLines d c r + s.ringShare d c r + 120 + (if c = core then more else 0))) 0

/-- E_save. -/
def State.eSave (s : State) (d cl r : Nat) : Nat := s.eSaveWith d cl r 0 0

/-- A synchronising wait of the context is in a retry list, or at another package. -/
def State.waitsSync (s : State) (uid : Nat) : Bool :=
  (s.retry.any fun w => match w.op with
    | .load u .. => u == uid
    | .store u .. => u == uid
    | .susp u => u == uid
    | _ => false) || s.syncSent uid

/-- What the context waits for makes E_drain unbounded: a `WAITA`, a phaser or a barrier (R124), a `VWLD.wait` or a `VWSYNC`
(R337), or a synchronising wait. -/
def State.waitsLong (s : State) (uid : Nat) (c : Context) : Bool :=
  (match c.wait with
    | .changed _ | .phaser .. | .wire _ | .nb .. => true
    | _ => false) || c.vwGen.isSome || (s.vsyncs.any fun v => v.uid == uid) || s.waitsSync uid

/-- A pinned handler of the region's waits for a phaser in its slot on the cluster: its wait too makes E_drain unbounded
(R222), the one thing of it that the estimates know (R127). -/
def State.handlerWaits (s : State) (d cl r : Nat) : Bool :=
  s.ctxs.any fun p => p.2.record == 0 && p.2.slot.isSome && p.2.die.val == d && clusterOf p.2.core.val == cl
    && p.2.region == r && (match p.2.wait with
      | .phaser .. => true
      | _ => false)

/-- Commands of a region are on an engine of the core. -/
def State.engineBusy (s : State) (d c r : Nat) : Bool :=
  let k := s.core d c
  (k.vec.any fun v => s.inRegion r v.uid) || (k.mat.commands.any fun m => s.inRegion r m.uid) || s.copyBusy d c r

/-- Evidence under way (R381). -/
def Fill.isEvidence (f : Fill) : Bool := match f.src with
  | .evid .. => true
  | _ => false

/-- The registers that evidence under way will fill are the only pending ones. -/
def Context.evidOnly (c : Context) : Bool :=
  let left := (c.fills.filter Fill.isEvidence).foldl (fun (m : BitVec 64) (f : Fill) => match f.dest with
    | .x i => m &&& ~~~(1#64 <<< i.val)
    | _ => m) c.xPend
  !({ c with xPend := left } : Context).anyPend

/-- A fill or a command of the region's continuations on the cluster is outstanding, evidence left aside. -/
def State.outstanding (s : State) (d cl r : Nat) : Bool :=
  ((s.freeCtxs d cl r).any fun p => !p.2.evidOnly) || (clusterCores cl).any fun c => s.engineBusy d c r

/-- Time that evidence under way counts for in E_drain (R381). -/
def State.evidShare (s : State) (d cl r : Nat) : Nat :=
  if (s.freeCtxs d cl r).any fun p => p.2.fills.any Fill.isEvidence then 1700000 else 0

/-- E_drain: `none` when a wait makes it unbounded. How long commands and fills still take is timing, which the model does
not have: a free value where some are outstanding (log 8). Evidence under way counts for 1,700,000 cc (R381). The lines of the
matrix engines are added (R288). -/
def State.eDrain (s : State) (d cl r : Nat) : Option Nat × State :=
  let more := (clusterCores cl).foldl (fun m c => max m (s.matShare d c r + s.ringShare d c r)) 0
  if s.handlerWaits d cl r || (s.freeCtxs d cl r).any fun p => s.waitsLong p.1 p.2 then (none, s)
  else if s.outstanding d cl r then
    let q := s.draw
    (some (max q.1.toNat (s.evidShare d cl r) + more), q.2)
  else (some (s.evidShare d cl r + more), s)

/-- The choice: the first of drain, save and discard whose estimate fits (R125). -/
def State.choose (s : State) (d cl r remain : Nat) : Fin 3 × State :=
  let e := s.eDrain d cl r
  match e.1 with
  | some n => if n ≤ remain then (0, e.2) else if e.2.eSave d cl r ≤ remain then (1, e.2) else (2, e.2)
  | none => if e.2.eSave d cl r ≤ remain then (1, e.2) else (2, e.2)

/-! ## Save area (R126) -/

/-- First byte of a core's segment. -/
def Region.segment (g : Region) (d c : Nat) : Nat := g.save + (d * 256 + c) * 65536

/-- Writes bytes of one line of the save area, as the region's world; or the cause of the fault. -/
def State.saveLine (s : State) (r : Nat) (g : Region) (a : Nat) (bs : List Byte) : Except Nat State :=
  match s.resolveGlobal (s.regionWorld r) g.space false a 64 64 .wr with
  | .error e => .error e.1
  | .ok acc => .ok (s.store acc.world (partAt acc.parts 0) bs none)

/-- Writes bytes line by line. -/
def State.saveLines64 (s : State) (r : Nat) (g : Region) (a : Nat) (bs : List Byte) : Nat → Except Nat State
  | 0 => .ok s
  | n + 1 =>
    if bs.isEmpty then .ok s
    else match s.saveLine r g a (bs.take 64) with
      | .error e => .error e
      | .ok t => t.saveLines64 r g (a + 64) (bs.drop 64) n

/-- Writes `n` lines of engine state, whose layout the manual does not give: free values (log 6). -/
def State.saveFree (s : State) (r : Nat) (g : Region) (a n : Nat) : Except Nat State :=
  let q := s.freeBytes (8 * n)
  q.1.saveLines64 r g a q.2 n

/-- Header of a segment and its list of discarded cxids, in whole lines. -/
def segmentBytes (choice : Nat) (cause : Nat) (overflow : Bool) (ids : List Nat) : List Byte :=
  let body := leBytes 8 choice ++ leBytes 8 ids.length ++ [BitVec.ofNat 8 cause, if overflow then 1 else 0]
    ++ leBytes 46 0 ++ ids.flatMap fun i => leBytes 8 i
  body ++ List.replicate ((64 - body.length % 64) % 64) 0

/-- Two regions that are pre-empted on one core and inherit one save area share its segment: the stronger choice, the first
cause, both lists in ascending order, and the lines of engine state one after another (DESIGN CHOICE, log 119). -/
def SegUse.merge (a b : SegUse) : SegUse :=
  { choice := max a.choice b.choice, cause := if a.cause = 0 then b.cause else a.cause, spill := a.spill || b.spill,
    ids := (a.ids ++ b.ids).mergeSort (· ≤ ·), lines := a.lines + b.lines }

/-- What other regions with the save area of `g` have put into the segment of a core. -/
def State.segOthers (s : State) (r : Nat) (g : Region) (d c : Nat) : List SegUse :=
  (s.cluster d (clusterOf c)).pre.filterMap fun q =>
    if q.region = r then none
    else match s.region? q.region with
      | some h => if h.save = g.save ∧ h.space = g.space then KMap.look q.segs c else none
      | none => none

/-- Writes the head of a core's segment, with what other regions have put there, and notes it. -/
def State.saveHead (s : State) (r : Nat) (g : Region) (d c : Nat) (u : SegUse) : Except Nat State :=
  let m := (s.segOthers r g d c).foldl SegUse.merge u
  let bs := segmentBytes m.choice m.cause m.spill m.ids
  match s.saveLines64 r g (g.segment d c) bs (bs.length / 64) with
  | .error e => .error e
  | .ok t => .ok (t.modPre d (clusterOf c) r fun p => { p with segs := KMap.put p.segs c u })

/-! ## Save (R125) -/

/-- A context leaves its slot, ready and held. -/
def State.hold (s : State) (uid : Nat) : State :=
  let s := s.leaveReady uid
  s.modCtx uid fun c => { c with held := c.state == CxState.ready }

/-- Takes the engine state of a region off a core into the saved state (R260, R288, R311). -/
def State.takeEngines (s : State) (d c r : Nat) : State :=
  let k := s.core d c
  let mineV := k.vec.filter fun v => s.inRegion r v.uid
  let mineM := k.mat.queue.filter fun m => s.inRegion r m.uid
  let owner := match k.mat.owner with
    | some u => if s.inRegion r u then some u else none
    | none => none
  let running := s.copyUnder d c r
  let mineC := s.copySaved d c r ++ k.cpy.sched.filter fun q => s.copyIn r q
  let mats := ((owner.toList ++ mineM.map (·.uid)).dedup).map fun u =>
    (u, { (if owner = some u then k.mat else MatEng.empty) with
          queue := mineM.filter fun m => m.uid == u, arrived := none })
  let rest := k.mat.queue.filter fun m => !(s.inRegion r m.uid)
  let s := { s with savedVec := s.savedVec ++ mineV, savedCpy := s.savedCpy ++ mineC.map fun q => (coreKey d c, q),
                    savedMat := mats.foldl (fun m (p : Nat × MatEng) => KMap.put m p.1 p.2) s.savedMat }
  s.modCore d c fun k =>
    { k with vec := k.vec.filter fun v => !(mineV.contains v)
             mat := if owner.isSome then { MatEng.empty with queue := rest } else { k.mat with queue := rest }
             cpy := { k.cpy with queue := k.cpy.queue.filter fun q => !(s.copyIn r q)
                                 sched := k.cpy.sched.filter fun q => !(s.copyIn r q)
                                 run := if running.isEmpty then k.cpy.run else none } }

/-- Number of a register in a saved line: its file, then its place. -/
def regNumber : AnyReg → Nat
  | .x r => r.val
  | .v r => 64 + r.val
  | .p r => 96 + r.val

/-- The two lines of a saved copy command (R311): its descriptor; then the progress offset, the Stipple state, the member
word, the status register, the owner's cxid and the release number, 8 bytes each in this order (log 98). -/
def State.copyLines (s : State) (k : CopyCmd) : List Byte × State :=
  let j := s.jobSeed k.lid
  let g := (List.range k.groups).foldl (fun g _ => stippleStep g) (stippleSeed j.1 k.coord k.seq)
  let by_ : Nat × Nat × Nat := match k.by_ with
    | .ctx t => (regNumber t.dest, ((s.ctx? t.uid).map (·.cxid)).getD 0, 0)
    | .sched _ n _ => (0, 0, n)
  (leBytes 64 k.desc.toNat ++ leBytes 8 k.offset ++ leBytes 8 g.toNat ++ leBytes 8 k.member.toNat ++ leBytes 8 by_.1
    ++ leBytes 8 by_.2.1 ++ leBytes 8 by_.2.2 ++ leBytes 16 0, j.2)

/-- Writes the lines of saved copy commands from an address on. -/
def State.saveCopies (s : State) (r : Nat) (g : Region) (a : Nat) : List CopyCmd → Except Nat State
  | [] => .ok s
  | k :: ks =>
    let q := s.copyLines k
    match q.2.saveLines64 r g a q.1 2 with
    | .error e => .error e
    | .ok t => t.saveCopies r g (a + 128) ks

/-- The lines of engine state of a core are written: the vector and copy engines' into its segment, the matrix engine's
in the area of its own. -/
def State.writeEngines (s : State) (r : Nat) (g : Region) (d c : Nat) : Except Nat State :=
  let m := s.matShare d c r
  let ks := s.copySaved d c r
  let n := s.engineLines d c r - m - 2 * ks.length
  let a := g.segment d c + 8192 + 64 * ((s.segOthers r g d c).map (·.lines)).sum
  match s.saveFree r g a n with
  | .error e => .error e
  | .ok t => match t.saveCopies r g (a + 64 * n) ks with
    | .error e => .error e
    | .ok t => match t.saveFree r g (g.save + 136 * 2 ^ 20 + (d * 256 + c) * 2 ^ 17) m with
      | .error e => .error e
      | .ok t => .ok (t.modPre d (clusterOf c) r fun p =>
          { p with segs := KMap.modify p.segs c fun u => { u with lines := n + 2 * ks.length } })

/-! ## Discard (R125) -/

/-- The memory of the record of a discarded continuation is spent until software releases it (R126). -/
def State.spend (s : State) (c : Context) : State :=
  match s.recordAt c.space c.record with
  | some x => { s with spent := (s.spent.filter (· != x)) ++ [x] }
  | none => s

/-- Drops the commands of a context on the engines of the cores and in the saved state, and its quantisations. -/
def State.dropCommands (s : State) (uid d : Nat) : State :=
  let s := { s with cores := KMap.mapD s.cores Core.empty fun k =>
    { k with vec := k.vec.filter fun v => v.uid != uid
             mat := (if k.mat.owner = some uid then k.mat.released else k.mat).drop fun m => m.uid == uid
             cpy := { k.cpy with queue := k.cpy.queue.filter fun q => !(q.ofCtx uid)
                                 run := match k.cpy.run with
                                   | some x => if x.cmd.ofCtx uid then none else some x
                                   | none => none } } }
  let s := s.modDie d fun k => { k with quant := k.quant.filter fun q => q.uid != uid }
  { s with savedVec := s.savedVec.filter fun v => v.uid != uid, savedMat := KMap.del s.savedMat uid,
           savedCpy := s.savedCpy.filter fun q => !(q.2.ofCtx uid),
           retry := s.retry.filter fun w => match w.op with
             | .load u .. | .paused u (.fill _) _ => u != uid
             | _ => true }

/-- The fill is that of a fence. -/
def Fill.isFence (f : Fill) : Bool :=
  match f.src with
  | .fence .. => true
  | _ => false

/-- A continuation is discarded: it retires without resuming, and its pending fills are dropped. Its stores drain on in
order (R184): its fences still stand between them until each is satisfied. -/
def State.discard (s : State) (uid : Nat) : State :=
  match s.ctx? uid with
  | none => s
  | some c =>
    let s := (s.vacate uid).dropCommands uid c.die.val
    let s := s.modCtx uid fun c =>
      { c with state := .retired, discarded := true, lines := [], queued := none, held := false, failed := [],
               fills := c.fills.filter Fill.isFence, acqs := [], xPend := 0, vPend := 0, pPend := 0,
               sbuf := c.sbuf.map fun e => { e with after := [] } }
    ((((s.settle c.region).writeRecord uid).1).spend c).reap uid

/-- Ids of continuations, ascending. -/
def State.cxids (s : State) (us : List Nat) : List Nat :=
  (us.filterMap fun u => (s.ctx? u).map (·.cxid)).mergeSort (· ≤ ·)

/-- Queued continuations of a region on a cluster. -/
def State.queuedCtxs (s : State) (d cl r : Nat) : List Nat :=
  (s.ctxs.filter fun p => p.2.queued.isSome && p.2.queueAt == clKey d cl && p.2.region == r && p.2.state == .ready).map (·.1)

/-- Shares the queued ids out over the lists of the cores, whose places `used` are taken: each core's list, and what found no
room. -/
def shareIds (own : Nat → List Nat) (used : Nat → Nat) : List Nat → List Nat → List (Nat × List Nat) × List Nat
  | [], q => ([], q)
  | c :: cs, q =>
    let room := 1016 - (own c).length - used c
    let r := shareIds own used cs (q.drop room)
    ((c, (own c ++ q.take room).mergeSort (· ≤ ·)) :: r.1, r.2)

/-- A count of an RCB that only the part writes goes up. -/
def State.addForced (s : State) (r n : Nat) : State :=
  match s.region? r with
  | some g =>
    let w := s.regionWorld r
    s.setField w g.rcb 863 832 (s.field w g.rcb 863 832 + n)
  | none => s

/-- The state field of a region's RCB. -/
def State.setRegionState (s : State) (r v : Nat) : State :=
  match s.region? r with
  | some g => s.setField (s.regionWorld r) g.rcb 109 108 v
  | none => s

/-- The whole cluster discards: contexts in slots and queued continuations. -/
def State.discardCluster (s : State) (d cl r : Nat) (g : Region) : State :=
  let cores := clusterCores cl
  let slots := s.slotCtxs d cl r
  let queue := s.queuedCtxs d cl r
  let own := fun (c : Nat) => s.cxids (slots.filter fun u => match s.ctx? u with
    | some x => x.core.val == c
    | none => false)
  let lists := shareIds own (fun c => ((s.segOthers r g d c).map fun u => u.ids.length).sum) cores (s.cxids queue)
  let n := slots.length + queue.length
  let s := (slots ++ queue).foldl (fun (s : State) u => s.discard u) s
  let s := lists.1.foldl (fun (s : State) p =>
    match s.saveHead r g d p.1 { choice := 2, cause := 0, spill := !lists.2.isEmpty && cores.head? == some p.1, ids := p.2,
                                 lines := 0 } with
    | .ok t => t
    | .error _ => s) s
  s.modPre d cl r fun p => { p with nDiscard := p.nDiscard + n, discards := true }

/-- One core saves or drains its contexts; a save write that faults turns its choice into discard, and the header records
the cause. -/
def State.saveCore (s : State) (d cl r choice : Nat) (g : Region) (c : Nat) : State :=
  let us := (s.slotCtxs d cl r).filter fun u => match s.ctx? u with
    | some x => x.core.val == c
    | none => false
  let out : Except Nat State := match s.saveHead r g d c { choice := choice, cause := 0, spill := false, ids := [], lines := 0 } with
    | .error e => .error e
    | .ok t => t.writeEngines r g d c
  match out with
  | .ok t => us.foldl (fun (s : State) u => s.hold u) (t.takeEngines d c r)
  | .error e =>
    let ids := s.cxids us
    let s := us.foldl (fun (s : State) u => s.discard u) s
    let s := match s.saveHead r g d c { choice := 2, cause := e, spill := false, ids := ids, lines := 0 } with
      | .ok t => t
      | .error _ => s
    s.modPre d cl r fun p => { p with nDiscard := p.nDiscard + us.length, discards := true }

/-! ## The grant scheduler (R358) -/

/-- The line of a paused post in the scheduler's segment (R358): tag, the sender's package and die, the next token's
number, the bytes received in order, the lapses, and the ranges outstanding at revocation, four bytes for each offset and
length (log 98). -/
def postLine (p : Post) (h : Match) (next : BitVec 32) (ts : List Token) : List Byte :=
  leBytes 8 (bits p.desc.toNat 383 320) ++ leBytes 2 h.pkg.toNat ++ leBytes 2 h.die.val ++ leBytes 4 next.toNat
    ++ leBytes 4 h.bytes ++ leBytes 4 h.lapses
    ++ (ts.flatMap fun t => leBytes 4 t.off ++ leBytes 4 t.len) ++ leBytes (40 - 8 * ts.length) 0

/-- Posts of a region on a die pause where it is pre-empted on every cluster that it holds there: their tokens are
revoked, and their ranges come first again. -/
def State.pausePosts (s : State) (d r : Nat) : State :=
  match s.region? r with
  | none => s
  | some g =>
    if !(s.outOn d r) then s
    else
      let mine := (s.die d).ni.posts.filter fun p => p.2.region == r && match p.2.hit with
        | some h => !h.paused
        | none => false
      let base := g.save + 128 * 2 ^ 20 + d * 65536
      let taken := (s.die d).ni.posts.filterMap fun p => (p.2.hit.bind (·.line)).map (·.1)
      let free := ((List.range 1024).map fun i => base + 64 * i).filter fun a => !(taken.contains a)
      (mine.zip free).foldl (fun (s : State) q =>
        let p := q.1
        let ts := (s.die d).ni.tokens.filter fun t => t.post == p.1
        let bs := match p.2.hit with
          | some h => postLine p.2 h (s.die d).ni.nextTok ts
          | none => []
        let s := (s.modNi d fun n => { n with tokens := n.tokens.filter fun t => t.post != p.1 }).modMatch d p.1 fun h =>
          { h with paused := true, again := (ts.map fun t => (t.off, t.len)) ++ h.again }
        match s.saveLine r g q.2 bs with
        | .ok t => t.modMatch d p.1 fun h => { h with line := some (q.2, ts.length) }
        | .error _ => s) s

/-! ## Resume (R128) -/

/-- Clusters that a region holds and can use, as keys: those under recall are about to go (R401). -/
def State.heldClusters (s : State) (r : Nat) : List Nat :=
  (List.range 128).filter fun k => s.regionHolds r k && !(s.recalledFrom (k / 16) (k % 16) r)

/-- The launch selects a core of the cluster. -/
def Launch.hasCluster (l : Launch) (k : Nat) : Bool := l.clusterList.contains k && l.cores != 0

/-- Cluster key of the core that last ran a context. -/
def Context.home (c : Context) : Nat := clKey c.die.val (clusterOf c.core.val)

/-- The cluster whose queue a held continuation enters: its own when it is bound, or tied to a core there, else the next in
turn that its launch selects. -/
def State.resumeAt (s : State) (i : Nat) (c : Context) : Option Nat :=
  let ks := s.heldClusters c.region
  if c.anyPend then (if ks.contains c.home then some c.home else none)
  else if c.tied && ks.contains c.home then some c.home
  else match s.factsOf c.lid with
    | none => none
    | some l =>
      let n := i % max 1 ks.length
      (ks.drop n ++ ks.take n).find? fun k => l.hasCluster k

/-- Held continuations of a region whose clusters no pre-emption holds any more, in cxid order. -/
def State.heldCtxs (s : State) (r : Nat) : List Nat :=
  let us := s.ctxs.filter fun p => p.2.held && p.2.region == r && (s.preOf p.2.die.val (clusterOf p.2.core.val) r).isNone
  (us.mergeSort fun a b => decide (a.2.cxid ≤ b.2.cxid)).map (·.1)

/-- Places held continuations on ready queues, round-robin. -/
def State.placeHeld (s : State) : List Nat → Nat → State
  | [], _ => s
  | u :: us, i =>
    let s := match s.ctx? u with
      | none => s
      | some c => match s.resumeAt i c with
        | some k => (s.modCtx u fun c => { c with held := false, tied := c.tied && k == c.home }).enqueue u (k / 16) (k % 16)
        | none => s
    s.placeHeld us (i + 1)

/-- The live launch of a region that was accepted earliest: a restart continuation belongs to it. -/
def State.regionLaunch (s : State) (r : Nat) : Option (Nat × Launch) :=
  s.launches.foldl (fun best p =>
    if p.2.region != r || p.2.stage == .opening then best
    else match best with
      | none => some p
      | some b => if p.2.order < b.2.order then some p else best) none

/-- First core of a cluster that a launch selects. -/
def Launch.firstCore (l : Launch) (k : Nat) : Nat :=
  ((clusterCores (k % 16)).find? fun c => l.selects (k / 16) c).getD (coreAt (k % 16) 0)

/-- Makes a restart continuation, where an arena slot is free and the region is below its limit (R128). -/
def State.makeRestart (s : State) (q : Restart) : Option State :=
  match s.region? q.region, (s.region? q.region).bind fun g => s.freeRecord q.region g.space, s.regionLaunch q.region with
  | some g, some k, some (lid, l) =>
    let own := clKey q.die q.cl
    match (if (s.heldClusters q.region).contains own then some own else (s.heldClusters q.region).head?) with
    | none => none
    | some key =>
      let n : Context := { Context.fresh l.world g.space q.region lid 0 (dieOf (key / 16)) (coreNo (l.firstCore key))
          (BitVec.ofNat 64 g.restartPc.toNat) l.compat with
        origin := .restart, record := (g.slotAt k).1, image := g.restartImg, pri := g.pri,
        x := KMap.putD (KMap.putD [] 2 0 (BitVec.ofNat 64 q.segment)) 3 0 (BitVec.ofNat 64 q.count) }
      let u := s.nextUid
      let s := (s.addCtx n).changed u 0
      some (match s.ctx? u with
        | some x => if x.state == CxState.ready then s.enqueue u (key / 16) (key % 16) else s
        | none => s)
  | _, _, _ => none

/-- Makes the restart continuations that can be made. -/
def State.makeRestarts (s : State) : List Restart → State
  | [] => s
  | q :: qs =>
    let s := match s.makeRestart q with
      | some t => { t with restarts := t.restarts.erase q }
      | none => s
    s.makeRestarts qs

/-- What a paused post is matched with after its line has been loaded again: the sender, the lapses, the bytes received in
order, to which a prefix may have added since, and the ranges that were revoked, which come first. -/
def Match.reload (h : Match) (n : Nat) (bs : List Byte) : Match :=
  let at_ := fun (o n : Nat) => leNat ((bs.drop o).take n)
  let rs := (List.range 4).filterMap fun i => if at_ (28 + 8 * i) 4 = 0 then none else some (at_ (24 + 8 * i) 4, at_ (28 + 8 * i) 4)
  { h with pkg := BitVec.ofNat 14 (at_ 8 2), die := dieOf (at_ 10 2), bytes := max h.bytes (at_ 16 4), lapses := at_ 20 4 % 4,
           again := rs ++ h.again.drop n, line := none, paused := false }

/-- A post that its region's resumption lets go on: its line is loaded again (R358). Where the line cannot be read, the NI
goes on from what it has kept (DESIGN CHOICE, log 98). -/
def State.resumePost (s : State) (r d id : Nat) (g : Region) (h : Match) : State :=
  match h.line with
  | none => s.modMatch d id fun h => { h with paused := false }
  | some (a, n) => match s.resolveGlobal (s.regionWorld r) g.space false a 64 64 .rd with
    | .error _ => s.modMatch d id fun h => { h with paused := false, line := none }
    | .ok acc =>
      let x := s.readSeg acc.world (partAt acc.parts 0) 64
      x.1.modMatch d id fun h => if x.2.2 then { h with paused := false, line := none } else h.reload n x.2.1

/-- Posts of a region that no longer need pause go on. -/
def State.resumePosts (s : State) (r : Nat) : State :=
  match s.region? r with
  | none => s
  | some g => (List.range 8).foldl (fun (s : State) d =>
    if s.outOn d r then s
    else ((s.die d).ni.posts.filter fun p => p.2.region == r).foldl (fun (s : State) p => match p.2.hit with
      | some h => s.resumePost r d p.1 g h
      | none => s) s) s

/-- Saved schedule entries of a region go on in the engines of their cores (R311). -/
def State.resumeScheds (s : State) (r : Nat) : State :=
  let back := s.savedCpy.filter fun q => q.2.region == r && (match q.2.by_ with
    | .sched .. => !(s.preempted (q.1 / 256) (clusterOf (q.1 % 256)) r)
    | .ctx _ => false)
  let s := { s with savedCpy := s.savedCpy.filter fun q => !(back.contains q) }
  back.reverse.foldl (fun (s : State) q => s.modCore (q.1 / 256) (q.1 % 256) fun k =>
    { k with cpy := { k.cpy with sched := q.2 :: k.cpy.sched } }) s

/-- The requests that still hold a pre-emption once those that a test picks have gone. -/
def Preempt.left (p : Preempt) (f : Preempt → PreBy → Bool) : Preempt := { p with owners := p.owners.filter fun o => !(f p o) }

/-- Saved state of a context's engine commands goes back to the engines of its core (R260, R288, R311). -/
def State.restoreEngines (s : State) (uid d k : Nat) : State :=
  let mats := KMap.look s.savedMat uid
  let vecs := s.savedVec.filter fun v => v.uid == uid
  let cpys := (s.savedCpy.filter fun q => q.2.ofCtx uid).map (·.2)
  let s := { s with savedMat := KMap.del s.savedMat uid, savedVec := s.savedVec.filter fun v => v.uid != uid,
                    savedCpy := s.savedCpy.filter fun q => !(q.2.ofCtx uid) }
  s.modCore d k fun x =>
    { x with vec := x.vec ++ vecs
             mat := match mats with
               | some m => if m.owner = some uid then { m with queue := x.mat.queue ++ m.queue }
                 else { x.mat with queue := x.mat.queue ++ m.queue }
               | none => x.mat
             cpy := { x.cpy with queue := cpys ++ x.cpy.queue } }

/-- A suspended continuation that waits for what its saved commands will fill cannot become ready before they have run: once
its region is resumed on its cluster, they go back to the engines of its core, to which it is bound (R60, R128, R260). -/
def State.wakeEngines (s : State) (uid : Nat) : State :=
  match s.ctx? uid with
  | none => s
  | some c =>
    let d := c.die.val
    let k := c.core.val
    if c.state != CxState.suspended || !c.anyPend || s.preempted d (clusterOf k) c.region
      || !(s.regionHolds c.region c.home) || (KMap.has s.savedMat uid && (s.core d k).mat.owner.isSome) then s
    else s.restoreEngines uid d k

/-- Ends the pre-emptions of a region that no request holds any more, but those that a test picks, and resumes what they held
(R128). -/
def State.resumeRegion (s : State) (f : Preempt → PreBy → Bool) (r : Nat) : State :=
  match s.region? r with
  | none => s
  | some g =>
    let ends := fun (p : Preempt) => p.region == r && (p.left f).owners.isEmpty
    let gone := s.clusters.flatMap fun k => (k.2.pre.filter ends).map fun p => (k.1, p)
    let more := gone.filterMap fun q =>
      if !q.2.discards then none
      else some { region := r, die := q.1 / 16, cl := q.1 % 16,
                  segment := g.segment (q.1 / 16) ((clusterCores (q.1 % 16)).headD 0), count := q.2.nDiscard : Restart }
    let s : State := { s with
      clusters := KMap.mapD s.clusters Cluster.empty fun k =>
        { k with pre := (k.pre.filter fun p => !(ends p)).map fun (p : Preempt) => if p.region = r then p.left f else p }
      restarts := s.restarts ++ more }
    let mine := (s.ctxs.filter fun p => p.2.region == r && p.2.state == CxState.suspended).map (·.1)
    let s := mine.foldl (fun (s : State) u => s.wakeEngines u) s
    let s := (s.placeHeld (s.heldCtxs r) 0).resumeScheds r
    let s := (s.makeRestarts s.restarts).resumePosts r
    if s.clusters.any fun k => k.2.pre.any fun p => p.region == r && p.stage == .out then s
    else s.setRegionState r (if g.account = g.rcb ∧ s.exhausted r then 2 else 0)

/-- Ends the requests for regions that a test picks. -/
def State.resumeAll (s : State) (f : Preempt → PreBy → Bool) (rs : List Nat) : State :=
  rs.foldl (fun (s : State) r => s.resumeRegion f r) s

/-! ## The forced phase (R125) -/

/-- Something of the region on the cluster must still end before its choice is finished: under drain a fill or a command,
under save a started matrix command, the end of a copy command, its writes under way or a landing handler. -/
def State.notFinished (s : State) (d cl r choice : Nat) : Bool :=
  if choice = 0 then s.outstanding d cl r
  else choice = 1 && (clusterCores cl).any fun c =>
    ((s.core d c).mat.started.any fun m => s.inRegion r m.uid) || match (s.core d c).cpy.run with
      | some x => s.copyIn r x.cmd && (x.landing || x.end?.isSome || s.runWaits d x)
      | none => false

/-- A recall resumes its borrower's regions at once on the clusters that they still hold: what the slice has given up goes
on there while the slice waits for its power cycle (R401; chapter 21). -/
def State.recallResumes (s : State) (d cl r : Nat) : State :=
  match s.preOf d cl r with
  | some p =>
    if p.owners.contains (.recall (clKey d cl)) then
      s.resumeRegion (fun q o => q.stage == .out && o == .recall (clKey d cl)) r
    else s
  | none => s

/-- Finishes the choice of a cluster: the region is pre-empted there. -/
def State.finishChoice (s : State) (d cl r choice : Nat) : State :=
  match s.region? r with
  | none => s
  | some g =>
    let s := if choice = 2 then s.discardCluster d cl r g
      else (clusterCores cl).foldl (fun (s : State) c => s.saveCore d cl r choice g c) s
    let s := (s.modPre d cl r fun p => { p with stage := .out }).setRegionState r 3
    ((s.pausePosts d r).preemptDone).recallResumes d cl r

/-- COOPERATIVE_WINDOW_END, after the last cycle of the window, in which a `YIELD` still wins: the cluster chooses, every context in a slot is forced, and a choice that nothing holds up is
finished at once. -/
def execCooperativeWindowEnd (d : DieNo) (cl : ClusterNo) (region : BitVec 32) (s : State) : Out :=
  let r := region.toNat
  match s.preOf d.val cl.val r with
  | none => .next s
  | some p => match p.stage with
    | .window t =>
      if s.cyc d.val ≤ t then .next s
      else
        let q := s.choose d.val cl.val r p.remain
        let s := (q.2.addForced r (q.2.slotCtxs d.val cl.val r).length).modPre d.val cl.val r fun p =>
          { p with stage := .draining, choice := some q.1 }
        if s.notFinished d.val cl.val r q.1.val then .next s else .next (s.finishChoice d.val cl.val r q.1.val)
    | _ => .next s

/-- PREEMPT_DRAIN_COMPLETE: what held up the choice of a cluster has ended. -/
def execPreemptDrainComplete (d : DieNo) (cl : ClusterNo) (region : BitVec 32) (s : State) : Out :=
  let r := region.toNat
  match s.preOf d.val cl.val r with
  | none => .next s
  | some p => match p.stage, p.choice with
    | .draining, some ch =>
      if s.notFinished d.val cl.val r ch.val then .next s else .next (s.finishChoice d.val cl.val r ch.val)
    | _, _ => .next s

/-! ## Events of resuming (R128) -/

/-- REGION_RESUME: the launch controller lifts its request for a region and its descendants; held continuations that found
no cluster are placed where one is now held. -/
def execRegionResume (region : BitVec 32) (s : State) : Out :=
  .next (s.resumeAll (fun _ o => o == .controller) (s.descendants region.toNat)).preemptDone

/-- RESTART_CONTINUATION_CREATE: a restart continuation that was held back is made. -/
def execRestartContinuationCreate (region : BitVec 32) (s : State) : Out :=
  .next (s.makeRestarts (s.restarts.filter fun q => q.region == region.toNat))

end Sys2Proof.Machine
end

