-- ==== Sys2Proof/Machine/World.lean ====
section
/-! DEFINITION. Scrubbing (R160, R399), sealed handles (R368, R369), protection extents (R370, R371), the retirement of
worlds (R375), the end of launches (R82, R112) and the report of a teardown (R404, R405). -/

namespace Sys2Proof.Machine

/-! ## Scrubbing -/

/-- Line numbers of `[a, a + n)` that lie in a unit. -/
def linesIn (a n u len : Nat) : List Nat :=
  let lo := max a u
  let hi := min (a + n) (u + len)
  (List.range ((hi - lo + 63) / 64)).map fun i => lo / 64 + i

/-- Lines `[a, a + n)` within `[u, u + len)` hold stored bytes as they are. -/
def Memory.markRaw (m : Memory) (a n u len : Nat) : Memory :=
  let ls := linesIn a n u len
  match ls with
  | [] => m
  | l :: _ => { m with raws := KSet.setRange m.raws true l ls.length }

/-- Lines of protected DRAM and CXL memory in the range, with what their tags cover: a scrub leaves tags alone (R372),
but for those that lie in the range, in the tail of a CXL region. -/
def State.tagsUnder (s : State) (a n : Nat) : List (Nat × List Byte) :=
  (s.mem.prot.filter fun p => p.2.owner != 0 && overlaps a n (p.1 * 2 ^ 20) (2 ^ 20) && s.isXts (p.1 * 2 ^ 20)).flatMap
    fun p =>
      let ls := linesIn a n (p.1 * 2 ^ 20) (2 ^ 20)
      (ls.map fun l => (l, (KMap.look s.mem.macs l).getD (s.storedLine l))) ++ ls.flatMap fun l => match s.tailTags l with
        | some b => (List.range 8).map fun i => (b + i, List.replicate 8 (0 : Byte))
        | none => []

/-- Memory of a range is scrubbed: it holds zero, full, not poisoned, with layout tag 0, whatever keys lay over it. -/
def State.scrubBytes (s : State) (a n : Nat) : State :=
  let tags := s.tagsUnder a n
  let m := s.mem.scrub a n
  let m := m.prot.foldl (fun (m : Memory) p =>
    let u := p.1 * 2 ^ 20
    if !(overlaps a n u (2 ^ 20)) then m
    else if within u (2 ^ 20) a n then { m with prot := KMap.put m.prot p.1 { p.2 with layers := [], tail := none } }
    else if p.2.layers.isEmpty then m
    else m.markRaw a n u (2 ^ 20)) m
  let m := tags.foldl (fun (m : Memory) t =>
    { m with raws := KSet.set m.raws t.1 true, macs := KMap.put m.macs t.1 t.2 }) m
  let s := { s with mem := m }
  let grans := (List.range ((a + n + 65535) / 65536 - a / 65536)).map fun i => (a / 65536 + i) * 65536
  match s.homeOf a with
  | .local _ _ => grans.foldl (fun (s : State) g =>
      if (s.protOf g).2.isEmpty then s else { s with mem := s.mem.markRaw a n g 65536 }) s
  | _ => s

/-- A scrub is done: but for what has been written there since it was asked for, which stays (R399), and the waits that its
words now satisfy end. -/
def State.scrubDone (s : State) (q : Scrub) : State :=
  let kept := q.kept.map fun k => (k.1, k.2.1, s.readBytes k.1 k.2.1 k.2.2)
  let words := (q.kept.flatMap fun k => wordsOf k.2.1 k.2.2).map fun x => (x, s.isFull x, s.isPoisoned x)
  let s := ((s.editImages q.base q.len).scrubBytes q.base q.len).editDone q.base q.len
  let s := kept.foldl (fun (s : State) k => s.writeBytes k.1 k.2.1 k.2.2) s
  let s := words.foldl (fun (s : State) x => (s.setFull x.1 x.2.1).setPoison x.1 x.2.2) s
  ((s.track q.base q.len).endMonitors q.base q.len).serve q.base q.len

/-- Scrubs a range at once. -/
def State.scrubRange (s : State) (a n : Nat) : State := s.scrubDone { base := a, len := n, cmd := false, kept := [] }

/-- The range lies within one populated range of vault, DRAM or CXL memory, or of local memory where `loc` allows it. -/
def State.oneRange (s : State) (a n : Nat) (loc : Bool) : Bool :=
  let h := s.homeOf a
  s.homeOf (a + n - 1) == h && match h with
    | .vault _ _ | .dram _ | .cxl _ => true
    | .local _ _ => loc
    | _ => false

/-! ## Sealed handles (R368, R369) -/

/-- What an opened handle names. -/
structure Handle where
  world  : Nat
  job    : Nat
  secret : BitVec 256
  digest : BitVec 256
  meas   : BitVec 256
  exts   : List Nat

/-- The extents of a handle. -/
def handleExts (n : Nat) : List Nat := (List.range 8).map fun i => bits n (1087 + 384 * i) (704 + 384 * i)

/-- A res0 bit of a handle is set, in its header or in an extent (R369). -/
def handleReserved (n : Nat) : Bool :=
  bits n 31 20 != 0 || bits n 63 48 != 0 || bits n 127 80 != 0 || bits n 3839 3776 != 0
    || (handleExts n).any fun e => bits e 7 3 != 0

/-- A handle of 512 bytes that passes the first three checks: version and res0 bits, tag, wrapped secret. -/
def State.openHandle (s : State) (bs : List Byte) : Option Handle :=
  let n := leNat bs
  if bits n 15 0 ≠ 1 ∨ handleReserved n = true then none
  else
    let key := KMap.lookD s.trust.slots (bits n 19 16) 0
    let ctx := leBytes 2 (bits n 47 32) ++ leBytes 2 (bits n 79 64)
    if key = 0 then none
    else if hmac (kdf (leBytes 32 key.toNat) (labelBytes "tag") ctx 32) (bs.take 480) ≠ bs.drop 480 then none
    else match keyUnwrap (kdf (leBytes 32 key.toNat) (labelBytes "wrap") ctx 32) ((bs.drop 16).take 40) with
      | none => none
      | some w =>
        if bits n 47 32 = 0 then none
        else some { world := bits n 47 32, job := bits n 79 64, secret := digestField w, digest := digestField (sha256 bs),
                    meas := BitVec.ofNat 256 (bits n 703 448),
                    exts := handleExts n }

/-- The key material of a world, as one number: its secret with the job and the world that its keys are bound to. Every key
is derived from it where it is used (`worldSubkey`). -/
def Handle.keyOf (h : Handle) : Nat := (h.secret.toNat * 65536 + h.job) * 65536 + h.world

/-! ## Extents (R371) -/

def extKind (n : Nat) : Nat := bits n 2 0
def extMib (n : Nat) : Nat := bits n 63 44
def extPhys (n : Nat) : Nat := bits n 127 64
def extChunks (n : Nat) : Nat := bits n 43 8
def extRoot (n : Nat) : Nat := bits n 383 128

/-- The extent is valid and free. -/
def State.extOk (s : State) (n : Nat) : Bool :=
  let len := extMib n * 2 ^ 20
  let hash := extKind n == 4
  extKind n == 0 ||
    (decide (extKind n ≤ 4) && extMib n != 0 && extPhys n % 2 ^ 20 == 0 && s.oneRange (extPhys n) len false
      && (hash || (extChunks n == 0 && extRoot n == 0)) && (decide (extKind n < 3) || s.isXts (extPhys n))
      && !(s.mem.prot.any fun p => p.2.owner != 0 && overlaps (extPhys n) len (p.1 * 2 ^ 20) (2 ^ 20)))

/-- No two extents of a handle overlap. -/
def extsApart : List Nat → Bool
  | [] => true
  | e :: es => (extKind e == 0 || es.all fun f => extKind f == 0
      || !(overlaps (extPhys e) (extMib e * 2 ^ 20) (extPhys f) (extMib f * 2 ^ 20))) && extsApart es

/-- Lines of a unit that hold stored bytes go under a key with the rest. -/
def State.encRaws (s : State) (u key : Nat) : State :=
  (s.mem.raws.filter fun p => decide (u * 2 ^ 14 ≤ p.1) && decide (p.1 < (u + 1) * 2 ^ 14)).foldl (fun (s : State) p =>
    { s with mem := s.mem.setCells (p.1 * 64) (s.encLine p.1 (s.mem.cells (p.1 * 64) 64) key) }) s

/-- Treats one region of an extent by its kind: it gets its owner, its counter advances, and its tags are computed. -/
def State.treatUnit (s : State) (w key n u : Nat) : State :=
  let kind := extKind n
  let s := if kind = 1 then s.scrubRange (u * 2 ^ 20) (2 ^ 20) else if kind = 2 then s.encRaws u key else s
  let old : Prot := (KMap.look s.mem.prot u).getD { owner := 0, count := 0, layers := [], hash := none, tail := none }
  let new : Prot :=
    { owner := w, count := old.count + 1, layers := if kind = 1 ∨ kind = 2 then old.layers ++ [key] else old.layers,
      hash := if kind = 4 then some (extPhys n, extChunks n, BitVec.ofNat 256 (extRoot n)) else none, tail := none }
  { s with mem := ({ s.mem with
      prot := KMap.put s.mem.prot u new
      macs := dropRange s.mem.macs 64 (u * 2 ^ 20) (2 ^ 20)
      vers := dropRange s.mem.vers 64 (u * 2 ^ 20) (2 ^ 20) } : Memory).forget (u * 2 ^ 20) (2 ^ 20) }

/-- Treats an extent. A scrub of a retired world's region that is still to be done there comes first. -/
def State.treat (s : State) (w key n : Nat) : State :=
  if extKind n = 0 then s
  else
    let len := extMib n * 2 ^ 20
    let due := s.scrubs.filter fun q => !q.cmd && overlaps (extPhys n) len q.base q.len
    let s := due.foldl (fun (s : State) q => s.scrubDone q) s
    let s := { s with scrubs := s.scrubs.filter fun q => !(due.contains q) }
    (List.range (extMib n)).foldl (fun (s : State) i => s.treatUnit w key n (extPhys n / 2 ^ 20 + i)) s

/-! ## Status words of launches -/

/-- Fills the completion word of a launch, as `ST.fill` does (R112). -/
def State.fillDone (s : State) (l : Launch) (w : Nat) (v : BitVec 64) : State :=
  if l.done = 0 then s else s.writeAny 0 w l.done (leBytes 8 v.toNat) (some true)

/-! ## Handler tables leave (R82) -/

/-- Adds the refused counts of a table into its image. -/
def State.addRefused (s : State) (t : HTable) : State :=
  (t.entries.zipIdx.filter fun p => p.1.refused != 0).foldl (fun (s : State) p =>
    let a := t.image + 16 * p.2 + 4
    let n := min (s.readNat t.world a 4 + p.1.refused.toNat) (2 ^ 32 - 1)
    s.store t.world a (leBytes 4 n) none) s

/-- A table leaves a core. -/
def State.leaveTable (s : State) (d c : Nat) (t : HTable) : State :=
  (s.modCore d c fun k => { k with tables := k.tables.filter fun x => x.lid != t.lid }).addRefused t

/-- HANDLER_TABLE_LEAVE: the launch has ended, and no context of it remains on the core. -/
def execHandlerTableLeave (d : DieNo) (c : CoreNo) (lid : Nat) (s : State) : Out :=
  match (s.core d.val c.val).tables.find? fun t => t.lid == lid with
  | none => .next s
  | some t =>
    if (s.launch? lid).isSome || s.ctxs.any fun p => p.2.slot.isSome && p.2.lid == lid && p.2.die == d && p.2.core == c then
      .next s
    else .next (s.leaveTable d.val c.val t).prunePast

/-! ## The end of launches, regions and worlds -/

/-- Granules of local memory that regions own: die, core, granule. -/
def State.granulesOf (s : State) (rs : List Nat) : List (Nat × Nat × Nat) :=
  (s.pages.filter fun p => decide (ownerPage ≤ p.1) && decide (p.1 < ownerPage + 8 * 65536) && p.2 != 0
    && rs.contains (p.2.toNat % 2 ^ 32)).map fun p =>
      let o := p.1 - ownerPage
      (o / 65536, o % 65536 / 128, o % 128 / 8)

/-- First byte of a granule. -/
def granAddr (g : Nat × Nat × Nat) : Nat := localBase + g.1 * 2 ^ 28 + g.2.1 * 2 ^ 20 + g.2.2 * 65536

/-- A region ends with its last launch: its charges are applied, and what it holds elsewhere goes. -/
def State.endRegion (s : State) (r : Nat) : State :=
  let s := s.settle r
  let s := (s.granulesOf [r]).foldl (fun (s : State) g => s.keepKeys (granAddr g)) s
  { s with regions := KMap.del s.regions r
           restarts := s.restarts.filter fun q => q.region != r
           clusters := KMap.mapD s.clusters Cluster.empty fun k => { k with pre := k.pre.filter fun p => p.region != r } }

/-- The granules that a world's regions own are released, their contents still under its keys, and wait for their
scrub. -/
def State.releaseGranules (s : State) (rs : List Nat) : State :=
  (s.granulesOf rs).foldl (fun (s : State) g =>
    let s := s.setOwner g.1 g.2.1 g.2.2 0
    { s with scrubs := s.scrubs ++ [{ base := granAddr g, len := 65536, cmd := false, kept := [] }] }) s

/-- The protected regions of a world are made open, with their counters advanced. Until it is scrubbed a region reads as it
did, also the tail of a CXL region, whose tags were made with the key given (R375). -/
def Memory.openUnits (m : Memory) (w key : Nat) : Memory :=
  let mine := (m.prot.filter fun p => p.2.owner == w).map (·.1)
  { m with prot := KMap.mapVals m.prot fun _ p => if p.owner = w then
             { p with owner := 0, count := p.count + 1, hash := none, tail := some (key, p.count) } else p
           vers := KMap.select m.vers fun l _ => !(mine.contains (l / 2 ^ 14))
           nodes := KMap.mapVals m.nodes fun _ l => l.filter fun q => !(mine.contains (q.1 / 2 ^ 20)) }

/-- Retires a world (R375): its keys are discarded, its regions made open and left to the scrub engine, and what units
still hold of it is freed. -/
def State.retireWorld (s : State) (w : Nat) : State :=
  match KMap.look s.worlds w with
  | none => s
  | some x =>
    let left := s.cores.flatMap fun k => (k.2.tables.filter fun t => t.world == w).map fun t => (k.1, t)
    let s := left.foldl (fun (s : State) q => s.leaveTable (q.1 / 256) (q.1 % 256) q.2) s
    { s with
      worlds := KMap.del s.worlds w
      mem := s.mem.openUnits w x.key
      scrubs := s.scrubs ++ x.extents.map fun e => { base := e.1, len := e.2 * 2 ^ 20, cmd := false, kept := [] }
      cores := KMap.mapD s.cores Core.empty fun k => { k with queue := k.queue.filter fun m => m.world != w }
      net := s.net.filter fun m => m.world != w
      dies := KMap.mapD s.dies Die.empty (dropDie w)
      clusters := KMap.mapD s.clusters Cluster.empty (dropCluster w [])
      masters := KMap.select s.masters fun k _ => k / 256 != w }

/-- Ends a live launch: its barrier wires are freed, its region ends with its last launch, and its world retires with its
last (R112, R225, R366). -/
def State.endLaunch (s : State) (lid : Nat) (l : Launch) : State :=
  let others := s.launches.filter fun p => p.1 != lid
  let lastOfWorld := l.world != 0 && !(others.any fun p => p.2.world == l.world)
  let regs := match KMap.look s.worlds l.world with
    | some x => x.regs
    | none => []
  let s := if lastOfWorld then s.releaseGranules regs else s
  let s := if others.any fun p => p.2.region == l.region then s else s.endRegion l.region
  let s := { s with
    launches := KMap.mapVals (KMap.del s.launches lid) fun _ x => { x with deps := x.deps.filter (· != lid) }
    past := KMap.put s.past lid l
    scheds := KMap.del s.scheds lid }
  let s := (List.range 8).foldl (fun (s : State) d => match (s.die d).wires with
    | some q => if q.2 = lid then (s.clearWires d).giveWires d else s
    | none => s) s
  ((if lastOfWorld then s.retireWorld l.world else s).prunePast).preemptDone

/-! ## The end of a partition's reset (R397) -/

/-- A reset of a partition is done: its worlds are gone, its borrowed slices are back, and its home slices have been
power-cycled. -/
def State.resetDone (s : State) (p : Nat) : Bool :=
  !(s.partBusy p) && !(s.lends.any fun l => l.borrower == p) && !(s.cycling.any fun q => q.2 == .reset p)

/-- Ends the resets that are done: the state is 00 again, and the result word is written. -/
def State.finishResets (s : State) : State :=
  (s.resetting.map (·.1)).foldl (fun (s : State) p =>
    if !(s.resetDone p) then s
    else
      let n := s.partWaits.countP fun w => w == .reset p
      let s := { s with resetting := KMap.del s.resetting p, partWaits := s.partWaits.filter fun w => w != .reset p }
      (List.range n).foldl (fun (s : State) _ => s.partResult 0) s) s

/-! ## TEARDOWN_REPORT (R404, R405) -/

/-- A word of the report; a write that faults is skipped. -/
def State.reportWord (s : State) (w sp a v : Nat) : State :=
  match s.resolveGlobal w sp false a 8 8 .wr with
  | .ok acc => s.store w (partAt acc.parts 0) (leBytes 8 v) none
  | .error _ => s

/-- Code of what tore a world down. -/
def tearCode : TearKind → Nat
  | .noTable | .controlLine => 0
  | .slot7 => 1
  | .kill => 2
  | .reset => 3

/-- Writes the dirty-page report at an address of a space. -/
def State.writeReport (s : State) (w : Nat) (x : WorldSt) (kind : TearKind) (cause : BitVec 8) (a sp : Nat) : State :=
  if a = 0 then s
  else
    let cap := match s.resolveGlobal w sp false a 8 8 .rd with
      | .ok acc => s.readNat w (partAt acc.parts 0) 8
      | .error _ => 0
    let es := (x.dirty.map (·.1)).take cap
    let lost := x.dirtyLost || decide (cap < x.dirty.length)
    let word2 := cause.toNat + tearCode kind * 2 ^ 8 + (if lost then 2 ^ 16 else 0) + w * 2 ^ 24
    let s := s.reportWord w sp (a + 8) es.length
    let s := s.reportWord w sp (a + 16) word2
    let s := (List.range 5).foldl (fun (s : State) i => s.reportWord w sp (a + 24 + 8 * i) 0) s
    es.zipIdx.foldl (fun (s : State) p => s.reportWord w sp (a + 64 + 8 * p.2) (p.1 * 65536)) s

/-- Every write of the world has been performed, dropped or has failed. -/
def State.lastWrites (s : State) (w : Nat) : Bool :=
  !(s.dies.any fun d => d.2.ni.outst.any fun o => o.2.req.world.toNat == w)

/-- TEARDOWN_REPORT: after the last writes the root RCBs read stopped, the reports are written, the completion words fill
torn_down, and the world retires. -/
def execTeardownReport (world : BitVec 16) (s : State) : Out :=
  let w := world.toNat
  match KMap.look s.worlds w with
  | none => .next s
  | some x => match x.tear with
    | none => .next s
    | some (kind, cause) =>
      if !(s.lastWrites w) then .next s
      else
        let s := x.roots.foldl (fun (s : State) q => s.setField w q.1 109 108 1) s
        let s := (x.roots.map (·.2)).dedup.foldl (fun (s : State) q => s.writeReport w x kind cause q.1 q.2) s
        let s := s.retireSpaces w
        let mine := s.launches.filter fun p => p.2.world == w
        let s := mine.foldl (fun (s : State) p => s.fillDone p.2 w (errWord 0x0D)) s
        .next (mine.foldl (fun (s : State) p => s.endLaunch p.1 p.2) s).finishResets

end Sys2Proof.Machine
end

