-- ==== Sys2Proof/Machine/Launching.lean ====
section
/-! DEFINITION. The launch controller: launch messages (R109, R110, R422), the opening of worlds (R366, R369),
dependences, items (R104, R110, R117) and completion (R112). -/

namespace Sys2Proof.Machine

/-! ## Reading records (R103, R109) -/

/-- A record that the launch controller reads through the launching space, piece by piece: its physical address and contents. A
word of it that is poisoned, or that the read finds to be so (R373), makes it unreadable. -/
def State.readPieces (s : State) (w sp a n align : Nat) : Option (Nat × Nat) :=
  match s.resolveGlobal w sp false a n align .rd with
  | .error _ => none
  | .ok acc =>
    let p := partAt acc.parts 0
    match s.homeOf p with
    | .job _ | .page | .nowhere => none
    | _ =>
      let t := acc.parts.foldl (fun (t : State) q => t.checkRead w q.1 q.2) s
      if t.anyPoison acc.parts then none else some (p, leNat (t.readOver w acc.parts))

/-- A record aligned to 64. -/
def State.readRecord (s : State) (w sp a n : Nat) : Option (Nat × Nat) := s.readPieces w sp a n 64

/-- An RCB breaks a rule of R102 or R103. -/
def badRcb (n : Nat) : Bool :=
  bits n 2047 896 != 0 || bits n 767 717 != 0 || bits n 127 123 != 0 || bits n 111 110 != 0 || bits n 107 107 != 0
    || bits n 103 98 != 0 || bits n 97 96 == 3 || bits n 95 64 == 0

/-- Override bits of an RCB. -/
def rcbOver (n : Nat) : BitVec 13 := BitVec.ofNat 13 (bits n 716 704)

/-- The chain of RCBs from one to its root, within 16 links: physical addresses and contents. -/
def State.readChain (s : State) (w sp a : Nat) : Nat → Option (List (Nat × Nat))
  | 0 => none
  | k + 1 =>
    if a % 256 ≠ 0 then none
    else match s.readRecord w sp a 256 with
      | none => none
      | some (p, n) =>
        if badRcb n then none
        else if bits n 63 0 = 0 then (if rcbOver n = BitVec.allOnes 13 then some [(p, n)] else none)
        else (s.readChain w sp (bits n 63 0) k).map fun c => (p, n) :: c

/-- The effective value of a field: that of the nearest RCB of the chain that overrides it (R103). -/
def chainField (c : List (Nat × Nat)) (k hi lo : Nat) : Nat :=
  match c.find? fun p => (rcbOver p.2).getLsbD k with
  | some p => bits p.2 hi lo
  | none => 0

/-- The space in which a launch runs (R150): the live space bound to its region, where the launching space made it, itself
or through further creations. -/
def State.madeBy (s : State) (sp : Nat) : Nat → Nat → Bool
  | 0, _ => false
  | k + 1, t => match KMap.look s.spaces t with
    | none => false
    | some x => x.creator == sp || s.madeBy sp k x.creator

def State.runSpace (s : State) (r sp : Nat) : Nat :=
  match s.spaces.find? fun p => p.2.region == r with
  | some (t, _) => if s.madeBy sp (s.spaces.length + 1) t then t else sp
  | none => sp

/-- The report address of the root RCB of a chain (R405). -/
def chainReport (c : List (Nat × Nat)) : Nat :=
  match c.getLast? with
  | some p => bits p.2 831 768
  | none => 0

/-- What is captured of an RCB chain (R422). Of the report addresses R405 uses that of the root. -/
def captureRegion (c : List (Nat × Nat)) (space : Nat) : Region :=
  { rcb := (c.map (·.1)).headD 0, chain := c.map fun p => (p.1, rcbOver p.2), space := space,
    wgt := chainField c 0 97 96, pri := chainField c 1 106 104,
    fdie := dieOf (chainField c 2 122 120), fcore := coreNo (chainField c 2 119 112),
    restartPc := BitVec.ofNat 64 (chainField c 8 447 384), restartImg := chainField c 8 511 448,
    save := chainField c 9 575 512, arena := chainField c 10 639 576, arenaN := chainField c 10 671 640,
    report := chainReport c }

/-- The physical addresses of a region's captured chain. -/
def Region.rcbs (g : Region) : List Nat := g.chain.map (·.1)

/-! ## Handler-table images (R82) -/

/-- Entry `i` of an image. -/
def imageEntry (n i : Nat) : Nat := bits n (128 * i + 127) (128 * i)

/-- An image that makes a launch be refused. -/
def badImage (n : Nat) : Bool :=
  (List.range 64).any fun i =>
    let e := imageEntry n i
    bits e 31 6 != 0 || decide (1 < bits e 3 2) || (decide (62 ≤ i) && bits e 3 2 == 1)

/-- The entries of an image, with every refused count 0. -/
def imageEntries (n : Nat) : List HEntry :=
  (List.range 64).map fun i =>
    let e := imageEntry n i
    { pc := BitVec.ofNat 64 (bits e 127 64), refused := 0, pri := ⟨bits e 5 4 % 4, Nat.mod_lt _ (by decide)⟩,
      landing := bits e 3 2 == 1, mask := bits e 1 1 == 1, permitted := bits e 0 0 == 1 }

/-! ## Copy schedules (R308) -/

/-- Reads the entries of a schedule; none where one breaks R308. -/
def State.readEntries (s : State) (w sp a nCores : Nat) : Nat → Option (List (Nat × BitVec 64 × Nat × BitVec 512))
  | 0 => some []
  | k + 1 =>
    match s.readRecord w sp a 128 with
    | none => none
    | some (_, n) =>
      if bits n 1023 656 ≠ 0 ∨ nCores ≤ bits n 655 640 ∨ cpOk (n % 2 ^ 512) = false then none
      else (s.readEntries w sp (a + 128) nCores k).map fun es =>
        (bits n 655 640, BitVec.ofNat 64 (bits n 639 576), bits n 575 512, BitVec.ofNat 512 n) :: es

/-- The schedule at an address; none where it breaks R308. -/
def State.readSched (s : State) (w sp a nCores : Nat) : Option Sched :=
  match s.readRecord w sp a 64 with
  | none => none
  | some (_, n) =>
    let k := bits n 6 0
    if bits n 511 200 ≠ 0 ∨ bits n 39 7 ≠ 0 ∨ k = 0 ∨ 64 < k then none
    else (s.readEntries w sp (a + 64) nCores k).map fun es =>
      { n := k, rounds := bits n 71 40, sstep := BitVec.ofNat 64 (bits n 135 72), dstep := BitVec.ofNat 64 (bits n 199 136),
        entries := es, count := 0, ended := false }

/-! ## LAUNCH_MESSAGE (R110, step 1) -/

/-- Fields of a launch record (R108) that break it by themselves. R82 aligns a handler table to 64; the launches of R194, which
complete, name one that is aligned to 8 only, so no more is asked (log 36). -/
def badLaunch (n : Nat) : Bool :=
  bits n 2047 1024 != 0 || bits n 895 770 != 0 || bits n 319 296 != 0 || bits n 255 224 != 0 || bits n 767 704 == 0
    || bits n 223 192 == 0 || bits n 295 280 == 0 || bits n 279 264 == 0 || bits n 263 256 == 0
    || bits n 959 896 % 8 != 0 || bits n 191 128 % 8 != 0

/-- The nonzero dependences of a record. -/
def launchDeps (n : Nat) : List Nat :=
  ((List.range 4).map fun i => bits n (511 + 64 * i) (448 + 64 * i)).filter (· != 0)

/-- A launch record that has been read and checked: the launch, its region, whether that is a new one, its schedule. -/
structure Accepted where
  lid    : Nat
  launch : Launch
  /-- physical addresses of the RCBs from the region's to the root -/
  chain  : List Nat
  rid    : Nat
  fresh  : Option Region
  sched  : Option Sched

/-- Physical address of a completion word (R109); 0 where the record names none. -/
def State.doneAt (s : State) (w sp a : Nat) : Option Nat :=
  if a = 0 then some 0
  else match s.resolveGlobal w sp false a 8 8 .wr with
    | .ok acc => some (partAt acc.parts 0)
    | .error _ => none

/-- A new region from an RCB and its chain; none where a rule of R102 or R103 is broken or a live region has its id. R104 aligns
an arena to 64; the launches of R194, which complete, name one that is aligned to 8 only, so no more is asked. Neither is a
launch refused for a save area that is not aligned or a lim_ctx of 0, of which R103 does not speak: the first save then faults
or lies where it is put, and no context is ever made (DESIGN CHOICE, log 36). -/
def State.newRegion (s : State) (w sp a : Nat) : Option (Nat × Region) :=
  match s.readChain w sp a 17 with
  | none | some [] => none
  | some ((p, n) :: c) =>
    let r := bits n 95 64
    let g := captureRegion ((p, n) :: c) (s.runSpace r sp)
    if (s.region? r).isSome || g.arena % 8 != 0 then none else some (r, g)

/-- The region that the RCB at an address names, and the chain of RCBs from it: the live region with that RCB, whose
chain is the captured one (R422), else a new region. -/
def State.findRegion (s : State) (w sp a : Nat) : Option (Nat × List Nat × Option Region) :=
  if a % 256 ≠ 0 then none
  else match s.readRecord w sp a 256 with
    | none => none
    | some (p, n) => match s.regions.find? fun q => q.2.rcb == p with
      | some (r, g) => if badRcb n then none else some (r, g.rcbs, none)
      | none => (s.newRegion w sp a).map fun q => (q.1, q.2.rcbs, some q.2)

/-- Reads and validates a launch record. -/
def State.validate (s : State) (m : LaunchMsg) (w n done : Nat) : Option Accepted :=
  let sp := m.space
  let lid := bits n 767 704
  let deps := launchDeps n
  if badLaunch n || (s.launch? lid).isSome || deps.contains lid then none
  else match s.findRegion w sp (bits n 63 0), s.readPieces w sp (bits n 191 128) 1024 8 with
    | some (r, c, fresh), some (hp, h) =>
      if badImage h then none
      else
          let l : Launch :=
            { stage := .opening, world := 0, lworld := w, region := r, space := s.runSpace r sp, lspace := sp, entry := BitVec.ofNat 64 (bits n 1023 960), done := done, items := bits n 223 192, made := 0,
              seed := BitVec.ofNat 64 (bits n 447 384), sched := if bits n 383 320 = 0 then none else some (bits n 383 320),
              deps := deps, dies := BitVec.ofNat 8 (bits n 263 256), clusters := BitVec.ofNat 16 (bits n 279 264),
              cores := BitVec.ofNat 16 (bits n 295 280), ordered := bits n 768 768 == 1, compat := bits n 769 769 == 1,
              started := 0, broken := false, htab := imageEntries h, htabAt := hp, key := bits n 127 64, sink := m.sink,
              order := s.nextOrder, stipple := [], requests := [] }
          match l.sched with
          | none => some { lid := lid, launch := l, chain := c, rid := r, fresh := fresh, sched := none }
          | some a => (s.readSched w sp a l.nCores).map fun q =>
              { lid := lid, launch := l, chain := c, rid := r, fresh := fresh, sched := some q }
    | _, _ => none

/-- Partition of an accepted record's region. -/
def State.partOfChain (s : State) (c : List Nat) : Nat :=
  match c.getLast? with
  | some p => s.partOfRoot p
  | none => 0

/-- Takes the next launch message: from a context, else from the doorbell queue, which is held until the part is ready
(R419). -/
def State.nextLaunch (s : State) : Option (LaunchMsg × State) :=
  match s.launchMsgs with
  | m :: ms => some (m, { s with launchMsgs := ms })
  | [] => match s.bells with
    | .launch a :: bs => if s.boot.phase ≠ 1 then none else some ({ space := 0, addr := a, issuer := none, sink := .nowhere }, { s with bells := bs })
    | _ => none

/-- World of the launching context. -/
def State.launchWorld (s : State) (m : LaunchMsg) : Nat :=
  match m.issuer with
  | some r => s.regionWorld r
  | none => 0

/-- A launch is refused: its status and its completion word fill with the code (R112). -/
def State.refuseLaunch (s : State) (k : Sink) (w done code : Nat) : State :=
  let s := if done = 0 then s else s.writeAny 0 w done (leBytes 8 (errWord code).toNat) (some true)
  s.sink k (errWord code)

/-- The chain passes through the issuing region's RCB (R121); the host's launches need not. -/
def State.descends (s : State) (m : LaunchMsg) (c : List Nat) : Bool :=
  match m.issuer with
  | none => true
  | some r => match s.region? r with
    | some g => c.contains g.rcb
    | none => false

/-- The loan of a slice, with the cycle at which its recall ends. -/
def Lend.recallAt (l : Lend) (slice t : Nat) : Lend := if l.slice = slice then { l with recalled := some t } else l

/-- Begins the recall of a lent slice (R401): a pre-emption request for every borrower region on it, with deadline D and
window min(ywin, D / 2). -/
def State.startRecall (s : State) (slice deadline : Nat) : State :=
  match s.lendOf slice with
  | none => s
  | some l =>
    if l.recalled.isSome then s
    else
      let s : State := { s with lends := s.lends.map fun (x : Lend) => x.recallAt slice (s.cyc (slice / 16) + deadline) }
      (s.regions.filter fun p => s.partOfRegion p.1 == l.borrower).foldl (fun (s : State) p =>
        s.openWindow p.1 slice (min (s.ywin p.1) (deadline / 2)) deadline (.recall slice)) s

/-- Selected slices that the launch's own partition has lent out. -/
def State.lentSlices (s : State) (l : Launch) (p : Nat) : List Nat :=
  l.clusterList.filter fun k => match s.lendOf k with
    | some x => x.lender == p
    | none => false

/-- A launch that has been validated: it is refused, waits for the recall of slices that it selects (R401), or is handed
to the Trust Controller. -/
def State.admitLaunch (s : State) (m : LaunchMsg) (w done : Nat) (a : Accepted) : State :=
  let p := s.partOfChain a.chain
  let lent := s.lentSlices a.launch p
  let others := a.launch.clusterList.filter fun k => !(lent.contains k)
  if KMap.has s.resetting p || !(others.all fun k => s.partHolds p k) then s.refuseLaunch m.sink w done 9
  else if !(s.descends m a.chain) then s.refuseLaunch m.sink w done 0x0B
  else if !lent.isEmpty then
    let s := lent.foldl (fun (s : State) k => match s.lendOf k with
      | some x => s.startRecall k x.deadline
      | none => s) s
    { s with launchMsgs := s.launchMsgs ++ [m] }
  else
    { s with
      nextOrder := s.nextOrder + 1
      regions := match a.fresh with
        | some g => KMap.put s.regions a.rid g
        | none => s.regions
      launches := KMap.put s.launches a.lid a.launch
      scheds := match a.sched with
        | some q => KMap.put s.scheds a.lid q
        | none => s.scheds }

/-- LAUNCH_MESSAGE (R110, step 1). A record that cannot be read has no completion word to fill. -/
def execLaunchMessage (s : State) : Out :=
  match s.nextLaunch with
  | none => .next s
  | some (m, s) =>
    let w := s.launchWorld m
    if m.addr % 256 ≠ 0 then .next (s.sink m.sink (errWord 9))
    else match s.readRecord w m.space m.addr 256 with
      | none => .next (s.sink m.sink (errWord 9))
      | some (_, n) =>
        match s.doneAt w m.space (bits n 959 896) with
        | none => .next (s.sink m.sink (errWord 9))
        | some done => match s.validate m w n done with
          | none => .next (s.refuseLaunch m.sink w done 9)
          | some a => .next (s.admitLaunch m w done a)

/-! ## WORLD_OPEN (R366, R369) -/

/-- A launch that is not accepted leaves: its region goes too when no other launch names it. -/
def State.dropLaunch (s : State) (lid : Nat) (l : Launch) : State :=
  let others := s.launches.filter fun p => p.1 != lid
  { s with launches := KMap.mapVals (KMap.del s.launches lid) fun _ x => { x with deps := x.deps.filter (· != lid) }
           scheds := KMap.del s.scheds lid
           regions := if others.any fun p => p.2.region == l.region then s.regions else KMap.del s.regions l.region }

/-- The launch is refused by the Trust Controller. -/
def State.refuseOpening (s : State) (lid : Nat) (l : Launch) (code : Nat) : State :=
  (s.dropLaunch lid l).refuseLaunch l.sink l.lworld l.done code

/-- Checks 4 and 5 of R369, for a world that is not live: the measurement, and the extents. -/
def State.mayOpen (s : State) (h : Handle) : Bool × State :=
  let q := if h.meas = 0 then (true, s) else
    let m := s.summary
    (m.1 == h.meas, m.2)
  (q.1 && h.exts.all (fun e => s.extOk e) && extsApart h.exts && decide (s.worlds.length < 1024), q.2)

/-- A new world, with its extents treated (R369, R371). -/
def State.newWorld (s : State) (h : Handle) (weight : Nat) : State :=
  let s := h.exts.foldl (fun (s : State) e => s.treat h.world h.keyOf e) s
  let x : WorldSt :=
    { key := h.keyOf, secret := h.secret, job := h.job, digest := h.digest, weight := weight,
      extents := (h.exts.filter fun e => extKind e != 0).map fun e => (extPhys e, extMib e), dirty := [], dirtyLost := false,
      viewSerial := 0, tear := none, roots := [], regs := [] }
  { s with worlds := KMap.put s.worlds h.world x }

/-- The fields of an RCB that only the part writes take their reset values where no other accepted launch names it
(R102). -/
def State.resetRcb (s : State) (w r : Nat) (g : Region) : State :=
  if s.launches.any fun p => p.2.region == r && p.2.stage != .opening then s
  else
    let s := s.setField w g.rcb 319 192 0
    let s := s.setField w g.rcb 895 832 0
    s.setField w g.rcb 109 108 0

/-- The live region with a given RCB. -/
def State.regionAt (s : State) (rcb : Nat) : Option Region :=
  s.regions.findSome? fun q => if q.2.rcb = rcb then some q.2 else none

/-- An id names a launch that has been accepted: only such a one counts as a dependence, so that no cycle of dependences
forms (R110). -/
def State.accepted (s : State) (lid : Nat) : Bool :=
  match s.launch? lid with
  | some l => l.stage != .opening
  | none => false

/-- A launch is accepted in a world: its status fills, and it waits for its dependences. -/
def State.acceptLaunch (s : State) (lid : Nat) (l : Launch) (w : Nat) (g : Region) : State :=
  let s := s.resetRcb l.lworld l.region g
  let root := chainRoot g.chain
  let h := (s.regionAt root).getD g
  let s := { s with
    launches := KMap.put s.launches lid { l with world := w, stage := .waiting, deps := l.deps.filter s.accepted }
    worlds := KMap.modify s.worlds w fun x =>
      { x with roots := (x.roots.filter (·.1 != root)) ++ [(root, h.report, h.space)], regs := (x.regs.filter (· != l.region)) ++ [l.region] } }
  let s := (List.range 8).foldl (fun (s : State) d => s.giveWires d) s
  s.sink l.sink 0

/-- The Trust Controller opens or joins the world of a handle, for a launch. -/
def State.openFor (s : State) (lid : Nat) (l : Launch) (g : Region) (h : Handle) : State :=
  let full := decide (256 ≤ (s.launches.filter fun p => p.2.stage != .opening).length)
  match KMap.look s.worlds h.world with
  | some x =>
    if x.secret ≠ h.secret then s.refuseOpening lid l 0x0A
    else if x.tear.isSome then s
    else if full then s.refuseOpening lid l 0x0C
    else s.acceptLaunch lid l h.world g
  | none =>
    let q := s.mayOpen h
    if !q.1 then q.2.refuseOpening lid l 0x0A
    else if full then q.2.refuseOpening lid l 0x0C
    else (q.2.newWorld h (g.wgt + 1)).acceptLaunch lid l h.world g

/-- WORLD_OPEN. A launch that names a world whose teardown is under way waits until it has retired. -/
def execWorldOpen (lid : Nat) (s : State) : Out :=
  match s.launch? lid with
  | none => .next s
  | some l =>
    if l.stage != .opening then .next s
    else match s.region? l.region with
      | none => .next s
      | some g => match s.readRecord l.lworld l.lspace l.key 512 with
        | none => .next (s.refuseOpening lid l 0x0A)
        | some (_, n) => match s.openHandle (leBytes 512 n) with
          | none => .next (s.refuseOpening lid l 0x0A)
          | some h => .next (s.openFor lid l g h)

/-! ## Items (R110, steps 3 to 5) -/

/-- Creates the next item of a running launch, where an arena slot is free and the region is below its limit. A failure
met in creating it ends the launch (R104). -/
def State.makeItem (s : State) (lid : Nat) (l : Launch) : State :=
  if l.items ≤ l.made ∨ l.broken = true then s
  else match s.region? l.region, s.freeRecord l.region l.space with
    | some g, some k =>
      let cls := l.clusterList
      let key := (cls[l.made % max 1 cls.length]?).getD 0
      let n : Context := { Context.fresh l.world l.space l.region lid (BitVec.ofNat 64 l.made) (dieOf (key / 16))
          (coreNo (l.firstCore key)) l.entry l.compat with
        record := (g.slotAt k).1, image := (g.slotAt k).2, pri := g.pri, unstarted := true }
      let u := s.nextUid
      let r := (s.addCtx n).writeRecord u
      match r.2 with
      | some _ => { r.1 with ctxs := KMap.del r.1.ctxs u, launches := KMap.put r.1.launches lid { l with broken := true } }
      | none =>
        ({ r.1 with launches := KMap.put r.1.launches lid { l with made := l.made + 1 } }).enqueue u (key / 16) (key % 16)
    | _, _ => s

/-- LAUNCH_DEPENDENCES_MET: the launch starts to place its items. -/
def execLaunchDependencesMet (lid : Nat) (s : State) : Out :=
  match s.launch? lid with
  | none => .next s
  | some l =>
    if l.stage != .waiting || s.torn l.world || l.deps.any fun d => (s.launch? d).isSome then .next s
    else
      let l := { l with stage := .running }
      .next ({ s with launches := KMap.put s.launches lid l }.makeItem lid l)

/-- ITEM_CREATION. -/
def execItemCreation (lid : Nat) (s : State) : Out :=
  match s.launch? lid with
  | none => .next s
  | some l => if l.stage != .running || s.torn l.world then .next s else .next (s.makeItem lid l)

/-! ## LAUNCH_COMPLETION (R112) -/

/-- An engine command of a world is outstanding. -/
def State.worldCommands (s : State) (w : Nat) : Bool :=
  (s.cores.any fun k => (k.2.vec.any fun v => v.world == w) || (k.2.mat.commands.any fun m => m.world == w)
      || ((k.2.cpy.run.toList.map (·.cmd)) ++ k.2.cpy.queue ++ k.2.cpy.sched).any fun q => q.world == w)
    || (s.dies.any fun d => d.2.quant.any fun q => q.world == w)
    || (s.savedVec.any fun v => v.world == w) || s.savedCpy.any fun q => q.2.world == w

/-- Every continuation of the world has retired, and every store of its contexts is complete. A world's last launch also
waits for the handlers that still run. -/
def State.worldQuiet (s : State) (w : Nat) (last : Bool) : Bool :=
  s.ctxs.all fun p => p.2.world != w
    || (!last && p.2.record == 0 && p.2.sbuf.isEmpty && !(s.remoteStores p.1))

/-- LAUNCH_COMPLETION. -/
def execLaunchCompletion (lid : Nat) (s : State) : Out :=
  match s.launch? lid with
  | none => .next s
  | some l =>
    let last := !(s.launches.any fun p => p.1 != lid && p.2.world == l.world)
    if l.stage != .running || s.torn l.world || (!l.broken && decide (l.made < l.items)) || s.worldCommands l.world
        || !(s.worldQuiet l.world last) then .next s
    else .next ((s.fillDone l l.world (if l.broken then errWord 9 else 0)).endLaunch lid l)

/-! ## BUDGET_CHARGE (R106) -/

/-- BUDGET_CHARGE. -/
def execBudgetCharge (account : Nat) (s : State) : Out := .next (s.applyCharge account)

end Sys2Proof.Machine
end

