-- ==== Sys2Proof/Machine/Placement.lean ====
section
/-! DEFINITION. The cluster schedulers: placement and stealing of continuations (R77, R79, R113, R117), what a lent slice
takes (R400), and tile tasks (R120). -/

namespace Sys2Proof.Machine

/-! ## The ready queue (R113) -/

/-- Priority of a continuation: its own, or a lent one (R118). -/
def State.ctxPri (s : State) (c : Context) : Nat :=
  let e := s.effPri c.region
  match s.region? c.region with
  | some g => if e < g.pri then min c.pri e else c.pri
  | none => c.pri

/-- The ready queue of a cluster, first continuation first. -/
def State.readyQueue (s : State) (key : Nat) : List (Nat × Context) :=
  let q := s.ctxs.filter fun p => p.2.queued.isSome && p.2.queueAt == key && p.2.state == CxState.ready && !p.2.held
  (q.mergeSort fun a b => decide (a.2.queued.getD 0 ≤ b.2.queued.getD 0)).mergeSort fun a b =>
    decide (s.ctxPri a.2 ≤ s.ctxPri b.2)

/-- A placement opportunity tests the budgets of the regions in the queue again (R107). -/
def State.retestQueue (s : State) (key : Nat) : State :=
  ((s.readyQueue key).map fun p => p.2.region).dedup.foldl (fun (s : State) r => s.retestBudget r) s

/-! ## Lent slices (R400) -/

/-- Lines that an engine command adds to E_save, by its opcode: 0 for what is no engine command. -/
def engineShare (op : Nat) : Nat :=
  if 0x80 ≤ op ∧ op < 0xA0 then 7 else if 0xA0 ≤ op ∧ op < 0xB0 then 1 else if 0xB0 ≤ op ∧ op < 0xB3 then 2 else 0

/-- The condition of R400 for a region on a lent slice, with more lines to save on a core, and with a command under way when
`cmd` is set. How long a command takes is a free value, as in E_drain. -/
def State.lentFits (s : State) (r key deadline core more : Nat) (cmd : Bool) : Bool × State :=
  let d := key / 16
  let cl := key % 16
  let limit := deadline - min (s.ywin r) (deadline / 2)
  let e := s.eDrain d cl r
  let q := if cmd then e.2.draw else (0, e.2)
  let fits := match e.1 with
    | some n => decide (n + q.1.toNat ≤ limit)
    | none => false
  (fits || decide (q.2.eSaveWith d cl r core more ≤ limit), q.2)

/-- What stands before the execution of an instruction of a context on a lent slice: an engine instruction waits until
its command fits (R400). -/
def State.prepareIssue (s : State) : Prepared :=
  match s.prepare with
  | .stop t => .stop t
  | .run i t => match t.ctx? t.issuing with
    | none => .run i t
    | some c =>
      let key := clKey c.die.val (clusterOf c.core.val)
      match t.lendOf key with
      | none => .run i t
      | some l =>
        let n := engineShare (t.nextOpcode c)
        if n = 0 || t.partOfRegion c.region != l.borrower then .run i t
        else
          let q := t.lentFits c.region key l.deadline c.core.val n true
          if q.1 then .run i q.2 else .stop (q.2.blocked q.2.issuing .other)

/-! ## Placement (R77, R113) -/

/-- The continuation has passed into running under its launch's order (R117). -/
def State.turnOf (s : State) (c : Context) : Bool :=
  match s.factsOf c.lid with
  | some l => !l.ordered || !c.unstarted || decide (c.item.toNat ≤ l.started)
  | none => false

/-- The launch of a continuation selects a core that has its handler table or room for it. -/
def State.coreFits (s : State) (c : Context) (d k : Nat) : Bool :=
  (match s.factsOf c.lid with
    | some l => l.selects d k
    | none => false) && s.tableRoom d k c.lid

/-- A register is pending, or a store has not left the buffer: the continuation is bound to its core (R60, R184). So is one
that has waited on barrier wires, whose counts are the core's (R226; chapter 14 has it resume only there; log 102). A store
that waits in the retry list of its home has left the buffer (R167, R338). -/
def Context.bound (c : Context) : Bool := c.anyPend || (c.sbuf.any fun e => !e.admitted) || c.tied

/-- A continuation passes the tests of R113 on a core, whose register cache has room for its control line (R59, R86). -/
def State.placeable (s : State) (d k uid : Nat) (c : Context) : Bool :=
  let cl := clusterOf k
  !(s.exhausted c.region) && !(s.preempted d cl c.region) && s.regionHolds c.region (clKey d cl)
    && !(s.isCycling (clKey d cl)) && s.turnOf c && s.coreFits c d k
    && (!c.bound || (c.die.val == d && c.core.val == k))
    && (!(KMap.has s.savedMat uid) || (s.core d k).mat.owner.isNone)
    && ((KMap.has c.lines 72 && c.die.val == d && c.core.val == k) || (s.linesRoom d k 1).isSome)

/-- The condition of R400 with a continuation added, and the saved engine state that it brings back, where the slice is
lent. -/
def State.lentTakes (s : State) (d k uid : Nat) (c : Context) : Bool × State :=
  let key := clKey d (clusterOf k)
  match s.lendOf key with
  | none => (true, s)
  | some l =>
    let t := (s.modCtx uid fun x => { x with slot := some 0, die := dieOf d, core := coreNo k }).restoreEngines uid d k
    let q := t.lentFits c.region key l.deadline k 0 false
    (q.1, { s with draws := q.2.draws })

/-- The first continuation of a list that may be placed on a core. -/
def State.firstPlaceable (s : State) (d k : Nat) : List (Nat × Context) → Option Nat × State
  | [] => (none, s)
  | p :: ps =>
    if s.placeable d k p.1 p.2 then
      let q := s.lentTakes d k p.1 p.2
      if q.1 then (some p.1, q.2) else q.2.firstPlaceable d k ps
    else s.firstPlaceable d k ps

/-- The control line of a continuation comes into the register cache, with room made for it (R59, R61). -/
def State.bringControl (s : State) (uid d k : Nat) : State :=
  match s.ctx? uid with
  | none => s
  | some c =>
    if KMap.has c.lines 72 then s.modCtx uid fun c => c.touch (s.core d k).uses false [72]
    else match s.lineRoom d k with
    | none => s
    | some s => match s.ctx? uid with
      | none => s
      | some c =>
        let y := match s.withLine c 72 with
          | .ok y => y
          | .error e => c.lineFailed 72 e.1
        s.setCtx uid { y with lines := KMap.put y.lines 72 { dirty := false, evict := false, use := (s.core d k).uses } }

/-- PC at which a continuation resumes, which its record may hold anew (R78). A line that the read finds poisoned (R373) gives
none: the continuation goes on from its own (log 98). -/
def State.recordPc (s : State) (c : Context) : BitVec 64 :=
  match s.recordLine c with
  | .ok ps =>
    let t := ps.foldl (fun (t : State) q => t.checkRead c.world q.1 q.2) s
    if t.anyPoison ps then c.pc else BitVec.ofNat 64 (leNat ((t.readOver c.world ps).drop 56))
  | .error _ => c.pc

/-- Before another core takes a continuation, the core that holds its lines writes them back (R60). -/
def State.moveLines (s : State) (uid d k : Nat) : State :=
  match s.ctx? uid with
  | none => s
  | some c =>
    if c.die.val = d ∧ c.core.val = k then s
    else if c.lines.isEmpty then s
    else
      let r := s.saveLines c
      let s := r.1.setCtx uid { r.2.1 with lines := [], queued := if r.2.1.state == CxState.ready then r.2.1.queued else none }
      if !r.2.2 then s.stopWorld c.world .controlLine c.cause.toNat
      else if r.2.1.state == CxState.ready then s
      else s.changed uid 0

/-- An item reaches running (R117). -/
def State.startItem (s : State) (c : Context) : State :=
  if c.unstarted then
    { s with launches := KMap.modify s.launches c.lid fun l => { l with started := l.started + 1 } }
  else s

/-- A ready continuation takes a slot of a core. -/
def State.placeOn (s : State) (uid d k n : Nat) : State :=
  let s := s.moveLines uid d k
  match s.ctx? uid with
  | none => s
  | some c =>
    if c.state != CxState.ready then s
    else
      let pc := s.recordPc c
      let s := ((s.settle c.region).startItem c).loadTable d k c.lid
      let s := s.modCtx uid fun c =>
        { c with state := .running, die := dieOf d, core := coreNo k, queued := none, unstarted := false, tied := false, pc := pc,
                 pastEnd := c.pastEnd && pc == c.pc, block := if pc == c.pc then c.block else none, wait := .none, why := none, stepped := none, skip := false, stallTo := 0,
                 lines := KMap.mapVals c.lines fun _ l => { l with evict := false } }
      let s := ((s.bringControl uid d k).enterSlot uid d k n).restoreEngines uid d k
      let r := s.writeRecord uid
      match r.2 with
      | some e => r.1.takeFault uid 0 e.1 e.2 pc
      | none => r.1

/-- CONTINUATION_PLACEMENT. -/
def execContinuationPlacement (d : DieNo) (c : CoreNo) (s : State) : Out :=
  let key := clKey d.val (clusterOf c.val)
  match s.freeSlot d.val c.val, s.firstStartable d.val c.val (s.core d.val c.val).queue 0 with
  | some n, none =>
    let s := s.retestQueue key
    let q := s.firstPlaceable d.val c.val (s.readyQueue key)
    match q.1 with
    | some u => .next (q.2.placeOn u d.val c.val n)
    | none => .next q.2
  | _, _ => .next s

/-- A cluster is saturated (R113). -/
def State.saturated (s : State) (d cl : Nat) : Bool :=
  !(s.readyQueue (clKey d cl)).isEmpty && decide (256 ≤ (s.cluster d cl).busy)

/-- What an idle cluster may steal: the first unbound continuation of a saturated cluster's queue whose launch selects a core
of the idle cluster with a free slot (R113). -/
def State.stealable (s : State) (d victim mine : Nat) : Option (Nat × Context) :=
  let free := (clusterCores mine).filter fun k => (s.freeSlot d k).isSome
  (s.readyQueue (clKey d victim)).find? fun p => !p.2.bound && match s.factsOf p.2.lid with
    | some l => free.any fun k => l.selects d k
    | none => false

/-- STEAL_CONTINUATION. -/
def execStealContinuation (d : DieNo) (victim : ClusterNo) (c : CoreNo) (s : State) : Out :=
  let mine := clusterOf c.val
  if mine = victim.val || !(s.saturated d.val victim.val) || !(s.readyQueue (clKey d.val mine)).isEmpty then .next s
  else match s.freeSlot d.val c.val, s.firstStartable d.val c.val (s.core d.val c.val).queue 0 with
    | some n, none =>
      let s := s.retestQueue (clKey d.val victim.val)
      let q := s.firstPlaceable d.val c.val (s.stealable d.val victim.val mine).toList
      match q.1 with
      | some u => .next (q.2.placeOn u d.val c.val n)
      | none => .next q.2
    | _, _ => .next s

/-! ## CONTINUATION_READY (R79) -/

/-- What the continuation waited for has come. -/
def Context.waitOver (c : Context) : Bool :=
  match c.wait with
  | .none => true
  | .reg r => c.isFull r && !(c.isPend r)
  | _ => false

/-- The pending fault of a continuation is that of an image line, which waits for its resumption (R59). -/
def Context.imageFault (c : Context) (f : BitVec 8 × BitVec 64) : Bool := within f.2.toNat 1 c.image 4672

/-- CONTINUATION_READY: a suspended continuation becomes ready at the PC that its record holds (R78) and enters the ready
queue of its cluster (R113), or is faulted where a withdrawal has ended its wait (R143). One that waits for
what its saved commands fill has them back (R128). -/
def execContinuationReady (uid : Nat) (s : State) : Out :=
  match s.ctx? uid with
  | none => .next s
  | some c =>
    if c.state != CxState.suspended || c.slot.isSome then .next s
    else if !c.waitOver then .next (s.wakeEngines uid)
    else match c.pendFault.filter fun f => !(c.imageFault f) with
      | some f => .next (s.takeFault uid 0 f.1.toNat f.2.toNat c.pc)
      | none =>
        let pc := s.recordPc c
        let s := (s.modCtx uid fun c =>
          { c with state := .ready, wait := .none, pc := pc, pastEnd := c.pastEnd && pc == c.pc,
                   block := if pc == c.pc then c.block else none }).changed uid 0
        match s.ctx? uid with
        | some c => .next (if c.state == CxState.ready then s.requeue uid else s)
        | none => .next s

/-! ## Tile tasks (R120) -/

/-- A task of a cluster. -/
def State.task? (s : State) (r : TaskRef) : Option TTask := KMap.look (s.cluster r.die r.cl).tasks r.k

/-- A dependence of a task waits in a retry list. -/
def State.depWaits (s : State) (r : TaskRef) (i : Nat) : Bool :=
  s.retry.any fun w => match w.op with
    | .task t j => t == r && j == i
    | _ => false

/-- TASK_DEPENDENCE_MET: the retry list has served the wait on the dependence's word. -/
def execTaskDependenceMet (d : DieNo) (cl : ClusterNo) (k : Nat) (dep : Fin 4) (s : State) : Out :=
  let r : TaskRef := { die := d.val, cl := cl.val, k := k }
  match s.task? r with
  | none => .next s
  | some t => match t.deps[dep.val]? with
    | some (_, false, true) => if s.depWaits r dep.val then .next s else .next (s.markDep r dep.val true false)
    | _ => .next s

/-- TASK_DEPENDENCE_RETEST: a dependence that its list refused is tested again. -/
def execTaskDependenceRetest (d : DieNo) (cl : ClusterNo) (k : Nat) (dep : Fin 4) (s : State) : Out :=
  let r : TaskRef := { die := d.val, cl := cl.val, k := k }
  match s.task? r with
  | none => .next s
  | some t => match t.deps[dep.val]? with
    | some (_, false, false) => .next (s.testDep r dep.val)
    | _ => .next s

/-- Every dependence is met, and the task has not been issued. -/
def TTask.ready (t : TTask) : Bool := t.stage == .waiting && t.deps.all fun p => p.2.1

/-- A core may take a task of a kind (R120). -/
def State.takesTask (s : State) (d c : Nat) (kind : Nat) : Bool :=
  let k := s.core d c
  if kind = 1 then decide (k.mat.queue.length < 2)
  else if kind = 2 then decide (k.vec.length < 2)
  else if kind = 3 then decide (k.cpy.queue.length < 2)
  else (s.freeSlot d c).isSome

/-- The lowest-numbered core that may take a task. For kind 000 the manual allows any candidate with a free slot: the model
takes the lowest-numbered one (DESIGN CHOICE, log 84). -/
def State.taskCore (s : State) (d cl : Nat) (t : TTask) : Option Nat :=
  match s.factsOf t.lid with
  | none => none
  | some l => (clusterCores cl).find? fun c => l.selects d c && s.hasTable d c t.lid && s.takesTask d c t.kind.val

/-- Issues a task to a core: its message leaves, or the task ends where entry 63 does not allow it. -/
def State.sendTask (s : State) (r : TaskRef) (t : TTask) (c : Nat) : State :=
  match (s.core r.die c).tables.find? fun x => x.lid == t.lid with
  | none => s
  | some h =>
    let e := h.entry 63
    if !e.permitted || e.landing then s.endTask r (errWord 1)
    else
      let s := s.modCluster r.die r.cl fun k => { k with tasks := KMap.modify k.tasks r.k fun t => { t with stage := .issued } }
      s.post (partMsg 63 (dieOf r.die) (coreNo c) t.world t.lid t.item
        (msgHeader 63 true false t.source.val r.die s.pkg.toNat) t.args (some r) (s.cyc r.die))

/-- TASK_ISSUE: no earlier task could be issued now. -/
def execTaskIssue (d : DieNo) (cl : ClusterNo) (k : Nat) (s : State) : Out :=
  let r : TaskRef := { die := d.val, cl := cl.val, k := k }
  match s.task? r with
  | none => .next s
  | some t =>
    if !t.ready || (s.cluster d.val cl.val).tasks.any fun q =>
        decide (q.1 < k) && q.2.ready && (s.taskCore d.val cl.val q.2).isSome then .next s
    else match s.taskCore d.val cl.val t with
      | none => .next s
      | some c => .next (s.sendTask r t c)

/-- The message of a task is on its way or queued, its context has not retired, or a store of its context is not complete
(R180). -/
def State.taskRuns (s : State) (r : TaskRef) : Bool :=
  (s.net.any fun m => m.task == some r) || (s.cores.any fun k => k.2.queue.any fun m => m.task == some r)
    || s.ctxs.any fun c => c.2.task == some r
      && (c.2.state != CxState.retired || !c.2.sbuf.isEmpty || s.remoteStores c.1)

/-- TASK_DONE_FILL. -/
def execTaskDoneFill (d : DieNo) (cl : ClusterNo) (k : Nat) (s : State) : Out :=
  let r : TaskRef := { die := d.val, cl := cl.val, k := k }
  match s.task? r with
  | none => .next s
  | some t => if t.stage == .issued && !(s.taskRuns r) then .next (s.endTask r t.tag) else .next s

end Sys2Proof.Machine
end

