-- ==== Sys2Proof/Machine/Auto.lean ====
section
/-! DEFINITION. The default schedule: what happens next when the agenda names nothing (log 1). It lists the events that may
be due and takes them in turn; one that is not due changes nothing. -/

namespace Sys2Proof.Machine

/-- A cluster as a number of its range. -/
def clNo (n : Nat) : ClusterNo := ⟨n % 16, Nat.mod_lt _ (by decide)⟩

/-- Events of the contexts. -/
def State.ctxEvents (s : State) : List Instr :=
  s.ctxs.flatMap fun p =>
    let u := p.1
    let c := p.2
    ((List.range c.fills.length).map fun k => Instr.longProducerFill u k)
      ++ ((List.range c.sbuf.length).map fun k => Instr.storeBufferDrain u k)
      ++ (match c.why with
        | some (.line n _) => [.registerLineFill u n]
        | _ => [])
      ++ (if c.retryAt = 0 then [] else [.retryBackoffExpiry u])
      ++ (if c.isPinned then [.handlerBudget u] else [])
      ++ (if c.state = .suspended then [.continuationReady u] else [])
      ++ (match c.wait with
        | .wire _ => [.bwTimeout u]
        | .nb _ _ => [.nbarrTimeout u false, .nbarrTimeout u true]
        | _ => [])

/-- Events of the cores, and of the cores of a cluster with a ready queue. -/
def State.coreEvents (s : State) : List Instr :=
  (s.cores.flatMap fun p =>
    let d := dieOf (p.1 / 256)
    let c := coreNo (p.1 % 256)
    let k := p.2
    (if k.slots.isEmpty then [] else [Instr.issueCycle d c])
      ++ (if k.refetch.isEmpty then [] else [.blockRefetch d c])
      ++ (if k.queue.isEmpty then [] else [.handlerStart d c, .faultHandlerStart d c])
      ++ (if k.landq.isEmpty then [] else [.landingPacketOffer d c])
      ++ (if k.vec.isEmpty then [] else [.vectorCommandStart d c])
      ++ (if k.mat.commands.isEmpty then [] else [.matrixCommandStart d c, .ringTimeout d c])
      ++ (if k.mat.sending.isNone then [] else [.ringTileArrival d c])
      ++ (if k.cpy = CopyEng.empty then [] else [.copyCommandStart d c, .copyPieceWrite d c, .copyCommandComplete d c])
      ++ (k.tables.map fun t => .handlerTableLeave d c t.lid))
  ++ (((s.ctxs.filter fun p => p.2.queued.isSome).map fun p => p.2.queueAt).dedup.flatMap fun key =>
    (clusterCores (key % 16)).map fun c => Instr.continuationPlacement (dieOf (key / 16)) (coreNo c))

/-- Events of the messages on their way, and of the launch controller. -/
def State.workEvents (s : State) : List Instr :=
  (((List.range s.net.length).flatMap fun k => [Instr.messageArrival k, .messageTimeout k])
    ++ (if s.launchMsgs.isEmpty && s.bells.isEmpty then [] else [.launchMessage])
    ++ (if s.bells.isEmpty then [] else
      [.hostMap, .hostGrant, .hostUnmap, .hostProbe, .hostSpace, .hostRetiresp, .badTreeCommand])
    ++ (s.launches.flatMap fun p => match p.2.stage with
      | .opening => [.worldOpen p.1]
      | .waiting => [.launchDependencesMet p.1]
      | .running => [.itemCreation p.1, .launchCompletion p.1])
    ++ ((s.charges.map fun p => p.1 / 2048).dedup.map fun a => .budgetCharge a)
    ++ (s.restarts.map fun q => .restartContinuationCreate (BitVec.ofNat 32 q.region))
    ++ (s.worlds.filterMap fun p => if p.2.tear.isSome then some (.teardownReport (BitVec.ofNat 16 p.1)) else none))

/-- Events of the clusters: tasks and pre-emption. -/
def State.clusterEvents (s : State) : List Instr :=
  s.clusters.flatMap fun p =>
    let d := dieOf (p.1 / 16)
    let cl := clNo (p.1 % 16)
    (p.2.tasks.flatMap fun t =>
      ((List.range 4).flatMap fun i =>
        let f : Fin 4 := ⟨i % 4, Nat.mod_lt _ (by decide)⟩
        [Instr.taskDependenceMet d cl t.1 f, .taskDependenceRetest d cl t.1 f])
      ++ [.taskIssue d cl t.1, .taskDoneFill d cl t.1])
    ++ p.2.pre.flatMap fun q =>
      [.cooperativeWindowEnd d cl (BitVec.ofNat 32 q.region), .preemptDrainComplete d cl (BitVec.ofNat 32 q.region)]

/-- The lanes of a die's barrier wires. -/
def allLanes : List LaneId :=
  ((List.range 16).flatMap fun i =>
    let f : Fin 16 := ⟨i % 16, Nat.mod_lt _ (by decide)⟩
    [.row f, .col f]) ++ [.both]

/-- Events of the dies. -/
def State.dieEvents (s : State) : List Instr :=
  (s.dies.flatMap fun p =>
    let d := dieOf p.1
    let k := p.2
    (k.monitors.flatMap fun m => [Instr.monitorWakeNotice d m.1, .waitaTimeout d m.1])
      ++ (if k.wires.isNone then [] else allLanes.map fun l => .barrierRelease d l)
      ++ (if k.refresh.isEmpty then [] else [.viewRefresh d])
      ++ (if k.quant.isEmpty then [] else [.quantService d])
      ++ (if k.ni.posts.isEmpty then [] else [.tokenIssue d])
      ++ ((List.range k.ni.tokens.length).map fun i => .tokenExpiry d i)
      ++ (k.ni.outst.flatMap fun o => Instr.fabricResendTimeout (8 * o.1 + d.val)
        :: (if o.2.retryAt.isNone then [] else [.retryBackoffExpiry (s.outstUid p.1 o.2)]))
      ++ (k.ni.sends.flatMap fun o => if o.2.retryAt.isNone then [] else [Instr.retryBackoffExpiry o.2.uid]))
  ++ (s.notices.map fun q => Instr.nbarrNoticeArrival (dieOf q.1) q.2)
  ++ (s.router.inbound.map fun r => .fabricRequestReceive r)
  ++ ((List.range s.router.flags.length).flatMap fun k => [.orderedFlagRelease k, .orderedFlagTimeout k])

/-- Events of the address spaces, the partitions and the system page. -/
def State.systemEvents (s : State) : List Instr :=
  (((List.range (s.walks.length + s.grants.length)).map fun k => Instr.unmapWalkDone k)
    ++ ((List.range s.moves.length).map fun k => .movepgSwitch k)
    ++ (if s.partCmds.isEmpty then [] else [.reset, .lend, .recall, .kill, .scrub, .preempt, .resume, .badPartitionCommand])
    ++ (s.lends.map fun l => .recallDeadline ⟨l.slice % 128, Nat.mod_lt _ (by decide)⟩)
    ++ (s.cycling.map fun q => .powerCycleComplete ⟨q.1 % 128, Nat.mod_lt _ (by decide)⟩)
    ++ ((List.range s.scrubs.length).map fun k => .scrubComplete k)
    ++ (if s.sysReqs.isEmpty then [] else [.sleepRequest, .wake]))

/-- What may be due. -/
def State.due (s : State) : List Action :=
  ((s.coreEvents ++ s.ctxEvents ++ s.workEvents ++ s.clusterEvents ++ s.dieEvents ++ s.systemEvents).map fun i => Action.event i)
    ++ (List.range 8).map fun d => .tick (dieOf d) 1

/-- The next action of the default schedule. -/
def State.defaultAction (s : State) : Action :=
  let l := s.due
  (l[s.turn % l.length]?).getD (.tick 0 1)

/-- The default schedule moves on. -/
def State.turned (s : State) : State := { s with turn := s.turn + 1 }

end Sys2Proof.Machine
end

