-- ==== Sys2Proof/Machine/FloatScalar.lean ====
section
/-! DEFINITION. Scalar floating point, opcodes 0x30 to 0x3B (R253 to R256). -/

namespace Sys2Proof.Machine

/-- The operand of a format in the low bits of an x register (R240). -/
def fArg (t : ElemType) (v : BitVec 64) : Nat := v.toNat % 2 ^ t.bits

/-- The fill of a scalar result: value, flags and capture (R249, R250). -/
def floatFill (d : Fin 64) (r : Nat × Nat) (nan : Option NanCap) : Fill :=
  { valueFill (.x d) (BitVec.ofNat 64 r.1) with flags := flagBits r.2, nan := nan }

/-- A long producer of two floating sources (R254). -/
def fLong2 (op : Nat) (ctl : Ctl) (t : ElemType) (d : Fin 64) (a b : XSrc) (f : Nat → Nat → Nat × Nat) (s : State) : Out :=
  issue op ctl noPriv [xSrc a, xSrc b] [.x d] s fun uid c m =>
    .done (m.produce uid (floatFill d (f (fArg t (xVal c a)) (fArg t (xVal c b))) (scalarNan t t t)))

/-- A long producer of one floating source. -/
def fLong1 (op : Nat) (ctl : Ctl) (t : ElemType) (d : Fin 64) (a : XSrc) (f : Nat → Nat × Nat) (s : State) : Out :=
  issue op ctl noPriv [xSrc a] [.x d] s fun uid c m =>
    .done (m.produce uid (floatFill d (f (fArg t (xVal c a))) (scalarNan t t t)))

/-- A short producer that sets flags at once (R256). What it may capture bears its place in the issue order (R250). -/
def fShort2 (op : Nat) (ctl : Ctl) (t : ElemType) (d : AnyReg) (a b : XSrc) (f : Nat → Nat → Nat × Nat) (s : State) : Out :=
  issue op ctl noPriv [xSrc a, xSrc b] [d] s fun uid c m =>
    let r := f (fArg t (xVal c a)) (fArg t (xVal c b))
    .done ((m.setReg uid d (BitVec.ofNat 64 r.1)).modCtx uid fun k => k.addFlags (flagBits r.2) ((scalarNan t t t).map fun n => n.by c.serial))

def execFadd (ctl : Ctl) (f : FFmt) (r : Rnd) (d : Fin 64) (a b : XSrc) (s : State) : Out :=
  fLong2 0x30 ctl (FFmt.elem f) d a b (fAdd (FFmt.elem f) r) s

def execFsub (ctl : Ctl) (f : FFmt) (r : Rnd) (d : Fin 64) (a b : XSrc) (s : State) : Out :=
  fLong2 0x31 ctl (FFmt.elem f) d a b (fSub (FFmt.elem f) r) s

def execFmul (ctl : Ctl) (f : FFmt) (r : Rnd) (d : Fin 64) (a b : XSrc) (s : State) : Out :=
  fLong2 0x32 ctl (FFmt.elem f) d a b (fMul (FFmt.elem f) r) s

/-- FFMA: the addend is the old destination. -/
def execFfma (ctl : Ctl) (f : FFmt) (r : Rnd) (d : XSrc) (a b : XSrc) (s : State) : Out :=
  issue 0x33 ctl noPriv [xSrc d, xSrc a, xSrc b] [.x d.reg] s fun uid c m =>
    let t := (FFmt.elem f)
    .done (m.produce uid (floatFill d.reg (fFma t r (fArg t (xVal c a)) (fArg t (xVal c b)) (fArg t (xVal c d)))
      (scalarNan t t t)))

def execFdiv (ctl : Ctl) (f : FFmt) (r : Rnd) (d : Fin 64) (a b : XSrc) (s : State) : Out :=
  fLong2 0x34 ctl (FFmt.elem f) d a b (fDiv (FFmt.elem f) r) s

def execFsqrt (ctl : Ctl) (f : FFmt) (r : Rnd) (d : Fin 64) (a : XSrc) (s : State) : Out :=
  fLong1 0x35 ctl (FFmt.elem f) d a (fSqrt (FFmt.elem f) r) s

def execFmin (ctl : Ctl) (f : FFmt) (d : Fin 64) (a b : XSrc) (s : State) : Out :=
  fShort2 0x36 ctl (FFmt.elem f) (.x d) a b (fMinMax (FFmt.elem f) false) s

def execFmax (ctl : Ctl) (f : FFmt) (d : Fin 64) (a b : XSrc) (s : State) : Out :=
  fShort2 0x37 ctl (FFmt.elem f) (.x d) a b (fMinMax (FFmt.elem f) true) s

/-- Outcome of a comparison as a number, with its flags. -/
def fcmpNum (t : ElemType) (cond : FCond) (a b : Nat) : Nat × Nat :=
  ((fCompare t cond a b).1.toNat, (fCompare t cond a b).2)

def execFcmp (ctl : Ctl) (f : FFmt) (cond : FCond) (pd : Fin 8) (a b : XSrc) (s : State) : Out :=
  fShort2 0x38 ctl (FFmt.elem f) (.p pd) a b (fcmpNum (FFmt.elem f) cond) s

/-- A converted value as `FCVT` writes it: signed integers sign-extended (R240). -/
def fcvtWord (t : ElemType) (v : Nat) : BitVec 64 :=
  if isFloat t || t == .u8 then BitVec.ofNat 64 v else BitVec.ofInt 64 (intOf t v)

/-- FCVT (R246 to R248). -/
def execFcvt (ctl : Ctl) (sat : Bool) (r : Rnd) (d : Fin 64) (a : XSrc) (src dst : ElemType) (s : State) : Out :=
  issue 0x39 ctl noPriv [xSrc a] [.x d] s fun uid c m =>
    if r == .sr && !(neverInexact src dst) && m.scalarHeld c then .wait else
    let g := if r == .sr && !(neverInexact src dst) then m.scalarGroup c (xVal c a) else (0, m)
    let v := convert src dst r sat (stippleLane g.1 0) (fArg src (xVal c a))
    .done (g.2.produce uid { valueFill (.x d) (fcvtWord dst v.1) with
      flags := flagBits v.2, nan := scalarNan dst src src })

/-- FCLASS. -/
def execFclass (ctl : Ctl) (f : FFmt) (d : Fin 64) (a : XSrc) (s : State) : Out :=
  issue 0x3A ctl noPriv [xSrc a] [.x d] s fun uid c m =>
    .done (m.setReg uid (.x d) (BitVec.ofNat 64 (fClassify (FFmt.elem f) (fArg (FFmt.elem f) (xVal c a)))))

/-- FRND. -/
def execFrnd (ctl : Ctl) (f : FFmt) (r : Rnd) (d : Fin 64) (a : XSrc) (s : State) : Out :=
  fLong1 0x3B ctl (FFmt.elem f) d a (fRound (FFmt.elem f) r) s

end Sys2Proof.Machine
end

