-- ==== Sys2Proof/Machine/Integer.lean ====
section
/-! DEFINITION. Integer and logic, opcodes 0x10 to 0x2F (R66 to R75). -/

namespace Sys2Proof.Machine

/-! ## Operands and results (R67) -/

/-- Width in bits. -/
def Width.bits : Width → Nat
  | .w32 => 32
  | .w64 => 64

/-- The operands of R67: the values modulo 2^W, signed and unsigned, and the shift count. -/
structure IntArgs where
  w  : Nat
  ua : Nat
  ub : Nat
  sa : Int
  sb : Int
  k  : Nat

/-- The low `w` bits of a number as a signed value. -/
def signedOf (w n : Nat) : Int := if n % 2 ^ w < 2 ^ (w - 1) then (n % 2 ^ w : Nat) else ((n % 2 ^ w : Nat) : Int) - 2 ^ w

/-- Reads the operands at a width. -/
def intArgs (w : Width) (a b : BitVec 64) : IntArgs :=
  { w := Width.bits w, ua := a.toNat % 2 ^ Width.bits w, ub := b.toNat % 2 ^ Width.bits w,
    sa := signedOf (Width.bits w) a.toNat, sb := signedOf (Width.bits w) b.toNat, k := b.toNat % Width.bits w }

/-- A result of `w` bits, zero-extended. -/
def resWord (w : Nat) (r : Int) : BitVec 64 := BitVec.ofNat 64 (r % (2 ^ w : Int)).toNat

/-- `v` limited to `[lo, hi]`. -/
def clampTo (v lo hi : Int) : Int := if v < lo then lo else if hi < v then hi else v

/-- The least and greatest signed values of a width, and the greatest unsigned one. -/
def minS (w : Nat) : Int := -(2 ^ (w - 1))
def maxS (w : Nat) : Int := 2 ^ (w - 1) - 1
def maxU (w : Nat) : Int := 2 ^ w - 1

/-- A short producer of two operands. -/
def shortOp (op : Nat) (ctl : Ctl) (w : Width) (d : Fin 64) (a b : XI) (f : IntArgs → Int) (s : State) : Out :=
  issue op ctl noPriv (xiSrcs a ++ xiSrcs b) [.x d] s fun uid c m =>
    .done (m.setReg uid (.x d) (resWord (Width.bits w) (f (intArgs w (xiVal c a) (xiVal c b)))))

/-- A long producer of two operands: its value, and the flags that its fill brings (R69, R70). -/
def longOp (op : Nat) (ctl : Ctl) (w : Width) (d : Fin 64) (a b : XI) (f : IntArgs → Int × Nat) (s : State) : Out :=
  issue op ctl noPriv (xiSrcs a ++ xiSrcs b) [.x d] s fun uid c m =>
    let r := f (intArgs w (xiVal c a) (xiVal c b))
    .done (m.produce uid { valueFill (.x d) (resWord (Width.bits w) r.1) with flags := flagBits r.2 })

/-- A short producer of one operand. -/
def unaryOp (op : Nat) (ctl : Ctl) (w : Width) (d : Fin 64) (a : XI) (f : IntArgs → Int) (s : State) : Out :=
  issue op ctl noPriv (xiSrcs a) [.x d] s fun uid c m =>
    .done (m.setReg uid (.x d) (resWord (Width.bits w) (f (intArgs w (xiVal c a) 0))))

/-! ## Arithmetic (R68, R69) -/

/-- Sum in a saturation mode. -/
def addRes (m : SatMode) (g : IntArgs) : Int :=
  match m with
  | .wrap => g.ua + g.ub
  | .sat => clampTo (g.sa + g.sb) (minS g.w) (maxS g.w)
  | .usat => min ((g.ua : Int) + g.ub) (maxU g.w)

/-- Difference in a saturation mode. -/
def subRes (m : SatMode) (g : IntArgs) : Int :=
  match m with
  | .wrap => (g.ua : Int) - g.ub
  | .sat => clampTo (g.sa - g.sb) (minS g.w) (maxS g.w)
  | .usat => max ((g.ua : Int) - g.ub) 0

/-- Quotient and flags (R69). -/
def divRes (u : Bool) (g : IntArgs) : Int × Nat :=
  if g.ub = 0 then (maxU g.w, flDiv0)
  else if u then ((g.ua / g.ub : Nat), 0)
  else if g.sa = minS g.w ∧ g.sb = -1 then (minS g.w, 0)
  else (g.sa.tdiv g.sb, 0)

/-- Remainder and flags (R69). -/
def remRes (u : Bool) (g : IntArgs) : Int × Nat :=
  if g.ub = 0 then (g.ua, flDiv0)
  else if u then ((g.ua % g.ub : Nat), 0)
  else if g.sa = minS g.w ∧ g.sb = -1 then (0, 0)
  else (g.sa - g.sa.tdiv g.sb * g.sb, 0)

/-- High half of a product (R68). -/
def mulhRes (u : Bool) (g : IntArgs) : Int :=
  if u then (g.ua * g.ub / 2 ^ g.w : Nat) else (g.sa * g.sb) / 2 ^ g.w

def execAdd (ctl : Ctl) (w : Width) (m : SatMode) (d : Fin 64) (a b : XI) (s : State) : Out :=
  shortOp 0x10 ctl w d a b (addRes m) s

def execSub (ctl : Ctl) (w : Width) (m : SatMode) (d : Fin 64) (a b : XI) (s : State) : Out :=
  shortOp 0x11 ctl w d a b (subRes m) s

def execMul (ctl : Ctl) (w : Width) (d : Fin 64) (a b : XI) (s : State) : Out :=
  longOp 0x12 ctl w d a b (fun g => (g.ua * g.ub, 0)) s

def execMulh (ctl : Ctl) (w : Width) (u : Bool) (d : Fin 64) (a b : XI) (s : State) : Out :=
  longOp 0x13 ctl w d a b (fun g => (mulhRes u g, 0)) s

def execDiv (ctl : Ctl) (w : Width) (u : Bool) (d : Fin 64) (a b : XI) (s : State) : Out :=
  longOp 0x14 ctl w d a b (divRes u) s

def execRem (ctl : Ctl) (w : Width) (u : Bool) (d : Fin 64) (a b : XI) (s : State) : Out :=
  longOp 0x15 ctl w d a b (remRes u) s

/-! ## Logic and shifts (R68) -/

def execAnd (ctl : Ctl) (w : Width) (d : Fin 64) (a b : XI) (s : State) : Out :=
  shortOp 0x16 ctl w d a b (fun g => (g.ua &&& g.ub : Nat)) s

def execOr (ctl : Ctl) (w : Width) (d : Fin 64) (a b : XI) (s : State) : Out :=
  shortOp 0x17 ctl w d a b (fun g => (g.ua ||| g.ub : Nat)) s

def execXor (ctl : Ctl) (w : Width) (d : Fin 64) (a b : XI) (s : State) : Out :=
  shortOp 0x18 ctl w d a b (fun g => (g.ua ^^^ g.ub : Nat)) s

def execAndn (ctl : Ctl) (w : Width) (d : Fin 64) (a b : XI) (s : State) : Out :=
  shortOp 0x19 ctl w d a b (fun g => (g.ua &&& (2 ^ g.w - 1 - g.ub) : Nat)) s

def execShl (ctl : Ctl) (w : Width) (d : Fin 64) (a b : XI) (s : State) : Out :=
  shortOp 0x1A ctl w d a b (fun g => (g.ua * 2 ^ g.k : Nat)) s

def execShr (ctl : Ctl) (w : Width) (d : Fin 64) (a b : XI) (s : State) : Out :=
  shortOp 0x1B ctl w d a b (fun g => (g.ua / 2 ^ g.k : Nat)) s

def execSar (ctl : Ctl) (w : Width) (d : Fin 64) (a b : XI) (s : State) : Out :=
  shortOp 0x1C ctl w d a b (fun g => g.sa / 2 ^ g.k) s

def execRol (ctl : Ctl) (w : Width) (d : Fin 64) (a b : XI) (s : State) : Out :=
  shortOp 0x1D ctl w d a b (fun g => (g.ua * 2 ^ g.k + g.ua / 2 ^ (g.w - g.k) : Nat)) s

def execMin (ctl : Ctl) (w : Width) (u : Bool) (d : Fin 64) (a b : XI) (s : State) : Out :=
  shortOp 0x1E ctl w d a b (fun g => if u then (min g.ua g.ub : Nat) else min g.sa g.sb) s

def execMax (ctl : Ctl) (w : Width) (u : Bool) (d : Fin 64) (a b : XI) (s : State) : Out :=
  shortOp 0x1F ctl w d a b (fun g => if u then (max g.ua g.ub : Nat) else max g.sa g.sb) s

/-- Number of bits of a number: 0 for 0. -/
def bitLen (n : Nat) : Nat := if n = 0 then 0 else Nat.log2 n + 1

/-- One bits among the `w` lowest of a number. -/
def onesBelow (w n : Nat) : Nat := ((List.range w).filter fun i => n.testBit i).length

/-- The bytes of a number in reverse order. -/
def swapBytes (w n : Nat) : Nat := leNat (leBytes (w / 8) n).reverse

def execClz (ctl : Ctl) (w : Width) (d : Fin 64) (a : XI) (s : State) : Out :=
  unaryOp 0x20 ctl w d a (fun g => (g.w - bitLen g.ua : Nat)) s

def execPopc (ctl : Ctl) (w : Width) (d : Fin 64) (a : XI) (s : State) : Out :=
  unaryOp 0x21 ctl w d a (fun g => (onesBelow g.w g.ua : Nat)) s

def execAddc (ctl : Ctl) (w : Width) (d : Fin 64) (a b : XI) (s : State) : Out :=
  shortOp 0x27 ctl w d a b (fun g => ((g.ua + g.ub) / 2 ^ g.w : Nat)) s

def execAbs (ctl : Ctl) (w : Width) (sat : Bool) (d : Fin 64) (a : XI) (s : State) : Out :=
  unaryOp 0x28 ctl w d a (fun g => if sat then min (g.sa.natAbs : Int) (maxS g.w) else (g.sa.natAbs : Int)) s

def execBswap (ctl : Ctl) (w : Width) (d : Fin 64) (a : XI) (s : State) : Out :=
  unaryOp 0x29 ctl w d a (fun g => (swapBytes g.w g.ua : Nat)) s

/-! ## Bit fields (R71) -/

/-- Result of `BEXT`. -/
def bextRes (sx : Bool) (a ctl : BitVec 64) : BitVec 64 :=
  let pos := ctl.toNat % 64
  let len := min (ctl.toNat / 64 % 128) (64 - pos)
  let f := a.toNat / 2 ^ pos % 2 ^ len
  if sx && decide (0 < len) then resWord 64 (signedOf len f) else BitVec.ofNat 64 f

/-- Result of `BINS` into an old value. -/
def binsRes (w : Nat) (d a ctl : BitVec 64) : BitVec 64 :=
  let pos := ctl.toNat % 64
  let len := if w ≤ pos then 0 else min (ctl.toNat / 64 % 128) (w - pos)
  let m := BitVec.ofNat 64 ((2 ^ len - 1) * 2 ^ pos)
  let ua := BitVec.ofNat 64 (a.toNat % 2 ^ w)
  BitVec.ofNat 64 (((d &&& ~~~m) ||| ((ua <<< pos) &&& m)).toNat % 2 ^ w)

def execBext (ctl : Ctl) (sx : Bool) (d : Fin 64) (a k : XI) (s : State) : Out :=
  issue 0x22 ctl noPriv (xiSrcs a ++ xiSrcs k) [.x d] s fun uid c m =>
    .done (m.setReg uid (.x d) (bextRes sx (xiVal c a) (xiVal c k)))

def execBins (ctl : Ctl) (w : Width) (d : XSrc) (a k : XI) (s : State) : Out :=
  issue 0x23 ctl noPriv (xSrc d :: xiSrcs a ++ xiSrcs k) [.x d.reg] s fun uid c m =>
    .done (m.setReg uid (.x d.reg) (binsRes (Width.bits w) (xVal c d) (xiVal c a) (xiVal c k)))

/-! ## Moves and addresses (R72) -/

def execSel (ctl : Ctl) (d : XSrc) (a b : XI) (s : State) : Out :=
  issue 0x24 ctl noPriv (xSrc d :: xiSrcs a ++ xiSrcs b) [.x d.reg] s fun uid c m =>
    .done (m.setReg uid (.x d.reg) ((xiVal c a &&& xVal c d) ||| (xiVal c b &&& ~~~(xVal c d))))

/-- Sources and destination of `MOV`. -/
def movSrcs : MovArgs → List Src
  | .x _ a => xiSrcs a
  | .p _ a => [pSrc a]
def movDest : MovArgs → AnyReg
  | .x d _ => .x d
  | .p d _ => .p d

/-- Value that `MOV` writes. -/
def movVal (c : Context) : MovArgs → BitVec 64
  | .x _ a => xiVal c a
  | .p _ a => if c.getP a.reg.val then 1 else 0

def execMov (ctl : Ctl) (v : MovArgs) (s : State) : Out :=
  issue 0x25 ctl noPriv (movSrcs v) [movDest v] s fun uid c m => .done (m.setReg uid (movDest v) (movVal c v))

def execMovi (ctl : Ctl) (d : Fin 64) (imm : BitVec 48) (s : State) : Out :=
  issue 0x26 ctl noPriv [] [.x d] s fun uid _ m => .done (m.setReg uid (.x d) (imm.signExtend 64))

/-- LEA: the address that a load of 2^s bytes would present, before translation. -/
def execLea (ctl : Ctl) (d : Fin 64) (v : MemOp) (sc : Fin 4) (s : State) : Out :=
  issue 0x2A ctl noPriv [memSrc v] [.x d] s fun uid c m =>
    .done (m.setReg uid (.x d) (BitVec.ofNat 64 (formAddr c v (2 ^ sc.val))))

/-! ## Comparisons and predicates (R73, R74) -/

/-- The test of `CMP`. -/
def cmpRes (cond : CmpCond) (g : IntArgs) : Bool :=
  match cond with
  | .eq => g.ua == g.ub
  | .ne => g.ua != g.ub
  | .lt => decide (g.sa < g.sb)
  | .le => decide (g.sa ≤ g.sb)
  | .ltu => decide (g.ua < g.ub)
  | .leu => decide (g.ua ≤ g.ub)
  | .any => (g.ua &&& g.ub) != 0

/-- A predicate as a word. -/
def predWord (b : Bool) : BitVec 64 := if b then 1 else 0

def execCmp (ctl : Ctl) (w : Width) (cond : CmpCond) (pd : Fin 8) (a b : XI) (s : State) : Out :=
  issue 0x2B ctl noPriv (xiSrcs a ++ xiSrcs b) [.p pd] s fun uid c m =>
    .done (m.setReg uid (.p pd) (predWord (cmpRes cond (intArgs w (xiVal c a) (xiVal c b)))))

def execPlog (ctl : Ctl) (tt : BitVec 4) (pd : Fin 8) (pa pb : PSrc) (s : State) : Out :=
  issue 0x2C ctl noPriv [pSrc pa, pSrc pb] [.p pd] s fun uid c m =>
    .done (m.setReg uid (.p pd) (predWord (tt.getLsbD (2 * (c.getP pb.reg.val).toNat + (c.getP pa.reg.val).toNat))))

/-- The predicates p1 to p7. -/
def preds17 : List (Fin 8) := [1, 2, 3, 4, 5, 6, 7]

/-- p0 to p7 as the low bits of a word; p0 reads 1. -/
def packPreds (c : Context) : BitVec 64 :=
  BitVec.ofNat 64 (((List.range 8).map fun i => if c.getP i then 2 ^ i else 0).sum)

def execPmov (ctl : Ctl) (v : PmovArgs) (s : State) : Out :=
  match v with
  | .tox d =>
    issue 0x2D ctl noPriv (preds17.map fun r => ⟨.p r, false⟩) [.x d] s fun uid c m =>
      .done (m.setReg uid (.x d) (packPreds c))
  | .fromx a =>
    issue 0x2D ctl noPriv (xiSrcs a) (preds17.map AnyReg.p) s fun uid c m =>
      .done (preds17.foldl (fun s r => s.setReg uid (.p r) (predWord ((xiVal c a).getLsbD r.val))) m)

/-! ## Special registers (R64, R75) -/

/-- A field of the launch of a context, which a handler may outlive (R5, R82, R83). A context of no launch does not occur in a
run: its value is free (log 6). -/
def State.launchField (s : State) (c : Context) (f : Launch → Option (BitVec 64)) : BitVec 64 × State :=
  match (s.factsOf c.lid).bind f with
  | some v => (v, s)
  | none => s.draw

/-- The value of a special register. -/
def State.special (s : State) (c : Context) (sp : Special) : BitVec 64 × State :=
  let d := c.die.val
  let k := c.core.val
  match sp with
  | .idPkg => (s.pkg.setWidth 64, s)
  | .idDie => (BitVec.ofNat 64 d, s)
  | .idCluster => (BitVec.ofNat 64 (clusterOf k), s)
  | .idCore => (BitVec.ofNat 64 k, s)
  | .idLcore => s.launchField c fun l => (l.lcoreOf d k).map (BitVec.ofNat 64)
  | .idItem => (c.item, s)
  | .lnItems => s.launchField c fun l => some (BitVec.ofNat 64 l.items)
  | .lnSeed => s.launchField c fun l => some l.seed
  | .lnWorld => (BitVec.ofNat 64 (c.world % 2 ^ 16), s)
  | .lnRegion => (BitVec.ofNat 64 (c.region % 2 ^ 32), s)
  | .cxId => (BitVec.ofNat 64 (c.cxid % 2 ^ 48), s)
  | .cxSlot => (match c.slot with
      | some n => BitVec.ofNat 64 n.val
      | none => 0, s)
  | .arFlags => (c.flags.setWidth 64, s)
  | .arNanpos => (c.nanpos, s)
  | .arNanfmt => (c.nanfmt.setWidth 64, s)
  | .arCause => (BitVec.ofNat 64 (c.cause.toNat + c.causeOp.toNat * 256), s)
  | .cyc => (BitVec.ofNat 64 (s.cyc d), s)
  | .bwTimeout => (c.bwto.setWidth 64, s)
  | .feRlim => (c.rlim.setWidth 64, s)
  | .srMode => (if c.srmode then 1 else 0, s)

def execSread (ctl : Ctl) (d : Fin 64) (sp : Special) (s : State) : Out :=
  issue 0x2E ctl noPriv [] [.x d] s fun uid c m =>
    let r := m.special c sp
    .done (r.2.setReg uid (.x d) r.1)

/-- A write of a special register. Registers that are read-only never reach it: naming one is illegal (R64). -/
def Context.writeSpecial (c : Context) (sp : Special) (v : BitVec 64) : Context :=
  match sp with
  | .arFlags => c.writeFlags v
  | .arCause => { c with cause := v.truncate 8, causeOp := (v >>> 8).truncate 8 }
  | .bwTimeout => { c with bwto := v.truncate 32 }
  | .feRlim => { c with rlim := v.truncate 16 }
  | .srMode => { c with srmode := v.getLsbD 0 }
  | .idPkg | .idDie | .idCluster | .idCore | .idLcore | .idItem | .lnItems | .lnSeed | .lnWorld | .lnRegion
  | .cxId | .cxSlot | .arNanpos | .arNanfmt | .cyc => c

/-- `SWRITE` to ar.cause is confined to slot 7 (R64). -/
def swritePriv (sp : Special) (c : Context) : Bool := sp == .arCause && c.slot != some 7

def execSwrite (ctl : Ctl) (sp : Special) (a : XI) (s : State) : Out :=
  issue 0x2F ctl (swritePriv sp) (xiSrcs a) [] s fun uid c m =>
    .done (m.modCtx uid fun k => k.writeSpecial sp (xiVal c a))

end Sys2Proof.Machine
end

