-- ==== Sys2Proof/Machine/Partition.lean ====
section
/-! DEFINITION. Partitions: their commands (R395, R396), reset (R397), the power cycle of a slice (R398), SCRUB (R399),
lending and recall (R400, R401), and writes of the host to register pages (R385, R394, R410). -/

namespace Sys2Proof.Machine

/-! ## Writes of the host

A `WAITA` on the word of a register page that changes ends (R205). -/

/-- LAUNCH_DOORBELL (R385). -/
def execLaunchDoorbell (v : BitVec 64) (s : State) : Out := .next (s.writePage 0 launchPage v.toNat true true)

/-- PARTITION_ENTRY_WRITE (R394), of the host. -/
def execPartitionEntryWrite (p : Fin 16) (word : Fin 8) (v : BitVec 64) (s : State) : Out :=
  let a := partPage + 64 * p.val + 8 * word.val
  .next (if s.tdiDrops partPage then s else (s.writePage 0 a v.toNat true true).pageChanged a 8)

/-- DEBUG_ENTRY_WRITE (R410). -/
def execDebugEntryWrite (k : Fin 64) (word : Fin 2) (v : BitVec 64) (world : BitVec 16) (trusted : Bool) (s : State) : Out :=
  let a := debugPage + 16 * k.val + 8 * word.val
  .next ((s.writePage world.toNat a v.toNat true trusted).pageChanged a 8)

/-- REGISTER_WRITE (R136): a private page drops a write without the trusted bit. -/
def execRegisterWrite (a v : BitVec 64) (trusted : Bool) (s : State) : Out :=
  match pageKind a.toNat with
  | none => .next s
  | some k =>
    if a.toNat % 8 ≠ 0 ∨ (k = .privatePage ∧ trusted = false) ∨ s.tdiDrops a.toNat = true then .next s
    else .next ((s.writePage 0 a.toNat v.toNat true trusted).pageChanged a.toNat 8)

/-! ## The command queue (R395) -/

/-- Opcode of a command. -/
def partOp (n : Nat) : Nat := bits n 63 56

/-- No bit is set outside the argument fields of a known command. -/
def partArgsOk (n : Nat) : Bool :=
  let o := partOp n
  if o = 1 then bits n 55 4 == 0
  else if o = 2 then bits n 7 7 == 0 && bits n 15 12 == 0 && bits n 55 48 == 0
  else if o = 3 then bits n 55 7 == 0
  else if o = 4 then bits n 55 16 == 0
  else if o = 5 then bits n 55 0 == 0
  else if o = 6 then bits n 55 32 == 0
  else if o = 7 then bits n 55 0 == 0
  else false

/-- Serves the command at the head when it is one with this opcode; the queue is served once the part is ready. -/
def State.partCommand (s : State) (op : Nat) (f : State → Nat → State) : Out :=
  match s.partCmds with
  | [] => .next s
  | v :: rest =>
    if s.boot.phase ≠ 1 ∨ partOp v.toNat ≠ op ∨ partArgsOk v.toNat = false then .next s
    else .next (f { s with partCmds := rest } v.toNat)

/-- BAD_PARTITION_COMMAND. -/
def execBadPartitionCommand (s : State) : Out :=
  match s.partCmds with
  | [] => .next s
  | v :: rest =>
    if s.boot.phase ≠ 1 ∨ partArgsOk v.toNat = true then .next s
    else .next (({ s with partCmds := rest } : State).partResult (errWord 0x80))

/-! ## KILL, SCRUB, PREEMPT and RESUME -/

/-- KILL (R402): a world whose teardown has begun counts as live until it retires. -/
def execKill (s : State) : Out :=
  s.partCommand 4 fun s n =>
    let w := bits n 15 0
    if KMap.has s.worlds w then (s.stopWorld w .kill 0).partResult 0 else s.partResult (errWord 0x84)

/-- SCRUB (R399). -/
def execScrub (s : State) : Out :=
  s.partCommand 5 fun s _ =>
    let a := s.pageWord (partPage + 0x410)
    let n := s.pageWord (partPage + 0x418)
    if a % 4096 ≠ 0 ∨ n % 4096 ≠ 0 ∨ n = 0 ∨ s.oneRange a n true = false then s.partResult (errWord 0x85)
    else { s with scrubs := s.scrubs ++ [{ base := a, len := n, cmd := true, kept := [] }] }

/-- SCRUB_COMPLETE: a scrub has been done, of a command or of memory that a retired world has left (R375). -/
def execScrubComplete (k : Nat) (s : State) : Out :=
  match s.scrubs[k]? with
  | none => .next s
  | some q =>
    let s := ({ s with scrubs := s.scrubs.eraseIdx k } : State).scrubDone q
    .next (if q.cmd then s.partResult 0 else s)

/-- Region that PREEMPT and RESUME name. -/
def State.namedRegion (s : State) : Nat := s.pageWord (partPage + 0x428)

/-- Regions and clusters that a PREEMPT waits for. -/
def State.preTodo (s : State) (r mask : Nat) : List (Nat × Nat) :=
  (s.descendants r).flatMap fun q => ((List.range 128).filter fun k => bits mask k k == 1).map fun k => (q, k)

/-- PREEMPT (R396): its result word is written once every cluster has finished its choice. -/
def execPreempt (s : State) : Out :=
  s.partCommand 6 fun s n =>
    let r := s.namedRegion
    let mask := s.pageWord (partPage + 0x430) + s.pageWord (partPage + 0x438) * 2 ^ 64
    if (s.region? r).isNone then s.partResult (errWord 0x86)
    else
      let s := s.requestPre r mask (bits n 31 0) .host
      ({ s with partWaits := s.partWaits ++ [.preempt (s.preTodo r mask)] } : State).preemptDone

/-- RESUME (R396). -/
def execResume (s : State) : Out :=
  s.partCommand 7 fun s _ =>
    let r := s.namedRegion
    if (s.region? r).isNone || !(s.clusters.any fun k => k.2.pre.any fun p => p.region == r) then s.partResult (errWord 0x86)
    else ((s.resumeAll (fun _ o => o == .host) (s.descendants r)).preemptDone).partResult 0

/-! ## LEND (R400) -/

/-- Row and column of a cluster. -/
def clusterRow (cl : Nat) : Nat := cl / 4
def clusterCol (cl : Nat) : Nat := cl % 4

/-- Two clusters of a die share a mesh edge. -/
def adjacent (a b : Nat) : Bool :=
  (clusterRow a == clusterRow b && (clusterCol a + 1 == clusterCol b || clusterCol b + 1 == clusterCol a))
    || (clusterCol a == clusterCol b && (clusterRow a + 1 == clusterRow b || clusterRow b + 1 == clusterRow a))

/-- Partition whose home holds a slice. -/
def State.homePart (s : State) (slice : Nat) : Option Nat :=
  (List.range 16).find? fun p => bits (s.partHome p) slice slice == 1

/-- Slice on which a context has its place: that of the queue which holds it, else of the core that last ran it. -/
def Context.slice (c : Context) : Nat := if c.queued.isSome then c.queueAt else c.home

/-- An engine of a core holds commands. -/
def Core.working (k : Core) : Bool :=
  !(k.vec.isEmpty && k.mat.commands.isEmpty && k.cpy.queue.isEmpty && k.cpy.sched.isEmpty
    && k.cpy.run.isNone)

/-- A granule of a core is owned. -/
def State.ownsGranule (s : State) (d c : Nat) : Bool :=
  (List.range 16).any fun g => s.granOwner (localBase + d * 2 ^ 28 + c * 2 ^ 20 + g * 65536) != 0

/-- The slice is idle. -/
def State.sliceIdle (s : State) (slice p : Nat) : Bool :=
  !(s.ctxs.any fun c => c.2.state != CxState.retired && c.2.slice == slice && s.partOfRegion c.2.region == p)
    && (clusterCores (slice % 16)).all fun c => !(s.core (slice / 16) c).working && !(s.ownsGranule (slice / 16) c)

/-- The borrower holds a neighbour of the slice. -/
def State.holdsNeighbour (s : State) (slice q : Nat) : Bool :=
  (List.range 16).any fun cl => adjacent (slice % 16) cl && s.partHolds q (clKey (slice / 16) cl)

/-- Code with which LEND fails; none where it succeeds, with the lender. -/
def State.lendTest (s : State) (slice q : Nat) : Except Nat Nat :=
  match s.homePart slice with
  | none => .error 0x87
  | some p =>
    if (s.lendOf slice).isSome || q == p || s.partUnused q then .error 0x87
    else if !(s.sliceIdle slice p) then .error 0x81
    else if !(s.holdsNeighbour slice q) then .error 0x82
    else .ok p

/-- LEND. -/
def execLend (s : State) : Out :=
  s.partCommand 2 fun s n =>
    let slice := bits n 6 0
    let q := bits n 11 8
    match s.lendTest slice q with
    | .error e => s.partResult (errWord e)
    | .ok p =>
      let d := bits n 47 16
      ({ s with lends := s.lends ++ [{ slice := slice, lender := p, borrower := q,
                                       deadline := if d = 0 then s.partRecall p else d, recalled := none }]
                taken := s.taken.filter fun t => t != (slice, q) } : State).partResult 0

/-! ## Recall (R401) -/

/-- RECALL. -/
def execRecall (s : State) : Out :=
  s.partCommand 3 fun s n =>
    let slice := bits n 6 0
    match s.lendOf slice with
    | none => s.partResult (errWord 0x83)
    | some l =>
      let s := s.startRecall slice l.deadline
      { s with partWaits := s.partWaits ++ [.recall slice] }

/-- A context loses its core to a power cycle: what is bound is discarded; what still runs there, a handler that did not
keep to the deadline, ends. -/
def State.cutOff (s : State) (uid : Nat) : State :=
  match s.ctx? uid with
  | none => s
  | some c =>
    if c.record ≠ 0 then
      if c.slot.isSome || c.anyPend then s.discard uid else s
    else
      let s := match c.landing with
        | some l => s.landingFault c l
        | none => s
      s.endContext uid

/-- Contexts whose registers or lines lie on a slice. -/
def State.sliceCtxs (s : State) (slice : Nat) : List Nat :=
  (s.ctxs.filter fun p => p.2.home == slice && p.2.state != CxState.retired).map (·.1)

/-- The continuations of a slice that its power cycle discards (R401): those still bound there, or in a slot. -/
def State.cutIds (s : State) (slice : Nat) : List (Nat × Context) :=
  s.ctxs.filter fun p => p.2.record != 0 && p.2.home == slice && p.2.state != CxState.retired
    && (p.2.slot.isSome || p.2.anyPend)

/-- Lists discarded continuations of a region in the segments of the cores of a slice, as if the cluster had chosen discard
for them alone, and has a restart continuation made (R125, R126, R128, R401; log 120). -/
def State.listCut (s : State) (slice : Nat) (cut : List (Nat × Context)) (r : Nat) : State :=
  match s.region? r with
  | none => s
  | some g =>
    let d := slice / 16
    let own := cut.filter fun p => p.2.region == r
    let shared := cut.filter fun p => match s.region? p.2.region with
      | some h => h.save == g.save && h.space == g.space
      | none => false
    let cores := (clusterCores (slice % 16)).filter fun c => own.any fun p => p.2.core.val == c
    let s := cores.foldl (fun (s : State) c =>
      let ids := ((shared.filter fun p => p.2.core.val == c).map fun p => p.2.cxid).mergeSort (· ≤ ·)
      match s.saveHead r g d c { choice := 2, cause := 0, spill := false, ids := ids.take 1016, lines := 0 } with
      | .ok t => t
      | .error _ => s) s
    { s with restarts := s.restarts ++ [{ region := r, die := d, cl := slice % 16,
                                          segment := g.segment d ((clusterCores (slice % 16)).headD 0), count := own.length }] }

/-- What is still on a slice when its power cycle begins ends: what was bound there is discarded, listed, and made up for by a
restart continuation. -/
def State.cutSlice (s : State) (slice : Nat) : State :=
  let cut := s.cutIds slice
  let s := (s.sliceCtxs slice).foldl (fun (s : State) u => s.cutOff u) s
  let s := ((cut.map fun p => p.2.region).dedup).foldl (fun (s : State) r => s.listCut slice cut r) s
  s.makeRestarts s.restarts

/-- Continuations queued on a slice are held, to be placed anew. -/
def State.holdQueue (s : State) (slice : Nat) : State :=
  s.mapCtxs fun _ c => if c.queued.isSome && c.queueAt == slice then { c with queued := none, held := true } else c

/-- RECALL_DEADLINE: contexts still bound there are discarded, and the power cycle begins. A pre-emption that has not
finished is finished first. -/
def execRecallDeadline (slice : SliceNo) (s : State) : Out :=
  let k := slice.val
  match s.lendOf k with
  | none => .next s
  | some l => match l.recalled with
    | none => .next s
    | some t =>
      if s.cyc (k / 16) < t || s.isCycling k then .next s
      else
        let due := (s.cluster (k / 16) (k % 16)).pre.filter fun p => p.stage != .out && p.owners.contains (.recall k)
        let s := due.foldl (fun (s : State) p =>
          s.finishChoice (k / 16) (k % 16) p.region (match p.choice with
            | some c => c.val
            | none => 2)) s
        let s := s.cutSlice k
        .next { s with cycling := s.cycling ++ [(k, .recall l.lender)] }

/-! ## RESET (R397) -/

/-- RESET: worlds with a live launch in the partition are torn down, slices lent to it are recalled at once, and its home
slices that are not lent out go under power cycle. -/
def execReset (s : State) : Out :=
  s.partCommand 1 fun s n =>
    let p := bits n 3 0
    let mine := s.launches.filter fun l => s.partOfRegion l.2.region == p
    let home := (List.range 128).filter fun k => bits (s.partHome p) k k == 1 && (s.lendOf k).isNone
    let s : State := { s with resetting := KMap.put s.resetting p (), partWaits := s.partWaits ++ [.reset p] }
    let s := (mine.filter fun l => l.2.stage == .opening).foldl (fun (s : State) l => s.refuseOpening l.1 l.2 9) s
    let s := ((mine.filter fun l => l.2.stage != .opening).map fun l => l.2.world).dedup.foldl
      (fun (s : State) w => s.stopWorld w .reset 0) s
    let s := (s.lends.filter fun l => l.borrower == p).foldl (fun (s : State) l => s.startRecall l.slice 0) s
    let s : State := { s with cycling := s.cycling ++ (home.filter fun k => !(s.isCycling k)).map fun k => (k, .reset p) }
    s.finishResets

/-! ## The power cycle of a slice (R398) -/

/-- A context's lines leave a slice, written back. -/
def State.flushLines (s : State) (uid : Nat) : State :=
  match s.ctx? uid with
  | none => s
  | some c =>
    if c.lines.isEmpty then s
    else
      let r := s.saveLines c
      let s := r.1.setCtx uid { r.2.1 with lines := [], queued := if r.2.1.state == c.state then r.2.1.queued else none }
      if !r.2.2 then s.stopWorld c.world .controlLine c.cause.toNat
      else if r.2.1.state == c.state then s
      else s.changed uid 0

/-- Local memory of a core reads zero, full and not poisoned, with layout tag 0, and its granules are unowned. -/
def State.clearLocal (s : State) (d c : Nat) : State :=
  let a := localBase + d * 2 ^ 28 + c * 2 ^ 20
  let s := { s with pages := dropRange s.pages 1 (ownerPage + d * 65536 + 128 * c) 128
                    mem := { s.mem with residue := dropRange s.mem.residue 65536 a (2 ^ 20) } }
  s.scrubRange a (2 ^ 20)

/-- Initialises a slice: lines are written back, then caches, handler tables, queues, engines, barrier lanes and counters
are empty. A handler table that leaves adds its refused counts to its image (R82). -/
def State.initSlice (s : State) (slice : Nat) : State :=
  let d := slice / 16
  let cl := slice % 16
  let s := (s.sliceCtxs slice).foldl (fun (s : State) u => s.flushLines u) s
  let s := (clusterCores cl).foldl (fun (s : State) c =>
    let s := (s.core d c).tables.foldl (fun (s : State) t => s.leaveTable d c t) s
    (s.setCore d c Core.empty).clearLocal d c) s
  s.modCluster d cl fun k => { k with busy := 0 }

/-- A recalled slice is back: the borrower's regions go on elsewhere, and waiting RECALL commands have their result. -/
def State.sliceBack (s : State) (slice : Nat) : State :=
  match s.lendOf slice with
  | none => s
  | some l =>
    let s : State := { s with lends := s.lends.filter fun x => x.slice != slice, taken := s.taken ++ [(slice, l.borrower)] }
    let s := s.holdQueue slice
    let s := (s.resumeAll (fun _ o => o == .recall slice) (s.regions.map (·.1))).preemptDone
    let n := s.partWaits.countP fun w => w == .recall slice
    let s : State := { s with partWaits := s.partWaits.filter fun w => w != .recall slice }
    (List.range n).foldl (fun (s : State) _ => s.partResult 0) s

/-- POWER_CYCLE_COMPLETE. The home slices of a reset are power-cycled once its worlds are gone and its borrowed slices are
back (R397). -/
def execPowerCycleComplete (slice : SliceNo) (s : State) : Out :=
  let k := slice.val
  match s.cycling.find? fun q => q.1 == k with
  | none => .next s
  | some (_, .recall _) =>
    let s := s.initSlice k
    .next (({ s with cycling := s.cycling.filter fun q => q.1 != k } : State).sliceBack k).finishResets
  | some (_, .reset p) =>
    if s.partBusy p || s.lends.any fun l => l.borrower == p then .next s
    else
      let s := ((s.sliceCtxs k).foldl (fun (s : State) u => s.cutOff u) s).initSlice k
      .next ({ s with cycling := s.cycling.filter fun q => q.1 != k } : State).finishResets

end Sys2Proof.Machine
end

