-- ==== Sys2Proof/Machine/Power.lean ====
section
/-! DEFINITION. Supplies, heat, boot, recovery and deep sleep (R413 to R419). -/

namespace Sys2Proof.Machine

/-! ## What a reset of the package keeps -/

/-- Memory from an address on stays; the rest is as at power-on. -/
def Memory.keepFrom (m : Memory) (base : Nat) : Memory :=
  { bytes := KMap.select m.bytes fun a _ => decide (base ≤ a)
    empties := KMap.select m.empties fun a _ => decide (base ≤ 8 * a)
    poisons := KMap.select m.poisons fun a _ => decide (base ≤ 8 * a)
    tags := [], prot := KMap.select m.prot fun u _ => decide (base ≤ u * 2 ^ 20), residue := []
    raws := KMap.select m.raws fun l _ => decide (base ≤ 64 * l)
    macs := KMap.select m.macs fun l _ => decide (base ≤ 64 * l), vers := [], nodes := [] }

/-- Codes of the causes (R416). -/
def resetCode : ResetCause → BitVec 4
  | .powerOn => 0 | .rail => 1 | .thermal => 2 | .host => 3

/-- The package is in reset: everything is as right after reset but for memory behind the CXL ports and of the host, DRAM
where it was held in self-refresh, doorbells held in the host link of a sleeping part, the writes that the host has made to the
system page, the flash, and the levels of the rails. What the part owned is open, its contents under the keys it had. -/
def State.packageReset (s : State) (cause : BitVec 4) : State :=
  let asleep := s.boot.phase = 3
  let m := s.poolDev.foldl (fun (m : Memory) p => m.setCells (p.1 * 64) p.2) s.mem
  let m := s.worlds.foldl (fun (m : Memory) w => m.openUnits w.1 w.2.key) m
  { State.reset with
    agenda := s.agenda, nextUid := s.nextUid, draws := s.draws, turn := s.turn, out := s.out, pkg := s.pkg, peers := s.peers,
    mem := m.keepFrom (if asleep then dramBase else cxlBase), bells := if asleep then s.bells else [],
    sysReqs := s.sysReqs, boot := { Boot.empty with cause := cause, rails := s.boot.rails, flash := s.boot.flash } }

/-- Steps 3 to 6 of R417: the CXL ports are trained, every register page and command queue has its reset value, failed links
start as dead ports, and the part is ready. -/
def State.bootOn (s : State) (hostLoad : Bool) (cxl : List (BitVec 20)) (deadPorts : List (Fin 48)) : State :=
  { s with
    pages := [], temps := [], partCmds := [], partWaits := []
    cxlMib := (cxl.zipIdx.filter fun p => decide (p.2 < 8)).foldl (fun m p => KMap.putD m p.2 0 (min p.1.toNat 524288)) []
    router := { Router.empty with lanes := deadPorts.foldl (fun m p => KMap.put m p.val 2) [] }
    boot := { s.boot with phase := 1, verified := true, hostLoad := hostLoad, alert := false, result := 0 } }

/-- POWER_ON_RESET (R417): a reset from outside, or the boot of a package that is in reset already. Step 1 finds every rail in
its range, or the package stays in reset (R413). Step 2 verifies the image in the flash: `good` says how that ends, and no
event says otherwise of one image (log 71). A signature that fails stops the part in recovery. -/
def execPowerOnReset (cause : ResetCause) (good : Bool) (cxl : List (BitVec 20)) (deadPorts : List (Fin 48)) (s : State) :
    Out :=
  let s := if s.boot.phase = 0 then s else s.packageReset (resetCode cause)
  if !s.boot.rails.isEmpty || good != Config.imageOk s.boot.flash then .next s
  else if good then .next (s.bootOn false cxl deadPorts)
  else .next { s with boot := { s.boot with phase := 2, verified := false } }

/-! ## Rails and heat (R413, R415) -/

/-- Range of a rail in millivolts (R413). -/
def railRange : Rail → Nat × Nat
  | .vcore => (720, 800)
  | .vsram => (820, 900)
  | .vdram => (1000, 1100)
  | .vio => (870, 950)
  | .vaux => (3130, 3470)

/-- RAIL_FAULT: the level of a rail. Outside its range it forces the package into reset and holds it there; one that is in
its range holds it no longer (R413). -/
def execRailFault (rail : Rail) (millivolts : Nat) (s : State) : Out :=
  if (railRange rail).1 ≤ millivolts ∧ millivolts ≤ (railRange rail).2 then
    .next { s with boot := { s.boot with rails := s.boot.rails.filter fun r => r != rail } }
  else
    let s := if s.boot.phase = 0 then s else s.packageReset 1
    .next { s with boot := { s.boot with rails := if s.boot.rails.contains rail then s.boot.rails else s.boot.rails ++ [rail] } }

/-- Issue cycles skipped in every 8 at a reading in units of 0.125 °C. -/
def skipAt (t : Nat) : Nat :=
  if t < 760 then 0 else if t < 840 then 1 + (t - 760) / 16 else 7

/-- A reading is in the band of the thermal alert. -/
def alertAt (t : Nat) : Bool := decide (840 ≤ t) && decide (t ≤ 880)

/-- THERMAL_READING. -/
def execThermalReading (d : DieNo) (t : BitVec 64) (s : State) : Out :=
  if 880 < t.toNat then .next (s.packageReset 2)
  else
    let temps := KMap.putD s.temps d.val 0 t
    .next { (s.modDie d.val fun k => { k with skip := skipAt t.toNat }) with
      temps := temps, boot := { s.boot with alert := temps.any fun p => alertAt p.2.toNat } }

/-! ## The system page (R416, R418, R419) -/

/-- Serves the write at the head when its word is one that a test names. -/
def State.systemWrite (s : State) (f : Nat → Nat → Bool) (g : State → State) : Out :=
  match s.sysReqs with
  | [] => .next s
  | q :: rest => if f q.1 q.2.toNat then .next (g { s with sysReqs := rest }) else .next s

/-- A world is live, or one is being opened. -/
def State.worldOpenNow (s : State) : Bool := !s.worlds.isEmpty || !s.launches.isEmpty

/-- The part sleeps: lines are written back, the key slots are clear, every die is gated but for the system page, and vault and
local memory are lost. DRAM, the memory behind the CXL ports, the host's doorbells and the words of the system page stay. -/
def State.fallAsleep (s : State) : State :=
  let s := s.ctxs.foldl (fun (s : State) p => s.flushLines p.1) s
  { State.reset with
    agenda := s.agenda, nextUid := s.nextUid, draws := s.draws, turn := s.turn, out := s.out, pkg := s.pkg, peers := s.peers,
    mem := s.mem.keepFrom dramBase, poolIn := s.poolIn, poolDirty := s.poolDirty, poolDev := s.poolDev,
    bells := s.bells, sysReqs := s.sysReqs, temps := s.temps, cxlMib := s.cxlMib, trust := { s.trust with slots := [] },
    boot := { s.boot with phase := 3, result := 0 } }

/-- SLEEP_REQUEST (R419, R379): served by the Trust Controller of a part that is ready. -/
def execSleepRequest (s : State) : Out :=
  s.systemWrite (fun o v => o == 8 && v == 1) fun s =>
    if s.boot.phase ≠ 1 then s
    else if s.worldOpenNow then { s with boot := { s.boot with result := errWord 0x16 } }
    else s.fallAsleep

/-- WAKE (R419): a sleeping part boots from step 1, with cause 3. -/
def execWake (s : State) : Out :=
  s.systemWrite (fun o v => o == 8 && v == 2) fun s => if s.boot.phase = 3 then s.packageReset 3 else s

/-- RECOVERY_RELOAD (R418): an image in the load window that verifies, as one in the flash does, lets the boot go on from step
3; any other, and a window in which nothing has been written, leaves the part in recovery. `good` says how the verification
ends, and no event says otherwise of one image (log 71). -/
def execRecoveryReload (good : Bool) (cxl : List (BitVec 20)) (deadPorts : List (Fin 48)) (s : State) : Out :=
  if good != (!s.boot.image.isEmpty && Config.imageOk s.boot.image) then .next s
  else s.systemWrite (fun o _ => o == 0x18) fun s =>
    if s.boot.phase = 2 ∧ good = true then s.bootOn true cxl deadPorts else s

end Sys2Proof.Machine
end

