-- ==== Sys2Proof/Machine/Spaces.lean ====
section
/-! DEFINITION. Address spaces, opcodes 0xD0 to 0xD6 (R138 to R151), the switch of a page migration (R147, R148), and the
host's tree commands (R386). -/

namespace Sys2Proof.Machine

/-! ## Instructions on the tree (R138) -/

/-- The status of a tree operation that may come later. -/
def State.treeStatus (s : State) (uid : Nat) (xs : Fin 64) (v : Option (BitVec 64)) : State :=
  match v with
  | some v => s.produceWord uid (.x xs) v
  | none => s.pendReg uid (.x xs)

/-- The register of an instruction as a sink. -/
def regSink (uid : Nat) (xs : Fin 64) : Sink := .reg { uid := uid, dest := .x xs }

/-- MAP (R140, R141). -/
def execMap (ctl : Ctl) (xs : Fin 64) (m : MemOp) (t : XI) (s : State) : Out :=
  issue 0xD0 ctl noPriv (memSrc m :: xiSrcs t) [.x xs] s fun uid c u =>
    (u.readBlock uid c ctl.loc m 32).into fun u bs =>
      if 2 ^ 16 ≤ (xiVal c t).toNat then .done (u.produceWord uid (.x xs) (errWord 0x15))
      else
        let r := u.treeMap (leNat bs) c.space (xiVal c t).toNat
        .done (r.1.produceWord uid (.x xs) r.2)

/-- GRANT (R140, R142). -/
def execGrant (ctl : Ctl) (xs : Fin 64) (m : MemOp) (t : XI) (s : State) : Out :=
  issue 0xD1 ctl noPriv (memSrc m :: xiSrcs t) [.x xs] s fun uid c u =>
    (u.readBlock uid c ctl.loc m 32).into fun u bs =>
      if 2 ^ 16 ≤ (xiVal c t).toNat then .done (u.produceWord uid (.x xs) (errWord 0x15))
      else
        let r := u.treeGrant (leNat bs) c.space (xiVal c t).toNat (regSink uid xs)
        .done (r.1.treeStatus uid xs r.2)

/-- UNMAP (R143). -/
def execUnmap (ctl : Ctl) (xs : Fin 64) (xa : XSrc) (t : XI) (s : State) : Out :=
  issue 0xD2 ctl noPriv (xSrc xa :: xiSrcs t) [.x xs] s fun uid c u =>
    if c.loadsHeld then .wait
    else
      let r := u.treeUnmap c.space (xVal c xa).toNat (xiVal c t).toNat (regSink uid xs)
      .done (r.1.treeStatus uid xs r.2)

/-- PROBE (R146). -/
def execProbe (ctl : Ctl) (xs : Fin 64) (xa : XSrc) (t : XI) (s : State) : Out :=
  issue 0xD3 ctl noPriv (xSrc xa :: xiSrcs t) [.x xs] s fun uid c u =>
    if c.loadsHeld then .wait
    else .done (u.produceWord uid (.x xs) (u.treeProbe c.space (xVal c xa).toNat (xiVal c t).toNat))

/-- SPACE (R150): the space is made, and is live, as its status fills (R149). -/
def execSpace (ctl : Ctl) (xs : Fin 64) (g : XI) (s : State) : Out :=
  issue 0xD5 ctl noPriv (xiSrcs g) [.x xs] s fun uid c u =>
    if c.loadsHeld then .wait
    else
      .done (u.produce uid { valueFill (.x xs) 0 with src := .space c.space (xiVal c g).toNat })

/-- RETIRESP (R151). -/
def execRetiresp (ctl : Ctl) (xs : Fin 64) (t : XI) (s : State) : Out :=
  issue 0xD6 ctl noPriv (xiSrcs t) [.x xs] s fun uid c u =>
    if c.loadsHeld then .wait
    else
      let r := u.treeRetire c.space (xiVal c t).toNat (regSink uid xs)
      .done (r.1.treeStatus uid xs r.2)

/-! ## MOVEPG (R147, R148) -/

/-- The range of a page is held with rd, wr and derive. -/
def State.holdsPage (s : State) (sp a : Nat) : Option Held :=
  match s.holds sp a 65536 with
  | some h => if h.rights &&& 0x0B = 0x0B then some h else none
  | none => none

/-- Two backings of one length, cut into pieces that correspond. -/
def pairBacks : Nat → List (Nat × Nat) → List (Nat × Nat) → List (Nat × Nat × Nat)
  | 0, _, _ => []
  | f + 1, (a, x) :: s, (b, y) :: t =>
    let k := min x y
    (a, b, k) :: pairBacks f (if x ≤ k then s else (a + k, x - k) :: s) (if y ≤ k then t else (b + k, y - k) :: t)
  | _, _, _ => []

/-- A backing shares memory with pieces. -/
def backMeets (xs ys : List (Nat × Nat)) : Bool := xs.any fun p => ys.any fun q => overlaps p.1 p.2 q.1 q.2

/-- A node other than the holder of the destination page is derived through it. -/
def State.hasBelow (s : State) (h : Held) : Bool :=
  s.nodes.any fun p => !p.2.cut && backMeets p.2.back h.back && (match h.id with
    | some id => p.1 != id && (s.pathUp treeFuel p.1).contains id
    | none => true)

/-- The page is one that MOVEPG answers busy for: migrating, as source or as destination (log 100), or holding master data or
a tracking area (R315). -/
def State.pageBusy (s : State) (h : Held) : Bool :=
  (s.moves.any fun m => !m.ended && m.pairs.any fun q => backMeets [(q.1, q.2.2), (q.2.1, q.2.2)] h.back)
    || s.masters.any fun m => backMeets m.2.parts h.back

/-- The page holds a register page, which is no memory to move. -/
def State.isPages (s : State) (h : Held) : Bool :=
  h.back.any fun p => match s.homeOf p.1 with
    | .page => true
    | _ => false

/-- MOVEPG. A page of registers answers bad_extent, though no check of R147 names it (DESIGN CHOICE, log 125). -/
def execMovepg (ctl : Ctl) (xs : Fin 64) (xsrc xdst : XSrc) (s : State) : Out :=
  issue 0xD4 ctl noPriv [xSrc xsrc, xSrc xdst] [.x xs] s fun uid c u =>
    let a := (xVal c xsrc).toNat
    let b := (xVal c xdst).toNat
    if a % 65536 ≠ 0 then .trap causeMisaligned a
    else if b % 65536 ≠ 0 then .trap causeMisaligned b
    else if c.loadsHeld then .wait
    else match u.holdsPage c.space a, u.holdsPage c.space b with
      | none, _ => .trap causeNotHeld a
      | some _, none => .trap causeNotHeld b
      | some h, some k =>
        let pairs := pairBacks (h.back.length + k.back.length) h.back k.back
        if u.isPages h || u.isPages k then .done (u.produceWord uid (.x xs) (errWord 0x14))
        else if u.hasBelow k || u.pageBusy h || u.pageBusy k then
          .done (u.produceWord uid (.x xs) (errWord 0x16))
        else .done { u.pendReg uid (.x xs) with
          nextOrder := u.nextOrder + 1
          moves := u.moves ++ [{ num := u.nextOrder, sink := regSink uid xs, pairs := pairs, cut := false, ended := false
                                 nodes := match h.id with
                                   | some id => u.pathUp treeFuel id
                                   | none => [] }] }

/-- Exchanges what a sparse map lists for `n` bytes at two addresses, in units of `u` bytes. -/
def swapKeys {α : Type} (m : KMap α) (u a b n : Nat) : KMap α :=
  let inA := fun k => decide (a ≤ k * u) && decide (k * u < a + n)
  let inB := fun k => decide (b ≤ k * u) && decide (k * u < b + n)
  (m.filter fun p => inA p.1 || inB p.1).foldl (fun m p =>
      if inA p.1 then KMap.put m (p.1 + b / u - a / u) p.2 else KMap.put m (p.1 + a / u - b / u) p.2)
    (m.filter fun p => !(inA p.1 || inB p.1))

/-- Exchanges memory: data as the world sees it, full-empty bits and poison (R147). -/
def State.swapMem (s : State) (w : Nat) (q : Nat × Nat × Nat) : State :=
  if q.1 = q.2.1 then s
  else
    let x := s.readBytes w q.1 q.2.2
    let y := s.readBytes w q.2.1 q.2.2
    let s := (s.writeBytes w q.1 y).writeBytes w q.2.1 x
    { s with mem := { s.mem with empties := swapKeys s.mem.empties 8 q.1 q.2.1 q.2.2,
                                 poisons := swapKeys s.mem.poisons 8 q.1 q.2.1 q.2.2 } }

/-- Where an address of the exchanged memory has gone. -/
def movedAddr (pairs : List (Nat × Nat × Nat)) (a : Nat) : Nat :=
  match pairs.find? fun q => decide (q.1 ≤ a) && decide (a < q.1 + q.2.2) with
  | some q => q.2.1 + (a - q.1)
  | none => match pairs.find? fun q => decide (q.2.1 ≤ a) && decide (a < q.2.1 + q.2.2) with
    | some q => q.1 + (a - q.2.1)
    | none => a

/-- The next address after `a` at which exchanged memory begins or ends. -/
def nextEdge (pairs : List (Nat × Nat × Nat)) (a : Nat) : Option Nat :=
  (pairs.flatMap fun q => [q.1, q.1 + q.2.2, q.2.1, q.2.1 + q.2.2]).foldl (fun best e =>
    if a < e then match best with
      | some b => some (min b e)
      | none => some e
    else best) none

/-- A piece of memory after the exchange. -/
def movedPiece (pairs : List (Nat × Nat × Nat)) : Nat → Nat → Nat → List (Nat × Nat)
  | 0, p, l => if l = 0 then [] else [(movedAddr pairs p, l)]
  | f + 1, p, l =>
    if l = 0 then []
    else
      let k := match nextEdge pairs p with
        | some e => min l (e - p)
        | none => l
      (movedAddr pairs p, k) :: movedPiece pairs f (p + k) (l - k)

/-- Segments after the exchange. -/
def movedParts (pairs : List (Nat × Nat × Nat)) (parts : List (Nat × Nat)) : List (Nat × Nat) :=
  parts.flatMap fun p => movedPiece pairs (4 * pairs.length + 4) p.1 p.2

/-- A backing after the exchange. -/
def movedBack (pairs : List (Nat × Nat × Nat)) (back : List (Nat × Nat)) : List (Nat × Nat) :=
  backMerge (movedParts pairs back)

/-- An access already translated through a stored node, after the exchange: it replays at the new location. -/
def movedAcc (pairs : List (Nat × Nat × Nat)) (a : Acc) : Acc :=
  if storedPath a.nodes then { a with parts := movedParts pairs a.parts } else a

/-- A waiter after the exchange. -/
def movedWaiter (pairs : List (Nat × Nat × Nat)) (w : Waiter) : Waiter :=
  if !(storedPath w.nodes) then w
  else { w with
    word := movedAddr pairs w.word
    op := match w.op with
      | .load uid dest acc consume left got pois acq =>
        .load uid dest (movedAcc pairs acc) consume (movedParts pairs left) got pois acq
      | .store uid acc left =>
        .store uid (movedAcc pairs acc) (left.flatMap fun p => cutData (movedParts pairs [(p.1, p.2.1)]) p.2.2)
      | op => op }

/-- A fill after the exchange. -/
def movedFill (pairs : List (Nat × Nat × Nat)) (f : Fill) : Fill :=
  { f with src := match f.src with
    | .load a => .load (movedAcc pairs a)
    | .feget a => .feget (movedAcc pairs a)
    | .atom a op w b => .atom (movedAcc pairs a) op w b
    | .evid r a n => .evid r (movedAcc pairs a) n
    | x => x }

/-- A monitor entry after the exchange. -/
def movedMon (pairs : List (Nat × Nat × Nat)) (m : Mon) : Mon :=
  if storedPath m.nodes then { m with addr := movedAddr pairs m.addr } else m

/-- The switch of a migration: memory and backing are exchanged, no core holds writable a line that a moved monitor entry now
watches (R204), a `WAITA` by a physical address sees what its word holds now (R205), and what waited replays (R147). Root nodes
stand for physical memory (R129): the exchange leaves them as they are, so a migration by space 0 exchanges the contents and
leaves the root's translation alone (DESIGN CHOICE, log 126). -/
def State.switchPage (s : State) (w : Nat) (pairs : List (Nat × Nat × Nat)) : State :=
  let s := pairs.foldl (fun (s : State) q => s.swapMem w q) s
  let s := { s with
    nodes := KMap.mapVals s.nodes fun _ n =>
      let b := movedBack pairs n.back
      if b = n.back then n else { n with back := b, gen := n.gen + 1 }
    ctxs := KMap.mapVals s.ctxs fun _ (c : Context) =>
      { c with sbuf := c.sbuf.map fun (e : SEntry) => { e with acc := movedAcc pairs e.acc }, fills := c.fills.map (movedFill pairs) }
    retry := s.retry.map (movedWaiter pairs)
    dies := KMap.mapVals s.dies fun _ (d : Die) => { d with monitors := KMap.mapVals d.monitors fun _ m => movedMon pairs m } }
  pairs.foldl (fun (s : State) q =>
    (((s.endMonitors q.1 q.2.2).endMonitors q.2.1 q.2.2).serve q.1 q.2.2).serve q.2.1 q.2.2) s.l1Unwatch

/-- World of the register that a migration's status goes to. -/
def State.sinkWorld (s : State) (k : Sink) : Nat :=
  match k with
  | .reg t => (match s.ctx? t.uid with
    | some c => c.world
    | none => 0)
  | _ => 0

/-- Migration `k` has ended: it is kept while accesses that it paused are in the retry lists. -/
def State.endMove (s : State) (k : Nat) (m : Move) : State :=
  if s.retry.any fun w => w.pausedIn m.num then { s with moves := s.moves.set k { m with ended := true } }
  else { s with moves := s.moves.eraseIdx k }

/-- MOVEPG_SWITCH (R147, R148): migration `k` ends; where a withdrawal has cut its source everything stays as it was. -/
def execMovepgSwitch (k : Nat) (s : State) : Out :=
  match s.moves[k]? with
  | none => .next s
  | some m =>
    if m.ended then .next s
    else if m.cut then .next ((s.endMove k m).sink m.sink (errWord 0x19))
    else .next (((s.switchPage (s.sinkWorld m.sink) m.pairs).endMove k m).sink m.sink 0)

/-! ## Host tree commands (R386) -/

/-- The tree command at the head of the doorbell queue: its address as a number of 512 bits, or none where it cannot be
read. -/
def State.treeCommand (s : State) : Option (Option Nat) :=
  match s.bells with
  | .tree a :: _ => if s.boot.phase ≠ 1 then none else match s.translate 0 a 64 with
    | some t => if a % 64 = 0 ∧ s.allowed 0 t.phys 64 .rd true then some (some (s.readNat 0 t.phys 64)) else some none
    | none => some none
  | _ => none

/-- The command at the head is done. -/
def State.bellDone (s : State) : State := { s with bells := s.bells.drop 1 }

/-- Where a command's status goes: nowhere, where it cannot be written. -/
def State.treeSink (s : State) (n : Nat) : Sink :=
  let a := bits n 255 192
  match s.translate 0 a 8 with
  | some t => if a % 8 = 0 ∧ s.allowed 0 t.phys 8 .wr true then .mem t.phys else .nowhere
  | none => .nowhere

/-- A tree command has no res0 bit set. -/
def treeRes0 (n : Nat) : Bool := bits n 511 264 != 0 || bits n 63 0 != 0

/-- The request of a host's `MAP` or `GRANT`: 32 bytes at an address of space 0. -/
def State.hostRequest (s : State) (a : Nat) : Option Nat :=
  if a % 32 ≠ 0 then none
  else match s.translate 0 a 32 with
    | some t => if s.allowed 0 t.phys 32 .rd true then some (s.readNat 0 t.phys 32) else none
    | none => none

/-- Performs the command at the head when its opcode is the one named. -/
def State.hostTree (s : State) (op : Nat) (f : State → Nat → Nat → Sink → State) : Out :=
  match s.treeCommand with
  | some (some n) =>
    if treeRes0 n || bits n 263 256 != op then .next s
    else .next (f s.bellDone (bits n 191 128) (bits n 127 64) (s.treeSink n))
  | _ => .next s

/-- A status that may come later goes to its sink. -/
def State.sinkOpt (s : State) (k : Sink) (v : Option (BitVec 64)) : State :=
  match v with
  | some v => s.sink k v
  | none => s

/-- HOST_MAP. A request that cannot be read is skipped. -/
def execHostMap (s : State) : Out :=
  s.hostTree 0xD0 fun s b c k => match s.hostRequest b with
    | some n => if 2 ^ 16 ≤ c then s.sink k (errWord 0x15) else ((s.treeMap n 0 c).1).sink k (s.treeMap n 0 c).2
    | none => s

/-- HOST_GRANT. -/
def execHostGrant (s : State) : Out :=
  s.hostTree 0xD1 fun s b c k => match s.hostRequest b with
    | some n => if 2 ^ 16 ≤ c then s.sink k (errWord 0x15) else ((s.treeGrant n 0 c k).1).sinkOpt k (s.treeGrant n 0 c k).2
    | none => s

/-- HOST_UNMAP. -/
def execHostUnmap (s : State) : Out :=
  s.hostTree 0xD2 fun s b c k => ((s.treeUnmap 0 b c k).1).sinkOpt k (s.treeUnmap 0 b c k).2

/-- HOST_PROBE. -/
def execHostProbe (s : State) : Out := s.hostTree 0xD3 fun s b c k => s.sink k (s.treeProbe 0 b c)

/-- HOST_SPACE. -/
def execHostSpace (s : State) : Out :=
  s.hostTree 0xD5 fun s b _ k => ((s.treeSpace 0 b).1).sink k (s.treeSpace 0 b).2

/-- HOST_RETIRESP: its space is field B, as that of the instruction. -/
def execHostRetiresp (s : State) : Out :=
  s.hostTree 0xD6 fun s b _ k => ((s.treeRetire 0 b k).1).sinkOpt k (s.treeRetire 0 b k).2

/-- Opcodes that a tree command may name. -/
def treeOps : List Nat := [0xD0, 0xD1, 0xD2, 0xD3, 0xD5, 0xD6]

/-- BAD_TREE_COMMAND: any other op, or a nonzero res0 bit, answers bad_extent; a command that cannot be read is
skipped. -/
def execBadTreeCommand (s : State) : Out :=
  match s.treeCommand with
  | none => .next s
  | some none => .next s.bellDone
  | some (some n) =>
    if treeRes0 n || !(treeOps.contains (bits n 263 256)) then .next (s.bellDone.sink (s.treeSink n) (errWord 0x14)) else .next s

end Sys2Proof.Machine
end

