-- ==== Sys2Proof/Machine/Spdm.lean ====
section
/-! DEFINITION. SPDM requests arrive at the responder of the Trust Controller (R367, R376 to R378). -/

namespace Sys2Proof.Machine

/-- A request arrives at the responder of a part that runs: Busy where its queue of 64 is full, else it is answered in its
turn. -/
def State.spdm (s : State) (k : SpdmKind) (r : SpdmReq) : Out :=
  if s.boot.phase ≠ 1 then .next s
  else if 64 ≤ s.responderLoad then .next (s.spdmError 0x03)
  else .next ({ s with
    nextOrder := s.nextOrder + 1
    trust := { s.trust with queue := s.trust.queue ++ [{ kind := k, req := r, order := s.nextOrder }] } } : State).serveSpdm

def execGetVersion (r : SpdmReq) (s : State) : Out := s.spdm .getVersion r

def execGetCapabilities (r : SpdmReq) (s : State) : Out := s.spdm .getCapabilities r

def execNegotiateAlgorithms (r : SpdmReq) (s : State) : Out := s.spdm .negotiateAlgorithms r

def execGetDigests (r : SpdmReq) (s : State) : Out := s.spdm .getDigests r

def execGetCertificate (r : SpdmReq) (s : State) : Out := s.spdm .getCertificate r

def execChallenge (r : SpdmReq) (s : State) : Out := s.spdm .challenge r

def execGetMeasurements (r : SpdmReq) (s : State) : Out := s.spdm .getMeasurements r

def execKeyExchange (r : SpdmReq) (s : State) : Out := s.spdm .keyExchange r

def execFinish (r : SpdmReq) (s : State) : Out := s.spdm .finish r

def execHeartbeat (r : SpdmReq) (s : State) : Out := s.spdm .heartbeat r

def execEndSession (r : SpdmReq) (s : State) : Out := s.spdm .endSession r

def execKeyImport (r : SpdmReq) (s : State) : Out := s.spdm .keyImport r

def execUnsupportedSpdmRequest (r : SpdmReq) (s : State) : Out := s.spdm .unsupported r

end Sys2Proof.Machine
end

