-- ==== Sys2Proof/Machine/Vector.lean ====
section
/-! DEFINITION. The vector engine, opcodes 0x80 to 0x9D: its queue (R257 to R260) and its commands (R261 to R276). -/

namespace Sys2Proof.Machine

/-! ## The queue (R257, R259) -/

/-- A command takes a queue entry, its destinations go pending, and its region is charged; it waits while both entries
are taken. -/
def State.vecCmd (s : State) (uid : Nat) (c : Context) (dests : List AnyReg) (job : VecJob) : Res :=
  let d := c.die.val
  let k := c.core.val
  if 2 ≤ (s.core d k).vec.length then .wait
  else
    let s := dests.foldl (fun (s : State) r => s.pendReg uid r) s
    let s := s.modCore d k fun x => { x with vec := x.vec ++ [{ uid := uid, world := c.world, seq := c.serial, dests := dests, job := job }] }
    .done (s.charge c.region (coreKey c.die.val c.core.val) 0 128)

/-- The fill of a command: its result, and the second one of `VQNT` with it; flags and capture come with them (R259). -/
def resultFill (dest : AnyReg) (r : Result) (also : Option (AnyReg × BitVec 1024)) (seq : Nat) : Fill :=
  { dest := dest, also := also, src := .result r.value, flags := r.flags, nan := r.nan.map fun k => k.by seq, acq := none }

/-- Results go to their destinations. -/
def State.giveResults (s : State) (uid : Nat) (dests : List AnyReg) (rs : List Result) (seq : Nat) : State :=
  match dests.zip rs with
  | [] => s
  | [p] => s.pushFill uid (resultFill p.1 p.2 none seq)
  | p :: q :: _ => s.pushFill uid (resultFill p.1 p.2 (some (q.1, q.2.value)) seq)

/-- What a command computes when it starts; one that draws on the generator of its core and launch draws now (R245,
R266). -/
def State.vecJob (s : State) (uid d c : Nat) (j : VecJob) : State × List Result :=
  let g := match s.ctx? uid with
    | some x => s.compatStep x.lid (s.lcore x.lid d c) (s.cyc d) .vector
    | none => s.draw
  match j with
  | .done rs => (s, rs)
  | .cvt t src old ctl => (g.2, [cvtResult t ctl src old g.1])
  | .qnt t src old scales ctl => (g.2, qntResults t ctl src old scales g.1)

/-- The command draws on the generator of its core and launch when it starts. -/
def VecJob.draws : VecJob → Bool
  | .done _ => false
  | .cvt .. | .qnt .. => true

/-- The command must let converters that come before it in a cycle go first: it starts in the next cycle (R245). -/
def State.vecHeld (s : State) (d c : Nat) (k : VecCmd) : Bool :=
  k.job.draws && (match s.ctx? k.uid with
    | some x => s.convHeld x.lid (s.lcore x.lid d c) (s.cyc d) .vector
    | none => false)

/-- VECTOR_COMMAND_START (R258): the head of the queue starts, frees its entry, and its fills are on their way. -/
def execVectorCommandStart (d : DieNo) (c : CoreNo) (s : State) : Out :=
  match (s.core d.val c.val).vec with
  | [] => .next s
  | k :: rest =>
    if s.vecHeld d.val c.val k then .next s else
    let s := s.modCore d.val c.val fun x => { x with vec := rest }
    let r := s.vecJob k.uid d.val c.val k.job
    .next (r.1.giveResults k.uid k.dests r.2 k.seq)

/-! ## Operands (R261) -/

/-- Sources of an s operand. -/
def sSrcs : SOp → List Src
  | .v r => [vSrc r]
  | .x r => [xSrc r]
  | .i _ => []

/-- Lanes of an s operand. -/
def sLanes (c : Context) (w : Nat) : SOp → List Nat
  | .v r => lanesOf w (vVal c r)
  | .x r => List.replicate (1024 / w) ((xVal c r).toNat % 2 ^ w)
  | .i k => List.replicate (1024 / w) (lowBits w k.toInt)

/-- Sources and lanes of field C of `VFMA`. -/
def vxSrc : VOrX → Src
  | .v r => vSrc r
  | .x r => xSrc r
def vxLanes (c : Context) (w : Nat) : VOrX → List Nat
  | .v r => lanesOf w (vVal c r)
  | .x r => List.replicate (1024 / w) ((xVal c r).toNat % 2 ^ w)

/-- Lane number of `VBCAST` and `VEXTR`: bits [L−1:0] (R273). -/
def laneNo (t : ElemType) (k : BitVec 64) : Nat := k.toNat % (1024 / t.bits)

/-! ## Shapes of commands -/

/-- A lane-wise command of a v register and an s operand. -/
def vec2 (op : Nat) (ctl : Ctl) (t : ElemType) (d : Fin 32) (a : VSrc) (b : SOp) (f : Nat → Nat → Nat × Nat) (s : State) :
    Out :=
  issue op ctl noPriv (vSrc a :: sSrcs b) [.v d] s fun uid c m =>
    m.vecCmd uid c [.v d] (.done [laneResult t.bits (nanFmt t t t)
      (List.zipWith f (lanesOf t.bits (vVal c a)) (sLanes c t.bits b))])

/-- A command of one v register. -/
def vec1 (op : Nat) (ctl : Ctl) (d : Fin 32) (a : VSrc) (f : BitVec 1024 → Result) (s : State) : Out :=
  issue op ctl noPriv [vSrc a] [.v d] s fun uid c m => m.vecCmd uid c [.v d] (.done [f (vVal c a)])

/-- An approximation of FP32 lanes (R267). -/
def vecApprox (op : Nat) (ctl : Ctl) (d : Fin 32) (a : VSrc) (f : Nat → Nat × Nat) (s : State) : Out :=
  vec1 op ctl d a (fun v => laneResult 32 (nanFmt .f32 .f32 .f32) ((lanesOf 32 v).map f)) s

/-! ## Lane arithmetic (R262 to R264) -/

def execVadd (ctl : Ctl) (t : ElemType) (d : Fin 32) (a : VSrc) (b : SOp) (s : State) : Out :=
  vec2 0x80 ctl t d a b (laneArith .add t) s

def execVsub (ctl : Ctl) (t : ElemType) (d : Fin 32) (a : VSrc) (b : SOp) (s : State) : Out :=
  vec2 0x81 ctl t d a b (laneArith .sub t) s

def execVmul (ctl : Ctl) (t : ElemType) (d : Fin 32) (a : VSrc) (b : SOp) (s : State) : Out :=
  vec2 0x82 ctl t d a b (laneArith .mul t) s

/-- VFMA: the addend is the old destination. -/
def execVfma (ctl : Ctl) (t : ElemType) (d : VSrc) (a : VSrc) (b : VOrX) (s : State) : Out :=
  issue 0x83 ctl noPriv [vSrc d, vSrc a, vxSrc b] [.v d.reg] s fun uid c m =>
    let ab := List.zip (lanesOf t.bits (vVal c a)) (vxLanes c t.bits b)
    m.vecCmd uid c [.v d.reg] (.done [laneResult t.bits (nanFmt t t t)
      (List.zipWith (fun p z => fFma t .rne p.1 p.2 z) ab (lanesOf t.bits (vVal c d)))])

def execVmin (ctl : Ctl) (t : ElemType) (d : Fin 32) (a : VSrc) (b : SOp) (s : State) : Out :=
  vec2 0x84 ctl t d a b (laneArith .min t) s

def execVmax (ctl : Ctl) (t : ElemType) (d : Fin 32) (a : VSrc) (b : SOp) (s : State) : Out :=
  vec2 0x85 ctl t d a b (laneArith .max t) s

def execVabs (ctl : Ctl) (t : ElemType) (d : Fin 32) (a : VSrc) (s : State) : Out :=
  vec1 0x86 ctl d a (fun v => laneResult t.bits (nanFmt t t t) ((lanesOf t.bits v).map (absLane t))) s

def execVcmp (ctl : Ctl) (t : ElemType) (d : Fin 32) (a : VSrc) (b : SOp) (s : State) : Out :=
  vec2 0x87 ctl t d a b (cmpLane t) s

/-- VSEL: the selector is the old destination. -/
def execVsel (ctl : Ctl) (t : ElemType) (d : VSrc) (a b : VSrc) (s : State) : Out :=
  issue 0x88 ctl noPriv [vSrc d, vSrc a, vSrc b] [.v d.reg] s fun uid c m =>
    let ab := List.zip (lanesOf t.bits (vVal c a)) (lanesOf t.bits (vVal c b))
    m.vecCmd uid c [.v d.reg] (.done [plainResult (ofLanes t.bits
      (List.zipWith (fun k p => if k ≠ 0 then p.1 else p.2) (lanesOf t.bits (vVal c d)) ab))])

def execVand (ctl : Ctl) (t : ElemType) (d : Fin 32) (a : VSrc) (b : SOp) (s : State) : Out :=
  vec2 0x89 ctl t d a b (laneArith .and t) s

def execVor (ctl : Ctl) (t : ElemType) (d : Fin 32) (a : VSrc) (b : SOp) (s : State) : Out :=
  vec2 0x8A ctl t d a b (laneArith .or t) s

def execVxor (ctl : Ctl) (t : ElemType) (d : Fin 32) (a : VSrc) (b : SOp) (s : State) : Out :=
  vec2 0x8B ctl t d a b (laneArith .xor t) s

def execVshl (ctl : Ctl) (t : ElemType) (d : Fin 32) (a : VSrc) (b : SOp) (s : State) : Out :=
  vec2 0x8C ctl t d a b (fun x y => (shlLane t x y, 0)) s

def execVshr (ctl : Ctl) (t : ElemType) (d : Fin 32) (a : VSrc) (b : SOp) (s : State) : Out :=
  vec2 0x8D ctl t d a b (fun x y => (shrLane t x y, 0)) s

/-! ## Conversion and quantisation (R265, R266, R274, R275) -/

/-- XOR of the 16 words of a register (R266). -/
def foldWords (v : BitVec 1024) : BitVec 64 :=
  ((lanesOf 64 v).map fun n => BitVec.ofNat 64 n).foldl (· ^^^ ·) 0

/-- The stepped generator of a vector command in native mode (R266). -/
def State.vecGroup (s : State) (c : Context) (src : BitVec 1024) : BitVec 64 × State :=
  s.oneGroup .vector false c.lid c.die.val c.core.val c.item (BitVec.ofNat 64 (linPc c.pc) ^^^ foldWords src)

/-- VCVT reads its destination only when it narrows. -/
def execVcvt (ctl : Ctl) (t : ElemType) (d : VSrc) (a : VSrc) (k : BitVec 22) (s : State) : Out :=
  let st := cvtSrc k
  issue 0x8E ctl noPriv ((if t.bits < st.bits then [vSrc d] else []) ++ [vSrc a]) [.v d.reg] s fun uid c m =>
    let steps := cvtRnd k == .sr && !(neverInexact st t)
    if steps && c.srmode then m.vecCmd uid c [.v d.reg] (.cvt t (vVal c a) (vVal c d) k)
    else
      let g := if steps then m.vecGroup c (vVal c a) else (0, m)
      g.2.vecCmd uid c [.v d.reg] (.done [cvtResult t k (vVal c a) (vVal c d) g.1])

def execVrcpa (ctl : Ctl) (d : Fin 32) (a : VSrc) (s : State) : Out := vecApprox 0x8F ctl d a rcpLane s

def execVrsqa (ctl : Ctl) (d : Fin 32) (a : VSrc) (s : State) : Out := vecApprox 0x90 ctl d a rsqLane s

def execVexp2a (ctl : Ctl) (d : Fin 32) (a : VSrc) (s : State) : Out := vecApprox 0x91 ctl d a exp2Lane s

def execVlog2a (ctl : Ctl) (d : Fin 32) (a : VSrc) (s : State) : Out := vecApprox 0x92 ctl d a log2Lane s

def execVred (ctl : Ctl) (t : ElemType) (d : Fin 32) (a : VSrc) (op : Fin 3) (s : State) : Out :=
  vec1 0x93 ctl d a (redResult t op) s

def execVscan (ctl : Ctl) (t : ElemType) (d : Fin 32) (a : VSrc) (op : Fin 3) (s : State) : Out :=
  vec1 0x94 ctl d a (scanResult t op) s

/-! ## Lane movement (R273) -/

def execVperm (ctl : Ctl) (t : ElemType) (d : Fin 32) (a b : VSrc) (s : State) : Out :=
  issue 0x95 ctl noPriv [vSrc a, vSrc b] [.v d] s fun uid c m =>
    m.vecCmd uid c [.v d] (.done [plainResult (ofLanes t.bits
      ((lanesOf t.bits (vVal c b)).map fun i => laneOf t.bits (vVal c a) (i % (1024 / t.bits))))])

def execVbcast (ctl : Ctl) (t : ElemType) (d : Fin 32) (a : VSrc) (k : XI) (s : State) : Out :=
  issue 0x96 ctl noPriv (vSrc a :: xiSrcs k) [.v d] s fun uid c m =>
    m.vecCmd uid c [.v d] (.done [plainResult (ofLanes t.bits
      (List.replicate (1024 / t.bits) (laneOf t.bits (vVal c a) (laneNo t (xiVal c k)))))])

def execVsplat (ctl : Ctl) (t : ElemType) (d : Fin 32) (a : XI) (s : State) : Out :=
  issue 0x97 ctl noPriv (xiSrcs a) [.v d] s fun uid c m =>
    m.vecCmd uid c [.v d] (.done [plainResult (ofLanes t.bits
      (List.replicate (1024 / t.bits) ((xiVal c a).toNat % 2 ^ t.bits)))])

/-- A lane as `VEXTR` writes it: signed integers sign-extended (R240). -/
def laneWord (t : ElemType) (a : Nat) : BitVec 64 :=
  if isFloat t || t == .u8 then BitVec.ofNat 64 a else BitVec.ofInt 64 (intOf t a)

def execVextr (ctl : Ctl) (t : ElemType) (d : Fin 64) (a : VSrc) (k : XI) (s : State) : Out :=
  issue 0x98 ctl noPriv (vSrc a :: xiSrcs k) [.x d] s fun uid c m =>
    m.vecCmd uid c [.x d] (.done [plainResult
      ((laneWord t (laneOf t.bits (vVal c a) (laneNo t (xiVal c k)))).setWidth 1024)])

def execVamax (ctl : Ctl) (t : ElemType) (d : Fin 32) (a : VSrc) (s : State) : Out :=
  vec1 0x99 ctl d a (amaxResult t) s

/-- The v register after one. -/
def nextV (r : Fin 32) : Fin 32 := ⟨(r.val + 1) % 32, Nat.mod_lt _ (by decide)⟩

/-- VQNT reads and writes vd and vd+1. -/
def execVqnt (ctl : Ctl) (t : ElemType) (d : VSrc) (a : VSrc) (k : BitVec 22) (s : State) : Out :=
  let d1 := nextV d.reg
  issue 0x9A ctl noPriv [vSrc d, ⟨.v d1, d.bang⟩, vSrc a] [.v d.reg, .v d1] s fun uid c m =>
    let sr := winRnd (bits k.toNat 7 5) == .sr
    if sr && c.srmode then m.vecCmd uid c [.v d.reg, .v d1] (.qnt t (vVal c a) (vVal c d) (c.getV d1.val) k)
    else
      let g := if sr then m.vecGroup c (vVal c a) else (0, m)
      g.2.vecCmd uid c [.v d.reg, .v d1] (.done (qntResults t k (vVal c a) (vVal c d) (c.getV d1.val) g.1))

/-- VDQNT reads vs and vs+1. -/
def execVdqnt (ctl : Ctl) (t : ElemType) (d : Fin 32) (a : VSrc) (k : BitVec 22) (s : State) : Out :=
  let a1 := nextV a.reg
  issue 0x9B ctl noPriv [vSrc a, ⟨.v a1, a.bang⟩] [.v d] s fun uid c m =>
    m.vecCmd uid c [.v d] (.done [unquantResult t k (vVal c a) (c.getV a1.val)])

/-- VDOT: the accumulator is the old destination. -/
def execVdot (ctl : Ctl) (t : ElemType) (d : VSrc) (a b : VSrc) (s : State) : Out :=
  issue 0x9C ctl noPriv [vSrc d, vSrc a, vSrc b] [.v d.reg] s fun uid c m =>
    m.vecCmd uid c [.v d.reg] (.done [dotResult t (vVal c d) (vVal c a) (vVal c b)])

def execVmov (ctl : Ctl) (t : ElemType) (d : Fin 32) (a : VSrc) (s : State) : Out :=
  vec1 0x9D ctl d a (fun v => plainResult (ofLanes t.bits (lanesOf t.bits v))) s

end Sys2Proof.Machine
end

