-- ==== Sys2Proof/Machine/Dispatch.lean ====
section
/-! DEFINITION. What one instruction or event does: one arm per constructor of `Instr`, each one call of its meaning. -/

namespace Sys2Proof.Machine

def exec (i : Instr) (s : State) : Host.Outcome State Fault Refusal :=
  match i with
  | .nop c => Sys2Proof.Machine.execNop c s
  | .bra c imm => Sys2Proof.Machine.execBra c imm s
  | .bri c t => Sys2Proof.Machine.execBri c t s
  | .call c l t => Sys2Proof.Machine.execCall c l t s
  | .ret c t => Sys2Proof.Machine.execRet c t s
  | .loop c xc imm => Sys2Proof.Machine.execLoop c xc imm s
  | .suspend c xs m => Sys2Proof.Machine.execSuspend c xs m s
  | .yield c => Sys2Proof.Machine.execYield c s
  | .spawn c xs t ximg => Sys2Proof.Machine.execSpawn c xs t ximg s
  | .done c => Sys2Proof.Machine.execDone c s
  | .trap c n => Sys2Proof.Machine.execTrap c n s
  | .tfence c mask => Sys2Proof.Machine.execTfence c mask s
  | .tret c xs xid => Sys2Proof.Machine.execTret c xs xid s
  | .waitr c r => Sys2Proof.Machine.execWaitr c r s
  | .brf c full r imm => Sys2Proof.Machine.execBrf c full r imm s
  | .add c w m d a b => Sys2Proof.Machine.execAdd c w m d a b s
  | .sub c w m d a b => Sys2Proof.Machine.execSub c w m d a b s
  | .mul c w d a b => Sys2Proof.Machine.execMul c w d a b s
  | .mulh c w u d a b => Sys2Proof.Machine.execMulh c w u d a b s
  | .div c w u d a b => Sys2Proof.Machine.execDiv c w u d a b s
  | .rem c w u d a b => Sys2Proof.Machine.execRem c w u d a b s
  | .and c w d a b => Sys2Proof.Machine.execAnd c w d a b s
  | .or c w d a b => Sys2Proof.Machine.execOr c w d a b s
  | .xor c w d a b => Sys2Proof.Machine.execXor c w d a b s
  | .andn c w d a b => Sys2Proof.Machine.execAndn c w d a b s
  | .shl c w d a b => Sys2Proof.Machine.execShl c w d a b s
  | .shr c w d a b => Sys2Proof.Machine.execShr c w d a b s
  | .sar c w d a b => Sys2Proof.Machine.execSar c w d a b s
  | .rol c w d a b => Sys2Proof.Machine.execRol c w d a b s
  | .min c w u d a b => Sys2Proof.Machine.execMin c w u d a b s
  | .max c w u d a b => Sys2Proof.Machine.execMax c w u d a b s
  | .clz c w d a => Sys2Proof.Machine.execClz c w d a s
  | .popc c w d a => Sys2Proof.Machine.execPopc c w d a s
  | .bext c sx d a ctl => Sys2Proof.Machine.execBext c sx d a ctl s
  | .bins c w d a ctl => Sys2Proof.Machine.execBins c w d a ctl s
  | .sel c d a b => Sys2Proof.Machine.execSel c d a b s
  | .mov c m => Sys2Proof.Machine.execMov c m s
  | .movi c d imm => Sys2Proof.Machine.execMovi c d imm s
  | .addc c w d a b => Sys2Proof.Machine.execAddc c w d a b s
  | .abs c w sat d a => Sys2Proof.Machine.execAbs c w sat d a s
  | .bswap c w d a => Sys2Proof.Machine.execBswap c w d a s
  | .lea c d m sc => Sys2Proof.Machine.execLea c d m sc s
  | .cmp c w cond pd a b => Sys2Proof.Machine.execCmp c w cond pd a b s
  | .plog c tt pd pa pb => Sys2Proof.Machine.execPlog c tt pd pa pb s
  | .pmov c m => Sys2Proof.Machine.execPmov c m s
  | .sread c d sp => Sys2Proof.Machine.execSread c d sp s
  | .swrite c sp a => Sys2Proof.Machine.execSwrite c sp a s
  | .fadd c f r d a b => Sys2Proof.Machine.execFadd c f r d a b s
  | .fsub c f r d a b => Sys2Proof.Machine.execFsub c f r d a b s
  | .fmul c f r d a b => Sys2Proof.Machine.execFmul c f r d a b s
  | .ffma c f r d a b => Sys2Proof.Machine.execFfma c f r d a b s
  | .fdiv c f r d a b => Sys2Proof.Machine.execFdiv c f r d a b s
  | .fsqrt c f r d a => Sys2Proof.Machine.execFsqrt c f r d a s
  | .fmin c f d a b => Sys2Proof.Machine.execFmin c f d a b s
  | .fmax c f d a b => Sys2Proof.Machine.execFmax c f d a b s
  | .fcmp c f cond pd a b => Sys2Proof.Machine.execFcmp c f cond pd a b s
  | .fcvt c sat r d a src dst => Sys2Proof.Machine.execFcvt c sat r d a src dst s
  | .fclass c f d a => Sys2Proof.Machine.execFclass c f d a s
  | .frnd c f r d a => Sys2Proof.Machine.execFrnd c f r d a s
  | .ld c sz mode d m => Sys2Proof.Machine.execLd c sz mode d m s
  | .st c sz mode m a => Sys2Proof.Machine.execSt c sz mode m a s
  | .ldv c mode d m => Sys2Proof.Machine.execLdv c mode d m s
  | .stv c mode m a => Sys2Proof.Machine.execStv c mode m a s
  | .feset c full m => Sys2Proof.Machine.execFeset c full m s
  | .feget c d m => Sys2Proof.Machine.execFeget c d m s
  | .pref c own m => Sys2Proof.Machine.execPref c own m s
  | .wbl c m => Sys2Proof.Machine.execWbl c m s
  | .invl c icache m => Sys2Proof.Machine.execInvl c icache m s
  | .fence c scope sc d => Sys2Proof.Machine.execFence c scope sc d s
  | .publish c xs m len => Sys2Proof.Machine.execPublish c xs m len s
  | .observe c xs m len => Sys2Proof.Machine.execObserve c xs m len s
  | .aadd c w d m b => Sys2Proof.Machine.execAadd c w d m b s
  | .aand c w d m b => Sys2Proof.Machine.execAand c w d m b s
  | .aor c w d m b => Sys2Proof.Machine.execAor c w d m b s
  | .axor c w d m b => Sys2Proof.Machine.execAxor c w d m b s
  | .amin c w u d m b => Sys2Proof.Machine.execAmin c w u d m b s
  | .amax c w u d m b => Sys2Proof.Machine.execAmax c w u d m b s
  | .aswp c w d m b => Sys2Proof.Machine.execAswp c w d m b s
  | .acas c w d m b => Sys2Proof.Machine.execAcas c w d m b s
  | .afadd c d m b => Sys2Proof.Machine.execAfadd c d m b s
  | .red c op w m b => Sys2Proof.Machine.execRed c op w m b s
  | .waita c w d m e => Sys2Proof.Machine.execWaita c w d m e s
  | .wakea c d m n => Sys2Proof.Machine.execWakea c d m n s
  | .phnew c xs => Sys2Proof.Machine.execPhnew c xs s
  | .phreg c mode xs xh => Sys2Proof.Machine.execPhreg c mode xs xh s
  | .phdrop c xs xm => Sys2Proof.Machine.execPhdrop c xs xm s
  | .phsig c xs xm => Sys2Proof.Machine.execPhsig c xs xm s
  | .phwait c xs xm => Sys2Proof.Machine.execPhwait c xs xm s
  | .phnext c xs xm => Sys2Proof.Machine.execPhnext c xs xm s
  | .phfree c xs xh => Sys2Proof.Machine.execPhfree c xs xh s
  | .bwarr c dir => Sys2Proof.Machine.execBwarr c dir s
  | .bwwait c dir xs => Sys2Proof.Machine.execBwwait c dir xs s
  | .nbarr c scope xs tag => Sys2Proof.Machine.execNbarr c scope xs tag s
  | .send c xs dst p => Sys2Proof.Machine.execSend c xs dst p s
  | .sendh c xs dst p => Sys2Proof.Machine.execSendh c xs dst p s
  | .chmask c unmask ch => Sys2Proof.Machine.execChmask c unmask ch s
  | .chpri c ch pri => Sys2Proof.Machine.execChpri c ch pri s
  | .task c xs m => Sys2Proof.Machine.execTask c xs m s
  | .launch c xs m => Sys2Proof.Machine.execLaunch c xs m s
  | .vadd c t d a b => Sys2Proof.Machine.execVadd c t d a b s
  | .vsub c t d a b => Sys2Proof.Machine.execVsub c t d a b s
  | .vmul c t d a b => Sys2Proof.Machine.execVmul c t d a b s
  | .vfma c t d a b => Sys2Proof.Machine.execVfma c t d a b s
  | .vmin c t d a b => Sys2Proof.Machine.execVmin c t d a b s
  | .vmax c t d a b => Sys2Proof.Machine.execVmax c t d a b s
  | .vabs c t d a => Sys2Proof.Machine.execVabs c t d a s
  | .vcmp c t d a b => Sys2Proof.Machine.execVcmp c t d a b s
  | .vsel c t d a b => Sys2Proof.Machine.execVsel c t d a b s
  | .vand c t d a b => Sys2Proof.Machine.execVand c t d a b s
  | .vor c t d a b => Sys2Proof.Machine.execVor c t d a b s
  | .vxor c t d a b => Sys2Proof.Machine.execVxor c t d a b s
  | .vshl c t d a b => Sys2Proof.Machine.execVshl c t d a b s
  | .vshr c t d a b => Sys2Proof.Machine.execVshr c t d a b s
  | .vcvt c t d a ctl => Sys2Proof.Machine.execVcvt c t d a ctl s
  | .vrcpa c d a => Sys2Proof.Machine.execVrcpa c d a s
  | .vrsqa c d a => Sys2Proof.Machine.execVrsqa c d a s
  | .vexp2a c d a => Sys2Proof.Machine.execVexp2a c d a s
  | .vlog2a c d a => Sys2Proof.Machine.execVlog2a c d a s
  | .vred c t d a op => Sys2Proof.Machine.execVred c t d a op s
  | .vscan c t d a op => Sys2Proof.Machine.execVscan c t d a op s
  | .vperm c t d a b => Sys2Proof.Machine.execVperm c t d a b s
  | .vbcast c t d a k => Sys2Proof.Machine.execVbcast c t d a k s
  | .vsplat c t d a => Sys2Proof.Machine.execVsplat c t d a s
  | .vextr c t d a k => Sys2Proof.Machine.execVextr c t d a k s
  | .vamax c t d a => Sys2Proof.Machine.execVamax c t d a s
  | .vqnt c t d a ctl => Sys2Proof.Machine.execVqnt c t d a ctl s
  | .vdqnt c t d a ctl => Sys2Proof.Machine.execVdqnt c t d a ctl s
  | .vdot c t d a b => Sys2Proof.Machine.execVdot c t d a b s
  | .vmov c t d a => Sys2Proof.Machine.execVmov c t d a s
  | .mlda c xs m xl => Sys2Proof.Machine.execMlda c xs m xl s
  | .mldb c xs m xl => Sys2Proof.Machine.execMldb c xs m xl s
  | .mma c xs ctl => Sys2Proof.Machine.execMma c xs ctl s
  | .mring c xs => Sys2Proof.Machine.execMring c xs s
  | .mzero c wide xs t => Sys2Proof.Machine.execMzero c wide xs t s
  | .mclose c xs => Sys2Proof.Machine.execMclose c xs s
  | .msta c t xs m xc => Sys2Proof.Machine.execMsta c t xs m xc s
  | .mstat c xd => Sys2Proof.Machine.execMstat c xd s
  | .mrcfg c xs cfg => Sys2Proof.Machine.execMrcfg c xs cfg s
  | .cpy c xs m ph => Sys2Proof.Machine.execCpy c xs m ph s
  | .cpyi c xs dst src => Sys2Proof.Machine.execCpyi c xs dst src s
  | .cpstg c xs k => Sys2Proof.Machine.execCpstg c xs k s
  | .cpabt c xs sx => Sys2Proof.Machine.execCpabt c xs sx s
  | .vwreg c xs mb mc => Sys2Proof.Machine.execVwreg c xs mb mc s
  | .vwdrop c xs xh => Sys2Proof.Machine.execVwdrop c xs xh s
  | .vwld c pol d m => Sys2Proof.Machine.execVwld c pol d m s
  | .vwsync c xs xh => Sys2Proof.Machine.execVwsync c xs xh s
  | .vwgen c d m sel => Sys2Proof.Machine.execVwgen c d m sel s
  | .quant c xs m => Sys2Proof.Machine.execQuant c xs m s
  | .vwclr c xs xh => Sys2Proof.Machine.execVwclr c xs xh s
  | .map c xs m t => Sys2Proof.Machine.execMap c xs m t s
  | .grant c xs m t => Sys2Proof.Machine.execGrant c xs m t s
  | .unmap c xs xa t => Sys2Proof.Machine.execUnmap c xs xa t s
  | .probe c xs xa t => Sys2Proof.Machine.execProbe c xs xa t s
  | .movepg c xs xsrc xdst => Sys2Proof.Machine.execMovepg c xs xsrc xdst s
  | .space c xs g => Sys2Proof.Machine.execSpace c xs g s
  | .retiresp c xs t => Sys2Proof.Machine.execRetiresp c xs t s
  | .bsend c xs m => Sys2Proof.Machine.execBsend c xs m s
  | .bpost c g xs m => Sys2Proof.Machine.execBpost c g xs m s
  | .bcancel c xs m => Sys2Proof.Machine.execBcancel c xs m s
  | .bstat c d m => Sys2Proof.Machine.execBstat c d m s
  | .evid c xs m xr => Sys2Proof.Machine.execEvid c xs m xr s
  | .dbgbrk c => Sys2Proof.Machine.execDbgbrk c s
  | .ill bits => Sys2Proof.Machine.execIll bits s
  | .issueCycle d c => Sys2Proof.Machine.execIssueCycle d c s
  | .blockRefetch d c => Sys2Proof.Machine.execBlockRefetch d c s
  | .longProducerFill uid k => Sys2Proof.Machine.execLongProducerFill uid k s
  | .registerLineFill uid line => Sys2Proof.Machine.execRegisterLineFill uid line s
  | .writeBackFailure uid line => Sys2Proof.Machine.execWriteBackFailure uid line s
  | .messageArrival k => Sys2Proof.Machine.execMessageArrival k s
  | .messageTimeout k => Sys2Proof.Machine.execMessageTimeout k s
  | .remoteMessageStatus seq status => Sys2Proof.Machine.execRemoteMessageStatus seq status s
  | .handlerStart d c => Sys2Proof.Machine.execHandlerStart d c s
  | .faultHandlerStart d c => Sys2Proof.Machine.execFaultHandlerStart d c s
  | .handlerBudget uid => Sys2Proof.Machine.execHandlerBudget uid s
  | .landingPacketOffer d c => Sys2Proof.Machine.execLandingPacketOffer d c s
  | .continuationPlacement d c => Sys2Proof.Machine.execContinuationPlacement d c s
  | .stealContinuation d victim c => Sys2Proof.Machine.execStealContinuation d victim c s
  | .continuationReady uid => Sys2Proof.Machine.execContinuationReady uid s
  | .launchMessage => Sys2Proof.Machine.execLaunchMessage s
  | .worldOpen lid => Sys2Proof.Machine.execWorldOpen lid s
  | .launchDependencesMet lid => Sys2Proof.Machine.execLaunchDependencesMet lid s
  | .itemCreation lid => Sys2Proof.Machine.execItemCreation lid s
  | .launchCompletion lid => Sys2Proof.Machine.execLaunchCompletion lid s
  | .handlerTableLeave d c lid => Sys2Proof.Machine.execHandlerTableLeave d c lid s
  | .budgetCharge account => Sys2Proof.Machine.execBudgetCharge account s
  | .taskDependenceMet d cl k dep => Sys2Proof.Machine.execTaskDependenceMet d cl k dep s
  | .taskDependenceRetest d cl k dep => Sys2Proof.Machine.execTaskDependenceRetest d cl k dep s
  | .taskIssue d cl k => Sys2Proof.Machine.execTaskIssue d cl k s
  | .taskDoneFill d cl k => Sys2Proof.Machine.execTaskDoneFill d cl k s
  | .preemptionRequest region slices deadline => Sys2Proof.Machine.execPreemptionRequest region slices deadline s
  | .cooperativeWindowEnd d cl region => Sys2Proof.Machine.execCooperativeWindowEnd d cl region s
  | .preemptDrainComplete d cl region => Sys2Proof.Machine.execPreemptDrainComplete d cl region s
  | .regionResume region => Sys2Proof.Machine.execRegionResume region s
  | .restartContinuationCreate region => Sys2Proof.Machine.execRestartContinuationCreate region s
  | .movepgSwitch k => Sys2Proof.Machine.execMovepgSwitch k s
  | .unmapWalkDone k => Sys2Proof.Machine.execUnmapWalkDone k s
  | .storeBufferDrain uid k => Sys2Proof.Machine.execStoreBufferDrain uid k s
  | .retryBackoffExpiry uid => Sys2Proof.Machine.execRetryBackoffExpiry uid s
  | .waitaTimeout d k => Sys2Proof.Machine.execWaitaTimeout d k s
  | .monitorWakeNotice d k => Sys2Proof.Machine.execMonitorWakeNotice d k s
  | .barrierRelease d lane => Sys2Proof.Machine.execBarrierRelease d lane s
  | .bwTimeout uid => Sys2Proof.Machine.execBwTimeout uid s
  | .nbarrNoticeArrival d n => Sys2Proof.Machine.execNbarrNoticeArrival d n s
  | .nbarrTimeout uid dead => Sys2Proof.Machine.execNbarrTimeout uid dead s
  | .vectorCommandStart d c => Sys2Proof.Machine.execVectorCommandStart d c s
  | .matrixCommandStart d c => Sys2Proof.Machine.execMatrixCommandStart d c s
  | .ringTileArrival d c => Sys2Proof.Machine.execRingTileArrival d c s
  | .ringTimeout d c => Sys2Proof.Machine.execRingTimeout d c s
  | .copyCommandStart d c => Sys2Proof.Machine.execCopyCommandStart d c s
  | .copyPieceWrite d c => Sys2Proof.Machine.execCopyPieceWrite d c s
  | .copyCommandComplete d c => Sys2Proof.Machine.execCopyCommandComplete d c s
  | .viewRefresh d => Sys2Proof.Machine.execViewRefresh d s
  | .quantService d => Sys2Proof.Machine.execQuantService d s
  | .fabricRequestReceive r => Sys2Proof.Machine.execFabricRequestReceive r s
  | .fabricAckArrival seq a => Sys2Proof.Machine.execFabricAckArrival seq a s
  | .fabricResendTimeout seq => Sys2Proof.Machine.execFabricResendTimeout seq s
  | .skipNoticeArrival srcPkg srcDie path => Sys2Proof.Machine.execSkipNoticeArrival srcPkg srcDie path s
  | .orderedFlagRelease k => Sys2Proof.Machine.execOrderedFlagRelease k s
  | .orderedFlagTimeout k => Sys2Proof.Machine.execOrderedFlagTimeout k s
  | .flitNakReplay port lane => Sys2Proof.Machine.execFlitNakReplay port lane s
  | .healthScoreHalving => Sys2Proof.Machine.execHealthScoreHalving s
  | .parityTopup port good => Sys2Proof.Machine.execParityTopup port good s
  | .stompTail port => Sys2Proof.Machine.execStompTail port s
  | .rtsArrival d r => Sys2Proof.Machine.execRtsArrival d r s
  | .tokenIssue d => Sys2Proof.Machine.execTokenIssue d s
  | .tokenExpiry d k => Sys2Proof.Machine.execTokenExpiry d k s
  | .bulkDataArrival d f => Sys2Proof.Machine.execBulkDataArrival d f s
  | .dropNoticeArrival d n => Sys2Proof.Machine.execDropNoticeArrival d n s
  | .cancelNoticeArrival d n => Sys2Proof.Machine.execCancelNoticeArrival d n s
  | .poolAckTimeout uid => Sys2Proof.Machine.execPoolAckTimeout uid s
  | .getVersion r => Sys2Proof.Machine.execGetVersion r s
  | .getCapabilities r => Sys2Proof.Machine.execGetCapabilities r s
  | .negotiateAlgorithms r => Sys2Proof.Machine.execNegotiateAlgorithms r s
  | .getDigests r => Sys2Proof.Machine.execGetDigests r s
  | .getCertificate r => Sys2Proof.Machine.execGetCertificate r s
  | .challenge r => Sys2Proof.Machine.execChallenge r s
  | .getMeasurements r => Sys2Proof.Machine.execGetMeasurements r s
  | .keyExchange r => Sys2Proof.Machine.execKeyExchange r s
  | .finish r => Sys2Proof.Machine.execFinish r s
  | .heartbeat r => Sys2Proof.Machine.execHeartbeat r s
  | .endSession r => Sys2Proof.Machine.execEndSession r s
  | .keyImport r => Sys2Proof.Machine.execKeyImport r s
  | .unsupportedSpdmRequest r => Sys2Proof.Machine.execUnsupportedSpdmRequest r s
  | .launchDoorbell v => Sys2Proof.Machine.execLaunchDoorbell v s
  | .hostMap => Sys2Proof.Machine.execHostMap s
  | .hostGrant => Sys2Proof.Machine.execHostGrant s
  | .hostUnmap => Sys2Proof.Machine.execHostUnmap s
  | .hostProbe => Sys2Proof.Machine.execHostProbe s
  | .hostSpace => Sys2Proof.Machine.execHostSpace s
  | .hostRetiresp => Sys2Proof.Machine.execHostRetiresp s
  | .reset => Sys2Proof.Machine.execReset s
  | .lend => Sys2Proof.Machine.execLend s
  | .recall => Sys2Proof.Machine.execRecall s
  | .recallDeadline slice => Sys2Proof.Machine.execRecallDeadline slice s
  | .kill => Sys2Proof.Machine.execKill s
  | .scrub => Sys2Proof.Machine.execScrub s
  | .preempt => Sys2Proof.Machine.execPreempt s
  | .resume => Sys2Proof.Machine.execResume s
  | .teardownReport world => Sys2Proof.Machine.execTeardownReport world s
  | .partitionEntryWrite p word v => Sys2Proof.Machine.execPartitionEntryWrite p word v s
  | .debugEntryWrite k word v world trusted => Sys2Proof.Machine.execDebugEntryWrite k word v world trusted s
  | .registerWrite a v trusted => Sys2Proof.Machine.execRegisterWrite a v trusted s
  | .sleepRequest => Sys2Proof.Machine.execSleepRequest s
  | .wake => Sys2Proof.Machine.execWake s
  | .recoveryReload good cxl deadPorts => Sys2Proof.Machine.execRecoveryReload good cxl deadPorts s
  | .powerOnReset cause good cxl deadPorts => Sys2Proof.Machine.execPowerOnReset cause good cxl deadPorts s
  | .railFault rail millivolts => Sys2Proof.Machine.execRailFault rail millivolts s
  | .thermalReading d t => Sys2Proof.Machine.execThermalReading d t s
  | .correctedCodeword port lane => Sys2Proof.Machine.execCorrectedCodeword port lane s
  | .crossbarParityError f => Sys2Proof.Machine.execCrossbarParityError f s
  | .tokenArrival d t => Sys2Proof.Machine.execTokenArrival d t s
  | .powerCycleComplete slice => Sys2Proof.Machine.execPowerCycleComplete slice s
  | .scrubComplete k => Sys2Proof.Machine.execScrubComplete k s
  | .badTreeCommand => Sys2Proof.Machine.execBadTreeCommand s
  | .badPartitionCommand => Sys2Proof.Machine.execBadPartitionCommand s

end Sys2Proof.Machine
end

