-- ==== Sys2Proof/Machine/Step.lean ====
section
/-! DEFINITION. One step of the package: the next action of the agenda, or of the default schedule (log 1). -/

namespace Sys2Proof.Machine

/-- Executes the instruction of the context that `issuing` names. -/
def runIssued (s : State) : Host.Outcome State Fault Refusal :=
  match s.prepareIssue with
  | .stop t => .next t
  | .run i t => exec i t

/-- Sets aside those of some contexts that could not issue in this cycle: they are not ready (R114, R115). -/
def setAside (d : DieNo) (c : CoreNo) : List Nat → State → State
  | [], s => s
  | u :: us, s => match runIssued { s with issuing := u } with
    | .next t => setAside d c us (if t.didIssue u then s else t.undoSelect u s d.val c.val)
    | _ => setAside d c us s

/-- The contexts among which a core chooses: where several slots could hold the next instruction, those are set aside that
could not issue it. -/
def readyOnly (d : DieNo) (c : CoreNo) (s : State) : State :=
  let us := (s.readySlots d.val c.val).map fun r => r.2.1
  if s.heatSkips d.val || decide (us.length ≤ 1) then s else setAside d c us s

/-- One issue cycle of a core: the chosen context issues; one that waits is passed by, and the choice is made again. -/
def issueTry (d : DieNo) (c : CoreNo) : Nat → State → Host.Outcome State Fault Refusal
  | 0, s => .next (s.endCycle d.val c.val)
  | n + 1, s =>
    match exec (.issueCycle d c) s with
    | .next t =>
      if t.issuing = 0 then .next (t.endCycle d.val c.val)
      else match runIssued t with
        | .next u =>
          if u.didIssue t.issuing then .next (u.endCycle d.val c.val)
          else issueTry d c n (u.undoSelect t.issuing s d.val c.val)
        | r => r
    | r => r

/-- Performs an action. An instruction of a program executes only where a core issues it. -/
def perform (a : Action) (s : State) : Host.Outcome State Fault Refusal :=
  match a with
  | .event (.issueCycle d c) => issueTry d c 9 (readyOnly d c s)
  | .event i => if i.isEvent then exec i s else .next s
  | a => .next (s.environ a)

/-- One step. -/
def step (s : State) : Host.Outcome State Fault Refusal :=
  match s.agenda with
  | a :: rest => perform a { s with agenda := rest }
  | [] => perform s.defaultAction s.turned

/-- The state with an instruction placed where the next step fetches: in a fetch block of its own at the first vault,
with a free continuation of space 0 in slot 0 of core 0 whose every line is resident, and an issue cycle of that core
next (log 24). -/
def State.withFetchWord (s : State) (_nbits w : Nat) : State := s.placeWord w

end Sys2Proof.Machine
end

