-- ==== Sys2Proof/Safety.lean ====
section
/-! DEFINITION. The terms that statements use: safe runs, when an instruction may issue, and what its issue leaves
behind. -/

namespace Sys2Proof.Machine

/-- A run of `n` steps meets no stop. -/
def runsOn : Nat → State → Bool
  | 0, _ => true
  | n + 1, s => match step s with
    | .next t => runsOn n t
    | _ => false

/-! ## When an instruction may issue -/

/-- Nothing keeps the context from issuing an instruction with these sources and destinations: it occupies a slot, the
guard is full and true (R37), the lines of the registers named are in the register cache (R59), every source is full
and not poisoned (R54), and no destination is pending (R55). -/
def Context.mayIssue (c : Context) (ctl : Ctl) (rd : List Src) (wr : List AnyReg) : Bool :=
  c.slot.isSome && c.isFull (.p ctl.pred) && guardTrue ctl c
    && (namedLines (rd.map (·.reg)) ++ namedLines wr).all (fun n => KMap.has c.lines n)
    && rd.all (fun r => c.isFull r.reg && !(c.isPois r.reg)) && wr.all fun r => !(c.isPend r)

/-- The context may not execute the instruction: `SWRITE ar.cause`, `TRET` and a `CHMASK` whose encoding masks channel 62,
outside slot 7 (R64, R99, R101), and in slot 6 the instructions that a landing handler may not execute (R88, R205, R222, R225, R232, R361, R380). -/
def privilegedFor (i : Instr) (c : Context) : Bool :=
  match i with
  | .swrite _ .arCause _ | .tret .. => c.slot != some 7
  | .chmask _ unmask ch => chmaskPriv unmask ch c
  | .suspend .. | .yield _ | .waitr .. | .spawn .. | .send .. | .sendh .. | .waita .. | .phwait .. | .phnext ..
  | .bwwait .. | .nbarr .. | .bsend .. | .bpost .. | .evid .. => inSlot6 c
  | _ => false

/-- `c` is the context that the core issues, and it may issue the instruction. -/
def State.ready (s : State) (c : Context) (ctl : Ctl) (rd : List Src) (wr : List AnyReg) : Prop :=
  s.ctx? s.issuing = some c ∧ c.mayIssue ctl rd wr = true

/-! ## What an issue leaves behind -/

/-- The context with the marks of an issue set (R38, R51, R59, R411): `k` is the context with its own effect, PC included;
`pc` is where the instruction stood. Nothing else of the context has changed but its count of accesses and issues. -/
def Context.issuedFrom (ctl : Ctl) (pc : BitVec 64) (k c' : Context) : Prop :=
  c' = { k with lines := c'.lines, why := none, refusals := none, skip := ctl.yield, stepped := some pc,
                stallTo := c'.stallTo, began := c'.began, pastEnd := c'.pastEnd, block := c'.block,
                serial := k.serial + 1 }
  ∧ (∀ n, KMap.has c'.lines n = KMap.has k.lines n)

/-- `t` is `u` after the issue of an instruction by context `uid`, which became `k`: every other context, every core but
for its count of register-line uses, and everything else of the package is as in `u`. -/
def State.issuedTo (u : State) (uid : Nat) (ctl : Ctl) (pc : BitVec 64) (k : Context) (t : State) : Prop :=
  t = { u with ctxs := t.ctxs, cores := t.cores }
  ∧ (∀ i, i ≠ uid → t.ctx? i = u.ctx? i)
  ∧ (∃ c', t.ctx? uid = some c' ∧ Context.issuedFrom ctl pc k c')
  ∧ (∀ d n, t.core d n = { u.core d n with uses := (t.core d n).uses })

/-- Instruction `i`, issued by context `c`, completes: the context becomes `k`, with control at `pc`, and nothing else of
the package changes. -/
def State.goesTo (s : State) (ctl : Ctl) (c : Context) (i : Instr) (k : Context) (pc : BitVec 64) : Prop :=
  ∃ t, exec i s = .next t ∧ s.issuedTo s.issuing ctl c.pc { k with pc := pc } t

/-- Instruction `i` completes, and control goes on at the sequential successor (R32). -/
def State.completes (s : State) (ctl : Ctl) (c : Context) (i : Instr) (k : Context) : Prop :=
  s.goesTo ctl c i k (succPc c.pc)

/-- Instruction `i` completes: its own effect leaves the package at `u`, and the issue of the instruction is marked in its
context and its core (`State.retired`). -/
def State.doneAs (s : State) (ctl : Ctl) (c : Context) (rd : List Src) (wr : List AnyReg) (i : Instr) (u : State) : Prop :=
  exec i s = .next (u.retired s.issuing ctl c.pc (namedLines (rd.map (·.reg))) (destLines wr))

/-- Instruction `i` of opcode `op` takes a precise fault (R89): trap_pc is its own PC. -/
def State.faults (s : State) (c : Context) (i : Instr) (op cause addr : Nat) : Prop :=
  exec i s = .next (s.takeFault s.issuing op cause addr c.pc)

/-- The context awaits a fill: its destination is empty and pending, and the fill is on its way (R55), with the place of
its instruction in the issue order (R250). -/
def Context.awaits (c : Context) (f : Fill) : Context :=
  { c.pend f.dest with fills := c.fills ++ [f.stamped c.serial] }

/-- Memory reads the same in both states: every byte as any world sees it, full-empty bits and poison. -/
def State.sameMemory (s t : State) : Prop :=
  ∀ w a, t.readByte w a = s.readByte w a ∧ t.isFull a = s.isFull a ∧ t.isPoisoned a = s.isPoisoned a

end Sys2Proof.Machine
end

