-- ==== Sys2Proof/Certificates/Slice0/Obligations.lean ====
section
/-! DEFINITION. The statements for the provers. -/

open Sys2Proof Sys2Proof.Machine

/-! ## Integer and logic instructions (R66 to R75) -/

/-- R67, R68: every instruction of the table of R68 issues and writes the result that the table gives, zero-extended
from the width; `MUL` and `MULH` by a fill that brings no flag (R55, R70). Nothing else of the context, no other context,
and nothing of memory changes. -/
def Obligations.IntegerTable : Prop :=
  ∀ (s : State) (c : Context) (ctl : Ctl) (w : Width) (d : Fin 64) (a b : XI),
    let g := intArgs w (xiVal c a) (xiVal c b)
    let short := fun (i : Instr) (r : Int) => s.completes ctl c i (c.setX d (resWord g.w r))
    let long := fun (i : Instr) (r : Int) => s.completes ctl c i (c.awaits (valueFill (.x d) (resWord g.w r)))
    (s.ready c ctl (xiSrcs a ++ xiSrcs b) [.x d] →
      short (.add ctl w .wrap d a b) (g.ua + g.ub)
      ∧ short (.add ctl w .sat d a b) (clampTo (g.sa + g.sb) (minS g.w) (maxS g.w))
      ∧ short (.add ctl w .usat d a b) (min (g.ua + g.ub) (maxU g.w))
      ∧ short (.sub ctl w .wrap d a b) (g.ua - g.ub)
      ∧ short (.sub ctl w .sat d a b) (clampTo (g.sa - g.sb) (minS g.w) (maxS g.w))
      ∧ short (.sub ctl w .usat d a b) (max (g.ua - g.ub) 0)
      ∧ long (.mul ctl w d a b) (g.ua * g.ub)
      ∧ long (.mulh ctl w false d a b) (g.sa * g.sb / 2 ^ g.w)
      ∧ long (.mulh ctl w true d a b) (g.ua * g.ub / 2 ^ g.w)
      ∧ short (.and ctl w d a b) (g.ua &&& g.ub : Nat)
      ∧ short (.or ctl w d a b) (g.ua ||| g.ub : Nat)
      ∧ short (.xor ctl w d a b) (g.ua ^^^ g.ub : Nat)
      ∧ short (.andn ctl w d a b) (g.ua &&& (2 ^ g.w - 1 - g.ub) : Nat)
      ∧ short (.shl ctl w d a b) (g.ua * 2 ^ g.k)
      ∧ short (.shr ctl w d a b) (g.ua / 2 ^ g.k)
      ∧ short (.sar ctl w d a b) (g.sa / 2 ^ g.k)
      ∧ short (.rol ctl w d a b) ((g.ua <<< g.k) ||| (g.ua >>> (g.w - g.k)) : Nat)
      ∧ short (.min ctl w false d a b) (min g.sa g.sb)
      ∧ short (.min ctl w true d a b) (min g.ua g.ub)
      ∧ short (.max ctl w false d a b) (max g.sa g.sb)
      ∧ short (.max ctl w true d a b) (max g.ua g.ub)
      ∧ short (.addc ctl w d a b) ((g.ua + g.ub) / 2 ^ g.w))
    ∧ (s.ready c ctl (xiSrcs a) [.x d] →
      (∀ n : Nat, n ≤ g.w → g.ua / 2 ^ (g.w - n) = 0 → (n < g.w → g.ua / 2 ^ (g.w - n - 1) = 1) →
        short (.clz ctl w d a) n)
      ∧ short (.popc ctl w d a) ((List.range g.w).filter fun i => g.ua.testBit i).length
      ∧ short (.bswap ctl w d a) (leNat (leBytes (g.w / 8) g.ua).reverse)
      ∧ short (.abs ctl w false d a) (|g.sa| % 2 ^ g.w)
      ∧ short (.abs ctl w true d a) (min |g.sa| (maxS g.w)))

/-- R69: `DIV` and `REM` fill their destination with the quotient or remainder; a divisor of zero gives MAXU and the
dividend, and brings flag div0 (bit 1 of ar.flags), and no other case brings a flag. -/
def Obligations.DivideAndRemainder : Prop :=
  ∀ (s : State) (c : Context) (ctl : Ctl) (w : Width) (u : Bool) (d : Fin 64) (a b : XI),
    s.ready c ctl (xiSrcs a ++ xiSrcs b) [.x d] →
    let g := intArgs w (xiVal c a) (xiVal c b)
    let fills := fun (i : Instr) (r : Int) (fl : BitVec 16) =>
      s.completes ctl c i (c.awaits { valueFill (.x d) (resWord g.w r) with flags := fl })
    (g.ub = 0 → fills (.div ctl w u d a b) (maxU g.w) 2 ∧ fills (.rem ctl w u d a b) g.ua 2)
    ∧ (g.ub ≠ 0 → u = true → fills (.div ctl w u d a b) (g.ua / g.ub : Nat) 0
        ∧ fills (.rem ctl w u d a b) (g.ua % g.ub : Nat) 0)
    ∧ (u = false → g.sa = minS g.w → g.sb = -1 → fills (.div ctl w u d a b) (minS g.w) 0
        ∧ fills (.rem ctl w u d a b) 0 0)
    ∧ (g.ub ≠ 0 → u = false → ¬(g.sa = minS g.w ∧ g.sb = -1) → fills (.div ctl w u d a b) (g.sa.tdiv g.sb) 0
        ∧ fills (.rem ctl w u d a b) (g.sa - g.sa.tdiv g.sb * g.sb) 0)

/-- R71, R72: bit fields, selection, moves and the address computation write their results; nothing else changes. -/
def Obligations.BitFieldsAndMoves : Prop :=
  ∀ (s : State) (c : Context) (ctl : Ctl),
    (∀ (sx : Bool) (d : Fin 64) (a k : XI), s.ready c ctl (xiSrcs a ++ xiSrcs k) [.x d] →
      let pos := (xiVal c k).toNat % 64
      let len := min ((xiVal c k).toNat / 64 % 128) (64 - pos)
      let f := (xiVal c a).toNat / 2 ^ pos % 2 ^ len
      s.completes ctl c (.bext ctl sx d a k)
        (c.setX d (if sx = true ∧ 0 < len ∧ 2 ^ (len - 1) ≤ f then BitVec.ofInt 64 ((f : Int) - 2 ^ len) else BitVec.ofNat 64 f)))
    ∧ (∀ (w : Width) (d : XSrc) (a k : XI), s.ready c ctl (xSrc d :: xiSrcs a ++ xiSrcs k) [.x d.reg] →
      let W := Width.bits w
      let pos := (xiVal c k).toNat % 64
      let len := if W ≤ pos then 0 else min ((xiVal c k).toNat / 64 % 128) (W - pos)
      ∃ v, s.completes ctl c (.bins ctl w d a k) (c.setX d.reg v)
        ∧ ∀ i < 64, v.getLsbD i = (decide (i < W)
          && if pos ≤ i ∧ i < pos + len then (xiVal c a).getLsbD (i - pos) else (xVal c d).getLsbD i))
    ∧ (∀ (d : XSrc) (a b : XI), s.ready c ctl (xSrc d :: xiSrcs a ++ xiSrcs b) [.x d.reg] →
      s.completes ctl c (.sel ctl d a b)
        (c.setX d.reg ((xiVal c a &&& xVal c d) ||| (xiVal c b &&& ~~~(xVal c d)))))
    ∧ (∀ (d : Fin 64) (a : XI), s.ready c ctl (xiSrcs a) [.x d] →
      s.completes ctl c (.mov ctl (.x d a)) (c.setX d (xiVal c a)))
    ∧ (∀ (d : Fin 8) (a : PSrc), s.ready c ctl [pSrc a] [.p d] →
      s.completes ctl c (.mov ctl (.p d a)) (c.setP d (c.getP a.reg.val)))
    ∧ (∀ (d : Fin 64) (imm : BitVec 48), s.ready c ctl [] [.x d] →
      s.completes ctl c (.movi ctl d imm) (c.setX d (imm.signExtend 64)))
    ∧ (∀ (d : Fin 64) (m : MemOp) (sc : Fin 4), s.ready c ctl [memSrc m] [.x d] →
      s.completes ctl c (.lea ctl d m sc) (c.setX d (BitVec.ofNat 64 (formAddr c m (2 ^ sc.val)))))

/-- R73, R74: comparisons and predicate instructions. `PMOV.tox` gathers p0 to p7 with p0 as 1; `PMOV.fromx` writes p1 to
p7 and leaves p0. -/
def Obligations.ComparisonsAndPredicates : Prop :=
  ∀ (s : State) (c : Context) (ctl : Ctl),
    (∀ (w : Width) (pd : Fin 8) (a b : XI), s.ready c ctl (xiSrcs a ++ xiSrcs b) [.p pd] →
      let g := intArgs w (xiVal c a) (xiVal c b)
      let gives := fun (cond : CmpCond) (v : Bool) => s.completes ctl c (.cmp ctl w cond pd a b) (c.setP pd v)
      gives .eq (decide (g.ua = g.ub)) ∧ gives .ne (decide (g.ua ≠ g.ub))
      ∧ gives .lt (decide (g.sa < g.sb)) ∧ gives .le (decide (g.sa ≤ g.sb))
      ∧ gives .ltu (decide (g.ua < g.ub)) ∧ gives .leu (decide (g.ua ≤ g.ub))
      ∧ gives .any (decide (g.ua &&& g.ub ≠ 0)))
    ∧ (∀ (tt : BitVec 4) (pd : Fin 8) (pa pb : PSrc), s.ready c ctl [pSrc pa, pSrc pb] [.p pd] →
      s.completes ctl c (.plog ctl tt pd pa pb)
        (c.setP pd (tt.getLsbD (2 * (c.getP pb.reg.val).toNat + (c.getP pa.reg.val).toNat))))
    ∧ (∀ (d : Fin 64), s.ready c ctl (preds17.map fun r => ⟨.p r, false⟩) [.x d] →
      ∃ v : BitVec 64, s.completes ctl c (.pmov ctl (.tox d)) (c.setX d v)
        ∧ v.getLsbD 0 = true ∧ ∀ i < 64, v.getLsbD i = (decide (i < 8) && c.getP i))
    ∧ (∀ (a : XI), s.ready c ctl (xiSrcs a) (preds17.map AnyReg.p) →
      s.completes ctl c (.pmov ctl (.fromx a))
        (preds17.foldl (fun (k : Context) n => k.setP n ((xiVal c a).getLsbD n.val)) c))

/-- R64, R75: `SREAD` gives the value of every special register. The launch's item count, seed and logical core are those
of the context's live launch. -/
def Obligations.SpecialRegisterReads : Prop :=
  ∀ (s : State) (c : Context) (ctl : Ctl) (d : Fin 64), s.ready c ctl [] [.x d] →
    let reads := fun (sp : Special) (v : BitVec 64) => s.completes ctl c (.sread ctl d sp) (c.setX d v)
    reads .idPkg (s.pkg.setWidth 64)
    ∧ reads .idDie (BitVec.ofNat 64 c.die.val)
    ∧ reads .idCluster (BitVec.ofNat 64 (c.core.val / 64 * 4 + c.core.val / 4 % 4))
    ∧ reads .idCore (BitVec.ofNat 64 c.core.val)
    ∧ reads .idItem c.item
    ∧ (∀ l, s.launch? c.lid = some l → reads .lnItems (BitVec.ofNat 64 l.items) ∧ reads .lnSeed l.seed
        ∧ ∀ n, l.lcoreOf c.die.val c.core.val = some n → reads .idLcore (BitVec.ofNat 64 n))
    ∧ reads .lnWorld (BitVec.ofNat 64 (c.world % 2 ^ 16))
    ∧ reads .lnRegion (BitVec.ofNat 64 (c.region % 2 ^ 32))
    ∧ reads .cxId (BitVec.ofNat 64 (c.record / 64 % 2 ^ 48))
    ∧ (∀ n, c.slot = some n → reads .cxSlot (BitVec.ofNat 64 n.val))
    ∧ reads .arFlags (c.flags.setWidth 64)
    ∧ reads .arNanpos c.nanpos
    ∧ reads .arNanfmt (c.nanfmt.setWidth 64)
    ∧ reads .arCause (BitVec.ofNat 64 (c.cause.toNat + c.causeOp.toNat * 256))
    ∧ reads .cyc (BitVec.ofNat 64 (s.cyc c.die.val))
    ∧ reads .bwTimeout (c.bwto.setWidth 64)
    ∧ reads .feRlim (c.rlim.setWidth 64)
    ∧ reads .srMode (if c.srmode then 1 else 0)

/-- R64, R65, R75: `SWRITE` writes the fields of a special register and nothing else; a write of ar.flags with bit [5] clear
re-arms the NaN capture, and ar.cause is writable from slot 7 only: elsewhere it faults with privileged. -/
def Obligations.SpecialRegisterWrites : Prop :=
  ∀ (s : State) (c : Context) (ctl : Ctl) (a : XI), s.ready c ctl (xiSrcs a) [] →
    let v := xiVal c a
    let writes := fun (sp : Special) (k : Context) => s.completes ctl c (.swrite ctl sp a) k
    (v.getLsbD 5 = true → writes .arFlags { c with flags := v.setWidth 16 &&& 0x1FF })
    ∧ (v.getLsbD 5 = false → writes .arFlags { c with flags := v.setWidth 16 &&& 0x1FF, nanpos := 0, nanfmt := 0, nanSeq := none })
    ∧ writes .bwTimeout { c with bwto := v.setWidth 32 }
    ∧ writes .feRlim { c with rlim := v.setWidth 16 }
    ∧ writes .srMode { c with srmode := v.getLsbD 0 }
    ∧ (c.slot = some 7 → writes .arCause { c with cause := v.setWidth 8, causeOp := (v >>> 8).setWidth 8 })
    ∧ (c.slot ≠ some 7 → exec (.swrite ctl .arCause a) s = .next (s.takeFault s.issuing 0x2F 0x0B 0 c.pc))

/-! ## Control and contexts (R92 to R99) -/

/-- R93: branches, calls, returns, loops and `NOP`. Control goes to a target that control may arrive at; a target that it
may not arrive at faults, and leaves the destination as it was (R32, R33). -/
def Obligations.Branches : Prop :=
  ∀ (s : State) (c : Context) (ctl : Ctl),
    (s.ready c ctl [] [] → s.completes ctl c (.nop ctl) c)
    ∧ (∀ imm, s.ready c ctl [] [] →
      (s.arrive c (relTarget c.pc imm) = none → s.goesTo ctl c (.bra ctl imm) c (relTarget c.pc imm))
      ∧ ∀ e, s.arrive c (relTarget c.pc imm) = some e → s.faults c (.bra ctl imm) 0x01 e.1 e.2)
    ∧ (∀ t, s.ready c ctl [xSrc t] [] →
      (s.arrive c (xVal c t) = none →
        s.goesTo ctl c (.bri ctl t) c (xVal c t) ∧ s.goesTo ctl c (.ret ctl t) c (xVal c t))
      ∧ ∀ e, s.arrive c (xVal c t) = some e →
        s.faults c (.bri ctl t) 0x02 e.1 e.2 ∧ s.faults c (.ret ctl t) 0x04 e.1 e.2)
    ∧ (∀ l t, s.ready c ctl (callSrcs t) [.x l] →
      (s.arrive c (callPc c t) = none → s.goesTo ctl c (.call ctl l t) (c.setX l (succPc c.pc)) (callPc c t))
      ∧ ∀ e, s.arrive c (callPc c t) = some e → s.faults c (.call ctl l t) 0x03 e.1 e.2)
    ∧ (∀ r imm, s.ready c ctl [xSrc r] [.x r.reg] →
      let n := xVal c r - 1
      (n = 0 → s.completes ctl c (.loop ctl r imm) (c.setX r.reg n))
      ∧ (n ≠ 0 → s.arrive c (relTarget c.pc imm) = none →
        s.goesTo ctl c (.loop ctl r imm) (c.setX r.reg n) (relTarget c.pc imm))
      ∧ ∀ e, n ≠ 0 → s.arrive c (relTarget c.pc imm) = some e → s.faults c (.loop ctl r imm) 0x05 e.1 e.2)
    ∧ (∀ full r imm, s.ready c ctl [] [] →
      (c.isFull r ≠ full → s.completes ctl c (.brf ctl full r imm) c)
      ∧ (c.isFull r = full → s.arrive c (relTarget c.pc imm) = none →
        s.goesTo ctl c (.brf ctl full r imm) c (relTarget c.pc imm))
      ∧ ∀ e, c.isFull r = full → s.arrive c (relTarget c.pc imm) = some e → s.faults c (.brf ctl full r imm) 0x0E e.1 e.2)

/-- R94: `SUSPEND`, `YIELD` and `WAITR` give up the slot. A pinned handler becomes a free continuation first, or gets
no_record; the wait for a word of another package goes there as a request; a full word or register, and `YIELD` in a pinned handler, lose no slot. -/
def Obligations.GivingUpTheSlot : Prop :=
  ∀ (s : State) (c : Context) (ctl : Ctl), inSlot6 c = false →
    let uid := s.issuing
    let m := s.movedOn uid
    (∀ xs, s.ready c ctl [] [.x xs] →
      (∀ t, m.suspendable uid c = some t →
        s.doneAs ctl c [] [.x xs] (.suspend ctl xs none) ((t.giveCxid uid xs).yieldSlot uid))
      ∧ (m.suspendable uid c = none → s.completes ctl c (.suspend ctl xs none) (c.setX xs (errWord 5))))
    ∧ (∀ xs op t acc, s.ready c ctl [memSrc op] [.x xs] → m.suspendable uid c = some t →
        let n := m.unpause uid .issue
        (∀ e, m.resolve c op.mode (formAddr c op 8) 8 .rd false .data = .error e →
          s.faults c (.suspend ctl xs (some op)) 0x06 e.1 e.2)
        ∧ (m.resolve c op.mode (formAddr c op 8) 8 .rd false .data = .ok acc →
          let a := partAt acc.parts 0
          let done := s.doneAs ctl c [memSrc op] [.x xs] (.suspend ctl xs (some op))
          let here := fun (w : Nat) =>
            (m.untagged w = true → s.faults c (.suspend ctl xs (some op)) 0x06 causePermission (acc.va / 8 * 8))
            ∧ (m.untagged w = false → c.loadsHeld = false → m.lockReady c acc = true →
              m.pauser uid .issue (m.places acc) = none →
              ∀ k, (n.l1Home (some (coreKey c.die.val c.core.val)) w false).suspendable uid c = some k →
              ((k.giveCxid uid xs).isFull w = true → done ((k.giveCxid uid xs).recordHere uid 0x06))
              ∧ ((k.giveCxid uid xs).isFull w = false → (k.giveCxid uid xs).listRoom w = true →
                done ((k.giveCxid uid xs).waitWord uid acc w)))
          ((∀ p, m.homeOf a ≠ .job p) → here (a / 8 * 8))
          ∧ (∀ q, m.homeOf a = .job s.pkg.toNat → m.admits m.job c.world (jobPlace a).2 8 .rd = some q → here (q / 8 * 8))
          ∧ (m.homeOf a = .job s.pkg.toNat → m.admits m.job c.world (jobPlace a).2 8 .rd = none →
            s.faults c (.suspend ctl xs (some op)) 0x06 causePermission acc.va)
          ∧ ∀ p k, m.homeOf a = .job p → p ≠ s.pkg.toNat → c.loadsHeld = false → m.lockReady c acc = true →
            let u := (t.giveCxid uid xs).suspendFor uid (.word (BitVec.ofNat 64 acc.va))
            u.ctx? uid = some k → k.state = .suspended →
            done (u.sendReq c.die.val p c.world (jobPlace a).2 c.rlim.toNat c.die (.syncLoad 8 false)
              (.sync uid none acc none false))))
    ∧ (∀ xs op, s.ready c ctl [memSrc op] [.x xs] → m.suspendable uid c = none →
      s.completes ctl c (.suspend ctl xs (some op)) (c.setX xs (errWord 5)))
    ∧ (s.ready c ctl [] [] →
      (c.isPinned = true → s.completes ctl c (.yield ctl) c)
      ∧ (c.isPinned = false → m.preempted c.die.val (clusterOf c.core.val) c.region = false →
        s.doneAs ctl c [] [] (.yield ctl) (m.yieldSlot uid))
      ∧ (c.isPinned = false → m.preempted c.die.val (clusterOf c.core.val) c.region = true →
        s.doneAs ctl c [] [] (.yield ctl) (m.yieldHeld uid c)))
    ∧ (∀ r, s.ready c ctl [] [] →
      (c.isFull r = true → s.completes ctl c (.waitr ctl r) c)
      ∧ (c.isFull r = false → c.isPinned = false →
        s.doneAs ctl c [] [] (.waitr ctl r) (m.suspendFor uid (.reg r)))
      ∧ (∀ t, c.isFull r = false → c.isPinned = true → c.slot ≠ some 7 → m.convert uid = some t →
        s.doneAs ctl c [] [] (.waitr ctl r) (t.suspendFor uid (.reg r))))

/-- R95 to R99: `SPAWN`, `DONE`, `TRAP`, `TFENCE` and `TRET`. `TRET` fills 0 for every faulted continuation, also for one whose
resume PC is misaligned, which is reported when it is resumed: the model's choice between R32 and R99 (log 80). -/
def Obligations.ContextsAndTraps : Prop :=
  ∀ (s : State) (c : Context) (ctl : Ctl),
    let uid := s.issuing
    let m := s.movedOn uid
    (∀ xs t r, inSlot6 c = false →
      let rd := xiSrcs t ++ [xSrc r] ++ spawnArgs.map fun r => ⟨.x r, false⟩
      let img := (xVal c r).toNat
      s.ready c ctl rd [.x xs] →
      (img % 64 ≠ 0 → s.faults c (.spawn ctl xs t r) 0x08 causeMisaligned img)
      ∧ (img % 64 = 0 → m.imageFault c img = none → badPc (spawnPc c t) = false → m.released uid c .pkg = true →
        s.doneAs ctl c rd [.x xs] (.spawn ctl xs t r) (m.spawned uid c xs (spawnPc c t) img)))
    ∧ (s.ready c ctl [] [] → c.anyPend = false →
      s.doneAs ctl c [] [] (.done ctl)
        (((m.releaseMat uid).landPacket c).endContext uid))
    ∧ (∀ n, s.ready c ctl [] [] → s.faults c (.trap ctl n) 0x0A (0x20 + n.val) 0)
    ∧ (∀ mask, s.ready c ctl [] [] → c.anyPend = false →
      let k : BitVec 16 := match mask with
        | some b => b.setWidth 16
        | none => 0x167
      (c.flags &&& k = 0 → s.completes ctl c (.tfence ctl mask) c)
      ∧ (c.flags &&& k ≠ 0 → s.faults c (.tfence ctl mask) 0x0B 0x10 0))
    ∧ (∀ xs r, s.ready c ctl [xSrc r] [.x xs] →
      let id := (xVal c r).toNat % 2 ^ 48
      (c.slot ≠ some 7 → s.faults c (.tret ctl xs r) 0x0C 0x0B 0)
      ∧ (c.slot = some 7 → m.byCxid c.world id = none →
        s.completes ctl c (.tret ctl xs r) (c.awaits (valueFill (.x xs) (errWord 7))))
      ∧ ∀ u k, c.slot = some 7 → m.byCxid c.world id = some (u, k) →
        (k.state ≠ .faulted → s.completes ctl c (.tret ctl xs r) (c.awaits (valueFill (.x xs) (errWord 6))))
        ∧ (k.state = .faulted →
          s.doneAs ctl c [xSrc r] [.x xs] (.tret ctl xs r) ((m.returnFrom u).produceWord uid (.x xs) 0)))

/-! ## Scalar floating point (R240 to R256) -/

/-- R250, R254 to R256: scalar floating-point arithmetic fills its destination with the rounded result, zero-extended, and the fill
brings the flags and the capture; `FCVT` under stochastic rounding takes the next group of its generator, but for a pair that is never
inexact (R243, R245, R248); minima, maxima, comparisons and classes write at once and OR their flags in. -/
def Obligations.ScalarFloat : Prop :=
  ∀ (s : State) (c : Context) (ctl : Ctl) (f : FFmt) (r : Rnd),
    let t := FFmt.elem f
    let arg := fun (x : XSrc) => (xVal c x).toNat % 2 ^ t.bits
    let fills := fun (i : Instr) (d : Fin 64) (v : Nat × Nat) =>
      s.completes ctl c i (c.awaits { valueFill (.x d) (BitVec.ofNat 64 v.1) with
        flags := flagBits v.2, nan := scalarNan t t t })
    let stamped := (scalarNan t t t).map fun n => n.by c.serial
    (∀ d a b, s.ready c ctl [xSrc a, xSrc b] [.x d] →
      fills (.fadd ctl f r d a b) d (fAdd t r (arg a) (arg b))
      ∧ fills (.fsub ctl f r d a b) d (fSub t r (arg a) (arg b))
      ∧ fills (.fmul ctl f r d a b) d (fMul t r (arg a) (arg b))
      ∧ fills (.fdiv ctl f r d a b) d (fDiv t r (arg a) (arg b))
      ∧ s.completes ctl c (.fmin ctl f d a b)
        ((c.setX d (BitVec.ofNat 64 (fMinMax t false (arg a) (arg b)).1)).addFlags
          (flagBits (fMinMax t false (arg a) (arg b)).2) stamped)
      ∧ s.completes ctl c (.fmax ctl f d a b)
        ((c.setX d (BitVec.ofNat 64 (fMinMax t true (arg a) (arg b)).1)).addFlags
          (flagBits (fMinMax t true (arg a) (arg b)).2) stamped))
    ∧ (∀ d a b, s.ready c ctl [xSrc d, xSrc a, xSrc b] [.x d.reg] →
      fills (.ffma ctl f r d a b) d.reg (fFma t r (arg a) (arg b) (arg d)))
    ∧ (∀ d a, s.ready c ctl [xSrc a] [.x d] →
      fills (.fsqrt ctl f r d a) d (fSqrt t r (arg a))
      ∧ fills (.frnd ctl f r d a) d (fRound t r (arg a))
      ∧ s.completes ctl c (.fclass ctl f d a) (c.setX d (BitVec.ofNat 64 (fClassify t (arg a))))
      ∧ ∀ sat src dst,
        let fill := fun (rnd : Nat) =>
          let v := convert src dst r sat rnd ((xVal c a).toNat % 2 ^ src.bits)
          ({ valueFill (.x d) (fcvtWord dst v.1) with flags := flagBits v.2, nan := scalarNan dst src src } : Fill)
        let m := s.movedOn s.issuing
        ((r ≠ .sr ∨ neverInexact src dst = true) → s.completes ctl c (.fcvt ctl sat r d a src dst) (c.awaits (fill (stippleLane 0 0))))
        ∧ (r = .sr → neverInexact src dst = false → m.scalarHeld c = false →
          let g := m.scalarGroup c (xVal c a)
          s.doneAs ctl c [xSrc a] [.x d] (.fcvt ctl sat r d a src dst)
            (g.2.produce s.issuing (fill (stippleLane g.1 0)))))
    ∧ (∀ cond pd a b, s.ready c ctl [xSrc a, xSrc b] [.p pd] →
      s.completes ctl c (.fcmp ctl f cond pd a b)
        ((c.setP pd (fCompare t cond (arg a) (arg b)).1).addFlags
          (flagBits (fCompare t cond (arg a) (arg b)).2) stamped))

/-! ## Loads, stores and atomics (R157 to R203) -/

/-- R169, R176, R178, R345: `LD`, `LDV` and `FEGET` issue. A plain load takes its value from the store buffer where an earlier
store of its context holds it, from memory where its home lies on the issuing die, is performed on its way where it lies
on another die, and asks another package for it; an address that does not resolve faults precisely with its cause. A plain `LDV` reads its words in one step: the model's choice (log 91). -/
def Obligations.Loads : Prop :=
  ∀ (s : State) (c : Context) (ctl : Ctl),
    let uid := s.issuing
    let m := s.movedOn uid
    let u := m.unpause uid .issue
    let load := fun (i : Instr) (op n : Nat) (r : AnyReg) (a : MemOp) =>
      s.ready c ctl [memSrc a] [r] →
      let done := s.doneAs ctl c [memSrc a] [r] i
      (∀ e, m.resolve c a.mode (formAddr c a n) n .rd false .data = .error e → s.faults c i op e.1 e.2)
      ∧ ∀ acc, m.resolve c a.mode (formAddr c a n) n .rd false .data = .ok acc →
        c.loadsHeld = false → scaleBuffered c acc = false →
        (∀ raw, m.forward c.sbuf acc = .bytes raw →
          done (m.produce uid (m.loadFill r acc raw (m.anyPoison ((loadWords acc).drop acc.parts.length)) none)))
        ∧ (m.forward c.sbuf acc = .memory → m.pauser uid .issue (m.places acc) = none →
          (∀ x job, u.whereIs acc .rd = .here x job →
            ((u.accHome x).die? = some c.die.val →
              let q := u.loadNow c.die.val c.core.val ctl.loc r x job none
              done (q.1.produce uid q.2))
            ∧ ((u.accHome x).die? ≠ some c.die.val → done (u.produce uid { poisonFill r with src := .load acc })))
          ∧ (∀ p off, u.whereIs acc .rd = .far p off → done (u.loadRemote uid c r acc p off false))
          ∧ (u.whereIs acc .rd = .refused → done (u.produce uid (poisonFill r))))
    (∀ sz d a, load (.ld ctl sz .plain d a) 0x40 (MSize.bytes sz) (.x d) a)
    ∧ (∀ d a, load (.ldv ctl .plain d a) 0x42 128 (.v d) a)
    ∧ (∀ d a acc, s.ready c ctl [memSrc a] [.x d] →
      m.resolve c a.mode (formAddr c a 8) 8 .rd false .data = .ok acc →
      c.loadsHeld = false → m.wordBuffered c acc = false → m.pauser uid .issue (m.places acc) = none →
      let done := s.doneAs ctl c [memSrc a] [.x d] (.feget ctl d a)
      (∀ x job, u.whereIs acc .rd = .here x job →
        ((u.accHome x).die? = some c.die.val →
          done ((u.l1Home (some (coreKey c.die.val c.core.val)) (partAt x.parts 0) false).produceWord uid (.x d)
            (u.feWord (partAt x.parts 0))))
        ∧ ((u.accHome x).die? ≠ some c.die.val → done (u.produce uid { poisonFill (.x d) with src := .feget acc })))
      ∧ (∀ p off, u.whereIs acc .rd = .far p off → u.noJob p = false →
        done ((u.pendReg uid (.x d)).sendReq c.die.val p acc.world off c.rlim.toNat c.die .feget
          (.fill uid (.x d) acc none false))))

/-- R8, R163, R166: a plain load of a word or less that takes window 0 from unpoisoned, unprotected memory of the issuing
die fills its register with the bytes read, least significant first, zero-extended; only the L1s change beside it. -/
def Obligations.PlainLoadValue : Prop :=
  ∀ (s : State) (c : Context) (ctl : Ctl) (sz : MSize) (d : Fin 64) (a : MemOp) (acc : Acc) (p : Nat),
    let uid := s.issuing
    let m := s.movedOn uid
    let n := MSize.bytes sz
    s.ready c ctl [memSrc a] [.x d] →
    m.resolve c a.mode (formAddr c a n) n .rd false .data = .ok acc → acc.parts = [(p, n)] → acc.win = 0 →
    c.loadsHeld = false → m.forward c.sbuf acc = .memory → m.pauser uid .issue (m.places acc) = none →
    (∀ j, s.homeOf p ≠ .job j) → (s.homeOf p).die? = some c.die.val →
    (∀ x ∈ linesOf p n, (s.protOf x).1 = 0) → s.anyPoison [(p, n)] = false →
    s.doneAs ctl c [memSrc a] [.x d] (.ld ctl sz .plain d a)
      (((m.unpause uid .issue).l1Each acc.parts fun s l => s.l1Read c.die.val c.core.val ctl.loc l).produce uid
        (valueFill (.x d) (BitVec.ofNat 64 (leNat (s.readBytes acc.world p n)))))

/-- R65, R157, R163, R176, R202: stores, `FESET`, `RED` and the line instructions take an entry of the store buffer, behind
every earlier one, that names the address they resolve to and holds fe.rlim; memory itself is unchanged until the entry
drains. A store of window 0 sets no flag; one through another window encodes its data at issue and sets its flags. -/
def Obligations.Stores : Prop :=
  ∀ (s : State) (c : Context) (ctl : Ctl), c.bufRoom = true →
    let uid := s.issuing
    let m := s.movedOn uid
    let u := m.unpause uid .issue
    let free := fun (acc : Acc) => m.pauser uid .issue (m.places acc) = none
    let takes := fun (t : State) (acc : Acc) (op : StOp) => t.modCtx uid fun k =>
      { k with serial := k.serial + 1,
               sbuf := k.sbuf ++ [{ num := k.serial, acc := acc, op := op, loc := ctl.loc, rlim := k.rlim.toNat,
                                    after := k.acqs, admitted := false }] }
    let store := fun (i : Instr) (op n : Nat) (rd : List Src) (mode : StMode) (a : MemOp) (v : Nat) (src : BitVec 64) =>
      s.ready c ctl rd [] →
      (∀ e, m.resolve c a.mode (formAddr c a n) n .wr true .data = .error e → s.faults c i op e.1 e.2)
      ∧ ∀ acc, m.resolve c a.mode (formAddr c a n) n .wr true .data = .ok acc →
        let done := s.doneAs ctl c rd [] i
        (StMode.tagged mode && m.untaggedIn acc.parts = true → s.faults c i op causePermission (acc.va / 8 * 8))
        ∧ ((StMode.tagged mode && m.untaggedIn acc.parts) = false → free acc →
          (acc.win = 0 → ((∀ p, m.accHome acc ≠ .job p) ∨ ctl.loc ≠ 3) → done (takes u acc (.store mode (leBytes n v))))
          ∧ (∀ p, acc.win = 0 → m.accHome acc = .job p → ctl.loc = 3 →
            done (takes u acc (.flag acc.size mode (BitVec.ofNat 1024 (leNat (leBytes n v))))))
          ∧ (acc.win ≠ 0 → scaleBuffered c acc = false → (winUsesSr acc.win acc.rnd && m.scalarHeld c) = false →
            (∀ p, m.accHome acc ≠ .job p) →
            let r := u.encodeStore c acc (leBytes n v) src
            done (takes (r.1.modCtx uid fun k => k.addFlags (flagBits r.2.2) none) acc (.store mode r.2.1))))
    (∀ sz mode a v,
      store (.st ctl sz mode a v) 0x41 (MSize.bytes sz) (memSrc a :: xiSrcs v) mode a (xiVal c v).toNat (xiVal c v))
    ∧ (∀ mode a v, store (.stv ctl mode a v) 0x43 128 [memSrc a, vSrc v] mode a (vVal c v).toNat
      (Config.vectorSource (vVal c v)))
    ∧ (∀ full a acc, s.ready c ctl [memSrc a] [] →
      m.resolve c a.mode (formAddr c a 8) 8 .wr true .data = .ok acc →
      ((full = true ∨ m.untaggedIn acc.parts = false) → free acc →
        s.doneAs ctl c [memSrc a] [] (.feset ctl full a) (takes u acc (.feset full)))
      ∧ (full = false → m.untaggedIn acc.parts = true →
        s.faults c (.feset ctl full a) 0x44 causePermission (acc.va / 8 * 8)))
    ∧ (∀ op w a b acc, s.ready c ctl (memSrc a :: xiSrcs b) [] →
      m.resolve c a.mode (formAddr c a (Width.bytes w)) (Width.bytes w) .rw true .atomic = .ok acc → free acc →
      s.doneAs ctl c (memSrc a :: xiSrcs b) [] (.red ctl op w a b)
        (takes u acc (.red op (Width.is64 w) (Width.trunc w (xiVal c b)))))
    ∧ (∀ a acc, s.ready c ctl [memSrc a] [] → a.mode = .global →
      m.resolve c .global (lineAddr c a) 64 .rd false .data = .ok acc →
      s.doneAs ctl c [memSrc a] [] (.wbl ctl a) (takes m acc .wbl)
      ∧ s.doneAs ctl c [memSrc a] [] (.invl ctl false a) (takes m acc .invl))
    ∧ (∀ a, s.ready c ctl [memSrc a] [] → a.mode ≠ .global →
      s.completes ctl c (.wbl ctl a) c ∧ s.completes ctl c (.invl ctl false a) c ∧ s.completes ctl c (.invl ctl true a) c)

/-- R157, R167, R168, R346: a synchronising load on tagged words of this package issues once no earlier buffered store holds
it back and its controllers' lists have room: its register goes pending, it is an acquire, and it takes the lines that are
full or waits in the retry lists. On untagged words `.consume` faults. One on another package goes pending and
becomes a request. -/
def Obligations.SynchronisingLoads : Prop :=
  ∀ (s : State) (c : Context) (ctl : Ctl) (consume : Bool),
    let uid := s.issuing
    let m := s.movedOn uid
    let u := m.unpause uid .issue
    let load := fun (i : Instr) (op n : Nat) (r : AnyReg) (a : MemOp) =>
      ∀ acc, s.ready c ctl [memSrc a] [r] → m.resolve c a.mode (formAddr c a n) n .rd false .data = .ok acc →
        let done := s.doneAs ctl c [memSrc a] [r] i
        (∀ x job, m.whereIs acc .rd = .here x job →
          (m.untaggedIn x.parts = true → consume = true → s.faults c i op causePermission (acc.va / 8 * 8))
          ∧ (m.untaggedIn x.parts = false → c.loadsHeld = false → m.lockReady c acc = true → scaleBuffered c acc = false →
            m.pauser uid .issue (m.places acc) = none →
            ((splitLines x.parts).filter fun p => !(u.allFull p.1 p.2)).all (fun p => u.listRoom p.1) = true →
            done ((((u.newAcq uid).2.pendReg uid r).l1Each x.parts fun s l =>
                s.l1Home (some (coreKey c.die.val c.core.val)) l consume).arriveWaiter
              { word := partAt x.parts 0 / 8 * 8, world := x.world, nodes := x.nodes,
                op := .load uid r x consume (splitLines x.parts) [] false (u.newAcq uid).1 } x.parts)))
        ∧ ∀ p off, m.whereIs acc .rd = .far p off →
          (m.noJob p = true → s.faults c i op causePermission acc.va)
          ∧ (m.noJob p = false → c.loadsHeld = false → m.lockReady c acc = true →
            done (((m.newAcq uid).2.pendReg uid r).sendReq c.die.val p acc.world off c.rlim.toNat c.die
              (.syncLoad acc.size consume) (.sync uid (some r) acc (some (m.newAcq uid).1) (c.isFull r))))
    let mode : LdMode := if consume then .consume else .wait
    (∀ sz d a, load (.ld ctl sz mode d a) 0x40 (MSize.bytes sz) (.x d) a)
    ∧ (∀ d a, load (.ldv ctl mode d a) 0x42 128 (.v d) a)

/-- R172, R185, R186, R391: prefetches, fences, and the instructions on pool memory. -/
def Obligations.LinesAndFences : Prop :=
  ∀ (s : State) (c : Context) (ctl : Ctl),
    let uid := s.issuing
    let m := s.movedOn uid
    (∀ own a, s.ready c ctl [memSrc a] [] →
      (a.mode ≠ .global → s.completes ctl c (.pref ctl own a) c)
      ∧ (∀ e, a.mode = .global → m.resolve c .global (lineAddr c a) 64 .rd false .data = .error e →
        s.completes ctl c (.pref ctl own a) c)
      ∧ ∀ acc, a.mode = .global → m.resolve c .global (lineAddr c a) 64 .rd false .data = .ok acc →
        s.doneAs ctl c [memSrc a] [] (.pref ctl own a) (m.l1Pref c.die.val c.core.val ctl.loc (partAt acc.parts 0) own))
    ∧ (∀ scope sc d, s.ready c ctl [] [.x d] →
      s.completes ctl c (.fence ctl scope sc d)
        (({ c with serial := c.serial + 2
                   sbuf := c.sbuf ++ [{ num := c.serial + 1, acc := noAcc c.world, op := .marker c.serial, loc := 0,
                                        rlim := c.rlim.toNat, after := c.acqs, admitted := false }] } : Context).awaits
          { poisonFill (.x d) with src := .fence c.serial scope sc }))
    ∧ (∀ observe xs a len, s.ready c ctl (memSrc a :: xiSrcs len) [.x xs] →
      let i : Instr := if observe then .observe ctl xs a len else .publish ctl xs a len
      let va := formAddr c a 64
      let n := (xiVal c len).toNat
      (va % 64 ≠ 0 → s.faults c i (if observe then 0x4B else 0x4A) causeMisaligned va)
      ∧ (va % 64 = 0 → n = 0 → s.completes ctl c i (c.awaits (valueFill (.x xs) 0)))
      ∧ (va % 64 = 0 → n ≠ 0 → (n % 64 ≠ 0 ∨ 2 ^ 26 < n) → s.completes ctl c i (c.awaits (valueFill (.x xs) (errWord 0x71))))
      ∧ (va % 64 = 0 → n ≠ 0 → n % 64 = 0 → n ≤ 2 ^ 26 →
        (observe = false → s.completes ctl c i
          (c.awaits { poisonFill (.x xs) with src := .pool false va n c.serial }))
        ∧ (observe = true → s.completes ctl c i
          (({ c with serial := c.serial + 1, acqs := c.acqs ++ [c.serial] } : Context).awaits
            { poisonFill (.x xs) with src := .pool true va n c.serial, acq := some c.serial }))))
    ∧ (∀ a acc, s.ready c ctl [memSrc a] [] → a.mode = .global →
      m.resolve c .global (lineAddr c a) 64 .rd false .data = .ok acc →
      s.doneAs ctl c [memSrc a] [] (.invl ctl true a) (m.modCore c.die.val c.core.val fun k =>
        { k with icache := KMap.select k.icache fun b _ => b / 65536 != partAt acc.parts 0 / 64 }))

/-- R195, R199, R201, R203, R345: every atomic with a return completes. Where its home lies on the issuing die it is performed
at issue, and its register fills with the old value; elsewhere it is on its way, to another die or another package, and is
an acquire. -/
def Obligations.Atomics : Prop :=
  ∀ (s : State) (c : Context) (ctl : Ctl),
    let uid := s.issuing
    let m := s.movedOn uid
    let u := m.unpause uid .issue
    let atom := fun (i : Instr) (w : Width) (d : Fin 64) (rd : List Src) (a : MemOp) (op : AtomOp) (b : BitVec 64) =>
      ∀ acc, s.ready c ctl rd [.x d] →
        m.resolve c a.mode (formAddr c a (Width.bytes w)) (Width.bytes w) .rw false .atomic = .ok acc →
        c.loadsHeld = false → m.lockReady c acc = true → m.pauser uid .issue (m.places acc) = none →
        let done := s.doneAs ctl c rd [.x d] i
        let q := (u.newAcq uid).2
        (∀ x job, u.whereIs acc .rw = .here x job →
          ((u.accHome x).die? = some c.die.val →
            let p := partAt x.parts 0
            let r := (u.l1Atomic c.die.val c.core.val (if job then 2 else ctl.loc) p).atomicAt acc.world p op (Width.is64 w)
              (Width.trunc w b)
            done (r.1.produce uid (atomFill (.x d) r.2 none)))
          ∧ ((u.accHome x).die? ≠ some c.die.val →
            done (q.produce uid { poisonFill (.x d) with
              src := .atom acc op (Width.is64 w) (Width.trunc w b), acq := some (u.newAcq uid).1 })))
        ∧ (∀ p off, u.whereIs acc .rw = .far p off → u.noJob p = false →
          done ((q.pendReg uid (.x d)).sendReq c.die.val p acc.world off c.rlim.toNat c.die
            (atomFab op (Width.is64 w) (Width.trunc w b)) (.fill uid (.x d) acc (some (u.newAcq uid).1) op.isFadd)))
        ∧ (u.whereIs acc .rw = .refused → done (u.produce uid (poisonFill (.x d))))
    (∀ w d a b, let v := xiVal c b
      let rd := memSrc a :: xiSrcs b
      atom (.aadd ctl w d a b) w d rd a (.red .add) v ∧ atom (.aand ctl w d a b) w d rd a (.red .and) v
      ∧ atom (.aor ctl w d a b) w d rd a (.red .or) v ∧ atom (.axor ctl w d a b) w d rd a (.red .xor) v
      ∧ atom (.amin ctl w false d a b) w d rd a (.red .min) v ∧ atom (.amin ctl w true d a b) w d rd a (.red .minu) v
      ∧ atom (.amax ctl w false d a b) w d rd a (.red .max) v ∧ atom (.amax ctl w true d a b) w d rd a (.red .maxu) v
      ∧ atom (.aswp ctl w d a b) w d rd a .swap v)
    ∧ (∀ w d a b, atom (.acas ctl w d a b) w d.reg (xSrc d :: memSrc a :: xiSrcs b) a
        (.cas (Width.trunc w (xVal c d))) (xiVal c b))
    ∧ (∀ d a b, atom (.afadd ctl d a b) .w32 d [memSrc a, xSrc b] a .fadd (xVal c b))

/-- R201: what an atomic makes of a word. `AMIN` and `AMAX` compare as signed values, their `.u` forms as unsigned ones;
`ACAS` writes only where the word equals what was expected. Results are of the width. -/
def Obligations.AtomicOperations : Prop :=
  ∀ (old b e : BitVec 64),
    let gives := fun (op : AtomOp) (v : BitVec 64) => atomNew op true old b = (some v, 0)
    gives (.red .add) (old + b) ∧ gives (.red .and) (old &&& b) ∧ gives (.red .or) (old ||| b)
    ∧ gives (.red .xor) (old ^^^ b)
    ∧ gives (.red .min) (if b.slt old then b else old) ∧ gives (.red .max) (if old.slt b then b else old)
    ∧ gives (.red .minu) (if b.ult old then b else old) ∧ gives (.red .maxu) (if old.ult b then b else old)
    ∧ gives .swap b
    ∧ (old = e → gives (.cas e) b) ∧ (old ≠ e → atomNew (.cas e) true old b = (none, 0))
    ∧ (let o : BitVec 32 := old.setWidth 32
       let w : BitVec 32 := b.setWidth 32
       let gives32 := fun (op : AtomOp) (v : BitVec 32) => (atomNew op false old b).1 = some (v.setWidth 64)
       gives32 (.red .add) (o + w) ∧ gives32 (.red .and) (o &&& w) ∧ gives32 (.red .or) (o ||| w)
       ∧ gives32 (.red .xor) (o ^^^ w)
       ∧ gives32 (.red .min) (if w.slt o then w else o) ∧ gives32 (.red .max) (if o.slt w then w else o)
       ∧ gives32 (.red .minu) (if w.ult o then w else o) ∧ gives32 (.red .maxu) (if o.ult w then w else o)
       ∧ gives32 .swap w
       ∧ (o = e.setWidth 32 → gives32 (.cas e) w)
       ∧ (o ≠ e.setWidth 32 → (atomNew (.cas e) false old b).1 = none))

/-! ## Waits, phasers and barriers (R204 to R233) -/

/-- R205 to R208: `WAITA` on a word of this package: poison ends it with a status, a value other than the expected one at
once with 0, a full table with its code; else a monitor entry is registered and the context waits. On a word of another
package it registers its entry and asks the home to tell of a change; where it has no room for one, the home is told which
code to answer. `WAKEA`, in slot 6 too, ends waits and fills with their number. -/
def Obligations.WaitsOnAddresses : Prop :=
  ∀ (s : State) (c : Context) (ctl : Ctl), c.loadsHeld = false →
    let uid := s.issuing
    let m := s.movedOn uid
    let u := m.unpause uid .issue
    (∀ w d a e acc, inSlot6 c = false → s.ready c ctl (xSrc d :: memSrc a :: xiSrcs e) [.x d.reg] →
      m.resolve c a.mode (formAddr c a (Width.bytes w)) (Width.bytes w) .rd false .atomic = .ok acc →
      m.lockReady c acc = true → m.pauser uid .issue (m.places acc) = none →
      let v := Width.trunc w (xiVal c e)
      let limit := (xVal c d).toNat % 2 ^ 32
      let done := s.doneAs ctl c (xSrc d :: memSrc a :: xiSrcs e) [.x d.reg] (.waita ctl w d a e)
      (∀ x job, u.whereIs acc .rd = .here x job →
        let p := partAt x.parts 0
        let r := (u.l1Home (some (coreKey c.die.val c.core.val)) p false).readSeg x.world p
          (if Width.is64 w then 8 else 4)
        (r.2.2 = true → done (r.1.produceWord uid (.x d.reg) (errWord 0x22)))
        ∧ (r.2.2 = false → leNat r.2.1 ≠ v.toNat → done (r.1.produceWord uid (.x d.reg) 0))
        ∧ (∀ code, r.2.2 = false → leNat r.2.1 = v.toNat → r.1.monRefused c = some code →
          done (r.1.produceWord uid (.x d.reg) (errWord code)))
        ∧ (r.2.2 = false → leNat r.2.1 = v.toNat → r.1.monRefused c = none →
          done (r.1.registerMon uid c (.x d.reg) x p (Width.is64 w) v limit)))
      ∧ ∀ p off, u.whereIs acc .rd = .far p off → u.noJob p = false →
        (u.monRefused c = none →
          done ((u.registerMon uid c (.x d.reg) acc (partAt acc.parts 0) (Width.is64 w) v limit).sendReq c.die.val p acc.world
            off c.rlim.toNat c.die (.waita (Width.is64 w) v 0) (.monitor (u.die c.die.val).nextMon)))
        ∧ ∀ code, u.monRefused c = some code →
          done (((u.newAcq uid).2.pendReg uid (.x d.reg)).sendReq c.die.val p acc.world off c.rlim.toNat c.die
            (.waita (Width.is64 w) v (BitVec.ofNat 8 code)) (.fill uid (.x d.reg) acc (some (u.newAcq uid).1) false)))
    ∧ (∀ d a n acc, s.ready c ctl (memSrc a :: xiSrcs n) [.x d] →
      m.resolve c a.mode (formAddr c a 8) 8 .rd false .atomic = .ok acc →
      m.released uid c ((m.placeHome acc).scope c.die.val c.core.val) = true →
      m.pauser uid .issue (m.places acc) = none →
      let k := (xiVal c n).toNat % 2 ^ 16
      let done := s.doneAs ctl c (memSrc a :: xiSrcs n) [.x d] (.wakea ctl d a n)
      (∀ x job, u.whereIs acc .rd = .here x job →
        let r := u.wake (.ctx uid (.x d)) (partAt x.parts 0) k
        done (r.1.produce uid { valueFill (.x d) 0 with src := .count (u.cyc c.die.val) r.2 }))
      ∧ ∀ p off, u.whereIs acc .rd = .far p off → u.noJob p = false →
        done ((u.pendReg uid (.x d)).sendReq c.die.val p acc.world off c.rlim.toNat c.die (.wakea (BitVec.ofNat 16 k))
          (.fill uid (.x d) acc none false)))

/-- R212 to R219: the phaser instructions. A word that names no live phaser or member of the world gives bad_phaser
(0x24); a full table or a reached limit gives phaser_full (0x25), phaser_limit (0x26) or member_full (0x27), a member of another
mode wrong_mode (0x28), one that is a phase ahead ahead_limit (0x29); each operation acts on the phaser and member that its word names, and a signal is counted in the phase that the
member signals next. -/
def Obligations.Phasers : Prop :=
  ∀ (s : State) (c : Context) (ctl : Ctl) (xs : Fin 64),
    let uid := s.issuing
    let m := s.movedOn uid
    let d := c.die.val
    (s.ready c ctl [] [.x xs] →
      (m.limPh c.region ≤ m.livePh c.region →
        s.completes ctl c (.phnew ctl xs) (c.awaits (valueFill (.x xs) (errWord 0x26))))
      ∧ (m.livePh c.region < m.limPh c.region → freeKey (s.die d).phasers 1024 = none →
        s.completes ctl c (.phnew ctl xs) (c.awaits (valueFill (.x xs) (errWord 0x25))))
      ∧ ∀ i, m.livePh c.region < m.limPh c.region → freeKey (s.die d).phasers 1024 = some i →
        let n := nextSerial (s.die d).serial
        s.doneAs ctl c [] [.x xs] (.phnew ctl xs)
          (((m.modDie d fun k => { k with serial := n }).setPhaser d i
            { serial := n, world := c.world, lim := m.limOwner c.region 4, ph := 0, need0 := 0, arr0 := 0, need1 := 0, arr1 := 0,
              touched := false, waits := [] }).produceWord uid (.x xs) (phWord n d i 0xFFFF)))
    ∧ ∀ x, s.ready c ctl [xSrc x] [.x xs] →
      let v := xVal c x
      let done := s.doneAs ctl c [xSrc x] [.x xs]
      let status := fun (i : Instr) (w : BitVec 64) => s.completes ctl c i (c.awaits (valueFill (.x xs) w))
      (m.phaserOf c.world v = none → (∀ mode, status (.phreg ctl mode xs x) (errWord 0x24))
        ∧ status (.phfree ctl xs x) (errWord 0x24))
      ∧ (m.memberOf c.world v = none → status (.phdrop ctl xs x) (errWord 0x24) ∧ status (.phsig ctl xs x) (errWord 0x24)
        ∧ (inSlot6 c = false → status (.phwait ctl xs x) (errWord 0x24) ∧ status (.phnext ctl xs x) (errWord 0x24)))
      ∧ (∀ p mode, m.phaserOf c.world v = some p → freeKey (s.die (phDie v)).members 16384 = none →
        status (.phreg ctl mode xs x) (errWord 0x27))
      ∧ (∀ p mode i, m.phaserOf c.world v = some p → freeKey (s.die (phDie v)).members 16384 = some i →
        let r := joinPhaser p (phIndex v) mode
        done (.phreg ctl mode xs x)
          (((m.setPhaser (phDie v) (phIndex v) r.1).setMember (phDie v) i r.2).produceWord uid (.x xs)
            (phWord p.serial (phDie v) (phIndex v) i)))
      ∧ (∀ p, m.phaserOf c.world v = some p →
        ((s.die (phDie v)).members.any (fun k => k.2.phaser == phIndex v) = true → status (.phfree ctl xs x) (errWord 0x2A))
        ∧ ((s.die (phDie v)).members.any (fun k => k.2.phaser == phIndex v) = false →
          done (.phfree ctl xs x)
            ((m.modDie (phDie v) fun k => { k with phasers := KMap.del k.phasers (phIndex v) }).produceWord uid (.x xs) 0)))
      ∧ (∀ p k, m.memberOf c.world v = some (p, k) → m.released uid c (phScope c v) = true →
        done (.phdrop ctl xs x)
          (((m.modDie (phDie v) fun y => { y with members := KMap.del y.members (phMember v) }).settlePhaser (phDie v)
            (phIndex v) (dropMember p k)).produceWord uid (.x xs) 0)
        ∧ (∀ e, signal p k = .error e → status (.phsig ctl xs x) (errWord e))
        ∧ (∀ q n ph, signal p k = .ok (q, n, ph) →
          done (.phsig ctl xs x)
            (((m.setMember (phDie v) (phMember v) n).settlePhaser (phDie v) (phIndex v) q).produceWord uid (.x xs)
              (ph.setWidth 64)))
        ∧ (∀ e, inSlot6 c = false → k.mode = .sw → signal p k = .error e → status (.phnext ctl xs x) (errWord e))
        ∧ (∀ q n ph, inSlot6 c = false → k.mode = .sw → signal p k = .ok (q, n, ph) →
          done (.phnext ctl xs x)
            (((m.setMember (phDie v) (phMember v) { n with wp := n.wp + 1 }).settlePhaser (phDie v) (phIndex v) q).waitPhase
              uid c xs v k.wp)))
      ∧ (∀ p k, inSlot6 c = false → m.memberOf c.world v = some (p, k) →
        (k.mode ≠ .sw → status (.phnext ctl xs x) (errWord 0x28))
        ∧ (k.mode = .sig → status (.phwait ctl xs x) (errWord 0x28))
        ∧ (k.mode ≠ .sig → done (.phwait ctl xs x)
          ((m.setMember (phDie v) (phMember v) { k with wp := k.wp + 1 }).waitPhase uid c xs v k.wp)))

/-- R213 to R216, R218: the counts of a phaser. A registration joins the phase that is open, and a member's own phases start
there; a signal counts once in the phase its member signals next, one phase ahead at most; a drop takes the member out of
the counts of the phases it has not signalled; a phase whose registered members have all signalled ends, its successor's
counts become current, and the successor ends with it where its members have all signalled too. -/
def Obligations.PhaserCounts : Prop :=
  ∀ (p : Phaser) (k : Member) (i : Nat),
    (k.mode = .wait → signal p k = .error 0x28)
    ∧ (k.mode ≠ .wait → k.sp = p.ph →
      signal p k = .ok ({ p with arr0 := p.arr0 + 1, touched := true }, { k with sp := k.sp + 1 }, k.sp))
    ∧ (k.mode ≠ .wait → k.sp = p.ph + 1 →
      signal p k = .ok ({ p with arr1 := p.arr1 + 1 }, { k with sp := k.sp + 1 }, k.sp))
    ∧ (k.mode ≠ .wait → k.sp ≠ p.ph → k.sp ≠ p.ph + 1 → signal p k = .error 0x29)
    ∧ (∀ mode, let r := joinPhaser p i mode
      let n := if mode = .wait then 0 else 1
      r.1.ph = p.ph ∧ r.1.touched = p.touched ∧ r.1.arr0 = p.arr0 ∧ r.1.arr1 = p.arr1 ∧ r.1.need1 = p.need1 + n
      ∧ r.2.phaser = i ∧ r.2.mode = mode ∧ r.2.wp = r.2.sp
      ∧ (p.touched = false → r.2.sp = p.ph ∧ r.1.need0 = p.need0 + n)
      ∧ (p.touched = true → r.2.sp = p.ph + 1 ∧ r.1.need0 = p.need0))
    ∧ (k.mode = .wait → dropMember p k = p)
    ∧ (k.mode ≠ .wait → k.sp = p.ph →
      dropMember p k = { p with need0 := p.need0 - 1, need1 := p.need1 - 1, touched := true })
    ∧ (k.mode ≠ .wait → k.sp = p.ph + 1 → dropMember p k = { p with need1 := p.need1 - 1 })
    ∧ (k.mode ≠ .wait → k.sp = p.ph + 2 → dropMember p k = { p with need1 := p.need1 - 1, arr1 := p.arr1 - 1 })
    ∧ (∀ n, ¬(p.touched = true ∧ p.arr0 = p.need0) → endPhases p (n + 1) = p)
    ∧ (p.touched = true → p.arr0 = p.need0 →
      (∀ n, (p.arr1 = 0 ∨ p.arr1 ≠ p.need1) → endPhases p (n + 2) =
        { p with ph := p.ph + 1, need0 := p.need1, arr0 := p.arr1, arr1 := 0, touched := decide (0 < p.arr1) })
      ∧ ∀ n, p.arr1 ≠ 0 → p.arr1 = p.need1 → endPhases p (n + 2) =
        { p with ph := p.ph + 2, need0 := p.need1, arr0 := 0, arr1 := 0, touched := false })

/-- R225 to R233: barrier wires and the dissemination barrier. Without ownership of the wires they fault with permission. -/
def Obligations.Barriers : Prop :=
  ∀ (s : State) (c : Context) (ctl : Ctl),
    let uid := s.issuing
    let m := s.movedOn uid
    let d := c.die.val
    (∀ dir, s.ready c ctl [] [] →
      let l := s.lane d c.core.val dir
      (s.ownsWires c = false → s.faults c (.bwarr ctl dir) 0x67 causePermission 0)
      ∧ (s.ownsWires c = true → l.a < l.e + 2 → m.released uid c .die = true →
        s.doneAs ctl c [] [] (.bwarr ctl dir) (m.setLane d c.core.val dir { l with a := l.a + 1, times := l.times ++ [s.cyc d] })))
    ∧ (∀ dir xs, inSlot6 c = false → s.ready c ctl [] [.x xs] →
      let l := s.lane d c.core.val dir
      (s.ownsWires c = false → s.faults c (.bwwait ctl dir xs) 0x68 causePermission 0)
      ∧ (s.ownsWires c = true → l.a ≤ l.e → s.completes ctl c (.bwwait ctl dir xs) (c.awaits (valueFill (.x xs) 0)))
      ∧ (s.ownsWires c = true → l.e < l.a →
        s.doneAs ctl c [] [.x xs] (.bwwait ctl dir xs)
          (((((m.newAcq uid).2.pendReg uid (.x xs)).modDie d fun k =>
            { k with bwWaits := k.bwWaits ++ [{ uid := uid, dest := .x xs, core := c.core.val, dir := dir, n := l.a,
                                                 acq := (m.newAcq uid).1, deadline := if c.bwto = 0 then none
                                                   else some (s.cyc d + c.bwto.toNat) }] }).modCtx uid fun k =>
            { k with tied := !k.isPinned }).waitFor uid c (.wire dir))))
    ∧ (∀ sc xs tag, inSlot6 c = false → s.ready c ctl (xiSrcs tag) [.x xs] →
      let n := s.nbInst d c.world sc (BitVec.ofNat 8 (xiVal c tag).toNat)
      let status := fun (w : BitVec 64) => s.completes ctl c (.nbarr ctl sc xs tag) (c.awaits (valueFill (.x xs) w))
      (n.run.isSome = true → status (errWord 0x2C))
      ∧ (n.run.isSome = false → sc = .job → s.job = 0 → status (errWord 0x2D))
      ∧ (n.run.isSome = false → (sc = .job → s.job ≠ 0) →
        m.released uid c (if sc = .job then .job else .pkg) = true → (n.held ≠ [] ∨ s.nbUsed d < 16) →
        let r : NbRun := { uid := uid, dest := .x xs, peers := m.nbPlan c n, round := 0, lost := false,
                           acq := (m.newAcq uid).1,
                           deadline := if c.bwto = 0 then none else some (s.cyc d + c.bwto.toNat) }
        let t := ((m.newAcq uid).2.pendReg uid (.x xs)).waitFor uid c (.nb sc n.tag)
        s.doneAs ctl c (xiSrcs tag) [.x xs] (.nbarr ctl sc xs tag) ((t.nbNotify d n r).nbRun d { n with run := some r } 20)))

/-! ## Messages and work (R81 to R122) -/

/-- R81, R84, R100, R423: `SEND` and `SENDH` put one message on its way, once the stores of their scope are complete; the
status register is pending until the message is accepted or refused. A destination that leads nowhere, and one whose
cluster is away, give no_destination; one on another package gets a request. -/
def Obligations.Sends : Prop :=
  ∀ (s : State) (c : Context) (ctl : Ctl) (xs : Fin 64) (dst : XSrc), inSlot6 c = false →
    let uid := s.issuing
    let m := s.movedOn uid
    let v := xVal c dst
    let chan := v.toNat / 2 ^ 32 % 64
    let header := fun (u : State) (line : Bool) (hpc : Option (BitVec 64)) =>
      msgHeader chan line hpc.isSome c.core.val c.die.val u.pkg.toNat
    let send := fun (i : Instr) (rd : List Src) (u : State) (payload : List (BitVec 64)) (line : Bool) (hpc : Option (BitVec 64)) =>
      s.ready c ctl rd [.x xs] →
      let done := s.doneAs ctl c rd [.x xs] i
      (u.sendTo c v = .none → done (u.produceWord uid (.x xs) (errWord 3)))
      ∧ (∀ d k, u.sendTo c v = .here d k → u.released uid c (scopeOfCore c d k) = true →
        (u.unreachable (clKey d (clusterOf k)) c.region = true → done (u.produceWord uid (.x xs) (errWord 3)))
        ∧ (u.unreachable (clKey d (clusterOf k)) c.region = false →
          done ((u.pendReg uid (.x xs)).post
            { chan := chan, die := dieOf d, core := coreNo k, world := c.world, lid := c.lid, item := c.item,
              header := header u line hpc, payload := payload, hpc := hpc, gen := false,
              status := some { uid := uid, dest := .x xs }, remote := none, sender := uid, task := none, since := u.cyc d,
              table := none })))
      ∧ ∀ p d k, u.sendTo c v = .away p d k → u.released uid c .job = true →
        done ((u.pendReg uid (.x xs)).sendReq c.die.val p c.world 0 c.rlim.toNat (dieOf d)
          (.message (chanNo chan) (coreNo k) (dieOf d) (header u line hpc) c.item hpc payload c.lid)
          (.message (some { uid := uid, dest := .x xs })))
    (∀ a, send (.send ctl xs dst (.reg a)) (xSrc dst :: xiSrcs a) m [xiVal c a] false none)
    ∧ (∀ a, send (.sendh ctl xs dst (.reg a)) (xSrc dst :: ⟨.x (nextReg dst.reg), false⟩ :: xiSrcs a) m [xiVal c a] false
        (some (c.getX (nextReg dst.reg).val)))
    ∧ (∀ a u bs, m.readBlock uid c ctl.loc a 64 = .bytes u bs →
      send (.send ctl xs dst (.line a)) [xSrc dst, memSrc a] u (lineWords bs) true none
      ∧ send (.sendh ctl xs dst (.line a)) [xSrc dst, ⟨.x (nextReg dst.reg), false⟩, memSrc a] u (lineWords bs) true
        (some (c.getX (nextReg dst.reg).val)))

/-- R101, R122: `CHMASK` and `CHPRI` change one entry of the table, and masking channel 62 outside slot 7 faults with
privileged; `TASK` queues its record's task and `LAUNCH` sends its message to the launch controller. -/
def Obligations.ChannelsTasksLaunches : Prop :=
  ∀ (s : State) (c : Context) (ctl : Ctl),
    let uid := s.issuing
    let m := s.movedOn uid
    (∀ unmask ch, s.ready c ctl (xiSrcs ch) [] →
      let k := (xiVal c ch).toNat % 64
      ((unmask = false ∧ k = 62 ∧ c.slot ≠ some 7) → s.faults c (.chmask ctl unmask ch) 0x72 0x0B 0)
      ∧ (¬(unmask = false ∧ k = 62 ∧ c.slot ≠ some 7) →
        s.doneAs ctl c (xiSrcs ch) [] (.chmask ctl unmask ch) (m.modChan c k fun e => { e with mask := !unmask })))
    ∧ (∀ ch pri, s.ready c ctl (xiSrcs ch ++ xiSrcs pri) [] →
      s.doneAs ctl c (xiSrcs ch ++ xiSrcs pri) [] (.chpri ctl ch pri)
        (m.modChan c ((xiVal c ch).toNat % 64) fun e => { e with pri := Fin.ofNat 4 (xiVal c pri).toNat }))
    ∧ (∀ xs a u bs, s.ready c ctl [memSrc a] [.x xs] → m.readBlock uid c ctl.loc a 128 = .bytes u bs →
      (badTask (leNat bs) = true →
        s.doneAs ctl c [memSrc a] [.x xs] (.task ctl xs a) (u.produceWord uid (.x xs) (errWord 9)))
      ∧ (badTask (leNat bs) = false → u.released uid c .pkg = true →
        s.doneAs ctl c [memSrc a] [.x xs] (.task ctl xs a) (u.addTask uid c xs (taskOf c (leNat bs)))))
    ∧ (∀ xs a, s.ready c ctl [memSrc a] [.x xs] →
      let va := formAddr c a 256
      (va % 256 ≠ 0 → s.faults c (.launch ctl xs a) 0x75 causeMisaligned va)
      ∧ (va % 256 = 0 → m.released uid c .sys = true →
        s.doneAs ctl c [memSrc a] [.x xs] (.launch ctl xs a)
          { m.pendReg uid (.x xs) with launchMsgs := s.launchMsgs ++
            [{ space := c.space, addr := va, issuer := some c.region, sink := .reg { uid := uid, dest := .x xs } }] }))

/-! ## The vector engine (R257 to R276) -/

/-- R257, R259, R260: a vector instruction takes an entry of its core's queue, once one is free: its operands are captured at
issue, its destinations go pending, and its region is charged 128. `VCVT` reads its destination only when it narrows;
a command that draws on an SL-480 generator draws when it starts. -/
def Obligations.VectorCommands : Prop :=
  ∀ (s : State) (c : Context) (ctl : Ctl) (t : ElemType),
    (s.core c.die.val c.core.val).vec.length < 2 →
    let uid := s.issuing
    let m := s.movedOn uid
    let takes := fun (u : State) (i : Instr) (rd : List Src) (wr : List AnyReg) (job : VecJob) =>
      s.ready c ctl rd wr → s.doneAs ctl c rd wr i
        (((wr.foldl (fun (u : State) r => u.pendReg uid r) u).modCore c.die.val c.core.val fun k =>
          { k with vec := k.vec ++ [{ uid := uid, world := c.world, seq := c.serial, dests := wr, job := job }] }).charge c.region (coreKey c.die.val c.core.val) 0 128)
    let lanes := fun (f : Nat → Nat → Nat × Nat) (a : VSrc) (b : SOp) =>
      VecJob.done [laneResult t.bits (nanFmt t t t) (List.zipWith f (lanesOf t.bits (vVal c a)) (sLanes c t.bits b))]
    (∀ d a b,
      let bin := fun (i : Instr) (f : Nat → Nat → Nat × Nat) => takes m i (vSrc a :: sSrcs b) [.v d] (lanes f a b)
      bin (.vadd ctl t d a b) (laneArith .add t) ∧ bin (.vsub ctl t d a b) (laneArith .sub t)
      ∧ bin (.vmul ctl t d a b) (laneArith .mul t) ∧ bin (.vmin ctl t d a b) (laneArith .min t)
      ∧ bin (.vmax ctl t d a b) (laneArith .max t) ∧ bin (.vcmp ctl t d a b) (cmpLane t)
      ∧ bin (.vand ctl t d a b) (laneArith .and t) ∧ bin (.vor ctl t d a b) (laneArith .or t)
      ∧ bin (.vxor ctl t d a b) (laneArith .xor t) ∧ bin (.vshl ctl t d a b) (fun x y => (shlLane t x y, 0))
      ∧ bin (.vshr ctl t d a b) (fun x y => (shrLane t x y, 0)))
    ∧ (∀ d a, let one := fun (i : Instr) (r : Result) => takes m i [vSrc a] [.v d] (.done [r])
      let v := vVal c a
      let approx := fun (f : Nat → Nat × Nat) => laneResult 32 (nanFmt .f32 .f32 .f32) ((lanesOf 32 v).map f)
      one (.vabs ctl t d a) (laneResult t.bits (nanFmt t t t) ((lanesOf t.bits v).map (absLane t)))
      ∧ one (.vrcpa ctl d a) (approx rcpLane) ∧ one (.vrsqa ctl d a) (approx rsqLane)
      ∧ one (.vexp2a ctl d a) (approx exp2Lane) ∧ one (.vlog2a ctl d a) (approx log2Lane)
      ∧ (∀ op, one (.vred ctl t d a op) (redResult t op v) ∧ one (.vscan ctl t d a op) (scanResult t op v))
      ∧ one (.vamax ctl t d a) (amaxResult t v)
      ∧ one (.vmov ctl t d a) (plainResult (ofLanes t.bits (lanesOf t.bits v))))
    ∧ (∀ (d a : VSrc) b, takes m (.vfma ctl t d a b) [vSrc d, vSrc a, vxSrc b] [.v d.reg]
      (.done [laneResult t.bits (nanFmt t t t) (List.zipWith (fun (p : Nat × Nat) z => fFma t .rne p.1 p.2 z)
        (List.zip (lanesOf t.bits (vVal c a)) (vxLanes c t.bits b)) (lanesOf t.bits (vVal c d)))]))
    ∧ (∀ d a b : VSrc, let ab := List.zip (lanesOf t.bits (vVal c a)) (lanesOf t.bits (vVal c b))
      takes m (.vsel ctl t d a b) [vSrc d, vSrc a, vSrc b] [.v d.reg] (.done [plainResult (ofLanes t.bits
        (List.zipWith (fun k (p : Nat × Nat) => if k ≠ 0 then p.1 else p.2) (lanesOf t.bits (vVal c d)) ab))])
      ∧ takes m (.vdot ctl t d a b) [vSrc d, vSrc a, vSrc b] [.v d.reg]
        (.done [dotResult t (vVal c d) (vVal c a) (vVal c b)]))
    ∧ (∀ d (a b : VSrc), takes m (.vperm ctl t d a b) [vSrc a, vSrc b] [.v d] (.done [plainResult (ofLanes t.bits
      ((lanesOf t.bits (vVal c b)).map fun i => laneOf t.bits (vVal c a) (i % (1024 / t.bits))))]))
    ∧ (∀ d a k, takes m (.vbcast ctl t d a k) (vSrc a :: xiSrcs k) [.v d] (.done [plainResult (ofLanes t.bits
      (List.replicate (1024 / t.bits) (laneOf t.bits (vVal c a) ((xiVal c k).toNat % (1024 / t.bits)))))]))
    ∧ (∀ d a, takes m (.vsplat ctl t d a) (xiSrcs a) [.v d] (.done [plainResult (ofLanes t.bits
      (List.replicate (1024 / t.bits) ((xiVal c a).toNat % 2 ^ t.bits)))]))
    ∧ (∀ d a k, takes m (.vextr ctl t d a k) (vSrc a :: xiSrcs k) [.x d] (.done [plainResult
      ((laneWord t (laneOf t.bits (vVal c a) ((xiVal c k).toNat % (1024 / t.bits)))).setWidth 1024)]))
    ∧ (∀ d (a : VSrc) k, takes m (.vdqnt ctl t d a k) [vSrc a, ⟨.v (nextV a.reg), a.bang⟩] [.v d]
      (.done [unquantResult t k (vVal c a) (c.getV (nextV a.reg).val)]))
    ∧ (∀ (d a : VSrc) k,
      let rd := (if t.bits < (cvtSrc k).bits then [vSrc d] else []) ++ [vSrc a]
      let steps := cvtRnd k == .sr && !(neverInexact (cvtSrc k) t)
      (steps = false → takes m (.vcvt ctl t d a k) rd [.v d.reg] (.done [cvtResult t k (vVal c a) (vVal c d) 0]))
      ∧ (steps = true → c.srmode = false → takes (m.vecGroup c (vVal c a)).2 (.vcvt ctl t d a k) rd [.v d.reg]
        (.done [cvtResult t k (vVal c a) (vVal c d) (m.vecGroup c (vVal c a)).1]))
      ∧ (steps = true → c.srmode = true → takes m (.vcvt ctl t d a k) rd [.v d.reg] (.cvt t (vVal c a) (vVal c d) k)))
    ∧ ∀ (d a : VSrc) k,
      let d1 := nextV d.reg
      let rd := [vSrc d, ⟨.v d1, d.bang⟩, vSrc a]
      let sr := winRnd (bits k.toNat 7 5) == .sr
      (sr = false → takes m (.vqnt ctl t d a k) rd [.v d.reg, .v d1]
        (.done (qntResults t k (vVal c a) (vVal c d) (c.getV d1.val) 0)))
      ∧ (sr = true → c.srmode = false → takes (m.vecGroup c (vVal c a)).2 (.vqnt ctl t d a k) rd [.v d.reg, .v d1]
        (.done (qntResults t k (vVal c a) (vVal c d) (c.getV d1.val) (m.vecGroup c (vVal c a)).1)))
      ∧ (sr = true → c.srmode = true → takes m (.vqnt ctl t d a k) rd [.v d.reg, .v d1]
        (.qnt t (vVal c a) (vVal c d) (c.getV d1.val) k))

/-! ## The matrix engine (R277 to R292) -/

/-- R158, R278, R282, R286: a matrix instruction takes an entry of its core's queue, once one is free, with the operands it
captured at issue, and its register goes pending: `MRING`, `MCLOSE`, `MSTAT`, `MMA`, `MRCFG` and `MZERO` on every value of
their operands, `MLDA`, `MLDB` and `MSTA` where their checks at issue pass. Those fault as illegal outside of mode own, as
unmapped and misaligned as R158 and R282 say of the address, with what the range and the granules of the footprint give, and
the loads with the first mismatch of a layout tag. -/
def Obligations.MatrixCommands : Prop :=
  ∀ (s : State) (c : Context) (ctl : Ctl) (xs : Fin 64),
    let uid := s.issuing
    let m := s.movedOn uid
    let takes := fun (i : Instr) (rd : List Src) (op : MatOp) =>
      (s.core c.die.val c.core.val).mat.queue.length < 2 →
      s.doneAs ctl c rd [.x xs] i ((m.pendReg uid (.x xs)).modMat c.die.val c.core.val fun e =>
        { e with queue := e.queue ++ [{ uid := uid, world := c.world, lid := c.lid, dest := .x xs, op := op, item := c.item,
                                        pc := c.pc, srmode := c.srmode, order := c.serial }] })
    (s.ready c ctl [] [.x xs] →
      takes (.mring ctl xs) [] .mring ∧ takes (.mclose ctl xs) [] .mclose ∧ takes (.mstat ctl xs) [] .mstat)
    ∧ (∀ k, s.ready c ctl (xiSrcs k) [.x xs] →
      takes (.mma ctl xs k) (xiSrcs k) (.mma (xiVal c k)) ∧ takes (.mrcfg ctl xs k) (xiSrcs k) (.mrcfg (xiVal c k))
      ∧ ∀ wide, takes (.mzero ctl wide xs k) (xiSrcs k) (.mzero wide (xiVal c k)))
    ∧ (let place := fun (i : Instr) (op : Nat) (a : MemOp) (va align : Nat) (offs : List Nat) (n : Nat) (need : Need) (ok : Prop) =>
        let bad := 2 ^ 30 ≤ va ∨ va / 2 ^ 24 % 8 = 7 ∨ 5 ≤ va / 2 ^ 27 % 8
        (a.mode ≠ .own → s.faults c i op causeIllegal 0)
        ∧ (a.mode = .own → bad → s.faults c i op causeUnmapped va)
        ∧ (a.mode = .own → ¬bad → (2 ^ 24 ≤ va ∨ va % align ≠ 0) → s.faults c i op causeMisaligned va)
        ∧ (a.mode = .own → va < 2 ^ 24 → va % align = 0 →
          (∀ e, m.chunkFault c va offs n need = some e → s.faults c i op e.1 e.2)
          ∧ (m.chunkFault c va offs n need = none → ok))
      (∀ a x, s.ready c ctl [memSrc a, xSrc x] [.x xs] →
        let va := formAddr c a 64
        let w := xVal c x
        let half := fun (b : Bool) (i : Instr) (op : Nat) (mo : MatOp) =>
          let offs := layAll b (va % 2 ^ 20) w
          place i op a va 64 offs (layChunk w) .rd ((∀ e, layOk b w = true → m.tagFault c w offs = some e → s.faults c i op e.1 e.2)
            ∧ ((layOk b w = true → m.tagFault c w offs = none) → m.released uid c .core = true → takes i [memSrc a, xSrc x] mo))
        half false (.mlda ctl xs a x) 0xA0 (.mlda (va % 2 ^ 20) w) ∧ half true (.mldb ctl xs a x) 0xA1 (.mldb (va % 2 ^ 20) w))
      ∧ ∀ t a x, s.ready c ctl [memSrc a, xSrc x] [.x xs] →
        let va := formAddr c a 32
        let w := xVal c x
        place (.msta ctl t xs a x) 0xA6 a va 32 ((List.range 16).map fun i => va % 2 ^ 20 + i * layStride w) (4 * t.bits) .wr
          (takes (.msta ctl t xs a x) [memSrc a, xSrc x] (.msta t (va % 2 ^ 20) w)))

/-! ## The copy engine and views (R295 to R337) -/

/-- R312 to R314: `CPY` and `CPYI` join the queue of their core's copy engine, behind the releases of their source's scope; `CPYI` faults
first where an operand's address does, and then where its length is no multiple of 8 (R158, R40);
`CPSTG` releases entries of its launch's schedule; `CPABT` aborts commands, and its fill gives their number
once each of their statuses has filled. -/
def Obligations.CopyCommands : Prop :=
  ∀ (s : State) (c : Context) (ctl : Ctl),
    let uid := s.issuing
    let m := s.movedOn uid
    let cmd := fun (dest : Fin 64) (n : Nat) (member : BitVec 64) =>
      ({ by_ := .ctx { uid := uid, dest := .x dest }, world := c.world, lid := c.lid, region := c.region, space := c.space,
         coord := c.item, seq := BitVec.ofNat 64 (linPc c.pc) ^^^ BitVec.ofNat 64 (cpSrc n) ^^^ BitVec.ofNat 64 (cpDst n),
         item := c.item, srmode := c.srmode, rlim := c.rlim.toNat, order := c.serial, desc := BitVec.ofNat 512 n, member := member, offset := 0, wrote := 0,
         flags := 0, nan := none, groups := 0 } : CopyCmd)
    let queued := fun (u : State) (dest : Fin 64) (k : CopyCmd) =>
      (u.pendReg uid (.x dest)).modCpy c.die.val c.core.val fun e => { e with queue := e.queue ++ [k] }
    (∀ xs a ph u bs, s.ready c ctl (memSrc a :: xiSrcs ph) [.x xs] → m.readBlock uid c ctl.loc a 64 = .bytes u bs →
      u.released uid c (u.copyScope c (leNat bs)) = true → (u.core c.die.val c.core.val).cpy.queue.length < 2 →
      s.doneAs ctl c (memSrc a :: xiSrcs ph) [.x xs] (.cpy ctl xs a ph) (queued u xs (cmd xs (leNat bs) (xiVal c ph))))
    ∧ (∀ xs da sa, s.ready c ctl [xSrc xs, memSrc da, memSrc sa] [.x xs.reg] →
      let len := (xVal c xs).toNat
      let n := cpyiDesc (formAddr c sa 8) (formAddr c da 8) len sa.mode da.mode
      let dst := formFault da.mode (formAddr c da 8) 8
      let src := formFault sa.mode (formAddr c sa 8) 8
      (∀ e, dst = some e → s.faults c (.cpyi ctl xs da sa) 0xB1 e.1 e.2)
      ∧ (∀ e, dst = none → src = some e → s.faults c (.cpyi ctl xs da sa) 0xB1 e.1 e.2)
      ∧ (dst = none → src = none → len % 8 ≠ 0 → s.faults c (.cpyi ctl xs da sa) 0xB1 causeMisaligned len)
      ∧ (dst = none → src = none → len % 8 = 0 →
        m.released uid c (m.copyScope c n) = true → (s.core c.die.val c.core.val).cpy.queue.length < 2 →
        s.doneAs ctl c [xSrc xs, memSrc da, memSrc sa] [.x xs.reg] (.cpyi ctl xs da sa) (queued m xs.reg (cmd xs.reg n 0))))
    ∧ (∀ xs k, s.ready c ctl (xiSrcs k) [.x xs] →
      let n := (xiVal c k).toNat % 65536
      (KMap.look s.scheds c.lid = none → s.completes ctl c (.cpstg ctl xs k) (c.awaits (valueFill (.x xs) (errWord 0x46))))
      ∧ ∀ sc l, KMap.look s.scheds c.lid = some sc → s.launch? c.lid = some l →
        ((sc.ended = true ∨ (sc.rounds ≠ 0 ∧ sc.n * sc.rounds < sc.count + n)) →
          s.completes ctl c (.cpstg ctl xs k) (c.awaits (valueFill (.x xs) (errWord 0x47))))
        ∧ (sc.ended = false → (sc.rounds = 0 ∨ sc.count + n ≤ sc.n * sc.rounds) → m.released uid c .pkg = true →
          let t := m.releaseEntries c.lid l sc n sc.count
          s.doneAs ctl c (xiSrcs k) [.x xs] (.cpstg ctl xs k)
            ({ t with scheds := KMap.put t.scheds c.lid { sc with count := (sc.count + n) % 2 ^ 64 } }.produceWord uid (.x xs)
              (BitVec.ofNat 64 (sc.count + n)))))
    ∧ ∀ xs a, s.ready c ctl (xiSrcs a) [.x xs] →
      let all := (xiVal c a).getLsbD 0
      let me : Target := { uid := uid, dest := .x xs }
      let r := m.abortEngine me c.die.val c.core.val fun q => q.ofCtx uid
      let counted := fun (u : State) (n : Nat) => s.doneAs ctl c (xiSrcs a) [.x xs] (.cpabt ctl xs a)
        (u.produce uid { valueFill (.x xs) 0 with src := .aborted n all })
      ((all = false ∨ r.1.launch? c.lid = none) → counted r.1 r.2)
      ∧ ∀ l, all = true → r.1.launch? c.lid = some l →
        counted (r.1.abortSched me c.lid l).1 (r.2 + (r.1.abortSched me c.lid l).2)

/-- R328 to R337: the instructions on views. A handle that names no live view gives not_registered (0x55); `VWLD` reads a
block decoded to FP32 under its locality hint, or at the home with `.wait`, and compares its tag with the generation that it read;
it faults where its view is faulted, or has been dropped or faulted while it waited; `VWGEN` reads tag, generation or status;
`QUANT` joins the queue of its die. -/
def Obligations.Views : Prop :=
  ∀ (s : State) (c : Context) (ctl : Ctl),
    let uid := s.issuing
    let m := s.movedOn uid
    (∀ xs mb mc t bs u vs, s.ready c ctl [memSrc mb, memSrc mc] [.x xs] → m.readBlock uid c ctl.loc mb 128 = .bytes t bs →
      t.readBlock uid c ctl.loc mc 128 = .bytes u vs →
      let done := s.doneAs ctl c [memSrc mb, memSrc mc] [.x xs] (.vwreg ctl xs mb mc)
      (∀ e, u.vwregCheck c (leNat bs) (leNat vs) = .error e → done (u.produceWord uid (.x xs) (errWord e)))
      ∧ ∀ num k new, u.vwregCheck c (leNat bs) (leNat vs) = .ok (num, k, new) →
        let w := if new then u.addMaster c.world num k else u
        let r := w.addView c num k (leNat vs) (((List.range 4).find? fun i => !(KMap.has k.views i)).getD 0)
        done (r.1.produceWord uid (.x xs) r.2))
    ∧ (∀ xs xh, s.ready c ctl [xSrc xh] [.x xs] →
      let status := fun (i : Instr) (w : BitVec 64) => s.completes ctl c i (c.awaits (valueFill (.x xs) w))
      let done := fun (i : Instr) (u : State) => s.doneAs ctl c [xSrc xh] [.x xs] i u
      (m.viewOf c.world (xVal c xh) = none → status (.vwdrop ctl xs xh) (errWord 0x55)
        ∧ status (.vwsync ctl xs xh) (errWord 0x55) ∧ status (.vwclr ctl xs xh) (errWord 0x55))
      ∧ ∀ num k i v, m.viewOf c.world (xVal c xh) = some (num, k, i, v) →
        (v.faulted = false → status (.vwclr ctl xs xh) (errWord 0x57))
        ∧ (v.faulted = true → done (.vwclr ctl xs xh)
          (((m.modView c.world num i fun v => { v with faulted := false, cause := 0, flags := 0 }).queueRefresh k
            (allBlocks c.world num i k.desc.toNat)).produceWord uid (.x xs) 0))
        ∧ (let left := KMap.del k.views i
          let t := m.modDie (m.masterDie k) fun d => { d with refresh := d.refresh.filter fun r =>
            !(r.world == c.world && r.master == num && (r.view == some i || left.isEmpty)) }
          done (.vwdrop ctl xs xh)
            (({ t with masters := if left.isEmpty then KMap.del t.masters (masterKey c.world num)
                else KMap.put t.masters (masterKey c.world num) { k with views := left } } : State).endSyncs.produceWord uid
              (.x xs) 0))
        ∧ (c.loadsHeld = false → m.masterQuiet c k = true →
          let t := (m.newAcq uid).2.pendReg uid (.x xs)
          let y : VSync :=
            { uid := uid, dest := .x xs, acq := (m.newAcq uid).1, world := c.world, master := num, view := i,
              serial := v.serial,
              gens := (List.range (msBlocks k.desc.toNat)).map fun b => BitVec.ofNat 64 (t.genOf c.world k b) }
          done (.vwsync ctl xs xh) (({ t with vsyncs := t.vsyncs ++ [y] } : State).endSyncs)))
    ∧ (∀ d a acc sel, m.resolve c a.mode (formAddr c a 8) 8 .rd false .data = .ok acc →
      let gen : Instr := .vwgen ctl d a sel
      (s.ready c ctl [memSrc a] [.x d] → (acc.win ≠ 0 ∨ m.blockAtTag c.world (partAt acc.parts 0) = none) →
        s.faults c gen 0xC4 causeViewFault acc.va)
      ∧ ∀ num k i v b, acc.win = 0 → m.blockAtTag c.world (partAt acc.parts 0) = some (num, k, i, v, b) →
        c.loadsHeld = false → m.pauser uid .issue (m.places acc) = none →
        let u := m.unpause uid .issue
        (s.ready c ctl [memSrc a] [.x d] →
          s.doneAs ctl c [memSrc a] [.x d] gen (u.produceWord uid (.x d) (match sel with
            | .tag => BitVec.ofNat 64 ((u.viewTag c.world k v b).getD 0)
            | .gen => BitVec.ofNat 64 (u.genOf c.world k b)
            | .status => u.viewStatus c.world num i k v)))
        ∧ ∀ pol (r : Fin 32), s.ready c ctl [memSrc a] (vwldDests pol r) → m.masterQuiet c k = true →
          ((v.faulted = true ∨ c.viewLost v = true) → s.faults c (.vwld ctl pol r a) 0xC2 causeViewFault acc.va)
          ∧ ∀ t bs e tag, v.faulted = false → c.viewLost v = false →
            u.readView c.die.val c.core.val (vwldHint pol ctl.loc) c.world k v b = .ok (t, bs, e, tag, false) →
            let g := (c.viewGen (u.genOf c.world k b)).toNat
            let rs := decodeView v.desc.toNat bs e
            let got := fun (c : Context) => (c.setV r (ofLanes 32 (rs.map (·.1)))).addFlags (flagBits (flagsOf rs)) none
            (tag < g → pol = .trap → s.faults c (.vwld ctl pol r a) 0xC2 causeViewStale acc.va)
            ∧ (g ≤ tag → (∀ p, pol ≠ .staleok p) → s.doneAs ctl c [memSrc a] (vwldDests pol r) (.vwld ctl pol r a)
              (t.modCtx uid fun c => { got c with vwGen := none }))
            ∧ ∀ p, pol = .staleok p → s.doneAs ctl c [memSrc a] (vwldDests pol r) (.vwld ctl pol r a)
              (t.modCtx uid fun c => { (got c).setP p (decide (tag < g)) with vwGen := none }))
    ∧ ∀ xs a u bs, s.ready c ctl [memSrc a] [.x xs] → m.readBlock uid c ctl.loc a 64 = .bytes u bs →
      let n := leNat bs
      let done := s.doneAs ctl c [memSrc a] [.x xs] (.quant ctl xs a)
      let full := decide (64 ≤ (u.die c.die.val).quant.length)
      (full = true → done (u.produceWord uid (.x xs) (errWord 0x58)))
      ∧ (full = false → qtOk n = false → done (u.produceWord uid (.x xs) (errWord 0x59)))
      ∧ (full = false → qtOk n = true → u.released uid c (u.quantScope c n) = true →
        done ((u.pendReg uid (.x xs)).modDie c.die.val fun k => { k with quant := k.quant ++
          [{ uid := uid, dest := .x xs, world := c.world, space := c.space, region := c.region, lid := c.lid, item := c.item,
             pc := c.pc, srmode := c.srmode, rlim := c.rlim.toNat, order := c.serial, desc := BitVec.ofNat 512 n, next := 0, flags := 0, nan := none,
             fail := none, sent := [] }] }))

/-! ## Address spaces (R138 to R151) -/

/-- R138 to R151: the instructions on the mapping tree act as the operation of the tree that each names, from the space of
their context, and fill with its status; a withdrawal, a grant that must shoot down, and a migration fill later. `SPACE` is
performed as its register fills (R149). `MOVEPG` answers bad_extent (0x14) for a page of registers, though R147 names no such
check: the model's choice (log 125); ranges that share memory are exchanged piece by piece (log 115), and root nodes keep their
translation (log 126). -/
def Obligations.AddressSpaces : Prop :=
  ∀ (s : State) (c : Context) (ctl : Ctl) (xs : Fin 64),
    let uid := s.issuing
    let m := s.movedOn uid
    let late := fun (r : State × Option (BitVec 64)) => match r.2 with
      | some v => r.1.produceWord uid (.x xs) v
      | none => r.1.pendReg uid (.x xs)
    let sink : Sink := .reg { uid := uid, dest := .x xs }
    (∀ a t u bs, s.ready c ctl (memSrc a :: xiSrcs t) [.x xs] → m.readBlock uid c ctl.loc a 32 = .bytes u bs →
      let sp := (xiVal c t).toNat
      let done := s.doneAs ctl c (memSrc a :: xiSrcs t) [.x xs]
      (2 ^ 16 ≤ sp → done (.map ctl xs a t) (u.produceWord uid (.x xs) (errWord 0x15))
        ∧ done (.grant ctl xs a t) (u.produceWord uid (.x xs) (errWord 0x15)))
      ∧ (sp < 2 ^ 16 →
        done (.map ctl xs a t)
          ((u.treeMap (leNat bs) c.space sp).1.produceWord uid (.x xs) (u.treeMap (leNat bs) c.space sp).2)
        ∧ done (.grant ctl xs a t) (late (u.treeGrant (leNat bs) c.space sp sink))))
    ∧ (c.loadsHeld = false →
      (∀ xa t, s.ready c ctl (xSrc xa :: xiSrcs t) [.x xs] →
        let va := (xVal c xa).toNat
        let sp := (xiVal c t).toNat
        s.doneAs ctl c (xSrc xa :: xiSrcs t) [.x xs] (.unmap ctl xs xa t) (late (m.treeUnmap c.space va sp sink))
        ∧ s.completes ctl c (.probe ctl xs xa t) (c.awaits (valueFill (.x xs) (m.treeProbe c.space va sp))))
      ∧ (∀ g, s.ready c ctl (xiSrcs g) [.x xs] →
        s.doneAs ctl c (xiSrcs g) [.x xs] (.space ctl xs g)
          (m.produce uid { valueFill (.x xs) 0 with src := .space c.space (xiVal c g).toNat })
        ∧ s.doneAs ctl c (xiSrcs g) [.x xs] (.retiresp ctl xs g) (late (m.treeRetire c.space (xiVal c g).toNat sink))))
    ∧ ∀ xa xb, s.ready c ctl [xSrc xa, xSrc xb] [.x xs] →
      let a := (xVal c xa).toNat
      let b := (xVal c xb).toNat
      let i : Instr := .movepg ctl xs xa xb
      (a % 65536 ≠ 0 → s.faults c i 0xD4 causeMisaligned a)
      ∧ (a % 65536 = 0 → b % 65536 ≠ 0 → s.faults c i 0xD4 causeMisaligned b)
      ∧ (a % 65536 = 0 → b % 65536 = 0 → c.loadsHeld = false → m.holdsPage c.space a = none →
        s.faults c i 0xD4 causeNotHeld a)
      ∧ ∀ h k, a % 65536 = 0 → b % 65536 = 0 → c.loadsHeld = false → m.holdsPage c.space a = some h →
        (m.holdsPage c.space b = none → s.faults c i 0xD4 causeNotHeld b)
        ∧ (m.holdsPage c.space b = some k →
          let status := fun (w : Nat) => s.completes ctl c i (c.awaits (valueFill (.x xs) (errWord w)))
          let pages := m.isPages h || m.isPages k
          let busy := m.hasBelow k || m.pageBusy h || m.pageBusy k
          (pages = true → status 0x14)
          ∧ (pages = false → busy = true → status 0x16)
          ∧ (pages = false → busy = false → s.doneAs ctl c [xSrc xa, xSrc xb] [.x xs] i { m.pendReg uid (.x xs) with
            nextOrder := s.nextOrder + 1
            moves := s.moves ++ [{ num := s.nextOrder, sink := sink, cut := false, ended := false,
                                   pairs := pairBacks (h.back.length + k.back.length) h.back k.back,
                                   nodes := match h.id with
                                     | some id => m.pathUp treeFuel id
                                     | none => [] }] }))

/-! ## Bulk transfer and the system (R353 to R363, R380, R412) -/

/-- R361 to R363: `BSEND` and `BPOST` register a send and a post and answer a descriptor that breaks its rules, a package
outside the job, and a full table with their codes; `BCANCEL` ends the send or post of its descriptor address,
unless its last byte has been written, and its own register fills after the one it cancels; `BSTAT`
reads its record. -/
def Obligations.BulkTransfer : Prop :=
  ∀ (s : State) (c : Context) (ctl : Ctl) (xs : Fin 64) (a : MemOp), s.ready c ctl [memSrc a] [.x xs] →
    let uid := s.issuing
    let m := s.movedOn uid
    let d := c.die.val
    let va := formAddr c a 64
    let done := s.doneAs ctl c [memSrc a] [.x xs]
    (∀ g, c.slot = some 6 → s.faults c (.bsend ctl xs a) 0xE0 0x0B 0 ∧ s.faults c (.bpost ctl g xs a) 0xE1 0x0B 0)
    ∧ (∀ u bs, inSlot6 c = false → m.readBlock uid c ctl.loc a 64 = .bytes u bs →
      let n := leNat bs
      let status := fun (i : Instr) (w : Nat) => done i (u.produceWord uid (.x xs) (errWord w))
      let away := blPkg n ≠ u.pkg.toNat ∧ u.noJob (blPkg n) = true
      (badSend n = true → status (.bsend ctl xs a) 0x60)
      ∧ (badSend n = false → away → status (.bsend ctl xs a) 0x61)
      ∧ (badSend n = false → ¬away → u.niFull d = true → status (.bsend ctl xs a) 0x67)
      ∧ (badSend n = false → ¬away → u.niFull d = false → u.released uid c (u.vaScope c (bsSrc n) (blLen n)) = true →
        let id := (u.die d).ni.nextOut
        let p : Send :=
          { uid := uid, dest := .x xs, addr := va, world := c.world, region := c.region, space := c.space,
            desc := BitVec.ofNat 512 n, sent := 0, turned := 0, retryAt := none, rlim := c.rlim.toNat, begun := false,
            cancel := none }
        done (.bsend ctl xs a) ((((u.pendReg uid (.x xs)).forgetEnded c.world va).modNi d fun k =>
          { k with sends := KMap.put k.sends id p, nextOut := id + 1 }).sendRts d id))
      ∧ ∀ g, (badPost n = true → status (.bpost ctl g xs a) 0x60)
        ∧ (badPost n = false → u.niFull d = true → status (.bpost ctl g xs a) 0x67)
        ∧ (badPost n = false → u.niFull d = false → u.released uid c (u.vaScope c (bsSrc n) (blLen n)) = true →
          let id := (u.die d).ni.nextOut
          let t := (u.pendReg uid (.x xs)).forgetEnded c.world va
          let p : Post :=
            { uid := uid, dest := .x xs, addr := va, world := c.world, region := c.region,
              lim := u.limOwner c.region 5, space := c.space, lid := c.lid,
              item := c.item, core := c.core, prio := g, rlim := c.rlim.toNat, desc := BitVec.ofNat 512 n, order := t.nextOrder, hit := none }
          let v := ({ t with nextOrder := t.nextOrder + 1 } : State).modNi d fun k =>
            { k with posts := KMap.put k.posts id p, nextOut := id + 1 }
          done (.bpost ctl g xs a) (match (v.die d).ni.rts.find? fun r => p.accepts r with
            | some r => (v.modNi d fun k => { k with rts := k.rts.erase r }).matchPost d id p r
            | none => v)))
    ∧ (va % 64 ≠ 0 → s.faults c (.bcancel ctl xs a) 0xE2 causeMisaligned va ∧ s.faults c (.bstat ctl xs a) 0xE3 causeMisaligned va)
    ∧ (va % 64 = 0 →
      done (.bstat ctl xs a) ((m.bulkRecord c.world va).2.produceWord uid (.x xs) (m.bulkRecord c.world va).1)
      ∧ (m.sendsAt c.world va = [] → m.postsAt c.world va = [] →
        s.completes ctl c (.bcancel ctl xs a) (c.awaits (valueFill (.x xs) (errWord 0x68))))
      ∧ (∀ e id l p, m.sendsAt c.world va = [] → m.postsAt c.world va = (e, id) :: l → m.post? e id = some p →
        let r := (m.endPost e id (errWord 0x65) false false).produce uid (afterFill (.x xs) (p.uid, p.dest) 0)
        (p.hit = none → done (.bcancel ctl xs a) r)
        ∧ ∀ h, p.hit = some h → h.bytes < takes p h → done (.bcancel ctl xs a) (r.tellSender h true))
      ∧ ∀ e id l p, m.sendsAt c.world va = (e, id) :: l → m.send? e id = some p → p.cancel = none →
        let toDie := bsDie p.desc.toNat
        let name := sendName s.pkg.toNat e (8 * id + e)
        (blPkg p.desc.toNat = s.pkg.toNat → m.sendWhole toDie name = false →
          done (.bcancel ctl xs a)
            (((m.endSend e id (errWord 0x65) false).cancelPost toDie name).produce uid (afterFill (.x xs) (p.uid, p.dest) 0)))
        ∧ (blPkg p.desc.toNat ≠ s.pkg.toNat → done (.bcancel ctl xs a)
          (((m.pendReg uid (.x xs)).modSend e id fun q => { q with cancel := some { uid := uid, dest := .x xs } }).emit
            (.cancel (blPkg p.desc.toNat) toDie (.post name)))))

/-- R41, R380, R412: `EVID` asks for evidence and fills busy (0x70) while 64 requests are outstanding; the faults of its
request line come before that of its reply address; `DBGBRK` breaks only
where its context is debugged with the break bit, and is a `NOP` elsewhere; `ILL` faults with illegal. -/
def Obligations.EvidenceBreakIllegal : Prop :=
  ∀ (s : State) (c : Context) (ctl : Ctl),
    let uid := s.issuing
    let m := s.movedOn uid
    (∀ xs a xr, s.ready c ctl [memSrc a, xSrc xr] [.x xs] →
      let r := (xVal c xr).toNat
      (inSlot6 c = true → s.faults c (.evid ctl xs a xr) 0xF0 causePrivileged 0)
      ∧ (∀ e, inSlot6 c = false → m.resolve c a.mode (formAddr c a 64) 64 .rd false .block = .error e →
        s.faults c (.evid ctl xs a xr) 0xF0 e.1 e.2)
      ∧ (∀ u bs, inSlot6 c = false → r % 64 ≠ 0 → m.readBlock uid c ctl.loc a 64 = .bytes u bs →
        s.faults c (.evid ctl xs a xr) 0xF0 causeMisaligned r)
      ∧ ∀ u bs reply, inSlot6 c = false → m.readBlock uid c ctl.loc a 64 = .bytes u bs →
        u.resolveGlobal c.world c.space (c.slot == some 7) r 256 64 .wr = .ok reply →
        u.released uid c (u.vaScope c (formAddr c a 64) 64) = true →
        (64 ≤ u.responderLoad →
          s.doneAs ctl c [memSrc a, xSrc xr] [.x xs] (.evid ctl xs a xr) (u.produceWord uid (.x xs) (errWord 0x70)))
        ∧ (u.responderLoad < 64 →
          s.doneAs ctl c [memSrc a, xSrc xr] [.x xs] (.evid ctl xs a xr)
            (({ u with nextOrder := u.nextOrder + 1 } : State).produce uid { poisonFill (.x xs) with src := .evid bs reply u.nextOrder })))
    ∧ (s.ready c ctl [] [] →
      (m.debugBit c true = false → s.completes ctl c (.dbgbrk ctl) c)
      ∧ (m.debugBit c true = true →
        exec (.dbgbrk ctl) s = .next (s.takeFault uid 0xF1 causeBreak c.pc.toNat (succPc c.pc))))
    ∧ (s.ctx? s.issuing = some c → ∀ b, s.faults c (.ill b) 0xFF causeIllegal 0)

/-! ## Events of cores -/

/-- R30, R55, R59, R114, R391, R421: an issue cycle chooses nothing in the cycles that heat skips, of every eight the first
(the model's choice, log 124), and otherwise by the two stages of R114 and R115; a block fetched again enters the instruction cache; a fill lands; a missing register line is
fetched; an eviction that cannot be written back fails; a pool write-back that is not acknowledged within 65,536 cc ends with
pool_dead (0x72). -/
def Obligations.CoreEvents : Prop :=
  ∀ s : State,
    (∀ d c, let t := s.ejectExhausted d.val c.val
      (s.cyc d.val % 8 < (t.die d.val).skip → t.cyc d.val = s.cyc d.val →
        exec (.issueCycle d c) s = .next { t with issuing := 0 })
      ∧ ((t.die d.val).skip ≤ t.cyc d.val % 8 → exec (.issueCycle d c) s = .next (t.selectIssue d.val c.val)))
    ∧ (∀ d c key rest, (s.core d.val c.val).refetch = key :: rest →
      exec (.blockRefetch d c) s
        = .next ((s.loadBlock d.val c.val key (key / 65536 * 64) (key % 65536) true).modCore d.val c.val fun k =>
          { k with refetch := k.refetch.drop 1 }))
    ∧ (∀ uid k c f, s.ctx? uid = some c → c.fills[k]? = some f →
      let lands := fun (u : State) (v : Option (BitVec 1024)) =>
        exec (.longProducerFill uid k) s = .next ((u.takeFill uid k).land uid f v)
      (∀ v, (f.src = .value v ∨ f.src = .result v) → lands s (some v))
      ∧ (f.src = .poisoned → lands s none)
      ∧ (∀ now n, f.src = .count now n → now < s.cyc c.die.val → lands s (some (BitVec.ofNat 1024 n)))
      ∧ (∀ n all, f.src = .aborted n all → s.aborting uid c.lid all = false → lands s (some (BitVec.ofNat 1024 n)))
      ∧ (∀ sp g, f.src = .space sp g → lands (s.treeSpace sp g).1 (some ((s.treeSpace sp g).2.setWidth 1024)))
      ∧ (∀ u dest v, f.src = .following u dest v → s.fillsSoon u dest = false → lands s (some (v.setWidth 1024)))
      ∧ (∀ since sent ds, f.src = .poolAck since sent ds →
        (s.cyc c.die.val < since + 65536 → lands s (some (BitVec.ofNat 1024 (ds * 2 ^ 32 + sent.length))))
        ∧ (since + 65536 ≤ s.cyc c.die.val → exec (.longProducerFill uid k) s
          = .next (((s.poolLost sent).takeFill uid k).land uid f (some ((errWord 0x72).setWidth 1024)))))
      ∧ (∀ id scope sc, f.src = .fence id scope sc → s.fenceMet uid c k id scope sc = true →
        exec (.longProducerFill uid k) s = .next (((s.takeFill uid k).modCtx uid fun c => c.fenced id scope).land uid f
          (some ((failWord (c.failed.filter fun f => scopeCovers scope f.scope)).setWidth 1024))))
      ∧ (∀ acc, s.pauser uid (.fill f.dest) (s.places acc) = none →
        let u := s.unpause uid (.fill f.dest)
        (f.src = .load acc → exec (.longProducerFill uid k) s = .next (u.fillLoad uid c k f acc))
        ∧ (f.src = .feget acc → exec (.longProducerFill uid k) s = .next (u.fillFeget uid c k f acc))
        ∧ ∀ op w b, f.src = .atom acc op w b → exec (.longProducerFill uid k) s = .next (u.fillAtom uid c k f acc op w b)))
    ∧ (∀ uid n ns c, s.ctx? uid = some c → c.slot.isSome = true → c.why = some (.line n ns) → n < 73 →
      KMap.has c.lines n = false → exec (.registerLineFill uid n) s = .next (s.fetchLine uid n))
    ∧ (∀ uid n c e, s.ctx? uid = some c → KMap.has c.lines n = true → c.lineDirty n = true → c.mayEvict n = true →
      s.writeBack c n = .error e → exec (.writeBackFailure uid n) s = .next (s.evictFailed uid c n e.1))
    ∧ ∀ uid c f k since sent ds, s.ctx? uid = some c → s.poolLate c = some (f, k) → f.src = .poolAck since sent ds →
      exec (.poolAckTimeout uid) s
        = .next (((s.poolLost sent).takeFill uid k).land uid f (some ((errWord 0x72).setWidth 1024)))

/-- R82 to R89, R423: what becomes of a message. It is refused where its core is away, has no table for it, or its entry does
not permit it, and accepted, with the table that it selected, where the queue has room; handlers start, once their first
lines have room, in the order of their priorities in a free slot
of 0 to 5, in slot 7 for channel 62, and in slot 6 for landing packets; a masked entry starts none. -/
def Obligations.MessagesAndHandlers : Prop :=
  ∀ s : State,
    (∀ k m, s.net[k]? = some m → olderOnWay s.net k m = false →
      let d := m.die.val
      let c := m.core.val
      let away := match s.launch? m.lid with
        | some l => s.unreachable (clKey d (clusterOf c)) l.region
        | none => s.isCycling (clKey d (clusterOf c))
      (away = true → exec (.messageArrival k) s = .next ((s.offNet k).refuseMsg m 3))
      ∧ (away = false → s.tableFor d c m.lid m.world = none → exec (.messageArrival k) s = .next ((s.offNet k).refuseMsg m 2))
      ∧ ∀ t, away = false → s.tableFor d c m.lid m.world = some t →
        let bad := (t.entry m.chan).permitted = false ∨ (m.gen = false ∧ 62 ≤ m.chan)
        (bad → exec (.messageArrival k) s
          = .next (((s.offNet k).modEntry d c t.lid m.chan HEntry.refuse).refuseMsg m 1))
        ∧ (¬bad → queueRoom (s.core d c).queue m.chan = true → exec (.messageArrival k) s
          = .next (((s.offNet k).modCore d c fun x => { x with queue := x.queue ++ [{ m with table := some t.lid }] }).msgStatus m 0)))
    ∧ (∀ k m, s.net[k]? = some m → m.since + 65536 ≤ s.cyc m.die.val →
      exec (.messageTimeout k) s = .next ((s.offNet k).refuseMsg m 4))
    ∧ (∀ seq v o t, s.outstOf seq = some o → o.todo = .message (some t) →
      exec (.remoteMessageStatus seq v) s = .next ((s.dropOutst seq).pushFill t.uid (valueFill t.dest v)))
    ∧ (∀ d c n i m t e u, s.freeSlot d.val c.val = some n →
      s.firstStartable d.val c.val (s.core d.val c.val).queue 0 = some (i, m, t, e) → s.linesRoom d.val c.val 3 = some u →
      exec (.handlerStart d c) s = .next ((u.modCore d.val c.val fun k =>
        { k with queue := k.queue.eraseIdx i }).startHandler d.val c.val n m t e .pinned))
    ∧ (∀ d c i m v, s.slotFree d.val c.val 7 = true → s.linesRoom d.val c.val 3 = some v →
      firstFault ((s.core d.val c.val).queue.map fun m => (m, s.faultHeld d.val c.val m)) 0 = some (i, m) →
      let u := v.modCore d.val c.val fun k => { k with queue := k.queue.eraseIdx i }
      (u.msgTable d.val c.val m = none →
        exec (.faultHandlerStart d c) s = .next (u.stopWorld m.world .noTable m.faultCause))
      ∧ ∀ t, u.msgTable d.val c.val m = some t →
        exec (.faultHandlerStart d c) s = .next (u.startHandler d.val c.val 7 m t (t.entry 62) .faultHandler))
    ∧ (∀ uid c, s.ctx? uid = some c → s.overBudget c = true →
      (c.wait = .none → exec (.handlerBudget uid) s = .next (s.takeFault uid (s.nextOpcode c) causeBudget 0 c.pc))
      ∧ ∀ pc, c.wait ≠ .none → c.stepped = some pc → exec (.handlerBudget uid) s
        = .next (s.takeFault uid (s.nextOpcode { c with pc := pc }) causeBudget 0 pc))
    ∧ ∀ d c lid l chan item t u, s.slotFree d.val c.val 6 = true →
      (s.core d.val c.val).landq.find? (fun q => !(s.packetHeld d.val c.val q.1 q.2.2.1)) = some (lid, l, chan, item) →
      (s.core d.val c.val).tables.find? (fun t => t.lid == lid) = some t → s.linesRoom d.val c.val 6 = some u →
      let p : Nat × Nat × List Byte := match l with
        | .copy _ _ _ dest len data => (dest, len, data)
        | .bulk _ _ _ _ dest len data => (dest, len, data)
      ∃ x, exec (.landingPacketOffer d c) s
          = .next (((u.modCore d.val c.val fun k => { k with landq := (s.core d.val c.val).landq.erase (lid, l, chan, item) }).addCtx
              x).enterSlot u.nextUid d.val c.val 6)
        ∧ x.kind = .landing ∧ x.pc = (t.entry chan).pc ∧ x.landing = some l
        ∧ x.world = t.world ∧ x.getX 1 = BitVec.ofNat 64 p.1 ∧ x.getX 2 = BitVec.ofNat 64 p.2.1
        ∧ x.getV 0 = BitVec.ofNat 1024 (leNat (p.2.2.take 128))
        ∧ x.getV 1 = BitVec.ofNat 1024 (leNat ((p.2.2.drop 128).take 128))

/-- R77 to R79, R113, R120: a core with a free slot and no handler to start takes the first continuation that passes the tests,
its own cluster's or, of a saturated cluster, another's; a suspended continuation whose wait has ended is ready, at the
PC that its record holds, and queues, or faults where a withdrawal ended its wait; a tile task becomes ready with its dependences, goes to a core, and ends with its handler. -/
def Obligations.SchedulerEvents : Prop :=
  ∀ s : State,
    (∀ d c n uid, s.freeSlot d.val c.val = some n → s.firstStartable d.val c.val (s.core d.val c.val).queue 0 = none →
      (let key := clKey d.val (clusterOf c.val)
        let q := (s.retestQueue key).firstPlaceable d.val c.val ((s.retestQueue key).readyQueue key)
        (q.1 = some uid → exec (.continuationPlacement d c) s = .next (q.2.placeOn uid d.val c.val n))
        ∧ (q.1 = none → exec (.continuationPlacement d c) s = .next q.2))
      ∧ ∀ victim, clusterOf c.val ≠ victim.val → s.saturated d.val victim.val = true →
        s.readyQueue (clKey d.val (clusterOf c.val)) = [] →
        let key := clKey d.val victim.val
        let q := (s.retestQueue key).firstPlaceable d.val c.val
          ((s.retestQueue key).stealable d.val victim.val (clusterOf c.val)).toList
        q.1 = some uid → exec (.stealContinuation d victim c) s = .next (q.2.placeOn uid d.val c.val n))
    ∧ (∀ uid c, s.ctx? uid = some c → c.state = .suspended → c.slot = none → c.waitOver = true →
      (∀ f, c.pendFault = some f → c.imageFault f = false →
        exec (.continuationReady uid) s = .next (s.takeFault uid 0 f.1.toNat f.2.toNat c.pc))
      ∧ ((∀ f, c.pendFault = some f → c.imageFault f = true) →
        let pc := s.recordPc c
        let t := (s.modCtx uid fun c =>
          { c with state := .ready, wait := .none, pc := pc, pastEnd := c.pastEnd && pc == c.pc,
                   block := if pc == c.pc then c.block else none }).changed uid 0
        ∀ k, t.ctx? uid = some k → k.state = .ready → exec (.continuationReady uid) s = .next (t.requeue uid)))
    ∧ ∀ d cl k t, let r : TaskRef := { die := d.val, cl := cl.val, k := k }
      s.task? r = some t →
      (∀ (dep : Fin 4) a, t.deps[dep.val]? = some (a, false, true) → s.depWaits r dep.val = false →
        exec (.taskDependenceMet d cl k dep) s = .next (s.markDep r dep.val true false))
      ∧ (∀ (dep : Fin 4) a, t.deps[dep.val]? = some (a, false, false) →
        exec (.taskDependenceRetest d cl k dep) s = .next (s.testDep r dep.val))
      ∧ (∀ c, t.ready = true → s.taskCore d.val cl.val t = some c →
        (∀ q ∈ (s.cluster d.val cl.val).tasks, q.1 < k → q.2.ready = true → s.taskCore d.val cl.val q.2 = none) →
        exec (.taskIssue d cl k) s = .next (s.sendTask r t c))
      ∧ (t.stage = .issued → s.taskRuns r = false → exec (.taskDoneFill d cl k) s = .next (s.endTask r t.tag))

/-- R106, R110 to R112, R366, R369: the steps of a launch. A record that cannot be read or breaks its rules is refused with
bad_record (9), the opening of its world with 0x0A; a launch without open dependences runs; its items are made one by
one; it completes when everything of its world is quiet; its handler tables leave the cores. -/
def Obligations.LaunchEvents : Prop :=
  ∀ s : State,
    (∀ m t, s.nextLaunch = some (m, t) →
      let w := t.launchWorld m
      (m.addr % 256 ≠ 0 → exec .launchMessage s = .next (t.sink m.sink (errWord 9)))
      ∧ (m.addr % 256 = 0 → t.readRecord w m.space m.addr 256 = none →
        exec .launchMessage s = .next (t.sink m.sink (errWord 9)))
      ∧ ∀ p n done, m.addr % 256 = 0 → t.readRecord w m.space m.addr 256 = some (p, n) →
        t.doneAt w m.space (bits n 959 896) = some done →
        exec .launchMessage s = .next (match t.validate m w n done with
          | none => t.refuseLaunch m.sink w done 9
          | some a => t.admitLaunch m w done a))
    ∧ (∀ lid l g, s.launch? lid = some l → l.stage = .opening → s.region? l.region = some g →
      (s.readRecord l.lworld l.lspace l.key 512 = none → exec (.worldOpen lid) s = .next (s.refuseOpening lid l 0x0A))
      ∧ ∀ p n, s.readRecord l.lworld l.lspace l.key 512 = some (p, n) →
        exec (.worldOpen lid) s = .next (match s.openHandle (leBytes 512 n) with
          | none => s.refuseOpening lid l 0x0A
          | some h => s.openFor lid l g h))
    ∧ (∀ lid l, s.launch? lid = some l → s.torn l.world = false →
      (l.stage = .waiting → (∀ d ∈ l.deps, s.launch? d = none) →
        exec (.launchDependencesMet lid) s
          = .next (({ s with launches := KMap.put s.launches lid { l with stage := .running } } : State).makeItem lid
            { l with stage := .running }))
      ∧ (l.stage = .running → exec (.itemCreation lid) s = .next (s.makeItem lid l))
      ∧ (l.stage = .running → (l.broken = true ∨ l.items ≤ l.made) → s.worldCommands l.world = false →
        s.worldQuiet l.world (!(s.launches.any fun p => p.1 != lid && p.2.world == l.world)) = true →
        exec (.launchCompletion lid) s
          = .next ((s.fillDone l l.world (if l.broken then errWord 9 else 0)).endLaunch lid l)))
    ∧ (∀ d c lid t, (s.core d.val c.val).tables.find? (fun t => t.lid == lid) = some t → s.launch? lid = none →
      (∀ p ∈ s.ctxs, p.2.slot.isSome = true → p.2.lid = lid → p.2.die = d → p.2.core ≠ c) →
      exec (.handlerTableLeave d c lid) s = .next (s.leaveTable d.val c.val t).prunePast)
    ∧ ∀ account, exec (.budgetCharge account) s = .next (s.applyCharge account)

/-- R123 to R128: the events of a pre-emption act on the clusters and the region that they name: a request opens a window
as long as the region's own ywin says (log 117), or joins a pre-emption already in force there (log 118);
its end, after the issue of its last cycle, chooses for the cluster, which finishes at once or when what held it up has ended; a resume lifts the requests
and places what they held. -/
def Obligations.PreemptionEvents : Prop :=
  ∀ s : State,
    (∀ region slices deadline, exec (.preemptionRequest region slices deadline) s
      = .next (s.requestPre region.toNat slices.toNat deadline.toNat .controller))
    ∧ (∀ d cl (region : BitVec 32) p, let r := region.toNat
      s.preOf d.val cl.val r = some p →
      (∀ t, p.stage = .window t → t < s.cyc d.val →
        let q := s.choose d.val cl.val r p.remain
        let u := (q.2.addForced r (q.2.slotCtxs d.val cl.val r).length).modPre d.val cl.val r fun p =>
          { p with stage := .draining, choice := some q.1 }
        (u.notFinished d.val cl.val r q.1.val = true → exec (.cooperativeWindowEnd d cl region) s = .next u)
        ∧ (u.notFinished d.val cl.val r q.1.val = false →
          exec (.cooperativeWindowEnd d cl region) s = .next (u.finishChoice d.val cl.val r q.1.val)))
      ∧ (∀ t, p.stage = .window t → s.cyc d.val ≤ t → exec (.cooperativeWindowEnd d cl region) s = .next s)
      ∧ ∀ ch, p.stage = .draining → p.choice = some ch → s.notFinished d.val cl.val r ch.val = false →
        exec (.preemptDrainComplete d cl region) s = .next (s.finishChoice d.val cl.val r ch.val))
    ∧ ∀ region : BitVec 32,
      exec (.regionResume region) s = .next (s.resumeAll (fun _ o => o == .controller) (s.descendants region.toNat)).preemptDone
      ∧ exec (.restartContinuationCreate region) s
        = .next (s.makeRestarts (s.restarts.filter fun q => q.region == region.toNat))

/-! ## Events of memory and synchronisation -/

/-- R147, R168, R176, R177, R184, R205: an entry of a store buffer that may pass what stands before it is performed and leaves,
or waits in the retry list while its page migrates; the
wait after a refusal ends with its time; a monitor entry times out with 2, and frees when its end reaches it, of which the home of a far word
hears (log 110). -/
def Obligations.MemoryEvents : Prop :=
  ∀ s : State,
    (∀ uid k c e, s.ctx? uid = some c → c.sbuf[k]? = some e → s.mayDrain c k e = true →
      (s.pauser uid (.entry e.num) (s.places e.acc) = none → exec (.storeBufferDrain uid k) s
        = .next (((s.unpause uid (.entry e.num)).drainEntry uid c k e).reap uid))
      ∧ ∀ m, s.pauser uid (.entry e.num) (s.places e.acc) = some m → s.hasPaused uid (.entry e.num) = false →
        s.listRoom (partAt (s.places e.acc) 0) = true →
        exec (.storeBufferDrain uid k) s = .next (s.admitPaused uid (.entry e.num) m e.acc))
    ∧ (∀ uid c, s.ctx? uid = some c → c.retryAt ≠ 0 → c.retryAt ≤ s.cyc c.die.val → s.dies.all (fun d =>
        d.2.ni.outst.isEmpty && d.2.ni.sends.isEmpty) = true →
      exec (.retryBackoffExpiry uid) s = .next (s.modCtx uid fun c => { c with retryAt := 0 }))
    ∧ (∀ d k m, KMap.look (s.die d.val).monitors k = some m →
      (∀ t, m.deadline = some t → t ≤ s.cyc d.val → exec (.waitaTimeout d k) s = .next (s.endMon d.val k 2))
      ∧ ∀ v, m.ended = some v → m.endedAt < s.cyc d.val → exec (.monitorWakeNotice d k) s
        = .next (((s.modDie d.val fun x => { x with monitors := KMap.del x.monitors k }).endFar d.val k).endWait m.uid m.dest
          m.acq v))

/-- R163, R176: a plain store that drains to a line of vault or DRAM memory that no key protects changes exactly its bytes:
each reads as the store's byte, every other byte of memory is as before, and every full-empty bit stays. No master,
image, RCB or waiting access lies on it. -/
def Obligations.DrainedStore : Prop :=
  ∀ (s : State) (uid k : Nat) (c : Context) (e : SEntry) (p : Nat) (bs : List Byte),
    s.ctx? uid = some c → c.sbuf[k]? = some e → s.mayDrain c k e = true → e.op = .store .plain bs → e.loc ≠ 2 →
    e.acc.parts = [(p, bs.length)] → bs ≠ [] → c.state ≠ .retired → s.mem.wf = true →
    (match s.homeOf p with
      | .vault _ _ | .dram _ => true
      | _ => false) = true →
    p / 64 = (p + bs.length - 1) / 64 → s.mem.prot = [] → s.mem.raws = [] → s.anyPoison [(p, bs.length)] = false →
    s.retry = [] → s.moves = [] → s.masters = [] → s.remoteMons = [] → (∀ q ∈ s.ctxs, s.imageHits q.2 p bs.length = []) →
    (∀ r ∈ s.liveRcbs, p + bs.length ≤ r ∨ r + 256 ≤ p) →
    ∃ t, exec (.storeBufferDrain uid k) s = .next t
      ∧ (∀ i < bs.length, t.mem.cell (p + i) = bs.getD i 0)
      ∧ (∀ a, (a < p ∨ p + bs.length ≤ a) → t.mem.cell a = s.mem.cell a)
      ∧ ∀ a, t.isFull a = s.isFull a

/-- R226 to R232: a full lane of barrier wires releases its cores, 12 cycles after the last of them arrived; a wait on wires
times out with 0x2B unless its lane releases by then, and a release after its time fills 0x2B too, and one on an NI barrier with 0x2B, or with 0x2D where a notice
cannot be delivered; a notice of an epoch that is not over is held, and the barrier goes on. -/
def Obligations.BarrierEvents : Prop :=
  ∀ s : State,
    (∀ d lane, let p := laneCores lane
      (s.laneFull d.val p.1 p.2 = true → s.laneDue d.val p.1 p.2 ≤ s.cyc d.val → exec (.barrierRelease d lane) s
        = .next ((p.2.foldl (fun (s : State) c => s.setLane d.val c p.1 { s.lane d.val c p.1 with
            e := (s.lane d.val c p.1).e + 1, times := (s.lane d.val c p.1).times.tail }) s).fillBw d.val (s.laneDue d.val p.1 p.2)))
      ∧ ((s.laneFull d.val p.1 p.2 = false ∨ s.cyc d.val < s.laneDue d.val p.1 p.2) → exec (.barrierRelease d lane) s = .next s))
    ∧ (∀ uid d w t, s.bwOf uid = some (d, w) → w.deadline = some t →
      (t ≤ s.cyc d → s.releaseBy d w t = false → exec (.bwTimeout uid) s
        = .next ((s.modDie d fun k => { k with bwWaits := k.bwWaits.filter fun x => x.uid != uid }).endWait uid w.dest w.acq
          (errWord 0x2B)))
      ∧ ((s.cyc d < t ∨ s.releaseBy d w t = true) → exec (.bwTimeout uid) s = .next s))
    ∧ (∀ d m t, s.takeNotice d.val m = some t →
      let n := s.nbInst d.val m.world.toNat m.scope m.tag
      (m.epoch < n.epoch → exec (.nbarrNoticeArrival d m) s = .next t)
      ∧ (n.epoch ≤ m.epoch → s.nbCrowded d.val n = false → exec (.nbarrNoticeArrival d m) s
        = .next (t.nbRun d.val { n with held := n.held ++ [(m.epoch, m.round)] } 20)))
    ∧ (∀ (w : BwWait) due, (∀ t, w.deadline = some t → due ≤ t) → w.status due = 0)
    ∧ (∀ (w : BwWait) due t, w.deadline = some t → t < due → w.status due = errWord 0x2B)
    ∧ ∀ uid d n r, s.nbOf uid = some (d, n, r) →
      (r.lost = true →
        exec (.nbarrTimeout uid true) s = .next ((s.setNb d n.advance).endWait uid r.dest r.acq (errWord 0x2D)))
      ∧ (r.lost = false → exec (.nbarrTimeout uid true) s = .next s)
      ∧ ∀ t, r.deadline = some t → t ≤ s.cyc d →
        exec (.nbarrTimeout uid false) s = .next ((s.setNb d n.advance).endWait uid r.dest r.acq (errWord 0x2B))

/-! ## Events of the engines -/

/-- R258, R279, R287, R297, R303, R306, R322, R336: the engines. The head of a queue starts, and its results are on their way; a
matrix command runs, waits for its ring, or sends its tile; a copy writes piece by piece and then signals and fills, or, aborted,
fills before the `CPABT` that counts it;
the view engine serves refresh and quantisation in turn. -/
def Obligations.EngineEvents : Prop :=
  ∀ (s : State) (d : DieNo),
    (∀ (c : CoreNo) k rest, (s.core d.val c.val).vec = k :: rest → s.vecHeld d.val c.val k = false →
      let r := (s.modCore d.val c.val fun x => { x with vec := rest }).vecJob k.uid d.val c.val k.job
      exec (.vectorCommandStart d c) s = .next (r.1.giveResults k.uid k.dests r.2 k.seq))
    ∧ (∀ (c : CoreNo) k rest, let e := (s.core d.val c.val).mat
      (e.array = none ∨ e.latch = []) → e.queue = k :: rest → e.mayStart k = true →
      let pop := fun (t : State) => t.modMat d.val c.val fun e => { e with queue := e.queue.drop 1 }
      (∀ t v fl nan, s.startMat k d.val c.val = .fin t v fl nan → exec (.matrixCommandStart d c) s
        = .next ((pop t).pushFill k.uid (matFill k v fl nan)))
      ∧ (s.startMat k d.val c.val = .wait → k.op.isLoad = false → exec (.matrixCommandStart d c) s
        = .next ((pop s).modMat d.val c.val fun e => { e with array := some (k, s.cyc d.val), held := e.astage }))
      ∧ (s.startMat k d.val c.val = .send → exec (.matrixCommandStart d c) s
        = .next ((pop s).modMat d.val c.val fun e =>
          { e with sending := some k, since := if s.ringMoves d.val c.val then none else some (s.cyc d.val) })))
    ∧ (∀ (c : CoreNo) k since, (s.core d.val c.val).mat.array = some (k, since) → (s.core d.val c.val).mat.latch ≠ [] →
      exec (.matrixCommandStart d c) s = .next (s.runArray k d.val c.val))
    ∧ (∀ (c : CoreNo) k, let e := (s.core d.val c.val).mat
      let ended := fun (u : State) (v : BitVec 64) =>
        (u.modMat d.val c.val fun e => { e with sending := none, since := none }).pushFill k.uid (matFill k v 0 none)
      e.sending = some k →
      (∀ h rest, e.latch = h :: rest → s.ringTakes d.val c.val = some true → exec (.ringTileArrival d c) s
        = .next (ended ((s.moveTile d.val c.val h).matCharge k.uid (if h.fmt = .t2 then 1536 else 6144)) 0))
      ∧ (s.ringTakes d.val c.val = none → exec (.ringTileArrival d c) s = .next (ended s (errWord 0x36)))
      ∧ ((s.ringTakes d.val c.val = some false ∨ (s.ringTakes d.val c.val = some true ∧ e.latch = [])) →
        exec (.ringTileArrival d c) s
          = .next (s.modMat d.val c.val fun e => { e with since := e.since.orElse fun _ => some (s.cyc d.val) }))
      ∧ ∀ t, e.since = some t → s.ringLate d.val t = true → s.ringMoves d.val c.val = false →
        exec (.ringTimeout d c) s = .next (ended s (errWord 0x37)))
    ∧ (∀ (c : CoreNo) k since, let e := (s.core d.val c.val).mat
      e.since = none → e.array = some (k, since) → s.ringLate d.val since = true → e.latch = [] →
      exec (.ringTimeout d c) s = .next ((s.modMat d.val c.val fun e => { e with array := none, held := none }).pushFill k.uid
        (matFill k (errWord 0x37) 0 none)))
    ∧ (∀ (c : CoreNo) k sch, let e := (s.core d.val c.val).cpy
      e.run = none → e.next = some (k, sch) →
      let t := s.modCpy d.val c.val fun e =>
        { queue := if sch then e.queue else e.queue.drop 1, sched := if sch then e.sched.drop 1 else e.sched,
          run := some { num := s.nextOrder, cmd := k, ended := startEnd k.desc.toNat, landing := false, sent := [],
                        piece := k.offset, abort := none }, alt := !sch }
      let t := { t with nextOrder := s.nextOrder + 1 }
      (startEnd k.desc.toNat = none → k.offset = 0 → exec (.copyCommandStart d c) s = .next (t.writeTags k d.val c.val))
      ∧ ((startEnd k.desc.toNat ≠ none ∨ k.offset ≠ 0) → exec (.copyCommandStart d c) s = .next t))
    ∧ (∀ (c : CoreNo) r, (s.core d.val c.val).cpy.run = some r → r.landing = false →
      (r.ended = none → r.abort = none → s.runWaits d.val r = false →
        exec (.copyPieceWrite d c) s = .next (s.nextPiece d.val c.val r.num r.cmd false))
      ∧ ∀ code off, r.end? = some (code, off) → s.runWaits d.val r = false →
        let t := s.modCpy d.val c.val fun e => { e with run := none }
        (code = 0x44 → exec (.copyCommandComplete d c) s = .next ((t.abortCmd r.cmd off).countAbort r.abort))
        ∧ (code ≠ 0 → code ≠ 0x44 → exec (.copyCommandComplete d c) s = .next (t.copyStatus r.cmd (copyFailed code off)))
        ∧ (code = 0 → r.cmd.member = 0 → exec (.copyCommandComplete d c) s = .next (t.copyStatus r.cmd (copyDone r.cmd 0)))
        ∧ (code = 0 → r.cmd.member ≠ 0 → let q := t.signalBy r.cmd.world r.cmd.member
          exec (.copyCommandComplete d c) s = .next (q.1.copyStatus r.cmd (copyDone r.cmd q.2))))
    ∧ (∀ r rest, (s.die d.val).refresh = r :: rest → ((s.die d.val).quantTurn = false ∨ (s.die d.val).quant = []
        ∨ s.quantWaits d.val = true) → s.refreshHeld d.val r = false →
      exec (.viewRefresh d) s
        = .next ((s.modDie d.val fun k => { k with refresh := rest, quantTurn := true }).serveRefresh r false))
    ∧ ∀ q rest, (s.die d.val).quant = q :: rest → ((s.die d.val).quantTurn = true ∨ (s.die d.val).refresh = []) →
      s.quantWaits d.val = false → s.quantHeld q = false →
      (q.over = true → exec (.quantService d) s = .next ((s.modDie d.val fun k =>
        { k with quant := rest, quantTurn := false }).pushFill q.uid { valueFill q.dest (match q.fail with
          | some (code, i) => copyFailed (BitVec.ofNat 8 code) i
          | none => 0) with flags := q.flags, nan := q.nan.map fun x => x.by q.order }))
      ∧ (q.over = false → let z := s.quantOne d.val q false
        exec (.quantService d) s = .next (z.1.modDie d.val fun k => { k with quant := z.2 :: rest, quantTurn := false }))

/-! ## Events of the fabric and of bulk transfer -/

/-- R346 to R352, R408: requests of other packages are performed once, and acknowledged again when they come again; a part that
is not ready takes none, and a full NI turns one back; flags wait for the counts that they carry; an acknowledgement ends its
request; a request is sent again after its time, or when the port it went by is dead, and fails as dead after the fourth time or
with no live route; lanes are scored; where the replays of a flit fail, data comes as poison and requests fail as dead. -/
def Obligations.FabricEvents : Prop :=
  ∀ s : State,
    (∀ r, let seen := KMap.look (KMap.lookD s.router.seen (senderKey r.srcPkg r.srcDie) []) r.seq
      let known := (s.router.inbound ++ s.router.flags.map (·.req)).any fun x => reqIs x r.srcPkg r.srcDie r.seq
      (s.boot.phase ≠ 1 → exec (.fabricRequestReceive r) s = .next s)
      ∧ (s.boot.phase = 1 →
        (∀ a, seen = some a → exec (.fabricRequestReceive r) s = .next (s.emit (.ack r.srcPkg r.srcDie r.seq a)))
        ∧ (seen = none → known = true → exec (.fabricRequestReceive r) s = .next s)
        ∧ (seen = none → known = false → s.router.released r = true →
          (s.niQueue r.die < 512 → exec (.fabricRequestReceive r) s
            = .next (({ s with router := { s.router with inbound := s.router.inbound ++ [r] } } : State).takeRequest r))
          ∧ (512 ≤ s.niQueue r.die → exec (.fabricRequestReceive r) s
            = .next (({ s with router := s.router.turnedBack r } : State).emit (.ack r.srcPkg r.srcDie r.seq .retry))))
        ∧ (seen = none → known = false → s.router.released r = false → exec (.fabricRequestReceive r) s
          = .next { s with router := { s.router with flags := s.router.flags ++ [{ req := r, since := s.cyc r.die.val }] } })))
    ∧ (∀ seq o, s.outstOf seq = some o →
      (∀ v, exec (.fabricAckArrival seq (.performed v)) s = .next (s.reqDone seq o v))
      ∧ exec (.fabricAckArrival seq .refused) s = .next (s.reqFailed seq o .refused)
      ∧ exec (.fabricAckArrival seq .poisoned) s = .next (s.reqFailed seq o .poisoned)
      ∧ exec (.fabricAckArrival seq .dead) s = .next (s.reqFailed seq o .dead)
      ∧ exec (.fabricAckArrival seq .admitted) s = .next (s.reqAdmitted seq o)
      ∧ (o.req.rlim ≤ o.turned → exec (.fabricAckArrival seq .retry) s = .next (s.reqFailed seq o .exhausted))
      ∧ (o.turned < o.req.rlim → exec (.fabricAckArrival seq .retry) s = .next (s.modOutst seq fun o' =>
        { o' with turned := o.turned + 1, retryAt := some (s.cyc (seq % 8) + 64 * 2 ^ min (o.turned + 1) 6) }))
      ∧ (s.bestPath (seq % 8) o.pkg = none → exec (.fabricResendTimeout seq) s = .next (s.reqFailed seq o .dead))
      ∧ ∀ via, s.bestPath (seq % 8) o.pkg = some via →
        let due := o.sentAt + 8192 ≤ s.cyc (seq % 8) ∨ s.routeDead o.via = true
        (o.retryAt = none → o.admitted = false → due →
          (4 ≤ o.resent → exec (.fabricResendTimeout seq) s = .next ((s.skipFor o).reqFailed seq o .dead))
          ∧ (o.resent < 4 → exec (.fabricResendTimeout seq) s
            = .next ((s.modOutst seq fun x => { x with resent := o.resent + 1, sentAt := s.cyc (seq % 8), via := some via }).emit
              (.request o.req o.pkg via))))
        ∧ ((o.retryAt ≠ none ∨ o.admitted = true ∨ ¬due) → exec (.fabricResendTimeout seq) s = .next s))
    ∧ (∀ pkg die path, exec (.skipNoticeArrival pkg die path) s
      = .next { s with router := s.router.arrived pkg die path.val })
    ∧ (∀ k f, s.router.flags[k]? = some f →
      (s.router.released f.req = true → exec (.orderedFlagRelease k) s = .next ((s.dropFlag k).toNi f.req))
      ∧ (f.since + 65536 ≤ s.cyc f.req.die.val → exec (.orderedFlagTimeout k) s
        = .next ((s.dropFlag k).failFlag f.req)))
    ∧ (∀ port lane,
      exec (.correctedCodeword port lane) s = .next (s.raiseScore port.val lane.val 1)
      ∧ exec (.flitNakReplay port lane) s = .next ((s.raiseScore port.val lane.val 16).emit (.nak port.val lane.val))
      ∧ exec (.stompTail port) s = .next (s.emit (.nak port.val 0)))
    ∧ exec .healthScoreHalving s
      = .next { s with router := { s.router with score := KMap.mapD s.router.score 0 fun n => n / 2 } }
    ∧ (∀ port good, let n := KMap.lookD s.router.kept port.val 0 + 1
      let ended : State := { s with router := { s.router with kept := KMap.del s.router.kept port.val } }
      (good = true → exec (.parityTopup port good) s = .next ended)
      ∧ (good = false → 3 ≤ n → exec (.parityTopup port good) s = .next (ended.emit (.nak port.val 0)))
      ∧ (good = false → n < 3 → exec (.parityTopup port good) s
        = .next { s with router := { s.router with kept := KMap.put s.router.kept port.val n } }))
    ∧ (∀ uid k c e, s.ctx? uid = some c → c.sbuf[k]? = some e →
      (s.mayDrain c k e = true → exec (.crossbarParityError (.store uid k)) s
        = .next ((s.failStore uid (s.entryScope c e) none failDead).unbuffer uid k))
      ∧ (s.mayDrain c k e = false → exec (.crossbarParityError (.store uid k)) s = .next s))
    ∧ (∀ uid k, ∃ t, exec (.crossbarParityError (.fill uid k)) s = .next t
      ∧ ∀ c f, s.ctx? uid = some c → c.fills[k]? = some f → ∃ c', t.ctx? uid = some c'
        ∧ (f.src.carried = true → c'.fills[k]? = some { f with src := .poisoned, flags := 0, nan := none })
        ∧ (f.src.carried = false → c'.fills[k]? = some f))
    ∧ (∀ h o, s.outstOf h = some o →
      exec (.crossbarParityError (.request h)) s = .next ((s.skipFor o).reqFailed h o .dead))
    ∧ (∀ k m, s.net[k]? = some m →
      (m.gen = true → m.chan = 62 → exec (.crossbarParityError (.message k)) s = .next (s.offNet k))
      ∧ ((m.gen = false ∨ m.chan ≠ 62) → exec (.crossbarParityError (.message k)) s
        = .next (((s.offNet k).msgStatus m FabFail.dead.status).taskRefused m)))
    ∧ (∀ d c, exec (.crossbarParityError (.copy d c)) s = .next (s.copyStep d.val c.val true))
    ∧ ∀ d, exec (.crossbarParityError (.view d)) s = .next (s.viewStep d.val true)
      ∧ exec (.crossbarParityError (.quant d)) s = .next (s.quantStep d.val true)
      ∧ ∀ id p, s.send? d.val id = some p →
        exec (.crossbarParityError (.send d id)) s = .next (s.endSend d.val id (errWord 0x22) false)

/-- R355 to R360, R363: a request to send is matched, kept or turned back, and one of another job is refused; the grant scheduler hands out tokens by priority, a
token that lapses is granted again, and a post whose third token lapses fills orphaned (0x64); data under a live token
is written; drop and cancel notices end what they name, but a transfer whose last byte has been written and one that has ended already,
and a token whose send is being cancelled is answered with the cancel. -/
def Obligations.BulkEvents : Prop :=
  ∀ (s : State) (d : DieNo),
    (∀ r, r.srcPkg ≠ s.pkg → s.boot.phase = 1 → (s.job = 0 ∨ r.job.toNat ≠ s.job) →
      exec (.rtsArrival d r) s = .next (s.answerSend r.srcPkg r.srcDie r.sendId .refused))
    ∧ (∀ r, r.srcPkg ≠ s.pkg → s.boot.phase = 1 → s.job ≠ 0 → r.job.toNat = s.job →
      (∀ id p, (s.die d.val).ni.postFor r = some (id, p) →
        exec (.rtsArrival d r) s = .next (s.matchPost d.val id p r))
      ∧ ((s.die d.val).ni.postFor r = none → (s.die d.val).ni.rts.length < 256 →
        exec (.rtsArrival d r) s = .next (s.modNi d.val fun n => { n with rts := n.rts ++ [{ r with data := [] }] }))
      ∧ ((s.die d.val).ni.postFor r = none → 256 ≤ (s.die d.val).ni.rts.length →
        exec (.rtsArrival d r) s = .next (s.answerSend r.srcPkg r.srcDie r.sendId .retry)))
    ∧ (∀ id p h, let t := (s.die d.val).ni.posts.foldl (fun (s : State) p => s.finishPost d.val p.1) s
      (t.die d.val).ni.tokens.length < 1024 → t.nextGrant d.val = some (id, p) → p.hit = some h → h.again = [] →
      h.pkg ≠ s.pkg → t.pkg = s.pkg →
      let len := min 16384 (takes p h - h.next)
      let seq := (t.die d.val).ni.nextTok
      ∃ u, exec (.tokenIssue d) s
          = .next (u.emit (.token h.pkg.toNat h.die.val { sendId := h.sendId, seq := seq, off := h.next, len := len }))
        ∧ u = (t.modMatch d.val id fun h => match h.again with
            | _ :: rs => { h with again := rs }
            | [] => { h with next := h.next + len }).modNi d.val fun n =>
          { n with nextTok := if seq + 1 = 0 then 1 else seq + 1, served := KMap.put n.served p.prio.val id,
                   tokens := n.tokens ++ [{ seq := seq, post := id, off := h.next, len := len, got := 0, came := false,
                                            issued := t.cyc d.val }] })
    ∧ (∀ k t, (s.die d.val).ni.tokens[k]? = some t →
      (t.came = false → t.issued + 4096 < s.cyc d.val →
        let u := (s.modNi d.val fun n => { n with tokens := n.tokens.eraseIdx k }).modMatch d.val t.post fun h =>
          { h with lapses := h.lapses + 1, again := h.again ++ [(t.off, t.len)] }
        ∀ h, (u.post? d.val t.post).bind (fun p => p.hit) = some h →
          (3 ≤ h.lapses → exec (.tokenExpiry d k) s = .next (u.endPost d.val t.post (errWord 0x64) false true))
          ∧ (h.lapses < 3 → exec (.tokenExpiry d k) s = .next u))
      ∧ ((t.came = true ∨ s.cyc d.val ≤ t.issued + 4096) → exec (.tokenExpiry d k) s = .next s))
    ∧ (∀ f, exec (.bulkDataArrival d f) s = .next (s.bulkArrive d.val f)
      ∧ ((s.die d.val).ni.tokens.find? (fun t => t.seq == f.seq) = none → exec (.bulkDataArrival d f) s = .next s))
    ∧ (∀ t p, s.send? d.val (t.sendId / 8) = some p → p.cancel = none → t.off + t.len ≤ blLen p.desc.toNat →
      (∀ code, s.bulkRead d.val p t.off t.len = .error code →
        exec (.tokenArrival d t) s = .next (s.endSend d.val (t.sendId / 8) (errWord code) false))
      ∧ ∀ u bs, s.bulkRead d.val p t.off t.len = .ok (u, bs) → exec (.tokenArrival d t) s
        = .next ((u.modSend d.val (t.sendId / 8) fun q =>
            { q with sent := max q.sent (t.off + t.len), begun := true }).sendFlits (blPkg p.desc.toNat)
          (bsDie p.desc.toNat) t.seq (packets t.len t.off bs)))
    ∧ (∀ t p, s.send? d.val (t.sendId / 8) = some p → p.cancel.isSome = true → blPkg p.desc.toNat ≠ s.pkg.toNat →
      exec (.tokenArrival d t) s = .next (s.emit (.cancel (blPkg p.desc.toNat) (bsDie p.desc.toNat)
        (.post (sendName s.pkg.toNat d.val t.sendId)))))
    ∧ ∀ id, exec (.dropNoticeArrival d (.send id)) s = .next (s.endSend d.val (id / 8) (errWord 0x64) false)
      ∧ exec (.cancelNoticeArrival d (.send id)) s = .next (s.endSend d.val (id / 8) (errWord 0x65) false)
      ∧ ((s.sendWhole d.val id = true ∨ s.knowsSend d.val id = false) →
        exec (.cancelNoticeArrival d (.post id)) s = .next s)
      ∧ (s.sendWhole d.val id = false → s.knowsSend d.val id = true → exec (.cancelNoticeArrival d (.post id)) s = .next ((s.cancelPost d.val id).emit
        (.cancel (id / 8 % 2 ^ 14) (id % 8) (.send (id / 2 ^ 17)))))

/-! ## Events of the Trust Controller, the host and the partitions -/

/-- R367, R376: SPDM requests outside a session are answered at once while the part is ready and no earlier request waits;
the answer to GET_VERSION names version 1.3 and that to NEGOTIATE_ALGORITHMS the one set that is offered (in the layouts of log 22);
the answers to requests of certificate slots other than 0 are errors; `KEY_IMPORT` in a secured session puts its key into its
slot. A request behind an earlier one that is not answered, for evidence or of SPDM, joins the queue, and one that finds 64
in it is answered Busy. -/
def Obligations.SpdmRequests : Prop :=
  ∀ (s : State) (r : SpdmReq), s.boot.phase = 1 →
    (s.responderLoad < 64 → s.trust.queue = [] → s.evidBefore s.nextOrder = false →
      let t : State := { s with nextOrder := s.nextOrder + 1, trust := { s.trust with queue := [] } }
      (r.session = none →
        exec (.getVersion r) s = .next (t.spdmReply 0x04 ([0, 0, 0, 1] ++ leBytes 2 0x1300)) ∧ exec (.getCapabilities r) s = .next (t.spdmAnswer 0x61 r)
        ∧ exec (.negotiateAlgorithms r) s = .next (t.spdmReply 0x63 spdmAlgorithms) ∧ exec (.getDigests r) s = .next (t.spdmAnswer 0x01 r)
        ∧ (r.slot ≠ 0 → exec (.getCertificate r) s = .next (t.spdmError 0x01) ∧ exec (.challenge r) s = .next (t.spdmError 0x01)
          ∧ exec (.getMeasurements r) s = .next (t.spdmError 0x01) ∧ exec (.keyExchange r) s = .next (t.spdmError 0x01))
        ∧ (r.slot = 0 → exec (.getCertificate r) s = .next (t.spdmAnswer 0x02 r)
          ∧ exec (.challenge r) s = .next (t.spdmSigned 0x03 r (Config.spdm 0x03 r.payload t.draws))
          ∧ ((measIndex r = 0 ∨ t.measBlocks (measIndex r) ≠ []) → exec (.getMeasurements r) s
            = .next (t.spdmSigned 0x60 r ([BitVec.ofNat 8 (if measIndex r = 0 then 14 else (t.measBlocks (measIndex r)).length)]
              ++ (t.measBlocks (measIndex r)).flatten)))
          ∧ (s.trust.sessions.length < 4 → exec (.keyExchange r) s = .next (({ t with trust := { t.trust with
              sessions := KMap.put s.trust.sessions s.trust.nextSess false, nextSess := s.trust.nextSess + 1 } } :
                State).spdmAnswer 0x64 r)))
        ∧ exec (.finish r) s = .next (t.spdmError 0x04) ∧ exec (.heartbeat r) s = .next (t.spdmError 0x04)
        ∧ exec (.endSession r) s = .next (t.spdmError 0x04) ∧ exec (.keyImport r) s = .next (t.spdmError 0x04)
        ∧ exec (.unsupportedSpdmRequest r) s = .next (t.spdmError 0x07))
      ∧ ∀ n, r.session = some n →
        let ifOk := fun (code : Nat) (u : State) => if Config.spdmOk code r.payload then u else t.spdmError 0x06
        (KMap.look s.trust.sessions n = some false → exec (.finish r) s = .next (ifOk 0xE5
          (({ t with trust := { t.trust with sessions := KMap.put s.trust.sessions n true } } : State).spdmAnswer 0x65 r)))
        ∧ (KMap.look s.trust.sessions n = some true →
          exec (.heartbeat r) s = .next (ifOk 0xE8 (t.spdmAnswer 0x68 r))
          ∧ exec (.endSession r) s = .next (ifOk 0xEC (({ t with trust :=
            { t.trust with sessions := KMap.del s.trust.sessions n } } : State).spdmAnswer 0x6C r))
          ∧ ∀ b key, r.payload = b :: key → key.length = 32 → b.toNat < 16 →
            exec (.keyImport r) s = .next (ifOk 0xFE (({ t with trust := { t.trust with
              slots := KMap.putD s.trust.slots b.toNat 0 (BitVec.ofNat 256 (leNat key)) } } : State).spdmAnswer 0x7E r))))
    ∧ let all : List (Instr × SpdmKind) :=
        [(.getVersion r, .getVersion), (.getCapabilities r, .getCapabilities), (.negotiateAlgorithms r, .negotiateAlgorithms),
         (.getDigests r, .getDigests), (.getCertificate r, .getCertificate), (.challenge r, .challenge),
         (.getMeasurements r, .getMeasurements), (.keyExchange r, .keyExchange), (.finish r, .finish),
         (.heartbeat r, .heartbeat), (.endSession r, .endSession), (.keyImport r, .keyImport),
         (.unsupportedSpdmRequest r, .unsupported)]
      ∀ p ∈ all, (64 ≤ s.responderLoad → exec p.1 s = .next (s.spdmError 0x03))
        ∧ (s.responderLoad < 64 → s.evidBefore ((s.trust.queue.map (·.order)).headD s.nextOrder) = true →
          exec p.1 s = .next { s with nextOrder := s.nextOrder + 1, trust := { s.trust with
            queue := s.trust.queue ++ [{ kind := p.2, req := r, order := s.nextOrder }] } })

/-- R144, R147, R148, R385, R386: a tree command of the host acts on space 0 as the instruction of its opcode, and its status
goes to its sink, a `MAP` or `GRANT` into a space past the 16-bit ids answers bad_space (0x15); any other command answers bad_extent (0x14); a withdrawal, and a grant, whose nodes are settled ends, and a
migration exchanges its memory unless its source has been cut. -/
def Obligations.HostTreeCommands : Prop :=
  ∀ s : State,
    (∀ v, exec (.launchDoorbell v) s = .next (s.writePage 0 launchPage v.toNat true true))
    ∧ (∀ n, s.treeCommand = some (some n) →
      let b := bits n 191 128
      let c := bits n 127 64
      let k := s.treeSink n
      let t := s.bellDone
      let late := fun (r : State × Option (BitVec 64)) => match r.2 with
        | some v => r.1.sink k v
        | none => r.1
      (treeRes0 n = false →
        (∀ q, (bits n 263 256 = 0xD0 ∨ bits n 263 256 = 0xD1) → t.hostRequest b = some q → 2 ^ 16 ≤ c →
          (bits n 263 256 = 0xD0 → exec .hostMap s = .next (t.sink k (errWord 0x15)))
          ∧ (bits n 263 256 = 0xD1 → exec .hostGrant s = .next (t.sink k (errWord 0x15))))
        ∧ (∀ q, bits n 263 256 = 0xD0 → t.hostRequest b = some q → c < 2 ^ 16 →
          exec .hostMap s = .next ((t.treeMap q 0 c).1.sink k (t.treeMap q 0 c).2))
        ∧ (∀ q, bits n 263 256 = 0xD1 → t.hostRequest b = some q → c < 2 ^ 16 →
          exec .hostGrant s = .next (late (t.treeGrant q 0 c k)))
        ∧ (bits n 263 256 = 0xD2 → exec .hostUnmap s = .next (late (t.treeUnmap 0 b c k)))
        ∧ (bits n 263 256 = 0xD3 → exec .hostProbe s = .next (t.sink k (t.treeProbe 0 b c)))
        ∧ (bits n 263 256 = 0xD5 → exec .hostSpace s = .next ((t.treeSpace 0 b).1.sink k (t.treeSpace 0 b).2))
        ∧ (bits n 263 256 = 0xD6 → exec .hostRetiresp s = .next (late (t.treeRetire 0 b k))))
      ∧ ((treeRes0 n = true ∨ bits n 263 256 ∉ treeOps) → exec .badTreeCommand s = .next (t.sink k (errWord 0x14))))
    ∧ (∀ k w, s.walks[k]? = some w → s.settled w.nodes (s.backOf w.nodes) = true →
      let q := s.draw
      exec (.unmapWalkDone k) s = .next ((({ q.2 with walks := q.2.walks.eraseIdx k } : State).freeNodes w.nodes).sinkNow w.sink
        (walkStatus w.nodes.length q.1)))
    ∧ (∀ k g, s.grants[k]? = some g → s.settled g.nodes g.parts = true → exec (.unmapWalkDone (s.walks.length + k)) s
      = .next (({ s with grants := s.grants.eraseIdx k } : State).sinkNow g.sink g.value))
    ∧ ∀ k m, s.moves[k]? = some m →
      (m.ended = true → exec (.movepgSwitch k) s = .next s)
      ∧ (m.ended = false → m.cut = true → exec (.movepgSwitch k) s = .next ((s.endMove k m).sink m.sink (errWord 0x19)))
      ∧ (m.ended = false → m.cut = false → exec (.movepgSwitch k) s
        = .next (((s.switchPage (s.sinkWorld m.sink) m.pairs).endMove k m).sink m.sink 0))

/-- R394 to R405, R410: the partition command at the head of the queue, served by a part that is ready, and what follows a
recall, a power cycle, a scrub and a teardown. A command with bits outside its arguments answers 0x80. -/
def Obligations.PartitionCommands : Prop :=
  ∀ s : State,
    (∀ v rest, s.partCmds = v :: rest → s.boot.phase = 1 →
      let n := v.toNat
      let t : State := { s with partCmds := rest }
      (partArgsOk n = false → exec .badPartitionCommand s = .next (t.partResult (errWord 0x80)))
      ∧ (partArgsOk n = true →
        (partOp n = 2 →
          (∀ e, t.lendTest (bits n 6 0) (bits n 11 8) = .error e → exec .lend s = .next (t.partResult (errWord e)))
          ∧ ∀ p, t.lendTest (bits n 6 0) (bits n 11 8) = .ok p →
            let y : Lend :=
              { slice := bits n 6 0, lender := p, borrower := bits n 11 8,
                deadline := if bits n 47 16 = 0 then t.partRecall p else bits n 47 16, recalled := none }
            exec .lend s = .next (({ t with
              lends := t.lends ++ [y], taken := t.taken.filter fun x => x != (bits n 6 0, bits n 11 8) } : State).partResult 0))
        ∧ (partOp n = 3 →
          (t.lendOf (bits n 6 0) = none → exec .recall s = .next (t.partResult (errWord 0x83)))
          ∧ ∀ l, t.lendOf (bits n 6 0) = some l → let u := t.startRecall (bits n 6 0) l.deadline
            exec .recall s = .next { u with partWaits := u.partWaits ++ [.recall (bits n 6 0)] })
        ∧ (partOp n = 4 →
          (KMap.has t.worlds (bits n 15 0) = true → exec .kill s = .next ((t.stopWorld (bits n 15 0) .kill 0).partResult 0))
          ∧ (KMap.has t.worlds (bits n 15 0) = false → exec .kill s = .next (t.partResult (errWord 0x84))))
        ∧ (partOp n = 5 →
          let a := t.pageWord (partPage + 0x410)
          let len := t.pageWord (partPage + 0x418)
          let ok := a % 4096 = 0 ∧ len % 4096 = 0 ∧ len ≠ 0 ∧ t.oneRange a len true = true
          (ok → exec .scrub s = .next { t with scrubs := t.scrubs ++ [{ base := a, len := len, cmd := true, kept := [] }] })
          ∧ (¬ok → exec .scrub s = .next (t.partResult (errWord 0x85))))
        ∧ (partOp n = 6 → let r := t.namedRegion
          (t.region? r = none → exec .preempt s = .next (t.partResult (errWord 0x86)))
          ∧ ∀ g, t.region? r = some g →
            let mask := t.pageWord (partPage + 0x430) + t.pageWord (partPage + 0x438) * 2 ^ 64
            let u := t.requestPre r mask (bits n 31 0) .host
            exec .preempt s
              = .next ({ u with partWaits := u.partWaits ++ [.preempt (u.preTodo r mask)] } : State).preemptDone)
        ∧ (partOp n = 7 → let r := t.namedRegion
          let known := (t.region? r).isSome = true ∧ (t.clusters.any fun k => k.2.pre.any fun p => p.region == r) = true
          (known → exec .resume s = .next (((t.resumeAll (fun _ o => o == .host) (t.descendants r)).preemptDone).partResult 0))
          ∧ (¬known → exec .resume s = .next (t.partResult (errWord 0x86))))
        ∧ (partOp n = 1 →
          let p := bits n 3 0
          let mine := t.launches.filter fun l => t.partOfRegion l.2.region == p
          let home := (List.range 128).filter fun k => bits (t.partHome p) k k == 1 && (t.lendOf k).isNone
          let a : State := { t with resetting := KMap.put t.resetting p (), partWaits := t.partWaits ++ [.reset p] }
          let b := (mine.filter fun l => l.2.stage == .opening).foldl (fun (s : State) l => s.refuseOpening l.1 l.2 9) a
          let e := ((mine.filter fun l => l.2.stage != .opening).map fun l => l.2.world).dedup.foldl
            (fun (s : State) w => s.stopWorld w .reset 0) b
          let f := (e.lends.filter fun l => l.borrower == p).foldl (fun (s : State) l => s.startRecall l.slice 0) e
          exec .reset s = .next ({ f with
            cycling := f.cycling ++ (home.filter fun k => !(f.isCycling k)).map fun k => (k, .reset p) } : State).finishResets)))
    ∧ (∀ (slice : SliceNo) l t, s.lendOf slice.val = some l → l.recalled = some t → t ≤ s.cyc (slice.val / 16) →
      s.isCycling slice.val = false →
      let due := (s.cluster (slice.val / 16) (slice.val % 16)).pre.filter fun p =>
        p.stage != .out && p.owners.contains (.recall slice.val)
      let v := due.foldl (fun (s : State) p =>
        s.finishChoice (slice.val / 16) (slice.val % 16) p.region (match p.choice with
          | some c => c.val
          | none => 2)) s
      let u := v.cutSlice slice.val
      exec (.recallDeadline slice) s = .next { u with cycling := u.cycling ++ [(slice.val, .recall l.lender)] })
    ∧ (∀ (slice : SliceNo) p, s.cycling.find? (fun q => q.1 == slice.val) = some (slice.val, .recall p) →
      let u := s.initSlice slice.val
      exec (.powerCycleComplete slice) s
        = .next ((({ u with cycling := u.cycling.filter fun q => q.1 != slice.val } : State).sliceBack slice.val).finishResets))
    ∧ (∀ (slice : SliceNo) p, s.cycling.find? (fun q => q.1 == slice.val) = some (slice.val, .reset p) →
      s.partBusy p = false → (s.lends.any fun l => l.borrower == p) = false →
      let u := ((s.sliceCtxs slice.val).foldl (fun (s : State) x => s.cutOff x) s).initSlice slice.val
      exec (.powerCycleComplete slice) s
        = .next ({ u with cycling := u.cycling.filter fun q => q.1 != slice.val } : State).finishResets)
    ∧ (∀ k q, s.scrubs[k]? = some q →
      let u := ({ s with scrubs := s.scrubs.eraseIdx k } : State).scrubDone q
      exec (.scrubComplete k) s = .next (if q.cmd then u.partResult 0 else u))
    ∧ (∀ (world : BitVec 16) x kind cause, KMap.look s.worlds world.toNat = some x → x.tear = some (kind, cause) →
      s.lastWrites world.toNat = true →
      let w := world.toNat
      let a := x.roots.foldl (fun (s : State) q => s.setField w q.1 109 108 1) s
      let b := (x.roots.map (·.2)).dedup.foldl (fun (s : State) q => s.writeReport w x kind cause q.1 q.2) a
      let h := b.retireSpaces w
      let mine := h.launches.filter fun p => p.2.world == w
      let e := mine.foldl (fun (s : State) p => s.fillDone p.2 w (errWord 0x0D)) h
      exec (.teardownReport world) s = .next (mine.foldl (fun (s : State) p => s.endLaunch p.1 p.2) e).finishResets)
    ∧ (∀ p word v, (s.tdiDrops partPage = true → exec (.partitionEntryWrite p word v) s = .next s)
      ∧ (s.tdiDrops partPage = false → exec (.partitionEntryWrite p word v) s
        = .next ((s.writePage 0 (partPage + 64 * p.val + 8 * word.val) v.toNat true true).pageChanged
          (partPage + 64 * p.val + 8 * word.val) 8)))
    ∧ (∀ k word v world trusted, exec (.debugEntryWrite k word v world trusted) s
      = .next ((s.writePage world.toNat (debugPage + 16 * k.val + 8 * word.val) v.toNat true trusted).pageChanged
        (debugPage + 16 * k.val + 8 * word.val) 8))
    ∧ ∀ a v trusted kind, pageKind a.toNat = some kind → a.toNat % 8 = 0 →
      (((kind = .privatePage ∧ trusted = false) ∨ s.tdiDrops a.toNat = true) → exec (.registerWrite a v trusted) s = .next s)
      ∧ ((kind ≠ .privatePage ∨ trusted = true) → s.tdiDrops a.toNat = false →
        exec (.registerWrite a v trusted) s = .next ((s.writePage 0 a.toNat v.toNat true trusted).pageChanged a.toNat 8))

/-- R413 to R419: a rail outside its range and a reading above 110 degrees put the package into reset with their causes; a
reading sets the issue cycles that its die skips, and from 105 to 110 degrees the thermal alert; a boot stays in reset while a
rail is out of its range, else the image in the flash, where it verifies, leaves the part ready; an image in the load window that
verifies does so too; a part with a
world open does not sleep; a sleeping part wakes into a reset with cause 3. -/
def Obligations.PowerEvents : Prop :=
  ∀ s : State,
    (∀ rail mv, (mv < (railRange rail).1 ∨ (railRange rail).2 < mv) →
      let t := if s.boot.phase = 0 then s else s.packageReset 1
      exec (.railFault rail mv) s = .next { t with boot := { t.boot with
        rails := if s.boot.rails.contains rail then s.boot.rails else s.boot.rails ++ [rail] } })
    ∧ (∀ rail mv, (railRange rail).1 ≤ mv → mv ≤ (railRange rail).2 → exec (.railFault rail mv) s
      = .next { s with boot := { s.boot with rails := s.boot.rails.filter fun r => r != rail } })
    ∧ (∀ d t, 880 < t.toNat → exec (.thermalReading d t) s = .next (s.packageReset 2))
    ∧ (∀ d t, t.toNat ≤ 880 → ∃ u, exec (.thermalReading d t) s = .next u
      ∧ (u.die d.val).skip = (if t.toNat < 760 then 0 else if t.toNat < 840 then 1 + (t.toNat - 760) / 16 else 7)
      ∧ u.ctxs = s.ctxs ∧ u.mem = s.mem ∧ (840 ≤ t.toNat → u.boot.alert = true)
      ∧ (t.toNat < 840 → (∀ p ∈ s.temps, alertAt p.2.toNat = false) → u.boot.alert = false))
    ∧ (∀ cause good cxl dead, let t := if s.boot.phase = 0 then s else s.packageReset (resetCode cause)
      (s.boot.rails ≠ [] → exec (.powerOnReset cause good cxl dead) s = .next t)
      ∧ (s.boot.rails = [] → good = Config.imageOk s.boot.flash →
        exec (.powerOnReset cause good cxl dead) s = .next (if good then t.bootOn false cxl dead
          else { t with boot := { t.boot with phase := 2, verified := false } })))
    ∧ ∀ q rest, s.sysReqs = q :: rest → let t : State := { s with sysReqs := rest }
      (q.1 = 8 → q.2 = 1 →
        (s.boot.phase = 1 → s.worldOpenNow = true →
          exec .sleepRequest s = .next { t with boot := { s.boot with result := errWord 0x16 } })
        ∧ (s.boot.phase = 1 → s.worldOpenNow = false → exec .sleepRequest s = .next t.fallAsleep)
        ∧ (s.boot.phase ≠ 1 → exec .sleepRequest s = .next t))
      ∧ (q.1 = 8 → q.2 = 2 → (s.boot.phase = 3 → exec .wake s = .next (t.packageReset 3))
        ∧ (s.boot.phase ≠ 3 → exec .wake s = .next t))
      ∧ (q.1 = 0x18 → ∀ good cxl dead,
        good = (!s.boot.image.isEmpty && Config.imageOk s.boot.image) →
        (s.boot.phase = 2 → good = true → exec (.recoveryReload good cxl dead) s = .next (t.bootOn true cxl dead))
        ∧ ((s.boot.phase ≠ 2 ∨ good = false) → exec (.recoveryReload good cxl dead) s = .next t))

/-! ## Registers, operands and the guard (R32 to R37, R52 to R58) -/

/-- R36, R52, R55, R56: what a write of a register leaves, x0 and p0 included: the value, full, not pending, not poisoned;
every other register keeps its value and its bits. A long producer leaves its destination empty and pending with its
value, and a poisoned fill leaves it full, with value zero and poison. -/
def Obligations.RegisterFile : Prop :=
  ∀ (c : Context), KMap.sorted c.x = true → KMap.sorted c.v = true →
    (c.getX 0 = 0 ∧ c.isFull (.x 0) = true ∧ c.getP 0 = true ∧ c.isFull (.p 0) = true)
    ∧ (∀ (r n : Fin 64) a, (c.setX r a).getX n.val = if n = r ∧ r ≠ 0 then a else c.getX n.val)
    ∧ (∀ (r n : Fin 32) a, (c.setV r a).getV n.val = if n = r then a else c.getV n.val)
    ∧ (∀ (r n : Fin 8) b, (c.setP r b).getP n.val = if n = r ∧ r ≠ 0 then b else c.getP n.val)
    ∧ (∀ (r n : AnyReg) a,
      (c.setAny r a).isFull n = (n == r || c.isFull n) ∧ (c.setAny r a).isPend n = (n != r && c.isPend n)
      ∧ ((r = n → r ≠ .x 0) → (c.setAny r a).isPois n = (n != r && c.isPois n)))
    ∧ (∀ r n : AnyReg,
      (c.pend r).isFull n = (if n = r ∧ r ≠ .x 0 ∧ r ≠ .p 0 then false else c.isFull n)
      ∧ (c.pend r).isPend n = (n == r || c.isPend n) ∧ (c.pend r).isPois n = c.isPois n
      ∧ (c.pend r).x = c.x ∧ (c.pend r).v = c.v ∧ (c.pend r).p = c.p)
    ∧ (∀ r n : AnyReg, (c.setPois r).isFull n = (n == r || c.isFull n))
    ∧ (∀ r n : Fin 64, (r ≠ 0 → (c.setPois (.x r)).isPois (.x n) = (n == r || c.isPois (.x n)))
      ∧ (c.setPois (.x r)).getX n.val = if n = r then 0 else c.getX n.val)
    ∧ ∀ r n : Fin 32, (c.setPois (.v r)).isPois (.v n) = (n == r || c.isPois (.v n))
      ∧ (c.setPois (.v r)).getV n.val = if n = r then 0 else c.getV n.val

/-- R57, R58: a line of the image holds its registers, and the control line its fields, as the layout places them: taken
back from the 64 bytes, they are what they were. Bit 0 of x_full, p_full and p_val reads 1, bit 0 of x_poison 0; the bits of ar.flags, ar.nanfmt and ar.nanpos that R64
reserves come back zero (R10). -/
def Obligations.ImageLines : Prop :=
  ∀ (c k : Context), KMap.sorted k.x = true → KMap.sorted k.v = true →
    (∀ n r : Nat, n < 8 → (c.lineBytes n).length = 64
      ∧ (k.ofLine n (c.lineBytes n)).getX r = if r / 8 = n then c.getX r else k.getX r)
    ∧ (∀ n : Fin 8, ∀ i : Fin 8, ((c.lineBytes n.val).drop (8 * i.val)).take 8 = leBytes 8 (c.getX (8 * n.val + i.val)).toNat)
    ∧ (∀ r : Fin 32, c.lineBytes (8 + 2 * r.val) ++ c.lineBytes (9 + 2 * r.val) = leBytes 128 (c.getV r.val).toNat
      ∧ ((k.ofLine (8 + 2 * r.val) (c.lineBytes (8 + 2 * r.val))).ofLine (9 + 2 * r.val) (c.lineBytes (9 + 2 * r.val))).getV
        r.val = c.getV r.val)
    ∧ (c.lineBytes 72).length = 64
    ∧ (let y := { k with
        xFull := c.xFull ||| 1, vFull := c.vFull, p := c.p ||| 1, pFull := c.pFull ||| 1, srmode := c.srmode,
        xPois := c.xPois &&& ~~~1, vPois := c.vPois, bwto := c.bwto, flags := c.flags &&& 0x1FF,
        nanfmt := c.nanfmt &&& 0x8FFF, rlim := c.rlim, cause := c.cause, causeOp := c.causeOp,
        nanpos := c.nanpos &&& 0xFFFFFFFFFFFF, trapPc := c.trapPc, trapAddr := c.trapAddr }
      k.ofLine 72 (c.lineBytes 72) = { y with kept := y.control })
    ∧ let n := leNat (c.lineBytes 72)
      bits n 511 448 = c.trapAddr.toNat ∧ bits n 447 384 = c.trapPc.toNat ∧ bits n 383 320 = c.nanpos.toNat
        ∧ bits n 319 312 = c.causeOp.toNat ∧ bits n 311 304 = c.cause.toNat ∧ bits n 303 288 = c.rlim.toNat
        ∧ bits n 287 272 = c.nanfmt.toNat ∧ bits n 271 256 = c.flags.toNat ∧ bits n 255 224 = c.bwto.toNat
        ∧ bits n 223 192 = c.vPois.toNat ∧ bits n 191 128 = c.xPois.toNat ∧ bits n 127 113 = 0
        ∧ bits n 112 112 = c.srmode.toNat ∧ bits n 111 104 = c.pFull.toNat ∧ bits n 103 96 = c.p.toNat
        ∧ bits n 95 64 = c.vFull.toNat ∧ bits n 63 0 = c.xFull.toNat

/-- R37: the guard. An empty guard predicate blocks the context; a false guard retires the instruction as a no-op; p0 is
always full and true, so `?!p0` is never true. Decode checks come before the guard: a word that decodes to no
instruction, and an instruction that its context may not execute, fault whatever the guard. -/
def Obligations.Guard : Prop :=
  ∀ (s : State) (c : Context), s.ctx? s.issuing = some c →
    (∀ (i : Instr) ctl loc, i.hints = some (ctl, loc) → privilegedFor i c = false →
      (c.isFull (.p ctl.pred) = false → exec i s = .next (s.blocked s.issuing .reg))
      ∧ (c.slot.isSome = true → c.isFull (.p ctl.pred) = true → guardTrue ctl c = false → s.completes ctl c i c))
    ∧ (c.isFull (.p 0) = true ∧ c.getP 0 = true)
    ∧ (∀ ctl : Ctl, ctl.pred = 0 → guardTrue ctl c = !ctl.neg)
    ∧ (∀ i w, privilegedFor i c = true → encode i = some w →
      exec i s = .next (s.takeFault s.issuing (w.toNat / 2 ^ 88) causePrivileged 0 c.pc))
    ∧ ∀ u w e bs err, s.boundaryFault c = none → s.fetch c = .word u w e bs → decode w = .error err →
      runIssued s = .next (u.takeFault u.issuing (w.toNat / 2 ^ 88) causeIllegal 0 c.pc)

/-- R54, R55: the sources and destinations of an instruction whose guard is true and whose registers' lines are in the
register cache, for every meaning that goes through `issue`: an empty source with bit [18] set faults with empty_operand
without waiting for the others, another empty source blocks, a full source with its poison bit set faults with poison, and
a pending destination blocks. -/
def Obligations.OperandRules : Prop :=
  ∀ (op : Nat) (ctl : Ctl) (rd : List Src) (wr : List AnyReg) (s : State) (c : Context)
    (body : Nat → Context → State → Res),
    s.ctx? s.issuing = some c → c.isFull (.p ctl.pred) = true → guardTrue ctl c = true →
    (∀ n ∈ namedLines (rd.map (·.reg)) ++ namedLines wr, KMap.has c.lines n = true) →
    let out := issue op ctl noPriv rd wr s body
    ((∃ r ∈ rd, r.bang = true ∧ c.isFull r.reg = false) → out = .next (s.takeFault s.issuing op causeEmpty 0 c.pc))
    ∧ ((∀ r ∈ rd, r.bang = true → c.isFull r.reg = true) → (∃ r ∈ rd, c.isFull r.reg = false) →
      out = .next (s.blocked s.issuing .reg))
    ∧ ((∀ r ∈ rd, c.isFull r.reg = true) → (∃ r ∈ rd, c.isPois r.reg = true) →
      out = .next (s.takeFault s.issuing op causePoison 0 c.pc))
    ∧ ((∀ r ∈ rd, c.isFull r.reg = true ∧ c.isPois r.reg = false) → (∃ r ∈ wr, c.isPend r = true) →
      out = .next (s.blocked s.issuing .reg))

/-- R32, R33: the sequential successor of a PC, and the target of a relative branch in slot-linear numbering, which is never
misaligned; a target in memory that is not mapped executable faults at the branch. -/
def Obligations.SuccessorAndTargets : Prop :=
  (∀ p : BitVec 64, (p.toNat % 8 < 4 → (succPc p).toNat = p.toNat + 1)
    ∧ (4 ≤ p.toNat % 8 → (succPc p).toNat = (p.toNat / 64 * 64 + 64) % 2 ^ 64)
    ∧ (badPc p = true ↔ 5 ≤ p.toNat % 8 ∨ p.toNat / 8 % 8 ≠ 0) ∧ (badPc p = false → badPc (succPc p) = false))
  ∧ (∀ (p : BitVec 64) (d : BitVec 22), badPc p = false →
    badPc (relTarget p d) = false
    ∧ (linPc (relTarget p d) : Int) = ((linPc p : Int) + d.toInt) % (5 * 2 ^ 58 : Int)
    ∧ (relTarget p d).toNat / 64 = linPc (relTarget p d) / 5 ∧ (relTarget p d).toNat % 64 = linPc (relTarget p d) % 5)
  ∧ ∀ (s : State) (c : Context) (ctl : Ctl) (d : BitVec 22), s.ready c ctl [] [] → badPc c.pc = false →
    let t := relTarget c.pc d
    let mapped := s.resolveGlobal c.world c.space (c.slot == some 7) (t.toNat / 64 * 64) 64 64 .ex
    (∀ e, mapped = .error e → s.faults c (.bra ctl d) 0x01 e.1 e.2)
    ∧ ∀ a, mapped = .ok a → s.goesTo ctl c (.bra ctl d) c t

/-! ## Encodings (R34 to R50) -/

/-- R34, R35, R42 to R50: words of the spec's worked encodings decode to the instructions that the spec names. -/
def Obligations.DecodedWords : Prop :=
  let z : Ctl := { neg := false, pred := 0, stall := 0, yield := false, reuse := false, loc := 0 }
  let reads := fun (w : Nat) (i : Instr) => decodeTableWord 96 w = some i
  reads 0x2B0900101000002000400000 (.cmp z .w64 .ne 1 (.x ⟨2, false⟩) (.i 0))
  ∧ reads 0x0110007FFFFD000000000000 (.bra { z with pred := 1 } (BitVec.ofInt 22 (-3)))
  ∧ reads 0x1001000030000010007FFFFB (.add z .w32 .sat 3 (.x ⟨1, false⟩) (.i (BitVec.ofInt 22 (-5))))
  ∧ reads 0x330400003000001000002000 (.ffma z .f32 .rne ⟨3, false⟩ ⟨1, false⟩ ⟨2, false⟩)
  ∧ reads 0x390C00005000004000400069 (.fcvt z true .sr 5 ⟨4, false⟩ .f32 .e4m3)
  ∧ reads 0x40BE23005000848002000000
    (.ld { neg := true, pred := 3, stall := 2, yield := false, reuse := false, loc := 3 } .b64 .consume 5 ⟨4, .ilv, 2⟩)
  ∧ reads 0x410A02874003003000000000 (.st { z with loc := 2 } .b32 .wefill ⟨7, .lin, 3⟩ (.x ⟨3, false⟩))
  ∧ reads 0x50080200500086C001400001 (.aadd { z with loc := 2 } .w64 5 ⟨6, .global, 1⟩ (.i 1))
  ∧ reads 0x610200005000004000000000 (.phreg z .sw 5 ⟨4, false⟩)
  ∧ reads 0x70000000900000A00000B000 (.send z 9 ⟨10, false⟩ (.reg (.x ⟨11, false⟩)))
  ∧ reads 0x830600084000081000082000 (.vfma z .f32 ⟨4, false⟩ ⟨1, false⟩ (.v ⟨2, false⟩))
  ∧ reads 0xA603000060008A000000B000 (.msta z .i8 6 ⟨10, .own, 0⟩ ⟨11, false⟩)
  ∧ reads 0xB100000060008A00008B0008 (.cpyi z ⟨6, false⟩ ⟨10, .own, 0⟩ ⟨11, .own, 8⟩)
  ∧ reads 0xC2010008500086C001102000 (.vwld z (.staleok 2) 5 ⟨6, .global, 1⟩)
  ∧ reads 0xD20000005000006000400002 (.unmap z 5 ⟨6, false⟩ (.i 2))
  ∧ reads 0xE1030000600089C000000000 (.bpost z 3 6 ⟨9, .global, 0⟩)
  ∧ reads 0xF12000000000000000000000 (.dbgbrk { z with pred := 2 })

/-- R34 to R50: for every instruction of a program, every operand at every value its encoding takes, the decoder reads the
instruction back from its word. -/
def Obligations.DecodeEncode : Prop :=
  ∀ (i : Instr) (w : IWord), i.wf = true → encode i = some w → decode w = .ok i

/-! ## Number formats (R241, R242, R253) -/

/-- R241, R242: the integer that a quotient rounds to, under each mode and sign: the neighbour nearer (even on a tie), nearer
to zero, towards plus or minus infinity; stochastic rounding adds one when its 16 random bits reach past the 16 bits below
the last kept one; an exact value stays. -/
def Obligations.FloatRounding : Prop :=
  ∀ (n d r : Nat) (neg : Bool), 0 < d → r < 2 ^ 16 →
    let m := fun (mode : Rnd) => roundInt mode r neg n d
    (m .rtz * d ≤ n ∧ n < (m .rtz + 1) * d)
    ∧ (2 * |(m .rne * d : Int) - n| ≤ d ∧ (2 * |(m .rne * d : Int) - n| = d → m .rne % 2 = 0))
    ∧ (neg = false → n ≤ m .rup * d ∧ m .rup * d < n + d ∧ m .rdn * d ≤ n ∧ n < m .rdn * d + d)
    ∧ (neg = true → n ≤ m .rdn * d ∧ m .rdn * d < n + d ∧ m .rup * d ≤ n ∧ n < m .rup * d + d)
    ∧ (let t := n % d * 2 ^ 16 / d
      m .sr = n / d + (if 2 ^ 16 ≤ t + r then 1 else 0))
    ∧ (d ∣ n → ∀ mode, m mode * d = n)

/-- R253: a number converted to its own type returns itself, under every mode and with no flag, saturating or not; a NaN becomes the canonical one. -/
def Obligations.ConversionToItself : Prop :=
  ∀ (t : ElemType) (mode : Rnd) (sat : Bool) (r a : Nat), t ≠ .t2 → a < 2 ^ t.bits → r < 2 ^ 16 →
    (isFloat t = false → convert t t mode sat r a = (a, 0))
    ∧ (isFloat t = true → isNanV (unpack t a) = true → (convert t t mode sat r a).1 = fmtNan t)
    ∧ (isFloat t = true → isNanV (unpack t a) = false → convert t t mode sat r a = (a, 0))

/-! ## The machine as a whole -/

/-- Reset (R58, R398, R416): memory lists nothing, so its canonical form holds; the part boots, with no context, no world and
nothing in any core; and a context as it is created has registers zero and full, no pending and no poison bit, and the
control fields of R58. What unlisted memory reads as is the model's choice (log 3). -/
def Obligations.ResetState : Prop :=
  let s := State.reset
  s.mem.wf = true
  ∧ (∀ w a, s.readByte w a = 0 ∧ s.isFull a = true ∧ s.isPoisoned a = false)
  ∧ s.boot.phase = 0 ∧ s.ctxs = [] ∧ s.worlds = [] ∧ s.launches = [] ∧ s.lends = [] ∧ s.trust.slots = []
  ∧ (∀ d n, (s.core d n).slots = [] ∧ (s.core d n).queue = [] ∧ (s.core d n).vec = [])
  ∧ ∀ world space region lid item d k pc srmode,
    let c := Context.fresh world space region lid item d k pc srmode
    (∀ n : Nat, c.getX n = 0 ∧ c.getV n = 0 ∧ (0 < n → c.getP n = false))
    ∧ (∀ r : AnyReg, c.isFull r = true ∧ c.isPend r = false ∧ c.isPois r = false)
    ∧ c.flags = 0 ∧ c.nanpos = 0 ∧ c.nanfmt = 0 ∧ c.rlim = 16 ∧ c.bwto = 0 ∧ c.cause = 0 ∧ c.causeOp = 0
    ∧ c.trapPc = 0 ∧ c.trapAddr = 0 ∧ c.srmode = srmode ∧ c.pc = pc

/-- A step performs the next action of the agenda, or of the default schedule (log 1). Where the action is an issue cycle and
the core, once the slots that could not issue are set aside, chooses a context with no fault at its boundary, whose PC fetches a word that decodes to `i`, the step is `exec i`
with that context issuing, followed by the end of the cycle, if the context then no longer waits. In a lent slice the
estimate of R400 stands before an engine command. Any other event of the opcode table is `exec` of it. -/
def Obligations.StepRunsDecoded : Prop :=
  ∀ (s : State) (rest : List Action),
    (s.agenda = [] → step s = step { s.turned with agenda := [s.defaultAction] })
    ∧ (∀ i, s.agenda = .event i :: rest → i.isEvent = true → (∀ d k, i ≠ .issueCycle d k) →
      step s = exec i { s with agenda := rest })
    ∧ ∀ d k t c u w e bs i x, s.agenda = .event (.issueCycle d k) :: rest →
      exec (.issueCycle d k) (readyOnly d k { s with agenda := rest }) = .next t → t.issuing ≠ 0 → t.ctx? t.issuing = some c →
      t.boundaryFault c = none → t.fetch c = .word u w e bs → decode w = .ok i →
      let v := u.modCtx u.issuing fun c => { c with codeEnd := e, block := some (c.pc.toNat / 64 * 64, bs) }
      let runs := fun (v : State) => exec i v = .next x → x.didIssue t.issuing = true → step s = .next (x.endCycle d.val k.val)
      (v.ctx? v.issuing = none → runs v)
      ∧ ∀ y, v.ctx? v.issuing = some y →
        let key := clKey y.die.val (clusterOf y.core.val)
        (v.lendOf key = none → runs v)
        ∧ ∀ l, v.lendOf key = some l → let n := engineShare (v.nextOpcode y)
          ((n = 0 ∨ v.partOfRegion y.region ≠ l.borrower) → runs v)
          ∧ (n ≠ 0 → v.partOfRegion y.region = l.borrower → (v.lentFits y.region key l.deadline y.core.val n true).1 = true →
            runs (v.lentFits y.region key l.deadline y.core.val n true).2)

/-- R114, R115: an issue cycle chooses, if any, a context that is ready in a slot of the core, after the free contexts of
exhausted regions have left; slot 7 goes before slot 6, and slot 6 before the others, but for a starved slot, and among the
others a slot of the highest priority issues. -/
def Obligations.IssueChoosesReady : Prop :=
  ∀ (s t : State) (d : DieNo) (k : CoreNo), exec (.issueCycle d k) s = .next t →
    let u := s.ejectExhausted d.val k.val
    (t.issuing ≠ 0 → ∃ n c, (n, t.issuing, c) ∈ u.readySlots d.val k.val)
    ∧ (u.readySlots d.val k.val = [] → t.issuing = 0)
    ∧ (∀ (slots starved : List Nat) (pri : Nat → Nat) (last : Nat → Option (Fin 8)),
      (∀ n, chooseSlot slots starved pri last = some n → n ∈ slots)
      ∧ (slots ≠ [] → (chooseSlot slots starved pri last).isSome = true)
      ∧ ((∀ n ∈ starved, n ∉ slots) → 7 ∈ slots → chooseSlot slots starved pri last = some 7)
      ∧ ((∀ n ∈ starved, n ∉ slots) → 7 ∉ slots → 6 ∈ slots → chooseSlot slots starved pri last = some 6)
      ∧ ∀ n, (∀ n ∈ starved, n ∉ slots) → 7 ∉ slots → 6 ∉ slots → chooseSlot slots starved pri last = some n →
        ∀ q ∈ slots, pri n ≤ pri q)

/-- Every step answers a next state: the package never stops. The faults of the architecture are taken (R89), and no event of
the opcode table is refused. -/
def Obligations.StepTotal : Prop := ∀ s : State, ∃ t, step s = .next t

/-- The memory keeps its canonical form through every step: bytes, full-empty bits, poison and tags are sorted lists that
hold no entry equal to what an unlisted address reads as. -/
def Obligations.StepKeepsMemoryForm : Prop := ∀ s t : State, s.mem.wf = true → step s = .next t → t.mem.wf = true

/-- R8, R156, R372: bytes written where no cipher stands between the world and the stored bytes read back, and every other
such byte reads as before; full-empty bits and poison stay. -/
def Obligations.MemoryReadBack : Prop :=
  ∀ (s : State) (w a : Nat) (bs : List Byte), s.mem.wf = true →
    (∀ i < bs.length, s.isPlain w (a + i) = true) →
    let t := s.writeBytes w a bs
    (∀ i < bs.length, some (t.readByte w (a + i)) = bs[i]?)
    ∧ (∀ v b, s.isPlain v b = true → (b < a ∨ a + bs.length ≤ b) → t.readByte v b = s.readByte v b)
    ∧ (∀ b, t.isFull b = s.isFull b ∧ t.isPoisoned b = s.isPoisoned b)
    ∧ t = { s with mem := t.mem }
end

