-- ==== Sys2Proof/Laws/Dispatch.lean ====
section
/-! SUPPORT. Dispatch, arm by arm: what `exec` is for each instruction and event. -/

namespace Sys2Proof.Machine

@[simp] theorem exec_nop (c) (s : State) : exec (.nop c) s = execNop c s := rfl
@[simp] theorem exec_bra (c imm) (s : State) : exec (.bra c imm) s = execBra c imm s := rfl
@[simp] theorem exec_bri (c t) (s : State) : exec (.bri c t) s = execBri c t s := rfl
@[simp] theorem exec_call (c l t) (s : State) : exec (.call c l t) s = execCall c l t s := rfl
@[simp] theorem exec_ret (c t) (s : State) : exec (.ret c t) s = execRet c t s := rfl
@[simp] theorem exec_loop (c xc imm) (s : State) : exec (.loop c xc imm) s = execLoop c xc imm s := rfl
@[simp] theorem exec_suspend (c xs m) (s : State) : exec (.suspend c xs m) s = execSuspend c xs m s := rfl
@[simp] theorem exec_yield (c) (s : State) : exec (.yield c) s = execYield c s := rfl
@[simp] theorem exec_spawn (c xs t ximg) (s : State) : exec (.spawn c xs t ximg) s = execSpawn c xs t ximg s := rfl
@[simp] theorem exec_done (c) (s : State) : exec (.done c) s = execDone c s := rfl
@[simp] theorem exec_trap (c n) (s : State) : exec (.trap c n) s = execTrap c n s := rfl
@[simp] theorem exec_tfence (c mask) (s : State) : exec (.tfence c mask) s = execTfence c mask s := rfl
@[simp] theorem exec_tret (c xs xid) (s : State) : exec (.tret c xs xid) s = execTret c xs xid s := rfl
@[simp] theorem exec_waitr (c r) (s : State) : exec (.waitr c r) s = execWaitr c r s := rfl
@[simp] theorem exec_brf (c full r imm) (s : State) : exec (.brf c full r imm) s = execBrf c full r imm s := rfl
@[simp] theorem exec_add (c w m d a b) (s : State) : exec (.add c w m d a b) s = execAdd c w m d a b s := rfl
@[simp] theorem exec_sub (c w m d a b) (s : State) : exec (.sub c w m d a b) s = execSub c w m d a b s := rfl
@[simp] theorem exec_mul (c w d a b) (s : State) : exec (.mul c w d a b) s = execMul c w d a b s := rfl
@[simp] theorem exec_mulh (c w u d a b) (s : State) : exec (.mulh c w u d a b) s = execMulh c w u d a b s := rfl
@[simp] theorem exec_div (c w u d a b) (s : State) : exec (.div c w u d a b) s = execDiv c w u d a b s := rfl
@[simp] theorem exec_rem (c w u d a b) (s : State) : exec (.rem c w u d a b) s = execRem c w u d a b s := rfl
@[simp] theorem exec_and (c w d a b) (s : State) : exec (.and c w d a b) s = execAnd c w d a b s := rfl
@[simp] theorem exec_or (c w d a b) (s : State) : exec (.or c w d a b) s = execOr c w d a b s := rfl
@[simp] theorem exec_xor (c w d a b) (s : State) : exec (.xor c w d a b) s = execXor c w d a b s := rfl
@[simp] theorem exec_andn (c w d a b) (s : State) : exec (.andn c w d a b) s = execAndn c w d a b s := rfl
@[simp] theorem exec_shl (c w d a b) (s : State) : exec (.shl c w d a b) s = execShl c w d a b s := rfl
@[simp] theorem exec_shr (c w d a b) (s : State) : exec (.shr c w d a b) s = execShr c w d a b s := rfl
@[simp] theorem exec_sar (c w d a b) (s : State) : exec (.sar c w d a b) s = execSar c w d a b s := rfl
@[simp] theorem exec_rol (c w d a b) (s : State) : exec (.rol c w d a b) s = execRol c w d a b s := rfl
@[simp] theorem exec_min (c w u d a b) (s : State) : exec (.min c w u d a b) s = execMin c w u d a b s := rfl
@[simp] theorem exec_max (c w u d a b) (s : State) : exec (.max c w u d a b) s = execMax c w u d a b s := rfl
@[simp] theorem exec_clz (c w d a) (s : State) : exec (.clz c w d a) s = execClz c w d a s := rfl
@[simp] theorem exec_popc (c w d a) (s : State) : exec (.popc c w d a) s = execPopc c w d a s := rfl
@[simp] theorem exec_bext (c sx d a ctl) (s : State) : exec (.bext c sx d a ctl) s = execBext c sx d a ctl s := rfl
@[simp] theorem exec_bins (c w d a ctl) (s : State) : exec (.bins c w d a ctl) s = execBins c w d a ctl s := rfl
@[simp] theorem exec_sel (c d a b) (s : State) : exec (.sel c d a b) s = execSel c d a b s := rfl
@[simp] theorem exec_mov (c m) (s : State) : exec (.mov c m) s = execMov c m s := rfl
@[simp] theorem exec_movi (c d imm) (s : State) : exec (.movi c d imm) s = execMovi c d imm s := rfl
@[simp] theorem exec_addc (c w d a b) (s : State) : exec (.addc c w d a b) s = execAddc c w d a b s := rfl
@[simp] theorem exec_abs (c w sat d a) (s : State) : exec (.abs c w sat d a) s = execAbs c w sat d a s := rfl
@[simp] theorem exec_bswap (c w d a) (s : State) : exec (.bswap c w d a) s = execBswap c w d a s := rfl
@[simp] theorem exec_lea (c d m sc) (s : State) : exec (.lea c d m sc) s = execLea c d m sc s := rfl
@[simp] theorem exec_cmp (c w cond pd a b) (s : State) : exec (.cmp c w cond pd a b) s = execCmp c w cond pd a b s := rfl
@[simp] theorem exec_plog (c tt pd pa pb) (s : State) : exec (.plog c tt pd pa pb) s = execPlog c tt pd pa pb s := rfl
@[simp] theorem exec_pmov (c m) (s : State) : exec (.pmov c m) s = execPmov c m s := rfl
@[simp] theorem exec_sread (c d sp) (s : State) : exec (.sread c d sp) s = execSread c d sp s := rfl
@[simp] theorem exec_swrite (c sp a) (s : State) : exec (.swrite c sp a) s = execSwrite c sp a s := rfl
@[simp] theorem exec_fadd (c f r d a b) (s : State) : exec (.fadd c f r d a b) s = execFadd c f r d a b s := rfl
@[simp] theorem exec_fsub (c f r d a b) (s : State) : exec (.fsub c f r d a b) s = execFsub c f r d a b s := rfl
@[simp] theorem exec_fmul (c f r d a b) (s : State) : exec (.fmul c f r d a b) s = execFmul c f r d a b s := rfl
@[simp] theorem exec_ffma (c f r d a b) (s : State) : exec (.ffma c f r d a b) s = execFfma c f r d a b s := rfl
@[simp] theorem exec_fdiv (c f r d a b) (s : State) : exec (.fdiv c f r d a b) s = execFdiv c f r d a b s := rfl
@[simp] theorem exec_fsqrt (c f r d a) (s : State) : exec (.fsqrt c f r d a) s = execFsqrt c f r d a s := rfl
@[simp] theorem exec_fmin (c f d a b) (s : State) : exec (.fmin c f d a b) s = execFmin c f d a b s := rfl
@[simp] theorem exec_fmax (c f d a b) (s : State) : exec (.fmax c f d a b) s = execFmax c f d a b s := rfl
@[simp] theorem exec_fcmp (c f cond pd a b) (s : State) : exec (.fcmp c f cond pd a b) s = execFcmp c f cond pd a b s := rfl
@[simp] theorem exec_fcvt (c sat r d a src dst) (s : State) : exec (.fcvt c sat r d a src dst) s = execFcvt c sat r d a src dst s := rfl
@[simp] theorem exec_fclass (c f d a) (s : State) : exec (.fclass c f d a) s = execFclass c f d a s := rfl
@[simp] theorem exec_frnd (c f r d a) (s : State) : exec (.frnd c f r d a) s = execFrnd c f r d a s := rfl
@[simp] theorem exec_ld (c sz mode d m) (s : State) : exec (.ld c sz mode d m) s = execLd c sz mode d m s := rfl
@[simp] theorem exec_st (c sz mode m a) (s : State) : exec (.st c sz mode m a) s = execSt c sz mode m a s := rfl
@[simp] theorem exec_ldv (c mode d m) (s : State) : exec (.ldv c mode d m) s = execLdv c mode d m s := rfl
@[simp] theorem exec_stv (c mode m a) (s : State) : exec (.stv c mode m a) s = execStv c mode m a s := rfl
@[simp] theorem exec_feset (c full m) (s : State) : exec (.feset c full m) s = execFeset c full m s := rfl
@[simp] theorem exec_feget (c d m) (s : State) : exec (.feget c d m) s = execFeget c d m s := rfl
@[simp] theorem exec_pref (c own m) (s : State) : exec (.pref c own m) s = execPref c own m s := rfl
@[simp] theorem exec_wbl (c m) (s : State) : exec (.wbl c m) s = execWbl c m s := rfl
@[simp] theorem exec_invl (c icache m) (s : State) : exec (.invl c icache m) s = execInvl c icache m s := rfl
@[simp] theorem exec_fence (c scope sc d) (s : State) : exec (.fence c scope sc d) s = execFence c scope sc d s := rfl
@[simp] theorem exec_publish (c xs m len) (s : State) : exec (.publish c xs m len) s = execPublish c xs m len s := rfl
@[simp] theorem exec_observe (c xs m len) (s : State) : exec (.observe c xs m len) s = execObserve c xs m len s := rfl
@[simp] theorem exec_aadd (c w d m b) (s : State) : exec (.aadd c w d m b) s = execAadd c w d m b s := rfl
@[simp] theorem exec_aand (c w d m b) (s : State) : exec (.aand c w d m b) s = execAand c w d m b s := rfl
@[simp] theorem exec_aor (c w d m b) (s : State) : exec (.aor c w d m b) s = execAor c w d m b s := rfl
@[simp] theorem exec_axor (c w d m b) (s : State) : exec (.axor c w d m b) s = execAxor c w d m b s := rfl
@[simp] theorem exec_amin (c w u d m b) (s : State) : exec (.amin c w u d m b) s = execAmin c w u d m b s := rfl
@[simp] theorem exec_amax (c w u d m b) (s : State) : exec (.amax c w u d m b) s = execAmax c w u d m b s := rfl
@[simp] theorem exec_aswp (c w d m b) (s : State) : exec (.aswp c w d m b) s = execAswp c w d m b s := rfl
@[simp] theorem exec_acas (c w d m b) (s : State) : exec (.acas c w d m b) s = execAcas c w d m b s := rfl
@[simp] theorem exec_afadd (c d m b) (s : State) : exec (.afadd c d m b) s = execAfadd c d m b s := rfl
@[simp] theorem exec_red (c op w m b) (s : State) : exec (.red c op w m b) s = execRed c op w m b s := rfl
@[simp] theorem exec_waita (c w d m e) (s : State) : exec (.waita c w d m e) s = execWaita c w d m e s := rfl
@[simp] theorem exec_wakea (c d m n) (s : State) : exec (.wakea c d m n) s = execWakea c d m n s := rfl
@[simp] theorem exec_phnew (c xs) (s : State) : exec (.phnew c xs) s = execPhnew c xs s := rfl
@[simp] theorem exec_phreg (c mode xs xh) (s : State) : exec (.phreg c mode xs xh) s = execPhreg c mode xs xh s := rfl
@[simp] theorem exec_phdrop (c xs xm) (s : State) : exec (.phdrop c xs xm) s = execPhdrop c xs xm s := rfl
@[simp] theorem exec_phsig (c xs xm) (s : State) : exec (.phsig c xs xm) s = execPhsig c xs xm s := rfl
@[simp] theorem exec_phwait (c xs xm) (s : State) : exec (.phwait c xs xm) s = execPhwait c xs xm s := rfl
@[simp] theorem exec_phnext (c xs xm) (s : State) : exec (.phnext c xs xm) s = execPhnext c xs xm s := rfl
@[simp] theorem exec_phfree (c xs xh) (s : State) : exec (.phfree c xs xh) s = execPhfree c xs xh s := rfl
@[simp] theorem exec_bwarr (c dir) (s : State) : exec (.bwarr c dir) s = execBwarr c dir s := rfl
@[simp] theorem exec_bwwait (c dir xs) (s : State) : exec (.bwwait c dir xs) s = execBwwait c dir xs s := rfl
@[simp] theorem exec_nbarr (c scope xs tag) (s : State) : exec (.nbarr c scope xs tag) s = execNbarr c scope xs tag s := rfl
@[simp] theorem exec_send (c xs dst p) (s : State) : exec (.send c xs dst p) s = execSend c xs dst p s := rfl
@[simp] theorem exec_sendh (c xs dst p) (s : State) : exec (.sendh c xs dst p) s = execSendh c xs dst p s := rfl
@[simp] theorem exec_chmask (c unmask ch) (s : State) : exec (.chmask c unmask ch) s = execChmask c unmask ch s := rfl
@[simp] theorem exec_chpri (c ch pri) (s : State) : exec (.chpri c ch pri) s = execChpri c ch pri s := rfl
@[simp] theorem exec_task (c xs m) (s : State) : exec (.task c xs m) s = execTask c xs m s := rfl
@[simp] theorem exec_launch (c xs m) (s : State) : exec (.launch c xs m) s = execLaunch c xs m s := rfl
@[simp] theorem exec_vadd (c t d a b) (s : State) : exec (.vadd c t d a b) s = execVadd c t d a b s := rfl
@[simp] theorem exec_vsub (c t d a b) (s : State) : exec (.vsub c t d a b) s = execVsub c t d a b s := rfl
@[simp] theorem exec_vmul (c t d a b) (s : State) : exec (.vmul c t d a b) s = execVmul c t d a b s := rfl
@[simp] theorem exec_vfma (c t d a b) (s : State) : exec (.vfma c t d a b) s = execVfma c t d a b s := rfl
@[simp] theorem exec_vmin (c t d a b) (s : State) : exec (.vmin c t d a b) s = execVmin c t d a b s := rfl
@[simp] theorem exec_vmax (c t d a b) (s : State) : exec (.vmax c t d a b) s = execVmax c t d a b s := rfl
@[simp] theorem exec_vabs (c t d a) (s : State) : exec (.vabs c t d a) s = execVabs c t d a s := rfl
@[simp] theorem exec_vcmp (c t d a b) (s : State) : exec (.vcmp c t d a b) s = execVcmp c t d a b s := rfl
@[simp] theorem exec_vsel (c t d a b) (s : State) : exec (.vsel c t d a b) s = execVsel c t d a b s := rfl
@[simp] theorem exec_vand (c t d a b) (s : State) : exec (.vand c t d a b) s = execVand c t d a b s := rfl
@[simp] theorem exec_vor (c t d a b) (s : State) : exec (.vor c t d a b) s = execVor c t d a b s := rfl
@[simp] theorem exec_vxor (c t d a b) (s : State) : exec (.vxor c t d a b) s = execVxor c t d a b s := rfl
@[simp] theorem exec_vshl (c t d a b) (s : State) : exec (.vshl c t d a b) s = execVshl c t d a b s := rfl
@[simp] theorem exec_vshr (c t d a b) (s : State) : exec (.vshr c t d a b) s = execVshr c t d a b s := rfl
@[simp] theorem exec_vcvt (c t d a ctl) (s : State) : exec (.vcvt c t d a ctl) s = execVcvt c t d a ctl s := rfl
@[simp] theorem exec_vrcpa (c d a) (s : State) : exec (.vrcpa c d a) s = execVrcpa c d a s := rfl
@[simp] theorem exec_vrsqa (c d a) (s : State) : exec (.vrsqa c d a) s = execVrsqa c d a s := rfl
@[simp] theorem exec_vexp2a (c d a) (s : State) : exec (.vexp2a c d a) s = execVexp2a c d a s := rfl
@[simp] theorem exec_vlog2a (c d a) (s : State) : exec (.vlog2a c d a) s = execVlog2a c d a s := rfl
@[simp] theorem exec_vred (c t d a op) (s : State) : exec (.vred c t d a op) s = execVred c t d a op s := rfl
@[simp] theorem exec_vscan (c t d a op) (s : State) : exec (.vscan c t d a op) s = execVscan c t d a op s := rfl
@[simp] theorem exec_vperm (c t d a b) (s : State) : exec (.vperm c t d a b) s = execVperm c t d a b s := rfl
@[simp] theorem exec_vbcast (c t d a k) (s : State) : exec (.vbcast c t d a k) s = execVbcast c t d a k s := rfl
@[simp] theorem exec_vsplat (c t d a) (s : State) : exec (.vsplat c t d a) s = execVsplat c t d a s := rfl
@[simp] theorem exec_vextr (c t d a k) (s : State) : exec (.vextr c t d a k) s = execVextr c t d a k s := rfl
@[simp] theorem exec_vamax (c t d a) (s : State) : exec (.vamax c t d a) s = execVamax c t d a s := rfl
@[simp] theorem exec_vqnt (c t d a ctl) (s : State) : exec (.vqnt c t d a ctl) s = execVqnt c t d a ctl s := rfl
@[simp] theorem exec_vdqnt (c t d a ctl) (s : State) : exec (.vdqnt c t d a ctl) s = execVdqnt c t d a ctl s := rfl
@[simp] theorem exec_vdot (c t d a b) (s : State) : exec (.vdot c t d a b) s = execVdot c t d a b s := rfl
@[simp] theorem exec_vmov (c t d a) (s : State) : exec (.vmov c t d a) s = execVmov c t d a s := rfl
@[simp] theorem exec_mlda (c xs m xl) (s : State) : exec (.mlda c xs m xl) s = execMlda c xs m xl s := rfl
@[simp] theorem exec_mldb (c xs m xl) (s : State) : exec (.mldb c xs m xl) s = execMldb c xs m xl s := rfl
@[simp] theorem exec_mma (c xs ctl) (s : State) : exec (.mma c xs ctl) s = execMma c xs ctl s := rfl
@[simp] theorem exec_mring (c xs) (s : State) : exec (.mring c xs) s = execMring c xs s := rfl
@[simp] theorem exec_mzero (c wide xs t) (s : State) : exec (.mzero c wide xs t) s = execMzero c wide xs t s := rfl
@[simp] theorem exec_mclose (c xs) (s : State) : exec (.mclose c xs) s = execMclose c xs s := rfl
@[simp] theorem exec_msta (c t xs m xc) (s : State) : exec (.msta c t xs m xc) s = execMsta c t xs m xc s := rfl
@[simp] theorem exec_mstat (c xd) (s : State) : exec (.mstat c xd) s = execMstat c xd s := rfl
@[simp] theorem exec_mrcfg (c xs cfg) (s : State) : exec (.mrcfg c xs cfg) s = execMrcfg c xs cfg s := rfl
@[simp] theorem exec_cpy (c xs m ph) (s : State) : exec (.cpy c xs m ph) s = execCpy c xs m ph s := rfl
@[simp] theorem exec_cpyi (c xs dst src) (s : State) : exec (.cpyi c xs dst src) s = execCpyi c xs dst src s := rfl
@[simp] theorem exec_cpstg (c xs k) (s : State) : exec (.cpstg c xs k) s = execCpstg c xs k s := rfl
@[simp] theorem exec_cpabt (c xs sx) (s : State) : exec (.cpabt c xs sx) s = execCpabt c xs sx s := rfl
@[simp] theorem exec_vwreg (c xs mb mc) (s : State) : exec (.vwreg c xs mb mc) s = execVwreg c xs mb mc s := rfl
@[simp] theorem exec_vwdrop (c xs xh) (s : State) : exec (.vwdrop c xs xh) s = execVwdrop c xs xh s := rfl
@[simp] theorem exec_vwld (c pol d m) (s : State) : exec (.vwld c pol d m) s = execVwld c pol d m s := rfl
@[simp] theorem exec_vwsync (c xs xh) (s : State) : exec (.vwsync c xs xh) s = execVwsync c xs xh s := rfl
@[simp] theorem exec_vwgen (c d m sel) (s : State) : exec (.vwgen c d m sel) s = execVwgen c d m sel s := rfl
@[simp] theorem exec_quant (c xs m) (s : State) : exec (.quant c xs m) s = execQuant c xs m s := rfl
@[simp] theorem exec_vwclr (c xs xh) (s : State) : exec (.vwclr c xs xh) s = execVwclr c xs xh s := rfl
@[simp] theorem exec_map (c xs m t) (s : State) : exec (.map c xs m t) s = execMap c xs m t s := rfl
@[simp] theorem exec_grant (c xs m t) (s : State) : exec (.grant c xs m t) s = execGrant c xs m t s := rfl
@[simp] theorem exec_unmap (c xs xa t) (s : State) : exec (.unmap c xs xa t) s = execUnmap c xs xa t s := rfl
@[simp] theorem exec_probe (c xs xa t) (s : State) : exec (.probe c xs xa t) s = execProbe c xs xa t s := rfl
@[simp] theorem exec_movepg (c xs xsrc xdst) (s : State) : exec (.movepg c xs xsrc xdst) s = execMovepg c xs xsrc xdst s := rfl
@[simp] theorem exec_space (c xs g) (s : State) : exec (.space c xs g) s = execSpace c xs g s := rfl
@[simp] theorem exec_retiresp (c xs t) (s : State) : exec (.retiresp c xs t) s = execRetiresp c xs t s := rfl
@[simp] theorem exec_bsend (c xs m) (s : State) : exec (.bsend c xs m) s = execBsend c xs m s := rfl
@[simp] theorem exec_bpost (c g xs m) (s : State) : exec (.bpost c g xs m) s = execBpost c g xs m s := rfl
@[simp] theorem exec_bcancel (c xs m) (s : State) : exec (.bcancel c xs m) s = execBcancel c xs m s := rfl
@[simp] theorem exec_bstat (c d m) (s : State) : exec (.bstat c d m) s = execBstat c d m s := rfl
@[simp] theorem exec_evid (c xs m xr) (s : State) : exec (.evid c xs m xr) s = execEvid c xs m xr s := rfl
@[simp] theorem exec_dbgbrk (c) (s : State) : exec (.dbgbrk c) s = execDbgbrk c s := rfl
@[simp] theorem exec_ill (bits) (s : State) : exec (.ill bits) s = execIll bits s := rfl
@[simp] theorem exec_issueCycle (d c) (s : State) : exec (.issueCycle d c) s = execIssueCycle d c s := rfl
@[simp] theorem exec_blockRefetch (d c) (s : State) : exec (.blockRefetch d c) s = execBlockRefetch d c s := rfl
@[simp] theorem exec_longProducerFill (uid k) (s : State) : exec (.longProducerFill uid k) s = execLongProducerFill uid k s := rfl
@[simp] theorem exec_registerLineFill (uid line) (s : State) : exec (.registerLineFill uid line) s = execRegisterLineFill uid line s := rfl
@[simp] theorem exec_writeBackFailure (uid line) (s : State) : exec (.writeBackFailure uid line) s = execWriteBackFailure uid line s := rfl
@[simp] theorem exec_messageArrival (k) (s : State) : exec (.messageArrival k) s = execMessageArrival k s := rfl
@[simp] theorem exec_messageTimeout (k) (s : State) : exec (.messageTimeout k) s = execMessageTimeout k s := rfl
@[simp] theorem exec_remoteMessageStatus (seq status) (s : State) : exec (.remoteMessageStatus seq status) s = execRemoteMessageStatus seq status s := rfl
@[simp] theorem exec_handlerStart (d c) (s : State) : exec (.handlerStart d c) s = execHandlerStart d c s := rfl
@[simp] theorem exec_faultHandlerStart (d c) (s : State) : exec (.faultHandlerStart d c) s = execFaultHandlerStart d c s := rfl
@[simp] theorem exec_handlerBudget (uid) (s : State) : exec (.handlerBudget uid) s = execHandlerBudget uid s := rfl
@[simp] theorem exec_landingPacketOffer (d c) (s : State) : exec (.landingPacketOffer d c) s = execLandingPacketOffer d c s := rfl
@[simp] theorem exec_continuationPlacement (d c) (s : State) : exec (.continuationPlacement d c) s = execContinuationPlacement d c s := rfl
@[simp] theorem exec_stealContinuation (d victim c) (s : State) : exec (.stealContinuation d victim c) s = execStealContinuation d victim c s := rfl
@[simp] theorem exec_continuationReady (uid) (s : State) : exec (.continuationReady uid) s = execContinuationReady uid s := rfl
@[simp] theorem exec_launchMessage (s : State) : exec .launchMessage s = execLaunchMessage s := rfl
@[simp] theorem exec_worldOpen (lid) (s : State) : exec (.worldOpen lid) s = execWorldOpen lid s := rfl
@[simp] theorem exec_launchDependencesMet (lid) (s : State) : exec (.launchDependencesMet lid) s = execLaunchDependencesMet lid s := rfl
@[simp] theorem exec_itemCreation (lid) (s : State) : exec (.itemCreation lid) s = execItemCreation lid s := rfl
@[simp] theorem exec_launchCompletion (lid) (s : State) : exec (.launchCompletion lid) s = execLaunchCompletion lid s := rfl
@[simp] theorem exec_handlerTableLeave (d c lid) (s : State) : exec (.handlerTableLeave d c lid) s = execHandlerTableLeave d c lid s := rfl
@[simp] theorem exec_budgetCharge (account) (s : State) : exec (.budgetCharge account) s = execBudgetCharge account s := rfl
@[simp] theorem exec_taskDependenceMet (d cl k dep) (s : State) : exec (.taskDependenceMet d cl k dep) s = execTaskDependenceMet d cl k dep s := rfl
@[simp] theorem exec_taskDependenceRetest (d cl k dep) (s : State) : exec (.taskDependenceRetest d cl k dep) s = execTaskDependenceRetest d cl k dep s := rfl
@[simp] theorem exec_taskIssue (d cl k) (s : State) : exec (.taskIssue d cl k) s = execTaskIssue d cl k s := rfl
@[simp] theorem exec_taskDoneFill (d cl k) (s : State) : exec (.taskDoneFill d cl k) s = execTaskDoneFill d cl k s := rfl
@[simp] theorem exec_preemptionRequest (region slices deadline) (s : State) : exec (.preemptionRequest region slices deadline) s = execPreemptionRequest region slices deadline s := rfl
@[simp] theorem exec_cooperativeWindowEnd (d cl region) (s : State) : exec (.cooperativeWindowEnd d cl region) s = execCooperativeWindowEnd d cl region s := rfl
@[simp] theorem exec_preemptDrainComplete (d cl region) (s : State) : exec (.preemptDrainComplete d cl region) s = execPreemptDrainComplete d cl region s := rfl
@[simp] theorem exec_regionResume (region) (s : State) : exec (.regionResume region) s = execRegionResume region s := rfl
@[simp] theorem exec_restartContinuationCreate (region) (s : State) : exec (.restartContinuationCreate region) s = execRestartContinuationCreate region s := rfl
@[simp] theorem exec_movepgSwitch (k) (s : State) : exec (.movepgSwitch k) s = execMovepgSwitch k s := rfl
@[simp] theorem exec_unmapWalkDone (k) (s : State) : exec (.unmapWalkDone k) s = execUnmapWalkDone k s := rfl
@[simp] theorem exec_storeBufferDrain (uid k) (s : State) : exec (.storeBufferDrain uid k) s = execStoreBufferDrain uid k s := rfl
@[simp] theorem exec_retryBackoffExpiry (uid) (s : State) : exec (.retryBackoffExpiry uid) s = execRetryBackoffExpiry uid s := rfl
@[simp] theorem exec_waitaTimeout (d k) (s : State) : exec (.waitaTimeout d k) s = execWaitaTimeout d k s := rfl
@[simp] theorem exec_monitorWakeNotice (d k) (s : State) : exec (.monitorWakeNotice d k) s = execMonitorWakeNotice d k s := rfl
@[simp] theorem exec_barrierRelease (d lane) (s : State) : exec (.barrierRelease d lane) s = execBarrierRelease d lane s := rfl
@[simp] theorem exec_bwTimeout (uid) (s : State) : exec (.bwTimeout uid) s = execBwTimeout uid s := rfl
@[simp] theorem exec_nbarrNoticeArrival (d n) (s : State) : exec (.nbarrNoticeArrival d n) s = execNbarrNoticeArrival d n s := rfl
@[simp] theorem exec_nbarrTimeout (uid dead) (s : State) : exec (.nbarrTimeout uid dead) s = execNbarrTimeout uid dead s := rfl
@[simp] theorem exec_vectorCommandStart (d c) (s : State) : exec (.vectorCommandStart d c) s = execVectorCommandStart d c s := rfl
@[simp] theorem exec_matrixCommandStart (d c) (s : State) : exec (.matrixCommandStart d c) s = execMatrixCommandStart d c s := rfl
@[simp] theorem exec_ringTileArrival (d c) (s : State) : exec (.ringTileArrival d c) s = execRingTileArrival d c s := rfl
@[simp] theorem exec_ringTimeout (d c) (s : State) : exec (.ringTimeout d c) s = execRingTimeout d c s := rfl
@[simp] theorem exec_copyCommandStart (d c) (s : State) : exec (.copyCommandStart d c) s = execCopyCommandStart d c s := rfl
@[simp] theorem exec_copyPieceWrite (d c) (s : State) : exec (.copyPieceWrite d c) s = execCopyPieceWrite d c s := rfl
@[simp] theorem exec_copyCommandComplete (d c) (s : State) : exec (.copyCommandComplete d c) s = execCopyCommandComplete d c s := rfl
@[simp] theorem exec_viewRefresh (d) (s : State) : exec (.viewRefresh d) s = execViewRefresh d s := rfl
@[simp] theorem exec_quantService (d) (s : State) : exec (.quantService d) s = execQuantService d s := rfl
@[simp] theorem exec_fabricRequestReceive (r) (s : State) : exec (.fabricRequestReceive r) s = execFabricRequestReceive r s := rfl
@[simp] theorem exec_fabricAckArrival (seq a) (s : State) : exec (.fabricAckArrival seq a) s = execFabricAckArrival seq a s := rfl
@[simp] theorem exec_fabricResendTimeout (seq) (s : State) : exec (.fabricResendTimeout seq) s = execFabricResendTimeout seq s := rfl
@[simp] theorem exec_skipNoticeArrival (srcPkg srcDie path) (s : State) : exec (.skipNoticeArrival srcPkg srcDie path) s = execSkipNoticeArrival srcPkg srcDie path s := rfl
@[simp] theorem exec_orderedFlagRelease (k) (s : State) : exec (.orderedFlagRelease k) s = execOrderedFlagRelease k s := rfl
@[simp] theorem exec_orderedFlagTimeout (k) (s : State) : exec (.orderedFlagTimeout k) s = execOrderedFlagTimeout k s := rfl
@[simp] theorem exec_flitNakReplay (port lane) (s : State) : exec (.flitNakReplay port lane) s = execFlitNakReplay port lane s := rfl
@[simp] theorem exec_healthScoreHalving (s : State) : exec .healthScoreHalving s = execHealthScoreHalving s := rfl
@[simp] theorem exec_parityTopup (port good) (s : State) : exec (.parityTopup port good) s = execParityTopup port good s := rfl
@[simp] theorem exec_stompTail (port) (s : State) : exec (.stompTail port) s = execStompTail port s := rfl
@[simp] theorem exec_rtsArrival (d r) (s : State) : exec (.rtsArrival d r) s = execRtsArrival d r s := rfl
@[simp] theorem exec_tokenIssue (d) (s : State) : exec (.tokenIssue d) s = execTokenIssue d s := rfl
@[simp] theorem exec_tokenExpiry (d k) (s : State) : exec (.tokenExpiry d k) s = execTokenExpiry d k s := rfl
@[simp] theorem exec_bulkDataArrival (d f) (s : State) : exec (.bulkDataArrival d f) s = execBulkDataArrival d f s := rfl
@[simp] theorem exec_dropNoticeArrival (d n) (s : State) : exec (.dropNoticeArrival d n) s = execDropNoticeArrival d n s := rfl
@[simp] theorem exec_cancelNoticeArrival (d n) (s : State) : exec (.cancelNoticeArrival d n) s = execCancelNoticeArrival d n s := rfl
@[simp] theorem exec_poolAckTimeout (uid) (s : State) : exec (.poolAckTimeout uid) s = execPoolAckTimeout uid s := rfl
@[simp] theorem exec_getVersion (r) (s : State) : exec (.getVersion r) s = execGetVersion r s := rfl
@[simp] theorem exec_getCapabilities (r) (s : State) : exec (.getCapabilities r) s = execGetCapabilities r s := rfl
@[simp] theorem exec_negotiateAlgorithms (r) (s : State) : exec (.negotiateAlgorithms r) s = execNegotiateAlgorithms r s := rfl
@[simp] theorem exec_getDigests (r) (s : State) : exec (.getDigests r) s = execGetDigests r s := rfl
@[simp] theorem exec_getCertificate (r) (s : State) : exec (.getCertificate r) s = execGetCertificate r s := rfl
@[simp] theorem exec_challenge (r) (s : State) : exec (.challenge r) s = execChallenge r s := rfl
@[simp] theorem exec_getMeasurements (r) (s : State) : exec (.getMeasurements r) s = execGetMeasurements r s := rfl
@[simp] theorem exec_keyExchange (r) (s : State) : exec (.keyExchange r) s = execKeyExchange r s := rfl
@[simp] theorem exec_finish (r) (s : State) : exec (.finish r) s = execFinish r s := rfl
@[simp] theorem exec_heartbeat (r) (s : State) : exec (.heartbeat r) s = execHeartbeat r s := rfl
@[simp] theorem exec_endSession (r) (s : State) : exec (.endSession r) s = execEndSession r s := rfl
@[simp] theorem exec_keyImport (r) (s : State) : exec (.keyImport r) s = execKeyImport r s := rfl
@[simp] theorem exec_unsupportedSpdmRequest (r) (s : State) : exec (.unsupportedSpdmRequest r) s = execUnsupportedSpdmRequest r s := rfl
@[simp] theorem exec_launchDoorbell (v) (s : State) : exec (.launchDoorbell v) s = execLaunchDoorbell v s := rfl
@[simp] theorem exec_hostMap (s : State) : exec .hostMap s = execHostMap s := rfl
@[simp] theorem exec_hostGrant (s : State) : exec .hostGrant s = execHostGrant s := rfl
@[simp] theorem exec_hostUnmap (s : State) : exec .hostUnmap s = execHostUnmap s := rfl
@[simp] theorem exec_hostProbe (s : State) : exec .hostProbe s = execHostProbe s := rfl
@[simp] theorem exec_hostSpace (s : State) : exec .hostSpace s = execHostSpace s := rfl
@[simp] theorem exec_hostRetiresp (s : State) : exec .hostRetiresp s = execHostRetiresp s := rfl
@[simp] theorem exec_reset (s : State) : exec .reset s = execReset s := rfl
@[simp] theorem exec_lend (s : State) : exec .lend s = execLend s := rfl
@[simp] theorem exec_recall (s : State) : exec .recall s = execRecall s := rfl
@[simp] theorem exec_recallDeadline (slice) (s : State) : exec (.recallDeadline slice) s = execRecallDeadline slice s := rfl
@[simp] theorem exec_kill (s : State) : exec .kill s = execKill s := rfl
@[simp] theorem exec_scrub (s : State) : exec .scrub s = execScrub s := rfl
@[simp] theorem exec_preempt (s : State) : exec .preempt s = execPreempt s := rfl
@[simp] theorem exec_resume (s : State) : exec .resume s = execResume s := rfl
@[simp] theorem exec_teardownReport (world) (s : State) : exec (.teardownReport world) s = execTeardownReport world s := rfl
@[simp] theorem exec_partitionEntryWrite (p word v) (s : State) : exec (.partitionEntryWrite p word v) s = execPartitionEntryWrite p word v s := rfl
@[simp] theorem exec_debugEntryWrite (k word v world trusted) (s : State) : exec (.debugEntryWrite k word v world trusted) s = execDebugEntryWrite k word v world trusted s := rfl
@[simp] theorem exec_registerWrite (a v trusted) (s : State) : exec (.registerWrite a v trusted) s = execRegisterWrite a v trusted s := rfl
@[simp] theorem exec_sleepRequest (s : State) : exec .sleepRequest s = execSleepRequest s := rfl
@[simp] theorem exec_wake (s : State) : exec .wake s = execWake s := rfl
@[simp] theorem exec_recoveryReload (good cxl deadPorts) (s : State) : exec (.recoveryReload good cxl deadPorts) s = execRecoveryReload good cxl deadPorts s := rfl
@[simp] theorem exec_powerOnReset (cause good cxl deadPorts) (s : State) : exec (.powerOnReset cause good cxl deadPorts) s = execPowerOnReset cause good cxl deadPorts s := rfl
@[simp] theorem exec_railFault (rail millivolts) (s : State) : exec (.railFault rail millivolts) s = execRailFault rail millivolts s := rfl
@[simp] theorem exec_thermalReading (d t) (s : State) : exec (.thermalReading d t) s = execThermalReading d t s := rfl
@[simp] theorem exec_correctedCodeword (port lane) (s : State) : exec (.correctedCodeword port lane) s = execCorrectedCodeword port lane s := rfl
@[simp] theorem exec_crossbarParityError (f) (s : State) : exec (.crossbarParityError f) s = execCrossbarParityError f s := rfl
@[simp] theorem exec_tokenArrival (d t) (s : State) : exec (.tokenArrival d t) s = execTokenArrival d t s := rfl
@[simp] theorem exec_powerCycleComplete (slice) (s : State) : exec (.powerCycleComplete slice) s = execPowerCycleComplete slice s := rfl
@[simp] theorem exec_scrubComplete (k) (s : State) : exec (.scrubComplete k) s = execScrubComplete k s := rfl
@[simp] theorem exec_badTreeCommand (s : State) : exec .badTreeCommand s = execBadTreeCommand s := rfl
@[simp] theorem exec_badPartitionCommand (s : State) : exec .badPartitionCommand s = execBadPartitionCommand s := rfl

end Sys2Proof.Machine
end

