-- ==== Sys2Proof/Laws/Map.lean ====
section
/-! SUPPORT. Laws of the sparse maps: reading after a change, and the canonical form. -/

namespace Sys2Proof.Machine

variable {α : Type}

/-! ## Reading after a change -/

theorem KMap.look_put (m : KMap α) (a b : Nat) (x : α) :
    KMap.look (KMap.put m a x) b = if b = a then some x else KMap.look m b := by
  induction m with
  | nil =>
    simp only [KMap.put, KMap.look]
    split <;> simp
  | cons p t ih =>
    obtain ⟨k, v⟩ := p
    simp only [KMap.put]
    split
    · rename_i h
      subst h
      simp only [KMap.look]
      split <;> rfl
    · split
      · rename_i h1 h2
        simp only [KMap.look]
        by_cases hb : b = a
        · simp [hb]
        · simp only [hb, if_false]
          split
          · rename_i h3
            have : b ≠ k := by omega
            have : b < k := by omega
            simp [*]
          · rfl
      · rename_i h1 h2
        simp only [KMap.look, ih]
        by_cases hb : b = a
        · subst hb
          simp only [h1, h2, if_false, if_true]
        · simp only [hb, if_false]

@[simp] theorem KMap.look_put_same (m : KMap α) (a : Nat) (x : α) : KMap.look (KMap.put m a x) a = some x := by
  simp [KMap.look_put]

theorem KMap.look_put_other (m : KMap α) {a b : Nat} (x : α) (h : b ≠ a) :
    KMap.look (KMap.put m a x) b = KMap.look m b := by
  simp [KMap.look_put, h]

theorem KMap.sortedAbove_mono {b c : Nat} {m : KMap α} (h : KMap.sortedAbove c m = true) (hb : b ≤ c) :
    KMap.sortedAbove b m = true := by
  cases m with
  | nil => rfl
  | cons p t =>
    obtain ⟨k, v⟩ := p
    simp only [KMap.sortedAbove, Bool.and_eq_true, decide_eq_true_eq] at *
    exact ⟨by omega, h.2⟩

theorem KMap.look_below {b a : Nat} {m : KMap α} (h : KMap.sortedAbove b m = true) (ha : a ≤ b) :
    KMap.look m a = none := by
  cases m with
  | nil => rfl
  | cons p t =>
    obtain ⟨k, v⟩ := p
    simp only [KMap.sortedAbove, Bool.and_eq_true, decide_eq_true_eq] at h
    simp only [KMap.look]
    have h1 : a ≠ k := by omega
    have h2 : a < k := by omega
    simp [h1, h2]

theorem KMap.sorted_of_above {b : Nat} {m : KMap α} (h : KMap.sortedAbove b m = true) : KMap.sorted m = true := by
  cases m with
  | nil => rfl
  | cons p t =>
    obtain ⟨k, v⟩ := p
    simp only [KMap.sortedAbove, Bool.and_eq_true] at h
    exact h.2

theorem KMap.look_del {m : KMap α} (h : KMap.sorted m = true) (a b : Nat) :
    KMap.look (KMap.del m a) b = if b = a then none else KMap.look m b := by
  induction m with
  | nil => simp [KMap.del, KMap.look]
  | cons p t ih =>
    obtain ⟨k, v⟩ := p
    simp only [KMap.sorted] at h
    simp only [KMap.del]
    split
    · rename_i hk
      subst hk
      by_cases hb : b = a
      · simp [hb, KMap.look_below h (Nat.le_refl _)]
      · simp only [hb, if_false, KMap.look]
        split
        · rename_i hlt
          exact KMap.look_below h (by omega)
        · rfl
    · split
      · rename_i h1 h2
        by_cases hb : b = a
        · simp only [hb, if_true, KMap.look]
          simp [h1, h2]
        · simp [hb]
      · rename_i h1 h2
        simp only [KMap.look, ih (KMap.sorted_of_above h)]
        by_cases hb : b = a
        · subst hb
          simp [h1, h2]
        · simp [hb]

theorem KMap.lookD_putD [DecidableEq α] {m : KMap α} (h : KMap.sorted m = true) (a b : Nat) (d x : α) :
    KMap.lookD (KMap.putD m a d x) b d = if b = a then x else KMap.lookD m b d := by
  unfold KMap.lookD KMap.putD
  split
  · rename_i hx
    rw [KMap.look_del h]
    by_cases hb : b = a <;> simp [hb, hx]
  · rw [KMap.look_put]
    by_cases hb : b = a <;> simp [hb]

/-! ## The canonical form -/

theorem KMap.sortedAbove_put {b a : Nat} {m : KMap α} (x : α) (h : KMap.sortedAbove b m = true) (hb : b < a) :
    KMap.sortedAbove b (KMap.put m a x) = true := by
  induction m generalizing b with
  | nil => simp [KMap.put, KMap.sortedAbove, hb]
  | cons p t ih =>
    obtain ⟨k, v⟩ := p
    simp only [KMap.sortedAbove, Bool.and_eq_true, decide_eq_true_eq] at h
    simp only [KMap.put]
    split
    · rename_i hk
      subst hk
      simp [KMap.sortedAbove, h]
    · split
      · rename_i h1 h2
        simp [KMap.sortedAbove, hb, h2, h.2]
      · rename_i h1 h2
        simp only [KMap.sortedAbove, Bool.and_eq_true, decide_eq_true_eq]
        exact ⟨h.1, ih h.2 (by omega)⟩

theorem KMap.sorted_put {a : Nat} {m : KMap α} (x : α) (h : KMap.sorted m = true) :
    KMap.sorted (KMap.put m a x) = true := by
  cases m with
  | nil => rfl
  | cons p t =>
    obtain ⟨k, v⟩ := p
    simp only [KMap.sorted] at h
    simp only [KMap.put]
    split
    · rename_i hk
      subst hk
      exact h
    · split
      · rename_i h1 h2
        simp [KMap.sorted, KMap.sortedAbove, h2, h]
      · rename_i h1 h2
        simp only [KMap.sorted]
        exact KMap.sortedAbove_put x h (by omega)

theorem KMap.sortedAbove_del {b a : Nat} {m : KMap α} (h : KMap.sortedAbove b m = true) :
    KMap.sortedAbove b (KMap.del m a) = true := by
  induction m generalizing b with
  | nil => rfl
  | cons p t ih =>
    obtain ⟨k, v⟩ := p
    simp only [KMap.sortedAbove, Bool.and_eq_true, decide_eq_true_eq] at h
    simp only [KMap.del]
    split
    · exact KMap.sortedAbove_mono h.2 (by omega)
    · split
      · simp [KMap.sortedAbove, h]
      · simp only [KMap.sortedAbove, Bool.and_eq_true, decide_eq_true_eq]
        exact ⟨h.1, ih h.2⟩

theorem KMap.sorted_del {a : Nat} {m : KMap α} (h : KMap.sorted m = true) : KMap.sorted (KMap.del m a) = true := by
  cases m with
  | nil => rfl
  | cons p t =>
    obtain ⟨k, v⟩ := p
    simp only [KMap.sorted] at h
    simp only [KMap.del]
    split
    · exact KMap.sorted_of_above h
    · split
      · exact h
      · simp only [KMap.sorted]
        exact KMap.sortedAbove_del h

theorem KMap.mem_put {m : KMap α} {a : Nat} {x : α} {p : Nat × α} (h : p ∈ KMap.put m a x) : p = (a, x) ∨ p ∈ m := by
  induction m with
  | nil => simpa [KMap.put] using h
  | cons q t ih =>
    obtain ⟨k, v⟩ := q
    simp only [KMap.put] at h
    split at h
    · rename_i hk
      subst hk
      simp only [List.mem_cons] at h ⊢
      tauto
    · split at h
      · simp only [List.mem_cons] at h ⊢
        tauto
      · simp only [List.mem_cons] at h ⊢
        rcases h with h | h
        · exact .inr (.inl h)
        · rcases ih h with h | h
          · exact .inl h
          · exact .inr (.inr h)

theorem KMap.mem_del {m : KMap α} {a : Nat} {p : Nat × α} (h : p ∈ KMap.del m a) : p ∈ m := by
  induction m with
  | nil => simp [KMap.del] at h
  | cons q t ih =>
    obtain ⟨k, v⟩ := q
    simp only [KMap.del] at h
    split at h
    · exact List.mem_cons_of_mem _ h
    · split at h
      · exact h
      · simp only [List.mem_cons] at h ⊢
        rcases h with h | h
        · exact .inl h
        · exact .inr (ih h)

theorem KMap.canon_iff [DecidableEq α] {d : α} {m : KMap α} :
    KMap.canon d m = true ↔ KMap.sorted m = true ∧ ∀ p ∈ m, p.2 ≠ d := by
  simp [KMap.canon]

theorem KMap.canon_putD [DecidableEq α] {d : α} {m : KMap α} (a : Nat) (x : α) (h : KMap.canon d m = true) :
    KMap.canon d (KMap.putD m a d x) = true := by
  rw [KMap.canon_iff] at *
  unfold KMap.putD
  split
  · exact ⟨KMap.sorted_del h.1, fun p hp => h.2 p (KMap.mem_del hp)⟩
  · rename_i hx
    refine ⟨KMap.sorted_put x h.1, fun p hp => ?_⟩
    rcases KMap.mem_put hp with hp | hp
    · subst hp
      exact hx
    · exact h.2 p hp

theorem KMap.sortedAbove_filter {b : Nat} {m : KMap α} (f : Nat × α → Bool) (h : KMap.sortedAbove b m = true) :
    KMap.sortedAbove b (m.filter f) = true := by
  induction m generalizing b with
  | nil => rfl
  | cons p t ih =>
    obtain ⟨k, v⟩ := p
    simp only [KMap.sortedAbove, Bool.and_eq_true, decide_eq_true_eq] at h
    simp only [List.filter_cons]
    split
    · simp only [KMap.sortedAbove, Bool.and_eq_true, decide_eq_true_eq]
      exact ⟨h.1, ih h.2⟩
    · exact KMap.sortedAbove_mono (ih h.2) (by omega)

theorem KMap.sorted_filter {m : KMap α} (f : Nat × α → Bool) (h : KMap.sorted m = true) :
    KMap.sorted (m.filter f) = true := by
  cases m with
  | nil => rfl
  | cons p t =>
    obtain ⟨k, v⟩ := p
    simp only [KMap.sorted] at h
    simp only [List.filter_cons]
    split
    · exact KMap.sortedAbove_filter f h
    · exact KMap.sorted_of_above (KMap.sortedAbove_filter f h)

theorem KMap.canon_filter [DecidableEq α] {d : α} {m : KMap α} (f : Nat × α → Bool) (h : KMap.canon d m = true) :
    KMap.canon d (m.filter f) = true := by
  rw [KMap.canon_iff] at *
  exact ⟨KMap.sorted_filter f h.1, fun p hp => h.2 p (List.mem_filter.mp hp).1⟩

theorem KSet.sorted_set {m : KSet} (a : Nat) (b : Bool) (h : KMap.sorted m = true) :
    KMap.sorted (KSet.set m a b) = true := by
  unfold KSet.set
  split
  · exact KMap.sorted_put _ h
  · exact KMap.sorted_del h

theorem KSet.sorted_setRange {m : KSet} (b : Bool) (a n : Nat) (h : KMap.sorted m = true) :
    KMap.sorted (KSet.setRange m b a n) = true := by
  induction n generalizing a with
  | zero => exact h
  | succ n ih => exact KSet.sorted_set _ _ (ih (a + 1))

theorem KSet.has_set {m : KSet} (h : KMap.sorted m = true) (a c : Nat) (b : Bool) :
    KMap.has (KSet.set m a b) c = if c = a then b else KMap.has m c := by
  unfold KSet.set KMap.has
  cases b
  · simp only [Bool.false_eq_true, if_false, KMap.look_del h]
    split <;> simp
  · simp only [if_true, KMap.look_put]
    split <;> simp

end Sys2Proof.Machine
end

