-- ==== Sys2Proof/Laws/State.lean ====
section
/-! SUPPORT. What each update of the state leaves alone: one lemma for each field of each update. -/

namespace Sys2Proof.Machine

/-! ## `State.setCtx` -/

@[simp] theorem State.setCtx_agenda (s : State) (u : Nat) (c : Context) : (s.setCtx u c).agenda = s.agenda := rfl
@[simp] theorem State.setCtx_issuing (s : State) (u : Nat) (c : Context) : (s.setCtx u c).issuing = s.issuing := rfl
@[simp] theorem State.setCtx_tried (s : State) (u : Nat) (c : Context) : (s.setCtx u c).tried = s.tried := rfl
@[simp] theorem State.setCtx_nextUid (s : State) (u : Nat) (c : Context) : (s.setCtx u c).nextUid = s.nextUid := rfl
@[simp] theorem State.setCtx_draws (s : State) (u : Nat) (c : Context) : (s.setCtx u c).draws = s.draws := rfl
@[simp] theorem State.setCtx_turn (s : State) (u : Nat) (c : Context) : (s.setCtx u c).turn = s.turn := rfl
@[simp] theorem State.setCtx_out (s : State) (u : Nat) (c : Context) : (s.setCtx u c).out = s.out := rfl
@[simp] theorem State.setCtx_pkg (s : State) (u : Nat) (c : Context) : (s.setCtx u c).pkg = s.pkg := rfl
@[simp] theorem State.setCtx_boot (s : State) (u : Nat) (c : Context) : (s.setCtx u c).boot = s.boot := rfl
@[simp] theorem State.setCtx_temps (s : State) (u : Nat) (c : Context) : (s.setCtx u c).temps = s.temps := rfl
@[simp] theorem State.setCtx_mem (s : State) (u : Nat) (c : Context) : (s.setCtx u c).mem = s.mem := rfl
@[simp] theorem State.setCtx_pages (s : State) (u : Nat) (c : Context) : (s.setCtx u c).pages = s.pages := rfl
@[simp] theorem State.setCtx_cxlMib (s : State) (u : Nat) (c : Context) : (s.setCtx u c).cxlMib = s.cxlMib := rfl
@[simp] theorem State.setCtx_peers (s : State) (u : Nat) (c : Context) : (s.setCtx u c).peers = s.peers := rfl
@[simp] theorem State.setCtx_poolIn (s : State) (u : Nat) (c : Context) : (s.setCtx u c).poolIn = s.poolIn := rfl
@[simp] theorem State.setCtx_past (s : State) (u : Nat) (c : Context) : (s.setCtx u c).past = s.past := rfl
@[simp] theorem State.setCtx_poolDirty (s : State) (u : Nat) (c : Context) : (s.setCtx u c).poolDirty = s.poolDirty := rfl
@[simp] theorem State.setCtx_poolDev (s : State) (u : Nat) (c : Context) : (s.setCtx u c).poolDev = s.poolDev := rfl
@[simp] theorem State.setCtx_bells (s : State) (u : Nat) (c : Context) : (s.setCtx u c).bells = s.bells := rfl
@[simp] theorem State.setCtx_partCmds (s : State) (u : Nat) (c : Context) : (s.setCtx u c).partCmds = s.partCmds := rfl
@[simp] theorem State.setCtx_partWaits (s : State) (u : Nat) (c : Context) : (s.setCtx u c).partWaits = s.partWaits := rfl
@[simp] theorem State.setCtx_resetting (s : State) (u : Nat) (c : Context) : (s.setCtx u c).resetting = s.resetting := rfl
@[simp] theorem State.setCtx_lends (s : State) (u : Nat) (c : Context) : (s.setCtx u c).lends = s.lends := rfl
@[simp] theorem State.setCtx_cycling (s : State) (u : Nat) (c : Context) : (s.setCtx u c).cycling = s.cycling := rfl
@[simp] theorem State.setCtx_taken (s : State) (u : Nat) (c : Context) : (s.setCtx u c).taken = s.taken := rfl
@[simp] theorem State.setCtx_scrubs (s : State) (u : Nat) (c : Context) : (s.setCtx u c).scrubs = s.scrubs := rfl
@[simp] theorem State.setCtx_sysReqs (s : State) (u : Nat) (c : Context) : (s.setCtx u c).sysReqs = s.sysReqs := rfl
@[simp] theorem State.setCtx_nodes (s : State) (u : Nat) (c : Context) : (s.setCtx u c).nodes = s.nodes := rfl
@[simp] theorem State.setCtx_spaces (s : State) (u : Nat) (c : Context) : (s.setCtx u c).spaces = s.spaces := rfl
@[simp] theorem State.setCtx_gens (s : State) (u : Nat) (c : Context) : (s.setCtx u c).gens = s.gens := rfl
@[simp] theorem State.setCtx_walks (s : State) (u : Nat) (c : Context) : (s.setCtx u c).walks = s.walks := rfl
@[simp] theorem State.setCtx_grants (s : State) (u : Nat) (c : Context) : (s.setCtx u c).grants = s.grants := rfl
@[simp] theorem State.setCtx_moves (s : State) (u : Nat) (c : Context) : (s.setCtx u c).moves = s.moves := rfl
@[simp] theorem State.setCtx_retry (s : State) (u : Nat) (c : Context) : (s.setCtx u c).retry = s.retry := rfl
@[simp] theorem State.setCtx_remoteMons (s : State) (u : Nat) (c : Context) : (s.setCtx u c).remoteMons = s.remoteMons := rfl
@[simp] theorem State.setCtx_notices (s : State) (u : Nat) (c : Context) : (s.setCtx u c).notices = s.notices := rfl
@[simp] theorem State.setCtx_cores (s : State) (u : Nat) (c : Context) : (s.setCtx u c).cores = s.cores := rfl
@[simp] theorem State.setCtx_clusters (s : State) (u : Nat) (c : Context) : (s.setCtx u c).clusters = s.clusters := rfl
@[simp] theorem State.setCtx_dies (s : State) (u : Nat) (c : Context) : (s.setCtx u c).dies = s.dies := rfl
@[simp] theorem State.setCtx_net (s : State) (u : Nat) (c : Context) : (s.setCtx u c).net = s.net := rfl
@[simp] theorem State.setCtx_launches (s : State) (u : Nat) (c : Context) : (s.setCtx u c).launches = s.launches := rfl
@[simp] theorem State.setCtx_regions (s : State) (u : Nat) (c : Context) : (s.setCtx u c).regions = s.regions := rfl
@[simp] theorem State.setCtx_launchMsgs (s : State) (u : Nat) (c : Context) : (s.setCtx u c).launchMsgs = s.launchMsgs := rfl
@[simp] theorem State.setCtx_nextOrder (s : State) (u : Nat) (c : Context) : (s.setCtx u c).nextOrder = s.nextOrder := rfl
@[simp] theorem State.setCtx_charges (s : State) (u : Nat) (c : Context) : (s.setCtx u c).charges = s.charges := rfl
@[simp] theorem State.setCtx_spent (s : State) (u : Nat) (c : Context) : (s.setCtx u c).spent = s.spent := rfl
@[simp] theorem State.setCtx_restarts (s : State) (u : Nat) (c : Context) : (s.setCtx u c).restarts = s.restarts := rfl
@[simp] theorem State.setCtx_worlds (s : State) (u : Nat) (c : Context) : (s.setCtx u c).worlds = s.worlds := rfl
@[simp] theorem State.setCtx_scheds (s : State) (u : Nat) (c : Context) : (s.setCtx u c).scheds = s.scheds := rfl
@[simp] theorem State.setCtx_masters (s : State) (u : Nat) (c : Context) : (s.setCtx u c).masters = s.masters := rfl
@[simp] theorem State.setCtx_vsyncs (s : State) (u : Nat) (c : Context) : (s.setCtx u c).vsyncs = s.vsyncs := rfl
@[simp] theorem State.setCtx_savedMat (s : State) (u : Nat) (c : Context) : (s.setCtx u c).savedMat = s.savedMat := rfl
@[simp] theorem State.setCtx_savedCpy (s : State) (u : Nat) (c : Context) : (s.setCtx u c).savedCpy = s.savedCpy := rfl
@[simp] theorem State.setCtx_savedVec (s : State) (u : Nat) (c : Context) : (s.setCtx u c).savedVec = s.savedVec := rfl
@[simp] theorem State.setCtx_router (s : State) (u : Nat) (c : Context) : (s.setCtx u c).router = s.router := rfl
@[simp] theorem State.setCtx_trust (s : State) (u : Nat) (c : Context) : (s.setCtx u c).trust = s.trust := rfl

/-! ## `State.modCtx` -/

@[simp] theorem State.modCtx_agenda (s : State) (u : Nat) (f : Context → Context) : (s.modCtx u f).agenda = s.agenda := rfl
@[simp] theorem State.modCtx_issuing (s : State) (u : Nat) (f : Context → Context) : (s.modCtx u f).issuing = s.issuing := rfl
@[simp] theorem State.modCtx_tried (s : State) (u : Nat) (f : Context → Context) : (s.modCtx u f).tried = s.tried := rfl
@[simp] theorem State.modCtx_nextUid (s : State) (u : Nat) (f : Context → Context) : (s.modCtx u f).nextUid = s.nextUid := rfl
@[simp] theorem State.modCtx_draws (s : State) (u : Nat) (f : Context → Context) : (s.modCtx u f).draws = s.draws := rfl
@[simp] theorem State.modCtx_turn (s : State) (u : Nat) (f : Context → Context) : (s.modCtx u f).turn = s.turn := rfl
@[simp] theorem State.modCtx_out (s : State) (u : Nat) (f : Context → Context) : (s.modCtx u f).out = s.out := rfl
@[simp] theorem State.modCtx_pkg (s : State) (u : Nat) (f : Context → Context) : (s.modCtx u f).pkg = s.pkg := rfl
@[simp] theorem State.modCtx_boot (s : State) (u : Nat) (f : Context → Context) : (s.modCtx u f).boot = s.boot := rfl
@[simp] theorem State.modCtx_temps (s : State) (u : Nat) (f : Context → Context) : (s.modCtx u f).temps = s.temps := rfl
@[simp] theorem State.modCtx_mem (s : State) (u : Nat) (f : Context → Context) : (s.modCtx u f).mem = s.mem := rfl
@[simp] theorem State.modCtx_pages (s : State) (u : Nat) (f : Context → Context) : (s.modCtx u f).pages = s.pages := rfl
@[simp] theorem State.modCtx_cxlMib (s : State) (u : Nat) (f : Context → Context) : (s.modCtx u f).cxlMib = s.cxlMib := rfl
@[simp] theorem State.modCtx_peers (s : State) (u : Nat) (f : Context → Context) : (s.modCtx u f).peers = s.peers := rfl
@[simp] theorem State.modCtx_poolIn (s : State) (u : Nat) (f : Context → Context) : (s.modCtx u f).poolIn = s.poolIn := rfl
@[simp] theorem State.modCtx_past (s : State) (u : Nat) (f : Context → Context) : (s.modCtx u f).past = s.past := rfl
@[simp] theorem State.modCtx_poolDirty (s : State) (u : Nat) (f : Context → Context) : (s.modCtx u f).poolDirty = s.poolDirty := rfl
@[simp] theorem State.modCtx_poolDev (s : State) (u : Nat) (f : Context → Context) : (s.modCtx u f).poolDev = s.poolDev := rfl
@[simp] theorem State.modCtx_bells (s : State) (u : Nat) (f : Context → Context) : (s.modCtx u f).bells = s.bells := rfl
@[simp] theorem State.modCtx_partCmds (s : State) (u : Nat) (f : Context → Context) : (s.modCtx u f).partCmds = s.partCmds := rfl
@[simp] theorem State.modCtx_partWaits (s : State) (u : Nat) (f : Context → Context) : (s.modCtx u f).partWaits = s.partWaits := rfl
@[simp] theorem State.modCtx_resetting (s : State) (u : Nat) (f : Context → Context) : (s.modCtx u f).resetting = s.resetting := rfl
@[simp] theorem State.modCtx_lends (s : State) (u : Nat) (f : Context → Context) : (s.modCtx u f).lends = s.lends := rfl
@[simp] theorem State.modCtx_cycling (s : State) (u : Nat) (f : Context → Context) : (s.modCtx u f).cycling = s.cycling := rfl
@[simp] theorem State.modCtx_taken (s : State) (u : Nat) (f : Context → Context) : (s.modCtx u f).taken = s.taken := rfl
@[simp] theorem State.modCtx_scrubs (s : State) (u : Nat) (f : Context → Context) : (s.modCtx u f).scrubs = s.scrubs := rfl
@[simp] theorem State.modCtx_sysReqs (s : State) (u : Nat) (f : Context → Context) : (s.modCtx u f).sysReqs = s.sysReqs := rfl
@[simp] theorem State.modCtx_nodes (s : State) (u : Nat) (f : Context → Context) : (s.modCtx u f).nodes = s.nodes := rfl
@[simp] theorem State.modCtx_spaces (s : State) (u : Nat) (f : Context → Context) : (s.modCtx u f).spaces = s.spaces := rfl
@[simp] theorem State.modCtx_gens (s : State) (u : Nat) (f : Context → Context) : (s.modCtx u f).gens = s.gens := rfl
@[simp] theorem State.modCtx_walks (s : State) (u : Nat) (f : Context → Context) : (s.modCtx u f).walks = s.walks := rfl
@[simp] theorem State.modCtx_grants (s : State) (u : Nat) (f : Context → Context) : (s.modCtx u f).grants = s.grants := rfl
@[simp] theorem State.modCtx_moves (s : State) (u : Nat) (f : Context → Context) : (s.modCtx u f).moves = s.moves := rfl
@[simp] theorem State.modCtx_retry (s : State) (u : Nat) (f : Context → Context) : (s.modCtx u f).retry = s.retry := rfl
@[simp] theorem State.modCtx_remoteMons (s : State) (u : Nat) (f : Context → Context) : (s.modCtx u f).remoteMons = s.remoteMons := rfl
@[simp] theorem State.modCtx_notices (s : State) (u : Nat) (f : Context → Context) : (s.modCtx u f).notices = s.notices := rfl
@[simp] theorem State.modCtx_cores (s : State) (u : Nat) (f : Context → Context) : (s.modCtx u f).cores = s.cores := rfl
@[simp] theorem State.modCtx_clusters (s : State) (u : Nat) (f : Context → Context) : (s.modCtx u f).clusters = s.clusters := rfl
@[simp] theorem State.modCtx_dies (s : State) (u : Nat) (f : Context → Context) : (s.modCtx u f).dies = s.dies := rfl
@[simp] theorem State.modCtx_net (s : State) (u : Nat) (f : Context → Context) : (s.modCtx u f).net = s.net := rfl
@[simp] theorem State.modCtx_launches (s : State) (u : Nat) (f : Context → Context) : (s.modCtx u f).launches = s.launches := rfl
@[simp] theorem State.modCtx_regions (s : State) (u : Nat) (f : Context → Context) : (s.modCtx u f).regions = s.regions := rfl
@[simp] theorem State.modCtx_launchMsgs (s : State) (u : Nat) (f : Context → Context) : (s.modCtx u f).launchMsgs = s.launchMsgs := rfl
@[simp] theorem State.modCtx_nextOrder (s : State) (u : Nat) (f : Context → Context) : (s.modCtx u f).nextOrder = s.nextOrder := rfl
@[simp] theorem State.modCtx_charges (s : State) (u : Nat) (f : Context → Context) : (s.modCtx u f).charges = s.charges := rfl
@[simp] theorem State.modCtx_spent (s : State) (u : Nat) (f : Context → Context) : (s.modCtx u f).spent = s.spent := rfl
@[simp] theorem State.modCtx_restarts (s : State) (u : Nat) (f : Context → Context) : (s.modCtx u f).restarts = s.restarts := rfl
@[simp] theorem State.modCtx_worlds (s : State) (u : Nat) (f : Context → Context) : (s.modCtx u f).worlds = s.worlds := rfl
@[simp] theorem State.modCtx_scheds (s : State) (u : Nat) (f : Context → Context) : (s.modCtx u f).scheds = s.scheds := rfl
@[simp] theorem State.modCtx_masters (s : State) (u : Nat) (f : Context → Context) : (s.modCtx u f).masters = s.masters := rfl
@[simp] theorem State.modCtx_vsyncs (s : State) (u : Nat) (f : Context → Context) : (s.modCtx u f).vsyncs = s.vsyncs := rfl
@[simp] theorem State.modCtx_savedMat (s : State) (u : Nat) (f : Context → Context) : (s.modCtx u f).savedMat = s.savedMat := rfl
@[simp] theorem State.modCtx_savedCpy (s : State) (u : Nat) (f : Context → Context) : (s.modCtx u f).savedCpy = s.savedCpy := rfl
@[simp] theorem State.modCtx_savedVec (s : State) (u : Nat) (f : Context → Context) : (s.modCtx u f).savedVec = s.savedVec := rfl
@[simp] theorem State.modCtx_router (s : State) (u : Nat) (f : Context → Context) : (s.modCtx u f).router = s.router := rfl
@[simp] theorem State.modCtx_trust (s : State) (u : Nat) (f : Context → Context) : (s.modCtx u f).trust = s.trust := rfl

/-! ## `State.setCore` -/

@[simp] theorem State.setCore_agenda (s : State) (d n : Nat) (k : Core) : (s.setCore d n k).agenda = s.agenda := rfl
@[simp] theorem State.setCore_issuing (s : State) (d n : Nat) (k : Core) : (s.setCore d n k).issuing = s.issuing := rfl
@[simp] theorem State.setCore_tried (s : State) (d n : Nat) (k : Core) : (s.setCore d n k).tried = s.tried := rfl
@[simp] theorem State.setCore_nextUid (s : State) (d n : Nat) (k : Core) : (s.setCore d n k).nextUid = s.nextUid := rfl
@[simp] theorem State.setCore_draws (s : State) (d n : Nat) (k : Core) : (s.setCore d n k).draws = s.draws := rfl
@[simp] theorem State.setCore_turn (s : State) (d n : Nat) (k : Core) : (s.setCore d n k).turn = s.turn := rfl
@[simp] theorem State.setCore_out (s : State) (d n : Nat) (k : Core) : (s.setCore d n k).out = s.out := rfl
@[simp] theorem State.setCore_pkg (s : State) (d n : Nat) (k : Core) : (s.setCore d n k).pkg = s.pkg := rfl
@[simp] theorem State.setCore_boot (s : State) (d n : Nat) (k : Core) : (s.setCore d n k).boot = s.boot := rfl
@[simp] theorem State.setCore_temps (s : State) (d n : Nat) (k : Core) : (s.setCore d n k).temps = s.temps := rfl
@[simp] theorem State.setCore_mem (s : State) (d n : Nat) (k : Core) : (s.setCore d n k).mem = s.mem := rfl
@[simp] theorem State.setCore_pages (s : State) (d n : Nat) (k : Core) : (s.setCore d n k).pages = s.pages := rfl
@[simp] theorem State.setCore_cxlMib (s : State) (d n : Nat) (k : Core) : (s.setCore d n k).cxlMib = s.cxlMib := rfl
@[simp] theorem State.setCore_peers (s : State) (d n : Nat) (k : Core) : (s.setCore d n k).peers = s.peers := rfl
@[simp] theorem State.setCore_poolIn (s : State) (d n : Nat) (k : Core) : (s.setCore d n k).poolIn = s.poolIn := rfl
@[simp] theorem State.setCore_past (s : State) (d n : Nat) (k : Core) : (s.setCore d n k).past = s.past := rfl
@[simp] theorem State.setCore_poolDirty (s : State) (d n : Nat) (k : Core) : (s.setCore d n k).poolDirty = s.poolDirty := rfl
@[simp] theorem State.setCore_poolDev (s : State) (d n : Nat) (k : Core) : (s.setCore d n k).poolDev = s.poolDev := rfl
@[simp] theorem State.setCore_bells (s : State) (d n : Nat) (k : Core) : (s.setCore d n k).bells = s.bells := rfl
@[simp] theorem State.setCore_partCmds (s : State) (d n : Nat) (k : Core) : (s.setCore d n k).partCmds = s.partCmds := rfl
@[simp] theorem State.setCore_partWaits (s : State) (d n : Nat) (k : Core) : (s.setCore d n k).partWaits = s.partWaits := rfl
@[simp] theorem State.setCore_resetting (s : State) (d n : Nat) (k : Core) : (s.setCore d n k).resetting = s.resetting := rfl
@[simp] theorem State.setCore_lends (s : State) (d n : Nat) (k : Core) : (s.setCore d n k).lends = s.lends := rfl
@[simp] theorem State.setCore_cycling (s : State) (d n : Nat) (k : Core) : (s.setCore d n k).cycling = s.cycling := rfl
@[simp] theorem State.setCore_taken (s : State) (d n : Nat) (k : Core) : (s.setCore d n k).taken = s.taken := rfl
@[simp] theorem State.setCore_scrubs (s : State) (d n : Nat) (k : Core) : (s.setCore d n k).scrubs = s.scrubs := rfl
@[simp] theorem State.setCore_sysReqs (s : State) (d n : Nat) (k : Core) : (s.setCore d n k).sysReqs = s.sysReqs := rfl
@[simp] theorem State.setCore_nodes (s : State) (d n : Nat) (k : Core) : (s.setCore d n k).nodes = s.nodes := rfl
@[simp] theorem State.setCore_spaces (s : State) (d n : Nat) (k : Core) : (s.setCore d n k).spaces = s.spaces := rfl
@[simp] theorem State.setCore_gens (s : State) (d n : Nat) (k : Core) : (s.setCore d n k).gens = s.gens := rfl
@[simp] theorem State.setCore_walks (s : State) (d n : Nat) (k : Core) : (s.setCore d n k).walks = s.walks := rfl
@[simp] theorem State.setCore_grants (s : State) (d n : Nat) (k : Core) : (s.setCore d n k).grants = s.grants := rfl
@[simp] theorem State.setCore_moves (s : State) (d n : Nat) (k : Core) : (s.setCore d n k).moves = s.moves := rfl
@[simp] theorem State.setCore_retry (s : State) (d n : Nat) (k : Core) : (s.setCore d n k).retry = s.retry := rfl
@[simp] theorem State.setCore_remoteMons (s : State) (d n : Nat) (k : Core) : (s.setCore d n k).remoteMons = s.remoteMons := rfl
@[simp] theorem State.setCore_notices (s : State) (d n : Nat) (k : Core) : (s.setCore d n k).notices = s.notices := rfl
@[simp] theorem State.setCore_ctxs (s : State) (d n : Nat) (k : Core) : (s.setCore d n k).ctxs = s.ctxs := rfl
@[simp] theorem State.setCore_clusters (s : State) (d n : Nat) (k : Core) : (s.setCore d n k).clusters = s.clusters := rfl
@[simp] theorem State.setCore_dies (s : State) (d n : Nat) (k : Core) : (s.setCore d n k).dies = s.dies := rfl
@[simp] theorem State.setCore_net (s : State) (d n : Nat) (k : Core) : (s.setCore d n k).net = s.net := rfl
@[simp] theorem State.setCore_launches (s : State) (d n : Nat) (k : Core) : (s.setCore d n k).launches = s.launches := rfl
@[simp] theorem State.setCore_regions (s : State) (d n : Nat) (k : Core) : (s.setCore d n k).regions = s.regions := rfl
@[simp] theorem State.setCore_launchMsgs (s : State) (d n : Nat) (k : Core) : (s.setCore d n k).launchMsgs = s.launchMsgs := rfl
@[simp] theorem State.setCore_nextOrder (s : State) (d n : Nat) (k : Core) : (s.setCore d n k).nextOrder = s.nextOrder := rfl
@[simp] theorem State.setCore_charges (s : State) (d n : Nat) (k : Core) : (s.setCore d n k).charges = s.charges := rfl
@[simp] theorem State.setCore_spent (s : State) (d n : Nat) (k : Core) : (s.setCore d n k).spent = s.spent := rfl
@[simp] theorem State.setCore_restarts (s : State) (d n : Nat) (k : Core) : (s.setCore d n k).restarts = s.restarts := rfl
@[simp] theorem State.setCore_worlds (s : State) (d n : Nat) (k : Core) : (s.setCore d n k).worlds = s.worlds := rfl
@[simp] theorem State.setCore_scheds (s : State) (d n : Nat) (k : Core) : (s.setCore d n k).scheds = s.scheds := rfl
@[simp] theorem State.setCore_masters (s : State) (d n : Nat) (k : Core) : (s.setCore d n k).masters = s.masters := rfl
@[simp] theorem State.setCore_vsyncs (s : State) (d n : Nat) (k : Core) : (s.setCore d n k).vsyncs = s.vsyncs := rfl
@[simp] theorem State.setCore_savedMat (s : State) (d n : Nat) (k : Core) : (s.setCore d n k).savedMat = s.savedMat := rfl
@[simp] theorem State.setCore_savedCpy (s : State) (d n : Nat) (k : Core) : (s.setCore d n k).savedCpy = s.savedCpy := rfl
@[simp] theorem State.setCore_savedVec (s : State) (d n : Nat) (k : Core) : (s.setCore d n k).savedVec = s.savedVec := rfl
@[simp] theorem State.setCore_router (s : State) (d n : Nat) (k : Core) : (s.setCore d n k).router = s.router := rfl
@[simp] theorem State.setCore_trust (s : State) (d n : Nat) (k : Core) : (s.setCore d n k).trust = s.trust := rfl

/-! ## `State.modCore` -/

@[simp] theorem State.modCore_agenda (s : State) (d n : Nat) (f : Core → Core) : (s.modCore d n f).agenda = s.agenda := rfl
@[simp] theorem State.modCore_issuing (s : State) (d n : Nat) (f : Core → Core) : (s.modCore d n f).issuing = s.issuing := rfl
@[simp] theorem State.modCore_tried (s : State) (d n : Nat) (f : Core → Core) : (s.modCore d n f).tried = s.tried := rfl
@[simp] theorem State.modCore_nextUid (s : State) (d n : Nat) (f : Core → Core) : (s.modCore d n f).nextUid = s.nextUid := rfl
@[simp] theorem State.modCore_draws (s : State) (d n : Nat) (f : Core → Core) : (s.modCore d n f).draws = s.draws := rfl
@[simp] theorem State.modCore_turn (s : State) (d n : Nat) (f : Core → Core) : (s.modCore d n f).turn = s.turn := rfl
@[simp] theorem State.modCore_out (s : State) (d n : Nat) (f : Core → Core) : (s.modCore d n f).out = s.out := rfl
@[simp] theorem State.modCore_pkg (s : State) (d n : Nat) (f : Core → Core) : (s.modCore d n f).pkg = s.pkg := rfl
@[simp] theorem State.modCore_boot (s : State) (d n : Nat) (f : Core → Core) : (s.modCore d n f).boot = s.boot := rfl
@[simp] theorem State.modCore_temps (s : State) (d n : Nat) (f : Core → Core) : (s.modCore d n f).temps = s.temps := rfl
@[simp] theorem State.modCore_mem (s : State) (d n : Nat) (f : Core → Core) : (s.modCore d n f).mem = s.mem := rfl
@[simp] theorem State.modCore_pages (s : State) (d n : Nat) (f : Core → Core) : (s.modCore d n f).pages = s.pages := rfl
@[simp] theorem State.modCore_cxlMib (s : State) (d n : Nat) (f : Core → Core) : (s.modCore d n f).cxlMib = s.cxlMib := rfl
@[simp] theorem State.modCore_peers (s : State) (d n : Nat) (f : Core → Core) : (s.modCore d n f).peers = s.peers := rfl
@[simp] theorem State.modCore_poolIn (s : State) (d n : Nat) (f : Core → Core) : (s.modCore d n f).poolIn = s.poolIn := rfl
@[simp] theorem State.modCore_past (s : State) (d n : Nat) (f : Core → Core) : (s.modCore d n f).past = s.past := rfl
@[simp] theorem State.modCore_poolDirty (s : State) (d n : Nat) (f : Core → Core) : (s.modCore d n f).poolDirty = s.poolDirty := rfl
@[simp] theorem State.modCore_poolDev (s : State) (d n : Nat) (f : Core → Core) : (s.modCore d n f).poolDev = s.poolDev := rfl
@[simp] theorem State.modCore_bells (s : State) (d n : Nat) (f : Core → Core) : (s.modCore d n f).bells = s.bells := rfl
@[simp] theorem State.modCore_partCmds (s : State) (d n : Nat) (f : Core → Core) : (s.modCore d n f).partCmds = s.partCmds := rfl
@[simp] theorem State.modCore_partWaits (s : State) (d n : Nat) (f : Core → Core) : (s.modCore d n f).partWaits = s.partWaits := rfl
@[simp] theorem State.modCore_resetting (s : State) (d n : Nat) (f : Core → Core) : (s.modCore d n f).resetting = s.resetting := rfl
@[simp] theorem State.modCore_lends (s : State) (d n : Nat) (f : Core → Core) : (s.modCore d n f).lends = s.lends := rfl
@[simp] theorem State.modCore_cycling (s : State) (d n : Nat) (f : Core → Core) : (s.modCore d n f).cycling = s.cycling := rfl
@[simp] theorem State.modCore_taken (s : State) (d n : Nat) (f : Core → Core) : (s.modCore d n f).taken = s.taken := rfl
@[simp] theorem State.modCore_scrubs (s : State) (d n : Nat) (f : Core → Core) : (s.modCore d n f).scrubs = s.scrubs := rfl
@[simp] theorem State.modCore_sysReqs (s : State) (d n : Nat) (f : Core → Core) : (s.modCore d n f).sysReqs = s.sysReqs := rfl
@[simp] theorem State.modCore_nodes (s : State) (d n : Nat) (f : Core → Core) : (s.modCore d n f).nodes = s.nodes := rfl
@[simp] theorem State.modCore_spaces (s : State) (d n : Nat) (f : Core → Core) : (s.modCore d n f).spaces = s.spaces := rfl
@[simp] theorem State.modCore_gens (s : State) (d n : Nat) (f : Core → Core) : (s.modCore d n f).gens = s.gens := rfl
@[simp] theorem State.modCore_walks (s : State) (d n : Nat) (f : Core → Core) : (s.modCore d n f).walks = s.walks := rfl
@[simp] theorem State.modCore_grants (s : State) (d n : Nat) (f : Core → Core) : (s.modCore d n f).grants = s.grants := rfl
@[simp] theorem State.modCore_moves (s : State) (d n : Nat) (f : Core → Core) : (s.modCore d n f).moves = s.moves := rfl
@[simp] theorem State.modCore_retry (s : State) (d n : Nat) (f : Core → Core) : (s.modCore d n f).retry = s.retry := rfl
@[simp] theorem State.modCore_remoteMons (s : State) (d n : Nat) (f : Core → Core) : (s.modCore d n f).remoteMons = s.remoteMons := rfl
@[simp] theorem State.modCore_notices (s : State) (d n : Nat) (f : Core → Core) : (s.modCore d n f).notices = s.notices := rfl
@[simp] theorem State.modCore_ctxs (s : State) (d n : Nat) (f : Core → Core) : (s.modCore d n f).ctxs = s.ctxs := rfl
@[simp] theorem State.modCore_clusters (s : State) (d n : Nat) (f : Core → Core) : (s.modCore d n f).clusters = s.clusters := rfl
@[simp] theorem State.modCore_dies (s : State) (d n : Nat) (f : Core → Core) : (s.modCore d n f).dies = s.dies := rfl
@[simp] theorem State.modCore_net (s : State) (d n : Nat) (f : Core → Core) : (s.modCore d n f).net = s.net := rfl
@[simp] theorem State.modCore_launches (s : State) (d n : Nat) (f : Core → Core) : (s.modCore d n f).launches = s.launches := rfl
@[simp] theorem State.modCore_regions (s : State) (d n : Nat) (f : Core → Core) : (s.modCore d n f).regions = s.regions := rfl
@[simp] theorem State.modCore_launchMsgs (s : State) (d n : Nat) (f : Core → Core) : (s.modCore d n f).launchMsgs = s.launchMsgs := rfl
@[simp] theorem State.modCore_nextOrder (s : State) (d n : Nat) (f : Core → Core) : (s.modCore d n f).nextOrder = s.nextOrder := rfl
@[simp] theorem State.modCore_charges (s : State) (d n : Nat) (f : Core → Core) : (s.modCore d n f).charges = s.charges := rfl
@[simp] theorem State.modCore_spent (s : State) (d n : Nat) (f : Core → Core) : (s.modCore d n f).spent = s.spent := rfl
@[simp] theorem State.modCore_restarts (s : State) (d n : Nat) (f : Core → Core) : (s.modCore d n f).restarts = s.restarts := rfl
@[simp] theorem State.modCore_worlds (s : State) (d n : Nat) (f : Core → Core) : (s.modCore d n f).worlds = s.worlds := rfl
@[simp] theorem State.modCore_scheds (s : State) (d n : Nat) (f : Core → Core) : (s.modCore d n f).scheds = s.scheds := rfl
@[simp] theorem State.modCore_masters (s : State) (d n : Nat) (f : Core → Core) : (s.modCore d n f).masters = s.masters := rfl
@[simp] theorem State.modCore_vsyncs (s : State) (d n : Nat) (f : Core → Core) : (s.modCore d n f).vsyncs = s.vsyncs := rfl
@[simp] theorem State.modCore_savedMat (s : State) (d n : Nat) (f : Core → Core) : (s.modCore d n f).savedMat = s.savedMat := rfl
@[simp] theorem State.modCore_savedCpy (s : State) (d n : Nat) (f : Core → Core) : (s.modCore d n f).savedCpy = s.savedCpy := rfl
@[simp] theorem State.modCore_savedVec (s : State) (d n : Nat) (f : Core → Core) : (s.modCore d n f).savedVec = s.savedVec := rfl
@[simp] theorem State.modCore_router (s : State) (d n : Nat) (f : Core → Core) : (s.modCore d n f).router = s.router := rfl
@[simp] theorem State.modCore_trust (s : State) (d n : Nat) (f : Core → Core) : (s.modCore d n f).trust = s.trust := rfl

/-! ## `State.setCluster` -/

@[simp] theorem State.setCluster_agenda (s : State) (d n : Nat) (k : Cluster) : (s.setCluster d n k).agenda = s.agenda := rfl
@[simp] theorem State.setCluster_issuing (s : State) (d n : Nat) (k : Cluster) : (s.setCluster d n k).issuing = s.issuing := rfl
@[simp] theorem State.setCluster_tried (s : State) (d n : Nat) (k : Cluster) : (s.setCluster d n k).tried = s.tried := rfl
@[simp] theorem State.setCluster_nextUid (s : State) (d n : Nat) (k : Cluster) : (s.setCluster d n k).nextUid = s.nextUid := rfl
@[simp] theorem State.setCluster_draws (s : State) (d n : Nat) (k : Cluster) : (s.setCluster d n k).draws = s.draws := rfl
@[simp] theorem State.setCluster_turn (s : State) (d n : Nat) (k : Cluster) : (s.setCluster d n k).turn = s.turn := rfl
@[simp] theorem State.setCluster_out (s : State) (d n : Nat) (k : Cluster) : (s.setCluster d n k).out = s.out := rfl
@[simp] theorem State.setCluster_pkg (s : State) (d n : Nat) (k : Cluster) : (s.setCluster d n k).pkg = s.pkg := rfl
@[simp] theorem State.setCluster_boot (s : State) (d n : Nat) (k : Cluster) : (s.setCluster d n k).boot = s.boot := rfl
@[simp] theorem State.setCluster_temps (s : State) (d n : Nat) (k : Cluster) : (s.setCluster d n k).temps = s.temps := rfl
@[simp] theorem State.setCluster_mem (s : State) (d n : Nat) (k : Cluster) : (s.setCluster d n k).mem = s.mem := rfl
@[simp] theorem State.setCluster_pages (s : State) (d n : Nat) (k : Cluster) : (s.setCluster d n k).pages = s.pages := rfl
@[simp] theorem State.setCluster_cxlMib (s : State) (d n : Nat) (k : Cluster) : (s.setCluster d n k).cxlMib = s.cxlMib := rfl
@[simp] theorem State.setCluster_peers (s : State) (d n : Nat) (k : Cluster) : (s.setCluster d n k).peers = s.peers := rfl
@[simp] theorem State.setCluster_poolIn (s : State) (d n : Nat) (k : Cluster) : (s.setCluster d n k).poolIn = s.poolIn := rfl
@[simp] theorem State.setCluster_past (s : State) (d n : Nat) (k : Cluster) : (s.setCluster d n k).past = s.past := rfl
@[simp] theorem State.setCluster_poolDirty (s : State) (d n : Nat) (k : Cluster) : (s.setCluster d n k).poolDirty = s.poolDirty := rfl
@[simp] theorem State.setCluster_poolDev (s : State) (d n : Nat) (k : Cluster) : (s.setCluster d n k).poolDev = s.poolDev := rfl
@[simp] theorem State.setCluster_bells (s : State) (d n : Nat) (k : Cluster) : (s.setCluster d n k).bells = s.bells := rfl
@[simp] theorem State.setCluster_partCmds (s : State) (d n : Nat) (k : Cluster) : (s.setCluster d n k).partCmds = s.partCmds := rfl
@[simp] theorem State.setCluster_partWaits (s : State) (d n : Nat) (k : Cluster) : (s.setCluster d n k).partWaits = s.partWaits := rfl
@[simp] theorem State.setCluster_resetting (s : State) (d n : Nat) (k : Cluster) : (s.setCluster d n k).resetting = s.resetting := rfl
@[simp] theorem State.setCluster_lends (s : State) (d n : Nat) (k : Cluster) : (s.setCluster d n k).lends = s.lends := rfl
@[simp] theorem State.setCluster_cycling (s : State) (d n : Nat) (k : Cluster) : (s.setCluster d n k).cycling = s.cycling := rfl
@[simp] theorem State.setCluster_taken (s : State) (d n : Nat) (k : Cluster) : (s.setCluster d n k).taken = s.taken := rfl
@[simp] theorem State.setCluster_scrubs (s : State) (d n : Nat) (k : Cluster) : (s.setCluster d n k).scrubs = s.scrubs := rfl
@[simp] theorem State.setCluster_sysReqs (s : State) (d n : Nat) (k : Cluster) : (s.setCluster d n k).sysReqs = s.sysReqs := rfl
@[simp] theorem State.setCluster_nodes (s : State) (d n : Nat) (k : Cluster) : (s.setCluster d n k).nodes = s.nodes := rfl
@[simp] theorem State.setCluster_spaces (s : State) (d n : Nat) (k : Cluster) : (s.setCluster d n k).spaces = s.spaces := rfl
@[simp] theorem State.setCluster_gens (s : State) (d n : Nat) (k : Cluster) : (s.setCluster d n k).gens = s.gens := rfl
@[simp] theorem State.setCluster_walks (s : State) (d n : Nat) (k : Cluster) : (s.setCluster d n k).walks = s.walks := rfl
@[simp] theorem State.setCluster_grants (s : State) (d n : Nat) (k : Cluster) : (s.setCluster d n k).grants = s.grants := rfl
@[simp] theorem State.setCluster_moves (s : State) (d n : Nat) (k : Cluster) : (s.setCluster d n k).moves = s.moves := rfl
@[simp] theorem State.setCluster_retry (s : State) (d n : Nat) (k : Cluster) : (s.setCluster d n k).retry = s.retry := rfl
@[simp] theorem State.setCluster_remoteMons (s : State) (d n : Nat) (k : Cluster) : (s.setCluster d n k).remoteMons = s.remoteMons := rfl
@[simp] theorem State.setCluster_notices (s : State) (d n : Nat) (k : Cluster) : (s.setCluster d n k).notices = s.notices := rfl
@[simp] theorem State.setCluster_ctxs (s : State) (d n : Nat) (k : Cluster) : (s.setCluster d n k).ctxs = s.ctxs := rfl
@[simp] theorem State.setCluster_cores (s : State) (d n : Nat) (k : Cluster) : (s.setCluster d n k).cores = s.cores := rfl
@[simp] theorem State.setCluster_dies (s : State) (d n : Nat) (k : Cluster) : (s.setCluster d n k).dies = s.dies := rfl
@[simp] theorem State.setCluster_net (s : State) (d n : Nat) (k : Cluster) : (s.setCluster d n k).net = s.net := rfl
@[simp] theorem State.setCluster_launches (s : State) (d n : Nat) (k : Cluster) : (s.setCluster d n k).launches = s.launches := rfl
@[simp] theorem State.setCluster_regions (s : State) (d n : Nat) (k : Cluster) : (s.setCluster d n k).regions = s.regions := rfl
@[simp] theorem State.setCluster_launchMsgs (s : State) (d n : Nat) (k : Cluster) : (s.setCluster d n k).launchMsgs = s.launchMsgs := rfl
@[simp] theorem State.setCluster_nextOrder (s : State) (d n : Nat) (k : Cluster) : (s.setCluster d n k).nextOrder = s.nextOrder := rfl
@[simp] theorem State.setCluster_charges (s : State) (d n : Nat) (k : Cluster) : (s.setCluster d n k).charges = s.charges := rfl
@[simp] theorem State.setCluster_spent (s : State) (d n : Nat) (k : Cluster) : (s.setCluster d n k).spent = s.spent := rfl
@[simp] theorem State.setCluster_restarts (s : State) (d n : Nat) (k : Cluster) : (s.setCluster d n k).restarts = s.restarts := rfl
@[simp] theorem State.setCluster_worlds (s : State) (d n : Nat) (k : Cluster) : (s.setCluster d n k).worlds = s.worlds := rfl
@[simp] theorem State.setCluster_scheds (s : State) (d n : Nat) (k : Cluster) : (s.setCluster d n k).scheds = s.scheds := rfl
@[simp] theorem State.setCluster_masters (s : State) (d n : Nat) (k : Cluster) : (s.setCluster d n k).masters = s.masters := rfl
@[simp] theorem State.setCluster_vsyncs (s : State) (d n : Nat) (k : Cluster) : (s.setCluster d n k).vsyncs = s.vsyncs := rfl
@[simp] theorem State.setCluster_savedMat (s : State) (d n : Nat) (k : Cluster) : (s.setCluster d n k).savedMat = s.savedMat := rfl
@[simp] theorem State.setCluster_savedCpy (s : State) (d n : Nat) (k : Cluster) : (s.setCluster d n k).savedCpy = s.savedCpy := rfl
@[simp] theorem State.setCluster_savedVec (s : State) (d n : Nat) (k : Cluster) : (s.setCluster d n k).savedVec = s.savedVec := rfl
@[simp] theorem State.setCluster_router (s : State) (d n : Nat) (k : Cluster) : (s.setCluster d n k).router = s.router := rfl
@[simp] theorem State.setCluster_trust (s : State) (d n : Nat) (k : Cluster) : (s.setCluster d n k).trust = s.trust := rfl

/-! ## `State.modCluster` -/

@[simp] theorem State.modCluster_agenda (s : State) (d n : Nat) (f : Cluster → Cluster) : (s.modCluster d n f).agenda = s.agenda := rfl
@[simp] theorem State.modCluster_issuing (s : State) (d n : Nat) (f : Cluster → Cluster) : (s.modCluster d n f).issuing = s.issuing := rfl
@[simp] theorem State.modCluster_tried (s : State) (d n : Nat) (f : Cluster → Cluster) : (s.modCluster d n f).tried = s.tried := rfl
@[simp] theorem State.modCluster_nextUid (s : State) (d n : Nat) (f : Cluster → Cluster) : (s.modCluster d n f).nextUid = s.nextUid := rfl
@[simp] theorem State.modCluster_draws (s : State) (d n : Nat) (f : Cluster → Cluster) : (s.modCluster d n f).draws = s.draws := rfl
@[simp] theorem State.modCluster_turn (s : State) (d n : Nat) (f : Cluster → Cluster) : (s.modCluster d n f).turn = s.turn := rfl
@[simp] theorem State.modCluster_out (s : State) (d n : Nat) (f : Cluster → Cluster) : (s.modCluster d n f).out = s.out := rfl
@[simp] theorem State.modCluster_pkg (s : State) (d n : Nat) (f : Cluster → Cluster) : (s.modCluster d n f).pkg = s.pkg := rfl
@[simp] theorem State.modCluster_boot (s : State) (d n : Nat) (f : Cluster → Cluster) : (s.modCluster d n f).boot = s.boot := rfl
@[simp] theorem State.modCluster_temps (s : State) (d n : Nat) (f : Cluster → Cluster) : (s.modCluster d n f).temps = s.temps := rfl
@[simp] theorem State.modCluster_mem (s : State) (d n : Nat) (f : Cluster → Cluster) : (s.modCluster d n f).mem = s.mem := rfl
@[simp] theorem State.modCluster_pages (s : State) (d n : Nat) (f : Cluster → Cluster) : (s.modCluster d n f).pages = s.pages := rfl
@[simp] theorem State.modCluster_cxlMib (s : State) (d n : Nat) (f : Cluster → Cluster) : (s.modCluster d n f).cxlMib = s.cxlMib := rfl
@[simp] theorem State.modCluster_peers (s : State) (d n : Nat) (f : Cluster → Cluster) : (s.modCluster d n f).peers = s.peers := rfl
@[simp] theorem State.modCluster_poolIn (s : State) (d n : Nat) (f : Cluster → Cluster) : (s.modCluster d n f).poolIn = s.poolIn := rfl
@[simp] theorem State.modCluster_past (s : State) (d n : Nat) (f : Cluster → Cluster) : (s.modCluster d n f).past = s.past := rfl
@[simp] theorem State.modCluster_poolDirty (s : State) (d n : Nat) (f : Cluster → Cluster) : (s.modCluster d n f).poolDirty = s.poolDirty := rfl
@[simp] theorem State.modCluster_poolDev (s : State) (d n : Nat) (f : Cluster → Cluster) : (s.modCluster d n f).poolDev = s.poolDev := rfl
@[simp] theorem State.modCluster_bells (s : State) (d n : Nat) (f : Cluster → Cluster) : (s.modCluster d n f).bells = s.bells := rfl
@[simp] theorem State.modCluster_partCmds (s : State) (d n : Nat) (f : Cluster → Cluster) : (s.modCluster d n f).partCmds = s.partCmds := rfl
@[simp] theorem State.modCluster_partWaits (s : State) (d n : Nat) (f : Cluster → Cluster) : (s.modCluster d n f).partWaits = s.partWaits := rfl
@[simp] theorem State.modCluster_resetting (s : State) (d n : Nat) (f : Cluster → Cluster) : (s.modCluster d n f).resetting = s.resetting := rfl
@[simp] theorem State.modCluster_lends (s : State) (d n : Nat) (f : Cluster → Cluster) : (s.modCluster d n f).lends = s.lends := rfl
@[simp] theorem State.modCluster_cycling (s : State) (d n : Nat) (f : Cluster → Cluster) : (s.modCluster d n f).cycling = s.cycling := rfl
@[simp] theorem State.modCluster_taken (s : State) (d n : Nat) (f : Cluster → Cluster) : (s.modCluster d n f).taken = s.taken := rfl
@[simp] theorem State.modCluster_scrubs (s : State) (d n : Nat) (f : Cluster → Cluster) : (s.modCluster d n f).scrubs = s.scrubs := rfl
@[simp] theorem State.modCluster_sysReqs (s : State) (d n : Nat) (f : Cluster → Cluster) : (s.modCluster d n f).sysReqs = s.sysReqs := rfl
@[simp] theorem State.modCluster_nodes (s : State) (d n : Nat) (f : Cluster → Cluster) : (s.modCluster d n f).nodes = s.nodes := rfl
@[simp] theorem State.modCluster_spaces (s : State) (d n : Nat) (f : Cluster → Cluster) : (s.modCluster d n f).spaces = s.spaces := rfl
@[simp] theorem State.modCluster_gens (s : State) (d n : Nat) (f : Cluster → Cluster) : (s.modCluster d n f).gens = s.gens := rfl
@[simp] theorem State.modCluster_walks (s : State) (d n : Nat) (f : Cluster → Cluster) : (s.modCluster d n f).walks = s.walks := rfl
@[simp] theorem State.modCluster_grants (s : State) (d n : Nat) (f : Cluster → Cluster) : (s.modCluster d n f).grants = s.grants := rfl
@[simp] theorem State.modCluster_moves (s : State) (d n : Nat) (f : Cluster → Cluster) : (s.modCluster d n f).moves = s.moves := rfl
@[simp] theorem State.modCluster_retry (s : State) (d n : Nat) (f : Cluster → Cluster) : (s.modCluster d n f).retry = s.retry := rfl
@[simp] theorem State.modCluster_remoteMons (s : State) (d n : Nat) (f : Cluster → Cluster) : (s.modCluster d n f).remoteMons = s.remoteMons := rfl
@[simp] theorem State.modCluster_notices (s : State) (d n : Nat) (f : Cluster → Cluster) : (s.modCluster d n f).notices = s.notices := rfl
@[simp] theorem State.modCluster_ctxs (s : State) (d n : Nat) (f : Cluster → Cluster) : (s.modCluster d n f).ctxs = s.ctxs := rfl
@[simp] theorem State.modCluster_cores (s : State) (d n : Nat) (f : Cluster → Cluster) : (s.modCluster d n f).cores = s.cores := rfl
@[simp] theorem State.modCluster_dies (s : State) (d n : Nat) (f : Cluster → Cluster) : (s.modCluster d n f).dies = s.dies := rfl
@[simp] theorem State.modCluster_net (s : State) (d n : Nat) (f : Cluster → Cluster) : (s.modCluster d n f).net = s.net := rfl
@[simp] theorem State.modCluster_launches (s : State) (d n : Nat) (f : Cluster → Cluster) : (s.modCluster d n f).launches = s.launches := rfl
@[simp] theorem State.modCluster_regions (s : State) (d n : Nat) (f : Cluster → Cluster) : (s.modCluster d n f).regions = s.regions := rfl
@[simp] theorem State.modCluster_launchMsgs (s : State) (d n : Nat) (f : Cluster → Cluster) : (s.modCluster d n f).launchMsgs = s.launchMsgs := rfl
@[simp] theorem State.modCluster_nextOrder (s : State) (d n : Nat) (f : Cluster → Cluster) : (s.modCluster d n f).nextOrder = s.nextOrder := rfl
@[simp] theorem State.modCluster_charges (s : State) (d n : Nat) (f : Cluster → Cluster) : (s.modCluster d n f).charges = s.charges := rfl
@[simp] theorem State.modCluster_spent (s : State) (d n : Nat) (f : Cluster → Cluster) : (s.modCluster d n f).spent = s.spent := rfl
@[simp] theorem State.modCluster_restarts (s : State) (d n : Nat) (f : Cluster → Cluster) : (s.modCluster d n f).restarts = s.restarts := rfl
@[simp] theorem State.modCluster_worlds (s : State) (d n : Nat) (f : Cluster → Cluster) : (s.modCluster d n f).worlds = s.worlds := rfl
@[simp] theorem State.modCluster_scheds (s : State) (d n : Nat) (f : Cluster → Cluster) : (s.modCluster d n f).scheds = s.scheds := rfl
@[simp] theorem State.modCluster_masters (s : State) (d n : Nat) (f : Cluster → Cluster) : (s.modCluster d n f).masters = s.masters := rfl
@[simp] theorem State.modCluster_vsyncs (s : State) (d n : Nat) (f : Cluster → Cluster) : (s.modCluster d n f).vsyncs = s.vsyncs := rfl
@[simp] theorem State.modCluster_savedMat (s : State) (d n : Nat) (f : Cluster → Cluster) : (s.modCluster d n f).savedMat = s.savedMat := rfl
@[simp] theorem State.modCluster_savedCpy (s : State) (d n : Nat) (f : Cluster → Cluster) : (s.modCluster d n f).savedCpy = s.savedCpy := rfl
@[simp] theorem State.modCluster_savedVec (s : State) (d n : Nat) (f : Cluster → Cluster) : (s.modCluster d n f).savedVec = s.savedVec := rfl
@[simp] theorem State.modCluster_router (s : State) (d n : Nat) (f : Cluster → Cluster) : (s.modCluster d n f).router = s.router := rfl
@[simp] theorem State.modCluster_trust (s : State) (d n : Nat) (f : Cluster → Cluster) : (s.modCluster d n f).trust = s.trust := rfl

/-! ## `State.setDie` -/

@[simp] theorem State.setDie_agenda (s : State) (d : Nat) (k : Die) : (s.setDie d k).agenda = s.agenda := rfl
@[simp] theorem State.setDie_issuing (s : State) (d : Nat) (k : Die) : (s.setDie d k).issuing = s.issuing := rfl
@[simp] theorem State.setDie_tried (s : State) (d : Nat) (k : Die) : (s.setDie d k).tried = s.tried := rfl
@[simp] theorem State.setDie_nextUid (s : State) (d : Nat) (k : Die) : (s.setDie d k).nextUid = s.nextUid := rfl
@[simp] theorem State.setDie_draws (s : State) (d : Nat) (k : Die) : (s.setDie d k).draws = s.draws := rfl
@[simp] theorem State.setDie_turn (s : State) (d : Nat) (k : Die) : (s.setDie d k).turn = s.turn := rfl
@[simp] theorem State.setDie_out (s : State) (d : Nat) (k : Die) : (s.setDie d k).out = s.out := rfl
@[simp] theorem State.setDie_pkg (s : State) (d : Nat) (k : Die) : (s.setDie d k).pkg = s.pkg := rfl
@[simp] theorem State.setDie_boot (s : State) (d : Nat) (k : Die) : (s.setDie d k).boot = s.boot := rfl
@[simp] theorem State.setDie_temps (s : State) (d : Nat) (k : Die) : (s.setDie d k).temps = s.temps := rfl
@[simp] theorem State.setDie_mem (s : State) (d : Nat) (k : Die) : (s.setDie d k).mem = s.mem := rfl
@[simp] theorem State.setDie_pages (s : State) (d : Nat) (k : Die) : (s.setDie d k).pages = s.pages := rfl
@[simp] theorem State.setDie_cxlMib (s : State) (d : Nat) (k : Die) : (s.setDie d k).cxlMib = s.cxlMib := rfl
@[simp] theorem State.setDie_peers (s : State) (d : Nat) (k : Die) : (s.setDie d k).peers = s.peers := rfl
@[simp] theorem State.setDie_poolIn (s : State) (d : Nat) (k : Die) : (s.setDie d k).poolIn = s.poolIn := rfl
@[simp] theorem State.setDie_past (s : State) (d : Nat) (k : Die) : (s.setDie d k).past = s.past := rfl
@[simp] theorem State.setDie_poolDirty (s : State) (d : Nat) (k : Die) : (s.setDie d k).poolDirty = s.poolDirty := rfl
@[simp] theorem State.setDie_poolDev (s : State) (d : Nat) (k : Die) : (s.setDie d k).poolDev = s.poolDev := rfl
@[simp] theorem State.setDie_bells (s : State) (d : Nat) (k : Die) : (s.setDie d k).bells = s.bells := rfl
@[simp] theorem State.setDie_partCmds (s : State) (d : Nat) (k : Die) : (s.setDie d k).partCmds = s.partCmds := rfl
@[simp] theorem State.setDie_partWaits (s : State) (d : Nat) (k : Die) : (s.setDie d k).partWaits = s.partWaits := rfl
@[simp] theorem State.setDie_resetting (s : State) (d : Nat) (k : Die) : (s.setDie d k).resetting = s.resetting := rfl
@[simp] theorem State.setDie_lends (s : State) (d : Nat) (k : Die) : (s.setDie d k).lends = s.lends := rfl
@[simp] theorem State.setDie_cycling (s : State) (d : Nat) (k : Die) : (s.setDie d k).cycling = s.cycling := rfl
@[simp] theorem State.setDie_taken (s : State) (d : Nat) (k : Die) : (s.setDie d k).taken = s.taken := rfl
@[simp] theorem State.setDie_scrubs (s : State) (d : Nat) (k : Die) : (s.setDie d k).scrubs = s.scrubs := rfl
@[simp] theorem State.setDie_sysReqs (s : State) (d : Nat) (k : Die) : (s.setDie d k).sysReqs = s.sysReqs := rfl
@[simp] theorem State.setDie_nodes (s : State) (d : Nat) (k : Die) : (s.setDie d k).nodes = s.nodes := rfl
@[simp] theorem State.setDie_spaces (s : State) (d : Nat) (k : Die) : (s.setDie d k).spaces = s.spaces := rfl
@[simp] theorem State.setDie_gens (s : State) (d : Nat) (k : Die) : (s.setDie d k).gens = s.gens := rfl
@[simp] theorem State.setDie_walks (s : State) (d : Nat) (k : Die) : (s.setDie d k).walks = s.walks := rfl
@[simp] theorem State.setDie_grants (s : State) (d : Nat) (k : Die) : (s.setDie d k).grants = s.grants := rfl
@[simp] theorem State.setDie_moves (s : State) (d : Nat) (k : Die) : (s.setDie d k).moves = s.moves := rfl
@[simp] theorem State.setDie_retry (s : State) (d : Nat) (k : Die) : (s.setDie d k).retry = s.retry := rfl
@[simp] theorem State.setDie_remoteMons (s : State) (d : Nat) (k : Die) : (s.setDie d k).remoteMons = s.remoteMons := rfl
@[simp] theorem State.setDie_notices (s : State) (d : Nat) (k : Die) : (s.setDie d k).notices = s.notices := rfl
@[simp] theorem State.setDie_ctxs (s : State) (d : Nat) (k : Die) : (s.setDie d k).ctxs = s.ctxs := rfl
@[simp] theorem State.setDie_cores (s : State) (d : Nat) (k : Die) : (s.setDie d k).cores = s.cores := rfl
@[simp] theorem State.setDie_clusters (s : State) (d : Nat) (k : Die) : (s.setDie d k).clusters = s.clusters := rfl
@[simp] theorem State.setDie_net (s : State) (d : Nat) (k : Die) : (s.setDie d k).net = s.net := rfl
@[simp] theorem State.setDie_launches (s : State) (d : Nat) (k : Die) : (s.setDie d k).launches = s.launches := rfl
@[simp] theorem State.setDie_regions (s : State) (d : Nat) (k : Die) : (s.setDie d k).regions = s.regions := rfl
@[simp] theorem State.setDie_launchMsgs (s : State) (d : Nat) (k : Die) : (s.setDie d k).launchMsgs = s.launchMsgs := rfl
@[simp] theorem State.setDie_nextOrder (s : State) (d : Nat) (k : Die) : (s.setDie d k).nextOrder = s.nextOrder := rfl
@[simp] theorem State.setDie_charges (s : State) (d : Nat) (k : Die) : (s.setDie d k).charges = s.charges := rfl
@[simp] theorem State.setDie_spent (s : State) (d : Nat) (k : Die) : (s.setDie d k).spent = s.spent := rfl
@[simp] theorem State.setDie_restarts (s : State) (d : Nat) (k : Die) : (s.setDie d k).restarts = s.restarts := rfl
@[simp] theorem State.setDie_worlds (s : State) (d : Nat) (k : Die) : (s.setDie d k).worlds = s.worlds := rfl
@[simp] theorem State.setDie_scheds (s : State) (d : Nat) (k : Die) : (s.setDie d k).scheds = s.scheds := rfl
@[simp] theorem State.setDie_masters (s : State) (d : Nat) (k : Die) : (s.setDie d k).masters = s.masters := rfl
@[simp] theorem State.setDie_vsyncs (s : State) (d : Nat) (k : Die) : (s.setDie d k).vsyncs = s.vsyncs := rfl
@[simp] theorem State.setDie_savedMat (s : State) (d : Nat) (k : Die) : (s.setDie d k).savedMat = s.savedMat := rfl
@[simp] theorem State.setDie_savedCpy (s : State) (d : Nat) (k : Die) : (s.setDie d k).savedCpy = s.savedCpy := rfl
@[simp] theorem State.setDie_savedVec (s : State) (d : Nat) (k : Die) : (s.setDie d k).savedVec = s.savedVec := rfl
@[simp] theorem State.setDie_router (s : State) (d : Nat) (k : Die) : (s.setDie d k).router = s.router := rfl
@[simp] theorem State.setDie_trust (s : State) (d : Nat) (k : Die) : (s.setDie d k).trust = s.trust := rfl

/-! ## `State.modDie` -/

@[simp] theorem State.modDie_agenda (s : State) (d : Nat) (f : Die → Die) : (s.modDie d f).agenda = s.agenda := rfl
@[simp] theorem State.modDie_issuing (s : State) (d : Nat) (f : Die → Die) : (s.modDie d f).issuing = s.issuing := rfl
@[simp] theorem State.modDie_tried (s : State) (d : Nat) (f : Die → Die) : (s.modDie d f).tried = s.tried := rfl
@[simp] theorem State.modDie_nextUid (s : State) (d : Nat) (f : Die → Die) : (s.modDie d f).nextUid = s.nextUid := rfl
@[simp] theorem State.modDie_draws (s : State) (d : Nat) (f : Die → Die) : (s.modDie d f).draws = s.draws := rfl
@[simp] theorem State.modDie_turn (s : State) (d : Nat) (f : Die → Die) : (s.modDie d f).turn = s.turn := rfl
@[simp] theorem State.modDie_out (s : State) (d : Nat) (f : Die → Die) : (s.modDie d f).out = s.out := rfl
@[simp] theorem State.modDie_pkg (s : State) (d : Nat) (f : Die → Die) : (s.modDie d f).pkg = s.pkg := rfl
@[simp] theorem State.modDie_boot (s : State) (d : Nat) (f : Die → Die) : (s.modDie d f).boot = s.boot := rfl
@[simp] theorem State.modDie_temps (s : State) (d : Nat) (f : Die → Die) : (s.modDie d f).temps = s.temps := rfl
@[simp] theorem State.modDie_mem (s : State) (d : Nat) (f : Die → Die) : (s.modDie d f).mem = s.mem := rfl
@[simp] theorem State.modDie_pages (s : State) (d : Nat) (f : Die → Die) : (s.modDie d f).pages = s.pages := rfl
@[simp] theorem State.modDie_cxlMib (s : State) (d : Nat) (f : Die → Die) : (s.modDie d f).cxlMib = s.cxlMib := rfl
@[simp] theorem State.modDie_peers (s : State) (d : Nat) (f : Die → Die) : (s.modDie d f).peers = s.peers := rfl
@[simp] theorem State.modDie_poolIn (s : State) (d : Nat) (f : Die → Die) : (s.modDie d f).poolIn = s.poolIn := rfl
@[simp] theorem State.modDie_past (s : State) (d : Nat) (f : Die → Die) : (s.modDie d f).past = s.past := rfl
@[simp] theorem State.modDie_poolDirty (s : State) (d : Nat) (f : Die → Die) : (s.modDie d f).poolDirty = s.poolDirty := rfl
@[simp] theorem State.modDie_poolDev (s : State) (d : Nat) (f : Die → Die) : (s.modDie d f).poolDev = s.poolDev := rfl
@[simp] theorem State.modDie_bells (s : State) (d : Nat) (f : Die → Die) : (s.modDie d f).bells = s.bells := rfl
@[simp] theorem State.modDie_partCmds (s : State) (d : Nat) (f : Die → Die) : (s.modDie d f).partCmds = s.partCmds := rfl
@[simp] theorem State.modDie_partWaits (s : State) (d : Nat) (f : Die → Die) : (s.modDie d f).partWaits = s.partWaits := rfl
@[simp] theorem State.modDie_resetting (s : State) (d : Nat) (f : Die → Die) : (s.modDie d f).resetting = s.resetting := rfl
@[simp] theorem State.modDie_lends (s : State) (d : Nat) (f : Die → Die) : (s.modDie d f).lends = s.lends := rfl
@[simp] theorem State.modDie_cycling (s : State) (d : Nat) (f : Die → Die) : (s.modDie d f).cycling = s.cycling := rfl
@[simp] theorem State.modDie_taken (s : State) (d : Nat) (f : Die → Die) : (s.modDie d f).taken = s.taken := rfl
@[simp] theorem State.modDie_scrubs (s : State) (d : Nat) (f : Die → Die) : (s.modDie d f).scrubs = s.scrubs := rfl
@[simp] theorem State.modDie_sysReqs (s : State) (d : Nat) (f : Die → Die) : (s.modDie d f).sysReqs = s.sysReqs := rfl
@[simp] theorem State.modDie_nodes (s : State) (d : Nat) (f : Die → Die) : (s.modDie d f).nodes = s.nodes := rfl
@[simp] theorem State.modDie_spaces (s : State) (d : Nat) (f : Die → Die) : (s.modDie d f).spaces = s.spaces := rfl
@[simp] theorem State.modDie_gens (s : State) (d : Nat) (f : Die → Die) : (s.modDie d f).gens = s.gens := rfl
@[simp] theorem State.modDie_walks (s : State) (d : Nat) (f : Die → Die) : (s.modDie d f).walks = s.walks := rfl
@[simp] theorem State.modDie_grants (s : State) (d : Nat) (f : Die → Die) : (s.modDie d f).grants = s.grants := rfl
@[simp] theorem State.modDie_moves (s : State) (d : Nat) (f : Die → Die) : (s.modDie d f).moves = s.moves := rfl
@[simp] theorem State.modDie_retry (s : State) (d : Nat) (f : Die → Die) : (s.modDie d f).retry = s.retry := rfl
@[simp] theorem State.modDie_remoteMons (s : State) (d : Nat) (f : Die → Die) : (s.modDie d f).remoteMons = s.remoteMons := rfl
@[simp] theorem State.modDie_notices (s : State) (d : Nat) (f : Die → Die) : (s.modDie d f).notices = s.notices := rfl
@[simp] theorem State.modDie_ctxs (s : State) (d : Nat) (f : Die → Die) : (s.modDie d f).ctxs = s.ctxs := rfl
@[simp] theorem State.modDie_cores (s : State) (d : Nat) (f : Die → Die) : (s.modDie d f).cores = s.cores := rfl
@[simp] theorem State.modDie_clusters (s : State) (d : Nat) (f : Die → Die) : (s.modDie d f).clusters = s.clusters := rfl
@[simp] theorem State.modDie_net (s : State) (d : Nat) (f : Die → Die) : (s.modDie d f).net = s.net := rfl
@[simp] theorem State.modDie_launches (s : State) (d : Nat) (f : Die → Die) : (s.modDie d f).launches = s.launches := rfl
@[simp] theorem State.modDie_regions (s : State) (d : Nat) (f : Die → Die) : (s.modDie d f).regions = s.regions := rfl
@[simp] theorem State.modDie_launchMsgs (s : State) (d : Nat) (f : Die → Die) : (s.modDie d f).launchMsgs = s.launchMsgs := rfl
@[simp] theorem State.modDie_nextOrder (s : State) (d : Nat) (f : Die → Die) : (s.modDie d f).nextOrder = s.nextOrder := rfl
@[simp] theorem State.modDie_charges (s : State) (d : Nat) (f : Die → Die) : (s.modDie d f).charges = s.charges := rfl
@[simp] theorem State.modDie_spent (s : State) (d : Nat) (f : Die → Die) : (s.modDie d f).spent = s.spent := rfl
@[simp] theorem State.modDie_restarts (s : State) (d : Nat) (f : Die → Die) : (s.modDie d f).restarts = s.restarts := rfl
@[simp] theorem State.modDie_worlds (s : State) (d : Nat) (f : Die → Die) : (s.modDie d f).worlds = s.worlds := rfl
@[simp] theorem State.modDie_scheds (s : State) (d : Nat) (f : Die → Die) : (s.modDie d f).scheds = s.scheds := rfl
@[simp] theorem State.modDie_masters (s : State) (d : Nat) (f : Die → Die) : (s.modDie d f).masters = s.masters := rfl
@[simp] theorem State.modDie_vsyncs (s : State) (d : Nat) (f : Die → Die) : (s.modDie d f).vsyncs = s.vsyncs := rfl
@[simp] theorem State.modDie_savedMat (s : State) (d : Nat) (f : Die → Die) : (s.modDie d f).savedMat = s.savedMat := rfl
@[simp] theorem State.modDie_savedCpy (s : State) (d : Nat) (f : Die → Die) : (s.modDie d f).savedCpy = s.savedCpy := rfl
@[simp] theorem State.modDie_savedVec (s : State) (d : Nat) (f : Die → Die) : (s.modDie d f).savedVec = s.savedVec := rfl
@[simp] theorem State.modDie_router (s : State) (d : Nat) (f : Die → Die) : (s.modDie d f).router = s.router := rfl
@[simp] theorem State.modDie_trust (s : State) (d : Nat) (f : Die → Die) : (s.modDie d f).trust = s.trust := rfl

/-! ## `State.modNi` -/

@[simp] theorem State.modNi_agenda (s : State) (d : Nat) (f : Ni → Ni) : (s.modNi d f).agenda = s.agenda := rfl
@[simp] theorem State.modNi_issuing (s : State) (d : Nat) (f : Ni → Ni) : (s.modNi d f).issuing = s.issuing := rfl
@[simp] theorem State.modNi_tried (s : State) (d : Nat) (f : Ni → Ni) : (s.modNi d f).tried = s.tried := rfl
@[simp] theorem State.modNi_nextUid (s : State) (d : Nat) (f : Ni → Ni) : (s.modNi d f).nextUid = s.nextUid := rfl
@[simp] theorem State.modNi_draws (s : State) (d : Nat) (f : Ni → Ni) : (s.modNi d f).draws = s.draws := rfl
@[simp] theorem State.modNi_turn (s : State) (d : Nat) (f : Ni → Ni) : (s.modNi d f).turn = s.turn := rfl
@[simp] theorem State.modNi_out (s : State) (d : Nat) (f : Ni → Ni) : (s.modNi d f).out = s.out := rfl
@[simp] theorem State.modNi_pkg (s : State) (d : Nat) (f : Ni → Ni) : (s.modNi d f).pkg = s.pkg := rfl
@[simp] theorem State.modNi_boot (s : State) (d : Nat) (f : Ni → Ni) : (s.modNi d f).boot = s.boot := rfl
@[simp] theorem State.modNi_temps (s : State) (d : Nat) (f : Ni → Ni) : (s.modNi d f).temps = s.temps := rfl
@[simp] theorem State.modNi_mem (s : State) (d : Nat) (f : Ni → Ni) : (s.modNi d f).mem = s.mem := rfl
@[simp] theorem State.modNi_pages (s : State) (d : Nat) (f : Ni → Ni) : (s.modNi d f).pages = s.pages := rfl
@[simp] theorem State.modNi_cxlMib (s : State) (d : Nat) (f : Ni → Ni) : (s.modNi d f).cxlMib = s.cxlMib := rfl
@[simp] theorem State.modNi_peers (s : State) (d : Nat) (f : Ni → Ni) : (s.modNi d f).peers = s.peers := rfl
@[simp] theorem State.modNi_poolIn (s : State) (d : Nat) (f : Ni → Ni) : (s.modNi d f).poolIn = s.poolIn := rfl
@[simp] theorem State.modNi_past (s : State) (d : Nat) (f : Ni → Ni) : (s.modNi d f).past = s.past := rfl
@[simp] theorem State.modNi_poolDirty (s : State) (d : Nat) (f : Ni → Ni) : (s.modNi d f).poolDirty = s.poolDirty := rfl
@[simp] theorem State.modNi_poolDev (s : State) (d : Nat) (f : Ni → Ni) : (s.modNi d f).poolDev = s.poolDev := rfl
@[simp] theorem State.modNi_bells (s : State) (d : Nat) (f : Ni → Ni) : (s.modNi d f).bells = s.bells := rfl
@[simp] theorem State.modNi_partCmds (s : State) (d : Nat) (f : Ni → Ni) : (s.modNi d f).partCmds = s.partCmds := rfl
@[simp] theorem State.modNi_partWaits (s : State) (d : Nat) (f : Ni → Ni) : (s.modNi d f).partWaits = s.partWaits := rfl
@[simp] theorem State.modNi_resetting (s : State) (d : Nat) (f : Ni → Ni) : (s.modNi d f).resetting = s.resetting := rfl
@[simp] theorem State.modNi_lends (s : State) (d : Nat) (f : Ni → Ni) : (s.modNi d f).lends = s.lends := rfl
@[simp] theorem State.modNi_cycling (s : State) (d : Nat) (f : Ni → Ni) : (s.modNi d f).cycling = s.cycling := rfl
@[simp] theorem State.modNi_taken (s : State) (d : Nat) (f : Ni → Ni) : (s.modNi d f).taken = s.taken := rfl
@[simp] theorem State.modNi_scrubs (s : State) (d : Nat) (f : Ni → Ni) : (s.modNi d f).scrubs = s.scrubs := rfl
@[simp] theorem State.modNi_sysReqs (s : State) (d : Nat) (f : Ni → Ni) : (s.modNi d f).sysReqs = s.sysReqs := rfl
@[simp] theorem State.modNi_nodes (s : State) (d : Nat) (f : Ni → Ni) : (s.modNi d f).nodes = s.nodes := rfl
@[simp] theorem State.modNi_spaces (s : State) (d : Nat) (f : Ni → Ni) : (s.modNi d f).spaces = s.spaces := rfl
@[simp] theorem State.modNi_gens (s : State) (d : Nat) (f : Ni → Ni) : (s.modNi d f).gens = s.gens := rfl
@[simp] theorem State.modNi_walks (s : State) (d : Nat) (f : Ni → Ni) : (s.modNi d f).walks = s.walks := rfl
@[simp] theorem State.modNi_grants (s : State) (d : Nat) (f : Ni → Ni) : (s.modNi d f).grants = s.grants := rfl
@[simp] theorem State.modNi_moves (s : State) (d : Nat) (f : Ni → Ni) : (s.modNi d f).moves = s.moves := rfl
@[simp] theorem State.modNi_retry (s : State) (d : Nat) (f : Ni → Ni) : (s.modNi d f).retry = s.retry := rfl
@[simp] theorem State.modNi_remoteMons (s : State) (d : Nat) (f : Ni → Ni) : (s.modNi d f).remoteMons = s.remoteMons := rfl
@[simp] theorem State.modNi_notices (s : State) (d : Nat) (f : Ni → Ni) : (s.modNi d f).notices = s.notices := rfl
@[simp] theorem State.modNi_ctxs (s : State) (d : Nat) (f : Ni → Ni) : (s.modNi d f).ctxs = s.ctxs := rfl
@[simp] theorem State.modNi_cores (s : State) (d : Nat) (f : Ni → Ni) : (s.modNi d f).cores = s.cores := rfl
@[simp] theorem State.modNi_clusters (s : State) (d : Nat) (f : Ni → Ni) : (s.modNi d f).clusters = s.clusters := rfl
@[simp] theorem State.modNi_net (s : State) (d : Nat) (f : Ni → Ni) : (s.modNi d f).net = s.net := rfl
@[simp] theorem State.modNi_launches (s : State) (d : Nat) (f : Ni → Ni) : (s.modNi d f).launches = s.launches := rfl
@[simp] theorem State.modNi_regions (s : State) (d : Nat) (f : Ni → Ni) : (s.modNi d f).regions = s.regions := rfl
@[simp] theorem State.modNi_launchMsgs (s : State) (d : Nat) (f : Ni → Ni) : (s.modNi d f).launchMsgs = s.launchMsgs := rfl
@[simp] theorem State.modNi_nextOrder (s : State) (d : Nat) (f : Ni → Ni) : (s.modNi d f).nextOrder = s.nextOrder := rfl
@[simp] theorem State.modNi_charges (s : State) (d : Nat) (f : Ni → Ni) : (s.modNi d f).charges = s.charges := rfl
@[simp] theorem State.modNi_spent (s : State) (d : Nat) (f : Ni → Ni) : (s.modNi d f).spent = s.spent := rfl
@[simp] theorem State.modNi_restarts (s : State) (d : Nat) (f : Ni → Ni) : (s.modNi d f).restarts = s.restarts := rfl
@[simp] theorem State.modNi_worlds (s : State) (d : Nat) (f : Ni → Ni) : (s.modNi d f).worlds = s.worlds := rfl
@[simp] theorem State.modNi_scheds (s : State) (d : Nat) (f : Ni → Ni) : (s.modNi d f).scheds = s.scheds := rfl
@[simp] theorem State.modNi_masters (s : State) (d : Nat) (f : Ni → Ni) : (s.modNi d f).masters = s.masters := rfl
@[simp] theorem State.modNi_vsyncs (s : State) (d : Nat) (f : Ni → Ni) : (s.modNi d f).vsyncs = s.vsyncs := rfl
@[simp] theorem State.modNi_savedMat (s : State) (d : Nat) (f : Ni → Ni) : (s.modNi d f).savedMat = s.savedMat := rfl
@[simp] theorem State.modNi_savedCpy (s : State) (d : Nat) (f : Ni → Ni) : (s.modNi d f).savedCpy = s.savedCpy := rfl
@[simp] theorem State.modNi_savedVec (s : State) (d : Nat) (f : Ni → Ni) : (s.modNi d f).savedVec = s.savedVec := rfl
@[simp] theorem State.modNi_router (s : State) (d : Nat) (f : Ni → Ni) : (s.modNi d f).router = s.router := rfl
@[simp] theorem State.modNi_trust (s : State) (d : Nat) (f : Ni → Ni) : (s.modNi d f).trust = s.trust := rfl

/-! ## `State.emit` -/

@[simp] theorem State.emit_agenda (s : State) (m : OutMsg) : (s.emit m).agenda = s.agenda := rfl
@[simp] theorem State.emit_issuing (s : State) (m : OutMsg) : (s.emit m).issuing = s.issuing := rfl
@[simp] theorem State.emit_tried (s : State) (m : OutMsg) : (s.emit m).tried = s.tried := rfl
@[simp] theorem State.emit_nextUid (s : State) (m : OutMsg) : (s.emit m).nextUid = s.nextUid := rfl
@[simp] theorem State.emit_draws (s : State) (m : OutMsg) : (s.emit m).draws = s.draws := rfl
@[simp] theorem State.emit_turn (s : State) (m : OutMsg) : (s.emit m).turn = s.turn := rfl
@[simp] theorem State.emit_pkg (s : State) (m : OutMsg) : (s.emit m).pkg = s.pkg := rfl
@[simp] theorem State.emit_boot (s : State) (m : OutMsg) : (s.emit m).boot = s.boot := rfl
@[simp] theorem State.emit_temps (s : State) (m : OutMsg) : (s.emit m).temps = s.temps := rfl
@[simp] theorem State.emit_mem (s : State) (m : OutMsg) : (s.emit m).mem = s.mem := rfl
@[simp] theorem State.emit_pages (s : State) (m : OutMsg) : (s.emit m).pages = s.pages := rfl
@[simp] theorem State.emit_cxlMib (s : State) (m : OutMsg) : (s.emit m).cxlMib = s.cxlMib := rfl
@[simp] theorem State.emit_peers (s : State) (m : OutMsg) : (s.emit m).peers = s.peers := rfl
@[simp] theorem State.emit_poolIn (s : State) (m : OutMsg) : (s.emit m).poolIn = s.poolIn := rfl
@[simp] theorem State.emit_past (s : State) (m : OutMsg) : (s.emit m).past = s.past := rfl
@[simp] theorem State.emit_poolDirty (s : State) (m : OutMsg) : (s.emit m).poolDirty = s.poolDirty := rfl
@[simp] theorem State.emit_poolDev (s : State) (m : OutMsg) : (s.emit m).poolDev = s.poolDev := rfl
@[simp] theorem State.emit_bells (s : State) (m : OutMsg) : (s.emit m).bells = s.bells := rfl
@[simp] theorem State.emit_partCmds (s : State) (m : OutMsg) : (s.emit m).partCmds = s.partCmds := rfl
@[simp] theorem State.emit_partWaits (s : State) (m : OutMsg) : (s.emit m).partWaits = s.partWaits := rfl
@[simp] theorem State.emit_resetting (s : State) (m : OutMsg) : (s.emit m).resetting = s.resetting := rfl
@[simp] theorem State.emit_lends (s : State) (m : OutMsg) : (s.emit m).lends = s.lends := rfl
@[simp] theorem State.emit_cycling (s : State) (m : OutMsg) : (s.emit m).cycling = s.cycling := rfl
@[simp] theorem State.emit_taken (s : State) (m : OutMsg) : (s.emit m).taken = s.taken := rfl
@[simp] theorem State.emit_scrubs (s : State) (m : OutMsg) : (s.emit m).scrubs = s.scrubs := rfl
@[simp] theorem State.emit_sysReqs (s : State) (m : OutMsg) : (s.emit m).sysReqs = s.sysReqs := rfl
@[simp] theorem State.emit_nodes (s : State) (m : OutMsg) : (s.emit m).nodes = s.nodes := rfl
@[simp] theorem State.emit_spaces (s : State) (m : OutMsg) : (s.emit m).spaces = s.spaces := rfl
@[simp] theorem State.emit_gens (s : State) (m : OutMsg) : (s.emit m).gens = s.gens := rfl
@[simp] theorem State.emit_walks (s : State) (m : OutMsg) : (s.emit m).walks = s.walks := rfl
@[simp] theorem State.emit_grants (s : State) (m : OutMsg) : (s.emit m).grants = s.grants := rfl
@[simp] theorem State.emit_moves (s : State) (m : OutMsg) : (s.emit m).moves = s.moves := rfl
@[simp] theorem State.emit_retry (s : State) (m : OutMsg) : (s.emit m).retry = s.retry := rfl
@[simp] theorem State.emit_remoteMons (s : State) (m : OutMsg) : (s.emit m).remoteMons = s.remoteMons := rfl
@[simp] theorem State.emit_notices (s : State) (m : OutMsg) : (s.emit m).notices = s.notices := rfl
@[simp] theorem State.emit_ctxs (s : State) (m : OutMsg) : (s.emit m).ctxs = s.ctxs := rfl
@[simp] theorem State.emit_cores (s : State) (m : OutMsg) : (s.emit m).cores = s.cores := rfl
@[simp] theorem State.emit_clusters (s : State) (m : OutMsg) : (s.emit m).clusters = s.clusters := rfl
@[simp] theorem State.emit_dies (s : State) (m : OutMsg) : (s.emit m).dies = s.dies := rfl
@[simp] theorem State.emit_net (s : State) (m : OutMsg) : (s.emit m).net = s.net := rfl
@[simp] theorem State.emit_launches (s : State) (m : OutMsg) : (s.emit m).launches = s.launches := rfl
@[simp] theorem State.emit_regions (s : State) (m : OutMsg) : (s.emit m).regions = s.regions := rfl
@[simp] theorem State.emit_launchMsgs (s : State) (m : OutMsg) : (s.emit m).launchMsgs = s.launchMsgs := rfl
@[simp] theorem State.emit_nextOrder (s : State) (m : OutMsg) : (s.emit m).nextOrder = s.nextOrder := rfl
@[simp] theorem State.emit_charges (s : State) (m : OutMsg) : (s.emit m).charges = s.charges := rfl
@[simp] theorem State.emit_spent (s : State) (m : OutMsg) : (s.emit m).spent = s.spent := rfl
@[simp] theorem State.emit_restarts (s : State) (m : OutMsg) : (s.emit m).restarts = s.restarts := rfl
@[simp] theorem State.emit_worlds (s : State) (m : OutMsg) : (s.emit m).worlds = s.worlds := rfl
@[simp] theorem State.emit_scheds (s : State) (m : OutMsg) : (s.emit m).scheds = s.scheds := rfl
@[simp] theorem State.emit_masters (s : State) (m : OutMsg) : (s.emit m).masters = s.masters := rfl
@[simp] theorem State.emit_vsyncs (s : State) (m : OutMsg) : (s.emit m).vsyncs = s.vsyncs := rfl
@[simp] theorem State.emit_savedMat (s : State) (m : OutMsg) : (s.emit m).savedMat = s.savedMat := rfl
@[simp] theorem State.emit_savedCpy (s : State) (m : OutMsg) : (s.emit m).savedCpy = s.savedCpy := rfl
@[simp] theorem State.emit_savedVec (s : State) (m : OutMsg) : (s.emit m).savedVec = s.savedVec := rfl
@[simp] theorem State.emit_router (s : State) (m : OutMsg) : (s.emit m).router = s.router := rfl
@[simp] theorem State.emit_trust (s : State) (m : OutMsg) : (s.emit m).trust = s.trust := rfl

/-! ## `State.post` -/

@[simp] theorem State.post_agenda (s : State) (m : Msg) : (s.post m).agenda = s.agenda := rfl
@[simp] theorem State.post_issuing (s : State) (m : Msg) : (s.post m).issuing = s.issuing := rfl
@[simp] theorem State.post_tried (s : State) (m : Msg) : (s.post m).tried = s.tried := rfl
@[simp] theorem State.post_nextUid (s : State) (m : Msg) : (s.post m).nextUid = s.nextUid := rfl
@[simp] theorem State.post_draws (s : State) (m : Msg) : (s.post m).draws = s.draws := rfl
@[simp] theorem State.post_turn (s : State) (m : Msg) : (s.post m).turn = s.turn := rfl
@[simp] theorem State.post_out (s : State) (m : Msg) : (s.post m).out = s.out := rfl
@[simp] theorem State.post_pkg (s : State) (m : Msg) : (s.post m).pkg = s.pkg := rfl
@[simp] theorem State.post_boot (s : State) (m : Msg) : (s.post m).boot = s.boot := rfl
@[simp] theorem State.post_temps (s : State) (m : Msg) : (s.post m).temps = s.temps := rfl
@[simp] theorem State.post_mem (s : State) (m : Msg) : (s.post m).mem = s.mem := rfl
@[simp] theorem State.post_pages (s : State) (m : Msg) : (s.post m).pages = s.pages := rfl
@[simp] theorem State.post_cxlMib (s : State) (m : Msg) : (s.post m).cxlMib = s.cxlMib := rfl
@[simp] theorem State.post_peers (s : State) (m : Msg) : (s.post m).peers = s.peers := rfl
@[simp] theorem State.post_poolIn (s : State) (m : Msg) : (s.post m).poolIn = s.poolIn := rfl
@[simp] theorem State.post_past (s : State) (m : Msg) : (s.post m).past = s.past := rfl
@[simp] theorem State.post_poolDirty (s : State) (m : Msg) : (s.post m).poolDirty = s.poolDirty := rfl
@[simp] theorem State.post_poolDev (s : State) (m : Msg) : (s.post m).poolDev = s.poolDev := rfl
@[simp] theorem State.post_bells (s : State) (m : Msg) : (s.post m).bells = s.bells := rfl
@[simp] theorem State.post_partCmds (s : State) (m : Msg) : (s.post m).partCmds = s.partCmds := rfl
@[simp] theorem State.post_partWaits (s : State) (m : Msg) : (s.post m).partWaits = s.partWaits := rfl
@[simp] theorem State.post_resetting (s : State) (m : Msg) : (s.post m).resetting = s.resetting := rfl
@[simp] theorem State.post_lends (s : State) (m : Msg) : (s.post m).lends = s.lends := rfl
@[simp] theorem State.post_cycling (s : State) (m : Msg) : (s.post m).cycling = s.cycling := rfl
@[simp] theorem State.post_taken (s : State) (m : Msg) : (s.post m).taken = s.taken := rfl
@[simp] theorem State.post_scrubs (s : State) (m : Msg) : (s.post m).scrubs = s.scrubs := rfl
@[simp] theorem State.post_sysReqs (s : State) (m : Msg) : (s.post m).sysReqs = s.sysReqs := rfl
@[simp] theorem State.post_nodes (s : State) (m : Msg) : (s.post m).nodes = s.nodes := rfl
@[simp] theorem State.post_spaces (s : State) (m : Msg) : (s.post m).spaces = s.spaces := rfl
@[simp] theorem State.post_gens (s : State) (m : Msg) : (s.post m).gens = s.gens := rfl
@[simp] theorem State.post_walks (s : State) (m : Msg) : (s.post m).walks = s.walks := rfl
@[simp] theorem State.post_grants (s : State) (m : Msg) : (s.post m).grants = s.grants := rfl
@[simp] theorem State.post_moves (s : State) (m : Msg) : (s.post m).moves = s.moves := rfl
@[simp] theorem State.post_retry (s : State) (m : Msg) : (s.post m).retry = s.retry := rfl
@[simp] theorem State.post_remoteMons (s : State) (m : Msg) : (s.post m).remoteMons = s.remoteMons := rfl
@[simp] theorem State.post_notices (s : State) (m : Msg) : (s.post m).notices = s.notices := rfl
@[simp] theorem State.post_ctxs (s : State) (m : Msg) : (s.post m).ctxs = s.ctxs := rfl
@[simp] theorem State.post_cores (s : State) (m : Msg) : (s.post m).cores = s.cores := rfl
@[simp] theorem State.post_clusters (s : State) (m : Msg) : (s.post m).clusters = s.clusters := rfl
@[simp] theorem State.post_dies (s : State) (m : Msg) : (s.post m).dies = s.dies := rfl
@[simp] theorem State.post_launches (s : State) (m : Msg) : (s.post m).launches = s.launches := rfl
@[simp] theorem State.post_regions (s : State) (m : Msg) : (s.post m).regions = s.regions := rfl
@[simp] theorem State.post_launchMsgs (s : State) (m : Msg) : (s.post m).launchMsgs = s.launchMsgs := rfl
@[simp] theorem State.post_nextOrder (s : State) (m : Msg) : (s.post m).nextOrder = s.nextOrder := rfl
@[simp] theorem State.post_charges (s : State) (m : Msg) : (s.post m).charges = s.charges := rfl
@[simp] theorem State.post_spent (s : State) (m : Msg) : (s.post m).spent = s.spent := rfl
@[simp] theorem State.post_restarts (s : State) (m : Msg) : (s.post m).restarts = s.restarts := rfl
@[simp] theorem State.post_worlds (s : State) (m : Msg) : (s.post m).worlds = s.worlds := rfl
@[simp] theorem State.post_scheds (s : State) (m : Msg) : (s.post m).scheds = s.scheds := rfl
@[simp] theorem State.post_masters (s : State) (m : Msg) : (s.post m).masters = s.masters := rfl
@[simp] theorem State.post_vsyncs (s : State) (m : Msg) : (s.post m).vsyncs = s.vsyncs := rfl
@[simp] theorem State.post_savedMat (s : State) (m : Msg) : (s.post m).savedMat = s.savedMat := rfl
@[simp] theorem State.post_savedCpy (s : State) (m : Msg) : (s.post m).savedCpy = s.savedCpy := rfl
@[simp] theorem State.post_savedVec (s : State) (m : Msg) : (s.post m).savedVec = s.savedVec := rfl
@[simp] theorem State.post_router (s : State) (m : Msg) : (s.post m).router = s.router := rfl
@[simp] theorem State.post_trust (s : State) (m : Msg) : (s.post m).trust = s.trust := rfl

/-! ## `State.setFull` -/

@[simp] theorem State.setFull_agenda (s : State) (a : Nat) (b : Bool) : (s.setFull a b).agenda = s.agenda := by
  unfold State.setFull; split <;> rfl
@[simp] theorem State.setFull_issuing (s : State) (a : Nat) (b : Bool) : (s.setFull a b).issuing = s.issuing := by
  unfold State.setFull; split <;> rfl
@[simp] theorem State.setFull_tried (s : State) (a : Nat) (b : Bool) : (s.setFull a b).tried = s.tried := by
  unfold State.setFull; split <;> rfl
@[simp] theorem State.setFull_nextUid (s : State) (a : Nat) (b : Bool) : (s.setFull a b).nextUid = s.nextUid := by
  unfold State.setFull; split <;> rfl
@[simp] theorem State.setFull_draws (s : State) (a : Nat) (b : Bool) : (s.setFull a b).draws = s.draws := by
  unfold State.setFull; split <;> rfl
@[simp] theorem State.setFull_turn (s : State) (a : Nat) (b : Bool) : (s.setFull a b).turn = s.turn := by
  unfold State.setFull; split <;> rfl
@[simp] theorem State.setFull_out (s : State) (a : Nat) (b : Bool) : (s.setFull a b).out = s.out := by
  unfold State.setFull; split <;> rfl
@[simp] theorem State.setFull_pkg (s : State) (a : Nat) (b : Bool) : (s.setFull a b).pkg = s.pkg := by
  unfold State.setFull; split <;> rfl
@[simp] theorem State.setFull_boot (s : State) (a : Nat) (b : Bool) : (s.setFull a b).boot = s.boot := by
  unfold State.setFull; split <;> rfl
@[simp] theorem State.setFull_temps (s : State) (a : Nat) (b : Bool) : (s.setFull a b).temps = s.temps := by
  unfold State.setFull; split <;> rfl
@[simp] theorem State.setFull_pages (s : State) (a : Nat) (b : Bool) : (s.setFull a b).pages = s.pages := by
  unfold State.setFull; split <;> rfl
@[simp] theorem State.setFull_cxlMib (s : State) (a : Nat) (b : Bool) : (s.setFull a b).cxlMib = s.cxlMib := by
  unfold State.setFull; split <;> rfl
@[simp] theorem State.setFull_peers (s : State) (a : Nat) (b : Bool) : (s.setFull a b).peers = s.peers := by
  unfold State.setFull; split <;> rfl
@[simp] theorem State.setFull_poolIn (s : State) (a : Nat) (b : Bool) : (s.setFull a b).poolIn = s.poolIn := by
  unfold State.setFull; split <;> rfl
@[simp] theorem State.setFull_past (s : State) (a : Nat) (b : Bool) : (s.setFull a b).past = s.past := by
  unfold State.setFull; split <;> rfl
@[simp] theorem State.setFull_poolDirty (s : State) (a : Nat) (b : Bool) : (s.setFull a b).poolDirty = s.poolDirty := by
  unfold State.setFull; split <;> rfl
@[simp] theorem State.setFull_poolDev (s : State) (a : Nat) (b : Bool) : (s.setFull a b).poolDev = s.poolDev := by
  unfold State.setFull; split <;> rfl
@[simp] theorem State.setFull_bells (s : State) (a : Nat) (b : Bool) : (s.setFull a b).bells = s.bells := by
  unfold State.setFull; split <;> rfl
@[simp] theorem State.setFull_partCmds (s : State) (a : Nat) (b : Bool) : (s.setFull a b).partCmds = s.partCmds := by
  unfold State.setFull; split <;> rfl
@[simp] theorem State.setFull_partWaits (s : State) (a : Nat) (b : Bool) : (s.setFull a b).partWaits = s.partWaits := by
  unfold State.setFull; split <;> rfl
@[simp] theorem State.setFull_resetting (s : State) (a : Nat) (b : Bool) : (s.setFull a b).resetting = s.resetting := by
  unfold State.setFull; split <;> rfl
@[simp] theorem State.setFull_lends (s : State) (a : Nat) (b : Bool) : (s.setFull a b).lends = s.lends := by
  unfold State.setFull; split <;> rfl
@[simp] theorem State.setFull_cycling (s : State) (a : Nat) (b : Bool) : (s.setFull a b).cycling = s.cycling := by
  unfold State.setFull; split <;> rfl
@[simp] theorem State.setFull_taken (s : State) (a : Nat) (b : Bool) : (s.setFull a b).taken = s.taken := by
  unfold State.setFull; split <;> rfl
@[simp] theorem State.setFull_scrubs (s : State) (a : Nat) (b : Bool) : (s.setFull a b).scrubs = s.scrubs := by
  unfold State.setFull; split <;> rfl
@[simp] theorem State.setFull_sysReqs (s : State) (a : Nat) (b : Bool) : (s.setFull a b).sysReqs = s.sysReqs := by
  unfold State.setFull; split <;> rfl
@[simp] theorem State.setFull_nodes (s : State) (a : Nat) (b : Bool) : (s.setFull a b).nodes = s.nodes := by
  unfold State.setFull; split <;> rfl
@[simp] theorem State.setFull_spaces (s : State) (a : Nat) (b : Bool) : (s.setFull a b).spaces = s.spaces := by
  unfold State.setFull; split <;> rfl
@[simp] theorem State.setFull_gens (s : State) (a : Nat) (b : Bool) : (s.setFull a b).gens = s.gens := by
  unfold State.setFull; split <;> rfl
@[simp] theorem State.setFull_walks (s : State) (a : Nat) (b : Bool) : (s.setFull a b).walks = s.walks := by
  unfold State.setFull; split <;> rfl
@[simp] theorem State.setFull_grants (s : State) (a : Nat) (b : Bool) : (s.setFull a b).grants = s.grants := by
  unfold State.setFull; split <;> rfl
@[simp] theorem State.setFull_moves (s : State) (a : Nat) (b : Bool) : (s.setFull a b).moves = s.moves := by
  unfold State.setFull; split <;> rfl
@[simp] theorem State.setFull_retry (s : State) (a : Nat) (b : Bool) : (s.setFull a b).retry = s.retry := by
  unfold State.setFull; split <;> rfl
@[simp] theorem State.setFull_remoteMons (s : State) (a : Nat) (b : Bool) : (s.setFull a b).remoteMons = s.remoteMons := by
  unfold State.setFull; split <;> rfl
@[simp] theorem State.setFull_notices (s : State) (a : Nat) (b : Bool) : (s.setFull a b).notices = s.notices := by
  unfold State.setFull; split <;> rfl
@[simp] theorem State.setFull_ctxs (s : State) (a : Nat) (b : Bool) : (s.setFull a b).ctxs = s.ctxs := by
  unfold State.setFull; split <;> rfl
@[simp] theorem State.setFull_cores (s : State) (a : Nat) (b : Bool) : (s.setFull a b).cores = s.cores := by
  unfold State.setFull; split <;> rfl
@[simp] theorem State.setFull_clusters (s : State) (a : Nat) (b : Bool) : (s.setFull a b).clusters = s.clusters := by
  unfold State.setFull; split <;> rfl
@[simp] theorem State.setFull_dies (s : State) (a : Nat) (b : Bool) : (s.setFull a b).dies = s.dies := by
  unfold State.setFull; split <;> rfl
@[simp] theorem State.setFull_net (s : State) (a : Nat) (b : Bool) : (s.setFull a b).net = s.net := by
  unfold State.setFull; split <;> rfl
@[simp] theorem State.setFull_launches (s : State) (a : Nat) (b : Bool) : (s.setFull a b).launches = s.launches := by
  unfold State.setFull; split <;> rfl
@[simp] theorem State.setFull_regions (s : State) (a : Nat) (b : Bool) : (s.setFull a b).regions = s.regions := by
  unfold State.setFull; split <;> rfl
@[simp] theorem State.setFull_launchMsgs (s : State) (a : Nat) (b : Bool) : (s.setFull a b).launchMsgs = s.launchMsgs := by
  unfold State.setFull; split <;> rfl
@[simp] theorem State.setFull_nextOrder (s : State) (a : Nat) (b : Bool) : (s.setFull a b).nextOrder = s.nextOrder := by
  unfold State.setFull; split <;> rfl
@[simp] theorem State.setFull_charges (s : State) (a : Nat) (b : Bool) : (s.setFull a b).charges = s.charges := by
  unfold State.setFull; split <;> rfl
@[simp] theorem State.setFull_spent (s : State) (a : Nat) (b : Bool) : (s.setFull a b).spent = s.spent := by
  unfold State.setFull; split <;> rfl
@[simp] theorem State.setFull_restarts (s : State) (a : Nat) (b : Bool) : (s.setFull a b).restarts = s.restarts := by
  unfold State.setFull; split <;> rfl
@[simp] theorem State.setFull_worlds (s : State) (a : Nat) (b : Bool) : (s.setFull a b).worlds = s.worlds := by
  unfold State.setFull; split <;> rfl
@[simp] theorem State.setFull_scheds (s : State) (a : Nat) (b : Bool) : (s.setFull a b).scheds = s.scheds := by
  unfold State.setFull; split <;> rfl
@[simp] theorem State.setFull_masters (s : State) (a : Nat) (b : Bool) : (s.setFull a b).masters = s.masters := by
  unfold State.setFull; split <;> rfl
@[simp] theorem State.setFull_vsyncs (s : State) (a : Nat) (b : Bool) : (s.setFull a b).vsyncs = s.vsyncs := by
  unfold State.setFull; split <;> rfl
@[simp] theorem State.setFull_savedMat (s : State) (a : Nat) (b : Bool) : (s.setFull a b).savedMat = s.savedMat := by
  unfold State.setFull; split <;> rfl
@[simp] theorem State.setFull_savedCpy (s : State) (a : Nat) (b : Bool) : (s.setFull a b).savedCpy = s.savedCpy := by
  unfold State.setFull; split <;> rfl
@[simp] theorem State.setFull_savedVec (s : State) (a : Nat) (b : Bool) : (s.setFull a b).savedVec = s.savedVec := by
  unfold State.setFull; split <;> rfl
@[simp] theorem State.setFull_router (s : State) (a : Nat) (b : Bool) : (s.setFull a b).router = s.router := by
  unfold State.setFull; split <;> rfl
@[simp] theorem State.setFull_trust (s : State) (a : Nat) (b : Bool) : (s.setFull a b).trust = s.trust := by
  unfold State.setFull; split <;> rfl

/-! ## `State.setPoison` -/

@[simp] theorem State.setPoison_agenda (s : State) (a : Nat) (b : Bool) : (s.setPoison a b).agenda = s.agenda := rfl
@[simp] theorem State.setPoison_issuing (s : State) (a : Nat) (b : Bool) : (s.setPoison a b).issuing = s.issuing := rfl
@[simp] theorem State.setPoison_tried (s : State) (a : Nat) (b : Bool) : (s.setPoison a b).tried = s.tried := rfl
@[simp] theorem State.setPoison_nextUid (s : State) (a : Nat) (b : Bool) : (s.setPoison a b).nextUid = s.nextUid := rfl
@[simp] theorem State.setPoison_draws (s : State) (a : Nat) (b : Bool) : (s.setPoison a b).draws = s.draws := rfl
@[simp] theorem State.setPoison_turn (s : State) (a : Nat) (b : Bool) : (s.setPoison a b).turn = s.turn := rfl
@[simp] theorem State.setPoison_out (s : State) (a : Nat) (b : Bool) : (s.setPoison a b).out = s.out := rfl
@[simp] theorem State.setPoison_pkg (s : State) (a : Nat) (b : Bool) : (s.setPoison a b).pkg = s.pkg := rfl
@[simp] theorem State.setPoison_boot (s : State) (a : Nat) (b : Bool) : (s.setPoison a b).boot = s.boot := rfl
@[simp] theorem State.setPoison_temps (s : State) (a : Nat) (b : Bool) : (s.setPoison a b).temps = s.temps := rfl
@[simp] theorem State.setPoison_pages (s : State) (a : Nat) (b : Bool) : (s.setPoison a b).pages = s.pages := rfl
@[simp] theorem State.setPoison_cxlMib (s : State) (a : Nat) (b : Bool) : (s.setPoison a b).cxlMib = s.cxlMib := rfl
@[simp] theorem State.setPoison_peers (s : State) (a : Nat) (b : Bool) : (s.setPoison a b).peers = s.peers := rfl
@[simp] theorem State.setPoison_poolIn (s : State) (a : Nat) (b : Bool) : (s.setPoison a b).poolIn = s.poolIn := rfl
@[simp] theorem State.setPoison_past (s : State) (a : Nat) (b : Bool) : (s.setPoison a b).past = s.past := rfl
@[simp] theorem State.setPoison_poolDirty (s : State) (a : Nat) (b : Bool) : (s.setPoison a b).poolDirty = s.poolDirty := rfl
@[simp] theorem State.setPoison_poolDev (s : State) (a : Nat) (b : Bool) : (s.setPoison a b).poolDev = s.poolDev := rfl
@[simp] theorem State.setPoison_bells (s : State) (a : Nat) (b : Bool) : (s.setPoison a b).bells = s.bells := rfl
@[simp] theorem State.setPoison_partCmds (s : State) (a : Nat) (b : Bool) : (s.setPoison a b).partCmds = s.partCmds := rfl
@[simp] theorem State.setPoison_partWaits (s : State) (a : Nat) (b : Bool) : (s.setPoison a b).partWaits = s.partWaits := rfl
@[simp] theorem State.setPoison_resetting (s : State) (a : Nat) (b : Bool) : (s.setPoison a b).resetting = s.resetting := rfl
@[simp] theorem State.setPoison_lends (s : State) (a : Nat) (b : Bool) : (s.setPoison a b).lends = s.lends := rfl
@[simp] theorem State.setPoison_cycling (s : State) (a : Nat) (b : Bool) : (s.setPoison a b).cycling = s.cycling := rfl
@[simp] theorem State.setPoison_taken (s : State) (a : Nat) (b : Bool) : (s.setPoison a b).taken = s.taken := rfl
@[simp] theorem State.setPoison_scrubs (s : State) (a : Nat) (b : Bool) : (s.setPoison a b).scrubs = s.scrubs := rfl
@[simp] theorem State.setPoison_sysReqs (s : State) (a : Nat) (b : Bool) : (s.setPoison a b).sysReqs = s.sysReqs := rfl
@[simp] theorem State.setPoison_nodes (s : State) (a : Nat) (b : Bool) : (s.setPoison a b).nodes = s.nodes := rfl
@[simp] theorem State.setPoison_spaces (s : State) (a : Nat) (b : Bool) : (s.setPoison a b).spaces = s.spaces := rfl
@[simp] theorem State.setPoison_gens (s : State) (a : Nat) (b : Bool) : (s.setPoison a b).gens = s.gens := rfl
@[simp] theorem State.setPoison_walks (s : State) (a : Nat) (b : Bool) : (s.setPoison a b).walks = s.walks := rfl
@[simp] theorem State.setPoison_grants (s : State) (a : Nat) (b : Bool) : (s.setPoison a b).grants = s.grants := rfl
@[simp] theorem State.setPoison_moves (s : State) (a : Nat) (b : Bool) : (s.setPoison a b).moves = s.moves := rfl
@[simp] theorem State.setPoison_retry (s : State) (a : Nat) (b : Bool) : (s.setPoison a b).retry = s.retry := rfl
@[simp] theorem State.setPoison_remoteMons (s : State) (a : Nat) (b : Bool) : (s.setPoison a b).remoteMons = s.remoteMons := rfl
@[simp] theorem State.setPoison_notices (s : State) (a : Nat) (b : Bool) : (s.setPoison a b).notices = s.notices := rfl
@[simp] theorem State.setPoison_ctxs (s : State) (a : Nat) (b : Bool) : (s.setPoison a b).ctxs = s.ctxs := rfl
@[simp] theorem State.setPoison_cores (s : State) (a : Nat) (b : Bool) : (s.setPoison a b).cores = s.cores := rfl
@[simp] theorem State.setPoison_clusters (s : State) (a : Nat) (b : Bool) : (s.setPoison a b).clusters = s.clusters := rfl
@[simp] theorem State.setPoison_dies (s : State) (a : Nat) (b : Bool) : (s.setPoison a b).dies = s.dies := rfl
@[simp] theorem State.setPoison_net (s : State) (a : Nat) (b : Bool) : (s.setPoison a b).net = s.net := rfl
@[simp] theorem State.setPoison_launches (s : State) (a : Nat) (b : Bool) : (s.setPoison a b).launches = s.launches := rfl
@[simp] theorem State.setPoison_regions (s : State) (a : Nat) (b : Bool) : (s.setPoison a b).regions = s.regions := rfl
@[simp] theorem State.setPoison_launchMsgs (s : State) (a : Nat) (b : Bool) : (s.setPoison a b).launchMsgs = s.launchMsgs := rfl
@[simp] theorem State.setPoison_nextOrder (s : State) (a : Nat) (b : Bool) : (s.setPoison a b).nextOrder = s.nextOrder := rfl
@[simp] theorem State.setPoison_charges (s : State) (a : Nat) (b : Bool) : (s.setPoison a b).charges = s.charges := rfl
@[simp] theorem State.setPoison_spent (s : State) (a : Nat) (b : Bool) : (s.setPoison a b).spent = s.spent := rfl
@[simp] theorem State.setPoison_restarts (s : State) (a : Nat) (b : Bool) : (s.setPoison a b).restarts = s.restarts := rfl
@[simp] theorem State.setPoison_worlds (s : State) (a : Nat) (b : Bool) : (s.setPoison a b).worlds = s.worlds := rfl
@[simp] theorem State.setPoison_scheds (s : State) (a : Nat) (b : Bool) : (s.setPoison a b).scheds = s.scheds := rfl
@[simp] theorem State.setPoison_masters (s : State) (a : Nat) (b : Bool) : (s.setPoison a b).masters = s.masters := rfl
@[simp] theorem State.setPoison_vsyncs (s : State) (a : Nat) (b : Bool) : (s.setPoison a b).vsyncs = s.vsyncs := rfl
@[simp] theorem State.setPoison_savedMat (s : State) (a : Nat) (b : Bool) : (s.setPoison a b).savedMat = s.savedMat := rfl
@[simp] theorem State.setPoison_savedCpy (s : State) (a : Nat) (b : Bool) : (s.setPoison a b).savedCpy = s.savedCpy := rfl
@[simp] theorem State.setPoison_savedVec (s : State) (a : Nat) (b : Bool) : (s.setPoison a b).savedVec = s.savedVec := rfl
@[simp] theorem State.setPoison_router (s : State) (a : Nat) (b : Bool) : (s.setPoison a b).router = s.router := rfl
@[simp] theorem State.setPoison_trust (s : State) (a : Nat) (b : Bool) : (s.setPoison a b).trust = s.trust := rfl

/-! ## `State.writeLine` -/

@[simp] theorem State.writeLine_agenda (s : State) (w a : Nat) (bs : List Byte) : (s.writeLine w a bs).agenda = s.agenda := by
  unfold State.writeLine; dsimp only; split; rfl; split; rfl; split <;> rfl
@[simp] theorem State.writeLine_issuing (s : State) (w a : Nat) (bs : List Byte) : (s.writeLine w a bs).issuing = s.issuing := by
  unfold State.writeLine; dsimp only; split; rfl; split; rfl; split <;> rfl
@[simp] theorem State.writeLine_tried (s : State) (w a : Nat) (bs : List Byte) : (s.writeLine w a bs).tried = s.tried := by
  unfold State.writeLine; dsimp only; split; rfl; split; rfl; split <;> rfl
@[simp] theorem State.writeLine_nextUid (s : State) (w a : Nat) (bs : List Byte) : (s.writeLine w a bs).nextUid = s.nextUid := by
  unfold State.writeLine; dsimp only; split; rfl; split; rfl; split <;> rfl
@[simp] theorem State.writeLine_draws (s : State) (w a : Nat) (bs : List Byte) : (s.writeLine w a bs).draws = s.draws := by
  unfold State.writeLine; dsimp only; split; rfl; split; rfl; split <;> rfl
@[simp] theorem State.writeLine_turn (s : State) (w a : Nat) (bs : List Byte) : (s.writeLine w a bs).turn = s.turn := by
  unfold State.writeLine; dsimp only; split; rfl; split; rfl; split <;> rfl
@[simp] theorem State.writeLine_out (s : State) (w a : Nat) (bs : List Byte) : (s.writeLine w a bs).out = s.out := by
  unfold State.writeLine; dsimp only; split; rfl; split; rfl; split <;> rfl
@[simp] theorem State.writeLine_pkg (s : State) (w a : Nat) (bs : List Byte) : (s.writeLine w a bs).pkg = s.pkg := by
  unfold State.writeLine; dsimp only; split; rfl; split; rfl; split <;> rfl
@[simp] theorem State.writeLine_boot (s : State) (w a : Nat) (bs : List Byte) : (s.writeLine w a bs).boot = s.boot := by
  unfold State.writeLine; dsimp only; split; rfl; split; rfl; split <;> rfl
@[simp] theorem State.writeLine_temps (s : State) (w a : Nat) (bs : List Byte) : (s.writeLine w a bs).temps = s.temps := by
  unfold State.writeLine; dsimp only; split; rfl; split; rfl; split <;> rfl
@[simp] theorem State.writeLine_pages (s : State) (w a : Nat) (bs : List Byte) : (s.writeLine w a bs).pages = s.pages := by
  unfold State.writeLine; dsimp only; split; rfl; split; rfl; split <;> rfl
@[simp] theorem State.writeLine_cxlMib (s : State) (w a : Nat) (bs : List Byte) : (s.writeLine w a bs).cxlMib = s.cxlMib := by
  unfold State.writeLine; dsimp only; split; rfl; split; rfl; split <;> rfl
@[simp] theorem State.writeLine_peers (s : State) (w a : Nat) (bs : List Byte) : (s.writeLine w a bs).peers = s.peers := by
  unfold State.writeLine; dsimp only; split; rfl; split; rfl; split <;> rfl
@[simp] theorem State.writeLine_poolIn (s : State) (w a : Nat) (bs : List Byte) : (s.writeLine w a bs).poolIn = s.poolIn := by
  unfold State.writeLine; dsimp only; split; rfl; split; rfl; split <;> rfl
@[simp] theorem State.writeLine_past (s : State) (w a : Nat) (bs : List Byte) : (s.writeLine w a bs).past = s.past := by
  unfold State.writeLine; dsimp only; split; rfl; split; rfl; split <;> rfl
@[simp] theorem State.writeLine_poolDirty (s : State) (w a : Nat) (bs : List Byte) : (s.writeLine w a bs).poolDirty = s.poolDirty := by
  unfold State.writeLine; dsimp only; split; rfl; split; rfl; split <;> rfl
@[simp] theorem State.writeLine_poolDev (s : State) (w a : Nat) (bs : List Byte) : (s.writeLine w a bs).poolDev = s.poolDev := by
  unfold State.writeLine; dsimp only; split; rfl; split; rfl; split <;> rfl
@[simp] theorem State.writeLine_bells (s : State) (w a : Nat) (bs : List Byte) : (s.writeLine w a bs).bells = s.bells := by
  unfold State.writeLine; dsimp only; split; rfl; split; rfl; split <;> rfl
@[simp] theorem State.writeLine_partCmds (s : State) (w a : Nat) (bs : List Byte) : (s.writeLine w a bs).partCmds = s.partCmds := by
  unfold State.writeLine; dsimp only; split; rfl; split; rfl; split <;> rfl
@[simp] theorem State.writeLine_partWaits (s : State) (w a : Nat) (bs : List Byte) : (s.writeLine w a bs).partWaits = s.partWaits := by
  unfold State.writeLine; dsimp only; split; rfl; split; rfl; split <;> rfl
@[simp] theorem State.writeLine_resetting (s : State) (w a : Nat) (bs : List Byte) : (s.writeLine w a bs).resetting = s.resetting := by
  unfold State.writeLine; dsimp only; split; rfl; split; rfl; split <;> rfl
@[simp] theorem State.writeLine_lends (s : State) (w a : Nat) (bs : List Byte) : (s.writeLine w a bs).lends = s.lends := by
  unfold State.writeLine; dsimp only; split; rfl; split; rfl; split <;> rfl
@[simp] theorem State.writeLine_cycling (s : State) (w a : Nat) (bs : List Byte) : (s.writeLine w a bs).cycling = s.cycling := by
  unfold State.writeLine; dsimp only; split; rfl; split; rfl; split <;> rfl
@[simp] theorem State.writeLine_taken (s : State) (w a : Nat) (bs : List Byte) : (s.writeLine w a bs).taken = s.taken := by
  unfold State.writeLine; dsimp only; split; rfl; split; rfl; split <;> rfl
@[simp] theorem State.writeLine_scrubs (s : State) (w a : Nat) (bs : List Byte) : (s.writeLine w a bs).scrubs = s.scrubs := by
  unfold State.writeLine; dsimp only; split; rfl; split; rfl; split <;> rfl
@[simp] theorem State.writeLine_sysReqs (s : State) (w a : Nat) (bs : List Byte) : (s.writeLine w a bs).sysReqs = s.sysReqs := by
  unfold State.writeLine; dsimp only; split; rfl; split; rfl; split <;> rfl
@[simp] theorem State.writeLine_nodes (s : State) (w a : Nat) (bs : List Byte) : (s.writeLine w a bs).nodes = s.nodes := by
  unfold State.writeLine; dsimp only; split; rfl; split; rfl; split <;> rfl
@[simp] theorem State.writeLine_spaces (s : State) (w a : Nat) (bs : List Byte) : (s.writeLine w a bs).spaces = s.spaces := by
  unfold State.writeLine; dsimp only; split; rfl; split; rfl; split <;> rfl
@[simp] theorem State.writeLine_gens (s : State) (w a : Nat) (bs : List Byte) : (s.writeLine w a bs).gens = s.gens := by
  unfold State.writeLine; dsimp only; split; rfl; split; rfl; split <;> rfl
@[simp] theorem State.writeLine_walks (s : State) (w a : Nat) (bs : List Byte) : (s.writeLine w a bs).walks = s.walks := by
  unfold State.writeLine; dsimp only; split; rfl; split; rfl; split <;> rfl
@[simp] theorem State.writeLine_grants (s : State) (w a : Nat) (bs : List Byte) : (s.writeLine w a bs).grants = s.grants := by
  unfold State.writeLine; dsimp only; split; rfl; split; rfl; split <;> rfl
@[simp] theorem State.writeLine_moves (s : State) (w a : Nat) (bs : List Byte) : (s.writeLine w a bs).moves = s.moves := by
  unfold State.writeLine; dsimp only; split; rfl; split; rfl; split <;> rfl
@[simp] theorem State.writeLine_retry (s : State) (w a : Nat) (bs : List Byte) : (s.writeLine w a bs).retry = s.retry := by
  unfold State.writeLine; dsimp only; split; rfl; split; rfl; split <;> rfl
@[simp] theorem State.writeLine_remoteMons (s : State) (w a : Nat) (bs : List Byte) : (s.writeLine w a bs).remoteMons = s.remoteMons := by
  unfold State.writeLine; dsimp only; split; rfl; split; rfl; split <;> rfl
@[simp] theorem State.writeLine_notices (s : State) (w a : Nat) (bs : List Byte) : (s.writeLine w a bs).notices = s.notices := by
  unfold State.writeLine; dsimp only; split; rfl; split; rfl; split <;> rfl
@[simp] theorem State.writeLine_ctxs (s : State) (w a : Nat) (bs : List Byte) : (s.writeLine w a bs).ctxs = s.ctxs := by
  unfold State.writeLine; dsimp only; split; rfl; split; rfl; split <;> rfl
@[simp] theorem State.writeLine_cores (s : State) (w a : Nat) (bs : List Byte) : (s.writeLine w a bs).cores = s.cores := by
  unfold State.writeLine; dsimp only; split; rfl; split; rfl; split <;> rfl
@[simp] theorem State.writeLine_clusters (s : State) (w a : Nat) (bs : List Byte) : (s.writeLine w a bs).clusters = s.clusters := by
  unfold State.writeLine; dsimp only; split; rfl; split; rfl; split <;> rfl
@[simp] theorem State.writeLine_dies (s : State) (w a : Nat) (bs : List Byte) : (s.writeLine w a bs).dies = s.dies := by
  unfold State.writeLine; dsimp only; split; rfl; split; rfl; split <;> rfl
@[simp] theorem State.writeLine_net (s : State) (w a : Nat) (bs : List Byte) : (s.writeLine w a bs).net = s.net := by
  unfold State.writeLine; dsimp only; split; rfl; split; rfl; split <;> rfl
@[simp] theorem State.writeLine_launches (s : State) (w a : Nat) (bs : List Byte) : (s.writeLine w a bs).launches = s.launches := by
  unfold State.writeLine; dsimp only; split; rfl; split; rfl; split <;> rfl
@[simp] theorem State.writeLine_regions (s : State) (w a : Nat) (bs : List Byte) : (s.writeLine w a bs).regions = s.regions := by
  unfold State.writeLine; dsimp only; split; rfl; split; rfl; split <;> rfl
@[simp] theorem State.writeLine_launchMsgs (s : State) (w a : Nat) (bs : List Byte) : (s.writeLine w a bs).launchMsgs = s.launchMsgs := by
  unfold State.writeLine; dsimp only; split; rfl; split; rfl; split <;> rfl
@[simp] theorem State.writeLine_nextOrder (s : State) (w a : Nat) (bs : List Byte) : (s.writeLine w a bs).nextOrder = s.nextOrder := by
  unfold State.writeLine; dsimp only; split; rfl; split; rfl; split <;> rfl
@[simp] theorem State.writeLine_charges (s : State) (w a : Nat) (bs : List Byte) : (s.writeLine w a bs).charges = s.charges := by
  unfold State.writeLine; dsimp only; split; rfl; split; rfl; split <;> rfl
@[simp] theorem State.writeLine_spent (s : State) (w a : Nat) (bs : List Byte) : (s.writeLine w a bs).spent = s.spent := by
  unfold State.writeLine; dsimp only; split; rfl; split; rfl; split <;> rfl
@[simp] theorem State.writeLine_restarts (s : State) (w a : Nat) (bs : List Byte) : (s.writeLine w a bs).restarts = s.restarts := by
  unfold State.writeLine; dsimp only; split; rfl; split; rfl; split <;> rfl
@[simp] theorem State.writeLine_worlds (s : State) (w a : Nat) (bs : List Byte) : (s.writeLine w a bs).worlds = s.worlds := by
  unfold State.writeLine; dsimp only; split; rfl; split; rfl; split <;> rfl
@[simp] theorem State.writeLine_scheds (s : State) (w a : Nat) (bs : List Byte) : (s.writeLine w a bs).scheds = s.scheds := by
  unfold State.writeLine; dsimp only; split; rfl; split; rfl; split <;> rfl
@[simp] theorem State.writeLine_masters (s : State) (w a : Nat) (bs : List Byte) : (s.writeLine w a bs).masters = s.masters := by
  unfold State.writeLine; dsimp only; split; rfl; split; rfl; split <;> rfl
@[simp] theorem State.writeLine_vsyncs (s : State) (w a : Nat) (bs : List Byte) : (s.writeLine w a bs).vsyncs = s.vsyncs := by
  unfold State.writeLine; dsimp only; split; rfl; split; rfl; split <;> rfl
@[simp] theorem State.writeLine_savedMat (s : State) (w a : Nat) (bs : List Byte) : (s.writeLine w a bs).savedMat = s.savedMat := by
  unfold State.writeLine; dsimp only; split; rfl; split; rfl; split <;> rfl
@[simp] theorem State.writeLine_savedCpy (s : State) (w a : Nat) (bs : List Byte) : (s.writeLine w a bs).savedCpy = s.savedCpy := by
  unfold State.writeLine; dsimp only; split; rfl; split; rfl; split <;> rfl
@[simp] theorem State.writeLine_savedVec (s : State) (w a : Nat) (bs : List Byte) : (s.writeLine w a bs).savedVec = s.savedVec := by
  unfold State.writeLine; dsimp only; split; rfl; split; rfl; split <;> rfl
@[simp] theorem State.writeLine_router (s : State) (w a : Nat) (bs : List Byte) : (s.writeLine w a bs).router = s.router := by
  unfold State.writeLine; dsimp only; split; rfl; split; rfl; split <;> rfl
@[simp] theorem State.writeLine_trust (s : State) (w a : Nat) (bs : List Byte) : (s.writeLine w a bs).trust = s.trust := by
  unfold State.writeLine; dsimp only; split; rfl; split; rfl; split <;> rfl

end Sys2Proof.Machine
end

