-- ==== Sys2Proof/Laws/Issue.lean ====
section
/-! SUPPORT. Laws of contexts and of the issue of an instruction: what is read back after an update, and what an issue
answers in each case. -/

namespace Sys2Proof.Machine

/-! ## Contexts and cores after an update -/

@[simp] theorem State.ctx?_setCtx (s : State) (u : Nat) (c : Context) : (s.setCtx u c).ctx? u = some c := by
  simp [State.ctx?, State.setCtx]

theorem State.ctx?_setCtx_other (s : State) {u i : Nat} (c : Context) (h : i ≠ u) : (s.setCtx u c).ctx? i = s.ctx? i := by
  simp [State.ctx?, State.setCtx, KMap.look_put, h]

theorem State.ctx?_modCtx (s : State) (u i : Nat) (f : Context → Context) :
    (s.modCtx u f).ctx? i = if i = u then (s.ctx? u).map f else s.ctx? i := by
  unfold State.ctx? State.modCtx KMap.modify
  cases h : KMap.look s.ctxs u with
  | none =>
    by_cases hi : i = u
    · subst hi
      simp [h]
    · simp [hi]
  | some v =>
    simp only [KMap.look_put]
    by_cases hi : i = u <;> simp [hi]

theorem State.ctx?_modCtx_same {s : State} {u : Nat} {c : Context} (f : Context → Context) (h : s.ctx? u = some c) :
    (s.modCtx u f).ctx? u = some (f c) := by
  simp [State.ctx?_modCtx, h]

theorem State.ctx?_modCtx_other (s : State) {u i : Nat} (f : Context → Context) (h : i ≠ u) :
    (s.modCtx u f).ctx? i = s.ctx? i := by
  simp [State.ctx?_modCtx, h]

@[simp] theorem State.ctx?_modCore (s : State) (d n : Nat) (f : Core → Core) (u : Nat) :
    (s.modCore d n f).ctx? u = s.ctx? u := rfl

@[simp] theorem State.ctx?_modDie (s : State) (d : Nat) (f : Die → Die) (u : Nat) :
    (s.modDie d f).ctx? u = s.ctx? u := rfl

@[simp] theorem State.core_modCtx (s : State) (u : Nat) (f : Context → Context) (d n : Nat) :
    (s.modCtx u f).core d n = s.core d n := rfl

@[simp] theorem State.die_modCtx (s : State) (u : Nat) (f : Context → Context) (d : Nat) :
    (s.modCtx u f).die d = s.die d := rfl

@[simp] theorem State.cyc_modCtx (s : State) (u : Nat) (f : Context → Context) (d : Nat) :
    (s.modCtx u f).cyc d = s.cyc d := rfl

/-- Two changes of one context are one. -/
theorem State.modCtx_modCtx (s : State) (u : Nat) (f g : Context → Context) :
    (s.modCtx u f).modCtx u g = s.modCtx u fun c => g (f c) := by
  have hp : ∀ (m : KMap Context) (x y : Context), KMap.put (KMap.put m u x) u y = KMap.put m u y := by
    intro m x y
    induction m with
    | nil => simp [KMap.put]
    | cons p t ih =>
      obtain ⟨k, v⟩ := p
      simp only [KMap.put]
      split
      · simp_all [KMap.put]
      · split <;> simp_all [KMap.put]
  unfold State.modCtx KMap.modify
  cases h : KMap.look s.ctxs u with
  | none => simp [h]
  | some v => simp [hp]

/-- Reading a core after it was changed to one that is not empty. -/
theorem State.core_modCore (s : State) (d n d' n' : Nat) (f : Core → Core) (h : f (s.core d n) ≠ Core.empty) :
    (s.modCore d n f).core d' n' = if coreKey d' n' = coreKey d n then f (s.core d n) else s.core d' n' := by
  have h1 : (s.modCore d n f).cores = KMap.put s.cores (coreKey d n) (f (s.core d n)) := if_neg h
  unfold State.core at *
  rw [h1, KMap.lookD, KMap.look_put]
  split <;> rfl

/-! ## The lines of a context -/

theorem KMap.has_modify {α : Type} (m : KMap α) (a b : Nat) (f : α → α) :
    KMap.has (KMap.modify m a f) b = KMap.has m b := by
  unfold KMap.modify KMap.has
  cases h : KMap.look m a with
  | none => rfl
  | some v =>
    simp only [KMap.look_put]
    by_cases hb : b = a
    · simp [hb, h]
    · simp [hb]

theorem Context.touch_lines (c : Context) (now : Nat) (dirty : Bool) (ns : List Nat) (n : Nat) :
    KMap.has (c.touch now dirty ns).lines n = KMap.has c.lines n := by
  unfold Context.touch
  dsimp only
  generalize c.lines = m
  induction ns generalizing m with
  | nil => rfl
  | cons k ns ih => rw [List.foldl_cons, ih, KMap.has_modify]

/-! ## What an issue answers -/

/-- What the issue of an instruction adds to its own effect. -/
theorem State.issuedTo_retired {u : State} {uid : Nat} {k : Context} (ctl : Ctl) (pc : BitVec 64) (rd wr : List Nat)
    (h : u.ctx? uid = some k) (hs : k.slot.isSome = true) : u.issuedTo uid ctl pc k (u.retired uid ctl pc rd wr) := by
  obtain ⟨sl, hsl⟩ := Option.isSome_iff_exists.mp hs
  unfold State.retired
  rw [h]
  dsimp only
  refine ⟨rfl, fun i hi => by rw [State.ctx?_modCtx_other _ _ hi, State.ctx?_modCore], ?_, fun d n => ?_⟩
  · refine ⟨_, State.ctx?_modCtx_same _ (by rw [State.ctx?_modCore]; exact h), ?_⟩
    rw [hsl]
    simp only [Option.isNone_some, Bool.false_eq_true, if_false]
    exact ⟨rfl, fun n => by simp [Context.touch_lines]⟩
  · rw [State.core_modCtx, State.core_modCore]
    · split
      · rename_i he
        simp only [State.core, he]
      · rfl
    · intro he
      have := congrArg Core.uses he
      simp [Core.empty] at this

/-- An instruction that may issue, and whose body is done, is retired. -/
theorem issue_done {op : Nat} {ctl : Ctl} {priv : Context → Bool} {rd : List Src} {wr : List AnyReg} {s t : State}
    {c : Context} {body : Nat → Context → State → Res} (h : s.ready c ctl rd wr) (hp : priv c = false)
    (hb : body s.issuing c (s.movedOn s.issuing) = .done t) :
    issue op ctl priv rd wr s body
      = .next (t.retired s.issuing ctl c.pc (namedLines (rd.map (·.reg))) (destLines wr)) := by
  obtain ⟨hc, hm⟩ := h
  simp only [Context.mayIssue, Bool.and_eq_true, List.all_eq_true, Bool.not_eq_true'] at hm
  obtain ⟨⟨⟨⟨⟨-, hg⟩, hgt⟩, hl⟩, hr⟩, hw⟩ := hm
  unfold issue
  rw [hc]
  dsimp only
  have h1 : (namedLines (rd.map (·.reg)) ++ namedLines wr).find? (fun n => !(KMap.has c.lines n)) = none := by
    rw [List.find?_eq_none]
    intro n hn
    simp [hl n hn]
  have h2 : (rd.any fun r => r.bang && !(c.isFull r.reg)) = false := by
    rw [List.any_eq_false]
    intro r hr'
    simp [(hr r hr').1]
  have h3 : (rd.any fun r => !(c.isFull r.reg)) = false := by
    rw [List.any_eq_false]
    intro r hr'
    simp [(hr r hr').1]
  have h4 : (rd.any fun r => c.isPois r.reg) = false := by
    rw [List.any_eq_false]
    intro r hr'
    simp [(hr r hr').2]
  have h5 : (wr.any fun r => c.isPend r) = false := by
    rw [List.any_eq_false]
    intro r hr'
    simp [hw r hr']
  simp [hp, hg, hgt, h1, h2, h3, h4, h5, hb]

/-- The context of `State.movedOn`. -/
def Context.movedOn (c : Context) : Context :=
  { c with pc := succPc c.pc, pastEnd := c.codeEnd && decide (c.pc.toNat % 8 = 4),
           block := if c.pc.toNat % 8 = 4 then none else c.block }

theorem State.movedOn_ctx {s : State} {c : Context} {uid : Nat} (h : s.ctx? uid = some c) :
    (s.movedOn uid).ctx? uid = some c.movedOn :=
  State.ctx?_modCtx_same _ h

/-- A change of one context alone, seen from the state before it. -/
theorem State.issuedTo_modCtx {s t : State} {uid : Nat} {ctl : Ctl} {pc : BitVec 64} {k : Context}
    (f : Context → Context) (h : (s.modCtx uid f).issuedTo uid ctl pc k t) : s.issuedTo uid ctl pc k t := by
  obtain ⟨h1, h2, h3, h4⟩ := h
  exact ⟨h1, fun i hi => by rw [h2 i hi, State.ctx?_modCtx_other _ _ hi], h3, h4⟩

/-- The fields `pastEnd` and `block` are marks of an issue. -/
theorem Context.issuedFrom_marks {ctl : Ctl} {pc : BitVec 64} {k k' c' : Context}
    (h : Context.issuedFrom ctl pc k c') (hk : k = { k' with pastEnd := k.pastEnd, block := k.block }) :
    Context.issuedFrom ctl pc k' c' := by
  obtain ⟨h1, h2⟩ := h
  constructor
  · rw [h1, hk]
  · intro n
    rw [h2 n, hk]

/-- An instruction that only changes its own context: `f` is its effect, beside moving on. -/
theorem issue_context {op : Nat} {ctl : Ctl} {priv : Context → Bool} {rd : List Src} {wr : List AnyReg} {s : State}
    {c : Context} {body : Nat → Context → State → Res} (f : Context → Context) (k : Context)
    (h : s.ready c ctl rd wr) (hp : priv c = false)
    (hb : body s.issuing c (s.movedOn s.issuing) = .done ((s.movedOn s.issuing).modCtx s.issuing f))
    (hk : f c.movedOn = { k with pastEnd := (f c.movedOn).pastEnd, block := (f c.movedOn).block })
    (hs : k.slot = c.slot) :
    ∃ t, issue op ctl priv rd wr s body = .next t ∧ s.issuedTo s.issuing ctl c.pc k t := by
  refine ⟨_, issue_done h hp hb, ?_⟩
  have hsl : c.slot.isSome = true := by
    have := h.2
    simp only [Context.mayIssue, Bool.and_eq_true] at this
    exact this.1.1.1.1.1
  have hm := State.ctx?_modCtx_same f (State.movedOn_ctx h.1)
  have hs' : (f c.movedOn).slot.isSome = true := by
    rw [hk]
    simp [hs, hsl]
  have := State.issuedTo_modCtx _ (State.issuedTo_modCtx _
    (State.issuedTo_retired ctl c.pc (namedLines (rd.map (·.reg))) (destLines wr) hm hs'))
  obtain ⟨h1, h2, ⟨c', h3, h4⟩, h5⟩ := this
  exact ⟨h1, h2, ⟨c', h3, Context.issuedFrom_marks h4 hk⟩, h5⟩

/-! ## Short and long producers (R55) -/

@[simp] theorem Context.setX_slot (c : Context) (r : Fin 64) (v : BitVec 64) : (c.setX r v).slot = c.slot := by
  unfold Context.setX
  split <;> rfl

@[simp] theorem Context.setV_slot (c : Context) (r : Fin 32) (v : BitVec 1024) : (c.setV r v).slot = c.slot := rfl

@[simp] theorem Context.setP_slot (c : Context) (r : Fin 8) (b : Bool) : (c.setP r b).slot = c.slot := by
  unfold Context.setP
  split <;> rfl

@[simp] theorem Context.setAny_slot (c : Context) (r : AnyReg) (v : BitVec 1024) : (c.setAny r v).slot = c.slot := by
  cases r <;> simp [Context.setAny]

@[simp] theorem Context.pend_slot (c : Context) (r : AnyReg) : (c.pend r).slot = c.slot := by
  cases r <;> rfl

/-- A register write and moving on do not meet. -/
theorem Context.setAny_moved (c : Context) (r : AnyReg) (v : BitVec 1024) :
    c.movedOn.setAny r v = { c.setAny r v with pc := c.movedOn.pc, pastEnd := c.movedOn.pastEnd, block := c.movedOn.block } := by
  cases r with
  | x r => unfold Context.setAny Context.setX; dsimp only; split <;> rfl
  | v r => rfl
  | p r => unfold Context.setAny Context.setP; dsimp only; split <;> rfl

@[simp] theorem Context.setAny_x (c : Context) (r : Fin 64) (v : BitVec 64) :
    c.setAny (.x r) (v.setWidth 1024) = c.setX r v := by
  simp [Context.setAny, BitVec.truncate]

@[simp] theorem Context.setAny_p (c : Context) (r : Fin 8) (v : BitVec 64) :
    c.setAny (.p r) (v.setWidth 1024) = c.setP r (v.getLsbD 0) := by
  simp [Context.setAny]

/-- A short producer writes its destination at issue. -/
theorem issue_setReg {op : Nat} {ctl : Ctl} {priv : Context → Bool} {rd : List Src} {wr : List AnyReg} {s : State}
    {c : Context} {body : Nat → Context → State → Res} {r : AnyReg} {v : BitVec 64} (h : s.ready c ctl rd wr)
    (hp : priv c = false)
    (hb : body s.issuing c (s.movedOn s.issuing) = .done ((s.movedOn s.issuing).setReg s.issuing r v)) :
    ∃ t, issue op ctl priv rd wr s body = .next t
      ∧ s.issuedTo s.issuing ctl c.pc { c.setAny r (v.setWidth 1024) with pc := succPc c.pc } t :=
  issue_context (fun c => c.setAny r (v.setWidth 1024)) _ h hp hb
    (by rw [Context.setAny_moved]; rfl) (by simp)

/-- A long producer changes its context alone. -/
theorem State.produce_eq (s : State) (uid : Nat) (f : Fill) : s.produce uid f = s.modCtx uid fun c => c.awaits f := rfl

/-- A long producer leaves its destination pending, with its fill on the way. -/
theorem issue_produce {op : Nat} {ctl : Ctl} {priv : Context → Bool} {rd : List Src} {wr : List AnyReg} {s : State}
    {c : Context} {body : Nat → Context → State → Res} {f : Fill} (h : s.ready c ctl rd wr) (hp : priv c = false)
    (hb : body s.issuing c (s.movedOn s.issuing) = .done ((s.movedOn s.issuing).produce s.issuing f)) :
    ∃ t, issue op ctl priv rd wr s body = .next t
      ∧ s.issuedTo s.issuing ctl c.pc { c.awaits f with pc := succPc c.pc } t := by
  rw [State.produce_eq] at hb
  refine issue_context _ _ h hp hb ?_ (by simp [Context.awaits])
  unfold Context.awaits Context.pend
  cases f.dest <;> rfl

/-- Memory reads the same after an issue that changed only contexts and cores. -/
theorem State.sameMemory_of_issuedTo {s t : State} {uid : Nat} {ctl : Ctl} {pc : BitVec 64} {k : Context}
    (h : s.issuedTo uid ctl pc k t) : s.sameMemory t := by
  intro w a
  rw [h.1]
  exact ⟨rfl, rfl, rfl⟩

end Sys2Proof.Machine
end

