-- ==== Sys2Proof/Laws/Memory.lean ====
section
/-! SUPPORT. Laws of memory: every operation on it keeps its canonical form, and a byte reads back as it was
written. -/

namespace Sys2Proof.Machine

/-! ## The canonical form -/

theorem Memory.wf_iff {m : Memory} :
    m.wf = true ↔ KMap.canon 0 m.bytes = true ∧ KMap.sorted m.empties = true ∧ KMap.sorted m.poisons = true
      ∧ KMap.canon 0 m.tags = true := by
  simp [Memory.wf, and_assoc]

theorem Memory.wf_empty : Memory.empty.wf = true := by decide

theorem State.reset_memory_wf : State.reset.mem.wf = true := by decide

/-- Memories that list the same bytes, full-empty bits, poison and tags have the form together. -/
theorem Memory.wf_congr {m n : Memory} (h : m.wf = true) (hb : n.bytes = m.bytes) (he : n.empties = m.empties)
    (hp : n.poisons = m.poisons) (ht : n.tags = m.tags) : n.wf = true := by
  simpa [Memory.wf, hb, he, hp, ht] using h

theorem Memory.wf_setCell {m : Memory} (a : Nat) (b : Byte) (h : m.wf = true) : (m.setCell a b).wf = true := by
  rw [Memory.wf_iff] at *
  exact ⟨KMap.canon_putD a b h.1, h.2⟩

theorem Memory.wf_setCells {m : Memory} (a : Nat) (bs : List Byte) (h : m.wf = true) :
    (m.setCells a bs).wf = true := by
  induction bs generalizing m a with
  | nil => exact h
  | cons b bs ih => exact ih (a + 1) (Memory.wf_setCell a b h)

theorem Memory.wf_empties {m : Memory} (e : KSet) (h : m.wf = true) (he : KMap.sorted e = true) :
    ({ m with empties := e } : Memory).wf = true := by
  rw [Memory.wf_iff] at *
  exact ⟨h.1, he, h.2.2⟩

theorem Memory.wf_poisons {m : Memory} (e : KSet) (h : m.wf = true) (he : KMap.sorted e = true) :
    ({ m with poisons := e } : Memory).wf = true := by
  rw [Memory.wf_iff] at *
  exact ⟨h.1, h.2.1, he, h.2.2.2⟩

theorem Memory.wf_tag {m : Memory} (a : Nat) (t : Byte) (h : m.wf = true) :
    ({ m with tags := KMap.putD m.tags a 0 t } : Memory).wf = true := by
  rw [Memory.wf_iff] at *
  exact ⟨h.1, h.2.1, h.2.2.1, KMap.canon_putD a t h.2.2.2⟩

theorem Memory.wf_scrub {m : Memory} (a n : Nat) (h : m.wf = true) : (m.scrub a n).wf = true := by
  rw [Memory.wf_iff] at *
  exact ⟨KMap.canon_filter _ h.1, KMap.sorted_filter _ h.2.1, KMap.sorted_filter _ h.2.2.1,
    KMap.canon_filter _ h.2.2.2⟩

theorem Memory.wf_markRaw {m : Memory} (a n u len : Nat) (h : m.wf = true) : (m.markRaw a n u len).wf = true := by
  unfold Memory.markRaw
  dsimp only
  split <;> exact h

theorem Memory.wf_openUnits {m : Memory} (w key : Nat) (h : m.wf = true) : (m.openUnits w key).wf = true := h

theorem Memory.wf_keepFrom {m : Memory} (base : Nat) (h : m.wf = true) : (m.keepFrom base).wf = true := by
  rw [Memory.wf_iff] at *
  exact ⟨KMap.canon_filter _ h.1, KMap.sorted_filter _ h.2.1, KMap.sorted_filter _ h.2.2.1, rfl⟩

/-- A fold of steps that keep keys rising keeps them rising. -/
theorem KMap.sorted_foldl {α β : Type} (f : KMap α → β → KMap α) (l : List β) {m : KMap α} (h : KMap.sorted m = true)
    (hf : ∀ m x, KMap.sorted m = true → KMap.sorted (f m x) = true) : KMap.sorted (l.foldl f m) = true := by
  induction l generalizing m with
  | nil => exact h
  | cons x l ih => exact ih (hf m x h)

theorem swapKeys_sorted {α : Type} {m : KMap α} (u a b n : Nat) (h : KMap.sorted m = true) :
    KMap.sorted (swapKeys m u a b n) = true := by
  unfold swapKeys
  refine KMap.sorted_foldl _ _ (KMap.sorted_filter _ h) fun m p hm => ?_
  split <;> exact KMap.sorted_put _ hm

/-! ## Operations of the package on memory -/

theorem State.wf_keepVersion {s : State} (w a : Nat) (h : s.mem.wf = true) : (s.keepVersion w a).wf = true := by
  unfold State.keepVersion
  split
  · exact Memory.wf_congr h rfl rfl rfl rfl
  · exact h

theorem State.wf_writeLine {s : State} (w a : Nat) (bs : List Byte) (h : s.mem.wf = true) :
    (s.writeLine w a bs).mem.wf = true := by
  unfold State.writeLine
  dsimp only
  split
  · exact Memory.wf_setCells a bs (State.wf_keepVersion w a h)
  · split
    · exact Memory.wf_congr (Memory.wf_setCells _ _ (State.wf_keepVersion w a h)) rfl rfl rfl rfl
    · split
      · exact Memory.wf_congr h rfl rfl rfl rfl
      · exact Memory.wf_congr (Memory.wf_setCells _ _ h) rfl rfl rfl rfl

theorem State.wf_writeBytesAux {s : State} (w a : Nat) (bs : List Byte) (n : Nat) (h : s.mem.wf = true) :
    (s.writeBytesAux w a bs n).mem.wf = true := by
  induction n generalizing s a bs with
  | zero => exact h
  | succ n ih =>
    unfold State.writeBytesAux
    split
    · exact h
    · exact ih _ _ (State.wf_writeLine _ _ _ h)

theorem State.wf_writeBytes {s : State} (w a : Nat) (bs : List Byte) (h : s.mem.wf = true) :
    (s.writeBytes w a bs).mem.wf = true := State.wf_writeBytesAux _ _ _ _ h

theorem State.wf_setFull {s : State} (a : Nat) (f : Bool) (h : s.mem.wf = true) : (s.setFull a f).mem.wf = true := by
  unfold State.setFull
  split
  · exact h
  · exact Memory.wf_empties _ h (KSet.sorted_set _ _ (Memory.wf_iff.mp h).2.1)

theorem State.wf_setPoison {s : State} (a : Nat) (p : Bool) (h : s.mem.wf = true) :
    (s.setPoison a p).mem.wf = true :=
  Memory.wf_poisons _ h (KSet.sorted_set _ _ (Memory.wf_iff.mp h).2.2.1)

theorem State.wf_poisonLine {s : State} (a : Nat) (h : s.mem.wf = true) : (s.poisonLine a).mem.wf = true :=
  Memory.wf_poisons _ h (KSet.sorted_setRange _ _ _ (Memory.wf_iff.mp h).2.2.1)

theorem State.wf_setTag {s : State} (a : Nat) (t : Byte) (h : s.mem.wf = true) : (s.setTag a t).mem.wf = true :=
  Memory.wf_tag _ t h

/-- A fold of steps that keep the form keeps it. -/
theorem State.wf_foldl {α : Type} (f : State → α → State) (l : List α) {s : State} (h : s.mem.wf = true)
    (hf : ∀ t x, t.mem.wf = true → (f t x).mem.wf = true) : (l.foldl f s).mem.wf = true := by
  induction l generalizing s with
  | nil => exact h
  | cons x l ih => exact ih (hf s x h)

theorem State.wf_checkChunk {s : State} (w a : Nat) (g : Nat × Nat × BitVec 256) (h : s.mem.wf = true) :
    (s.checkChunk w a g).mem.wf = true := by
  unfold State.checkChunk
  split
  · exact State.wf_foldl _ _ h fun t i ht => State.wf_poisonLine _ ht
  · exact h
  · exact h

theorem State.wf_writeBackPool {s : State} (l : Nat) (h : s.mem.wf = true) : (s.writeBackPool l).mem.wf = true := by
  unfold State.writeBackPool
  split <;> exact h

theorem State.wf_discardPool {s : State} (l : Nat) (h : s.mem.wf = true) : (s.discardPool l).mem.wf = true := by
  unfold State.discardPool
  dsimp only
  split
  · exact State.wf_writeBackPool l h
  · exact State.wf_writeLine _ _ _ (State.wf_writeBackPool l h)

theorem State.wf_poolRoom {s : State} (l : Nat) (h : s.mem.wf = true) : (s.poolRoom l).mem.wf = true := by
  unfold State.poolRoom
  dsimp only
  split
  · exact h
  · split
    · exact State.wf_discardPool _ h
    · exact h

theorem State.wf_fetchPool {s : State} (l : Nat) (h : s.mem.wf = true) : (s.fetchPool l).mem.wf = true := by
  unfold State.fetchPool
  split
  · exact State.wf_poolRoom _ h
  · exact h

theorem State.wf_dirtyPool {s : State} (l : Nat) (h : s.mem.wf = true) : (s.dirtyPool l).mem.wf = true := by
  unfold State.dirtyPool
  dsimp only
  split <;> exact State.wf_fetchPool _ h

theorem State.wf_checkRead {s : State} (w a n : Nat) (h : s.mem.wf = true) : (s.checkRead w a n).mem.wf = true := by
  unfold State.checkRead
  refine State.wf_foldl _ _ h fun t₀ l h₀ => ?_
  dsimp only
  have ht := State.wf_fetchPool l h₀
  generalize t₀.fetchPool l = t at ht
  split
  · exact ht
  · have h1 : (if t.tagBad (l / 64) = true then t.poisonLine l else t).mem.wf = true := by
      split
      · exact State.wf_poisonLine _ ht
      · exact ht
    generalize (if t.tagBad (l / 64) = true then t.poisonLine l else t) = u at h1
    split
    · split
      · exact State.wf_checkChunk _ _ _ h1
      · exact h1
    · exact h1

theorem State.wf_swapMem {s : State} (w : Nat) (q : Nat × Nat × Nat) (h : s.mem.wf = true) :
    (s.swapMem w q).mem.wf = true := by
  unfold State.swapMem
  split
  · exact h
  · have h1 := State.wf_writeBytes w q.2.1 (s.readBytes w q.1 q.2.2)
      (State.wf_writeBytes w q.1 (s.readBytes w q.2.1 q.2.2) h)
    dsimp only
    generalize (s.writeBytes w q.1 (s.readBytes w q.2.1 q.2.2)).writeBytes w q.2.1 (s.readBytes w q.1 q.2.2) = t at h1
    have h2 := Memory.wf_iff.mp h1
    exact Memory.wf_iff.mpr ⟨h2.1, swapKeys_sorted _ _ _ _ h2.2.1, swapKeys_sorted _ _ _ _ h2.2.2.1, h2.2.2.2⟩

theorem State.wf_keepKeys {s : State} (a : Nat) (h : s.mem.wf = true) : (s.keepKeys a).mem.wf = true := h

theorem State.wf_encRaws {s : State} (u key : Nat) (h : s.mem.wf = true) : (s.encRaws u key).mem.wf = true :=
  State.wf_foldl _ _ h fun _ _ ht => Memory.wf_setCells _ _ ht

theorem Memory.wf_foldl {α : Type} (f : Memory → α → Memory) (l : List α) {m : Memory} (h : m.wf = true)
    (hf : ∀ t x, t.wf = true → (f t x).wf = true) : (l.foldl f m).wf = true := by
  induction l generalizing m with
  | nil => exact h
  | cons x l ih => exact ih (hf m x h)

theorem State.wf_scrubBytes {s : State} (a n : Nat) (h : s.mem.wf = true) : (s.scrubBytes a n).mem.wf = true := by
  unfold State.scrubBytes
  dsimp only
  have h1 := Memory.wf_scrub a n h
  have h2 := Memory.wf_foldl (fun (m : Memory) (p : Nat × Prot) =>
    if !(overlaps a n (p.1 * 2 ^ 20) (2 ^ 20)) then m
    else if within (p.1 * 2 ^ 20) (2 ^ 20) a n then { m with prot := KMap.put m.prot p.1 { p.2 with layers := [], tail := none } }
    else if p.2.layers.isEmpty then m
    else m.markRaw a n (p.1 * 2 ^ 20) (2 ^ 20)) (s.mem.scrub a n).prot h1 (fun t p ht => by
      dsimp only
      split
      · exact ht
      · split
        · exact ht
        · split
          · exact ht
          · exact Memory.wf_markRaw _ _ _ _ ht)
  have h3 := Memory.wf_foldl (fun (m : Memory) (t : Nat × List Byte) =>
    { m with raws := KSet.set m.raws t.1 true, macs := KMap.put m.macs t.1 t.2 }) (s.tagsUnder a n) h2
    (fun t p ht => ht)
  split
  · refine State.wf_foldl _ _ h3 fun t g ht => ?_
    split
    · exact ht
    · exact Memory.wf_markRaw _ _ _ _ ht
  · exact h3

/-! ## Reading back -/

theorem Memory.cell_setCell {m : Memory} (h : m.wf = true) (a b : Nat) (x : Byte) :
    (m.setCell a x).cell b = if b = a then x else m.cell b :=
  KMap.lookD_putD (KMap.canon_iff.mp (Memory.wf_iff.mp h).1).1 a b 0 x

theorem Memory.cell_setCells_outside {m : Memory} (h : m.wf = true) (a b : Nat) (bs : List Byte)
    (ho : b < a ∨ a + bs.length ≤ b) : (m.setCells a bs).cell b = m.cell b := by
  induction bs generalizing m a with
  | nil => rfl
  | cons x bs ih =>
    simp only [List.length_cons] at ho
    have h1 := ih (m := m.setCell a x) (Memory.wf_setCell a x h) (a + 1) (by omega)
    rw [Memory.setCells, h1, Memory.cell_setCell h, if_neg (by omega)]

theorem Memory.cell_setCells_inside {m : Memory} (h : m.wf = true) (a i : Nat) (bs : List Byte) (hi : i < bs.length) :
    (m.setCells a bs).cell (a + i) = bs[i] := by
  induction bs generalizing m a i with
  | nil => simp at hi
  | cons x bs ih =>
    rw [Memory.setCells]
    cases i with
    | zero =>
      rw [Memory.cell_setCells_outside (Memory.wf_setCell a x h) _ _ _ (by omega), Memory.cell_setCell h]
      simp
    | succ i =>
      have h1 := ih (Memory.wf_setCell a x h) (a + 1) i (by simpa using hi)
      rw [show a + (i + 1) = a + 1 + i by omega, h1]
      rfl

theorem State.isFull_setFull {s : State} (h : s.mem.wf = true) (a b : Nat) (f : Bool) (hu : s.untagged a = false) :
    (s.setFull a f).isFull b = if b / 8 = a / 8 then (s.untagged b || f) else s.isFull b := by
  have hs : KMap.sorted s.mem.empties = true := (Memory.wf_iff.mp h).2.1
  have hn : (s.setFull a f).untagged b = s.untagged b := by
    unfold State.setFull
    split <;> rfl
  unfold State.isFull
  rw [hn]
  simp only [State.setFull, hu, Bool.false_eq_true, if_false, KSet.has_set hs]
  split <;> simp

theorem State.isPoisoned_setPoison {s : State} (h : s.mem.wf = true) (a b : Nat) (p : Bool) :
    (s.setPoison a p).isPoisoned b = if b / 8 = a / 8 then p else s.isPoisoned b := by
  have hs : KMap.sorted s.mem.poisons = true := (Memory.wf_iff.mp h).2.2.1
  simp only [State.isPoisoned, State.setPoison, KSet.has_set hs]

end Sys2Proof.Machine
end

