-- ==== Sys2Proof/Tests/Slice0.lean ====
section
/-! SUPPORT. Tests: decoding words written out from the spec's encodings, ill-formed terms that WellFormed refuses,
a witness for the hypotheses of each statement, and single steps whose results come from the spec's worked examples
or are worked out by hand from its rules. -/

namespace Sys2Proof.Tests
open Sys2Proof Sys2Proof.Machine
set_option maxRecDepth 20000
set_option Elab.async false
/-- Guard and hints all zero. -/
def z : Ctl := { neg := false, pred := 0, stall := 0, yield := false, reuse := false, loc := 0 }
/-- The decoder reads the instruction from the word. -/
def decodes (p : Nat × Instr) : Bool := decodeTableWord 96 p.1 == some p.2
/-- The decoder refuses the word under the name. -/
def refuses (p : Nat × DecodeError) : Bool :=
  match decodeBytes (leBytes 12 p.1) with
  | .error e => e == p.2
  | .ok _ => false
/-- Every condition of the list holds. -/
def allTrue (l : List Bool) : Bool := l.all id

/-- Words of the tables of chapter 02, family control: each decodes to the instruction it stands for. -/
theorem test_decode_control : ([
    (0x000000000000000000000000, .nop z),
    (0x0100007FFFFE000000000000, .bra z 0x3FFFFE),
    (0x020000000000047000000000, .bri z ⟨7, true⟩),
    (0x030000001000400005000000, .call z 1 (.rel 5)),
    (0x030100001000009000000000, .call z 1 (.ind ⟨9, false⟩)),
    (0x040000000000001000000000, .ret z ⟨1, false⟩),
    (0x0500000430007FFFFC000000, .loop z ⟨3, true⟩ 0x3FFFFC),
    (0x060000002000000000000000, .suspend z 2 none),
    (0x060000002000840010000000, .suspend z 2 (some ⟨4, .own, 16⟩)),
    (0x070000000000000000000000, .yield z),
    (0x080000001000400008003000, .spawn z 1 (.i 8) ⟨3, false⟩),
    (0x090000000000000000000000, .done z),
    (0x0A000040001F000000000000, .trap z 31),
    (0x0B0000000000000000000000, .tfence z none),
    (0x0B00000000004001FF000000, .tfence z (some 0x1FF)),
    (0x0C0000005000006000000000, .tret z 5 ⟨6, false⟩),
    (0x0D000000000009F000000000, .waitr z (.v 31)),
    (0x0E0000003000400002000000, .brf z true (.x 3) 2),
    (0x0E0100107000400002000000, .brf z false (.p 7) 2)] : List (Nat × Instr)).all decodes = true := by decide

/-- Words of the tables of chapter 02, family integer: each decodes to the instruction it stands for. -/
theorem test_decode_integer : ([
    (0x1001000030000010007FFFFB, .add z .w32 .sat 3 (.x ⟨1, false⟩) (.i 0x3FFFFB)),
    (0x110A00003000400007002000, .sub z .w64 .usat 3 (.i 7) (.x ⟨2, false⟩)),
    (0x1200000030000010007FFFFF, .mul z .w32 3 (.x ⟨1, false⟩) (.i 0x3FFFFF)),
    (0x1600000030000010007FFFFF, .and z .w32 3 (.x ⟨1, false⟩) (.i 0x3FFFFF)),
    (0x1708000030000010007FFFFF, .or z .w64 3 (.x ⟨1, false⟩) (.i 0x3FFFFF)),
    (0x1800000030000010007FFFFF, .xor z .w32 3 (.x ⟨1, false⟩) (.i 0x3FFFFF)),
    (0x1908000030000010007FFFFF, .andn z .w64 3 (.x ⟨1, false⟩) (.i 0x3FFFFF)),
    (0x1A00000030000010007FFFFF, .shl z .w32 3 (.x ⟨1, false⟩) (.i 0x3FFFFF)),
    (0x1B08000030000010007FFFFF, .shr z .w64 3 (.x ⟨1, false⟩) (.i 0x3FFFFF)),
    (0x1C00000030000010007FFFFF, .sar z .w32 3 (.x ⟨1, false⟩) (.i 0x3FFFFF)),
    (0x1D08000030000010007FFFFF, .rol z .w64 3 (.x ⟨1, false⟩) (.i 0x3FFFFF)),
    (0x2708000030000010007FFFFF, .addc z .w64 3 (.x ⟨1, false⟩) (.i 0x3FFFFF)),
    (0x130900003000041000002000, .mulh z .w64 true 3 (.x ⟨1, true⟩) (.x ⟨2, false⟩)),
    (0x140100003000041000002000, .div z .w32 true 3 (.x ⟨1, true⟩) (.x ⟨2, false⟩)),
    (0x150900003000041000002000, .rem z .w64 true 3 (.x ⟨1, true⟩) (.x ⟨2, false⟩)),
    (0x1E0000003000041000002000, .min z .w32 false 3 (.x ⟨1, true⟩) (.x ⟨2, false⟩)),
    (0x1F0900003000041000002000, .max z .w64 true 3 (.x ⟨1, true⟩) (.x ⟨2, false⟩))] : List (Nat × Instr)).all decodes = true := by decide

/-- Words of the tables of chapter 02, family logic: each decodes to the instruction it stands for. -/
theorem test_decode_logic : ([
    (0x200800004000005000000000, .clz z .w64 4 (.x ⟨5, false⟩)),
    (0x210000004000005000000000, .popc z .w32 4 (.x ⟨5, false⟩)),
    (0x220800004000005000400105, .bext z true 4 (.x ⟨5, false⟩) (.i 0x105)),
    (0x230800044000005000400105, .bins z .w64 ⟨4, true⟩ (.x ⟨5, false⟩) (.i 0x105)),
    (0x240000004000005000006000, .sel z ⟨4, false⟩ (.x ⟨5, false⟩) (.x ⟨6, false⟩)),
    (0x250000004000400003000000, .mov z (.x 4 (.i 3))),
    (0x250000104000145000000000, .mov z (.p 4 ⟨5, true⟩)),
    (0x2600000040008123456789AB, .movi z 4 0x8123456789AB),
    (0x280900004000005000000000, .abs z .w64 true 4 (.x ⟨5, false⟩)),
    (0x290000004000005000000000, .bswap z .w32 4 (.x ⟨5, false⟩)),
    (0x2A0000004000854008400003, .lea z 4 ⟨5, .lin, 8⟩ 3),
    (0x2B0900101000002000400000, .cmp z .w64 .ne 1 (.x ⟨2, false⟩) (.i 0)),
    (0x2C0E00101000102000143000, .plog z 14 1 ⟨2, false⟩ ⟨3, true⟩),
    (0x2D0000004000000000000000, .pmov z (.tox 4)),
    (0x2D0100000000004000000000, .pmov z (.fromx (.x ⟨4, false⟩))),
    (0x2E0000004000198000000000, .sread z 4 .cyc),
    (0x2F00001A1000400040000000, .swrite z .feRlim (.i 64))] : List (Nat × Instr)).all decodes = true := by decide

/-- Words of the tables of chapter 02, family float: each decodes to the instruction it stands for. -/
theorem test_decode_float : ([
    (0x300400003000001000042000, .fadd z .f32 .rne 3 ⟨1, false⟩ ⟨2, true⟩),
    (0x310100003000001000042000, .fsub z .f64 .rtz 3 ⟨1, false⟩ ⟨2, true⟩),
    (0x320A00003000001000042000, .fmul z .f16 .rup 3 ⟨1, false⟩ ⟨2, true⟩),
    (0x330400003000001000002000, .ffma z .f32 .rne ⟨3, false⟩ ⟨1, false⟩ ⟨2, false⟩),
    (0x340F00003000001000042000, .fdiv z .bf16 .rdn 3 ⟨1, false⟩ ⟨2, true⟩),
    (0x350000003000001000000000, .fsqrt z .f64 .rne 3 ⟨1, false⟩),
    (0x360800003000001000042000, .fmin z .f16 3 ⟨1, false⟩ ⟨2, true⟩),
    (0x370C00003000001000042000, .fmax z .bf16 3 ⟨1, false⟩ ⟨2, true⟩),
    (0x380700103000001000042000, .fcmp z .f32 .un 3 ⟨1, false⟩ ⟨2, true⟩),
    (0x390C00005000004000400069, .fcvt z true .sr 5 ⟨4, false⟩ .f32 .e4m3),
    (0x3A0400003000001000000000, .fclass z .f32 3 ⟨1, false⟩),
    (0x3B0500003000001000000000, .frnd z .f32 .rtz 3 ⟨1, false⟩)] : List (Nat × Instr)).all decodes = true := by decide

/-- Words of the tables of chapter 02, family memory: each decodes to the instruction it stands for. -/
theorem test_decode_memory : ([
    (0x400C0000800087C000000000, .ld z .b64 .plain 8 ⟨7, .global, 0⟩),
    (0x41020086FFFF003000000000, .st z .b8 .wefill ⟨6, .global, 0x3FFF⟩ (.x ⟨3, false⟩)),
    (0x42020008300086FFFF000000, .ldv z .consume 3 ⟨6, .global, 0x3FFF⟩),
    (0x43030086FFFF083000000000, .stv z .empty ⟨6, .global, 0x3FFF⟩ ⟨3, false⟩),
    (0x44010086FFFF000000000000, .feset z true ⟨6, .global, 0x3FFF⟩),
    (0x45000000300086FFFF000000, .feget z 3 ⟨6, .global, 0x3FFF⟩),
    (0x46010086FFFF000000000000, .pref z true ⟨6, .global, 0x3FFF⟩),
    (0x47000086FFFF000000000000, .wbl z ⟨6, .global, 0x3FFF⟩),
    (0x48010086FFFF000000000000, .invl z true ⟨6, .global, 0x3FFF⟩),
    (0x490700007000000000000000, .fence z .job true 7),
    (0x4A000000500088C000401000, .publish z 5 ⟨8, .global, 0⟩ (.i 0x1000)),
    (0x4B000000500088C000009000, .observe z 5 ⟨8, .global, 0⟩ (.x ⟨9, false⟩))] : List (Nat × Instr)).all decodes = true := by decide

/-- Words of the tables of chapter 02, family atomic: each decodes to the instruction it stands for. -/
theorem test_decode_atomic : ([
    (0x50000000500086FFFF400001, .aadd z .w32 5 ⟨6, .global, 0x3FFF⟩ (.i 1)),
    (0x51080000500086FFFF400001, .aand z .w64 5 ⟨6, .global, 0x3FFF⟩ (.i 1)),
    (0x52000000500086FFFF400001, .aor z .w32 5 ⟨6, .global, 0x3FFF⟩ (.i 1)),
    (0x53080000500086FFFF400001, .axor z .w64 5 ⟨6, .global, 0x3FFF⟩ (.i 1)),
    (0x56000000500086FFFF400001, .aswp z .w32 5 ⟨6, .global, 0x3FFF⟩ (.i 1)),
    (0x54090000500086FFFF400001, .amin z .w64 true 5 ⟨6, .global, 0x3FFF⟩ (.i 1)),
    (0x55000000500086FFFF400001, .amax z .w32 false 5 ⟨6, .global, 0x3FFF⟩ (.i 1)),
    (0x570000007000844000009000, .acas z .w32 ⟨7, false⟩ ⟨4, .lin, 0⟩ (.x ⟨9, false⟩)),
    (0x58000000500086FFFF001000, .afadd z 5 ⟨6, .global, 0x3FFF⟩ ⟨1, false⟩),
    (0x590E0086FFFF001000000000, .red z .minu .w64 ⟨6, .global, 0x3FFF⟩ (.x ⟨1, false⟩)),
    (0x5A080000900083C008007000, .waita z .w64 ⟨9, false⟩ ⟨3, .global, 8⟩ (.x ⟨7, false⟩)),
    (0x5B000000500086FFFF400001, .wakea z 5 ⟨6, .global, 0x3FFF⟩ (.i 1))] : List (Nat × Instr)).all decodes = true := by decide

/-- Words of the tables of chapter 02, family sync: each decodes to the instruction it stands for. -/
theorem test_decode_sync : ([
    (0x600000005000000000000000, .phnew z 5),
    (0x610200005000004000000000, .phreg z .sw 5 ⟨4, false⟩),
    (0x620000005000004000000000, .phdrop z 5 ⟨4, false⟩),
    (0x630000005000004000000000, .phsig z 5 ⟨4, false⟩),
    (0x640000005000004000000000, .phwait z 5 ⟨4, false⟩),
    (0x650000005000004000000000, .phnext z 5 ⟨4, false⟩),
    (0x660000005000004000000000, .phfree z 5 ⟨4, false⟩),
    (0x670200000000000000000000, .bwarr z .col),
    (0x680100006000000000000000, .bwwait z .row 6),
    (0x690100007000400003000000, .nbarr z .pkg 7 (.i 3))] : List (Nat × Instr)).all decodes = true := by decide

/-- Words of the tables of chapter 02, family messages: each decodes to the instruction it stands for. -/
theorem test_decode_messages : ([
    (0x70000000900000A00000B000, .send z 9 ⟨10, false⟩ (.reg (.x ⟨11, false⟩))),
    (0x71010000900000A0008B0000, .sendh z 9 ⟨10, false⟩ (.line ⟨11, .own, 0⟩)),
    (0x720100000000400003000000, .chmask z true (.i 3)),
    (0x730000000000400003004000, .chpri z (.i 3) (.x ⟨4, false⟩)),
    (0x74000000500086C000000000, .task z 5 ⟨6, .global, 0⟩),
    (0x75000000500086FFFF000000, .launch z 5 ⟨6, .global, 0x3FFF⟩)] : List (Nat × Instr)).all decodes = true := by decide

/-- Words of the tables of chapter 02, family vector first: each decodes to the instruction it stands for. -/
theorem test_decode_vector_first : ([
    (0x8000000810000820000C3000, .vadd z .i64 1 ⟨2, false⟩ (.v ⟨3, true⟩)),
    (0x8101000810000820000C3000, .vsub z .i32 1 ⟨2, false⟩ (.v ⟨3, true⟩)),
    (0x8202000810000820000C3000, .vmul z .i16 1 ⟨2, false⟩ (.v ⟨3, true⟩)),
    (0x8403000810000820000C3000, .vmin z .i8 1 ⟨2, false⟩ (.v ⟨3, true⟩)),
    (0x8504000810000820000C3000, .vmax z .u8 1 ⟨2, false⟩ (.v ⟨3, true⟩)),
    (0x8705000810000820000C3000, .vcmp z .f64 1 ⟨2, false⟩ (.v ⟨3, true⟩)),
    (0x890000081000082000003000, .vand z .i64 1 ⟨2, false⟩ (.x ⟨3, false⟩)),
    (0x8A01000810000820007FFFFF, .vor z .i32 1 ⟨2, false⟩ (.i 0x3FFFFF)),
    (0x8B0200081000082000003000, .vxor z .i16 1 ⟨2, false⟩ (.x ⟨3, false⟩)),
    (0x8C03000810000820007FFFFF, .vshl z .i8 1 ⟨2, false⟩ (.i 0x3FFFFF)),
    (0x8D0400081000082000003000, .vshr z .u8 1 ⟨2, false⟩ (.x ⟨3, false⟩)),
    (0x830600084000081000082000, .vfma z .f32 ⟨4, false⟩ ⟨1, false⟩ (.v ⟨2, false⟩)),
    (0x860800081000082000000000, .vabs z .bf16 1 ⟨2, false⟩),
    (0x8807000C1000082000083000, .vsel z .f16 ⟨1, true⟩ ⟨2, false⟩ ⟨3, false⟩),
    (0x8E0900081000082000400146, .vcvt z .e4m3 ⟨1, false⟩ ⟨2, false⟩ 0x146),
    (0x8F0600081000082000000000, .vrcpa z 1 ⟨2, false⟩)] : List (Nat × Instr)).all decodes = true := by decide

/-- Words of the tables of chapter 02, family vector second: each decodes to the instruction it stands for. -/
theorem test_decode_vector_second : ([
    (0x900600081000082000000000, .vrsqa z 1 ⟨2, false⟩),
    (0x910600081000082000000000, .vexp2a z 1 ⟨2, false⟩),
    (0x920600081000082000000000, .vlog2a z 1 ⟨2, false⟩),
    (0x930100081000082000400002, .vred z .i32 1 ⟨2, false⟩ 2),
    (0x940600081000082000400001, .vscan z .f32 1 ⟨2, false⟩ 1),
    (0x950A00081000082000083000, .vperm z .e5m2 1 ⟨2, false⟩ ⟨3, false⟩),
    (0x960000081000082000400003, .vbcast z .i64 1 ⟨2, false⟩ (.i 3)),
    (0x970600081000002000000000, .vsplat z .f32 1 (.x ⟨2, false⟩)),
    (0x980400001000082000003000, .vextr z .u8 1 ⟨2, false⟩ (.x ⟨3, false⟩)),
    (0x990500081000082000000000, .vamax z .f64 1 ⟨2, false⟩),
    (0x9A0900086000082000400000, .vqnt z .e4m3 ⟨6, false⟩ ⟨2, false⟩ 0),
    (0x9B0B0008100008200040000F, .vdqnt z .t2 1 ⟨2, false⟩ 15),
    (0x9C0300081000082000083000, .vdot z .i8 ⟨1, false⟩ ⟨2, false⟩ ⟨3, false⟩),
    (0x9D0200081000082000000000, .vmov z .i16 1 ⟨2, false⟩)] : List (Nat × Instr)).all decodes = true := by decide

/-- Words of the tables of chapter 02, family matrix: each decodes to the instruction it stands for. -/
theorem test_decode_matrix : ([
    (0xA00000004000880000009000, .mlda z 4 ⟨8, .own, 0⟩ ⟨9, false⟩),
    (0xA10000004000883FFF009000, .mldb z 4 ⟨8, .own, 0x3FFF⟩ ⟨9, false⟩),
    (0xA20000005000400001000000, .mma z 5 (.i 1)),
    (0xA30000005000000000000000, .mring z 5),
    (0xA4000000A000400002000000, .mzero z false 10 (.i 2)),
    (0xA50000005000000000000000, .mclose z 5),
    (0xA603000060008A000000B000, .msta z .i8 6 ⟨10, .own, 0⟩ ⟨11, false⟩),
    (0xA70000005000000000000000, .mstat z 5),
    (0xA80000005000006000000000, .mrcfg z 5 (.x ⟨6, false⟩))] : List (Nat × Instr)).all decodes = true := by decide

/-- Words of the tables of chapter 02, family copy and views: each decodes to the instruction it stands for. -/
theorem test_decode_copy_and_views : ([
    (0xB0000000500088C000009000, .cpy z 5 ⟨8, .global, 0⟩ (.x ⟨9, false⟩)),
    (0xB100000060008A00008B0008, .cpyi z ⟨6, false⟩ ⟨10, .own, 0⟩ ⟨11, .own, 8⟩),
    (0xB20000007000400002000000, .cpstg z 7 (.i 2)),
    (0xB30000007000008000000000, .cpabt z 7 (.x ⟨8, false⟩)),
    (0xC0000000500088C00089C000, .vwreg z 5 ⟨8, .global, 0⟩ ⟨9, .global, 0⟩),
    (0xC10000007000008000000000, .vwdrop z 7 ⟨8, false⟩),
    (0xC2000008400086C000000000, .vwld z .wait 4 ⟨6, .global, 0⟩),
    (0xC2010008500086C001102000, .vwld z (.staleok 2) 5 ⟨6, .global, 1⟩),
    (0xC2020008400086FFFF000000, .vwld z .trap 4 ⟨6, .global, 0x3FFF⟩),
    (0xC30000007000008000000000, .vwsync z 7 ⟨8, false⟩),
    (0xC4000000700086FFFF400002, .vwgen z 7 ⟨6, .global, 0x3FFF⟩ .status),
    (0xC500000070008AC000000000, .quant z 7 ⟨10, .global, 0⟩),
    (0xC60000007000008000000000, .vwclr z 7 ⟨8, false⟩)] : List (Nat × Instr)).all decodes = true := by decide

/-- Words of the tables of chapter 02, family spaces and fabric: each decodes to the instruction it stands for. -/
theorem test_decode_spaces_and_fabric : ([
    (0xD0000000500088C000009000, .map z 5 ⟨8, .global, 0⟩ (.x ⟨9, false⟩)),
    (0xD1000000400088C000009000, .grant z 4 ⟨8, .global, 0⟩ (.x ⟨9, false⟩)),
    (0xD20000005000006000400002, .unmap z 5 ⟨6, false⟩ (.i 2)),
    (0xD30000005000006000007000, .probe z 5 ⟨6, false⟩ (.x ⟨7, false⟩)),
    (0xD40000005000006000007000, .movepg z 5 ⟨6, false⟩ ⟨7, false⟩),
    (0xD50000005000400001000000, .space z 5 (.i 1)),
    (0xD60000005000006000000000, .retiresp z 5 (.x ⟨6, false⟩)),
    (0xE0000000500088C000000000, .bsend z 5 ⟨8, .global, 0⟩),
    (0xE1030000600089C000000000, .bpost z 3 6 ⟨9, .global, 0⟩),
    (0xE2000000500086FFFF000000, .bcancel z 5 ⟨6, .global, 0x3FFF⟩),
    (0xE3000000500086FFFF000000, .bstat z 5 ⟨6, .global, 0x3FFF⟩),
    (0xF0000000500088C000009000, .evid z 5 ⟨8, .global, 0⟩ ⟨9, false⟩),
    (0xF10000000000000000000000, .dbgbrk z),
    (0xFFFFFFFFFFFFFFFFFFFFFFFF, .ill 0xFFFFFFFFFFFFFFFFFFFFFF)] : List (Nat × Instr)).all decodes = true := by decide

/-- Words of the tables of chapter 02, family guard and hints: each decodes to the instruction it stands for. -/
theorem test_decode_guard_and_hints : ([
    (0x40BE23005000848002000000, .ld ⟨true, 3, 2, false, false, 3⟩ .b64 .consume 5 ⟨4, .ilv, 2⟩),
    (0x410A02874003003000000000, .st ⟨false, 0, 0, false, false, 2⟩ .b32 .wefill ⟨7, .lin, 3⟩ (.x ⟨3, false⟩)),
    (0x01B0007FFFFE000000000000, .bra ⟨true, 3, 0, false, false, 0⟩ 0x3FFFFE)] : List (Nat × Instr)).all decodes = true := by decide

/-- Illegal words (R35, R36, R39, R41 and the operand tables), each refused under its name. -/
theorem test_decode_illegal : ([
    (0x0F0000000000000000000000, .opcode),
    (0x3C0000000000000000000000, .opcode),
    (0xFE0000000000000000000000, .opcode),
    (0x100300003000001000002000, .function),
    (0x680000003000000000000000, .function),
    (0x100000400003001000002000, .form),
    (0x100000C00000001000002000, .form),
    (0x100000003000081000002000, .file),
    (0x100000003000200000002000, .file),
    (0x9D02000A0000082000000000, .index),
    (0x250000108000101000000000, .index),
    (0x2E000000300018C000000000, .index),
    (0x000000000001000000000000, .res0),
    (0x200800003001001000000000, .res0),
    (0x200800043000001000000000, .empty),
    (0x000001000000000000000000, .locality),
    (0x50080300500086FFFF400001, .locality),
    (0x830000081000082000083000, .type),
    (0xA60400006000840010001000, .type),
    (0x800600081000082000400001, .floatImm),
    (0x9A0900081000082000400000, .odd),
    (0xB0000000500086FFFF400001, .control),
    (0xE00000005000840010000000, .mode),
    (0x2F0000198000001000000000, .readOnly),
    (0x71000000900003F000001000, .operand),
    (0x0A0000400020000000000000, .operand)] : List (Nat × DecodeError)).all refuses = true := by decide

theorem test_wf_refuses_locality : Instr.check (.nop { z with loc := 1 }) = some .locality := by decide
theorem test_wf_refuses_type : Instr.check (.vfma z .i32 ⟨1, false⟩ ⟨2, false⟩ (.v ⟨3, false⟩)) = some .type := by decide
theorem test_wf_refuses_floatImm : Instr.check (.vadd z .f32 1 ⟨2, false⟩ (.i 1)) = some .floatImm := by decide
theorem test_wf_refuses_odd : Instr.check (.vqnt z .i8 ⟨1, false⟩ ⟨2, false⟩ 0) = some .odd := by decide
theorem test_wf_refuses_control : Instr.check (.cpy z 1 ⟨2, .own, 0⟩ (.i 1)) = some .control := by decide
theorem test_wf_refuses_mode : Instr.check (.mlda z 1 ⟨2, .global, 0⟩ ⟨3, false⟩) = some .mode := by decide
theorem test_wf_refuses_readOnly : Instr.check (.swrite z .cyc (.i 0)) = some .readOnly := by decide
theorem test_wf_refuses_operand : Instr.check (.sendh z 1 ⟨63, false⟩ (.reg (.i 0))) = some .operand := by decide
theorem test_wf_accepts : Instr.wf (.vadd z .i32 1 ⟨2, false⟩ (.i 1)) = true := by decide

/-! ## Small states -/

/-- A free continuation in a slot, its PC in the first vault: x1 = 5, x2 = -1, x4 and x5 in vaults of dies 0 and 1, x6 in
another package, x7 unmapped, x8 = a page of the vault, x9 = the most negative number, x10 = a register page. -/
def ctxOn (n : Fin 8) : Context :=
  { placedCtx 0 0 n 0x2000000000 with
    x := [(1, 5), (2, 0xFFFFFFFFFFFFFFFF), (4, 0x2000100000), (5, 0x2020000000), (6, 0x800200000000), (7, 0x100),
      (8, 0x2000110000), (9, 0x8000000000000000), (10, 0x3000100000)] }

/-- The package with that context as handle 1, issuing. -/
def stOf (n : Fin 8) (c : Context) : State :=
  { (State.reset.modCore 0 0 fun k => { k with slots := [(n.val, 1)] }) with ctxs := [(1, c)], issuing := 1, nextUid := 2 }

def cA : Context := ctxOn 0
def sA : State := stOf 0 cA

/-- `State.ready` as a Bool. -/
def rdy (s : State) (c : Context) (ctl : Ctl) (rd : List Src) (wr : List AnyReg) : Bool :=
  s.ctx? s.issuing == some c && c.mayIssue ctl rd wr

/-- Where `rdy` answers true, the hypothesis of the statements holds. -/
theorem ready_of_rdy {s c ctl rd wr} (h : rdy s c ctl rd wr = true) : s.ready c ctl rd wr := by
  simp only [rdy, Bool.and_eq_true, beq_iff_eq] at h
  exact h

def mv (s : State) : State := s.movedOn s.issuing
def isErr (r : Except (Nat × Nat) Acc) : Bool := match r with
  | .error _ => true
  | .ok _ => false
def okWith (r : Except (Nat × Nat) Acc) (f : Acc → Bool) : Bool := match r with
  | .error _ => false
  | .ok a => f a
def blockWith (r : Block) (f : State → List Byte → Bool) : Bool := match r with
  | .bytes u bs => f u bs
  | _ => false

def xr (n : Fin 64) : XSrc := ⟨n, false⟩
def vr (n : Fin 32) : VSrc := ⟨n, false⟩
def pr (n : Fin 8) : PSrc := ⟨n, false⟩
/-- A global operand at a register. -/
def at_ (b : Fin 64) : MemOp := ⟨b, .global, 0⟩

/-! ## Witnesses: integer instructions, special registers, control -/

theorem witness_integerTable : allTrue [
    rdy sA cA z (xiSrcs (.x (xr 1)) ++ xiSrcs (.x (xr 2))) [.x 3], rdy sA cA z (xiSrcs (.x (xr 0))) [.x 3],
    (intArgs .w64 5 0).ua / 2 ^ (64 - 61) == 0 && (intArgs .w64 5 0).ua / 2 ^ (64 - 61 - 1) == 1,
    (intArgs .w32 0 0).ua / 2 ^ (32 - 32) == 0] = true := by decide +kernel

theorem witness_divide : allTrue [
    rdy sA cA z (xiSrcs (.x (xr 1)) ++ xiSrcs (.i 0)) [.x 3], (intArgs .w64 5 0).ub == 0, (intArgs .w64 5 2).ub != 0,
    let g := intArgs .w64 0x8000000000000000 0xFFFFFFFFFFFFFFFF
    g.sa == minS g.w && g.sb == -1,
    (intArgs .w32 0xFFFFFFF9 2).ub != 0 && (intArgs .w32 0xFFFFFFF9 2).sa == -7] = true := by decide +kernel

theorem witness_bitFields_moves : allTrue [
    rdy sA cA z (xiSrcs (.x (xr 1)) ++ xiSrcs (.i 0x105)) [.x 3],
    rdy sA cA z (xSrc (xr 3) :: xiSrcs (.x (xr 1)) ++ xiSrcs (.i 0x105)) [.x 3], rdy sA cA z (xiSrcs (.i 1)) [.x 0],
    rdy sA cA z [pSrc (pr 2)] [.p 3], rdy sA cA z [] [.x 3], rdy sA cA z [memSrc (at_ 4)] [.x 3]] = true := by decide +kernel

theorem witness_comparisons : allTrue [
    rdy sA cA z (xiSrcs (.x (xr 1)) ++ xiSrcs (.x (xr 2))) [.p 0], rdy sA cA z [pSrc (pr 0), pSrc (pr 7)] [.p 3],
    rdy sA cA z (preds17.map fun r => ⟨.p r, false⟩) [.x 3], rdy sA cA z (xiSrcs (.x (xr 2))) (preds17.map AnyReg.p)] = true := by decide +kernel

/-- A running launch on die 0, cluster 0. -/
def lA : Launch :=
  { stage := .running, world := 1, lworld := 1, region := 1, space := 0, lspace := 0, entry := 0x2000000000, done := 0,
    items := 1, made := 0, seed := 9, sched := none, deps := [], dies := 1, clusters := 1, cores := 0xFFFF, ordered := false,
    compat := false, started := 0, broken := false, htab := [], htabAt := 0, key := 0, sink := .nowhere, order := 0,
    stipple := [], requests := [] }
def sL : State := { sA with launches := [(1, lA)] }
def s6 : State := stOf 6 (ctxOn 6)
def s7 : State := stOf 7 (ctxOn 7)

theorem witness_specials : allTrue [
    rdy sL cA z [] [.x 3], sL.launch? 1 == some lA, (lA.lcoreOf 0 0).isSome, cA.slot == some 0,
    rdy sA cA z (xiSrcs (.i 32)) [], (xiVal cA (.i 32)).getLsbD 5, !(xiVal cA (.i 0)).getLsbD 5, cA.slot != some 7,
    rdy s7 (ctxOn 7) z (xiSrcs (.i 0)) []] = true := by decide +kernel

theorem witness_branches :
    let bad := relTarget cA.pc 0x3FFFFF
    allTrue [rdy sA cA z [] [], (sA.arrive cA (relTarget cA.pc 4)).isNone, (sA.arrive cA bad).isSome,
      rdy sA cA z [xSrc (xr 4)] [], (sA.arrive cA (xVal cA (xr 4))).isNone, (sA.arrive cA (xVal cA (xr 1))).isSome,
      rdy sA cA z (callSrcs (.ind (xr 4))) [.x 3], (sA.arrive cA (callPc cA (.ind (xr 4)))).isNone,
      (sA.arrive cA (callPc cA (.rel 0x3FFFFF))).isSome, rdy sA cA z [xSrc (xr 1)] [.x 1],
      xVal cA (xr 1) - 1 != 0, cA.isFull (.x 3), !((cA.pend (.x 3)).isFull (.x 3))] = true := by decide +kernel

theorem witness_loop_ends :
    let c := { cA with x := [(1, 1)] }
    (rdy (stOf 0 c) c z [xSrc (xr 1)] [.x 1] && xVal c (xr 1) - 1 == 0) = true := by decide +kernel

/-! ## Witnesses: contexts, traps, floating point, memory -/

/-- A region with limits of 4 and an arena of 4 records. -/
def gA : Region :=
  { rcb := 0x2000200000, chain := [(0x2000200000, 0x1FFF)], space := 0, wgt := 1, pri := 0, fdie := 0, fcore := 0,
    restartPc := 0, restartImg := 0, save := 0, arena := 0x2000300000, arenaN := 4, report := 0 }
/-- A state with that region and its limits in memory. -/
def withRegion (s : State) : State :=
  { s with regions := [(1, gA)], mem := s.mem.setCells (gA.rcb + 40) [4, 0, 4, 0, 4, 0, 4, 0] }
/-- A pinned handler. -/
def cP : Context := { cA with kind := .pinned, record := 0 }
def sP : State := stOf 0 cP
def sPR : State := withRegion sP
/-- The cluster of the context pre-empts its region. -/
def pre (st : PreStage) (ch : Option (Fin 3)) : Preempt :=
  { region := 1, owners := [.controller], stage := st, deadline := 100, remain := 80, choice := ch, nDiscard := 0, discards := false, segs := [] }
def withPre (s : State) (p : Preempt) : State := s.modCluster 0 0 fun k => { k with pre := [p] }
def sPre : State := withPre sA (pre (.window 10) none)
/-- No migration holds up an access of the issuing instruction. -/
def quiet (s : State) (acc : Acc) : Bool := ((mv s).pauser 1 .issue ((mv s).places acc)).isNone
def isJob (h : Home) : Bool := match h with
  | .job _ => true
  | _ => false
/-- The word at x4 is empty. -/
def emptyAt (s : State) (a : Nat) : State := s.setFull a false

theorem witness_suspend :
    let op := at_ 4
    let go := fun (s : State) (full : Bool) => rdy s cA z [memSrc op] [.x 3] &&
      (match (mv s).suspendable 1 cA with
        | some t => okWith ((mv s).resolve cA op.mode (formAddr cA op 8) 8 .rd false .data) fun acc =>
          let w := partAt acc.parts 0 / 8 * 8
          !(isJob ((mv s).homeOf (partAt acc.parts 0))) && !((mv s).untagged w) && !(cA.loadsHeld) && (mv s).lockReady cA acc
            && quiet s acc && !((t.giveCxid 1 3).ctxs.isEmpty)
            && (match (((mv s).unpause 1 .issue).l1Home (some (coreKey 0 0)) w false).suspendable 1 cA with
              | some k => (k.giveCxid 1 3).isFull w == full && (k.giveCxid 1 3).listRoom w
              | none => false)
        | none => false)
    allTrue [inSlot6 cA == false, rdy sA cA z [] [.x 3], ((mv sA).suspendable 1 cA).isSome, rdy sP cP z [] [.x 3],
      ((mv sP).suspendable 1 cP).isNone, ((mv sPR).suspendable 1 cP).isSome, go sA true,
      go (emptyAt sA 0x2000100000) false] = true := by decide +kernel

theorem witness_yield_waitr :
    let c := cA.pend (.x 3)
    let p := cP.pend (.x 3)
    allTrue [rdy sP cP z [] [], cP.isPinned, !cA.isPinned, !((mv sA).preempted 0 0 1), rdy sPre cA z [] [],
      (mv sPre).preempted 0 0 1, cA.isFull (.x 3), rdy (stOf 0 c) c z [] [], !(c.isFull (.x 3)) && !c.isPinned,
      rdy (withRegion (stOf 0 p)) p z [] [], !(p.isFull (.x 3)) && p.isPinned && p.slot != some 7,
      ((mv (withRegion (stOf 0 p))).convert 1).isSome] = true := by decide +kernel

/-- Slot 7 with a faulted continuation (cxid 5) and a suspended one (cxid 6) of its world. -/
def s7F : State := { s7 with ctxs := s7.ctxs ++ [(2, { cA with slot := none, state := .faulted, record := 64 * 5 }),
  (3, { cA with slot := none, state := .suspended, record := 64 * 6 })] }

theorem witness_spawn_done_trap :
    let rd := xiSrcs (.i 0) ++ [xSrc (xr 8)] ++ spawnArgs.map fun r => ⟨.x r, false⟩
    let f := { cA with flags := 0x100 }
    allTrue [rdy sA cA z rd [.x 3], rdy sA cA z (xiSrcs (.i 0) ++ [xSrc (xr 1)] ++ spawnArgs.map fun r => ⟨.x r, false⟩) [.x 3],
      (xVal cA (xr 1)).toNat % 64 != 0, (xVal cA (xr 8)).toNat % 64 == 0, ((mv sA).imageFault cA (xVal cA (xr 8)).toNat).isNone,
      !(badPc (spawnPc cA (.i 0))), (mv sA).released 1 cA .pkg, rdy sA cA z [] [], !cA.anyPend,
      rdy (stOf 0 f) f z [] [], !f.anyPend && f.flags &&& 0x167 != 0, cA.flags &&& 0x167 == 0,
      f.flags &&& (0x1 : BitVec 9).setWidth 16 == 0] = true := by decide +kernel

theorem witness_tret :
    let c := ctxOn 7
    allTrue [rdy sA cA z [xSrc (xr 1)] [.x 3], cA.slot != some 7, rdy s7F c z [xSrc (xr 1)] [.x 3], c.slot == some 7,
      ((mv s7F).byCxid 1 9).isNone, (match (mv s7F).byCxid 1 5 with
        | some (_, k) => k.state == .faulted
        | none => false), (match (mv s7F).byCxid 1 6 with
        | some (_, k) => k.state != .faulted
        | none => false)] = true := by decide +kernel

theorem witness_scalarFloat : allTrue [rdy sA cA z [xSrc (xr 1), xSrc (xr 2)] [.x 3],
    rdy sA cA z [xSrc (xr 3), xSrc (xr 1), xSrc (xr 2)] [.x 3], rdy sA cA z [xSrc (xr 1)] [.x 0],
    rdy sA cA z [xSrc (xr 1), xSrc (xr 2)] [.p 7]] = true := by decide +kernel

/-- A store of eight bytes to x4 stands in the buffer. -/
def accA : Acc :=
  { parts := [(0x2000100000, 8)], size := 8, win := 0, rnd := 0, world := 1, trusted := false, nodes := [], va := 0x2000100000 }
def stE (a : Acc) (op : StOp) (n : Nat) : SEntry := { num := n, acc := a, op := op, loc := 0, rlim := 16, after := [], admitted := false }
def cB : Context := { cA with sbuf := [stE accA (.store .plain (leBytes 8 7)) 0], serial := 1 }
def sB : State := stOf 0 cB
/-- The global operand at a register, for a load or a store. -/
def acc? (s : State) (c : Context) (a : MemOp) (n : Nat) (k : Need) (st : Bool) (po : MemUse) :=
  (mv s).resolve c a.mode (formAddr c a n) n k st po
/-- What every clause asks of a load that resolves. -/
def loadOk (s : State) (c : Context) (a : MemOp) (n : Nat) (r : AnyReg) (f : Acc → Bool) : Bool :=
  rdy s c { z with loc := 2 } [memSrc a] [r] && okWith (acc? s c a n .rd false .data) fun acc =>
    !c.loadsHeld && quiet s acc && !(scaleBuffered c acc) && f acc
def fwdMem (s : State) (c : Context) (acc : Acc) : Bool := match (mv s).forward c.sbuf acc with
  | .memory => true
  | _ => false
/-- Where an access is performed: on this die, elsewhere in the package, in another package, or nowhere. -/
def goes (s : State) (acc : Acc) (k : Need) : Nat := match (mv s).whereIs acc k with
  | .here x _ => if ((mv s).accHome x).die? == some 0 then 0 else 1
  | .far _ _ => 2
  | .refused => 3
/-- The package, 0, is in job 3, and so is package 1; x16 is a job address of its own, which it exports nothing for. -/
def inJob (s : State) : State := { s with pages := (routerPage, 3) :: s.pages, peers := [(1, 3)] }
def cJ : Context := { cA with x := cA.x ++ [(16, 0x800000000000)] }
def sJ : State := inJob (stOf 0 cJ)

theorem witness_loads : allTrue [
    loadOk sB cB (at_ 4) 8 (.x 3) fun acc => (match (mv sB).forward cB.sbuf acc with
      | .bytes _ => true
      | _ => false),
    loadOk sA cA (at_ 4) 128 (.v 3) fun acc => fwdMem sA cA acc && goes sA acc .rd == 0,
    loadOk sA cA (at_ 5) 1 (.x 3) fun acc => fwdMem sA cA acc && goes sA acc .rd == 1,
    loadOk sA cA (at_ 6) 8 (.x 3) fun acc => fwdMem sA cA acc && goes sA acc .rd == 2,
    loadOk sJ cJ (at_ 16) 8 (.x 3) fun acc => fwdMem sJ cJ acc && goes sJ acc .rd == 3,
    isErr (acc? sA cA (at_ 7) 8 .rd false .data), isErr (acc? sA cA (at_ 1) 8 .rd false .data),
    loadOk sA cA (at_ 4) 8 (.x 3) fun acc => !((mv sA).wordBuffered cA acc) && goes sA acc .rd == 0,
    loadOk sA cA (at_ 5) 8 (.x 3) fun acc => !((mv sA).wordBuffered cA acc) && goes sA acc .rd == 1,
    loadOk (inJob sA) cA (at_ 6) 8 (.x 3) fun acc => !((mv (inJob sA)).wordBuffered cA acc) && goes (inJob sA) acc .rd == 2
      && (mv (inJob sA)).noJob 1 == false] = true := by decide +kernel

theorem witness_plainLoadValue : (loadOk sA cA (at_ 4) 4 (.x 3) fun acc => acc.parts == [(0x2000100000, 4)] && acc.win == 0
    && fwdMem sA cA acc && !(isJob (sA.homeOf 0x2000100000)) && (sA.homeOf 0x2000100000).die? == some 0
    && (linesOf 0x2000100000 4).all (fun x => (sA.protOf x).1 == 0) && !(sA.anyPoison [(0x2000100000, 4)])) = true := by decide +kernel

/-- What every clause asks of a store that resolves. -/
def storeOk (s : State) (c : Context) (ctl : Ctl) (rd : List Src) (a : MemOp) (n : Nat) (k : Need) (po : MemUse) (f : Acc → Bool) : Bool :=
  rdy s c ctl rd [] && c.bufRoom && okWith (acc? s c a n k true po) fun acc => quiet s acc && f acc

theorem witness_stores :
    let wr := fun (b : Fin 64) (n : Nat) (f : Acc → Bool) => storeOk sA cA { z with loc := 3 } (memSrc (at_ b) :: xiSrcs (.x (xr 1)))
      (at_ b) n .wr .data fun acc => acc.win == 0 && f acc
    allTrue [isErr (acc? sA cA (at_ 7) 8 .wr true .data),
      wr 10 8 fun acc => StMode.tagged .wefill && (mv sA).untaggedIn acc.parts,
      wr 4 1 fun acc => !(StMode.tagged .plain && (mv sA).untaggedIn acc.parts) && !(isJob ((mv sA).accHome acc)),
      wr 6 8 fun acc => !(StMode.tagged .fill && (mv sA).untaggedIn acc.parts) && isJob ((mv sA).accHome acc),
      storeOk sA cA z [memSrc (at_ 4), vSrc (vr 3)] (at_ 4) 128 .wr .data fun acc => acc.win == 0,
      storeOk sA cA z [memSrc (at_ 4)] (at_ 4) 8 .wr .data fun acc => !((mv sA).untaggedIn acc.parts),
      storeOk sA cA z [memSrc (at_ 10)] (at_ 10) 8 .wr .data fun acc => (mv sA).untaggedIn acc.parts,
      storeOk sA cA z (memSrc (at_ 4) :: xiSrcs (.i 1)) (at_ 4) 4 .rw .atomic fun _ => true,
      rdy sA cA z [memSrc (at_ 4)] [], rdy sA cA z [memSrc ⟨4, .own, 0⟩] [],
      okWith ((mv sA).resolve cA .global (lineAddr cA (at_ 4)) 64 .rd false .data) fun _ => true] = true := by decide +kernel

/-- Region 1 owns the first granule of local memory of core 0. -/
def withGranule (s : State) : State := { s with pages := [(0x3001000000, 1)] }
/-- A local operand through decoding window 1. -/
def cWin : Context := { cA with x := [(1, 5), (11, 0x1000000)] }

theorem witness_store_window :
    let s := withGranule (stOf 0 cWin)
    let a : MemOp := ⟨11, .own, 0⟩
    storeOk s cWin z (memSrc a :: xiSrcs (.x (xr 1))) a 4 .wr .data (fun acc => acc.win != 0 && !(winUsesSr acc.win acc.rnd && (mv s).scalarHeld cWin)
      && !(StMode.tagged .plain && (mv s).untaggedIn acc.parts) && !(scaleBuffered cWin acc) && !(isJob ((mv s).accHome acc)))
      = true := by decide +kernel

theorem witness_syncLoads :
    let ok := fun (s : State) (n : Nat) (r : AnyReg) => loadOk s cA (at_ 4) n r fun acc =>
      goes s acc .rd == 0 && !((mv s).untaggedIn acc.parts) && (mv s).lockReady cA acc
        && ((splitLines acc.parts).filter fun p => !((mv s).allFull p.1 p.2)).all fun p => (mv s).listRoom p.1
    allTrue [ok sA 8 (.x 3), ok (emptyAt sA 0x2000100000) 128 (.v 3),
      loadOk sA cA (at_ 10) 8 (.x 3) fun acc => goes sA acc .rd ≤ 1 && (mv sA).untaggedIn acc.parts,
      loadOk sA cA (at_ 6) 8 (.x 3) fun acc => goes sA acc .rd == 2 && (mv sA).noJob 1,
      loadOk (inJob sA) cA (at_ 6) 128 (.v 3) fun acc => goes (inJob sA) acc .rd == 2 && !((mv (inJob sA)).noJob 1)
        && (mv (inJob sA)).lockReady cA acc] = true := by decide +kernel

theorem witness_lines_fences :
    let s := sA
    let len := fun (k : BitVec 22) => (xiVal cA (.i k)).toNat
    allTrue [rdy s cA z [memSrc ⟨4, .lin, 0⟩] [], rdy s cA z [memSrc (at_ 7)] [],
      isErr ((mv s).resolve cA .global (lineAddr cA (at_ 7)) 64 .rd false .data), rdy s cA z [] [.x 3],
      rdy s cA z (memSrc (at_ 4) :: xiSrcs (.i 0)) [.x 3], formAddr cA (at_ 1) 64 % 64 != 0, formAddr cA (at_ 4) 64 % 64 == 0,
      len 0 == 0, len 32 != 0 && len 32 % 64 != 0, 2 ^ 26 < (xVal cA (xr 2)).toNat,
      len 64 != 0 && len 64 % 64 == 0 && len 64 ≤ 2 ^ 26] = true := by decide +kernel

theorem witness_atomics :
    let ok := fun (b : Fin 64) (rd : List Src) (n : Nat) => rdy sJ cJ z rd [.x 3]
      && okWith (acc? sJ cJ (at_ b) 8 .rw false .atomic) fun acc => !cJ.loadsHeld && quiet sJ acc
        && (mv sJ).lockReady cJ acc && goes sJ acc .rw == n && !((mv sJ).noJob 1)
    allTrue [ok 4 (memSrc (at_ 4) :: xiSrcs (.i 1)) 0, ok 5 (memSrc (at_ 5) :: xiSrcs (.i 1)) 1,
      ok 6 (memSrc (at_ 6) :: xiSrcs (.i 1)) 2, ok 16 (memSrc (at_ 16) :: xiSrcs (.i 1)) 3,
      ok 4 (xSrc (xr 3) :: memSrc (at_ 4) :: xiSrcs (.i 1)) 0, ok 4 [memSrc (at_ 4), xSrc (xr 1)] 0] = true := by decide +kernel

/-! ## Witnesses: waits, phasers, barriers, messages -/

/-- The word at x4 is poisoned. -/
def sPois : State := { sA with mem := { sA.mem with poisons := [(0x2000100000 / 8, ())] } }
def sAR : State := withRegion sA
def sFar : State := inJob sAR

theorem witness_waita :
    let ok := fun (s : State) (e : BitVec 22) (f : State × List Byte × Bool → Bool) =>
      rdy s cA z (xSrc (xr 3) :: memSrc (at_ 4) :: xiSrcs (.i e)) [.x 3] &&
      okWith (acc? s cA (at_ 4) 8 .rd false .atomic) fun acc =>
        quiet s acc && (mv s).lockReady cA acc && goes s acc .rd == 0
          && f (((mv s).l1Home (some (coreKey 0 0)) (partAt acc.parts 0) false).readSeg acc.world (partAt acc.parts 0) 8)
    allTrue [inSlot6 cA == false && !cA.loadsHeld, ok sPois 0 (·.2.2), ok sA 1 fun r => !r.2.2 && leNat r.2.1 != 1,
      ok sA 0 fun r => !r.2.2 && leNat r.2.1 == 0 && (r.1.monRefused cA).isSome,
      ok sAR 0 fun r => !r.2.2 && leNat r.2.1 == 0 && (r.1.monRefused cA).isNone,
      rdy sA cA z (memSrc (at_ 4) :: xiSrcs (.i 1)) [.x 3] && okWith (acc? sA cA (at_ 4) 8 .rd false .atomic) fun acc =>
        (mv sA).released 1 cA (((mv sA).placeHome acc).scope 0 0) && quiet sA acc && goes sA acc .rd == 0,
      rdy sFar cA z (memSrc (at_ 6) :: xiSrcs (.i 1)) [.x 3] && rdy sFar cA z (xSrc (xr 3) :: memSrc (at_ 6) :: xiSrcs (.i 0)) [.x 3] && okWith (acc? sFar cA (at_ 6) 8 .rd false .atomic) fun acc =>
        (mv sFar).released 1 cA (((mv sFar).placeHome acc).scope 0 0) && quiet sFar acc && goes sFar acc .rd == 2 && !((mv sFar).noJob 1)
          && (mv sFar).lockReady cA acc && ((mv sFar).monRefused cA).isNone] = true := by decide +kernel

def phA : Phaser :=
  { serial := 1, world := 1, lim := 4, ph := 0, need0 := 1, arr0 := 0, need1 := 1, arr1 := 0, touched := false, waits := [] }
def memA (m : PhMode) (sp : BitVec 32) : Member := { phaser := 0, mode := m, sp := sp, wp := 0 }
/-- A phaser with a member in each mode, and one that is two phases ahead; x11 to x14 name them. -/
def cPh : Context := { cA with x := [(1, 5), (11, phWord 1 0 0 0), (12, phWord 1 0 0 1), (13, phWord 1 0 0 2), (14, phWord 1 0 0 3)] }
def sPh : State := (withRegion (stOf 0 cPh)).modDie 0 fun d =>
  { d with phasers := [(0, phA)], members := [(0, memA .sig 0), (1, memA .wait 0), (2, memA .sw 0), (3, memA .sw 2)] }
/-- The same with no member. -/
def sPh0 : State := sPh.modDie 0 fun d => { d with members := [] }

theorem witness_phasers :
    let v := fun (n : Fin 64) => xVal cPh (xr n)
    let m := fun (n : Fin 64) (f : Phaser → Member → Bool) => match (mv sPh).memberOf 1 (v n) with
      | some (p, k) => f p k && (mv sPh).released 1 cPh (phScope cPh (v n))
      | none => false
    allTrue [rdy sPh cPh z [] [.x 3], rdy sA cA z [] [.x 3] && (mv sA).limPh 1 ≤ (mv sA).livePh 1,
      (mv sPh).livePh 1 < (mv sPh).limPh 1 && (freeKey (sPh.die 0).phasers 1024).isSome, rdy sPh cPh z [xSrc (xr 11)] [.x 3],
      ((mv sPh).phaserOf 1 (v 1)).isNone && ((mv sPh).memberOf 1 (v 1)).isNone && inSlot6 cPh == false,
      ((mv sPh).phaserOf 1 (v 11)).isSome && (freeKey (sPh.die (phDie (v 11))).members 16384).isSome,
      (sPh.die 0).members.any fun k => k.2.phaser == phIndex (v 11),
      !((sPh0.die 0).members.any fun k => k.2.phaser == phIndex (v 11)) && ((mv sPh0).phaserOf 1 (v 11)).isSome,
      m 12 fun p k => k.mode == .wait && (match signal p k with
        | .error _ => true
        | .ok _ => false),
      m 14 fun p k => match signal p k with
        | .error _ => true
        | .ok _ => false,
      m 13 fun p k => k.mode == .sw && (match signal p k with
        | .error _ => false
        | .ok _ => true),
      m 11 fun _ k => k.mode == .sig] = true := by decide +kernel

theorem witness_phaserCounts :
    let p : Phaser := { phA with touched := true, arr0 := 1 }
    allTrue [(memA .wait 0).mode == .wait, (memA .sig 0).mode != .wait && (memA .sig 0).sp == phA.ph, (memA .sw 1).sp == phA.ph + 1,
      (memA .sw 2).sp != phA.ph && (memA .sw 2).sp != phA.ph + 1, !phA.touched, p.touched && p.arr0 == p.need0 && p.arr1 == 0,
      !(phA.touched && phA.arr0 == phA.need0)] = true := by decide +kernel

/-- World 1 owns the wires of die 0; the core's row lane stands at the given counts. -/
def withWires (s : State) (l : Lane) : State :=
  (s.modDie 0 fun d => { d with wires := some (1, 1) }).modCore 0 0 fun k => { k with lanes := [(laneKey .row, l)] }
def sW : State := withWires sA ⟨1, 0, [0]⟩

theorem witness_wires : allTrue [
    rdy sA cA z [] [] && !(sA.ownsWires cA), rdy sW cA z [] [] && sW.ownsWires cA && (sW.lane 0 0 .row).a < (sW.lane 0 0 .row).e + 2
      && (mv sW).released 1 cA .die, rdy sW cA z [] [.x 3], rdy sA cA z [] [.x 3],
    (sW.lane 0 0 .col).a ≤ (sW.lane 0 0 .col).e, (sW.lane 0 0 .row).e < (sW.lane 0 0 .row).a] = true := by decide +kernel

def runA (t : Option Nat) : NbRun := { uid := 1, dest := .x 3, peers := [(0, 1)], round := 0, lost := false, acq := 0, deadline := t }
def nbA (r : Option NbRun) : NbInst := { world := 1, scope := .pkg, tag := 2, epoch := 1, held := [], run := r }
def sNb (r : Option NbRun) : State := sA.modDie 0 fun d => { d with nb := [nbA r] }

theorem witness_nbarr :
    let n := fun (s : State) (sc : NbScope) => s.nbInst 0 1 sc 2
    allTrue [rdy (sNb (some (runA none))) cA z (xiSrcs (.i 2)) [.x 3], (n (sNb (some (runA none))) .pkg).run.isSome,
      (n (sNb none) .job).run.isNone && (sNb none).noJob 0, (n (sNb none) .pkg).run.isNone && (sNb none).nbUsed 0 < 16
        && (mv (sNb none)).released 1 cA .pkg, rdy (sNb none) cA z (xiSrcs (.i 2)) [.x 3]] = true := by decide +kernel

def readsAt (s : State) (c : Context) (a : MemOp) (n : Nat) (f : State → List Byte → Bool) : Bool :=
  blockWith ((mv s).readBlock 1 c 0 a n) f

theorem witness_sends :
    let go := fun (s : State) (v : BitVec 64) => match s.sendTo cA v with
      | .here d k => s.released 1 cA (scopeOfCore cA d k) && !(s.unreachable (clKey d (clusterOf k)) 1) && s.cyc d == (mv sA).cyc d
      | _ => false
    allTrue [inSlot6 cA == false, rdy sA cA z (xSrc (xr 1) :: xiSrcs (.i 7)) [.x 3], go (mv sA) 5,
      (mv { sA with cycling := [(1, .reset 0)] }).unreachable (clKey 0 (clusterOf 5)) 1,
      (match (mv (inJob sA)).sendTo cA 0x805 with
        | .away 1 _ _ => (mv (inJob sA)).released 1 cA .job
        | _ => false), (match (mv sA).sendTo cA 0xFFFFFFFFFFFFFFFF with
        | .none => true
        | _ => false), rdy sA cA z (xSrc (xr 1) :: ⟨.x (nextReg 1), false⟩ :: xiSrcs (.i 7)) [.x 3],
      rdy sA cA z [xSrc (xr 1), memSrc (at_ 4)] [.x 3], readsAt sA cA (at_ 4) 64 fun u _ => go u 5,
      rdy sA cA z [xSrc (xr 1), ⟨.x (nextReg 1), false⟩, memSrc (at_ 4)] [.x 3]] = true := by decide +kernel

/-- A record at x4 whose byte 40 (bits [327:320]) is 4: no task. -/
def sBadTask : State := { sA with mem := sA.mem.setCells (0x2000100000 + 40) [4] }

theorem witness_channels_tasks : allTrue [
    rdy sA cA z (xiSrcs (.i 62)) [] && cA.slot != some 7 && (xiVal cA (.i 62)).toNat % 64 == 62,
    rdy s7 (ctxOn 7) z (xiSrcs (.i 62)) [], rdy sA cA z (xiSrcs (.i 3) ++ xiSrcs (.i 1)) [], rdy sA cA z [memSrc (at_ 4)] [.x 3],
    readsAt sBadTask cA (at_ 4) 128 fun _ bs => badTask (leNat bs),
    readsAt sA cA (at_ 4) 128 fun u bs => !(badTask (leNat bs)) && u.released 1 cA .pkg,
    formAddr cA (at_ 1) 256 % 256 != 0, formAddr cA (at_ 4) 256 % 256 == 0 && (mv sA).released 1 cA .sys] = true := by
  decide +kernel

/-- A continuation whose record and image lie in the vault. -/
def sA8 : State := stOf 0 { cA with record := 0x2000110000, image := 0x2000110040 }

/-! ## Witnesses: engines, views, address spaces, bulk transfer, evidence -/

theorem witness_vectorCommands : allTrue [
    (sA.core 0 0).vec.length < 2, rdy sA cA z (vSrc (vr 1) :: sSrcs (.v (vr 2))) [.v 3], rdy sA cA z [vSrc (vr 1)] [.v 3],
    rdy sA cA z [vSrc (vr 3), vSrc (vr 1), vxSrc (.v (vr 2))] [.v 3], rdy sA cA z [vSrc (vr 3), vSrc (vr 1), vSrc (vr 2)] [.v 3],
    rdy sA cA z [vSrc (vr 1), vSrc (vr 2)] [.v 3], rdy sA cA z (vSrc (vr 1) :: xiSrcs (.i 1)) [.v 3], rdy sA cA z (xiSrcs (.i 1)) [.v 3],
    rdy sA cA z (vSrc (vr 1) :: xiSrcs (.i 1)) [.x 3], rdy sA cA z [vSrc (vr 2), ⟨.v (nextV 2), false⟩] [.v 3],
    !(cvtRnd 0x06 == .sr && !(neverInexact (cvtSrc 0x06) .f16)), cvtRnd 0x46 == .sr && !(neverInexact (cvtSrc 0x46) .f16),
    !cA.srmode, rdy (stOf 0 { cA with srmode := true }) { cA with srmode := true } z [vSrc (vr 3), vSrc (vr 1)] [.v 3],
    rdy sA cA z [vSrc (vr 2), ⟨.v (nextV 2), false⟩, vSrc (vr 1)] [.v 2, .v (nextV 2)],
    winRnd (bits (0x80 : BitVec 22).toNat 7 5) == .sr, winRnd (bits (0 : BitVec 22).toNat 7 5) != .sr] = true := by decide +kernel

/-- Region 1 owns the core's first granule; x11 = 0 is the base, x12 the layout word of INT8 rows 192 bytes apart. -/
def cM : Context := { cA with x := [(1, 5), (11, 0), (12, 0xC00003), (13, 0x40000000), (14, 0x1000000), (15, 0xC00000)] }
def sM : State := withGranule (stOf 0 cM)
/-- The same with the layout's tag on the first 4 KiB. -/
def sMT : State := { sM with mem := { sM.mem with tags := [(0x1000000, 131)] } }

theorem witness_matrixCommands :
    let own := fun (b : Fin 64) => (⟨b, .own, 0⟩ : MemOp)
    let va := fun (b : Fin 64) (n : Nat) => formAddr cM (own b) n
    let w := xVal cM (xr 12)
    allTrue [(sM.core 0 0).mat.queue.length < 2, rdy sM cM z [] [.x 3], rdy sM cM z (xiSrcs (.i 1)) [.x 3],
      rdy sM cM z [memSrc (own 11), xSrc (xr 12)] [.x 3], (at_ 11).mode != .own, 2 ^ 30 ≤ va 13 64, va 14 64 < 2 ^ 30 && 2 ^ 24 ≤ va 14 64,
      va 1 64 < 2 ^ 24 && va 1 64 % 64 != 0, va 1 32 < 2 ^ 24 && va 1 32 % 32 != 0, va 11 64 == 0,
      ((mv sM).chunkFault cM 0 (layAll false 0 w) (layChunk w) .rd).isNone, layOk false w,
      ((mv sM).tagFault cM w (layAll false 0 w)).isSome, ((mv sMT).tagFault cM w (layAll false 0 w)).isNone,
      (mv sM).released 1 cM .core, ((mv sM).chunkFault cM 0 (layAll true 0 0xC00009) 16 .rd).isNone,
      ((mv sM).chunkFault cM 0 ((List.range 16).map fun i => i * layStride (xVal cM (xr 15))) 32 .wr).isNone] = true := by
  decide +kernel

/-- A schedule of one entry and two rounds, at a count. -/
def schA (n : Nat) (ended : Bool) : Sched :=
  { n := 1, rounds := 2, sstep := 0, dstep := 0, entries := [(0, 0, 0, 0)], count := n, ended := ended }
def sSch (n : Nat) : State := { sL with scheds := [(1, schA n false)] }

theorem witness_copyCommands :
    let n := cpyiDesc (formAddr cA (at_ 4) 8) (formAddr cA (at_ 8) 8) 8 .global .global
    let c := { cA with x := (1, 8) :: cA.x.drop 1 }
    allTrue [rdy sA cA z (memSrc (at_ 4) :: xiSrcs (.i 0)) [.x 3], readsAt sA cA (at_ 4) 64 fun u bs => u.released 1 cA (u.copyScope cA (leNat bs))
        && (u.core 0 0).cpy.queue.length < 2, rdy sA cA z [xSrc (xr 1), memSrc (at_ 8), memSrc (at_ 4)] [.x 1],
      (xVal cA (xr 1)).toNat % 8 != 0, rdy (stOf 0 c) c z [xSrc (xr 1), memSrc (at_ 8), memSrc (at_ 4)] [.x 1],
      (xVal c (xr 1)).toNat % 8 == 0, (formFault .global (formAddr cA (at_ 4) 8) 8).isNone && (formFault .global (formAddr cA (at_ 8) 8) 8).isNone,
      (mv sA).released 1 cA ((mv sA).copyScope cA n), rdy sA cA z (xiSrcs (.i 1)) [.x 3], (KMap.look sA.scheds 1).isNone,
      rdy (sSch 2) cA z (xiSrcs (.i 1)) [.x 3] && (sSch 2).launch? 1 == some lA, (schA 2 false).n * (schA 2 false).rounds < (schA 2 false).count + 1,
      (schA 1 false).count + 1 ≤ (schA 1 false).n * (schA 1 false).rounds && (mv (sSch 1)).released 1 cA .pkg,
      (((mv sA).abortEngine { uid := 1, dest := .x 3 } 0 0 fun q => q.ofCtx 1).1.launch? 1).isNone, (xiVal cA (.i 1)).getLsbD 0, !((xiVal cA (.i 0)).getLsbD 0),
      (((mv sL).abortEngine { uid := 1, dest := .x 3 } 0 0 fun q => q.ofCtx 1).1.launch? 1).isSome,
      (formFault .global (formAddr cA (at_ 1) 8) 8).isSome] = true := by decide +kernel

/-- A master of one FP32 block at 0x2000120000 with its tracking area, and a view of it in FP32. -/
def msN : Nat := 0x2000120000 + 0x2000121000 * 2 ^ 64 + 32 * 2 ^ 128 + 2 ^ 160 + 2 ^ 192 + 2 ^ 224 + 6 * 2 ^ 352
def vwN : Nat := 0x2000122000 + 0x2000123000 * 2 ^ 128 + 6 * 2 ^ 356
def vwA (faulted : Bool) : View :=
  { serial := 1, desc := BitVec.ofNat 1024 vwN, space := 0, region := 1, seed := 0, srmode := false, lid := 1, lcore := 0,
    faulted := faulted, cause := 0, flags := 0, fails := 0 }
def msA (faulted : Bool) : Master :=
  { desc := BitVec.ofNat 1024 msN, space := 0, data := [(0x2000120000, 128)], area := [(0x2000121000, 128)], nodes := [], views := [(0, vwA faulted)] }
/-- x11 holds the view's handle, x12 the address of its tag. -/
def cV : Context := { cA with x := cA.x ++ [(11, BitVec.ofNat 64 (2 ^ 40)), (12, 0x2000123000)] }
/-- The master is registered as number 0 of world 1; its block's generation and the view's tag are as given. -/
def sV (faulted : Bool) (gen tag : Nat) : State :=
  let s := stOf 0 cV
  { s with masters := [(masterKey 1 0, msA faulted)],
           mem := (s.mem.setCells 0x2000121000 (leBytes 8 gen)).setCells 0x2000123000 (leBytes 8 tag) }
/-- Records of the master and the view stand at x4 and x8. -/
def sReg : State := { sA with mem := (sA.mem.setCells 0x2000100000 (leBytes 128 msN)).setCells 0x2000110000 (leBytes 128 vwN) }

theorem witness_vwreg :
    let reg := fun (s : State) (f : Except Nat (Nat × Master × Bool) → Bool) => rdy s cA z [memSrc (at_ 4), memSrc (at_ 8)] [.x 3]
      && readsAt s cA (at_ 4) 128 fun t bs => blockWith (t.readBlock 1 cA 0 (at_ 8) 128) fun u vs => f (u.vwregCheck cA (leNat bs) (leNat vs))
    (reg sA (fun r => match r with
      | .error _ => true
      | .ok _ => false) && reg sReg (fun r => match r with
      | .error _ => false
      | .ok _ => true)) = true := by decide +kernel

theorem witness_viewHandles :
    let v := fun (s : State) (f : Master → View → Bool) => match (mv s).viewOf 1 (xVal cV (xr 11)) with
      | some (_, k, _, v) => f k v
      | none => false
    allTrue [rdy (sV false 1 0) cV z [xSrc (xr 11)] [.x 3], ((mv (sV false 1 0)).viewOf 1 (xVal cV (xr 1))).isNone,
      v (sV false 1 0) fun k v => !v.faulted && (mv (sV false 1 0)).masterQuiet cV k, v (sV true 1 0) fun _ v => v.faulted,
      !cV.loadsHeld] = true := by decide +kernel

theorem witness_views :
    let a := at_ 12
    let at' := fun (s : State) (f : Acc → Nat × Master × Nat × View × Nat → Bool) => okWith (acc? s cV a 8 .rd false .data) fun acc =>
      acc.win == 0 && quiet s acc && (match (mv s).blockAtTag 1 (partAt acc.parts 0) with
        | some b => f acc b
        | none => false)
    let rd := fun (s : State) (f : Nat → Nat → Bool) => at' s fun _ b => (mv s).masterQuiet cV b.2.1 && !b.2.2.2.1.faulted
      && !(cV.viewLost b.2.2.2.1) && (match (mv s).readView 0 0 0 1 b.2.1 b.2.2.2.1 b.2.2.2.2 with
        | .ok (_, _, _, tag, p) => !p && f tag (cV.viewGen ((mv s).genOf 1 b.2.1 b.2.2.2.2)).toNat
        | .error _ => false)
    allTrue [rdy (sV false 1 1) cV z [memSrc a] [.x 3] && !cV.loadsHeld, okWith (acc? (sV false 1 1) cV (at_ 4) 8 .rd false .data) fun acc =>
        ((mv (sV false 1 1)).blockAtTag 1 (partAt acc.parts 0)).isNone, at' (sV true 1 1) fun _ b => b.2.2.2.1.faulted && (mv (sV true 1 1)).masterQuiet cV b.2.1,
      at' (sV false 1 1) fun _ b => !b.2.2.2.1.faulted && { cV with vwGen := some { gen := 1, serial := 9, fails := 0 } }.viewLost b.2.2.2.1,
      rdy (sV false 1 1) cV z [memSrc a] (vwldDests (.staleok 2) 3), rd (sV false 2 1) fun tag g => tag < g,
      rd (sV false 1 1) fun tag g => g ≤ tag] = true := by decide +kernel

/-- A descriptor of no blocks from FP32 to INT8 at x4. -/
def qtN : Nat := 6 * 2 ^ 292 + 3 * 2 ^ 288
def sQt : State := { sA with mem := sA.mem.setCells 0x2000100000 (leBytes 64 qtN) }
def qA : Quant :=
  { uid := 1, dest := .x 3, world := 1, space := 0, region := 1, lid := 1, item := 0, pc := 0, srmode := false, order := 0, desc := BitVec.ofNat 512 qtN,
    next := 0, flags := 0, nan := none, fail := none, sent := [], rlim := 16 }

theorem witness_quant :
    let full := sQt.modDie 0 fun d => { d with quant := List.replicate 64 qA }
    allTrue [rdy sQt cA z [memSrc (at_ 4)] [.x 3], readsAt full cA (at_ 4) 64 fun u _ => 64 ≤ (u.die 0).quant.length,
      readsAt sA cA (at_ 4) 64 fun u bs => (u.die 0).quant.length < 64 && !(qtOk (leNat bs)),
      readsAt sQt cA (at_ 4) 64 fun u bs => (u.die 0).quant.length < 64 && qtOk (leNat bs) && u.released 1 cA (u.quantScope cA (leNat bs))] = true := by decide +kernel

/-- The first page at x4 migrates to the one at x8. -/
def moveA : Move :=
  { num := 0, sink := .nowhere, pairs := [(0x2000100000, 0x2000110000, 65536)], nodes := [], cut := false, ended := false }
def sMoving : State := { sA with moves := [moveA] }

theorem witness_addressSpaces :
    let h := fun (b : Fin 64) => (mv sA).holdsPage 0 (xVal cA (xr b)).toNat
    allTrue [rdy sA cA z (memSrc (at_ 4) :: xiSrcs (.i 1)) [.x 3], readsAt sA cA (at_ 4) 32 fun _ _ => true, 2 ^ 16 ≤ (xiVal cA (.i 0x10000)).toNat,
      (xiVal cA (.i 0xFFFF)).toNat < 2 ^ 16, !cA.loadsHeld, rdy sA cA z (xSrc (xr 4) :: xiSrcs (.i 1)) [.x 3], rdy sA cA z (xiSrcs (.i 1)) [.x 3],
      rdy sA cA z [xSrc (xr 4), xSrc (xr 8)] [.x 3], (xVal cA (xr 1)).toNat % 65536 != 0, (xVal cA (xr 4)).toNat % 65536 == 0,
      (xVal cA (xr 0)).toNat % 65536 == 0 && (h 0).isNone, (h 4).isSome && (h 8).isSome,
      (match h 4, h 8 with
        | some x, some y => !((mv sA).isPages x || (mv sA).isPages y) && !((mv sA).hasBelow y || (mv sA).pageBusy x
          || (mv sA).pageBusy y)
        | _, _ => false),
      (match (mv sMoving).holdsPage 0 0x2000100000 with
        | some x => !((mv sMoving).isPages x) && (mv sMoving).pageBusy x
        | none => false),
      (match h 10 with
        | some x => (mv sA).isPages x
        | none => false)] = true := by decide +kernel

def sendA : Send :=
  { uid := 1, dest := .x 3, addr := 0x2000100000, world := 1, region := 1, space := 0, desc := BitVec.ofNat 512 (64 * 2 ^ 416), sent := 0,
    turned := 0, retryAt := none, rlim := 16, begun := false, cancel := none }
def postA : Post :=
  { uid := 1, dest := .x 3, addr := 0x2000100000, world := 1, region := 1, lim := 4, space := 0, lid := 1, item := 0, core := 0, prio := 3, rlim := 16,
    desc := BitVec.ofNat 512 (64 * 2 ^ 416), order := 1, hit := none }
def hitA (lapses : Nat) : Match :=
  { pkg := 1, die := 0, sendId := 8, msgLen := 64, next := 0, again := [], bytes := 0, done := [], lapses := lapses, paused := false, line := none, landing := 0 }
/-- A descriptor of 64 bytes at x4, to this package; and one to package 1. -/
def sBulk (pkg : Nat) : State := { sA with mem := sA.mem.setCells 0x2000100000 (leBytes 64 (64 * 2 ^ 416 + pkg * 2 ^ 306)) }
def sFull : State := (sBulk 0).modNi 0 fun n => { n with sends := (List.range 1024).map fun i => (i, sendA) }

theorem witness_bulkTransfer :
    let away := fun (u : State) (n : Nat) => blPkg n != u.pkg.toNat && u.noJob (blPkg n)
    allTrue [rdy sA cA z [memSrc (at_ 4)] [.x 3], rdy s6 (ctxOn 6) z [memSrc (at_ 4)] [.x 3] && (ctxOn 6).slot == some 6, inSlot6 cA == false,
      readsAt sA cA (at_ 4) 64 fun _ bs => badSend (leNat bs) && badPost (leNat bs),
      readsAt (sBulk 1) cA (at_ 4) 64 fun u bs => !(badSend (leNat bs)) && away u (leNat bs),
      readsAt (sBulk 0) cA (at_ 4) 64 fun u bs => !(badSend (leNat bs)) && !(badPost (leNat bs)) && !(away u (leNat bs)) && !(u.niFull 0)
        && u.released 1 cA (u.vaScope cA (bsSrc (leNat bs)) (blLen (leNat bs))),
      readsAt sFull cA (at_ 4) 64 fun u bs => !(badSend (leNat bs)) && !(badPost (leNat bs)) && !(away u (leNat bs)) && u.niFull 0,
      formAddr cA (at_ 1) 64 % 64 != 0, formAddr cA (at_ 4) 64 % 64 == 0] = true := by decide +kernel

theorem witness_bulkCancel :
    let s := sA.modNi 0 fun n => { n with sends := [(1, sendA)] }
    let p := sA.modNi 0 fun n => { n with posts := [(1, postA)] }
    let ph := sA.modNi 0 fun n => { n with posts := [(1, { postA with hit := some (hitA 0) })] }
    let far := sA.modNi 0 fun n => { n with sends := [(1, { sendA with desc := BitVec.ofNat 512 (64 * 2 ^ 416 + 2 ^ 306) })] }
    allTrue [(mv sA).sendsAt 1 0x2000100000 == [] && (mv sA).postsAt 1 0x2000100000 == [],
      (mv p).sendsAt 1 0x2000100000 == [] && (mv p).postsAt 1 0x2000100000 == [(0, 1)] && (mv p).post? 0 1 == some postA && postA.hit == none,
      (mv ph).sendsAt 1 0x2000100000 == [] && (mv ph).postsAt 1 0x2000100000 == [(0, 1)]
        && ((mv ph).post? 0 1).bind (fun q => q.hit) == some (hitA 0) && (hitA 0).bytes < takes postA (hitA 0),
      (mv s).sendsAt 1 0x2000100000 == [(0, 1)] && (mv s).send? 0 1 == some sendA && sendA.cancel == none && blPkg sendA.desc.toNat == 0
        && (mv s).sendWhole (bsDie sendA.desc.toNat) (sendName 0 0 8) == false,
      (mv far).sendsAt 1 0x2000100000 == [(0, 1)] && ((mv far).send? 0 1).map (fun q => q.cancel == none && blPkg q.desc.toNat != 0) == some true] = true := by decide +kernel

def evidFill : Fill := { dest := .x 3, also := none, src := .evid [0] accA 0, flags := 0, nan := none, acq := none }
/-- Another context has 64 requests for evidence on their way. -/
def sEvid : State := { sA with ctxs := sA.ctxs ++ [(2, { cA with slot := none, fills := List.replicate 64 evidFill })] }
/-- The context is debugged with the break bit. -/
def sDbg : State := { sA with pages := [(debugPage, 2), (debugPage + 8, BitVec.ofNat 64 (2 ^ 48 + 1))] }

theorem witness_evidence :
    let ok := fun (s : State) (f : State → Bool) => rdy s cA z [memSrc (at_ 4), xSrc (xr 8)] [.x 3] && readsAt s cA (at_ 4) 64 fun u _ =>
      okWith (u.resolveGlobal 1 0 false (xVal cA (xr 8)).toNat 256 64 .wr) fun _ => u.released 1 cA (u.vaScope cA (formAddr cA (at_ 4) 64) 64) && f u
    allTrue [inSlot6 (ctxOn 6) && rdy s6 (ctxOn 6) z [memSrc (at_ 4), xSrc (xr 8)] [.x 3], inSlot6 cA == false, (xVal cA (xr 1)).toNat % 64 != 0,
      rdy sA cA z [memSrc (at_ 4), xSrc (xr 1)] [.x 3], ok sA fun u => u.responderLoad < 64, ok sEvid fun u => 64 ≤ u.responderLoad, rdy sA cA z [] [],
      !((mv sA).debugBit cA true), rdy sDbg cA z [] [] && (mv sDbg).debugBit cA true, sA.ctx? sA.issuing == some cA] = true := by
  decide +kernel

/-! ## Witnesses: events of cores, messages, schedulers and launches -/

/-- A state whose only context is this one, in no slot. -/
def stN (c : Context) : State := { State.reset with ctxs := [(1, { c with slot := none })], nextUid := 2 }
def valFill (s : FillSrc) : Fill := { dest := .x 3, also := none, src := s, flags := 0, nan := none, acq := none }
def cF (k : FillSrc) : Context := { cA with fills := [valFill k] }
/-- A context with a record, whose image is unmapped, with a dirty line 3. -/
def cW : Context := { cA with record := 0x2000110000, image := 0x100, lines := KMap.put cA.lines 3 { dirty := true, evict := false, use := 0 } }

theorem witness_coreEvents :
    let hot := sA.modDie 0 fun d => { d with skip := 1 }
    let sk := (hot.ejectExhausted 0 0)
    let fill := fun (src : FillSrc) => ((stOf 0 (cF src)).ctx? 1).map (fun c => c.fills[0]?) == some (some (valFill src))
    let free := fun (src : FillSrc) => ((stOf 0 (cF src)).pauser 1 (.fill (.x 3)) ((stOf 0 (cF src)).places accA)).isNone
    let line := { cA with lines := KMap.del cA.lines 3, why := some (.line 3 [3]) }
    let late := (stOf 0 (cF (.poolAck 0 [] 0))).modDie 0 fun d => { d with cyc := 65536 }
    allTrue [hot.cyc 0 % 8 < (sk.die 0).skip && sk.cyc 0 == hot.cyc 0, (sA.ejectExhausted 0 0 |>.die 0).skip ≤ (sA.ejectExhausted 0 0).cyc 0 % 8,
      ((sA.modCore 0 0 fun k => { k with refetch := [5] }).core 0 0).refetch == [5], fill (.value 0), fill (.result 0), fill .poisoned,
      fill (.count 0 1) && decide (0 < ((stOf 0 (cF (.count 0 1))).modDie 0 fun d => { d with cyc := 1 }).cyc 0),
      fill (.aborted 1 false) && (stOf 0 (cF (.aborted 1 false))).aborting 1 1 false == false, fill (.space 0 1),
      fill (.following 7 (.x 3) 0) && (stOf 0 (cF (.following 7 (.x 3) 0))).fillsSoon 7 (.x 3) == false,
      fill (.fence 0 .sys true) && (stOf 0 (cF (.fence 0 .sys true))).fenceMet 1 (cF (.fence 0 .sys true)) 0 0 .sys true,
      fill (.load accA) && free (.load accA), fill (.feget accA) && free (.feget accA),
      fill (.atom accA .swap true 0) && free (.atom accA .swap true 0),
      line.slot.isSome && line.why == some (.line 3 [3]) && !(KMap.has line.lines 3),
      KMap.has cW.lines 3 && cW.lineDirty 3 && cW.mayEvict 3 && (match (stOf 0 cW).writeBack cW 3 with
        | .error _ => true
        | .ok _ => false), fill (.poolAck 0 [] 0) && decide ((stOf 0 (cF (.poolAck 0 [] 0))).cyc 0 < 65536),
      decide (65536 ≤ late.cyc 0) && late.poolLate (cF (.poolAck 0 [] 0)) == some (valFill (.poolAck 0 [] 0), 0)] = true := by decide +kernel

def entA (permitted landing : Bool) : HEntry :=
  { pc := 0x2000000000, refused := 0, pri := 1, landing := landing, mask := false, permitted := permitted }
/-- A resident table of launch 1 with three channels: 0 permitted, 1 not, 2 a landing handler's. -/
def tabA : HTable :=
  { lid := 1, world := 1, space := 0, region := 1, compat := false, order := 0, image := 0, entries := [entA true false, entA false false, entA true true] }
def msgA (ch : Nat) (gen : Bool) : Msg :=
  { chan := ch, die := 0, core := 0, world := 1, lid := 1, item := 0, header := 0, payload := [], hpc := none, gen := gen, status := none,
    remote := none, sender := 0, task := none, since := 0, table := none }
/-- A core with the table, with messages on their way and in its queue. -/
def sMsg (net queue : List Msg) : State :=
  { (State.reset.modCore 0 0 fun k => { k with tables := [tabA], queue := queue }) with net := net }
def outA (t : AckDo) : Outst :=
  { req := { srcPkg := 0, srcDie := 0, seq := 0, path := 0, job := 1, world := 1, off := 0, rlim := 1, die := 0, op := .feget }, pkg := 1,
    todo := t, via := none, admitted := false, sentAt := 0, resent := 0, turned := 0, retryAt := none }
def sOut (o : Outst) : State := sA.modNi 0 fun n => { n with outst := [(1, o)] }

theorem witness_messages :
    let s := sMsg [msgA 0 false] []
    let away := { s with cycling := [(0, .reset 0)] }
    allTrue [olderOnWay s.net 0 (msgA 0 false) == false, (s.launch? 1).isNone && s.isCycling (clKey 0 (clusterOf 0)) == false,
      away.isCycling (clKey 0 (clusterOf 0)), ({ s with cores := [] }.tableFor 0 0 1 1).isNone, s.tableFor 0 0 1 1 == some tabA,
      (tabA.entry 1).permitted == false, (tabA.entry 0).permitted && queueRoom (s.core 0 0).queue 0,
      (msgA 0 false).since + 65536 ≤ (s.modDie 0 fun d => { d with cyc := 65536 }).cyc 0,
      (sOut (outA (.message (some { uid := 1, dest := .x 3 })))).outstOf 8 == some (outA (.message (some { uid := 1, dest := .x 3 })))] = true := by
  decide +kernel

/-- A pinned handler that began at cycle 0. -/
def cLate : Context := { cP with began := some 0 }

theorem witness_handlers :
    let s := sMsg [] [msgA 0 false, msgA 62 true]
    let late := (stOf 0 cLate).modDie 0 fun d => { d with cyc := 65537 }
    let cWait := { cLate with wait := .reg (.x 3), stepped := some 0x2000000001 }
    let late' := (stOf 0 cWait).modDie 0 fun d => { d with cyc := 65537 }
    let f := (s.core 0 0).queue.map fun m => (m, s.faultHeld 0 0 m)
    let bare := { s.modCore 0 0 fun k => { k with tables := [] } with nextUid := 1 }
    let land := State.reset.modCore 0 0 fun k => { k with tables := [tabA], landq := [(1, .copy 0 0 0 0 8 [], 2, 0)] }
    allTrue [s.freeSlot 0 0 == some 0, (s.firstStartable 0 0 (s.core 0 0).queue 0).isSome, s.slotFree 0 0 7,
      (s.linesRoom 0 0 3).isSome, (firstFault f 0).map (·.1) == some 1, (bare.msgTable 0 0 (msgA 62 true)).isNone,
      (s.msgTable 0 0 (msgA 62 true)).isSome, late.overBudget cLate && cLate.wait == .none,
      late'.overBudget cWait && cWait.wait != .none, (land.core 0 0).landq.find? (fun q => !(land.packetHeld 0 0 q.1 q.2.2.1)) == some (1, .copy 0 0 0 0 8 [], 2, 0)
        && (land.linesRoom 0 0 6).isSome, land.slotFree 0 0 6 && ((land.core 0 0).tables.find? fun t => t.lid == 1) == some tabA] = true := by decide +kernel

/-- A ready continuation in the queue of cluster 0 of die 0, whose launch runs there, with its region live. -/
def cQ : Context := { cA with slot := none, state := .ready, queued := some 1, queueAt := 0 }
def sQ : State :=
  withRegion { State.reset with ctxs := [(1, cQ)], launches := [(1, lA)], nextUid := 2, worlds := [] }
/-- The clusters' slots have been occupied for 256 cycles. -/
def sSat : State := sQ.modCluster 0 0 fun k => { k with busy := 256 }
def cS : Context := { cA with record := 0x2000110000, slot := none, state := .suspended, wait := .reg (.x 3) }

theorem witness_placement :
    let q := (sQ.retestQueue 0).firstPlaceable 0 0 ((sQ.retestQueue 0).readyQueue 0)
    let steal := (sSat.retestQueue 0).firstPlaceable 0 4 ((sSat.retestQueue 0).stealable 0 0 1).toList
    let any := { sSat with launches := [(1, { lA with clusters := 0xFFFF })] }
    let steal' := (any.retestQueue 0).firstPlaceable 0 4 ((any.retestQueue 0).stealable 0 0 1).toList
    allTrue [sQ.freeSlot 0 0 == some 0, (sQ.firstStartable 0 0 (sQ.core 0 0).queue 0).isNone, q.1 == some 1,
      (State.reset.firstPlaceable 0 0 (State.reset.readyQueue 0)).1.isNone, steal.1.isNone, clusterOf 4 != 0 && any.saturated 0 0
        && (any.readyQueue (clKey 0 (clusterOf 4))).isEmpty, steal'.1 == some 1] = true := by decide +kernel

theorem witness_continuationReady :
    let s := stN cS
    let pc := s.recordPc { cS with slot := none }
    let t := (s.modCtx 1 fun c => { c with state := .ready, wait := .none, pc := pc, pastEnd := c.pastEnd && pc == c.pc,
                                           block := if pc == c.pc then c.block else none }).changed 1 0
    let cut := { cS with pendFault := some (0x15, 0x2000100000) }
    allTrue [cS.slot == none && cS.state == .suspended && cS.waitOver && cS.pendFault == none,
      cut.waitOver && cut.imageFault (0x15, 0x2000100000) == false,
      (match t.ctx? 1 with
        | some k => k.state == .ready
        | none => false)] = true := by decide +kernel

def taskA (stage : TStage) (deps : List (Nat × Bool × Bool)) : TTask :=
  { stage := stage, source := 0, world := 1, lid := 1, region := 1, space := 0, item := 0, args := [], tag := 0, kind := 0, done := 0, deps := deps }
def sTask (t : TTask) : State :=
  let s : State := { State.reset with launches := [(1, lA)] }
  (s.modCore 0 0 fun k => { k with tables := [tabA] }).modCluster 0 0 fun k => { k with tasks := [(0, t)] }

theorem witness_tasks :
    let r : TaskRef := { die := 0, cl := 0, k := 0 }
    let wt := taskA .waiting [(0x2000100000, false, true)]
    let un := taskA .waiting [(0x2000100000, false, false)]
    let go := taskA .waiting []
    allTrue [(sTask wt).task? r == some wt && wt.deps[0]? == some (0x2000100000, false, true) && (sTask wt).depWaits r 0 == false,
      un.deps[0]? == some (0x2000100000, false, false), go.ready && (sTask go).taskCore 0 0 go == some 0
        && ((sTask go).cluster 0 0).tasks.all (fun q => !(decide (q.1 < 0))), (sTask (taskA .issued [])).task? r == some (taskA .issued [])
        && (sTask (taskA .issued [])).taskRuns r == false] = true := by decide +kernel

def lmA (a : Nat) : LaunchMsg := { space := 0, addr := a, issuer := none, sink := .nowhere }
def lWith (st : LStage) (f : Launch → Launch) : State := { State.reset with launches := [(1, f { lA with stage := st })] }

theorem witness_launches :
    let m := fun (a : Nat) => { State.reset with launchMsgs := [lmA a] }
    let s := m 0x2000100000
    let op := withRegion (lWith .opening fun l => { l with key := 0x2000100000 })
    let opBad := withRegion (lWith .opening fun l => { l with key := 0x100 })
    let done := lWith .running fun l => { l with made := 1 }
    allTrue [(m 1).nextLaunch.isSome && (lmA 1).addr % 256 != 0, (lmA 0).addr % 256 == 0 && ((m 0).readRecord 0 0 0 256).isNone,
      s.nextLaunch.isSome && (s.readRecord 0 0 0x2000100000 256).isSome && (s.doneAt 0 0 0).isSome,
      (op.region? 1).isSome && (op.readRecord 1 0 0x2000100000 512).isSome, (opBad.readRecord 1 0 0x100 512).isNone,
      (lWith .waiting id).torn 1 == false && lA.deps.all fun d => ((lWith .waiting id).launch? d).isNone, ((lWith .running id).launch? 1).isSome,
      done.worldCommands 1 == false && done.worldQuiet 1 (!(done.launches.any fun p => p.1 != 1 && p.2.world == 1)) && lA.items ≤ 1,
      ((sMsg [] []).core 0 0).tables.find? (fun t => t.lid == 1) == some tabA && ((sMsg [] []).launch? 1).isNone && (sMsg [] []).ctxs.isEmpty] = true := by
  decide +kernel

/-! ## Witnesses: pre-emption, memory, barriers -/

/-- A context of the region with a register pending, so that a drain is not finished. -/
def sBusy : State := withPre (stOf 0 (cA.pend (.x 3))) (pre (.window 0) none)
def sIdle (st : PreStage) (ch : Option (Fin 3)) : State := withPre State.reset (pre st ch)

theorem witness_preemption :
    let s := sIdle (.window 0) none
    let q := s.choose 0 0 1 80
    let u := (q.2.addForced 1 (q.2.slotCtxs 0 0 1).length).modPre 0 0 1 fun p => { p with stage := .draining, choice := some q.1 }
    allTrue [s.preOf 0 0 1 == some (pre (.window 0) none) && 0 ≤ s.cyc 0, u.notFinished 0 0 1 q.1.val == false,
      (sIdle (.window 9) none).cyc 0 < 9, (sIdle .draining (some 0)).notFinished 0 0 1 0 == false] = true := by decide +kernel

/-- The engine of another context of the region is sending a tile, and the choice is to save. -/
def matA : MatCmd := { uid := 1, world := 1, lid := 1, dest := .x 3, op := .mring, item := 0, pc := 0, srmode := false, order := 0 }
def sSave : State :=
  (withPre sA { pre (.window 0) none with remain := 1000000 }).modMat 0 0 fun e => { e with sending := some matA, owner := some 1 }

theorem witness_preemption_busy :
    (sSave.notFinished 0 0 1 0 && sSave.notFinished 0 0 1 1 && sSave.preOf 0 0 1 == some { pre (.window 0) none with remain := 1000000 }) = true := by
  decide +kernel

def monA : Mon :=
  { addr := 0x2000100000, w64 := true, expect := 0, uid := 1, dest := .x 3, lim := 4, world := 1, nodes := [], deadline := some 0, acq := 0,
    ended := some 0, endedAt := 0, taker := none, order := 0 }

theorem witness_memoryEvents :
    let e := stE accA (.store .plain (leBytes 8 7)) 0
    let m := sA.modDie 0 fun d => { d with monitors := [(0, monA)], cyc := 1 }
    let r := { cA with retryAt := 1 }
    let w := { sB with moves := [moveA] }
    allTrue [cB.sbuf[0]? == some e && sB.mayDrain cB 0 e && (sB.pauser 1 (.entry 0) (sB.places accA)).isNone,
      w.mayDrain cB 0 e && w.pauser 1 (.entry 0) (w.places accA) == some moveA && w.hasPaused 1 (.entry 0) == false
        && w.listRoom (partAt (w.places accA) 0), r.retryAt != 0 && r.retryAt ≤ ((stOf 0 r).modDie 0 fun d => { d with cyc := 1 }).cyc 0,
      ((stOf 0 r).modDie 0 fun d => { d with cyc := 1 }).dies.all fun d => d.2.ni.outst.isEmpty && d.2.ni.sends.isEmpty,
      KMap.look (m.die 0).monitors 0 == some monA && monA.deadline == some 0 && 0 ≤ m.cyc 0 && monA.ended == some 0 && decide (monA.endedAt < m.cyc 0)] = true := by decide +kernel

theorem witness_drainedStore :
    let e := stE accA (.store .plain (leBytes 8 7)) 0
    allTrue [sB.ctx? 1 == some cB && cB.sbuf[0]? == some e && sB.mayDrain cB 0 e && e.loc != 2, e.acc.parts == [(0x2000100000, (leBytes 8 7).length)],
      cB.state != .retired && sB.mem.wf && !(isJob (sB.homeOf 0x2000100000)), 0x2000100000 / 64 == (0x2000100000 + 8 - 1) / 64,
      sB.mem.prot.isEmpty && sB.mem.raws.isEmpty && !(sB.anyPoison [(0x2000100000, 8)]) && sB.retry.isEmpty && sB.moves.isEmpty && sB.masters.isEmpty
        && sB.remoteMons.isEmpty && sB.ctxs.all (fun q => (sB.imageHits q.2 0x2000100000 8).isEmpty) && sB.liveRcbs.isEmpty] = true := by decide +kernel

/-- Every core of row 0 has arrived once. -/
def sRow : State := (List.range 16).foldl (fun (s : State) i => s.setLane 0 i .row ⟨1, 0, [0]⟩)
  (State.reset.modDie 0 fun d => { d with cyc := 12 })
def bwA (t : Option Nat) : BwWait := { uid := 1, dest := .x 3, core := 0, dir := .row, n := 1, acq := 0, deadline := t }
def noteA (e : Nat) : NbNotice := { world := 1, scope := .pkg, tag := 2, epoch := e, round := 0 }

theorem witness_barrierEvents :
    let w := fun (t : Nat) => sA.modDie 0 fun d => { d with bwWaits := [bwA (some t)] }
    let n := fun (e : Nat) => { sNb none with notices := [(0, noteA e)] }
    let inst := fun (s : State) => match s.takeNotice 0 (noteA 0) with
      | some t => (t.nbInst 0 1 .pkg 2).epoch
      | none => 99
    let run := fun (l : Bool) => { runA none with lost := l }
    allTrue [sRow.laneFull 0 .row (laneCores (.row 0)).2 && decide (sRow.laneDue 0 .row (laneCores (.row 0)).2 ≤ sRow.cyc 0),
      (sRow.modDie 0 fun d => { d with cyc := 11 }).cyc 0 < sRow.laneDue 0 .row (laneCores (.row 0)).2, State.reset.laneFull 0 .row (laneCores (.row 0)).2 == false,
      (w 0).bwOf 1 == some (0, bwA (some 0)) && 0 ≤ (w 0).cyc 0 && (w 0).releaseBy 0 (bwA (some 0)) 0 == false,
      sRow.releaseBy 0 (bwA (some 12)) 12, (w 1).bwOf 1 == some (0, bwA (some 1)) && (w 1).cyc 0 < 1, 0 < inst (n 0),
      ((n 1).takeNotice 0 (noteA 1)).isSome && (n 1).nbCrowded 0 (nbA none) == false,
      (sNb (some (run true))).nbOf 1 == some (0, nbA (some (run true)), run true) && (run true).lost,
      (sNb (some (run false))).nbOf 1 == some (0, nbA (some (run false)), run false) && !(run false).lost,
      (bwA none).deadline.all (fun t => decide (9 ≤ t)) && (bwA (some 9)).deadline.all (fun t => decide (9 ≤ t)), (bwA (some 8)).deadline == some 8, (sNb (some (runA (some 0)))).nbOf 1 == some (0, nbA (some (runA (some 0))), runA (some 0))] = true := by
  decide +kernel

/-! ## Witnesses: engines, fabric, bulk transfer -/

def vecA : VecCmd := { uid := 1, world := 1, seq := 0, dests := [.v 3], job := .done [] }
def ringMat (ring : Nat) (owner : Option Nat) (t : Option Nat) : State :=
  sA.modMat 0 0 fun e => { e with owner := owner, ring := ring, sending := some matA, latch := [{ fmt := .i8, jt := 0, cols := [] }], since := t }
def cpA (desc : BitVec 512) (member : BitVec 64) (off : Nat) : CopyCmd :=
  { by_ := .ctx { uid := 1, dest := .x 3 }, world := 1, lid := 1, region := 1, space := 0, coord := 0, seq := 0, item := 0, srmode := false,
    rlim := 16, order := 0, desc := desc, member := member, offset := off, wrote := 0, flags := 0, nan := none, groups := 0 }
def cpRun (ended : Option (BitVec 8 × Nat)) (member : BitVec 64) : State :=
  sA.modCpy 0 0 fun e => { e with run := some { num := 0, cmd := cpA 0 member 0, ended := ended, landing := false, sent := [], piece := 0, abort := none } }
def cpiN : Nat := cpyiDesc 0x2000100000 0x2000110000 8 .global .global
def refA : Refresh := { world := 1, master := 0, block := 0, view := none }

theorem witness_engines :
    let mat := fun (op : MatOp) (o : Option Nat) => sA.modMat 0 0 fun e => { e with queue := [{ matA with op := op }], owner := o }
    let fin := fun (r : MatRes) => match r with
      | .fin .. => true
      | _ => false
    let vec := sA.modCore 0 0 fun k => { k with vec := [vecA] }
    let m := (mat .mstat none).core 0 0
    let arr := (sA.modMat 0 0 fun e => { e with owner := some 1, array := some (matA, 0) }).modDie 0 fun d => { d with cyc := 65536 }
    let q := sA.modCpy 0 0 fun e => { e with queue := [cpA (BitVec.ofNat 512 cpiN) 0 0] }
    let late := (ringMat 4 (some 1) (some 0)).modDie 0 fun d => { d with cyc := 65536 }
    let v := sA.modDie 0 fun d => { d with refresh := [refA], quant := [qA], quantTurn := false }
    let u := sA.modDie 0 fun d => { d with refresh := [refA], quant := [qA], quantTurn := true }
    let one := { qA with desc := BitVec.ofNat 512 (qtN + 2 ^ 296) }
    allTrue [(vec.core 0 0).vec == [vecA] && vec.vecHeld 0 0 vecA == false, fin ((mat .mstat none).startMat { matA with op := .mstat } 0 0)
        && m.mat.array.isNone && m.mat.queue.length == 1 && m.mat.mayStart { matA with op := .mstat },
      (arr.core 0 0).mat.array == some (matA, 0) && (arr.core 0 0).mat.since.isNone && arr.ringLate 0 0 && (arr.core 0 0).mat.latch.isEmpty,
      (ringMat 1 (some 1) (some 0)).ringTakes 0 0 == some true && ((ringMat 1 (some 1) none).core 0 0).mat.sending == some matA
        && ((ringMat 1 (some 1) none).core 0 0).mat.latch.length == 1,
      late.ringTakes 0 0 == some false && late.ringLate 0 0 && late.ringMoves 0 0 == false && (late.core 0 0).mat.since == some 0 && (late.core 0 0).mat.sending == some matA,
      (q.core 0 0).cpy.run.isNone && ((q.core 0 0).cpy.next).isSome && (startEnd cpiN).isNone, (startEnd 1).isSome,
      ((cpRun none 0).core 0 0).cpy.run.map (fun r => !r.landing && r.ended.isNone && r.abort.isNone && (cpRun none 0).runWaits 0 r == false) == some true,
      ((cpRun (some (0x40, 0)) 0).core 0 0).cpy.run.map (fun r => r.end? == some (0x40, 0) && !r.landing
        && (cpRun (some (0x40, 0)) 0).runWaits 0 r == false) == some true,
      ((cpRun (some (0, 0)) 1).core 0 0).cpy.run.map (fun r => r.end? == some (0, 0) && r.cmd.member != 0) == some true,
      (v.die 0).refresh == [refA] && (v.die 0).quantTurn == false && v.refreshHeld 0 refA == false,
      (u.die 0).quant == [qA] && (u.die 0).quantTurn && u.quantWaits 0 == false && u.quantHeld qA == false && qA.over,
      one.over == false && u.quantHeld one == false] = true := by decide +kernel

/-- The next core of the ring belongs to a context of another world. -/
def sRing : State :=
  (({ sA with ctxs := sA.ctxs ++ [(2, { cA with slot := none, world := 2 })] }).modMat 0 0 fun e =>
    { e with owner := some 1, ring := 4, sending := some matA, latch := [{ fmt := .i8, jt := 0, cols := [] }] }).modMat 0 (nextCore 0 4) fun e =>
    { e with owner := some 2, ring := 4 }

/-- An `MRING` at the head of the queue of an engine whose latch holds a tile; the next engine has room. -/
def sSendTile : State :=
  (sA.modMat 0 0 fun e => { e with owner := some 1, ring := 4, queue := [matA], latch := [{ fmt := .i8, jt := 0, cols := [] }] }).modMat 0
    (nextCore 0 4) fun e => { e with owner := some 1, ring := 4 }

/-- An `MMA` at the head of the queue of an owned engine with an A stage and no tile. -/
def sMma : State := sA.modMat 0 0 fun e => { e with owner := some 1, n := 1, kind := .int32, astage := some (.i8, []), queue := [{ matA with op := .mma 1 }] }

theorem witness_ring : allTrue [(sRing.ringTakes 0 0).isNone, (match sSendTile.startMat matA 0 0 with
    | .send => true
    | _ => false), sSendTile.ringMoves 0 0, (match sMma.startMat { matA with op := .mma 1 } 0 0 with
    | .wait => true
    | _ => false) && (sMma.core 0 0).mat.mayStart { matA with op := .mma 1 }] = true := by decide +kernel

def reqA (op : FabOp) : FabReq := { srcPkg := 1, srcDie := 0, seq := 5, path := 0, job := 1, world := 1, off := 0, rlim := 4, die := 0, op := op }
def flagA (c : BitVec 32) : FabReq := reqA (.flag 8 0 .plain c 0 0 0)

theorem witness_fabric :
    let s := State.reset
    let seen : State := { s with router := { s.router with seen := [(senderKey 1 0, [(5, .refused)])] } }
    let withR := fun (r : FabReq) => ({ s with router := { s.router with inbound := s.router.inbound ++ [r] } } : State)
    let held := fun (r : FabReq) (t : Nat) => ({ s.modDie 0 fun d => { d with cyc := t } with
      router := { s.router with flags := [{ req := r, since := 0 }] } } : State)
    let out := fun (o : Outst) => sOut o
    let dead : State := { sOut (outA (.store 1)) with router := { s.router with lanes := (List.range 48).map fun p => (p, 2) } }
    allTrue [KMap.look (KMap.lookD seen.router.seen (senderKey 1 0) []) 5 == some .refused,
      (KMap.look (KMap.lookD s.router.seen (senderKey 1 0) []) 5).isNone && s.router.inbound.isEmpty, (withR (reqA .feget)).router.released (reqA .feget),
      (withR (flagA 1)).router.released (flagA 1) == false, (out (outA (.store 1))).outstOf 8 == some (outA (.store 1)),
      (outA (.store 1)).turned < (outA (.store 1)).req.rlim, ({ outA (.store 1) with turned := 1 }).req.rlim ≤ 1,
      (dead.livePath 0 1).isNone, ((out (outA (.store 1))).livePath 0 1).isSome && (outA (.store 1)).retryAt.isNone
        && (outA (.store 1)).sentAt + 8192 ≤ ((out (outA (.store 1))).modDie 0 fun d => { d with cyc := 8192 }).cyc 0,
      (held (flagA 0) 0).router.released (flagA 0), 0 + 65536 ≤ (held (flagA 1) 65536).cyc 0 && (held (flagA 1) 65536).router.flags.length == 1,
      KMap.lookD s.router.kept 0 0 + 1 < 3, 3 ≤ KMap.lookD [(0, 2)] 0 0 + 1, (stE accA .wbl 0).isMarker == false,
      ((stOf 0 (cF (.value 7))).ctx? 1).map (fun c => c.fills[0]?) == some (some (valFill (.value 7)))] = true := by decide +kernel

def rtsA : Rts := { srcPkg := 0, srcDie := 0, sendId := 8, world := 1, job := 0, tag := 0, len := 64, data := [] }
def tokA (came : Bool) : Token := { seq := 1, post := 1, off := 0, len := 64, got := 0, came := came, issued := 0 }
def sPost (p : Post) (toks : List Token) : State := sAR.modNi 0 fun n => { n with posts := [(1, p)], tokens := toks }

theorem witness_bulkEvents :
    let full := State.reset.modNi 0 fun n => { n with rts := List.replicate 256 rtsA }
    let g := sPost { postA with hit := some (hitA 0) } []
    let t := (g.die 0).ni.posts.foldl (fun (s : State) p => s.finishPost 0 p.1) g
    let e := fun (n : Nat) => (sPost { postA with hit := some (hitA n) } [tokA false]).modDie 0 fun d => { d with cyc := 4097 }
    let u := fun (n : Nat) => ((e n).modNi 0 fun k => { k with tokens := k.tokens.eraseIdx 0 }).modMatch 0 1 fun h =>
      { h with lapses := h.lapses + 1, again := h.again ++ [(0, 64)] }
    let lap := fun (n : Nat) => ((u n).post? 0 1).bind (fun p => p.hit) |>.map (·.lapses)
    let s := sA.modNi 0 fun n => { n with sends := [(1, sendA)] }
    let sok := { sendA with desc := BitVec.ofNat 512 (64 * 2 ^ 416 + 0x2000100000 * 2 ^ 448) }
    allTrue [rtsA.srcPkg == State.reset.pkg, ((sPost postA []).die 0).ni.postFor rtsA == some (1, postA), ((State.reset.die 0).ni.postFor rtsA).isNone
        && (State.reset.die 0).ni.rts.length < 256, ((full.die 0).ni.postFor rtsA).isNone && 256 ≤ (full.die 0).ni.rts.length,
      (t.die 0).ni.tokens.length < 1024 && (t.nextGrant 0).isSome && (hitA 0).again.isEmpty && (hitA 0).pkg != g.pkg && t.pkg == g.pkg,
      (tokA false).issued + 4096 < (e 0).cyc 0 && lap 0 == some 1, lap 2 == some 3, (tokA true).came, s.sendWhole 0 8 == false,
      (sA.die 0).ni.tokens.isEmpty, s.send? 0 (8 / 8) == some sendA && sendA.cancel.isNone && 0 + 64 ≤ blLen sendA.desc.toNat,
      (match s.bulkRead 0 sendA 0 64 with
        | .error _ => true
        | .ok _ => false), (match s.bulkRead 0 sok 0 64 with
        | .error _ => false
        | .ok _ => true)] = true := by decide +kernel

/-! ## Witnesses: Trust Controller, host, partitions, power -/

def sReady : State := { State.reset with boot := { Boot.empty with phase := 1 }, trust := { Trust.empty with sessions := [(1, false), (2, true)] } }
def rqA (ses : Option Nat) (slot : Nat) (p : List Byte) : SpdmReq := { session := ses, slot := slot, payload := p }

/-- `n` requests for evidence wait in the responder's queue. -/
def spdmQueued (n : Nat) : State := { sEvid with ctxs := KMap.mapVals sEvid.ctxs fun _ c => { c with fills := c.fills.take n }, boot := sReady.boot, nextOrder := 100 }

theorem witness_spdm : allTrue [sReady.boot.phase == 1 && sReady.responderLoad < 64 && sReady.trust.queue.isEmpty && !(sReady.evidBefore sReady.nextOrder),
    (spdmQueued 64).boot.phase == 1 && 64 ≤ (spdmQueued 64).responderLoad,
    (spdmQueued 1).responderLoad < 64 && (spdmQueued 1).evidBefore (((spdmQueued 1).trust.queue.map (·.order)).headD (spdmQueued 1).nextOrder),
    (rqA none 0 []).slot == 0 && measIndex (rqA none 0 []) == 0,
    sReady.measBlocks 1 != [] || measIndex (rqA none 0 [0]) == 0, sReady.trust.sessions.length < 4, KMap.look sReady.trust.sessions 1 == some false,
    KMap.look sReady.trust.sessions 2 == some true, ((15 : Byte) :: List.replicate 32 0).length == 33 && (15 : Byte).toNat < 16] = true := by
  decide +kernel

/-- A tree command of an opcode with a request extent at 0x2000110000, at the head of the doorbell queue. -/
def sTree (op b : Nat) : State :=
  { sReady with bells := [.tree 0x2000100000], mem := sReady.mem.setCells 0x2000100000 (leBytes 64 (op * 2 ^ 256 + b * 2 ^ 128)) }
def nodeA (cut : Bool) : Node :=
  { space := 1, addr := 0, len := 65536, back := [(0x2000100000, 65536)], rights := 0x1F, parent := none, off := 0x2000100000, depth := 1, gen := 0, birth := 0,
    rootAt := none, cut := cut }

theorem witness_hostTree :
    let ok := fun (op : Nat) (f : State → Nat → Bool) => match (sTree op 0x2000110000).treeCommand with
      | some (some n) => treeRes0 n == false && bits n 263 256 == op && f (sTree op 0x2000110000).bellDone n
      | _ => false
    let mv := fun (cut ended : Bool) => ({ State.reset with moves := [{ moveA with nodes := [1], cut := cut, ended := ended }],
                                                            nodes := [(1, nodeA cut)] } : State)
    let walk := ({ State.reset with walks := [{ sink := .nowhere, nodes := [1], retire := none }], nodes := [(1, nodeA true)] } : State)
    let grant := ({ State.reset with grants := [{ sink := .nowhere, nodes := [1], parts := [(0x2000100000, 65536)], value := 0 }] } : State)
    allTrue [ok 0xD0 fun t n => (t.hostRequest (bits n 191 128)).isSome && bits n 127 64 < 2 ^ 16,
      ok 0xD1 fun t n => (t.hostRequest (bits n 191 128)).isSome && bits n 127 64 < 2 ^ 16, ok 0xD2 fun _ _ => true, ok 0xD3 fun _ _ => true,
      ok 0xD5 fun _ _ => true, ok 0xD6 fun _ _ => true, ok 0xD4 fun _ n => !(treeOps.contains (bits n 263 256)),
      walk.walks.length == 1 && walk.settled [1] (walk.backOf [1]), grant.grants.length == 1 && grant.settled [1] [(0x2000100000, 65536)],
      (mv false false).moves.map (fun m => (m.ended, m.cut)) == [(false, false)],
      (mv true false).moves.map (fun m => (m.ended, m.cut)) == [(false, true)], (mv false true).moves.map (·.ended) == [true]] = true := by decide +kernel

/-- Partition 1 holds slice 1. -/
def sPart : State :=
  { sReady with pages := [(partPage + 48, 0xFFFFFFFFFFFFFFFD), (partPage + 64 + 24, 0x2000200000), (partPage + 64 + 48, 2)] }
def lendA (r : Option Nat) : Lend := { slice := 0, lender := 0, borrower := 1, deadline := 20000, recalled := r }
def worldA (t : Option (TearKind × BitVec 8)) : WorldSt :=
  { key := 0, secret := 0, job := 0, digest := 0, weight := 1, extents := [], dirty := [], dirtyLost := false, viewSerial := 0, tear := t,
    roots := [], regs := [1] }

theorem witness_partitionCommands :
    let cmd := fun (o a : Nat) => partOp (o * 2 ^ 56 + a) == o && partArgsOk (o * 2 ^ 56 + a)
    let named := withRegion { sPart with pages := (sPart.pages ++ [(partPage + 0x428, 1)]) }
    let scrub := { sPart with pages := (sPart.pages ++ [(partPage + 0x410, 0x2000100000), (partPage + 0x418, 4096)]) }
    allTrue [sReady.boot.phase == 1, !(partArgsOk 0), cmd 1 1, cmd 2 0x100, cmd 3 0, cmd 4 1, cmd 5 0, cmd 6 100, cmd 7 0,
      (match sPart.lendTest 0 1 with
        | .ok p => p == 0
        | .error _ => false), (match sPart.lendTest 1 1 with
        | .ok _ => false
        | .error _ => true), (sPart.lendOf 0).isNone, ({ sPart with lends := [lendA none] }.lendOf 0) == some (lendA none),
      KMap.has ({ sPart with worlds := [(1, worldA none)] }.worlds) 1, !(KMap.has sPart.worlds 1),
      scrub.pageWord (partPage + 0x410) % 4096 == 0 && scrub.pageWord (partPage + 0x418) == 4096 && scrub.oneRange 0x2000100000 4096 true,
      sPart.pageWord (partPage + 0x418) == 0, named.namedRegion == 1 && (named.region? 1).isSome, (sPart.region? sPart.namedRegion).isNone,
      (withPre named (pre (.window 10) none)).clusters.any fun k => k.2.pre.any fun p => p.region == 1] = true := by decide +kernel

theorem witness_partitionEvents :
    let l := { sPart with lends := [lendA (some 0)] }
    let c := fun (w : CycleWhy) => { sPart with cycling := [(0, w)] }
    let t := { sPart with worlds := [(1, worldA (some (.kill, 0)))] }
    allTrue [l.lendOf 0 == some (lendA (some 0)) && 0 ≤ l.cyc 0 && l.isCycling 0 == false,
      (c (.recall 0)).cycling.find? (fun q => q.1 == 0) == some (0, .recall 0), (c (.reset 0)).cycling.find? (fun q => q.1 == 0) == some (0, .reset 0)
        && (c (.reset 0)).partBusy 0 == false && (c (.reset 0)).lends.isEmpty,
      ({ sPart with scrubs := [{ base := 0x2000100000, len := 4096, cmd := true, kept := [] }] }).scrubs.length == 1,
      KMap.look t.worlds 1 == some (worldA (some (.kill, 0))) && t.lastWrites 1, pageKind 0x3000040000 == some .privatePage,
      sPart.tdiDrops partPage == false, ({ sPart with boot := { sPart.boot with tdi := .locked } } : State).tdiDrops partPage,
      pageKind 0x3000100008 == some .shared && 0x3000100008 % 8 == 0] = true := by decide +kernel

theorem witness_power :
    let q := fun (v : BitVec 64) (o : Nat) (p : Fin 4) => ({ State.reset with sysReqs := [(o, v)], boot := { Boot.empty with phase := p } } : State)
    allTrue [719 < (railRange .vcore).1, (railRange .vcore).2 < 801, (railRange .vaux).1 ≤ 3130 && 3470 ≤ (railRange .vaux).2,
      880 < (881 : BitVec 64).toNat, (839 : BitVec 64).toNat < 840 && State.reset.temps.isEmpty, 840 ≤ (840 : BitVec 64).toNat && (880 : BitVec 64).toNat ≤ 880,
      State.reset.boot.rails.isEmpty, ({ State.reset with boot := { Boot.empty with rails := [.vcore] } } : State).boot.rails != [], (q 1 8 1).sysReqs == [(8, 1)] && (q 1 8 1).worldOpenNow == false,
      ({ q 1 8 1 with worlds := [(1, worldA none)] }).worldOpenNow, (q 1 8 2).boot.phase != 1, (q 2 8 3).boot.phase == 3 && (q 2 8 3).sysReqs == [(8, 2)],
      (q 1 0x18 2).boot.phase == 2 && (q 1 0x18 2).sysReqs == [(0x18, 1)],
      (q 1 0x18 1).boot.phase != 2] = true := by decide +kernel

/-! ## Witnesses: registers, guard, targets, formats, the machine -/

theorem witness_registers : (KMap.sorted cA.x && KMap.sorted cA.v) = true := by decide +kernel

theorem witness_guard :
    let c := { cA with pFull := 0xFD }
    let i : Instr := .nop { z with pred := 1 }
    allTrue [!(c.isFull (.p 1)) && (i.hints.map (·.1.pred)) == some 1 && privilegedFor i c == false, cA.slot.isSome && cA.isFull (.p 1)
        && guardTrue { z with pred := 1 } cA == false, privilegedFor (.swrite z .arCause (.i 0)) cA && (encode (.swrite z .arCause (.i 0))).isSome,
      privilegedFor (.yield z) (ctxOn 6), privilegedFor (.chmask z false (.i 62)) cA] = true := by decide +kernel

/-- A word that decodes to no instruction is fetched. -/
def sIll : State := { sA with mem := sA.mem.setCells vaultBase (oneBlock (0x0F * 2 ^ 88)) }

theorem witness_guard_decode :
    ((sIll.boundaryFault cA).isNone && (match sIll.fetch cA with
      | .word _ w _ _ => (match decode w with
        | .error _ => true
        | .ok _ => false)
      | _ => false)) = true := by decide +kernel

theorem witness_operandRules :
    let e := cA.pend (.x 3)
    let full := { e with xFull := cA.xFull }
    let pois := cA.setPois (.x 3)
    allTrue [(stOf 0 e).ctx? 1 == some e && e.isFull (.p 0) && guardTrue z e, (namedLines [.x 3] ++ namedLines [.x 4]).all fun n => KMap.has e.lines n,
      !(e.isFull (.x 3)), pois.isFull (.x 3) && pois.isPois (.x 3), full.isFull (.x 3) && !(full.isPois (.x 3)) && full.isPend (.x 3)] = true := by decide +kernel

theorem witness_targets : allTrue [
    rdy sA cA z [] [] && !(badPc cA.pc), isErr (sA.resolveGlobal 1 0 false ((relTarget cA.pc 0x3FFFFF).toNat / 64 * 64) 64 64 .ex),
    !(isErr (sA.resolveGlobal 1 0 false ((relTarget cA.pc 5).toNat / 64 * 64) 64 64 .ex)), (0xFFFFFFFFFFFFFFC4 : BitVec 64).toNat % 8 == 4,
    (0xFFFFFFFFFFFFFFC3 : BitVec 64).toNat % 8 < 4] = true := by decide +kernel

theorem witness_encode : (Instr.wf (.vcvt z .e4m3 (vr 1) (vr 2) 0x146) && (encode (.vcvt z .e4m3 (vr 1) (vr 2) 0x146)).isSome) = true := by decide +kernel

theorem witness_conversion : allTrue [isNanV (unpack .f16 0x7E01), !(isNanV (unpack .f16 0x7C00)), fmtInf .f16 == 0x7C00, isFloat .bf16, !(isFloat .i8), 0xFFFF < 2 ^ ElemType.f16.bits] = true := by decide +kernel

/-- The step after a word is placed: an issue cycle that chooses the placed context, which fetches the word. -/
def sStep : State := State.reset.withFetchWord 96 0x1001000030000010007FFFFB

theorem witness_step :
    (match sStep.agenda, exec (.issueCycle 0 0) (readyOnly 0 0 { sStep with agenda := [] }) with
      | [.event (.issueCycle 0 0)], .next t => t.issuing != 0 && (match t.ctx? t.issuing with
        | some c => (t.boundaryFault c).isNone && (match t.fetch c with
          | .word u w e bs => (match decode w with
            | .ok i => (let v := u.modCtx u.issuing fun c => { c with codeEnd := e, block := some (c.pc.toNat / 64 * 64, bs) }
              (match exec i v with
                | .next x => x.didIssue t.issuing
                | _ => false) && (match v.ctx? v.issuing with
                | some y => (v.lendOf (clKey y.die.val (clusterOf y.core.val))).isNone
                | none => false))
            | .error _ => false)
          | _ => false)
        | none => false)
      | _, _ => false) = true := by decide +kernel

/-- Partition 1, which the region belongs to, has borrowed slice 0. -/
def sLent : State := withRegion { stOf 0 cA with pages := sPart.pages, lends := [lendA none] }

theorem witness_lent_owner : allTrue [sLent.lendOf 0 == some (lendA none) && sLent.partOfRegion 1 == (lendA none).borrower, engineShare 0xA2 != 0,
    engineShare 0x10 == 0, sA.partOfRegion 1 != (lendA none).borrower] = true := by decide +kernel

/-- The command fits whatever the free time of a command is: the saving does. -/
theorem witness_lent_fits : (sLent.lentFits 1 0 20000 0 1 true).1 = true := by
  show (_ || decide _) = true
  rw [Bool.or_eq_true]
  exact Or.inr (by decide +kernel)

theorem witness_issue :
    ((match exec (.issueCycle 0 0) sA with
      | .next _ => true
      | _ => false) && (State.reset.readySlots 0 0).isEmpty && chooseSlot [1, 3] [] (fun _ => 0) (fun _ => none) != none) = true := by decide +kernel

theorem witness_memory : (State.reset.mem.wf && State.reset.isPlain 1 0x2000100000) = true := by decide +kernel

/-! ## Witnesses: further clauses of the statements above -/

theorem witness_fcvt_sr : allTrue [neverInexact .f16 .f32, !(neverInexact .f32 .e4m3), (mv sA).scalarHeld cA == false,
    rdy sA cA z [xSrc (xr 1)] [.x 3], stippleLane 0 0 == 0] = true := by decide +kernel

/-- Entry 0 of the export table gives world 1 of job 3 the first page at 0x2000100000, for every use. -/
def sExp : State :=
  { sJ with pages := sJ.pages ++ [(exportPage, 0x10003), (exportPage + 32, 0x1F), (exportPage + 48, 0x10000),
      (exportPage + 56, 0x2000100000)] }

theorem witness_suspend_job :
    let far := inJob sA
    let u := fun (acc : Acc) => (((mv far).suspendable 1 cA).map fun t =>
      ((t.giveCxid 1 3).suspendFor 1 (.word (BitVec.ofNat 64 acc.va))).ctx? 1)
    allTrue [okWith ((mv sExp).resolve cJ .global (formAddr cJ (at_ 16) 8) 8 .rd false .data) fun acc =>
        let a := partAt acc.parts 0
        (mv sExp).homeOf a == .job sExp.pkg.toNat && (mv sExp).admits (mv sExp).job 1 (jobPlace a).2 8 .rd == some 0x2000100000
          && !((mv sExp).untagged 0x2000100000) && rdy sExp cJ z [memSrc (at_ 16)] [.x 3] && ((mv sExp).suspendable 1 cJ).isSome,
      okWith ((mv sJ).resolve cJ .global (formAddr cJ (at_ 16) 8) 8 .rd false .data) fun acc =>
        (mv sJ).homeOf (partAt acc.parts 0) == .job sJ.pkg.toNat
          && ((mv sJ).admits (mv sJ).job 1 (jobPlace (partAt acc.parts 0)).2 8 .rd).isNone,
      okWith ((mv far).resolve cA .global (formAddr cA (at_ 6) 8) 8 .rd false .data) fun acc =>
        (mv far).homeOf (partAt acc.parts 0) == .job 1 && far.pkg.toNat != 1 && !cA.loadsHeld && (mv far).lockReady cA acc
          && (match u acc with
            | some (some k) => k.state == .suspended
            | _ => false)] = true := by decide +kernel

theorem witness_wakea_slot6 :
    let c := ctxOn 6
    (inSlot6 c && rdy s6 c z (memSrc (at_ 4) :: xiSrcs (.i 1)) [.x 3] && okWith (acc? s6 c (at_ 4) 8 .rd false .atomic) fun acc =>
      (mv s6).released 1 c (((mv s6).placeHome acc).scope 0 0) && quiet s6 acc && goes s6 acc .rd == 0) = true := by decide +kernel

/-- No room for a monitor entry, and the word in another package. -/
theorem witness_waita_far_refused :
    let s := inJob sA
    (rdy s cA z (xSrc (xr 3) :: memSrc (at_ 6) :: xiSrcs (.i 0)) [.x 3] && okWith (acc? s cA (at_ 6) 8 .rd false .atomic) fun acc =>
      (mv s).lockReady cA acc && quiet s acc && goes s acc .rd == 2 && !((mv s).noJob 1) && ((mv s).monRefused cA).isSome)
      = true := by decide +kernel

theorem witness_phaser_tables :
    let full := sPh.modDie 0 fun d => { d with phasers := (List.range 1024).map fun i => (i, { phA with lim := 9 }) }
    let m := fun (n : Fin 64) (f : Phaser → Member → Bool) => match (mv sPh).memberOf 1 (xVal cPh (xr n)) with
      | some (p, k) => f p k
      | none => false
    allTrue [(mv full).livePh 1 < (mv full).limPh 1 && (freeKey (full.die 0).phasers 1024).isNone && rdy full cPh z [] [.x 3],
      m 14 fun p k => k.mode == .sw && (match signal p k with
        | .error _ => true
        | .ok _ => false),
      m 12 fun _ k => k.mode != .sw, m 11 fun _ k => k.mode == .sig] = true := by decide +kernel

/-- The member table of die 0 is full. -/
def sMemFull : State := sPh.modDie 0 fun d => { d with members := List.replicate 16384 (0, memA .sw 0) }

theorem witness_member_full : freeKey (sMemFull.die 0).members 16384 = none := by
  show (if 16384 ≤ (List.replicate 16384 ((0 : Nat), memA .sw 0)).length then none else _) = none
  rw [List.length_replicate]
  rfl

theorem witness_member_full_phaser : ((mv sMemFull).phaserOf 1 (xVal cPh (xr 11))).isSome = true := by
  decide +kernel

theorem witness_phaser_ends :
    let p : Phaser := { phA with touched := true, arr0 := 1 }
    allTrue [(memA .sig 0).mode != .wait && (memA .sig 1).sp == phA.ph + 1 && (memA .sig 2).sp == phA.ph + 2,
      ({ p with arr1 := 1 } : Phaser).arr0 == p.need0 && ({ p with arr1 := 1 } : Phaser).arr1 == p.need1,
      ({ p with arr1 := 1, need1 := 2 } : Phaser).arr1 != 0, joinPhaser p 0 .sig == ({ p with need1 := 2 }, { memA .sig 1 with wp := 1 })] = true := by
  decide +kernel

theorem witness_matrix_addresses :
    let at' := fun (n : Nat) => 2 ^ 30 ≤ n ∨ n / 2 ^ 24 % 8 = 7 ∨ 5 ≤ n / 2 ^ 27 % 8
    let w := xVal cM (xr 12)
    allTrue [decide (at' (7 * 2 ^ 24)), decide (at' (5 * 2 ^ 27)), !(decide (at' (2 ^ 24))), !(decide (at' (4 * 2 ^ 27))),
      ((mv sM).chunkFault cM 0 (layAll false 65536 w) (layChunk w) .rd).isSome,
      ((mv sM).chunkFault cM 0 (layAll false (2 ^ 20 - 64) w) (layChunk w) .rd).isSome,
      ((mv sM).chunkFault cM 0 ((List.range 16).map fun i => 65536 + i * layStride (xVal cM (xr 15))) 32 .wr).isSome,
      ((mv sM).chunkFault cM 65504 ((List.range 16).map fun i => 65504 + i * 0) 64 .wr).isSome] = true := by decide +kernel

theorem witness_engine_units :
    let tile : Tile := { fmt := .i8, jt := 0, cols := [] }
    let wait := sMma.modMat 0 0 fun e => { e with array := some (matA, 0), latch := [tile] }
    let load := sA.modMat 0 0 fun e => { e with owner := some 1, array := some (matA, 0), queue := [{ matA with op := .mlda 0 0 }] }
    let ab := cpRun (some (0x44, 8)) 0
    allTrue [(wait.core 0 0).mat.array == some (matA, 0) && (wait.core 0 0).mat.latch != [],
      (load.core 0 0).mat.latch == [] && (load.core 0 0).mat.queue.length == 1 && (load.core 0 0).mat.mayStart { matA with op := .mlda 0 0 },
      (ab.core 0 0).cpy.run.map (fun r => r.end? == some (0x44, 8) && !r.landing && ab.runWaits 0 r == false) == some true] = true := by
  decide +kernel

theorem witness_copy_faults :
    allTrue [(formFault .global (formAddr cA (at_ 4) 8) 8).isNone && (formFault .global (formAddr cA (at_ 1) 8) 8).isSome,
      rdy sA cA z [xSrc (xr 1), memSrc (at_ 1), memSrc (at_ 4)] [.x 1], rdy sA cA z [xSrc (xr 1), memSrc (at_ 4), memSrc (at_ 1)] [.x 1]]
      = true := by decide +kernel

theorem witness_evid_order :
    let r := (xVal cA (xr 1)).toNat
    allTrue [r % 64 != 0 && readsAt sA cA (at_ 4) 64 fun _ _ => true,
      rdy sA cA z [memSrc (at_ 7), xSrc (xr 1)] [.x 3] && isErr ((mv sA).resolve cA .global (formAddr cA (at_ 7) 64) 64 .rd false .block),
      (ctxOn 6).slot == some 6] = true := by decide +kernel

/-- A part that is ready, with its links up, and what its router holds. -/
def sFab (f : Router → Router) : State := { sReady with router := f sReady.router }

theorem witness_fabric_receive :
    let r := reqA .feget
    let known := fun (s : State) => (s.router.inbound ++ s.router.flags.map (·.req)).any fun x => reqIs x r.srcPkg r.srcDie r.seq
    let full := sFab fun k => { k with inbound := List.replicate 512 { r with seq := 6 } }
    let held := sFab fun k => { k with flags := [{ req := r, since := 0 }] }
    let seen := sFab fun k => { k with seen := [(senderKey 1 0, [(5, .refused)])] }
    allTrue [State.reset.boot.phase != 1 && sReady.boot.phase == 1, !(known (sFab id)) && (sFab id).niQueue r.die == 0 && (sFab id).router.released r,
      !(known full) && decide (512 ≤ full.niQueue r.die), known held,
      KMap.look (KMap.lookD seen.router.seen (senderKey 1 0) []) 5 == some .refused,
      (sFab id).router.released (flagA 1) == false && (KMap.look (KMap.lookD (sFab id).router.seen (senderKey 1 0) []) 5).isNone] = true := by
  decide +kernel

theorem witness_fabric_resend :
    let o := outA (.store 1)
    let at' := fun (o : Outst) (n : Nat) => (sOut o).modDie 0 fun d => { d with cyc := n }
    let gone : State := { sOut { o with via := some { path := 0, port := some 3, detour := false } } with
      router := { State.reset.router with lanes := [(3, 2)] } }
    allTrue [((at' o 8192).bestPath 0 1).isSome && (at' o 8192).outstOf 8 == some o && decide (o.sentAt + 8192 ≤ (at' o 8192).cyc 0)
        && o.retryAt.isNone && !o.admitted && decide (o.resent < 4), decide (4 ≤ ({ o with resent := 4 } : Outst).resent),
      ((at' o 0).bestPath 0 1).isSome && decide ((at' o 0).cyc 0 < o.sentAt + 8192) && (at' o 0).routeDead o.via == false,
      (gone.bestPath 0 1).isSome && (gone.outstOf 8).all fun o => gone.routeDead o.via,
      ({ o with admitted := true } : Outst).admitted,
      (({ sOut o with router := { State.reset.router with lanes := (List.range 48).map fun p => (p, 2) } } : State).bestPath 0 1).isNone,
      decide (o.turned < o.req.rlim), decide (({ o with turned := 1 } : Outst).req.rlim ≤ 1)] = true := by decide +kernel

theorem witness_crossbar :
    let m := { sA with net := [msgA 0 false, msgA 62 true] }
    let later := { cB with sbuf := [{ stE accA (.marker 0) 0 with acc := noAcc 1 }, stE accA (.store .plain (leBytes 8 7)) 1] }
    let snd := sA.modNi 0 fun n => { n with sends := [(1, sendA)] }
    allTrue [(valFill (.value 7)).src.carried, !(FillSrc.result 0).carried, sB.mayDrain cB 0 (stE accA (.store .plain (leBytes 8 7)) 0),
      (later.sbuf[1]?).all fun e => (stOf 0 later).mayDrain later 1 e == false, (sOut (outA (.store 1))).outstOf 8 == some (outA (.store 1)),
      m.net[0]? == some (msgA 0 false) && (msgA 0 false).gen == false, m.net[1]? == some (msgA 62 true) && (msgA 62 true).gen && (msgA 62 true).chan == 62,
      snd.send? 0 1 == some sendA] = true := by decide +kernel

theorem witness_bulk_jobs :
    let r := { rtsA with srcPkg := 1, job := 3 }
    let n := fun (f : Ni → Ni) => (inJob sReady).modNi 0 f
    let c := { sendA with cancel := some { uid := 1, dest := .x 3 }, desc := BitVec.ofNat 512 (64 * 2 ^ 416 + 2 ^ 306) }
    let sc := sA.modNi 0 fun k => { k with sends := [(1, c)] }
    allTrue [r.srcPkg != sReady.pkg && sReady.boot.phase == 1 && sReady.job == 0, (inJob sReady).boot.phase == 1 && (inJob sReady).job == 3 && r.job.toNat == 3,
      ({ r with job := 4 } : Rts).job.toNat != (inJob sReady).job, ((n fun k => { k with posts := [(1, { postA with desc := BitVec.ofNat 512 (64 * 2 ^ 416 + 2 ^ 306) })] }).die 0).ni.postFor r != none,
      (((n id).die 0).ni.postFor r).isNone, decide (256 ≤ ((n fun k => { k with rts := List.replicate 256 rtsA }).die 0).ni.rts.length),
      sc.send? 0 1 == some c && c.cancel.isSome && blPkg c.desc.toNat != sA.pkg.toNat,
      (n fun k => { k with rts := [r] }).sendWhole 0 (sendName 1 0 8) == false && (n fun k => { k with rts := [r] }).knowsSend 0 (sendName 1 0 8),
      (n id).knowsSend 0 (sendName 1 0 8) == false] = true := by decide +kernel

theorem witness_tree_bad_space : (match (sTree 0xD0 0x2000110000).treeCommand with
    | some (some n) => ((sTree 0xD0 0x2000110000).bellDone.hostRequest (bits n 191 128)).isSome
    | _ => false) = true ∧ 2 ^ 16 ≤ bits (65536 * 2 ^ 64) 127 64 := by decide +kernel

theorem witness_recall_deadline :
    let l := withPre { sPart with lends := [lendA (some 0)] } { pre .draining (some 1) with owners := [.recall 0] }
    (l.isCycling 0 == false && ((l.cluster 0 0).pre.filter fun p => p.stage != .out && p.owners.contains (.recall 0)).length == 1
      && decide (0 ≤ l.cyc 0)) = true := by decide +kernel

/-! ## Instructions on small states: the expected values are the manual's worked examples, or hand calculations from its rules -/

/-- The context after one instruction meets the test. -/
def after' (i : Instr) (s : State) (f : Context → Bool) : Bool :=
  match exec i s with
  | .next t => (match t.ctx? 1 with
    | some c => f c
    | none => false)
  | _ => false
/-- The state after one instruction meets the test. -/
def left (i : Instr) (s : State) (f : State → Bool) : Bool :=
  match exec i s with
  | .next t => f t
  | _ => false
/-- A context with these x registers, at the start of the first vault. -/
def withX (l : KMap (BitVec 64)) : State := stOf 0 { cA with x := l }
/-- The value of the first fill on its way. -/
def fillIs (c : Context) (v : BitVec 64) (fl : BitVec 16) : Bool :=
  match c.fills with
  | f :: _ => f.src == .value (v.setWidth 1024) && f.flags == fl
  | [] => false

/-- Worked example of chapter 03: the 32-bit sum saturates, and the upper half of x3 is zero. -/
theorem test_add_saturates : after' (.add z .w32 .sat 3 (.x (xr 1)) (.i 0x3FFFFB)) (withX [(1, 0x80000002)])
    (fun c => c.getX 3 == 0x80000000 && c.flags == 0 && c.pc == 0x2000000001) = true := by decide +kernel
/-- Worked example of chapter 03: the carry out of the low word. -/
theorem test_addc_carry : after' (.addc z .w64 16 (.x (xr 10)) (.x (xr 12))) (withX [(10, 0xFFFFFFFFFFFFFFFF), (12, 2)])
    (fun c => c.getX 16 == 1) = true := by decide +kernel
/-- Worked example of chapter 03: a field of 8 bits at 23, sign-extended. -/
theorem test_bext_signed : after' (.bext z true 8 (.x (xr 6)) (.i 535)) (withX [(6, 0x40490FDB)])
    (fun c => c.getX 8 == 0xFFFFFFFFFFFFFF80) = true := by decide +kernel
/-- R68: a shift amount is taken modulo the width. -/
theorem test_shl_by_width : after' (.shl z .w32 3 (.x (xr 1)) (.i 33)) (withX [(1, 0x80000001)]) (fun c => c.getX 3 == 2) = true := by
  decide +kernel
/-- R69: division by zero fills MAXU with flag div0. -/
theorem test_div_zero : after' (.div z .w32 true 3 (.x (xr 1)) (.i 0)) (withX [(1, 7)]) (fun c => fillIs c 0xFFFFFFFF 2 && c.isPend (.x 3)) = true := by
  decide +kernel
/-- R69: the quotient truncates towards zero. -/
theorem test_rem_sign : after' (.rem z .w64 false 3 (.x (xr 1)) (.i 2)) (withX [(1, 0xFFFFFFFFFFFFFFF9)])
    (fun c => fillIs c 0xFFFFFFFFFFFFFFFF 0) = true := by decide +kernel
/-- R52: a write to x0 is discarded. -/
theorem test_mov_x0 : after' (.mov z (.x 0 (.i 5))) sA (fun c => c.getX 0 == 0 && c.isFull (.x 0)) = true := by decide +kernel
/-- R73: an unsigned comparison of a source that is negative as a signed number. -/
theorem test_cmp_ltu : after' (.cmp z .w64 .ltu 1 (.x (xr 2)) (.x (xr 1))) sA (fun c => !(c.getP 1)) = true := by decide +kernel
/-- R93: `LOOP` decrements its register and branches while it is not zero. -/
theorem test_loop : after' (.loop z (xr 1) 2) sA (fun c => c.getX 1 == 4 && c.pc == 0x2000000002) = true := by decide +kernel
/-- R32, R93: the link of a call in the last slot of a block is the first slot of the next. -/
theorem test_call_link : after' (.call z 3 (.ind (xr 4))) (stOf 0 { cA with pc := 0x2000000004 })
    (fun c => c.getX 3 == 0x2000000040 && c.pc == 0x2000100000) = true := by decide +kernel
/-- R89, R97: `TRAP 31` is a precise fault of cause 0x3F: trap_pc is its own PC, and the continuation leaves its slot. -/
theorem test_trap : after' (.trap z 31) sA8 (fun c => c.state == .faulted && c.cause == 0x3F && c.trapPc == 0x2000000000 && c.slot == none) = true := by
  decide +kernel
/-- R54: an empty source with bit [18] set faults with empty_operand. -/
theorem test_empty_operand : after' (.mov z (.x 3 (.x ⟨4, true⟩))) (stOf 0 { cA with record := 0x2000110000, image := 0x2000110040, xFull := 0xFFFFFFFFFFFFFFEF })
    (fun c => c.state == .faulted && c.cause == 2) = true := by decide +kernel
/-- R37: a false guard leaves the destination. -/
theorem test_guard_false : after' (.mov { z with neg := true } (.x 1 (.i 9))) sA (fun c => c.getX 1 == 5 && c.pc == 0x2000000001) = true := by
  decide +kernel

/-- R178: a load of the same die finds the stored bytes, zero-extended. -/
theorem test_ld_same_die : after' (.ld { z with loc := 2 } .b16 .plain 3 (at_ 4)) { sA with mem := sA.mem.setCells 0x2000100000 [0x34, 0x82, 0xFF] }
    (fun c => fillIs c 0x8234 0) = true := by decide +kernel
/-- R176: a store waits in the buffer; it reaches memory when it drains, least significant byte first. -/
theorem test_store_drains : left (.storeBufferDrain 1 0) sB (fun t => t.mem.cell 0x2000100000 == 7 && t.mem.cell 0x2000100001 == 0
    && ((t.ctx? 1).map fun c => c.sbuf.length) == some 0) = true := by decide +kernel
/-- R176: the store itself leaves memory. -/
theorem test_st_buffers : left (.st z .b32 .plain (at_ 4) (.x (xr 1))) sA (fun t => t.mem.cell 0x2000100000 == 0
    && ((t.ctx? 1).map fun c => c.sbuf.length) == some 1) = true := by decide +kernel
/-- R167: `LD.consume` takes a full word and leaves it empty. -/
theorem test_ld_consume : left (.ld z .b64 .consume 3 (at_ 4)) { sA with mem := sA.mem.setCells 0x2000100000 [9] }
    (fun t => !(t.isFull 0x2000100000) && ((t.ctx? 1).map fun c => fillIs c 9 0) == some true) = true := by decide +kernel
/-- R201: `AADD.32` wraps within its width and fills with the old value. -/
theorem test_aadd : left (.aadd z .w32 3 (at_ 4) (.i 1)) { sA with mem := sA.mem.setCells 0x2000100000 [0xFF, 0xFF, 0xFF, 0xFF] }
    (fun t => t.mem.cell 0x2000100000 == 0 && t.mem.cell 0x2000100004 == 0 && ((t.ctx? 1).map fun c => fillIs c 0xFFFFFFFF 0) == some true) = true := by
  decide +kernel
/-- R201: `ACAS` leaves a word that is not the expected one. -/
theorem test_acas_differs : left (.acas z .w64 (xr 1) (at_ 4) (.i 1)) sA (fun t => t.mem.cell 0x2000100000 == 0
    && ((t.ctx? 1).map fun c => fillIs c 0 0) == some true) = true := by decide +kernel
/-- R213, R215: a signal of the only signalling member ends the phase; it fills with the phase that it signalled. -/
theorem test_phsig : left (.phsig z 3 (xr 11)) (sPh.modDie 0 fun d => { d with phasers := [(0, phA)], members := [(0, memA .sig 0)] })
    (fun t => (KMap.look (t.die 0).phasers 0).map (fun p => p.ph) == some 1) = true := by decide +kernel
/-- R226: the last arrival of a row releases its sixteen cores. -/
theorem test_row_release : left (.barrierRelease 0 (.row 0)) sRow (fun t => (t.lane 0 15 .row).e == 1 && (t.lane 0 16 .row).e == 0) = true := by
  decide +kernel
/-- R84: a message to a core without a table is refused. -/
theorem test_message_no_table : left (.messageArrival 0) { sA with net := [{ msgA 0 false with status := some { uid := 1, dest := .x 3 } }] }
    (fun t => t.net.isEmpty && (t.core 0 0).queue.isEmpty) = true := by decide +kernel

/-- The table of chapter 15: 20.5 to E4M3 under RNE and under SR, 500 to E4M3, 2^-25 to FP16, saturating. -/
theorem test_convert_table : allTrue [convert .f32 .e4m3 .rne true 0 0x41A40000 == (0x5A, 0x10), convert .f32 .e4m3 .sr true 0x9000 0x41A40000 == (0x5A, 0x10),
    convert .f32 .e4m3 .sr true 0xD000 0x41A40000 == (0x5B, 0x10), convert .f32 .e4m3 .rne true 0 0x43FA0000 == (0x7E, 0x14),
    convert .f32 .f16 .rne true 0 0x33000000 == (0, 0x18), convert .f32 .e4m3 .rne false 0 0x43FA0000 == (0x7F, 0x34),
    convert .f32 .e4m3 .rne false 0 0x43E60000 == (0x7E, 0x10)] = true := by decide +kernel
/-- R254: 1.5 + 2.25 is 3.75 in FP32, with no flag. -/
theorem test_fadd : after' (.fadd z .f32 .rne 3 (xr 1) (xr 2)) (withX [(1, 0x3FC00000), (2, 0x40100000)]) (fun c => fillIs c 0x40700000 0) = true := by
  decide +kernel
/-- R259, R263: INT8 lanes wrap, each by itself. -/
theorem test_vadd_lanes : left (.vadd z .i8 3 (vr 1) (.i 1)) (stOf 0 { cA with v := [(1, 0x7FFF)] })
    (fun t => (t.core 0 0).vec.map (fun k => match k.job with
      | .done [r] => r.value % 2 ^ 24
      | _ => 0) == [0x018000]) = true := by decide +kernel

/-- R22, R30, R114: a placed word is fetched, decoded and executed by one step. -/
theorem test_step_add : (match step sStep with
    | .next t => (t.ctx? 1).map (fun c => c.getX 3) == some 0xFFFFFFFB
    | _ => false) = true := by decide +kernel
/-- An event is a step of its own: a reading above 110 degrees resets the package with cause 2. -/
theorem test_step_event : (match step { State.reset with agenda := [.event (.thermalReading 0 881)] } with
    | .next t => t.boot.cause == 2 && t.boot.phase == 0
    | _ => false) = true := by decide +kernel

end Sys2Proof.Tests
end

section
/-! Proofs about memory where no cipher stands between a world and the stored bytes (R372): what a write leaves, and O60. -/

namespace Sys2Proof.Machine

/-! ## Bytes that no cipher covers (R372) -/

/-- Writing listed bytes changes nothing else of the memory. -/
theorem Memory.setCells_eq (m : Memory) (a : Nat) (bs : List Byte) :
    m.setCells a bs = { m with bytes := (m.setCells a bs).bytes } := by
  induction bs generalizing m a with
  | nil => rfl
  | cons b bs ih => exact ih (m.setCell a b) (a + 1)

theorem Memory.setCells_append (m : Memory) (a : Nat) (xs ys : List Byte) :
    m.setCells a (xs ++ ys) = (m.setCells a xs).setCells (a + xs.length) ys := by
  induction xs generalizing m a with
  | nil => rfl
  | cons x xs ih =>
    rw [List.cons_append, Memory.setCells, ih, Memory.setCells, List.length_cons, Nat.add_right_comm, Nat.add_assoc]

/-- Listed bytes and kept versions (R374) do not meet. -/
theorem Memory.setCells_vers (m : Memory) (v : KMap (List (List Byte))) (a : Nat) (bs : List Byte) :
    ({ m with vers := v } : Memory).setCells a bs = { m.setCells a bs with vers := v } := by
  induction bs generalizing m a with
  | nil => rfl
  | cons b bs ih => exact ih (m.setCell a b) (a + 1)

/-- The state after bytes were stored in place from `a` on, with the kept versions `v`. -/
def State.storedAt (s : State) (a : Nat) (bs : List Byte) (v : KMap (List (List Byte))) : State :=
  { s with mem := { s.mem.setCells a bs with vers := v } }

theorem State.storedAt_storedAt (s : State) (a : Nat) (xs ys : List Byte) (v v' : KMap (List (List Byte))) :
    (s.storedAt a xs v).storedAt (a + xs.length) ys v' = s.storedAt a (xs ++ ys) v' := by
  simp only [State.storedAt, Memory.setCells_append, Memory.setCells_vers]

/-- Where no cipher stands depends on owners and keys, on the lines stored raw and on the layout of memory: not on bytes. -/
@[simp] theorem State.isPlain_storedAt (s : State) (a : Nat) (bs : List Byte) (v : KMap (List (List Byte))) (w b : Nat) :
    (s.storedAt a bs v).isPlain w b = s.isPlain w b := by
  rw [State.storedAt, Memory.setCells_eq]
  rfl

theorem State.cell_storedAt (s : State) (a : Nat) (bs : List Byte) (v : KMap (List (List Byte))) (b : Nat) :
    (s.storedAt a bs v).mem.cell b = (s.mem.setCells a bs).cell b := rfl

theorem State.isFull_storedAt (s : State) (a : Nat) (bs : List Byte) (v : KMap (List (List Byte))) (b : Nat) :
    (s.storedAt a bs v).isFull b = s.isFull b := by
  rw [State.storedAt, Memory.setCells_eq]
  rfl

theorem State.isPoisoned_storedAt (s : State) (a : Nat) (bs : List Byte) (v : KMap (List (List Byte))) (b : Nat) :
    (s.storedAt a bs v).isPoisoned b = s.isPoisoned b := by
  rw [State.storedAt, Memory.setCells_eq]
  rfl

/-- A byte that no cipher covers is read as it is listed. -/
theorem State.readByte_of_isPlain {s : State} {w a : Nat} (h : s.isPlain w a = true) : s.readByte w a = s.mem.cell a :=
  if_pos h

/-- Before a write, only the versions kept of the line may change (R374). -/
theorem State.keepVersion_eq (s : State) (w a : Nat) :
    s.keepVersion w a = { s.mem with vers := (s.keepVersion w a).vers } := by
  unfold State.keepVersion
  split <;> rfl

/-- A write into a line that no cipher covers stores its bytes in place. -/
theorem State.writeLine_of_isPlain {s : State} {w a : Nat} (bs : List Byte) (h : s.isPlain w a = true) :
    s.writeLine w a bs = s.storedAt a bs (s.keepVersion w a).vers := by
  rw [State.writeLine, if_pos h, State.keepVersion_eq, Memory.setCells_vers, State.storedAt]

@[simp] theorem State.writeBytesAux_nil (s : State) (w a n : Nat) : s.writeBytesAux w a [] n = s := by
  cases n <;> rfl

/-- Line by line, bytes that no cipher covers are stored in place; each round of the fuel ends at the end of a line. -/
theorem State.writeBytesAux_of_isPlain {s : State} {w a : Nat} {bs : List Byte} {n : Nat}
    (hn : a % 64 + bs.length ≤ 64 * n) (h : ∀ i < bs.length, s.isPlain w (a + i) = true) :
    ∃ v, s.writeBytesAux w a bs n = s.storedAt a bs v := by
  induction n generalizing s a bs with
  | zero =>
    obtain rfl : bs = [] := List.length_eq_zero_iff.mp (by omega)
    exact ⟨s.mem.vers, rfl⟩
  | succ n ih =>
    rw [State.writeBytesAux]
    split
    case isTrue he =>
      obtain rfl : bs = [] := List.isEmpty_iff.mp he
      exact ⟨s.mem.vers, rfl⟩
    case isFalse he =>
      have hpos : 0 < bs.length := List.length_pos_iff.mpr fun h0 => he (by simp [h0])
      have hplain : s.isPlain w a = true := h 0 hpos
      simp only [State.writeLine_of_isPlain _ hplain]
      obtain hlast | hmore := Nat.le_total bs.length (64 - a % 64)
      · rw [List.take_of_length_le hlast, List.drop_of_length_le hlast, State.writeBytesAux_nil]
        exact ⟨_, rfl⟩
      · have hlen : (bs.take (64 - a % 64)).length = 64 - a % 64 := List.length_take_of_le hmore
        obtain ⟨v, hv⟩ := ih (s := s.storedAt a (bs.take (64 - a % 64)) (s.keepVersion w a).vers) (a := a + (64 - a % 64))
          (bs := bs.drop (64 - a % 64)) (by rw [List.length_drop]; omega) (fun i hi => by
            rw [List.length_drop] at hi
            rw [State.isPlain_storedAt, Nat.add_assoc]
            exact h _ (by omega))
        refine ⟨v, hv.trans ?_⟩
        have := s.storedAt_storedAt a (bs.take (64 - a % 64)) (bs.drop (64 - a % 64)) (s.keepVersion w a).vers v
        rwa [hlen, List.take_append_drop] at this

/-- Bytes that no cipher covers are stored in place, and nothing else of the state changes but the kept versions. -/
theorem State.writeBytes_of_isPlain {s : State} {w a : Nat} {bs : List Byte}
    (h : ∀ i < bs.length, s.isPlain w (a + i) = true) : ∃ v, s.writeBytes w a bs = s.storedAt a bs v :=
  State.writeBytesAux_of_isPlain (by omega) h

/-- Settles O60: what a write leaves is the state with the bytes stored in place, and the law of the listed bytes
answers each read. -/
theorem memoryReadBack : Obligations.MemoryReadBack := by
  unfold Obligations.MemoryReadBack
  intro s w a bs hwf h
  obtain ⟨v, hv⟩ := State.writeBytes_of_isPlain h
  rw [hv]
  refine ⟨fun i hi => ?_, fun u b hb ho => ?_, fun b => ⟨s.isFull_storedAt a bs v b, s.isPoisoned_storedAt a bs v b⟩, rfl⟩
  · rw [State.readByte_of_isPlain ((s.isPlain_storedAt a bs v w _).trans (h i hi)), State.cell_storedAt,
      Memory.cell_setCells_inside hwf a i bs hi, List.getElem?_eq_getElem hi]
  · rw [State.readByte_of_isPlain ((s.isPlain_storedAt a bs v u b).trans hb), State.readByte_of_isPlain hb,
      State.cell_storedAt, Memory.cell_setCells_outside hwf a b bs ho]

end Sys2Proof.Machine
end

section
/-! Proofs about words as bytes (R8), the lines of a context's image (R57) and its control line (R58), and O47. -/

namespace Sys2Proof

/-! ## Words as bytes (R8) -/

@[simp] theorem leBytes_length (k n : Nat) : (leBytes k n).length = k := by
  induction k generalizing n with
  | zero => rfl
  | succ k ih => simp [leBytes, ih]

/-- The bytes of a number hold it, modulo what they have room for. -/
@[simp] theorem leNat_leBytes (k n : Nat) : leNat (leBytes k n) = n % 256 ^ k := by
  induction k generalizing n with
  | zero => simp [leBytes, leNat, Nat.mod_one]
  | succ k ih => rw [leBytes, leNat, ih, BitVec.toNat_ofNat, pow_succ' 256 k, Nat.mod_mul]

theorem leNat_lt (bs : List Byte) : leNat bs < 256 ^ bs.length := by
  induction bs with
  | nil => exact Nat.one_pos
  | cons b bs ih =>
    rw [leNat, List.length_cons, Nat.pow_succ']
    have := b.isLt
    omega

/-- The bytes of a number are those of its low part and then those of its high part. -/
theorem leBytes_add (j k n : Nat) : leBytes (j + k) n = leBytes j n ++ leBytes k (n / 256 ^ j) := by
  induction j generalizing n with
  | zero => simp [leBytes]
  | succ j ih => rw [Nat.succ_add, leBytes, ih, leBytes, List.cons_append, Nat.div_div_eq_div_mul, Nat.pow_succ']

end Sys2Proof

namespace Sys2Proof.Machine

/-! ## Sparse maps of registers -/

theorem KMap.sorted_putD {α : Type} [DecidableEq α] {m : KMap α} (a : Nat) (d x : α) (h : KMap.sorted m = true) :
    KMap.sorted (KMap.putD m a d x) = true := by
  unfold KMap.putD
  split
  · exact KMap.sorted_del h
  · exact KMap.sorted_put x h

/-- The registers of a line, in the order of their bytes: what `f` gives for each, and x0 discarded (R52). -/
def putLine (m : KMap (BitVec 64)) (base : Nat) (f : Nat → BitVec 64) (k : Nat) : KMap (BitVec 64) :=
  (List.range k).foldl (fun m i => if base + i = 0 then m else KMap.putD m (base + i) 0 (f i)) m

theorem putLine_succ (m : KMap (BitVec 64)) (base : Nat) (f : Nat → BitVec 64) (k : Nat) :
    putLine m base f (k + 1)
      = if base + k = 0 then putLine m base f k else KMap.putD (putLine m base f k) (base + k) 0 (f k) := by
  simp [putLine, List.range_succ]

theorem sorted_putLine {m : KMap (BitVec 64)} (base : Nat) (f : Nat → BitVec 64) (k : Nat) (h : KMap.sorted m = true) :
    KMap.sorted (putLine m base f k) = true := by
  induction k with
  | zero => exact h
  | succ k ih =>
    rw [putLine_succ]
    split
    · exact ih
    · exact KMap.sorted_putD _ _ _ ih

/-- After a line of registers has been put, its registers hold what was put and the others what they held. -/
theorem lookD_putLine {m : KMap (BitVec 64)} (base : Nat) (f : Nat → BitVec 64) (k : Nat) (h : KMap.sorted m = true)
    {r : Nat} (hr : r ≠ 0) :
    KMap.lookD (putLine m base f k) r 0 = if base ≤ r ∧ r < base + k then f (r - base) else KMap.lookD m r 0 := by
  induction k with
  | zero => rw [if_neg (by omega)]; rfl
  | succ k ih =>
    rw [putLine_succ]
    split
    case isTrue h0 =>
      rw [ih]
      congr 1
      simp only [eq_iff_iff]
      omega
    case isFalse h0 =>
      rw [KMap.lookD_putD (sorted_putLine base f k h), ih]
      by_cases hrk : r = base + k
      · rw [if_pos hrk, if_pos (by omega), hrk, Nat.add_sub_cancel_left]
      · rw [if_neg hrk]
        congr 1
        simp only [eq_iff_iff]
        omega

/-! ## Lines of registers (R57) -/

/-- Piece `i` of pieces of one length laid end to end. -/
theorem take_drop_flatMap {α β : Type} (f : α → List β) {k : Nat} {l : List α} (hf : ∀ x ∈ l, (f x).length = k)
    (i : Nat) (hi : i < l.length) : ((l.flatMap f).drop (k * i)).take k = f l[i] := by
  induction l generalizing i with
  | nil => simp at hi
  | cons x l ih =>
    have hx : (f x).length = k := hf x List.mem_cons_self
    rw [List.flatMap_cons]
    cases i with
    | zero => rw [Nat.mul_zero, List.drop_zero, ← hx, List.take_left', List.getElem_cons_zero]; rfl
    | succ i =>
      rw [Nat.mul_succ, Nat.add_comm, ← List.drop_drop, ← hx, List.drop_left', hx]
      · simpa using ih (fun y hy => hf y (List.mem_cons_of_mem _ hy)) i (by simpa using hi)
      · rfl

/-- The bytes of an x register within its line. -/
theorem Context.lineBytes_x (c : Context) {n i : Nat} (hn : n < 8) (hi : i < 8) :
    ((c.lineBytes n).drop (8 * i)).take 8 = leBytes 8 (c.getX (8 * n + i)).toNat := by
  rw [Context.lineBytes, if_pos hn, take_drop_flatMap _ (fun _ _ => leBytes_length 8 _) i (by simpa using hi),
    List.getElem_range]

theorem Context.lineBytes_length (c : Context) (n : Nat) : (c.lineBytes n).length = 64 := by
  unfold Context.lineBytes
  split
  · simp [List.length_flatMap]
  · split <;> exact leBytes_length 64 _

/-- The half of a v register that its lines hold. -/
theorem Context.lineBytes_v (c : Context) (r : Fin 32) (j : Nat) (hj : j < 2) :
    c.lineBytes (8 + 2 * r.val + j) = leBytes 64 ((c.getV r.val).toNat / 2 ^ (512 * j)) := by
  rw [Context.lineBytes, if_neg (by omega), if_pos (by omega)]
  congr <;> omega

theorem Context.lineBytes_control (c : Context) : c.lineBytes 72 = leBytes 64 c.control.toNat := rfl

/-- A line of x registers taken from bytes: its registers read what the bytes hold, every other register what it held. -/
theorem Context.getX_ofLine {k : Context} (hk : KMap.sorted k.x = true) {n : Nat} (hn : n < 8) (bs : List Byte) (r : Nat) :
    (k.ofLine n bs).getX r
      = if r / 8 = n ∧ r ≠ 0 then BitVec.ofNat 64 (leNat ((bs.drop (8 * (r % 8))).take 8)) else k.getX r := by
  have hx : (k.ofLine n bs).x = putLine k.x (8 * n) (fun i => BitVec.ofNat 64 (leNat ((bs.drop (8 * i)).take 8))) 8 := by
    rw [Context.ofLine, if_pos hn]
    rfl
  by_cases hr : r = 0
  · simp [Context.getX, hr]
  · rw [Context.getX, if_neg hr, hx, lookD_putLine _ _ _ hk hr, Context.getX, if_neg hr]
    by_cases hl : r / 8 = n
    · rw [if_pos (by omega), if_pos ⟨hl, hr⟩, show r - 8 * n = r % 8 by omega]
    · rw [if_neg (by omega), if_neg (by tauto)]

/-- The lower line of a v register sets its low half. -/
theorem Context.getV_ofLine_low {k : Context} (hk : KMap.sorted k.v = true) (r : Fin 32) (bs : List Byte) :
    (k.ofLine (8 + 2 * r.val) bs).getV r.val
      = BitVec.ofNat 1024 ((k.getV r.val).toNat / 2 ^ 512 * 2 ^ 512 + leNat bs) := by
  have h1 : (8 + 2 * r.val - 8) / 2 = r.val := by omega
  have h2 : (8 + 2 * r.val - 8) % 2 = 0 := by omega
  rw [Context.ofLine, if_neg (by omega), if_pos (by omega)]
  simp only [Context.getV, h1, h2, KMap.lookD_putD hk, if_true]

/-- The upper line of a v register sets its high half. -/
theorem Context.getV_ofLine_high {k : Context} (hk : KMap.sorted k.v = true) (r : Fin 32) (bs : List Byte) :
    (k.ofLine (9 + 2 * r.val) bs).getV r.val
      = BitVec.ofNat 1024 ((k.getV r.val).toNat % 2 ^ 512 + leNat bs * 2 ^ 512) := by
  have h1 : (9 + 2 * r.val - 8) / 2 = r.val := by omega
  have h2 : (9 + 2 * r.val - 8) % 2 = 1 := by omega
  rw [Context.ofLine, if_neg (by omega), if_pos (by omega)]
  simp only [Context.getV, h1, h2, KMap.lookD_putD hk, if_true, one_ne_zero, if_false]

theorem Context.sorted_v_ofLine {k : Context} (hk : KMap.sorted k.v = true) (n : Nat) (bs : List Byte) :
    KMap.sorted (k.ofLine n bs).v = true := by
  unfold Context.ofLine
  split
  · exact hk
  · split
    · exact KMap.sorted_putD _ _ _ hk
    · exact hk

/-- The x registers of a line come back from its bytes; x0 reads as zero before and after. -/
theorem Context.getX_ofLine_lineBytes (c : Context) {k : Context} (hk : KMap.sorted k.x = true) {n : Nat} (hn : n < 8)
    (r : Nat) : (k.ofLine n (c.lineBytes n)).getX r = if r / 8 = n then c.getX r else k.getX r := by
  rw [Context.getX_ofLine hk hn, Context.lineBytes_x c hn (Nat.mod_lt r (by omega)), leNat_leBytes]
  by_cases hl : r / 8 = n
  · by_cases hr : r = 0
    · simp [hr, Context.getX]
    · have hlt := (c.getX r).isLt
      rw [if_pos ⟨hl, hr⟩, if_pos hl, show 8 * n + r % 8 = r by omega, Nat.mod_eq_of_lt (by omega), BitVec.ofNat_toNat,
        BitVec.setWidth_eq]
  · rw [if_neg (by tauto), if_neg hl]

theorem Context.lineBytes_v_low (c : Context) (r : Fin 32) :
    c.lineBytes (8 + 2 * r.val) = leBytes 64 (c.getV r.val).toNat := by
  simpa using c.lineBytes_v r 0 (by omega)

theorem Context.lineBytes_v_high (c : Context) (r : Fin 32) :
    c.lineBytes (9 + 2 * r.val) = leBytes 64 ((c.getV r.val).toNat / 2 ^ 512) := by
  have h := c.lineBytes_v r 1 (by omega)
  rwa [Nat.add_right_comm, Nat.mul_one] at h

/-- Two lines hold a v register, its low half first. -/
theorem Context.lineBytes_v_both (c : Context) (r : Fin 32) :
    c.lineBytes (8 + 2 * r.val) ++ c.lineBytes (9 + 2 * r.val) = leBytes 128 (c.getV r.val).toNat := by
  have hpow : (256 : Nat) ^ 64 = 2 ^ 512 := by
    rw [show 256 = 2 ^ 8 from rfl, show 512 = 8 * 64 from rfl, Nat.pow_mul]
  rw [Context.lineBytes_v_low, Context.lineBytes_v_high, leBytes_add 64 64, hpow]

/-- A v register comes back from its two lines, whatever it held before. -/
theorem Context.getV_ofLine_lineBytes (c : Context) {k : Context} (hk : KMap.sorted k.v = true) (r : Fin 32) :
    ((k.ofLine (8 + 2 * r.val) (c.lineBytes (8 + 2 * r.val))).ofLine (9 + 2 * r.val) (c.lineBytes (9 + 2 * r.val))).getV
      r.val = c.getV r.val := by
  rw [Context.getV_ofLine_high (Context.sorted_v_ofLine hk _ _), Context.getV_ofLine_low hk, Context.lineBytes_v_low,
    Context.lineBytes_v_high, leNat_leBytes, leNat_leBytes]
  apply BitVec.eq_of_toNat_eq
  have hc := (c.getV r.val).isLt
  have hk := (k.getV r.val).isLt
  simp only [BitVec.toNat_ofNat]
  omega

/-! ## The control line (R58) -/

/-- Fields of given widths laid out from bit 0 up. -/
def packFields : List (Nat × Nat) → Nat
  | [] => 0
  | f :: fs => f.2 + 2 ^ f.1 * packFields fs

/-- A number holds the fields one above the other from bit `lo` up. -/
def holdsFields (n : Nat) : Nat → List (Nat × Nat) → Prop
  | _, [] => True
  | lo, f :: fs => n / 2 ^ lo % 2 ^ f.1 = f.2 ∧ holdsFields n (lo + f.1) fs

/-- Fields that keep to their widths keep to the sum of the widths. -/
theorem packFields_lt {fs : List (Nat × Nat)} (h : ∀ f ∈ fs, f.2 < 2 ^ f.1) :
    packFields fs < 2 ^ (fs.map (·.1)).sum := by
  induction fs with
  | nil => exact Nat.one_pos
  | cons f fs ih =>
    rw [packFields, List.map_cons, List.sum_cons, Nat.pow_add]
    calc f.2 + 2 ^ f.1 * packFields fs
        < 2 ^ f.1 + 2 ^ f.1 * packFields fs := Nat.add_lt_add_right (h f List.mem_cons_self) _
      _ = 2 ^ f.1 * (packFields fs + 1) := by ring
      _ ≤ 2 ^ f.1 * 2 ^ (fs.map (·.1)).sum :=
        Nat.mul_le_mul_left _ (ih fun g hg => h g (List.mem_cons_of_mem _ hg))

theorem toNat_packFields {fs : List (Nat × Nat)} {w : Nat} (h : ∀ f ∈ fs, f.2 < 2 ^ f.1) (hw : (fs.map (·.1)).sum = w) :
    (BitVec.ofNat w (packFields fs)).toNat = packFields fs := by
  subst hw
  rw [BitVec.toNat_ofNat, Nat.mod_eq_of_lt (packFields_lt h)]

/-- Fields laid out are read back from their places. -/
theorem holdsFields_of_packFields {fs : List (Nat × Nat)} (h : ∀ f ∈ fs, f.2 < 2 ^ f.1) {n lo : Nat}
    (hn : n / 2 ^ lo = packFields fs) : holdsFields n lo fs := by
  induction fs generalizing lo with
  | nil => trivial
  | cons f fs ih =>
    have hf : f.2 < 2 ^ f.1 := h f List.mem_cons_self
    refine ⟨?_, ih (fun g hg => h g (List.mem_cons_of_mem _ hg)) ?_⟩
    · rw [hn, packFields, Nat.add_mul_mod_self_left, Nat.mod_eq_of_lt hf]
    · rw [Nat.pow_add, ← Nat.div_div_eq_div_mul, hn, packFields, Nat.add_mul_div_left _ _ (Nat.two_pow_pos _),
        Nat.div_eq_of_lt hf, Nat.zero_add]

theorem bit_eq_toNat (b : Bool) : bit b = b.toNat := by cases b <;> rfl

/-- The fields of the control line, from bit 0 up, with their widths (R58). -/
def Context.controlFields (c : Context) : List (Nat × Nat) :=
  [(64, c.xFull.toNat), (32, c.vFull.toNat), (8, c.p.toNat), (8, c.pFull.toNat), (1, c.srmode.toNat), (15, 0),
   (64, c.xPois.toNat), (32, c.vPois.toNat), (32, c.bwto.toNat), (16, c.flags.toNat), (16, c.nanfmt.toNat),
   (16, c.rlim.toNat), (8, c.cause.toNat), (8, c.causeOp.toNat), (64, c.nanpos.toNat), (64, c.trapPc.toNat),
   (64, c.trapAddr.toNat)]

theorem Context.controlFields_lt (c : Context) : ∀ f ∈ c.controlFields, f.2 < 2 ^ f.1 := by
  have hbit : c.srmode.toNat < 2 ^ 1 := c.srmode.toNat_lt
  simp only [Context.controlFields, List.forall_mem_cons, BitVec.isLt, hbit, List.not_mem_nil, false_implies, implies_true,
    and_true, true_and]
  decide

/-- The control line lays out its fields one above the other. -/
theorem Context.control_eq (c : Context) : c.control = BitVec.ofNat 512 (packFields c.controlFields) := by
  rw [Context.control, Nat.mod_eq_of_lt c.xFull.isLt, bit_eq_toNat]
  refine congrArg (BitVec.ofNat 512) ?_
  simp only [Context.controlFields, packFields]
  ring

theorem Context.control_toNat (c : Context) : c.control.toNat = packFields c.controlFields := by
  have hsum : (c.controlFields.map (·.1)).sum = 512 := by simp [Context.controlFields]
  rw [Context.control_eq, toNat_packFields c.controlFields_lt hsum]

theorem Context.control_holdsFields (c : Context) : holdsFields c.control.toNat 0 c.controlFields :=
  holdsFields_of_packFields c.controlFields_lt (by rw [Nat.pow_zero, Nat.div_one, Context.control_toNat])

/-- The fields of R58 at the bits where the layout places them. -/
theorem Context.control_bits (c : Context) :
    let n := c.control.toNat
    bits n 511 448 = c.trapAddr.toNat ∧ bits n 447 384 = c.trapPc.toNat ∧ bits n 383 320 = c.nanpos.toNat
    ∧ bits n 319 312 = c.causeOp.toNat ∧ bits n 311 304 = c.cause.toNat ∧ bits n 303 288 = c.rlim.toNat
    ∧ bits n 287 272 = c.nanfmt.toNat ∧ bits n 271 256 = c.flags.toNat ∧ bits n 255 224 = c.bwto.toNat
    ∧ bits n 223 192 = c.vPois.toNat ∧ bits n 191 128 = c.xPois.toNat ∧ bits n 127 113 = 0
    ∧ bits n 112 112 = c.srmode.toNat ∧ bits n 111 104 = c.pFull.toNat ∧ bits n 103 96 = c.p.toNat
    ∧ bits n 95 64 = c.vFull.toNat ∧ bits n 63 0 = c.xFull.toNat := by
  have h := c.control_holdsFields
  simp only [holdsFields, Context.controlFields, Nat.reduceAdd] at h
  obtain ⟨xFull, vFull, p, pFull, srmode, res0, xPois, vPois, bwto, flags, nanfmt, rlim, cause, causeOp, nanpos, trapPc,
    trapAddr, -⟩ := h
  exact ⟨trapAddr, trapPc, nanpos, causeOp, cause, rlim, nanfmt, flags, bwto, vPois, xPois, res0, srmode, pFull, p, vFull,
    xFull⟩

/-- A field of `w` bits taken from its place. -/
theorem ofNat_of_bits {w n hi lo : Nat} {b : BitVec w} (h : bits n hi lo = b.toNat) (hw : hi + 1 - lo = w) :
    BitVec.ofNat w (n / 2 ^ lo) = b := by
  apply BitVec.eq_of_toNat_eq
  rw [BitVec.toNat_ofNat, ← h, bits, hw]

/-- The fields taken from a control line are those of the context that wrote it, with the bits that R58 fixes and without
those that R64 reserves. -/
theorem Context.ofControl_control (c k : Context) :
    k.ofControl c.control.toNat = { k with
      xFull := c.xFull ||| 1, vFull := c.vFull, p := c.p ||| 1, pFull := c.pFull ||| 1, srmode := c.srmode,
      xPois := c.xPois &&& ~~~1, vPois := c.vPois, bwto := c.bwto, flags := c.flags &&& 0x1FF,
      nanfmt := c.nanfmt &&& 0x8FFF, rlim := c.rlim, cause := c.cause, causeOp := c.causeOp,
      nanpos := c.nanpos &&& 0xFFFFFFFFFFFF, trapPc := c.trapPc, trapAddr := c.trapAddr } := by
  obtain ⟨trapAddr, trapPc, nanpos, causeOp, cause, rlim, nanfmt, flags, bwto, vPois, xPois, -, srmode, pFull, p, vFull,
    xFull⟩ := c.control_bits
  have xFull' := ofNat_of_bits xFull rfl
  rw [Nat.pow_zero, Nat.div_one] at xFull'
  have srmode' : (bits c.control.toNat 112 112 == 1) = c.srmode := by rw [srmode]; cases c.srmode <;> rfl
  rw [Context.ofControl, xFull', srmode', ofNat_of_bits vFull rfl, ofNat_of_bits p rfl, ofNat_of_bits pFull rfl,
    ofNat_of_bits xPois rfl, ofNat_of_bits vPois rfl, ofNat_of_bits bwto rfl, ofNat_of_bits flags rfl,
    ofNat_of_bits nanfmt rfl, ofNat_of_bits rlim rfl, ofNat_of_bits cause rfl, ofNat_of_bits causeOp rfl,
    ofNat_of_bits nanpos rfl, ofNat_of_bits trapPc rfl, ofNat_of_bits trapAddr rfl]

/-- The bytes of the control line hold it. -/
theorem Context.leNat_lineBytes_control (c : Context) : leNat (c.lineBytes 72) = c.control.toNat := by
  have hlt := c.control.isLt
  rw [Context.lineBytes_control, leNat_leBytes]
  exact Nat.mod_eq_of_lt (by omega)

theorem Context.ofLine_control (k : Context) (bs : List Byte) : k.ofLine 72 bs = k.takeControl (leNat bs) := rfl

/-- Settles O47: the lines of registers come back by the laws of `lineBytes` and `ofLine`, and the control line by
the place of each of its fields. -/
theorem imageLines : Obligations.ImageLines := by
  unfold Obligations.ImageLines
  intro c k hx hv
  refine ⟨fun n r hn => ⟨c.lineBytes_length n, c.getX_ofLine_lineBytes hx hn r⟩,
    fun n i => c.lineBytes_x n.isLt i.isLt,
    fun r => ⟨c.lineBytes_v_both r, c.getV_ofLine_lineBytes hv r⟩, c.lineBytes_length 72, ?_, ?_⟩
  · rw [Context.ofLine_control, Context.leNat_lineBytes_control, Context.takeControl, Context.ofControl_control]
  · rw [Context.leNat_lineBytes_control]
    exact c.control_bits

end Sys2Proof.Machine
end

section
/-! Proofs about plain loads from open memory of the issuing die (R163, R165, R166), and O12. -/

namespace Sys2Proof.Machine

/-! ## What leaves the bytes of memory alone -/

/-- `t` is `s` but for contexts, cores and what migrations hold: both read the same bytes, at the same homes. -/
def State.sameStore (s t : State) : Prop :=
  t = { s with ctxs := t.ctxs, cores := t.cores, retry := t.retry, moves := t.moves }

theorem State.sameStore.refl (s : State) : s.sameStore s := rfl

theorem State.sameStore.trans {s t u : State} (h : s.sameStore t) (h' : t.sameStore u) : s.sameStore u := by
  unfold State.sameStore at *
  rw [h', h]

theorem State.sameStore.homeOf {s t : State} (h : s.sameStore t) (a : Nat) : t.homeOf a = s.homeOf a := by
  rw [h]
  rfl

theorem State.sameStore.protOf {s t : State} (h : s.sameStore t) (a : Nat) : t.protOf a = s.protOf a := by
  rw [h]
  rfl

theorem State.sameStore.readByte {s t : State} (h : s.sameStore t) (w a : Nat) : t.readByte w a = s.readByte w a := by
  rw [h]
  rfl

theorem State.sameStore.anyPoison {s t : State} (h : s.sameStore t) (parts : List (Nat × Nat)) :
    t.anyPoison parts = s.anyPoison parts := by
  rw [h]
  rfl

theorem State.sameStore.readBytes {s t : State} (h : s.sameStore t) (w a n : Nat) :
    t.readBytes w a n = s.readBytes w a n := by
  induction n generalizing a with
  | zero => rfl
  | succ n ih => rw [State.readBytes, State.readBytes, ih, h.readByte]

theorem State.sameStore_modCtx (s : State) (uid : Nat) (f : Context → Context) : s.sameStore (s.modCtx uid f) := rfl

theorem State.sameStore_movedOn (s : State) (uid : Nat) : s.sameStore (s.movedOn uid) := rfl

theorem State.sameStore_unpause (s : State) (uid : Nat) (who : Paused) : s.sameStore (s.unpause uid who) := by
  unfold State.unpause
  split <;> rfl

/-! ## The L1s hold no data: an access moves lines among them (R165) -/

theorem State.sameStore_l1Home (s : State) (by_ : Option Nat) (a : Nat) (write : Bool) :
    s.sameStore (s.l1Home by_ a write) := by
  unfold State.l1Home
  split <;> rfl

theorem State.sameStore_l1Take (s : State) (d c : Nat) (loc : BitVec 2) (own : Bool) (a : Nat) :
    s.sameStore (s.l1Take d c loc own a) := by
  unfold State.l1Take
  dsimp only
  split
  · exact s.sameStore_l1Home _ _ _
  · split
    · split <;> rfl
    · rfl

theorem State.sameStore_l1Read (s : State) (d c : Nat) (loc : BitVec 2) (a : Nat) : s.sameStore (s.l1Read d c loc a) :=
  s.sameStore_l1Take d c loc _ a

theorem State.sameStore_l1Each {f : State → Nat → State} (hf : ∀ (s : State) l, s.sameStore (f s l)) (s : State)
    (parts : List (Nat × Nat)) : s.sameStore (s.l1Each parts f) := by
  unfold State.l1Each
  generalize parts.flatMap (fun p => linesOf p.1 p.2) = ls
  induction ls generalizing s with
  | nil => exact .refl s
  | cons l ls ih => exact (hf s l).trans (ih (f s l))

/-! ## Reading open memory of a die -/

/-- Past the end of DRAM there is no home on a die (R156). -/
theorem State.die_home_past_dram (s : State) {a : Nat} (h : dramBase + 2 ^ 39 ≤ a) : (s.homeOf a).die? = none := by
  unfold dramBase at h
  unfold State.homeOf localBase vaultBase pageBase dramBase
  rw [if_neg (by omega), if_neg (by omega), if_neg (by omega), if_neg (by omega), if_neg (by omega), if_neg (by omega),
    if_neg (by omega), if_neg (by omega)]
  dsimp only
  repeat' split
  all_goals rfl

/-- No CXL memory lies below its range (R156). -/
theorem State.homeOf_ne_cxl (s : State) {a : Nat} (h : a < cxlBase) (q : Nat) : s.homeOf a ≠ .cxl q := by
  unfold State.homeOf
  rw [if_pos h]
  repeat' split
  all_goals exact Home.noConfusion

/-- Pool memory is CXL memory (R388). -/
theorem State.isPool_eq_false (s : State) {a : Nat} (h : a < cxlBase) : s.isPool a = false := by
  unfold State.isPool
  split
  next q hq => exact absurd hq (s.homeOf_ne_cxl h q)
  next => rfl

theorem lt_of_mem_linesOf {l a n : Nat} (h : l ∈ linesOf a n) : l < a + n := by
  unfold linesOf at h
  split at h
  · simp at h
  · simp only [List.mem_map, List.mem_range] at h
    obtain ⟨i, hi, rfl⟩ := h
    omega

/-- A read of open lines that no port's cache holds changes nothing (R373, R389). -/
theorem State.checkRead_of_open {s : State} {w a n : Nat}
    (h : ∀ l ∈ linesOf a n, s.isPool l = false ∧ (s.protOf l).1 = 0) : s.checkRead w a n = s := by
  unfold State.checkRead
  generalize linesOf a n = ls at h
  induction ls with
  | nil => rfl
  | cons l ls ih =>
    obtain ⟨hpool, hopen⟩ := h l List.mem_cons_self
    have hfetch : s.fetchPool l = s := by simp [State.fetchPool, hpool]
    have hworld : (s.protOf l).1 ≠ w ∨ w = 0 := by omega
    rw [List.foldl_cons, hfetch, if_pos hworld]
    exact ih fun x hx => h x (List.mem_cons_of_mem _ hx)

/-- A segment of open memory of a die is read as it stands. -/
theorem State.readSeg_of_open {s : State} {w a n d : Nat} (hd : (s.homeOf a).die? = some d) (hn : n ≤ 8)
    (h : ∀ l ∈ linesOf a n, (s.protOf l).1 = 0) :
    s.readSeg w a n = (s, s.readBytes w a n, s.anyPoison [(a, n)]) := by
  have hlt : a < dramBase + 2 ^ 39 := by
    by_contra hge
    simp [s.die_home_past_dram (Nat.le_of_not_lt hge)] at hd
  have hcheck : s.checkRead w a n = s := State.checkRead_of_open fun l hl =>
    ⟨s.isPool_eq_false (by have := lt_of_mem_linesOf hl; simp only [dramBase, cxlBase] at *; omega), h l hl⟩
  unfold State.readSeg
  split
  next hpage => simp [hpage, Home.die?] at hd
  next => rw [hcheck]

theorem State.readBytes_length (s : State) (w a n : Nat) : (s.readBytes w a n).length = n := by
  induction n generalizing a with
  | zero => rfl
  | succ n ih => rw [State.readBytes, List.length_cons, ih]

/-! ## The fill of a plain load (R163, R166) -/

/-- Without a window, an unpoisoned word or less fills as the number of its bytes. -/
theorem State.loadFill_word (s : State) (dest : AnyReg) {acc : Acc} {p n : Nat} {raw : List Byte}
    (hparts : acc.parts = [(p, n)]) (hwin : acc.win = 0) (hraw : raw.length ≤ 8) :
    s.loadFill dest acc raw false none = valueFill dest (BitVec.ofNat 64 (leNat raw)) := by
  have hlt : leNat raw < 2 ^ 64 :=
    calc leNat raw < 256 ^ raw.length := leNat_lt raw
      _ ≤ 256 ^ 8 := Nat.pow_le_pow_right (by omega) hraw
      _ = 2 ^ 64 := by norm_num
  have hval : BitVec.ofNat 1024 (leNat raw) = (BitVec.ofNat 64 (leNat raw)).setWidth 1024 := by
    apply BitVec.eq_of_toNat_eq
    rw [BitVec.toNat_setWidth, BitVec.toNat_ofNat, BitVec.toNat_ofNat, Nat.mod_eq_of_lt hlt]
  simp only [State.loadFill, State.loadValue, hparts, hwin, decodeRaw, if_true, Bool.false_eq_true, if_false, hval]
  rfl

/-- A plain `LD` that may issue, whose address resolves and whose access is performed, is done. -/
theorem State.doneAs_ld {s t : State} {c : Context} {ctl : Ctl} {sz : MSize} {d : Fin 64} {a : MemOp} {acc : Acc}
    (hready : s.ready c ctl [memSrc a] [.x d])
    (hres : (s.movedOn s.issuing).resolve c a.mode (formAddr c a (MSize.bytes sz)) (MSize.bytes sz) .rd false .data = .ok acc)
    (hdone : (s.movedOn s.issuing).loadPlain s.issuing c ctl (.x d) acc false = .done t) :
    s.doneAs ctl c [memSrc a] [.x d] (.ld ctl sz .plain d a) t := by
  unfold State.doneAs
  rw [exec_ld, execLd, loadOp]
  exact issue_done hready rfl (by rw [hres]; exact hdone)

/-- One open segment of a die is read through the L1s, which move their lines; it changes nothing else (R165). -/
theorem State.loadBytes_of_open {s : State} {d c h p n : Nat} {loc : BitVec 2} {acc : Acc} (hparts : acc.parts = [(p, n)])
    (hwin : acc.win = 0) (hn : n ≤ 8) (hhome : (s.homeOf p).die? = some h)
    (hopen : ∀ l ∈ linesOf p n, (s.protOf l).1 = 0) (hpois : s.anyPoison [(p, n)] = false) :
    s.loadBytes d c loc acc false
      = (s.l1Each acc.parts fun s l => s.l1Read d c loc l, s.readBytes acc.world p n, false) := by
  have ht := State.sameStore_l1Each (fun s l => s.sameStore_l1Read d c loc l) s acc.parts
  have hread := State.readSeg_of_open (w := acc.world) ((congrArg Home.die? (ht.homeOf p)).trans hhome) hn
    fun l hl => (congrArg Prod.fst (ht.protOf l)).trans (hopen l hl)
  have hwords : loadWords acc = [(p, n)] := by simp [loadWords, hparts, hwin]
  rw [ht.readBytes, ht.anyPoison, hpois] at hread
  simp only [State.loadBytes, Bool.false_eq_true, if_false, hwords]
  generalize s.l1Each acc.parts (fun s l => s.l1Read d c loc l) = t at ht hread
  simp only [hparts, State.readParts, hread, List.append_nil, ht.anyPoison, hpois, Bool.or_self]

theorem State.loadNow_of_open {s : State} {d c h p n : Nat} {loc : BitVec 2} {acc : Acc} (dest : AnyReg)
    (hparts : acc.parts = [(p, n)]) (hwin : acc.win = 0) (hn : n ≤ 8) (hhome : (s.homeOf p).die? = some h)
    (hopen : ∀ l ∈ linesOf p n, (s.protOf l).1 = 0) (hpois : s.anyPoison [(p, n)] = false) :
    s.loadNow d c loc dest acc false none
      = (s.l1Each acc.parts fun s l => s.l1Read d c loc l,
         valueFill dest (BitVec.ofNat 64 (leNat (s.readBytes acc.world p n)))) := by
  have hraw : (s.readBytes acc.world p n).length ≤ 8 := (s.readBytes_length _ _ _).trans_le hn
  rw [State.loadNow, State.loadBytes_of_open hparts hwin hn hhome hopen hpois]
  exact congrArg _ (State.loadFill_word _ dest hparts hwin hraw)

/-- An access that is not of job scope goes to the homes of this package (R345). -/
theorem State.whereIs_here {s : State} {acc : Acc} (need : Need) (h : ∀ j, s.accHome acc ≠ .job j) :
    s.whereIs acc need = .here acc false := by
  unfold State.whereIs
  split
  next j hj => exact absurd hj (h j)
  next => rfl

/-- A plain load of the issuing die that finds nothing in the store buffer and that no migration holds is performed in
its turn (R176 to R178). -/
theorem State.loadPlain_of_here {s : State} {uid : Nat} {c : Context} {ctl : Ctl} {dest : AnyReg} {acc a : Acc}
    {job acq : Bool} (hheld : c.loadsHeld = false) (hscale : scaleBuffered c acc = false)
    (hfwd : s.forward c.sbuf acc = .memory) (hmove : s.pauser uid .issue (s.places acc) = none)
    (hhere : (s.unpause uid .issue).whereIs acc .rd = .here a job)
    (hdie : ((s.unpause uid .issue).accHome a).die? = some c.die.val) :
    s.loadPlain uid c ctl dest acc acq
      = .done (((s.unpause uid .issue).loadNow c.die.val c.core.val ctl.loc dest a job none).1.produce uid
          ((s.unpause uid .issue).loadNow c.die.val c.core.val ctl.loc dest a job none).2) := by
  simp only [State.loadPlain, hheld, hscale, Bool.or_self, Bool.false_eq_true, if_false, hfwd, State.throughMove, hmove,
    hhere, hdie, if_true]

/-- Settles O12: the L1s move their lines, the store stays the same, and the load fills with the bytes read there. -/
theorem plainLoadValue : Obligations.PlainLoadValue := by
  unfold Obligations.PlainLoadValue
  intro s c ctl sz d a acc p
  dsimp only
  intro hready hres hparts hwin hheld hfwd hmove hjob hdie hopen hpois
  let u := (s.movedOn s.issuing).unpause s.issuing .issue
  have hu : s.sameStore u := (s.sameStore_movedOn s.issuing).trans (State.sameStore_unpause _ _ _)
  have hhome : u.accHome acc = s.homeOf p := by rw [State.accHome, hparts]; exact hu.homeOf p
  have hplain := State.loadPlain_of_here (ctl := ctl) (dest := .x d) (acq := false) hheld (by simp [scaleBuffered, hwin])
    hfwd hmove (State.whereIs_here .rd fun j => hhome ▸ hjob j) (hhome ▸ hdie)
  rw [State.loadNow_of_open (.x d) hparts hwin (by cases sz <;> decide) ((congrArg Home.die? (hu.homeOf p)).trans hdie)
    (fun l hl => (congrArg Prod.fst (hu.protOf l)).trans (hopen l hl)) ((hu.anyPoison _).trans hpois), hu.readBytes] at hplain
  exact State.doneAs_ld hready hres hplain

end Sys2Proof.Machine
end

section
/-! Proofs about the integer and logic instructions (R66 to R74): what a producer of a register leaves, and O1 to O4. -/

namespace Sys2Proof.Machine

/-! ## Producers of a register complete (R55) -/

section Producers

variable {s : State} {c : Context} {ctl : Ctl} {i : Instr} {op : Nat} {rd : List Src} {wr : List AnyReg}
  {body : Nat → Context → State → Res}

/-- An instruction whose only effect is to write an x register. -/
theorem State.completes_setX (h : s.ready c ctl rd wr) (hi : exec i s = issue op ctl noPriv rd wr s body) {d : Fin 64}
    {v : BitVec 64} (hb : body s.issuing c (s.movedOn s.issuing) = .done ((s.movedOn s.issuing).setReg s.issuing (.x d) v)) :
    s.completes ctl c i (c.setX d v) := by
  rw [State.completes, State.goesTo, hi, ← Context.setAny_x]
  exact issue_setReg h rfl hb

/-- An instruction whose only effect is to write a p register. -/
theorem State.completes_setP (h : s.ready c ctl rd wr) (hi : exec i s = issue op ctl noPriv rd wr s body) {d : Fin 8}
    {v : BitVec 64} {b : Bool} (hv : v.getLsbD 0 = b)
    (hb : body s.issuing c (s.movedOn s.issuing) = .done ((s.movedOn s.issuing).setReg s.issuing (.p d) v)) :
    s.completes ctl c i (c.setP d b) := by
  rw [State.completes, State.goesTo, hi, ← hv, ← Context.setAny_p]
  exact issue_setReg h rfl hb

/-- An instruction whose only effect is to leave a fill on its way. -/
theorem State.completes_awaits (h : s.ready c ctl rd wr) (hi : exec i s = issue op ctl noPriv rd wr s body) {f : Fill}
    (hb : body s.issuing c (s.movedOn s.issuing) = .done ((s.movedOn s.issuing).produce s.issuing f)) :
    s.completes ctl c i (c.awaits f) := by
  rw [State.completes, State.goesTo, hi]
  exact issue_produce h rfl hb

end Producers

/-! ## The shapes of integer instructions (R67) -/

section Shapes

variable {s : State} {c : Context} {ctl : Ctl} {i : Instr} {op : Nat} {w : Width} {d : Fin 64} {a b : XI} {r : Int}

theorem completes_shortOp {f : IntArgs → Int} (h : s.ready c ctl (xiSrcs a ++ xiSrcs b) [.x d])
    (hi : exec i s = shortOp op ctl w d a b f s) (hr : f (intArgs w (xiVal c a) (xiVal c b)) = r) :
    s.completes ctl c i (c.setX d (resWord (Width.bits w) r)) := by
  subst hr
  exact State.completes_setX h hi rfl

theorem completes_unaryOp {f : IntArgs → Int} (h : s.ready c ctl (xiSrcs a) [.x d])
    (hi : exec i s = unaryOp op ctl w d a f s) (hr : f (intArgs w (xiVal c a) 0) = r) :
    s.completes ctl c i (c.setX d (resWord (Width.bits w) r)) := by
  subst hr
  exact State.completes_setX h hi rfl

theorem completes_longOp {f : IntArgs → Int × Nat} {fl : Nat} (h : s.ready c ctl (xiSrcs a ++ xiSrcs b) [.x d])
    (hi : exec i s = longOp op ctl w d a b f s) (hr : f (intArgs w (xiVal c a) (xiVal c b)) = (r, fl)) :
    s.completes ctl c i (c.awaits { valueFill (.x d) (resWord (Width.bits w) r) with flags := flagBits fl }) := by
  refine State.completes_awaits h hi ?_
  dsimp only
  rw [hr]

/-- A long producer that brings no flag. -/
theorem completes_longOp_noFlags {f : IntArgs → Int × Nat} (h : s.ready c ctl (xiSrcs a ++ xiSrcs b) [.x d])
    (hi : exec i s = longOp op ctl w d a b f s) (hr : f (intArgs w (xiVal c a) (xiVal c b)) = (r, 0)) :
    s.completes ctl c i (c.awaits (valueFill (.x d) (resWord (Width.bits w) r))) :=
  completes_longOp h hi hr

end Shapes

/-! ## Operands and results (R67) -/

theorem intArgs_ua_lt (w : Width) (x y : BitVec 64) : (intArgs w x y).ua < 2 ^ (intArgs w x y).w :=
  Nat.mod_lt _ (Nat.two_pow_pos _)

theorem intArgs_k_lt (w : Width) (x y : BitVec 64) : (intArgs w x y).k < (intArgs w x y).w :=
  Nat.mod_lt _ (by cases w <;> decide)

/-- A second operand that is zero at the width is zero read with a sign. -/
theorem intArgs_sb_eq_zero {w : Width} {x y : BitVec 64} (h : (intArgs w x y).ub = 0) : (intArgs w x y).sb = 0 := by
  have hmod : y.toNat % 2 ^ Width.bits w = 0 := h
  simp [intArgs, signedOf, hmod]

/-- A result counts modulo the width. -/
theorem resWord_emod (w : Nat) (r : Int) : resWord w (r % 2 ^ w) = resWord w r := by
  rw [resWord, Int.emod_emod_of_dvd r (dvd_refl _), resWord]

/-- At 64 bits a result is the word of an integer. -/
theorem resWord_64 (r : Int) : resWord 64 r = BitVec.ofInt 64 r := by
  apply BitVec.eq_of_toNat_eq
  rw [resWord, BitVec.toNat_ofNat, BitVec.toNat_ofInt]
  omega

/-- A rotation: the two parts share no bit, so their sum is their union (R68). -/
theorem shiftLeft_or_shiftRight_eq_add {n w k : Nat} (hn : n < 2 ^ w) (hk : k < w) :
    (n <<< k) ||| (n >>> (w - k)) = n * 2 ^ k + n / 2 ^ (w - k) := by
  have hlow : n >>> (w - k) < 2 ^ k := by
    rw [Nat.shiftRight_eq_div_pow, Nat.div_lt_iff_lt_mul (Nat.two_pow_pos _), ← Nat.pow_add, Nat.add_sub_cancel' hk.le]
    exact hn
  rw [← Nat.shiftLeft_add_eq_or_of_lt hlow, Nat.shiftLeft_eq, Nat.shiftRight_eq_div_pow]

/-- The number of leading zeros: above it nothing is set, and just below it the highest one (R68). -/
theorem sub_bitLen_eq {m w n : Nat} (hn : n ≤ w) (hzero : m / 2 ^ (w - n) = 0)
    (hone : n < w → m / 2 ^ (w - n - 1) = 1) : w - bitLen m = n := by
  obtain rfl | hlt := hn.eq_or_lt
  · have hm : m = 0 := by simpa using hzero
    simp [hm, bitLen]
  · have hm : m ≠ 0 := by
      rintro rfl
      exact absurd (hone hlt) (by simp)
    have hlow : 2 ^ (w - n - 1) ≤ m := by
      by_contra hlt'
      rw [Nat.div_eq_of_lt (by omega)] at hone
      exact absurd (hone hlt) (by omega)
    have hhigh : m < 2 ^ (w - n - 1 + 1) := by
      rw [Nat.sub_add_cancel (by omega)]
      exact (Nat.div_eq_zero_iff_lt (Nat.two_pow_pos _)).mp hzero
    rw [bitLen, if_neg hm, (Nat.log2_eq_iff hm).mpr ⟨hlow, hhigh⟩]
    omega

/-! ## O1 -/

/-- Settles O1: each row is a short, a unary or a long producer of the value that the table gives. -/
theorem integerTable : Obligations.IntegerTable := by
  unfold Obligations.IntegerTable
  intro s c ctl w d a b g short long
  have hrol := shiftLeft_or_shiftRight_eq_add (intArgs_ua_lt w (xiVal c a) (xiVal c b)) (intArgs_k_lt w (xiVal c a) (xiVal c b))
  refine ⟨fun h => ⟨?add, ?adds, ?addu, ?sub, ?subs, ?subu, ?mul, ?mulh, ?mulhu, ?and, ?or, ?xor, ?andn, ?shl, ?shr, ?sar,
    ?rol, ?min, ?minu, ?max, ?maxu, ?addc⟩, fun h => ⟨?clz, ?popc, ?bswap, ?abs, ?abss⟩⟩
  case add => exact completes_shortOp h (exec_add ..) rfl
  case adds => exact completes_shortOp h (exec_add ..) rfl
  case addu => exact completes_shortOp h (exec_add ..) rfl
  case sub => exact completes_shortOp h (exec_sub ..) rfl
  case subs => exact completes_shortOp h (exec_sub ..) rfl
  case subu => exact completes_shortOp h (exec_sub ..) rfl
  case mul => exact completes_longOp_noFlags h (exec_mul ..) rfl
  case mulh => exact completes_longOp_noFlags h (exec_mulh ..) rfl
  case mulhu => exact completes_longOp_noFlags h (exec_mulh ..) (by simp [mulhRes, g])
  case and => exact completes_shortOp h (exec_and ..) rfl
  case or => exact completes_shortOp h (exec_or ..) rfl
  case xor => exact completes_shortOp h (exec_xor ..) rfl
  case andn => exact completes_shortOp h (exec_andn ..) rfl
  case shl => exact completes_shortOp h (exec_shl ..) (by push_cast; rfl)
  case shr => exact completes_shortOp h (exec_shr ..) (by push_cast; rfl)
  case sar => exact completes_shortOp h (exec_sar ..) rfl
  case rol => exact completes_shortOp h (exec_rol ..) (congrArg Nat.cast hrol.symm)
  case min => exact completes_shortOp h (exec_min ..) rfl
  case minu => exact completes_shortOp h (exec_min ..) (Nat.cast_min ..)
  case max => exact completes_shortOp h (exec_max ..) rfl
  case maxu => exact completes_shortOp h (exec_max ..) (Nat.cast_max ..)
  case addc => exact completes_shortOp h (exec_addc ..) (by push_cast; rfl)
  case clz =>
    intro n hn hzero hone
    exact completes_unaryOp h (exec_clz ..) (congrArg Nat.cast (sub_bitLen_eq hn hzero hone))
  case popc => exact completes_unaryOp h (exec_popc ..) rfl
  case bswap => exact completes_unaryOp h (exec_bswap ..) rfl
  case abs =>
    have := completes_unaryOp h (exec_abs ctl w false d a s) (Int.natCast_natAbs _)
    rwa [← resWord_emod] at this
  case abss => exact completes_unaryOp h (exec_abs ..) (congrArg (min · _) (Int.natCast_natAbs _))

/-! ## O2 (R69) -/

/-- Settles O2: the cases of R69 are those of `divRes` and `remRes`; minus one is no zero divisor. -/
theorem divideAndRemainder : Obligations.DivideAndRemainder := by
  unfold Obligations.DivideAndRemainder
  intro s c ctl w u d a b h g fills
  refine ⟨fun h0 => ⟨?_, ?_⟩, fun h0 hu => ⟨?_, ?_⟩, fun hu hmin hone => ?_, fun h0 hu hover => ⟨?_, ?_⟩⟩
  · exact completes_longOp h (exec_div ..) (if_pos h0)
  · exact completes_longOp h (exec_rem ..) (if_pos h0)
  · exact completes_longOp h (exec_div ..) ((if_neg h0).trans (if_pos hu))
  · exact completes_longOp h (exec_rem ..) ((if_neg h0).trans (if_pos hu))
  · have h0 : g.ub ≠ 0 := fun h0 => absurd (hone.symm.trans (intArgs_sb_eq_zero h0)) (by decide)
    have hu' : ¬u = true := by simp [hu]
    exact ⟨completes_longOp h (exec_div ..) ((if_neg h0).trans ((if_neg hu').trans (if_pos ⟨hmin, hone⟩))),
      completes_longOp h (exec_rem ..) ((if_neg h0).trans ((if_neg hu').trans (if_pos ⟨hmin, hone⟩)))⟩
  · exact completes_longOp h (exec_div ..) ((if_neg h0).trans ((if_neg (by simp [hu])).trans (if_neg hover)))
  · exact completes_longOp h (exec_rem ..) ((if_neg h0).trans ((if_neg (by simp [hu])).trans (if_neg hover)))

/-! ## Bit fields (R71) -/

/-- A field of `len` bits read with a sign, as a word. -/
theorem resWord_signedOf {len f : Nat} (hf : f < 2 ^ len) :
    resWord 64 (signedOf len f)
      = if 2 ^ (len - 1) ≤ f then BitVec.ofInt 64 ((f : Int) - 2 ^ len) else BitVec.ofNat 64 f := by
  rw [resWord_64, signedOf, Nat.mod_eq_of_lt hf]
  by_cases hneg : 2 ^ (len - 1) ≤ f
  · rw [if_pos hneg, if_neg (by omega)]
  · rw [if_neg hneg, if_pos (by omega), BitVec.ofInt_natCast]

/-- What `BEXT` gives, its field with or without the sign. -/
theorem bextRes_eq (sx : Bool) (a k : BitVec 64) {pos len f : Nat} (hpos : k.toNat % 64 = pos)
    (hlen : min (k.toNat / 64 % 128) (64 - pos) = len) (hf : a.toNat / 2 ^ pos % 2 ^ len = f) :
    bextRes sx a k = if sx = true ∧ 0 < len ∧ 2 ^ (len - 1) ≤ f then BitVec.ofInt 64 ((f : Int) - 2 ^ len)
      else BitVec.ofNat 64 f := by
  have hlt : f < 2 ^ len := hf ▸ Nat.mod_lt _ (Nat.two_pow_pos _)
  simp only [bextRes, hpos, hlen, hf, resWord_signedOf hlt, Bool.and_eq_true, decide_eq_true_eq, ← ite_and,
    and_assoc]

/-- Bits of a mask of `len` ones from `pos` on. -/
theorem testBit_onesAt (len pos i : Nat) :
    ((2 ^ len - 1) * 2 ^ pos).testBit i = decide (pos ≤ i ∧ i < pos + len) := by
  rw [Nat.testBit_mul_two_pow, Nat.testBit_two_pow_sub_one, ← Bool.decide_and]
  congr 1
  simp only [eq_iff_iff]
  omega

/-- What `BINS` gives, bit by bit: the field within its bounds, the old value around it, nothing past the width. -/
theorem getLsbD_binsRes {w : Nat} (d a k : BitVec 64) {pos len : Nat} (hpos : k.toNat % 64 = pos)
    (hlen : (if w ≤ pos then 0 else min (k.toNat / 64 % 128) (w - pos)) = len) {i : Nat} (hi : i < 64) :
    (binsRes w d a k).getLsbD i
      = (decide (i < w) && if pos ≤ i ∧ i < pos + len then a.getLsbD (i - pos) else d.getLsbD i) := by
  have hfit : pos ≤ i → i < pos + len → i - pos < w := by split at hlen <;> omega
  simp only [binsRes, hpos, hlen, BitVec.getLsbD_ofNat, hi, Nat.testBit_mod_two_pow, BitVec.testBit_toNat, BitVec.getLsbD_or,
    BitVec.getLsbD_and, BitVec.getLsbD_not, BitVec.getLsbD_shiftLeft, testBit_onesAt, decide_true, Bool.true_and]
  by_cases hin : pos ≤ i ∧ i < pos + len
  · have := hfit hin.1 hin.2
    simp [hin, this, show i - pos < 64 by omega, Nat.not_lt.mpr hin.1]
  · simp [hin]

/-! ## O3 (R71, R72) -/

/-- Settles O3: each is a short producer of one register. -/
theorem bitFieldsAndMoves : Obligations.BitFieldsAndMoves := by
  unfold Obligations.BitFieldsAndMoves
  intro s c ctl
  refine ⟨fun sx d a k h => ?bext, fun w d a k h => ?bins, fun d a b h => ?sel, fun d a h => ?movx, fun d a h => ?movp,
    fun d imm h => ?movi, fun d m sc h => ?lea⟩
  case bext =>
    dsimp only
    rw [← bextRes_eq sx (xiVal c a) (xiVal c k) rfl rfl rfl]
    exact State.completes_setX h (exec_bext ..) rfl
  case bins =>
    exact ⟨binsRes (Width.bits w) (xVal c d) (xiVal c a) (xiVal c k), State.completes_setX h (exec_bins ..) rfl,
      fun i hi => getLsbD_binsRes _ _ _ rfl rfl hi⟩
  case sel => exact State.completes_setX h (exec_sel ..) rfl
  case movx => exact State.completes_setX h (exec_mov ..) rfl
  case movp => exact State.completes_setP h (exec_mov ..) (by cases hp : c.getP a.reg.val <;> simp [movVal, hp]) rfl
  case movi => exact State.completes_setX h (exec_movi ..) rfl
  case lea => exact State.completes_setX h (exec_lea ..) rfl

/-! ## Predicates (R52, R73, R74) -/

@[simp] theorem getLsbD_predWord (b : Bool) : (predWord b).getLsbD 0 = b := by
  cases b <;> rfl

@[simp] theorem Context.getP_zero (c : Context) : c.getP 0 = true := rfl

/-- The first bits of a number, each with its weight, add up to less than the next weight. -/
theorem sum_weighted_lt (f : Nat → Bool) (n : Nat) : ((List.range n).map fun i => if f i then 2 ^ i else 0).sum < 2 ^ n := by
  induction n with
  | zero => simp
  | succ n ih =>
    rw [List.range_succ, List.map_append, List.sum_append, List.map_singleton, List.sum_singleton, Nat.pow_succ]
    split <;> omega

/-- A sum of weights has the bits that it was taken over. -/
theorem testBit_sum_weighted (f : Nat → Bool) (n i : Nat) :
    ((List.range n).map fun i => if f i then 2 ^ i else 0).sum.testBit i = (decide (i < n) && f i) := by
  induction n with
  | zero => simp
  | succ n ih =>
    have hlt := sum_weighted_lt f n
    have hsum : ((List.range (n + 1)).map fun i => if f i then 2 ^ i else 0).sum
        = 2 ^ n * (f n).toNat + ((List.range n).map fun i => if f i then 2 ^ i else 0).sum := by
      rw [List.range_succ, List.map_append, List.sum_append, List.map_singleton, List.sum_singleton, Nat.add_comm]
      cases f n <;> simp
    rw [hsum, Nat.testBit_two_pow_mul_add _ hlt, ih]
    obtain hin | rfl | hout := Nat.lt_trichotomy i n
    · simp [hin, Nat.lt_succ_of_lt hin]
    · cases f i <;> simp
    · rw [if_neg (by omega), Nat.testBit_bool_toNat]
      simp [show ¬i < n + 1 by omega, show i - n ≠ 0 by omega]

theorem getLsbD_packPreds (c : Context) {i : Nat} (hi : i < 64) :
    (packPreds c).getLsbD i = (decide (i < 8) && c.getP i) := by
  rw [packPreds, BitVec.getLsbD_ofNat, testBit_sum_weighted, decide_eq_true hi, Bool.true_and]

/-- Writes of p registers one after another are one change of their context. -/
theorem State.foldl_setReg_p (s : State) (uid : Nat) (v : BitVec 64) (f : Context → Context) (rs : List (Fin 8)) :
    rs.foldl (fun s r => s.setReg uid (.p r) (predWord (v.getLsbD r.val))) (s.modCtx uid f)
      = s.modCtx uid fun c => rs.foldl (fun (k : Context) r => k.setP r (v.getLsbD r.val)) (f c) := by
  induction rs generalizing f with
  | nil => rfl
  | cons r rs ih =>
    rw [List.foldl_cons, State.setReg, State.modCtx_modCtx, ih]
    simp only [Context.setAny_p, getLsbD_predWord, List.foldl_cons]

theorem Context.foldl_setP_slot (c : Context) (g : Fin 8 → Bool) (rs : List (Fin 8)) :
    (rs.foldl (fun (k : Context) r => k.setP r (g r)) c).slot = c.slot := by
  induction rs generalizing c with
  | nil => rfl
  | cons r rs ih => rw [List.foldl_cons, ih, Context.setP_slot]

/-- Writes of p registers leave what moving on changes. -/
theorem Context.foldl_setP_marks (c : Context) (pc : BitVec 64) (e : Bool) (blk) (g : Fin 8 → Bool) (rs : List (Fin 8)) :
    rs.foldl (fun (k : Context) r => k.setP r (g r)) { c with pc := pc, pastEnd := e, block := blk }
      = { rs.foldl (fun (k : Context) r => k.setP r (g r)) c with pc := pc, pastEnd := e, block := blk } := by
  induction rs generalizing c with
  | nil => rfl
  | cons r rs ih =>
    have hset : ({ c with pc := pc, pastEnd := e, block := blk } : Context).setP r (g r)
        = { c.setP r (g r) with pc := pc, pastEnd := e, block := blk } := by
      unfold Context.setP
      split <;> rfl
    rw [List.foldl_cons, hset, ih, List.foldl_cons]

theorem State.movedOn_eq (s : State) (uid : Nat) : s.movedOn uid = s.modCtx uid Context.movedOn := rfl

/-- `PMOV.fromx` writes p1 to p7. -/
theorem completes_pmov_fromx {s : State} {c : Context} {ctl : Ctl} {a : XI}
    (h : s.ready c ctl (xiSrcs a) (preds17.map AnyReg.p)) :
    s.completes ctl c (.pmov ctl (.fromx a))
      (preds17.foldl (fun (k : Context) n => k.setP n ((xiVal c a).getLsbD n.val)) c) := by
  rw [State.completes, State.goesTo, exec_pmov, execPmov]
  refine issue_context (fun k => preds17.foldl (fun (k : Context) n => k.setP n ((xiVal c a).getLsbD n.val)) k) _ h rfl ?_ ?_
    (c.foldl_setP_slot (fun n => (xiVal c a).getLsbD n.val) preds17)
  · rw [State.movedOn_eq, State.modCtx_modCtx]
    exact congrArg Res.done (State.foldl_setReg_p s _ _ Context.movedOn preds17)
  · rw [Context.movedOn, Context.foldl_setP_marks]

/-! ## O4 (R73, R74) -/

/-- Settles O4: each writes one predicate or register, and `PMOV.fromx` seven. -/
theorem comparisonsAndPredicates : Obligations.ComparisonsAndPredicates := by
  unfold Obligations.ComparisonsAndPredicates
  intro s c ctl
  refine ⟨fun w pd a b h => ?cmp, fun tt pd pa pb h => ?plog, fun d h => ?tox, fun a h => completes_pmov_fromx h⟩
  case cmp =>
    intro g gives
    have hcmp {cond : CmpCond} {v : Bool} (hv : cmpRes cond g = v) : gives cond v :=
      State.completes_setP h (exec_cmp ..) ((getLsbD_predWord _).trans hv) rfl
    have hne (m n : Nat) : (m != n) = decide (m ≠ n) := by rw [Bool.eq_iff_iff]; simp
    exact ⟨hcmp rfl, hcmp (hne ..), hcmp rfl, hcmp rfl, hcmp rfl, hcmp rfl, hcmp (hne ..)⟩
  case plog => exact State.completes_setP h (exec_plog ..) (getLsbD_predWord _) rfl
  case tox =>
    have htox : s.completes ctl c (.pmov ctl (.tox d)) (c.setX d (packPreds c)) :=
      State.completes_setX (body := fun uid c m => .done (m.setReg uid (.x d) (packPreds c))) h (exec_pmov ..) rfl
    exact ⟨packPreds c, htox, getLsbD_packPreds c (by decide), fun i hi => getLsbD_packPreds c hi⟩

end Sys2Proof.Machine
end

section
/-! Proofs about the checks that come before an issue (R37, R54, R55, R59, R64) and about special registers (R64, R65,
R75): O49, O5 and O6. -/

namespace Sys2Proof.Machine

/-! ## What an issue answers before the body runs (R54, R55) -/

/-- Once the guard is true and the lines of the registers named are there, the registers decide: first an empty source that
asks for a fault, then an empty one, then a poisoned one, then a pending destination. -/
theorem issue_registers {op : Nat} {ctl : Ctl} {rd : List Src} {wr : List AnyReg} {s : State} {c : Context}
    (body : Nat → Context → State → Res) (hc : s.ctx? s.issuing = some c) (hfull : c.isFull (.p ctl.pred) = true)
    (hguard : guardTrue ctl c = true)
    (hlines : ∀ n ∈ namedLines (rd.map (·.reg)) ++ namedLines wr, KMap.has c.lines n = true) :
    ∃ last : Out, issue op ctl noPriv rd wr s body
      = if rd.any fun r => r.bang && !(c.isFull r.reg) then .next (s.takeFault s.issuing op causeEmpty 0 c.pc)
        else if rd.any fun r => !(c.isFull r.reg) then .next (s.blocked s.issuing .reg)
        else if rd.any fun r => c.isPois r.reg then .next (s.takeFault s.issuing op causePoison 0 c.pc)
        else if wr.any fun r => c.isPend r then .next (s.blocked s.issuing .reg)
        else last := by
  have hfind : (namedLines (rd.map (·.reg)) ++ namedLines wr).find? (fun n => !(KMap.has c.lines n)) = none :=
    List.find?_eq_none.mpr fun n hn => by simp [hlines n hn]
  unfold issue
  rw [hc]
  simp only [noPriv, hfull, hguard, hfind, Bool.not_true, Bool.false_eq_true, if_false]
  exact ⟨_, rfl⟩

/-- Settles O49: in each clause the register that it names decides, and nothing that is looked at before it does. -/
theorem operandRules : Obligations.OperandRules := by
  unfold Obligations.OperandRules
  intro op ctl rd wr s c body hc hfull hguard hlines out
  obtain ⟨last, hout⟩ : ∃ last, out = _ := issue_registers body hc hfull hguard hlines
  have noBang (h : ∀ r ∈ rd, r.bang = true → c.isFull r.reg = true) :
      ¬(rd.any fun r => r.bang && !(c.isFull r.reg)) = true := by
    simpa using h
  have noEmpty (h : ∀ r ∈ rd, c.isFull r.reg = true) : ¬(rd.any fun r => !(c.isFull r.reg)) = true := by
    simpa using h
  have noPoison (h : ∀ r ∈ rd, c.isPois r.reg = false) : ¬(rd.any fun r => c.isPois r.reg) = true := by
    simpa using h
  refine ⟨fun ⟨r, hr, hb, he⟩ => ?bang, fun hb ⟨r, hr, he⟩ => ?empty, fun hf ⟨r, hr, hp⟩ => ?poison,
    fun hf ⟨r, hr, hp⟩ => ?pending⟩
  case bang => rw [hout, if_pos (List.any_eq_true.mpr ⟨r, hr, by simp [hb, he]⟩)]
  case empty => rw [hout, if_neg (noBang hb), if_pos (List.any_eq_true.mpr ⟨r, hr, by simp [he]⟩)]
  case poison =>
    rw [hout, if_neg (noBang fun r hr _ => hf r hr), if_neg (noEmpty hf), if_pos (List.any_eq_true.mpr ⟨r, hr, hp⟩)]
  case pending =>
    rw [hout, if_neg (noBang fun r hr _ => (hf r hr).1), if_neg (noEmpty fun r hr => (hf r hr).1),
      if_neg (noPoison fun r hr => (hf r hr).2), if_pos (List.any_eq_true.mpr ⟨r, hr, hp⟩)]

/-- An instruction that its context may not execute faults with privileged, whatever its registers hold (R64). -/
theorem issue_privileged {op : Nat} {ctl : Ctl} {priv : Context → Bool} {rd : List Src} {wr : List AnyReg} {s : State}
    {c : Context} {body : Nat → Context → State → Res} (hc : s.ctx? s.issuing = some c) (hp : priv c = true) :
    issue op ctl priv rd wr s body = .next (s.takeFault s.issuing op causePrivileged 0 c.pc) := by
  unfold issue
  rw [hc]
  exact if_pos hp

/-! ## Reading special registers (R64, R75) -/

/-- A register that is read without a draw of a free value. -/
theorem completes_sread {s : State} {c : Context} {ctl : Ctl} {d : Fin 64} {sp : Special} {v : BitVec 64}
    (h : s.ready c ctl [] [.x d]) (hv : (s.movedOn s.issuing).special c sp = (v, s.movedOn s.issuing)) :
    s.completes ctl c (.sread ctl d sp) (c.setX d v) := by
  refine State.completes_setX h (exec_sread ..) ?_
  dsimp only
  rw [hv]

/-- While the launch of a context is live, its fields are those of that launch. -/
theorem State.launchField_of_live {s : State} {c : Context} {l : Launch} {f : Launch → Option (BitVec 64)} {v : BitVec 64}
    (hl : s.launch? c.lid = some l) (hf : f l = some v) : s.launchField c f = (v, s) := by
  have hfacts : s.factsOf c.lid = some l := by rw [State.factsOf, hl]; rfl
  rw [State.launchField, hfacts, Option.bind_some, hf]

/-- Settles O5: the value of each register stands in the context, in the package, or in the live launch. -/
theorem specialRegisterReads : Obligations.SpecialRegisterReads := by
  unfold Obligations.SpecialRegisterReads
  intro s c ctl d h reads
  have hreads {sp : Special} {v : BitVec 64} (hv : (s.movedOn s.issuing).special c sp = (v, s.movedOn s.issuing)) :
      reads sp v := completes_sread h hv
  refine ⟨hreads rfl, hreads rfl, hreads rfl, hreads rfl, hreads rfl, fun l hl => ⟨?items, ?seed, fun n hn => ?lcore⟩,
    hreads rfl, hreads rfl, hreads rfl, fun n hn => hreads ?slot, hreads rfl, hreads rfl, hreads rfl, hreads rfl, hreads rfl,
    hreads rfl, hreads rfl, hreads rfl⟩
  case items => exact hreads (State.launchField_of_live hl rfl)
  case seed => exact hreads (State.launchField_of_live hl rfl)
  case lcore => exact hreads (State.launchField_of_live hl (by rw [hn]; rfl))
  case slot => rw [State.special, hn]

/-! ## Writing special registers (R64, R65, R75) -/

@[simp] theorem Context.writeSpecial_slot (c : Context) (sp : Special) (v : BitVec 64) :
    (c.writeSpecial sp v).slot = c.slot := by
  cases sp
  case arFlags => unfold Context.writeSpecial Context.writeFlags; dsimp only; split <;> rfl
  all_goals rfl

/-- A write of a special register and moving on do not meet. -/
theorem Context.writeSpecial_movedOn (c : Context) (sp : Special) (v : BitVec 64) :
    c.movedOn.writeSpecial sp v
      = { c.writeSpecial sp v with pc := c.movedOn.pc, pastEnd := c.movedOn.pastEnd, block := c.movedOn.block } := by
  cases sp
  case arFlags => unfold Context.writeSpecial Context.writeFlags; dsimp only; split <;> rfl
  all_goals rfl

/-- `SWRITE`, where the context may write the register, changes its context alone. -/
theorem completes_swrite {s : State} {c k : Context} {ctl : Ctl} {a : XI} {sp : Special} (h : s.ready c ctl (xiSrcs a) [])
    (hp : swritePriv sp c = false) (hk : c.writeSpecial sp (xiVal c a) = k) : s.completes ctl c (.swrite ctl sp a) k := by
  subst hk
  rw [State.completes, State.goesTo, exec_swrite, execSwrite]
  exact issue_context (fun k => k.writeSpecial sp (xiVal c a)) _ h hp rfl (by rw [Context.writeSpecial_movedOn]; rfl)
    (by simp)

/-- Settles O6: each write is that of `writeSpecial`, and `SWRITE ar.cause` outside slot 7 is stopped before it. -/
theorem specialRegisterWrites : Obligations.SpecialRegisterWrites := by
  unfold Obligations.SpecialRegisterWrites
  intro s c ctl a h v writes
  refine ⟨fun h5 => ?flags, fun h5 => ?rearm, ?bwto, ?rlim, ?srmode, fun h7 => ?cause, fun h7 => ?priv⟩
  case flags => exact completes_swrite h rfl (if_pos h5)
  case rearm => exact completes_swrite h rfl (if_neg (Bool.eq_false_iff.mp h5))
  case bwto => exact completes_swrite h rfl rfl
  case rlim => exact completes_swrite h rfl rfl
  case srmode => exact completes_swrite h rfl rfl
  case cause => exact completes_swrite h (by simp [swritePriv, h7]) rfl
  case priv =>
    rw [exec_swrite]
    exact issue_privileged h.1 (by simp [swritePriv, h7])

end Sys2Proof.Machine
end

section
/-! Proofs about the state after reset and about contexts as they are created (R58, R398, R416), and O55. -/

namespace Sys2Proof.Machine

/-- After reset no region is live, so none has a world. -/
theorem State.regionWorld_reset (r : Nat) : State.reset.regionWorld r = 0 := ite_self 0

/-- After reset no line has an owner or a key. -/
theorem State.protOf_reset (a : Nat) : State.reset.protOf a = (0, []) := by
  unfold State.protOf
  split
  · dsimp only
    rw [State.regionWorld_reset, if_pos rfl]
    rfl
  all_goals rfl

theorem State.isPlain_reset (w a : Nat) : State.reset.isPlain w a = true := by
  simp only [State.isPlain, State.protOf_reset]

/-- After reset memory reads as zero, full and not poisoned (log 3). -/
theorem State.reset_reads (w a : Nat) :
    State.reset.readByte w a = 0 ∧ State.reset.isFull a = true ∧ State.reset.isPoisoned a = false :=
  ⟨State.readByte_of_isPlain (State.isPlain_reset w a), Bool.or_true _, rfl⟩

section Fresh

variable (world space region lid : Nat) (item : BitVec 64) (d : DieNo) (k : CoreNo) (pc : BitVec 64) (srmode : Bool)

/-- The registers of a context as it is created hold zero; p0 alone reads 1 (R52, R58). -/
theorem Context.fresh_values (n : Nat) :
    (Context.fresh world space region lid item d k pc srmode).getX n = 0
    ∧ (Context.fresh world space region lid item d k pc srmode).getV n = 0
    ∧ (0 < n → (Context.fresh world space region lid item d k pc srmode).getP n = false) := by
  refine ⟨ite_self _, rfl, fun hn => ?_⟩
  have hone : (1#8).getLsbD n = false := by simp [BitVec.getLsbD_one, hn.ne']
  exact Bool.or_eq_false_iff.mpr ⟨beq_false_of_ne hn.ne', hone⟩

/-- Every register of a context as it is created is full, and none is pending or poisoned (R58). -/
theorem Context.fresh_marks (r : AnyReg) :
    (Context.fresh world space region lid item d k pc srmode).isFull r = true
    ∧ (Context.fresh world space region lid item d k pc srmode).isPend r = false
    ∧ (Context.fresh world space region lid item d k pc srmode).isPois r = false := by
  have hones {w : Nat} (i : Fin w) : (BitVec.allOnes w).getLsbD i.val = true := by simp
  cases r with
  | x r => exact ⟨Bool.or_eq_true_iff.mpr (.inr (hones r)), BitVec.getLsbD_zero, BitVec.getLsbD_zero⟩
  | v r => exact ⟨hones r, BitVec.getLsbD_zero, BitVec.getLsbD_zero⟩
  | p r => exact ⟨Bool.or_eq_true_iff.mpr (.inr (hones r)), BitVec.getLsbD_zero, rfl⟩

end Fresh

/-- Settles O55: reset lists nothing, and `Context.fresh` gives each field the value of R58. -/
theorem resetState : Obligations.ResetState := by
  unfold Obligations.ResetState
  refine ⟨State.reset_memory_wf, State.reset_reads, rfl, rfl, rfl, rfl, rfl, rfl, fun d n => ⟨rfl, rfl, rfl⟩, ?_⟩
  intro world space region lid item d k pc srmode
  exact ⟨fun n => Context.fresh_values .., fun r => Context.fresh_marks .., rfl, rfl, rfl, rfl, rfl, rfl,
    rfl, rfl, rfl, rfl, rfl⟩

end Sys2Proof.Machine
end

section
/-! Proofs about instructions that may issue, by what their bodies answer (R37, R54, R55). -/

namespace Sys2Proof.Machine

/-! ## What the checks before the body find -/

/-- What `mayIssue` says of the registers and lines that an issue looks at. -/
theorem Context.checks_of_mayIssue {c : Context} {ctl : Ctl} {rd : List Src} {wr : List AnyReg}
    (h : c.mayIssue ctl rd wr = true) :
    c.isFull (.p ctl.pred) = true ∧ guardTrue ctl c = true
    ∧ (namedLines (rd.map (·.reg)) ++ namedLines wr).find? (fun n => !(KMap.has c.lines n)) = none
    ∧ (rd.any fun r => r.bang && !(c.isFull r.reg)) = false
    ∧ (rd.any fun r => !(c.isFull r.reg)) = false
    ∧ (rd.any fun r => c.isPois r.reg) = false
    ∧ (wr.any fun r => c.isPend r) = false := by
  simp only [Context.mayIssue, Bool.and_eq_true, List.all_eq_true, Bool.not_eq_true'] at h
  obtain ⟨⟨⟨⟨⟨-, hpred⟩, hguard⟩, hlines⟩, hrd⟩, hwr⟩ := h
  refine ⟨hpred, hguard, List.find?_eq_none.mpr fun n hn => by simp [hlines n hn], List.any_eq_false.mpr fun r hr => ?_,
    List.any_eq_false.mpr fun r hr => ?_, List.any_eq_false.mpr fun r hr => ?_, List.any_eq_false.mpr fun r hr => ?_⟩
  · simp [(hrd r hr).1]
  · simp [(hrd r hr).1]
  · simp [(hrd r hr).2]
  · simp [hwr r hr]

theorem State.ready.slot_isSome {s : State} {c : Context} {ctl : Ctl} {rd : List Src} {wr : List AnyReg}
    (h : s.ready c ctl rd wr) : c.slot.isSome = true := by
  have hmay := h.2
  simp only [Context.mayIssue, Bool.and_eq_true, and_assoc] at hmay
  exact hmay.1

/-! ## What an instruction does, by what its body answers -/

section Answers

variable {s : State} {c : Context} {ctl : Ctl} {i : Instr} {op : Nat} {priv : Context → Bool} {rd : List Src}
  {wr : List AnyReg} {body : Nat → Context → State → Res}

/-- A body that is done leaves its state, with the issue marked. -/
theorem State.doneAs_of_done {t : State} (h : s.ready c ctl rd wr) (hi : exec i s = issue op ctl priv rd wr s body)
    (hp : priv c = false) (hb : body s.issuing c (s.movedOn s.issuing) = .done t) : s.doneAs ctl c rd wr i t := by
  rw [State.doneAs, hi, issue_done h hp hb]

/-- A body that traps takes a precise fault (R89). -/
theorem State.faults_of_trap {cause addr : Nat} (h : s.ready c ctl rd wr)
    (hi : exec i s = issue op ctl priv rd wr s body) (hp : priv c = false)
    (hb : body s.issuing c (s.movedOn s.issuing) = .trap cause addr) : s.faults c i op cause addr := by
  obtain ⟨hc, hmay⟩ := h
  obtain ⟨hpred, hguard, hlines, hbang, hempty, hpois, hpend⟩ := Context.checks_of_mayIssue hmay
  rw [State.faults, hi, issue, hc]
  simp only [hp, hpred, hguard, hlines, hbang, hempty, hpois, hpend, hb, Bool.not_true, Bool.false_eq_true, if_false]

/-- A body that changes nothing: the context alone moves on. -/
theorem State.completes_of_nothing (h : s.ready c ctl rd wr) (hi : exec i s = issue op ctl priv rd wr s body)
    (hp : priv c = false) (hb : body s.issuing c (s.movedOn s.issuing) = .done (s.movedOn s.issuing)) :
    s.completes ctl c i c := by
  refine ⟨_, hi.trans (issue_done h hp hb), State.issuedTo_modCtx Context.movedOn ?_⟩
  obtain ⟨hrest, hothers, ⟨c', hc', hissued⟩, hcores⟩ := State.issuedTo_retired ctl c.pc
    (namedLines (rd.map (·.reg))) (destLines wr) (State.movedOn_ctx h.1) h.slot_isSome
  exact ⟨hrest, hothers, ⟨c', hc', Context.issuedFrom_marks hissued rfl⟩, hcores⟩

/-- A body that writes one x register. -/
theorem State.completes_of_setReg {d : Fin 64} {v : BitVec 64} (h : s.ready c ctl rd wr)
    (hi : exec i s = issue op ctl priv rd wr s body) (hp : priv c = false)
    (hb : body s.issuing c (s.movedOn s.issuing) = .done ((s.movedOn s.issuing).setReg s.issuing (.x d) v)) :
    s.completes ctl c i (c.setX d v) := by
  rw [State.completes, State.goesTo, hi, ← Context.setAny_x]
  exact issue_setReg h hp hb

/-- A body that leaves the fill of a word on its way. -/
theorem State.completes_of_produceWord {r : AnyReg} {v : BitVec 64} (h : s.ready c ctl rd wr)
    (hi : exec i s = issue op ctl priv rd wr s body) (hp : priv c = false)
    (hb : body s.issuing c (s.movedOn s.issuing) = .done ((s.movedOn s.issuing).produceWord s.issuing r v)) :
    s.completes ctl c i (c.awaits (valueFill r v)) := by
  rw [State.completes, State.goesTo, hi]
  exact issue_produce h hp hb

end Answers

end Sys2Proof.Machine
end

section
/-! Proofs about giving up the slot (R94, R346), and O8. -/

namespace Sys2Proof.Machine

/-! ## What `SUSPEND` with a memory operand does (R94, R167, R168, R346) -/

/-- The package of a job-scope address (R345). -/
theorem State.jobPlace_of_homeOf {s : State} {a p : Nat} : s.homeOf a = .job p → (jobPlace a).1 = p := by
  fun_cases State.homeOf s a
  all_goals intro h; cases h
  rfl

section Suspend

variable {s : State} {uid : Nat} {c : Context} {xs : Fin 64} {op : MemOp} {acc : Acc}

/-- A handler that cannot be converted goes on with no_record. -/
theorem State.suspendOn_of_none (h : s.suspendable uid c = none) :
    s.suspendOn uid c xs op = .done (s.setReg uid (.x xs) (errWord 5)) := by
  rw [State.suspendOn, h]
  exact if_pos rfl

variable {t : State} (hsusp : s.suspendable uid c = some t)
include hsusp

theorem State.suspendOn_of_error {e : Nat × Nat}
    (h : s.resolve c op.mode (formAddr c op 8) 8 .rd false .data = .error e) :
    s.suspendOn uid c xs op = .trap e.1 e.2 := by
  rw [State.suspendOn, hsusp, if_neg (by simp), h, orTrap]

variable (hres : s.resolve c op.mode (formAddr c op 8) 8 .rd false .data = .ok acc)
include hres

theorem State.suspendOn_here (h : ∀ p, s.homeOf (partAt acc.parts 0) ≠ .job p) :
    s.suspendOn uid c xs op = s.suspendWord uid c xs acc (partAt acc.parts 0) := by
  rw [State.suspendOn, hsusp, if_neg (by simp), hres, orTrap]
  dsimp only
  split
  next p hp => exact absurd hp (h p)
  next => rfl

/-- A job-scope word of the own package is waited for at the place that the package gives it (R345). -/
theorem State.suspendOn_ownPackage {q : Nat} (h : s.homeOf (partAt acc.parts 0) = .job s.pkg.toNat)
    (hq : s.admits s.job c.world (jobPlace (partAt acc.parts 0)).2 8 .rd = some q) :
    s.suspendOn uid c xs op = s.suspendWord uid c xs acc q := by
  rw [State.suspendOn, hsusp, if_neg (by simp), hres, orTrap]
  simp only [h, hq, if_true]

theorem State.suspendOn_notAdmitted (h : s.homeOf (partAt acc.parts 0) = .job s.pkg.toNat)
    (hq : s.admits s.job c.world (jobPlace (partAt acc.parts 0)).2 8 .rd = none) :
    s.suspendOn uid c xs op = .trap causePermission acc.va := by
  rw [State.suspendOn, hsusp, if_neg (by simp), hres, orTrap]
  simp only [h, hq, if_true]

theorem State.suspendOn_away {p : Nat} (h : s.homeOf (partAt acc.parts 0) = .job p) (hp : p ≠ s.pkg.toNat)
    (hheld : c.loadsHeld = false) (hlock : s.lockReady c acc = true) :
    s.suspendOn uid c xs op = s.suspendRemote uid c xs acc (partAt acc.parts 0) := by
  rw [State.suspendOn, hsusp, if_neg (by simp), hres, orTrap]
  simp only [h, hp, hheld, hlock, Bool.not_true, Bool.or_self, Bool.false_eq_true, if_false]

omit hres

/-- The request for a word of another package leaves once its continuation is suspended. -/
theorem State.suspendRemote_of_suspended {a : Nat} {k : Context}
    (hk : ((t.giveCxid uid xs).suspendFor uid (.word (BitVec.ofNat 64 acc.va))).ctx? uid = some k)
    (hstate : k.state = .suspended) :
    s.suspendRemote uid c xs acc a
      = .done (((t.giveCxid uid xs).suspendFor uid (.word (BitVec.ofNat 64 acc.va))).sendReq c.die.val (jobPlace a).1 c.world
          (jobPlace a).2 c.rlim.toNat c.die (.syncLoad 8 false) (.sync uid none acc none false)) := by
  rw [State.suspendRemote, hsusp]
  dsimp only
  rw [hk]
  simp only [hstate, beq_self_eq_true, if_true]

omit hsusp
variable {a : Nat}

theorem State.suspendWord_untagged (h : s.untagged (a / 8 * 8) = true) :
    s.suspendWord uid c xs acc a = .trap causePermission (acc.va / 8 * 8) := by
  rw [State.suspendWord, if_pos h]

/-- A word that no migration holds and that nothing earlier keeps from being looked at decides by its full-empty bit. -/
theorem State.suspendWord_of_home {k : State} (htag : s.untagged (a / 8 * 8) = false) (hheld : c.loadsHeld = false)
    (hlock : s.lockReady c acc = true) (hmove : s.pauser uid .issue (s.places acc) = none)
    (hk : ((s.unpause uid .issue).l1Home (some (coreKey c.die.val c.core.val)) (a / 8 * 8) false).suspendable uid c = some k) :
    ((k.giveCxid uid xs).isFull (a / 8 * 8) = true →
      s.suspendWord uid c xs acc a = .done ((k.giveCxid uid xs).recordHere uid 0x06))
    ∧ ((k.giveCxid uid xs).isFull (a / 8 * 8) = false → (k.giveCxid uid xs).listRoom (a / 8 * 8) = true →
      s.suspendWord uid c xs acc a = .done ((k.giveCxid uid xs).waitWord uid acc (a / 8 * 8))) := by
  constructor
  · intro hfull
    simp only [State.suspendWord, htag, hheld, hlock, State.throughMove, hmove, hk, hfull, Bool.not_true, Bool.or_self,
      Bool.false_eq_true, if_false, if_true]
  · intro hempty hroom
    simp only [State.suspendWord, htag, hheld, hlock, State.throughMove, hmove, hk, hempty, hroom, Bool.not_true,
      Bool.or_self, Bool.false_eq_true, if_false, if_true]

end Suspend

/-! ## O8 (R94) -/

/-- Settles O8: each clause is one answer of the body of its instruction. -/
theorem givingUpTheSlot : Obligations.GivingUpTheSlot := by
  unfold Obligations.GivingUpTheSlot
  intro s c ctl hslot uid m
  refine ⟨fun xs h => ⟨fun t ht => ?free, fun hnone => ?noRecord⟩, fun xs op t acc h ht => ?word,
    fun xs op h hnone => ?wordNoRecord, fun h => ⟨fun hpin => ?pinned, fun hpin hpre => ?yields, fun hpin hpre => ?held⟩,
    fun r h => ⟨fun hfull => ?full, fun hempty hpin => ?waits, fun t hempty hpin h7 ht => ?converted⟩⟩
  case free =>
    refine State.doneAs_of_done h (exec_suspend ..) hslot ?_
    dsimp only
    rw [ht]
  case noRecord =>
    refine State.completes_of_setReg h (exec_suspend ..) hslot ?_
    dsimp only
    rw [hnone]
  case word =>
    have traps {cause addr : Nat} (hb : m.suspendOn uid c xs op = .trap cause addr) :
        s.faults c (.suspend ctl xs (some op)) 0x06 cause addr := State.faults_of_trap h (exec_suspend ..) hslot hb
    have ends {u : State} (hb : m.suspendOn uid c xs op = .done u) :
        s.doneAs ctl c [memSrc op] [.x xs] (.suspend ctl xs (some op)) u :=
      State.doneAs_of_done h (exec_suspend ..) hslot hb
    refine ⟨fun e he => traps (State.suspendOn_of_error ht he), fun hres => ?_⟩
    intro a done here
    have atWord {b : Nat} (hb : m.suspendOn uid c xs op = m.suspendWord uid c xs acc b) : here (b / 8 * 8) := by
      refine ⟨fun htag => traps (hb.trans (State.suspendWord_untagged htag)), fun htag hheld hlock hmove k hk => ?_⟩
      obtain ⟨hfull, hempty⟩ := State.suspendWord_of_home htag hheld hlock hmove hk
      exact ⟨fun h1 => ends (hb.trans (hfull h1)), fun h0 hroom => ends (hb.trans (hempty h0 hroom))⟩
    refine ⟨fun hhome => atWord (State.suspendOn_here ht hres hhome),
      fun q hown hq => atWord (State.suspendOn_ownPackage ht hres hown hq),
      fun hown hq => traps (State.suspendOn_notAdmitted ht hres hown hq), ?_⟩
    intro p k hhome hp hheld hlock u hk hstate
    have hb := (State.suspendOn_away ht hres hhome hp hheld hlock).trans
      (State.suspendRemote_of_suspended (a := a) ht hk hstate)
    rw [State.jobPlace_of_homeOf hhome] at hb
    exact ends hb
  case wordNoRecord => exact State.completes_of_setReg h (exec_suspend ..) hslot (State.suspendOn_of_none hnone)
  case pinned => exact State.completes_of_nothing h (exec_yield ..) hslot (if_pos hpin)
  case yields =>
    exact State.doneAs_of_done h (exec_yield ..) hslot
      ((if_neg (Bool.eq_false_iff.mp hpin)).trans (if_neg (Bool.eq_false_iff.mp hpre)))
  case held =>
    exact State.doneAs_of_done h (exec_yield ..) hslot ((if_neg (Bool.eq_false_iff.mp hpin)).trans (if_pos hpre))
  case full => exact State.completes_of_nothing h (exec_waitr ..) hslot (if_pos hfull)
  case waits =>
    exact State.doneAs_of_done h (exec_waitr ..) hslot
      ((if_neg (Bool.eq_false_iff.mp hempty)).trans (if_neg (Bool.eq_false_iff.mp hpin)))
  case converted =>
    refine State.doneAs_of_done h (exec_waitr ..) hslot
      ((if_neg (Bool.eq_false_iff.mp hempty)).trans ((if_pos hpin).trans ((if_neg h7).trans ?_)))
    rw [ht]

end Sys2Proof.Machine
end

section
/-! Proofs about creating and ending contexts and about faults (R95 to R99), and O9. -/

namespace Sys2Proof.Machine

/-- Settles O9: each clause is one answer of the body of its instruction; `TRET` outside slot 7 does not reach it. -/
theorem contextsAndTraps : Obligations.ContextsAndTraps := by
  unfold Obligations.ContextsAndTraps
  intro s c ctl
  dsimp only
  refine ⟨fun xs t r hslot h => ⟨fun halign => ?misaligned, fun halign himg hpc hrel => ?spawned⟩, fun h hpend => ?done,
    fun n h => State.faults_of_trap h (exec_trap ..) rfl rfl, fun mask h hpend => ⟨fun hclear => ?passes, fun hset => ?stops⟩,
    fun xs r h => ⟨fun h7 => ?privileged, fun h7 hnone => ?unknown,
      fun u k h7 hfound => ⟨fun hstate => ?notFaulted, fun hstate => ?returned⟩⟩⟩
  case misaligned => exact State.faults_of_trap h (exec_spawn ..) hslot (if_pos halign)
  case spawned =>
    refine State.doneAs_of_done h (exec_spawn ..) hslot ((if_neg (not_not.mpr halign)).trans ?_)
    simp only [himg, hpc, hrel, Bool.not_true, Bool.false_eq_true, if_false]
  case done => exact State.doneAs_of_done h (exec_done ..) rfl (if_neg (Bool.eq_false_iff.mp hpend))
  case passes =>
    have hmask : ¬c.flags &&& (mask.getD 0x167).setWidth 16 ≠ 0 := by cases mask <;> exact not_not.mpr hclear
    exact State.completes_of_nothing h (exec_tfence ..) rfl ((if_neg (Bool.eq_false_iff.mp hpend)).trans (if_neg hmask))
  case stops =>
    have hmask : c.flags &&& (mask.getD 0x167).setWidth 16 ≠ 0 := by cases mask <;> exact hset
    exact State.faults_of_trap h (exec_tfence ..) rfl ((if_neg (Bool.eq_false_iff.mp hpend)).trans (if_pos hmask))
  case privileged =>
    rw [State.faults, exec_tret]
    exact issue_privileged h.1 (bne_iff_ne.mpr h7)
  all_goals have hslot : notSlot7 c = false := by simp [notSlot7, h7]
  case unknown =>
    refine State.completes_of_produceWord h (exec_tret ..) hslot ?_
    rw [hnone]
  case notFaulted =>
    refine State.completes_of_produceWord h (exec_tret ..) hslot ?_
    rw [hfound]
    exact if_neg (mt beq_iff_eq.mp hstate)
  case returned =>
    refine State.doneAs_of_done h (exec_tret ..) hslot ?_
    rw [hfound]
    exact if_pos (beq_iff_eq.mpr hstate)

end Sys2Proof.Machine
end

section
/-! Proofs about messages, channels, tasks and launches as they are issued (R81, R84, R100, R101, R122, R423), and O22
and O23. -/

namespace Sys2Proof.Machine

/-! ## O22 (R81, R84, R100, R423) -/

/-- Settles O22: every form hands its payload to `sendMsg`, whose answer the destination decides. -/
theorem sends : Obligations.Sends := by
  unfold Obligations.Sends
  intro s c ctl xs dst hslot uid m v chan header send
  have hsend {i : Instr} {op : Nat} {rd : List Src} {body : Nat → Context → State → Res} {u : State}
      {payload : List (BitVec 64)} {line : Bool} {hpc : Option (BitVec 64)}
      (hi : exec i s = issue op ctl inSlot6 rd [.x xs] s body)
      (hb : body uid c m = u.sendMsg uid c xs v payload line hpc) : send i rd u payload line hpc := by
    intro h done
    have answers {t : State} (ht : u.sendMsg uid c xs v payload line hpc = .done t) : done t :=
      State.doneAs_of_done h hi hslot (hb.trans ht)
    refine ⟨fun hto => answers ?nowhere,
      fun d k hto hrel => ⟨fun haway => answers ?unreachable, fun haway => answers ?posted⟩,
      fun p d k hto hrel => answers ?requested⟩
    case nowhere => simp only [State.sendMsg, hto]
    case unreachable => simp only [State.sendMsg, hto, hrel, haway, Bool.not_true, Bool.false_eq_true, if_false, if_true]
    case posted =>
      simp only [State.sendMsg, hto, hrel, haway, Bool.not_true, Bool.false_eq_true, if_false]
      rfl
    case requested =>
      simp only [State.sendMsg, hto, hrel, Bool.not_true, Bool.false_eq_true, if_false]
      rfl
  refine ⟨fun a => hsend (exec_send ..) rfl, fun a => hsend (exec_sendh ..) rfl,
    fun a u bs hblock => ⟨hsend (exec_send ..) ?_, hsend (exec_sendh ..) ?_⟩⟩
  all_goals
    dsimp only [State.sendWith]
    rw [hblock, Block.into]

/-! ## O23 (R101, R122) -/

/-- The low bits of an immediate are those of its value. -/
theorem signExtend_toNat_mod_64 (k : BitVec 22) : (k.signExtend 64).toNat % 64 = k.toNat % 64 := by
  rw [BitVec.toNat_signExtend, BitVec.toNat_setWidth]
  have := k.isLt
  split <;> omega

/-- A `CHMASK` whose encoding is privileged masks channel 62 outside slot 7. -/
theorem masks62_of_chmaskPriv {unmask : Bool} {ch : XI} {c : Context} (h : chmaskPriv unmask ch c = true) :
    unmask = false ∧ (xiVal c ch).toNat % 64 = 62 ∧ c.slot ≠ some 7 := by
  cases ch with
  | x r => exact absurd h Bool.false_ne_true
  | i k => simpa [chmaskPriv, xiVal, signExtend_toNat_mod_64, and_assoc] using h

/-- Settles O23: masking channel 62 faults by its encoding or by its operand (R37); the rest is what each body answers. -/
theorem channelsTasksLaunches : Obligations.ChannelsTasksLaunches := by
  unfold Obligations.ChannelsTasksLaunches
  intro s c ctl
  dsimp only
  refine ⟨fun unmask ch h => ⟨fun h62 => ?privileged, fun h62 => ?chmask⟩, fun ch pri h => ?chpri,
    fun xs a u bs h hblock => ⟨fun hbad => ?badTask, fun hbad hrel => ?task⟩,
    fun xs a h => ⟨fun halign => ?misaligned, fun halign hrel => ?launch⟩⟩
  case privileged =>
    cases hpriv : chmaskPriv unmask ch c with
    | true =>
      rw [State.faults, exec_chmask]
      exact issue_privileged h.1 hpriv
    | false => exact State.faults_of_trap h (exec_chmask ..) hpriv (if_pos (by simpa [and_assoc] using h62))
  case chmask =>
    exact State.doneAs_of_done h (exec_chmask ..) (Bool.eq_false_iff.mpr (mt masks62_of_chmaskPriv h62))
      (if_neg (by simpa [and_assoc] using h62))
  case chpri => exact State.doneAs_of_done h (exec_chpri ..) rfl rfl
  case badTask =>
    refine State.doneAs_of_done h (exec_task ..) rfl ?_
    rw [hblock]
    exact if_pos hbad
  case task =>
    refine State.doneAs_of_done h (exec_task ..) rfl ?_
    rw [hblock]
    exact (if_neg (Bool.eq_false_iff.mp hbad)).trans (if_neg (by simp [hrel]))
  case misaligned => exact State.faults_of_trap h (exec_launch ..) rfl (if_pos halign)
  case launch =>
    exact State.doneAs_of_done h (exec_launch ..) rfl ((if_neg (not_not.mpr halign)).trans (if_neg (by simp [hrel])))

end Sys2Proof.Machine
end

section
/-! Proofs about what becomes of messages and about the start of handlers (R82 to R89, R423), and O32. -/

namespace Sys2Proof.Machine

/-- Two registers written into an empty map are read back. -/
theorem KMap.lookD_putD_putD {α : Type} [DecidableEq α] {a b : Nat} (d x y : α) (h : a ≠ b) :
    KMap.lookD (KMap.putD (KMap.putD [] a d x) b d y) a d = x
    ∧ KMap.lookD (KMap.putD (KMap.putD [] a d x) b d y) b d = y := by
  have hempty : KMap.sorted ([] : KMap α) = true := rfl
  have hone := KMap.sorted_putD a d x hempty
  constructor
  · rw [KMap.lookD_putD hone, if_neg h, KMap.lookD_putD hempty, if_pos rfl]
  · rw [KMap.lookD_putD hone, if_pos rfl]

/-- Settles O32: each clause is one branch of its event. -/
theorem messagesAndHandlers : Obligations.MessagesAndHandlers := by
  unfold Obligations.MessagesAndHandlers
  intro s
  refine ⟨fun k m hm hold => ⟨fun haway => ?away, fun haway hnone => ?noTable,
      fun t haway ht => ⟨fun hbad => ?refused, fun hok hroom => ?accepted⟩⟩,
    fun k m hm hlate => ?timeout, fun seq v o t ho htodo => ?status, fun d c n i m t e u hslot hfirst hroom => ?handler,
    fun d c i m v hslot hroom hfirst => ⟨fun hnone => ?faultNoTable, fun t ht => ?faultHandler⟩,
    fun uid c hc hover => ⟨fun hwait => ?budget, fun pc hwait hstepped => ?budgetWaiting⟩,
    fun d c lid l chan item t u hslot hfind htable hroom => ?landing⟩
  case away =>
    rw [exec_messageArrival, execMessageArrival, hm]
    exact (if_neg (Bool.eq_false_iff.mp hold)).trans (if_pos haway)
  case noTable =>
    rw [exec_messageArrival, execMessageArrival, hm]
    refine (if_neg (Bool.eq_false_iff.mp hold)).trans ((if_neg (Bool.eq_false_iff.mp haway)).trans ?_)
    rw [hnone]
  case refused =>
    rw [exec_messageArrival, execMessageArrival, hm]
    refine (if_neg (Bool.eq_false_iff.mp hold)).trans ((if_neg (Bool.eq_false_iff.mp haway)).trans ?_)
    rw [ht]
    exact if_pos (by simpa using hbad)
  case accepted =>
    rw [exec_messageArrival, execMessageArrival, hm]
    refine (if_neg (Bool.eq_false_iff.mp hold)).trans ((if_neg (Bool.eq_false_iff.mp haway)).trans ?_)
    rw [ht]
    exact (if_neg (by simpa using hok)).trans (if_pos hroom)
  case timeout =>
    rw [exec_messageTimeout, execMessageTimeout, hm]
    exact if_pos hlate
  case status =>
    rw [exec_remoteMessageStatus, execRemoteMessageStatus, ho]
    simp only [htodo]
  case handler =>
    rw [exec_handlerStart, execHandlerStart, hslot, hfirst, hroom]
  case faultNoTable =>
    rw [exec_faultHandlerStart, execFaultHandlerStart, hfirst, hroom]
    simp only [hslot, hnone, Bool.not_true, Bool.false_eq_true, if_false]
  case faultHandler =>
    rw [exec_faultHandlerStart, execFaultHandlerStart, hfirst, hroom]
    simp only [hslot, ht, Bool.not_true, Bool.false_eq_true, if_false]
  case budget =>
    have hpc : (if (c.wait == .none) = true then c.pc else c.stepped.getD c.pc) = c.pc := if_pos (beq_iff_eq.mpr hwait)
    rw [exec_handlerBudget, execHandlerBudget, hc]
    simp only [hover, if_true, hpc]
  case budgetWaiting =>
    have hpc : (if (c.wait == .none) = true then c.pc else c.stepped.getD c.pc) = pc := by
      rw [if_neg (mt beq_iff_eq.mp hwait), hstepped, Option.getD_some]
    rw [exec_handlerBudget, execHandlerBudget, hc]
    simp only [hover, if_true, hpc]
  case landing =>
    intro p
    rw [exec_landingPacketOffer, execLandingPacketOffer, hfind]
    simp only [hslot, htable, hroom, Bool.not_true, Bool.false_eq_true, if_false]
    refine ⟨_, rfl, rfl, rfl, rfl, rfl, ?_⟩
    obtain ⟨hx1, hx2⟩ := KMap.lookD_putD_putD (0 : BitVec 64) (BitVec.ofNat 64 p.1) (BitVec.ofNat 64 p.2.1)
      (show 1 ≠ 2 by decide)
    obtain ⟨hv0, hv1⟩ := KMap.lookD_putD_putD (0 : BitVec 1024) (BitVec.ofNat 1024 (leNat (p.2.2.take 128)))
      (BitVec.ofNat 1024 (leNat ((p.2.2.drop 128).take 128))) (show 0 ≠ 1 by decide)
    cases l <;> exact ⟨hx1, hx2, hv0, hv1⟩

end Sys2Proof.Machine
end

section
/-! Proofs about the events of the cluster schedulers and of tile tasks (R77 to R79, R113, R120), and O33. -/

namespace Sys2Proof.Machine

/-- Settles O33: each clause is one branch of its event. -/
theorem schedulerEvents : Obligations.SchedulerEvents := by
  unfold Obligations.SchedulerEvents
  intro s
  refine ⟨fun d c n uid hslot hfirst =>
      ⟨⟨fun huid => ?placed, fun hnone => ?notPlaced⟩, fun victim hne hsat hidle => ?stolen⟩,
    fun uid c hc hsusp hout hover => ⟨fun f hf himg => ?faulted, fun hf => ?becomesReady⟩, fun d cl k t => ?task⟩
  case placed =>
    rw [exec_continuationPlacement, execContinuationPlacement, hslot, hfirst]
    dsimp only
    rw [huid]
  case notPlaced =>
    rw [exec_continuationPlacement, execContinuationPlacement, hslot, hfirst]
    dsimp only
    rw [hnone]
  case stolen =>
    intro key q huid
    rw [exec_stealContinuation, execStealContinuation, hslot, hfirst]
    refine (if_neg (by simp [hne, hsat, hidle])).trans ?_
    dsimp only
    rw [huid]
  case faulted =>
    have hfault : c.pendFault.filter (fun f => !(c.imageFault f)) = some f := by simp [hf, himg]
    rw [exec_continuationReady, execContinuationReady, hc]
    refine (if_neg (by simp [hsusp, hout])).trans ((if_neg (by simp [hover])).trans ?_)
    rw [hfault]
  case becomesReady =>
    intro pc t k hk hready
    have hfault : c.pendFault.filter (fun f => !(c.imageFault f)) = none := by
      simpa [Option.filter_eq_none_iff] using hf
    rw [exec_continuationReady, execContinuationReady, hc]
    refine (if_neg (by simp [hsusp, hout])).trans ((if_neg (by simp [hover])).trans ?_)
    rw [hfault]
    dsimp only
    rw [hk]
    exact congrArg Host.Outcome.next (if_pos (beq_iff_eq.mpr hready))
  case task =>
    intro r ht
    refine ⟨fun dep a hdep hwaits => ?met, fun dep a hdep => ?retest, fun c hready hcore hearlier => ?issued,
      fun hstage hruns => ?ended⟩
    case met =>
      rw [exec_taskDependenceMet, execTaskDependenceMet, ht]
      dsimp only
      rw [hdep]
      exact if_neg (Bool.eq_false_iff.mp hwaits)
    case retest =>
      rw [exec_taskDependenceRetest, execTaskDependenceRetest, ht]
      dsimp only
      rw [hdep]
    case issued =>
      rw [exec_taskIssue, execTaskIssue, ht]
      refine (if_neg ?_).trans ?_
      · simpa [hready] using hearlier
      · rw [hcore]
    case ended =>
      rw [exec_taskDoneFill, execTaskDoneFill, ht]
      exact if_pos (by simp [hstage, hruns, r])

end Sys2Proof.Machine
end

section
/-! Proofs about the choice of an issue cycle (R114, R115), and O57. -/

namespace Sys2Proof.Machine

/-! ## The choice of a slot (R115) -/

/-- The slot chosen where none is starved and neither handler slot is ready: of the highest priority that is ready, the next
after the slot that issued last at it. -/
def bestSlot (slots : List Nat) (pri : Nat → Nat) (last : Nat → Option (Fin 8)) : Option Nat :=
  (slots.map pri).min?.bind fun p =>
    let best := slots.filter fun n => pri n == p
    ((last p).bind fun l => best.find? fun n => decide (l.val < n)).or best.head?

section Slots

variable {slots starved : List Nat} {pri : Nat → Nat} {last : Nat → Option (Fin 8)} {n : Nat}

theorem chooseSlot_of_starved (h : starved.find? (fun n => slots.contains n) = some n) :
    chooseSlot slots starved pri last = some n := by
  rw [chooseSlot, h]

theorem chooseSlot_of_notStarved (h : ∀ n ∈ starved, n ∉ slots) :
    chooseSlot slots starved pri last
      = if 7 ∈ slots then some 7 else if 6 ∈ slots then some 6 else bestSlot slots pri last := by
  have hnone : starved.find? (fun n => slots.contains n) = none := by simpa using h
  rw [chooseSlot, hnone]
  simp only [List.contains_iff_mem]
  congr 2
  rw [bestSlot]
  cases (slots.map pri).min? with
  | none => rfl
  | some p => cases hl : last p <;> simp [hl]

/-- Whatever `bestSlot` gives is ready, and no ready slot goes before it. -/
theorem mem_and_le_of_bestSlot (h : bestSlot slots pri last = some n) : n ∈ slots ∧ ∀ q ∈ slots, pri n ≤ pri q := by
  obtain ⟨p, hmin, hpick⟩ := Option.bind_eq_some_iff.mp h
  have hbest : n ∈ slots.filter fun n => pri n == p := by
    obtain hnext | ⟨-, hfirst⟩ := Option.or_eq_some_iff.mp hpick
    · obtain ⟨l, -, hfind⟩ := Option.bind_eq_some_iff.mp hnext
      exact List.mem_of_find?_eq_some hfind
    · exact List.mem_of_head? hfirst
  obtain ⟨hmem, hpri⟩ := List.mem_filter.mp hbest
  refine ⟨hmem, fun q hq => ?_⟩
  rw [beq_iff_eq.mp hpri]
  exact (List.min?_eq_some_iff.mp hmin).2 _ (List.mem_map_of_mem hq)

theorem bestSlot_isSome (h : slots ≠ []) : (bestSlot slots pri last).isSome = true := by
  obtain ⟨p, hmin⟩ := Option.ne_none_iff_exists'.mp (mt List.min?_eq_none_iff.mp (mt (List.map_eq_nil_iff (f := pri)).mp h))
  obtain ⟨q, hq, rfl⟩ := List.mem_map.mp (List.min?_eq_some_iff.mp hmin).1
  have hbest : (slots.filter fun n => pri n == pri q) ≠ [] := List.ne_nil_of_mem (List.mem_filter.mpr ⟨hq, beq_self_eq_true _⟩)
  rw [bestSlot, hmin, Option.bind_some, Option.isSome_or, Bool.or_eq_true]
  exact .inr (List.isSome_head?.mpr hbest)

theorem mem_of_chooseSlot (h : chooseSlot slots starved pri last = some n) : n ∈ slots := by
  cases hfind : starved.find? fun n => slots.contains n with
  | some m =>
    obtain rfl := Option.some.inj ((chooseSlot_of_starved hfind).symm.trans h)
    exact List.contains_iff_mem.mp (List.find?_some hfind)
  | none =>
    rw [chooseSlot_of_notStarved (by simpa using hfind)] at h
    split at h
    case isTrue h7 => exact Option.some.inj h ▸ h7
    case isFalse =>
      split at h
      case isTrue h6 => exact Option.some.inj h ▸ h6
      case isFalse => exact (mem_and_le_of_bestSlot h).1

theorem chooseSlot_isSome (h : slots ≠ []) : (chooseSlot slots starved pri last).isSome = true := by
  cases hfind : starved.find? fun n => slots.contains n with
  | some m => rw [chooseSlot_of_starved hfind]; rfl
  | none =>
    rw [chooseSlot_of_notStarved (by simpa using hfind)]
    split
    · rfl
    · split
      · rfl
      · exact bestSlot_isSome h

end Slots

/-! ## The choice of an issue cycle (R114) -/

/-- What a core chooses to issue, if anything, is the context of one of its ready slots. -/
theorem State.selectIssue_mem {s : State} {d c : Nat} (h : (s.selectIssue d c).issuing ≠ 0) :
    ∃ n x, (n, (s.selectIssue d c).issuing, x) ∈ s.readySlots d c := by
  revert h
  unfold State.selectIssue
  dsimp only
  split
  case h_1 => exact fun h => absurd rfl h
  case h_2 =>
    split
    case h_1 => exact fun h => absurd rfl h
    case h_2 =>
      split
      case h_1 => exact fun h => absurd rfl h
      case h_2 r hr => exact fun _ => ⟨r.1, r.2.2, (List.mem_filter.mp (List.mem_of_find?_eq_some hr)).1⟩

/-- Settles O57: the cycle chooses by `selectIssue`, or nothing where heat skips it; the order is that of `chooseSlot`. -/
theorem issueChoosesReady : Obligations.IssueChoosesReady := by
  unfold Obligations.IssueChoosesReady
  intro s t d k h
  dsimp only
  have hready : t.issuing ≠ 0 → ∃ n c, (n, t.issuing, c) ∈ (s.ejectExhausted d.val k.val).readySlots d.val k.val := by
    rw [exec_issueCycle, execIssueCycle] at h
    split at h
    case isTrue =>
      obtain rfl := Host.Outcome.next.inj h
      exact fun h0 => absurd rfl h0
    case isFalse =>
      obtain rfl := Host.Outcome.next.inj h
      exact State.selectIssue_mem
  refine ⟨hready, fun hnone => ?_, fun slots starved pri last => ⟨fun n => mem_of_chooseSlot, chooseSlot_isSome,
    fun hs h7 => ?_, fun hs h7 h6 => ?_, fun n hs h7 h6 hn => ?_⟩⟩
  · by_contra h0
    obtain ⟨n, c, hmem⟩ := hready h0
    rw [hnone] at hmem
    exact List.not_mem_nil hmem
  · rw [chooseSlot_of_notStarved hs, if_pos h7]
  · rw [chooseSlot_of_notStarved hs, if_neg h7, if_pos h6]
  · rw [chooseSlot_of_notStarved hs, if_neg h7, if_neg h6] at hn
    exact (mem_and_le_of_bestSlot hn).2

end Sys2Proof.Machine
end

section
/-! Proofs about the steps of a launch (R106, R110 to R112, R366, R369), and O34. -/

namespace Sys2Proof.Machine

/-- Settles O34: each clause is one branch of its event. -/
theorem launchEvents : Obligations.LaunchEvents := by
  unfold Obligations.LaunchEvents
  intro s
  refine ⟨fun m t hnext => ⟨fun halign => ?misaligned, fun halign hread => ?unreadable,
      fun p n done halign hread hdone => ?validated⟩,
    fun lid l g hl hstage hg => ⟨fun hread => ?noHandle, fun p n hread => ?opened⟩,
    fun lid l hl htorn => ⟨fun hstage hdeps => ?met, fun hstage => ?created, fun hstage hmade hcmds hquiet => ?completed⟩,
    fun d c lid t ht hended hleft => ?left, fun account => ?charged⟩
  case misaligned =>
    rw [exec_launchMessage, execLaunchMessage, hnext]
    exact if_pos halign
  case unreadable =>
    rw [exec_launchMessage, execLaunchMessage, hnext]
    refine (if_neg (not_not.mpr halign)).trans ?_
    rw [hread]
  case validated =>
    rw [exec_launchMessage, execLaunchMessage, hnext]
    refine (if_neg (not_not.mpr halign)).trans ?_
    rw [hread]
    dsimp only
    rw [hdone]
    dsimp only
    cases t.validate m (t.launchWorld m) n done <;> rfl
  case noHandle =>
    rw [exec_worldOpen, execWorldOpen, hl]
    refine (if_neg (by simp [hstage])).trans ?_
    rw [hg]
    dsimp only
    rw [hread]
  case opened =>
    rw [exec_worldOpen, execWorldOpen, hl]
    refine (if_neg (by simp [hstage])).trans ?_
    rw [hg]
    dsimp only
    rw [hread]
    dsimp only
    cases s.openHandle (leBytes 512 n) <;> rfl
  case met =>
    rw [exec_launchDependencesMet, execLaunchDependencesMet, hl]
    exact if_neg (by simpa [hstage, htorn] using hdeps)
  case created =>
    rw [exec_itemCreation, execItemCreation, hl]
    exact if_neg (by simp [hstage, htorn])
  case completed =>
    have hdone : (!l.broken && decide (l.made < l.items)) = false := by
      simpa [or_iff_not_imp_left] using hmade
    rw [exec_launchCompletion, execLaunchCompletion, hl]
    exact if_neg (by simp [hstage, htorn, hdone, hcmds, hquiet])
  case left =>
    have hnone : (s.ctxs.any fun p => p.2.slot.isSome && p.2.lid == lid && p.2.die == d && p.2.core == c) = false := by
      simpa using hleft
    rw [exec_handlerTableLeave, execHandlerTableLeave, ht]
    exact if_neg (by simp [hended, hnone])
  case charged => rw [exec_budgetCharge, execBudgetCharge]

end Sys2Proof.Machine
end

section
/-! Proofs about the events of a pre-emption (R123 to R128), and O35. -/

namespace Sys2Proof.Machine

/-- Settles O35: each clause is one branch of its event. -/
theorem preemptionEvents : Obligations.PreemptionEvents := by
  unfold Obligations.PreemptionEvents
  intro s
  refine ⟨fun region slices deadline => ?requested,
    fun d cl region p hp => ⟨fun t hstage hover => ⟨fun hheld => ?chosen, fun hheld => ?finished⟩,
      fun t hstage hopen => ?windowOpen, fun ch hstage hch hheld => ?drained⟩,
    fun region => ⟨?resumed, ?restarted⟩⟩
  case requested => rw [exec_preemptionRequest, execPreemptionRequest]
  case chosen =>
    rw [exec_cooperativeWindowEnd, execCooperativeWindowEnd, hp]
    dsimp only
    rw [hstage]
    exact (if_neg (Nat.not_le.mpr hover)).trans (if_pos hheld)
  case finished =>
    rw [exec_cooperativeWindowEnd, execCooperativeWindowEnd, hp]
    dsimp only
    rw [hstage]
    exact (if_neg (Nat.not_le.mpr hover)).trans (if_neg (Bool.eq_false_iff.mp hheld))
  case windowOpen =>
    rw [exec_cooperativeWindowEnd, execCooperativeWindowEnd, hp]
    dsimp only
    rw [hstage]
    exact if_pos hopen
  case drained =>
    rw [exec_preemptDrainComplete, execPreemptDrainComplete, hp]
    dsimp only
    rw [hstage, hch]
    exact if_neg (Bool.eq_false_iff.mp hheld)
  case resumed => rw [exec_regionResume, execRegionResume]
  case restarted => rw [exec_restartContinuationCreate, execRestartContinuationCreate]

end Sys2Proof.Machine
end

section
/-! Proofs about the instructions on the mapping tree (R138 to R151), and O28. -/

namespace Sys2Proof.Machine

/-- `MOVEPG` looks at its pages once both addresses are aligned and no earlier access holds it (R147). -/
theorem movepg_checks_pass {a b : Nat} {held : Bool} {fa fb w r : Res} (ha : a % 65536 = 0) (hb : b % 65536 = 0)
    (hheld : held = false) :
    (if a % 65536 ≠ 0 then fa else if b % 65536 ≠ 0 then fb else if held then w else r) = r :=
  (if_neg (not_not.mpr ha)).trans ((if_neg (not_not.mpr hb)).trans (if_neg (Bool.eq_false_iff.mp hheld)))

/-- Settles O28: each clause is one answer of the body of its instruction, whose status that may come later is that of
`State.treeStatus`. -/
theorem addressSpaces : Obligations.AddressSpaces := by
  unfold Obligations.AddressSpaces
  intro s c ctl xs
  dsimp only
  refine ⟨fun a t u bs h hblock => ⟨fun hsp => ⟨?mapBadSpace, ?grantBadSpace⟩, fun hsp => ⟨?map, ?grant⟩⟩,
    fun hheld => ⟨fun xa t h => ⟨?unmap, ?probe⟩, fun g h => ⟨?space, ?retiresp⟩⟩,
    fun xa xb h => ⟨fun ha => ?sourceMisaligned, fun ha hb => ?targetMisaligned, fun ha hb hheld hsrc => ?sourceNotHeld,
      fun src dst ha hb hheld hsrc => ⟨fun hdst => ?targetNotHeld,
        fun hdst => ⟨fun hpages => ?pages, fun hpages hbusy => ?busy, fun hpages hbusy => ?moves⟩⟩⟩⟩
  case mapBadSpace =>
    refine State.doneAs_of_done h (exec_map ..) rfl ?_
    rw [hblock]
    exact if_pos hsp
  case grantBadSpace =>
    refine State.doneAs_of_done h (exec_grant ..) rfl ?_
    rw [hblock]
    exact if_pos hsp
  case map =>
    refine State.doneAs_of_done h (exec_map ..) rfl ?_
    rw [hblock]
    exact if_neg (Nat.not_le.mpr hsp)
  case grant =>
    refine State.doneAs_of_done h (exec_grant ..) rfl ?_
    rw [hblock]
    exact if_neg (Nat.not_le.mpr hsp)
  case unmap => exact State.doneAs_of_done h (exec_unmap ..) rfl (if_neg (Bool.eq_false_iff.mp hheld))
  case probe => exact State.completes_of_produceWord h (exec_probe ..) rfl (if_neg (Bool.eq_false_iff.mp hheld))
  case space => exact State.doneAs_of_done h (exec_space ..) rfl (if_neg (Bool.eq_false_iff.mp hheld))
  case retiresp => exact State.doneAs_of_done h (exec_retiresp ..) rfl (if_neg (Bool.eq_false_iff.mp hheld))
  case sourceMisaligned => exact State.faults_of_trap h (exec_movepg ..) rfl (if_pos ha)
  case targetMisaligned =>
    exact State.faults_of_trap h (exec_movepg ..) rfl ((if_neg (not_not.mpr ha)).trans (if_pos hb))
  case sourceNotHeld =>
    refine State.faults_of_trap h (exec_movepg ..) rfl ((movepg_checks_pass ha hb hheld).trans ?_)
    rw [hsrc]
  case targetNotHeld =>
    refine State.faults_of_trap h (exec_movepg ..) rfl ((movepg_checks_pass ha hb hheld).trans ?_)
    rw [hsrc, hdst]
  case pages =>
    refine State.completes_of_produceWord h (exec_movepg ..) rfl ((movepg_checks_pass ha hb hheld).trans ?_)
    rw [hsrc, hdst]
    exact if_pos hpages
  case busy =>
    refine State.completes_of_produceWord h (exec_movepg ..) rfl ((movepg_checks_pass ha hb hheld).trans ?_)
    rw [hsrc, hdst]
    exact (if_neg (Bool.eq_false_iff.mp hpages)).trans (if_pos hbusy)
  case moves =>
    refine State.doneAs_of_done h (exec_movepg ..) rfl ((movepg_checks_pass ha hb hheld).trans ?_)
    rw [hsrc, hdst]
    exact (if_neg (Bool.eq_false_iff.mp hpages)).trans (if_neg (Bool.eq_false_iff.mp hbusy))

end Sys2Proof.Machine
end

section
/-! Proofs about the tree commands of the host (R386) and the ends of withdrawals, grants and migrations (R144, R147,
R148), and O43. -/

namespace Sys2Proof.Machine

/-- A tree command without reserved bits is performed as the instruction of its opcode. -/
theorem State.hostTree_of_command {s : State} {n op : Nat} (f : State → Nat → Nat → Sink → State)
    (hcmd : s.treeCommand = some (some n)) (hres : treeRes0 n = false) (hop : bits n 263 256 = op) :
    s.hostTree op f = .next (f s.bellDone (bits n 191 128) (bits n 127 64) (s.treeSink n)) := by
  rw [State.hostTree, hcmd]
  exact if_neg (by simp [hres, hop])

/-- Settles O43: each command is performed by `State.hostTree`, and each end is one branch of its event. -/
theorem hostTreeCommands : Obligations.HostTreeCommands := by
  unfold Obligations.HostTreeCommands
  intro s
  dsimp only
  refine ⟨fun v => ?doorbell,
    fun n hcmd => ⟨fun hres => ⟨fun q _ hq hsp => ⟨fun hop => ?mapBadSpace, fun hop => ?grantBadSpace⟩,
      fun q hop hq hsp => ?map, fun q hop hq hsp => ?grant, fun hop => ?unmap, fun hop => ?probe, fun hop => ?space,
      fun hop => ?retiresp⟩, fun hbad => ?bad⟩,
    fun k w hw hsettled => ?withdrawn, fun k g hg hsettled => ?granted,
    fun k m hm => ⟨fun hended => ?ended, fun hended hcut => ?cut, fun hended hcut => ?switched⟩⟩
  case doorbell => rw [exec_launchDoorbell, execLaunchDoorbell]
  case mapBadSpace =>
    rw [exec_hostMap, execHostMap, State.hostTree_of_command _ hcmd hres hop, hq]
    exact congrArg Host.Outcome.next (if_pos hsp)
  case grantBadSpace =>
    rw [exec_hostGrant, execHostGrant, State.hostTree_of_command _ hcmd hres hop, hq]
    exact congrArg Host.Outcome.next (if_pos hsp)
  case map =>
    rw [exec_hostMap, execHostMap, State.hostTree_of_command _ hcmd hres hop, hq]
    exact congrArg Host.Outcome.next (if_neg (Nat.not_le.mpr hsp))
  case grant =>
    rw [exec_hostGrant, execHostGrant, State.hostTree_of_command _ hcmd hres hop, hq]
    exact congrArg Host.Outcome.next (if_neg (Nat.not_le.mpr hsp))
  case unmap =>
    rw [exec_hostUnmap, execHostUnmap, State.hostTree_of_command _ hcmd hres hop]
    rfl
  case probe => rw [exec_hostProbe, execHostProbe, State.hostTree_of_command _ hcmd hres hop]
  case space => rw [exec_hostSpace, execHostSpace, State.hostTree_of_command _ hcmd hres hop]
  case retiresp =>
    rw [exec_hostRetiresp, execHostRetiresp, State.hostTree_of_command _ hcmd hres hop]
    rfl
  case bad =>
    rw [exec_badTreeCommand, execBadTreeCommand, hcmd]
    exact if_pos (by simpa using hbad)
  case withdrawn =>
    rw [exec_unmapWalkDone, execUnmapWalkDone, hw]
    exact if_pos hsettled
  case granted =>
    have hnone : s.walks[s.walks.length + k]? = none := List.getElem?_eq_none (Nat.le_add_right ..)
    rw [exec_unmapWalkDone, execUnmapWalkDone, hnone]
    dsimp only
    rw [Nat.add_sub_cancel_left, hg]
    exact if_pos hsettled
  case ended =>
    rw [exec_movepgSwitch, execMovepgSwitch, hm]
    exact if_pos hended
  case cut =>
    rw [exec_movepgSwitch, execMovepgSwitch, hm]
    exact (if_neg (Bool.eq_false_iff.mp hended)).trans (if_pos hcut)
  case switched =>
    rw [exec_movepgSwitch, execMovepgSwitch, hm]
    exact (if_neg (Bool.eq_false_iff.mp hended)).trans (if_neg (Bool.eq_false_iff.mp hcut))

end Sys2Proof.Machine
end

section
/-! Proofs about plain loads and `FEGET` (R169, R176, R178, R345), and O11. -/

namespace Sys2Proof.Machine

/-! ## Where a plain load takes its value (R176 to R178) -/

/-- An access that no migration holds goes on (R147). -/
theorem State.throughMove_of_none {s : State} {uid : Nat} {c : Context} {acc : Acc} {go : State → Res}
    (h : s.pauser uid .issue (s.places acc) = none) : s.throughMove uid c acc go = go (s.unpause uid .issue) := by
  rw [State.throughMove, h]

section PlainLoad

variable {s : State} {uid : Nat} {c : Context} {ctl : Ctl} {dest : AnyReg} {acc : Acc} {acq : Bool}
  (hheld : c.loadsHeld = false) (hscale : scaleBuffered c acc = false)
include hheld hscale

/-- A plain load that an earlier store of its context covers is forwarded (R176). -/
theorem State.loadPlain_forwarded {raw : List Byte} (hfwd : s.forward c.sbuf acc = .bytes raw) :
    s.loadPlain uid c ctl dest acc acq
      = .done (s.produce uid (s.loadFill dest acc raw (s.anyPoison ((loadWords acc).drop acc.parts.length)) none)) := by
  simp only [State.loadPlain, hheld, hscale, Bool.or_self, Bool.false_eq_true, if_false, hfwd]

variable (hfwd : s.forward c.sbuf acc = .memory) (hmove : s.pauser uid .issue (s.places acc) = none)
include hfwd hmove

/-- A plain load whose home lies on another die of the package is on its way (R178). -/
theorem State.loadPlain_otherDie {a : Acc} {job : Bool} (hhere : (s.unpause uid .issue).whereIs acc .rd = .here a job)
    (hdie : ((s.unpause uid .issue).accHome a).die? ≠ some c.die.val) :
    s.loadPlain uid c ctl dest acc acq = .done ((s.unpause uid .issue).loadLater uid dest (.load acc) acq) := by
  simp only [State.loadPlain, hheld, hscale, Bool.or_self, Bool.false_eq_true, if_false, hfwd,
    State.throughMove_of_none hmove, hhere, hdie]

/-- A plain load of another package becomes a request (R345). -/
theorem State.loadPlain_far {p off : Nat} (hfar : (s.unpause uid .issue).whereIs acc .rd = .far p off) :
    s.loadPlain uid c ctl dest acc acq = .done ((s.unpause uid .issue).loadRemote uid c dest acc p off acq) := by
  simp only [State.loadPlain, hheld, hscale, Bool.or_self, Bool.false_eq_true, if_false, hfwd,
    State.throughMove_of_none hmove, hfar]

/-- A plain load of a word of the own package that it does not share fills poisoned (R345). -/
theorem State.loadPlain_refused (href : (s.unpause uid .issue).whereIs acc .rd = .refused) :
    s.loadPlain uid c ctl dest acc acq = .done ((s.unpause uid .issue).produce uid (poisonFill dest)) := by
  simp only [State.loadPlain, hheld, hscale, Bool.or_self, Bool.false_eq_true, if_false, hfwd,
    State.throughMove_of_none hmove, href]

end PlainLoad

/-! ## O11 -/

/-- Settles O11: `LD` and `LDV` are `loadOp`, whose plain load answers by where the value is; `FEGET` answers by where its
word is. -/
theorem loads : Obligations.Loads := by
  unfold Obligations.Loads
  intro s c ctl uid m u load
  have hload {i : Instr} {op n : Nat} {r : AnyReg} {a : MemOp} (hi : exec i s = loadOp op ctl n .plain r a s) :
      load i op n r a := by
    intro h done
    refine ⟨fun e he => ?unresolved, fun acc hres hheld hscale => ?resolved⟩
    case unresolved =>
      refine State.faults_of_trap h hi rfl ?_
      rw [he, orTrap]
    case resolved =>
      have answers {t : State} (ht : m.loadPlain uid c ctl r acc false = .done t) : done t :=
        State.doneAs_of_done h hi rfl (by rw [hres]; exact ht)
      exact ⟨fun raw hfwd => answers (State.loadPlain_forwarded hheld hscale hfwd),
        fun hfwd hmove => ⟨fun x job hhere =>
            ⟨fun hdie => answers (State.loadPlain_of_here hheld hscale hfwd hmove hhere hdie),
              fun hdie => answers (State.loadPlain_otherDie hheld hscale hfwd hmove hhere hdie)⟩,
          fun p off hfar => answers (State.loadPlain_far hheld hscale hfwd hmove hfar),
          fun href => answers (State.loadPlain_refused hheld hscale hfwd hmove href)⟩⟩
  refine ⟨fun sz d a => hload (exec_ld ..), fun d a => hload (exec_ldv ..), ?feget⟩
  case feget =>
    dsimp only [u, m, uid]
    intro d a acc h hres hheld hbuf hmove
    refine ⟨fun x job hhere => ⟨fun hdie => ?onDie, fun hdie => ?otherDie⟩, fun p off hfar hjob => ?far⟩
    all_goals
      refine State.doneAs_of_done h (exec_feget ..) rfl ?_
      rw [hres, orTrap, if_neg (by simp [hheld, hbuf]), State.throughMove_of_none hmove]
    case onDie =>
      rw [hhere]
      exact if_pos hdie
    case otherDie =>
      rw [hhere]
      exact if_neg hdie
    case far =>
      rw [hfar]
      exact if_neg (Bool.eq_false_iff.mp hjob)

end Sys2Proof.Machine
end

section
/-! Proofs about stores and the other entries of a store buffer (R65, R157, R163, R176, R202), and O13. -/

namespace Sys2Proof.Machine

/-! ## Stores as they issue (R163, R176) -/

/-- No flag is set by no flags. -/
theorem Context.addFlags_zero (c : Context) : c.addFlags (flagBits 0) none = c := by
  simp [Context.addFlags, flagBits]

/-- Flags and an entry of the store buffer come to one context together; none of window 0 (R65). -/
theorem State.buffer_addFlags_zero (s : State) (uid : Nat) (acc : Acc) (op : StOp) (loc : BitVec 2) :
    (s.modCtx uid fun k => k.addFlags (flagBits 0) none).buffer uid acc op loc = s.buffer uid acc op loc := by
  simp only [State.buffer, State.modCtx_modCtx, Context.addFlags_zero]

/-- Window 0 stores the bytes as they are (R163). -/
theorem State.encodeStore_window0 (s : State) (c : Context) {acc : Acc} (bs : List Byte) (src : BitVec 64)
    (h : acc.win = 0) : s.encodeStore c acc bs src = (s, bs, 0) := by
  simp [State.encodeStore, winUsesSr, encodeRaw, h]

/-- A store that is no ordered flag takes a store's entry (R349). -/
theorem State.storeEntry_store {s : State} {acc : Acc} {mode : StMode} {loc : BitVec 2} {data : List Byte}
    (h : (∀ p, s.accHome acc ≠ .job p) ∨ loc ≠ 3) : s.storeEntry acc mode loc data = .store mode data := by
  unfold State.storeEntry
  split
  next p hp =>
    obtain hjob | hloc := h
    · exact absurd hp (hjob p)
    · exact if_neg hloc
  next => rfl

/-- Hint 11 on a job-scope address makes a store an ordered flag (R349). -/
theorem State.storeEntry_flag {s : State} {acc : Acc} {mode : StMode} {data : List Byte} {p : Nat}
    (h : s.accHome acc = .job p) : s.storeEntry acc mode 3 data = .flag acc.size mode (BitVec.ofNat 1024 (leNat data)) := by
  rw [State.storeEntry, h]
  exact if_pos rfl

section Store

variable {s : State} {uid : Nat} {c : Context} {ctl : Ctl} {acc : Acc} {mode : StMode} {bs : List Byte} {src : BitVec 64}

/-- A mode that needs a full-empty bit of its own faults on untagged words (R157). -/
theorem State.storeBytes_untagged (h : (StMode.tagged mode && s.untaggedIn acc.parts) = true) :
    s.storeBytes uid c ctl acc mode bs src = .trap causePermission (acc.va / 8 * 8) := if_pos h

variable (htag : (StMode.tagged mode && s.untaggedIn acc.parts) = false) (hroom : c.bufRoom = true)
  (hfree : s.pauser uid .issue (s.places acc) = none)
include htag hroom hfree

/-- A store that finds room takes an entry with the data encoded at issue (R163, R176). -/
theorem State.storeBytes_encoded (hscale : scaleBuffered c acc = false)
    (hgroup : (winUsesSr acc.win acc.rnd && s.scalarHeld c) = false) :
    s.storeBytes uid c ctl acc mode bs src
      = .done ((((s.unpause uid .issue).encodeStore c acc bs src).1.modCtx uid fun k =>
          k.addFlags (flagBits ((s.unpause uid .issue).encodeStore c acc bs src).2.2) none).buffer uid acc
            ((s.unpause uid .issue).storeEntry acc mode ctl.loc ((s.unpause uid .issue).encodeStore c acc bs src).2.1)
            ctl.loc) := by
  simp only [State.storeBytes, htag, hroom, hscale, hgroup, Bool.not_true, Bool.or_self, Bool.false_eq_true, if_false,
    State.throughMove_of_none hfree]

/-- A store of window 0 takes an entry with its bytes, and sets no flag (R65, R163). -/
theorem State.storeBytes_window0 (hwin : acc.win = 0) :
    s.storeBytes uid c ctl acc mode bs src
      = .done ((s.unpause uid .issue).buffer uid acc ((s.unpause uid .issue).storeEntry acc mode ctl.loc bs) ctl.loc) := by
  rw [State.storeBytes_encoded htag hroom hfree (by simp [scaleBuffered, hwin]) (by simp [winUsesSr, hwin]),
    State.encodeStore_window0 _ c bs src hwin, State.buffer_addFlags_zero]

end Store

/-- `WBL` and `INVL` of data are line instructions (R172). -/
theorem exec_wbl_lineOp (ctl : Ctl) (m : MemOp) (s : State) : exec (.wbl ctl m) s = lineOp 0x47 ctl m .wbl s := rfl

theorem exec_invl_lineOp (ctl : Ctl) (m : MemOp) (s : State) : exec (.invl ctl false m) s = lineOp 0x48 ctl m .invl s := rfl

/-- `INVL.i` discards the core's copies of a block (R51). -/
theorem exec_invl_icache (ctl : Ctl) (m : MemOp) (s : State) :
    exec (.invl ctl true m) s = issue 0x48 ctl noPriv [memSrc m] [] s fun _ c t =>
      if m.mode ≠ .global then .done t
      else orTrap (t.resolve c .global (lineAddr c m) 64 .rd false .data) fun acc =>
        .done (t.modCore c.die.val c.core.val fun k =>
          { k with icache := KMap.select k.icache fun b _ => b / 65536 != partAt acc.parts 0 / 64 }) := rfl

/-! ## O13 -/

/-- Settles O13: `ST` and `STV` are stores of bytes, whose entry the window and the home decide; each of the others takes
its own entry. -/
theorem stores : Obligations.Stores := by
  unfold Obligations.Stores
  intro s c ctl hroom uid m u free takes store
  have hhome (acc : Acc) : u.accHome acc = m.accHome acc := by
    unfold State.accHome
    split
    · rfl
    · exact (State.sameStore_unpause m uid .issue).homeOf _
  have hstore {i : Instr} {op n : Nat} {rd : List Src} {mode : StMode} {a : MemOp} {v : Context → Nat}
      {src : Context → BitVec 64} (hi : exec i s = issue op ctl noPriv rd [] s fun uid k t =>
        orTrap (t.resolve k a.mode (formAddr k a n) n .wr true .data) fun acc =>
          t.storeBytes uid k ctl acc mode (leBytes n (v k)) (src k)) : store i op n rd mode a (v c) (src c) := by
    intro h
    refine ⟨fun e he => State.faults_of_trap h hi rfl (by rw [he]; rfl), ?_⟩
    intro acc hres done
    have answers {t : State} (ht : m.storeBytes uid c ctl acc mode (leBytes n (v c)) (src c) = .done t) : done t :=
      State.doneAs_of_done h hi rfl (by rw [hres]; exact ht)
    refine ⟨fun htag => State.faults_of_trap h hi rfl (by rw [hres]; exact State.storeBytes_untagged (by simpa using htag)),
      fun htag hfree => ⟨fun hwin hplain => answers ?_, fun p hwin hjob hloc => answers ?_,
        fun hwin hscale hgroup hjob => answers ?_⟩⟩
    · rw [State.storeBytes_window0 htag hroom hfree hwin,
        State.storeEntry_store (hplain.imp_left fun hjob p => (hhome acc).trans_ne (hjob p))]
      rfl
    · rw [State.storeBytes_window0 htag hroom hfree hwin, hloc, State.storeEntry_flag ((hhome acc).trans hjob)]
      exact congrArg _ (by rw [← hloc]; rfl)
    · rw [State.storeBytes_encoded htag hroom hfree hscale hgroup,
        State.storeEntry_store (.inl fun p => (hhome acc).trans_ne (hjob p))]
      rfl
  have room {α : Type} {a b : α} : (if !c.bufRoom then a else b) = b := if_neg (by simp [hroom])
  refine ⟨fun sz mode a v => hstore (exec_st ..), fun mode a v => hstore (exec_stv ..),
    fun full a acc h hres => ⟨fun hmay hfree => ?feset, fun hfull htag => ?fesetUntagged⟩,
    fun op w a b acc h hres hfree => ?red, fun a acc h hmode hres => ⟨?wbl, ?invl⟩, fun a h hmode => ?ownMode⟩
  case feset =>
    refine State.doneAs_of_done h (exec_feset ..) rfl ?_
    have hpass : ¬(!full && m.untaggedIn acc.parts) = true := by obtain h | h := hmay <;> simp [h]
    rw [hres]
    refine (if_neg hpass).trans ?_
    rw [room, State.throughMove_of_none hfree]
    rfl
  case fesetUntagged =>
    refine State.faults_of_trap h (exec_feset ..) rfl ?_
    rw [hres]
    exact if_pos (by simpa [hfull] using htag)
  case red =>
    refine State.doneAs_of_done h (exec_red ..) rfl ?_
    rw [hres, orTrap, room, State.throughMove_of_none hfree]
    rfl
  case wbl =>
    refine State.doneAs_of_done h (exec_wbl_lineOp ctl a s) rfl ?_
    rw [if_neg (not_not.mpr hmode), hres, orTrap, room]
    rfl
  case invl =>
    refine State.doneAs_of_done h (exec_invl_lineOp ctl a s) rfl ?_
    rw [if_neg (not_not.mpr hmode), hres, orTrap, room]
    rfl
  case ownMode =>
    exact ⟨State.completes_of_nothing h (exec_wbl_lineOp ctl a s) rfl (if_pos hmode),
      State.completes_of_nothing h (exec_invl_lineOp ctl a s) rfl (if_pos hmode),
      State.completes_of_nothing h (exec_invl_icache ctl a s) rfl (if_pos hmode)⟩

end Sys2Proof.Machine
end

section
/-! Proofs about synchronising loads (R157, R167, R168, R346), and O14. -/

namespace Sys2Proof.Machine

section SyncLoad

variable {s : State} {uid : Nat} {c : Context} {ctl : Ctl} {dest : AnyReg} {acc : Acc} {consume : Bool}

/-- `.consume` faults on untagged words of this package (R157). -/
theorem State.loadSync_untagged {x : Acc} {job : Bool} (hhere : s.whereIs acc .rd = .here x job)
    (hun : s.untaggedIn x.parts = true) :
    s.loadSync uid c ctl dest acc true = .trap causePermission (acc.va / 8 * 8) := by
  rw [State.loadSync, hhere]
  exact if_pos hun

/-- On tagged words of this package, which nothing earlier keeps from being looked at, a synchronising load goes to its
controllers (R168). -/
theorem State.loadSync_here {x : Acc} {job : Bool} (hhere : s.whereIs acc .rd = .here x job)
    (htag : s.untaggedIn x.parts = false) (hheld : c.loadsHeld = false) (hlock : s.lockReady c acc = true)
    (hscale : scaleBuffered c acc = false) (hmove : s.pauser uid .issue (s.places acc) = none) :
    s.loadSync uid c ctl dest acc consume = (s.unpause uid .issue).loadWait uid c dest x consume := by
  simp only [State.loadSync, hhere, htag, hheld, hlock, hscale, Bool.not_true, Bool.or_self, Bool.false_eq_true, if_false,
    State.throughMove_of_none hmove]

/-- Controllers whose lists have room take a synchronising load, which is an acquire (R168, R179). -/
theorem State.loadWait_of_room
    (hroom : ((splitLines acc.parts).filter fun p => !(s.allFull p.1 p.2)).all (fun p => s.listRoom p.1) = true) :
    s.loadWait uid c dest acc consume
      = .done ((((s.newAcq uid).2.pendReg uid dest).l1Each acc.parts fun s l =>
            s.l1Home (some (coreKey c.die.val c.core.val)) l consume).arriveWaiter
          { word := partAt acc.parts 0 / 8 * 8, world := acc.world, nodes := acc.nodes,
            op := .load uid dest acc consume (splitLines acc.parts) [] false (s.newAcq uid).1 } acc.parts) :=
  if_neg (by rw [hroom]; decide)

variable {p off : Nat} (hfar : s.whereIs acc .rd = .far p off)
include hfar

/-- At a package of no job a synchronising load faults (R341, R346). -/
theorem State.loadSync_noJob (hjob : s.noJob p = true) :
    s.loadSync uid c ctl dest acc consume = .trap causePermission acc.va := by
  rw [State.loadSync, hfar]
  exact if_pos hjob

/-- A synchronising load of another package becomes a request, and is an acquire (R179, R346). -/
theorem State.loadSync_far (hjob : s.noJob p = false) (hheld : c.loadsHeld = false) (hlock : s.lockReady c acc = true) :
    s.loadSync uid c ctl dest acc consume
      = .done (((s.newAcq uid).2.pendReg uid dest).sendReq c.die.val p acc.world off c.rlim.toNat c.die
          (.syncLoad acc.size consume) (.sync uid (some dest) acc (some (s.newAcq uid).1) (c.isFull dest))) := by
  simp only [State.loadSync, hfar, hjob, hheld, hlock, Bool.not_true, Bool.or_self, Bool.false_eq_true, if_false]

end SyncLoad

/-- A synchronising load of either mode. -/
theorem loadOp_sync (op : Nat) (ctl : Ctl) (n : Nat) (consume : Bool) (dest : AnyReg) (m : MemOp) (s : State) :
    loadOp op ctl n (if consume then .consume else .wait) dest m s
      = issue op ctl noPriv [memSrc m] [dest] s fun uid c t =>
          orTrap (t.resolve c m.mode (formAddr c m n) n .rd false .data) fun acc =>
            t.loadSync uid c ctl dest acc consume := by
  cases consume <;> rfl

/-! ## O14 -/

/-- Settles O14: `LD` and `LDV` of either synchronising mode are `State.loadSync`, which answers by where the words are. -/
theorem synchronisingLoads : Obligations.SynchronisingLoads := by
  unfold Obligations.SynchronisingLoads
  intro s c ctl consume uid m u load mode
  have hload {i : Instr} {op n : Nat} {r : AnyReg} {a : MemOp} (hi : exec i s = loadOp op ctl n mode r a s) :
      load i op n r a := by
    intro acc h hres done
    have hsync := hi.trans (loadOp_sync op ctl n consume r a s)
    have answers {t : State} (ht : m.loadSync uid c ctl r acc consume = .done t) : done t :=
      State.doneAs_of_done h hsync rfl (by rw [hres]; exact ht)
    have traps {cause addr : Nat} (ht : m.loadSync uid c ctl r acc consume = .trap cause addr) :
        s.faults c i op cause addr := State.faults_of_trap h hsync rfl (by rw [hres]; exact ht)
    refine ⟨fun x job hhere => ⟨fun hun hcons => traps ?_, fun htag hheld hlock hscale hmove hroom => answers ?_⟩,
      fun p off hfar => ⟨fun hjob => traps (State.loadSync_noJob hfar hjob),
        fun hjob hheld hlock => answers (State.loadSync_far hfar hjob hheld hlock)⟩⟩
    · rw [hcons]
      exact State.loadSync_untagged hhere hun
    · exact (State.loadSync_here hhere htag hheld hlock hscale hmove).trans (State.loadWait_of_room hroom)
  exact ⟨fun sz d a => hload (exec_ld ..), fun d a => hload (exec_ldv ..)⟩

end Sys2Proof.Machine
end

section
/-! Proofs about prefetches, fences and the instructions on pool memory (R172, R185, R186, R391), and O15. -/

namespace Sys2Proof.Machine

/-! ## O15 -/

/-- A context whose every register is full, in slot 0 with every line resident, that holds no acquire. -/
def observer : Context := placedCtx 0 0 0 0

/-- The package after reset, where that context issues. -/
def observing : State := { State.reset with issuing := 1, ctxs := [(1, observer)] }

/-- No hint, and the guard p0. -/
def noHints : Ctl := { neg := false, pred := 0, stall := 0, yield := false, reuse := false, loc := 0 }

/-- `OBSERVE` of length 0, as any other, is an acquire (R392): its context holds one until the fill. -/
theorem observe_zero_acquires :
    (match exec (.observe noHints 3 ⟨4, .global, 0⟩ (.i 0)) observing with
      | .next t => (t.ctx? 1).map Context.acqs
      | _ => none) = some [0] := by decide +kernel

/-- Refutes O15: `OBSERVE` of length 0 is an acquire too, and leaves its context with one, which the clause of length 0,
the same for `PUBLISH` and `OBSERVE`, does not say. -/
theorem not_linesAndFences : ¬ Obligations.LinesAndFences := by
  unfold Obligations.LinesAndFences
  intro h
  obtain ⟨-, -, hpool, -⟩ := h observing observer noHints
  have hready : observing.ready observer noHints (memSrc ⟨4, .global, 0⟩ :: xiSrcs (.i 0)) [.x 3] :=
    ⟨rfl, by decide +kernel⟩
  obtain ⟨-, hzero, -⟩ := hpool true 3 ⟨4, .global, 0⟩ (.i 0) hready
  obtain ⟨t, ht, -, -, ⟨k, hk, hissued, -⟩, -⟩ := hzero (by decide) (by decide)
  have hnone : k.acqs = [] := by rw [hissued]; rfl
  have hone := observe_zero_acquires
  simp only [if_true] at ht
  rw [ht] at hone
  have hk' : t.ctx? 1 = some k := hk
  simp [hk', hnone] at hone

end Sys2Proof.Machine
end

section
/-! Proofs about matrix instructions as they issue (R158, R278, R282, R286), and O25. -/

namespace Sys2Proof.Machine

/-! ## The queue of a matrix engine (R278) -/

/-- A command finds an entry of its core's queue. -/
theorem State.matCmd_of_room {s : State} {c : Context} (uid : Nat) (dest : Fin 64) (op : MatOp)
    (hroom : (s.core c.die.val c.core.val).mat.queue.length < 2) :
    s.matCmd uid c dest op
      = .done ((s.pendReg uid (.x dest)).modMat c.die.val c.core.val fun e =>
          { e with queue := e.queue ++ [{ uid := uid, world := c.world, lid := c.lid, dest := .x dest, op := op,
                                          item := c.item, pc := c.pc, srmode := c.srmode, order := c.serial }] }) :=
  if_neg (Nat.not_le.mpr hroom)

/-! ## Addresses of matrix operands (R158, R282) -/

theorem matBase_unmapped {a align : Nat} (h : 2 ^ 30 ≤ a ∨ a / 2 ^ 24 % 8 = 7 ∨ 5 ≤ a / 2 ^ 27 % 8) :
    matBase a align = .error (causeUnmapped, a) :=
  if_pos (by omega)

theorem matBase_misaligned {a align : Nat} (h : ¬(2 ^ 30 ≤ a ∨ a / 2 ^ 24 % 8 = 7 ∨ 5 ≤ a / 2 ^ 27 % 8))
    (hbad : 2 ^ 24 ≤ a ∨ a % align ≠ 0) : matBase a align = .error (causeMisaligned, a) :=
  (if_neg (by omega)).trans (if_pos (hbad.imp_left fun _ => by omega))

/-- An aligned address below 2^24 is an offset of the core's local memory. -/
theorem matBase_ok {a align : Nat} (hlt : a < 2 ^ 24) (halign : a % align = 0) : matBase a align = .ok (a % 2 ^ 20) :=
  (if_neg (by omega)).trans (if_neg (not_or.mpr ⟨by omega, not_not.mpr halign⟩))

/-! ## O25 -/

/-- Settles O25: commands without a memory operand go to the queue; of the others, the mode, the address and the footprint
decide in turn. -/
theorem matrixCommands : Obligations.MatrixCommands := by
  unfold Obligations.MatrixCommands
  intro s c ctl xs uid m takes
  have hplain {i : Instr} {op : Nat} {rd : List Src} {f : Context → MatOp}
      (hi : exec i s = matPlain op ctl xs rd f s) (h : s.ready c ctl rd [.x xs]) : takes i rd (f c) := fun hroom =>
    State.doneAs_of_done h hi rfl (State.matCmd_of_room uid xs (f c) hroom)
  refine ⟨fun h => ⟨hplain (exec_mring ..) h, hplain (exec_mclose ..) h, hplain (exec_mstat ..) h⟩,
    fun k h => ⟨hplain (exec_mma ..) h, hplain (exec_mrcfg ..) h, fun wide => hplain (exec_mzero ..) h⟩, ?_⟩
  intro place
  have hplace {i : Instr} {op : Nat} {rd : List Src} {body : Nat → Context → State → Res} {k : Nat → Res} {a : MemOp}
      {va align : Nat} {offs : List Nat} {n : Nat} {need : Need} {ok : Prop} (h : s.ready c ctl rd [.x xs])
      (hi : exec i s = issue op ctl noPriv rd [.x xs] s body)
      (hbody : body uid c m = if a.mode ≠ .own then .trap causeIllegal 0 else orTrap (matBase va align) k)
      (hfault : ∀ e, m.chunkFault c va offs n need = some e → k (va % 2 ^ 20) = .trap e.1 e.2)
      (hok : body uid c m = k (va % 2 ^ 20) → m.chunkFault c va offs n need = none → ok) :
      place i op a va align offs n need ok := by
    have traps {cause addr : Nat} (hb : body uid c m = .trap cause addr) : s.faults c i op cause addr :=
      State.faults_of_trap h hi rfl hb
    have own (hmode : a.mode = .own) : body uid c m = orTrap (matBase va align) k :=
      hbody.trans (if_neg (not_not.mpr hmode))
    have inside (hmode : a.mode = .own) (hlt : va < 2 ^ 24) (halign : va % align = 0) : body uid c m = k (va % 2 ^ 20) := by
      rw [own hmode, matBase_ok hlt halign, orTrap]
    refine ⟨fun hmode => traps (hbody.trans (if_pos hmode)), fun hmode hbad => traps ?_, fun hmode hmap hbad => traps ?_,
      fun hmode hlt halign => ⟨fun e he => traps ((inside hmode hlt halign).trans (hfault e he)),
        hok (inside hmode hlt halign)⟩⟩
    · rw [own hmode, matBase_unmapped hbad, orTrap]
    · rw [own hmode, matBase_misaligned hmap hbad, orTrap]
  refine ⟨fun a x h => ?loads, fun t a x h => ?store⟩
  case loads =>
    intro va w half
    have hhalf {i : Instr} {op : Nat} (b : Bool) (hi : exec i s = loadStage op ctl b xs a x s) :
        half b i op (if b then .mldb (va % 2 ^ 20) w else .mlda (va % 2 ^ 20) w) := by
      refine hplace h hi rfl (fun e he => ?_) fun hbody hchunks => ⟨fun e hlay he => ?_, fun htags hrel hroom => ?_⟩
      · dsimp only [va, w] at he ⊢
        rw [he]
        rfl
      · refine State.faults_of_trap h hi rfl (hbody.trans ?_)
        dsimp only [va, w] at hlay he hchunks ⊢
        rw [hchunks, if_pos hlay]
        simp only [Option.orElse, he]
      · refine State.doneAs_of_done h hi rfl (hbody.trans ?_)
        have htag : (if layOk b w = true then m.tagFault c w (layAll b (va % 2 ^ 20) w) else none) = none := by
          split
          next hlay => exact htags hlay
          next => rfl
        dsimp only [va, w] at hchunks htag ⊢
        rw [hchunks, htag]
        exact (if_neg (by simp [hrel])).trans (State.matCmd_of_room uid xs _ hroom)
    exact ⟨hhalf false (exec_mlda ..), hhalf true (exec_mldb ..)⟩
  case store =>
    intro va w
    refine hplace h (exec_msta ctl t xs a x s) rfl (fun e he => ?_) fun hbody hchunks hroom => ?_
    · dsimp only [va, w] at he ⊢
      rw [he]
    · refine State.doneAs_of_done h (exec_msta ctl t xs a x s) rfl (hbody.trans ?_)
      dsimp only [va, w] at hchunks ⊢
      rw [hchunks]
      exact State.matCmd_of_room uid xs _ hroom

end Sys2Proof.Machine
end

section
/-! Proofs about the drains of store buffers, retries and monitor entries (R147, R168, R176, R177, R184, R205), and O36. -/

namespace Sys2Proof.Machine

theorem KMap.mem_of_look {α : Type} {m : KMap α} {a : Nat} {v : α} (h : KMap.look m a = some v) : (a, v) ∈ m := by
  induction m with
  | nil => simp [KMap.look] at h
  | cons p t ih =>
    obtain ⟨k, x⟩ := p
    simp only [KMap.look] at h
    split at h
    next hk =>
      obtain rfl := Option.some.inj h
      exact hk ▸ List.mem_cons_self
    next =>
      split at h
      · exact absurd h (by simp)
      · exact List.mem_cons_of_mem _ (ih h)

/-- A die is one of those listed, or as after reset. -/
theorem State.die_cases (s : State) (d : Nat) : (∃ x ∈ s.dies, s.die d = x.2) ∨ s.die d = Die.empty := by
  unfold State.die KMap.lookD
  cases h : KMap.look s.dies d with
  | none => exact .inr rfl
  | some v => exact .inl ⟨(d, v), KMap.mem_of_look h, rfl⟩

/-- Two changes of a context that agree on it are one. -/
theorem State.modCtx_congr {s : State} {uid : Nat} {c : Context} {f g : Context → Context} (hc : s.ctx? uid = some c)
    (h : f c = g c) : s.modCtx uid f = s.modCtx uid g := by
  have hlook : KMap.look s.ctxs uid = some c := hc
  simp only [State.modCtx, KMap.modify, hlook, h]

/-- An NI with nothing outstanding sends nothing again. -/
theorem State.sendAgain_idle {s : State} {d : Nat} (uid : Nat) (houtst : (s.die d).ni.outst = [])
    (hsends : (s.die d).ni.sends = []) : s.sendAgain uid d = s := by
  simp only [State.sendAgain, houtst, hsends, List.foldl_nil]

/-- Where no NI has anything outstanding, none sends anything again. -/
theorem State.foldl_sendAgain_idle {s : State} (uid : Nat)
    (h : s.dies.all (fun d => d.2.ni.outst.isEmpty && d.2.ni.sends.isEmpty) = true) (l : KMap Die) :
    l.foldl (fun (s : State) p => s.sendAgain uid p.1) s = s := by
  refine List.foldl_fixed' (fun p => ?_) l
  obtain ⟨x, hx, hdie⟩ | hdie := s.die_cases p.1
  · have hidle := List.all_eq_true.mp h x hx
    simp only [Bool.and_eq_true, List.isEmpty_iff] at hidle
    exact State.sendAgain_idle uid (hdie ▸ hidle.1) (hdie ▸ hidle.2)
  · exact State.sendAgain_idle uid (by rw [hdie]; rfl) (by rw [hdie]; rfl)

/-- Settles O36: each clause is one branch of its event. -/
theorem memoryEvents : Obligations.MemoryEvents := by
  unfold Obligations.MemoryEvents
  intro s
  refine ⟨fun uid k c e hc he hmay => ⟨fun hmove => ?drains, fun m hmove hnew hroom => ?admitted⟩,
    fun uid c hc hwait hover hidle => ?retries, fun d k m hm => ⟨fun t ht hover => ?timeout, fun v hended hlater => ?wake⟩⟩
  case drains =>
    rw [exec_storeBufferDrain, execStoreBufferDrain, hc]
    dsimp only
    rw [he]
    refine (if_neg (by simp [hmay])).trans ?_
    rw [hmove]
  case admitted =>
    rw [exec_storeBufferDrain, execStoreBufferDrain, hc]
    dsimp only
    rw [he]
    refine (if_neg (by simp [hmay])).trans ?_
    rw [hmove]
    exact if_neg (by simp [hnew, hroom])
  case retries =>
    rw [exec_retryBackoffExpiry, execRetryBackoffExpiry]
    exact congrArg Host.Outcome.next ((State.foldl_sendAgain_idle uid (by exact hidle) _).trans
      (State.modCtx_congr hc (if_pos ⟨hwait, hover⟩)))
  case timeout =>
    rw [exec_waitaTimeout, execWaitaTimeout, hm]
    dsimp only
    rw [ht]
    exact if_pos hover
  case wake =>
    rw [exec_monitorWakeNotice, execMonitorWakeNotice, hm]
    dsimp only
    rw [hended]
    exact if_neg (Nat.not_le.mpr hlater)

end Sys2Proof.Machine
end

section
/-! What the proof of O59 says of outcomes, and of folds and continuations, about the canonical form of memory. -/

namespace Sys2Proof.Machine

/-! ## What outcomes hold -/

/-- Every state that an outcome holds has memory in canonical form. -/
def Out.formed : Out → Bool
  | .next t => t.mem.wf
  | _ => true

/-- Every state that the answer of a body holds has memory in canonical form. -/
def Res.formed : Res → Bool
  | .done t => t.mem.wf
  | .hold t => t.mem.wf
  | _ => true

/-- Every state that the reading of a block holds has memory in canonical form. -/
def Block.formed : Block → Bool
  | .bytes t _ => t.mem.wf
  | .hold t => t.mem.wf
  | _ => true

/-- Every state that a fetch holds has memory in canonical form. -/
def Fetched.formed : Fetched → Bool
  | .fault t _ _ _ => t.mem.wf
  | .wait t => t.mem.wf
  | .word t _ _ _ => t.mem.wf

/-- Every state that a prepared issue holds has memory in canonical form. -/
def Prepared.formed : Prepared → Bool
  | .stop t => t.mem.wf
  | .run _ t => t.mem.wf

/-- Every state that the run of a matrix command holds has memory in canonical form. -/
def MatRes.formed : MatRes → Bool
  | .fin t _ _ _ => t.mem.wf
  | _ => true

/-- Every state that work on pool lines ends in has memory in canonical form. -/
def PoolEnd.formed : PoolEnd → Bool
  | .done t _ _ => t.mem.wf
  | .failed t _ => t.mem.wf
  | .wait => true

@[simp] theorem Out.formed_next (t : State) : Out.formed (.next t) = t.mem.wf := rfl
@[simp] theorem Out.formed_fault (f : Fault) : Out.formed (.fault f) = true := rfl
@[simp] theorem Out.formed_refused (f : Refusal) : Out.formed (.refused f) = true := rfl
@[simp] theorem Res.formed_done (t : State) : (Res.done t).formed = t.mem.wf := rfl
@[simp] theorem Res.formed_hold (t : State) : (Res.hold t).formed = t.mem.wf := rfl
@[simp] theorem Res.formed_wait : Res.wait.formed = true := rfl
@[simp] theorem Res.formed_trap (a b : Nat) : (Res.trap a b).formed = true := rfl
@[simp] theorem Res.formed_trapAt (a b : Nat) (p : BitVec 64) : (Res.trapAt a b p).formed = true := rfl
@[simp] theorem Block.formed_bytes (t : State) (bs : List Byte) : (Block.bytes t bs).formed = t.mem.wf := rfl
@[simp] theorem Block.formed_hold (t : State) : (Block.hold t).formed = t.mem.wf := rfl
@[simp] theorem Block.formed_wait : Block.wait.formed = true := rfl
@[simp] theorem Block.formed_trap (a b : Nat) : (Block.trap a b).formed = true := rfl

@[simp] theorem Fetched.formed_fault (t : State) (a b c : Nat) : (Fetched.fault t a b c).formed = t.mem.wf := rfl
@[simp] theorem Fetched.formed_wait (t : State) : (Fetched.wait t).formed = t.mem.wf := rfl
@[simp] theorem Fetched.formed_word (t : State) (w : IWord) (e : Bool) (bs : List Byte) :
    (Fetched.word t w e bs).formed = t.mem.wf := rfl
@[simp] theorem Prepared.formed_stop (t : State) : (Prepared.stop t).formed = t.mem.wf := rfl
@[simp] theorem Prepared.formed_run (i : Instr) (t : State) : (Prepared.run i t).formed = t.mem.wf := rfl
@[simp] theorem MatRes.formed_fin (t : State) (v : BitVec 64) (fl : Nat) (nan : Option NanCap) :
    (MatRes.fin t v fl nan).formed = t.mem.wf := rfl
@[simp] theorem MatRes.formed_wait : MatRes.wait.formed = true := rfl
@[simp] theorem MatRes.formed_send : MatRes.send.formed = true := rfl
@[simp] theorem PoolEnd.formed_done (t : State) (l : List (Nat × List Byte)) (n : Nat) :
    (PoolEnd.done t l n).formed = t.mem.wf := rfl
@[simp] theorem PoolEnd.formed_failed (t : State) (n : Nat) : (PoolEnd.failed t n).formed = t.mem.wf := rfl
@[simp] theorem PoolEnd.formed_wait : PoolEnd.wait.formed = true := rfl

/-! ## Folds -/

/-- A fold of steps that leave memory alone leaves it alone. -/
@[simp] theorem State.foldl_mem {α : Type} {f : State → α → State} {l : List α} {s : State}
    (hf : ∀ t x, (f t x).mem = t.mem) : (l.foldl f s).mem = s.mem := by
  induction l generalizing s with
  | nil => rfl
  | cons x l ih => exact (ih (s := f s x)).trans (hf s x)

/-- `t` has the memory of `s`. The kernel compares two such claims by their arguments, where for equations between
the memories of two states it may evaluate the states. -/
def State.SameMem (s t : State) : Prop := t.mem = s.mem

theorem State.foldl_sameMem {α : Type} {f : State → α → State} {l : List α} {s : State}
    (hf : ∀ t x, State.SameMem t (f t x)) : State.SameMem s (l.foldl f s) := State.foldl_mem hf

/-- The memory of a state is in canonical form. As with `State.SameMem`, the kernel compares two such claims by their
states. -/
def State.Formed (s : State) : Prop := s.mem.wf = true

theorem State.formed_foldl {α : Type} {f : State → α → State} {l : List α} {s : State} (h : s.Formed)
    (hf : ∀ t x, t.Formed → (f t x).Formed) : (l.foldl f s).Formed := State.wf_foldl f l h hf

/-- A fold over a state and a value beside it, by steps that keep the form of the state's memory. -/
theorem State.wf_foldl_fst {α β : Type} {f : State × β → α → State × β} {l : List α} {p : State × β}
    (h : p.1.mem.wf = true) (hf : ∀ p x, p.1.mem.wf = true → (f p x).1.mem.wf = true) :
    (l.foldl f p).1.mem.wf = true := by
  induction l generalizing p with
  | nil => exact h
  | cons x l ih => exact ih (hf p x h)

/-! ## Continuations -/

@[simp] theorem wf_orTrap {α : Type} {e : Except (Nat × Nat) α} {k : α → Res} (hk : ∀ x, (k x).formed = true) :
    (orTrap e k).formed = true := by
  cases e with
  | error e => rfl
  | ok a => exact hk a

@[simp] theorem wf_into {b : Block} {k : State → List Byte → Res} (hb : b.formed = true)
    (hk : ∀ t bs, t.mem.wf = true → (k t bs).formed = true) : (b.into k).formed = true := by
  cases b with
  | bytes t bs => exact hk t bs hb
  | wait => rfl
  | hold t => exact hb
  | trap cause addr => rfl

theorem State.wf_of_all {o : Option State} {t : State} (ho : o.all (·.mem.wf) = true) (e : o = some t) :
    t.mem.wf = true := by
  subst e
  exact ho

/-! ## Branches -/

@[simp] theorem State.ite_mem {p : Prop} [Decidable p] {s t : State} :
    (if p then s else t).mem = if p then s.mem else t.mem := apply_ite State.mem p s t

@[simp] theorem Memory.ite_wf {p : Prop} [Decidable p] {m n : Memory} :
    (if p then m else n).wf = if p then m.wf else n.wf := apply_ite Memory.wf p m n

end Sys2Proof.Machine
end

section
/-! Which operations leave memory as it is, by the files of the model. -/

namespace Sys2Proof.Machine

variable {s : State}

/-! ### Access -/

@[simp] theorem State.draw_mem : s.draw.2.mem = s.mem := by fun_cases State.draw <;> simp

@[simp] theorem State.mapCtxs_mem {f} : (s.mapCtxs f).mem = s.mem := by fun_cases State.mapCtxs <;> simp

/-! ### Monitor -/

@[simp] theorem State.answer_mem {pkg die seq a} : (s.answer pkg die seq a).mem = s.mem := by
  fun_cases State.answer <;> simp

@[simp] theorem State.uncount_mem {t} : (s.uncount t).mem = s.mem := by fun_cases State.uncount <;> simp

@[simp] theorem State.endMonsBy_mem {rd a n} : (s.endMonsBy rd a n).mem = s.mem := by
  unfold State.endMonsBy
  simp

@[simp] theorem State.tellFar_mem : s.tellFar.mem = s.mem := by
  unfold State.tellFar
  simp

@[simp] theorem State.endMonitors_mem {a n} : (s.endMonitors a n).mem = s.mem := by fun_cases State.endMonitors <;> simp

/-! ### Translate -/

@[simp] theorem State.unpause_mem {uid who} : (s.unpause uid who).mem = s.mem := by fun_cases State.unpause <;> simp

@[simp] theorem State.unpauseAll_mem {uid f} : (s.unpauseAll uid f).mem = s.mem := by
  fun_cases State.unpauseAll <;> simp

/-! ### Cache -/

@[simp] theorem State.recallL1_mem {d c line keep} : (s.recallL1 d c line keep).mem = s.mem := by
  fun_cases State.recallL1 <;> simp

@[simp] theorem State.l1Home_mem {by_ a write} : (s.l1Home by_ a write).mem = s.mem := by
  fun_cases State.l1Home <;> simp

@[simp] theorem State.l1Each_mem {parts} {f : State → Nat → State} (hf : ∀ t a, (f t a).mem = t.mem) :
    (s.l1Each parts f).mem = s.mem := State.foldl_mem hf

@[simp] theorem State.l1Unwatch_mem : s.l1Unwatch.mem = s.mem := by fun_cases State.l1Unwatch <;> simp

@[simp] theorem State.l1Take_mem {d c loc own a} : (s.l1Take d c loc own a).mem = s.mem := by
  fun_cases State.l1Take <;> simp

@[simp] theorem State.l1Read_mem {d c loc a} : (s.l1Read d c loc a).mem = s.mem := by fun_cases State.l1Read <;> simp

@[simp] theorem State.l1Write_mem {d c loc a} : (s.l1Write d c loc a).mem = s.mem := by fun_cases State.l1Write <;> simp

@[simp] theorem State.l1Atomic_mem {d c loc a} : (s.l1Atomic d c loc a).mem = s.mem := by
  unfold State.l1Atomic
  dsimp only
  repeat' split
  all_goals simp

@[simp] theorem State.l1Pref_mem {d c loc a own} : (s.l1Pref d c loc a own).mem = s.mem := by
  fun_cases State.l1Pref <;> simp

@[simp] theorem State.l1Clean_mem {d c a} : (s.l1Clean d c a).mem = s.mem := by fun_cases State.l1Clean <;> simp

@[simp] theorem State.l1Drop_mem {d c a} : (s.l1Drop d c a).mem = s.mem := by fun_cases State.l1Drop <;> simp

/-! ### Work -/

@[simp] theorem State.modFacts_mem {l f} : (s.modFacts l f).mem = s.mem := by fun_cases State.modFacts <;> simp

@[simp] theorem State.prunePast_mem : s.prunePast.mem = s.mem := by fun_cases State.prunePast <;> simp

@[simp] theorem State.charge_mem {r core cc bytes} : (s.charge r core cc bytes).mem = s.mem := by
  fun_cases State.charge <;> simp

@[simp] theorem State.loadTable_mem {d c lid} : (s.loadTable d c lid).mem = s.mem := by
  fun_cases State.loadTable <;> simp

@[simp] theorem State.modEntry_mem {d c lid ch f} : (s.modEntry d c lid ch f).mem = s.mem := by
  fun_cases State.modEntry <;> simp

@[simp] theorem State.enqueue_mem {uid d cl} : (s.enqueue uid d cl).mem = s.mem := by
  unfold State.enqueue
  simp

@[simp] theorem State.requeue_mem {uid} : (s.requeue uid).mem = s.mem := by fun_cases State.requeue <;> simp

@[simp] theorem State.addCtx_mem {c} : (s.addCtx c).mem = s.mem := by fun_cases State.addCtx <;> simp

/-! ### Pages -/

@[simp] theorem State.setPageWord_mem {a reset v} : (s.setPageWord a reset v).mem = s.mem := by
  fun_cases State.setPageWord <;> simp

@[simp] theorem State.retireLane_mem {port lane} : (s.retireLane port lane).mem = s.mem := by
  fun_cases State.retireLane <;> simp

@[simp] theorem State.retireLanes_mem : s.retireLanes.mem = s.mem := by fun_cases State.retireLanes <;> simp

@[simp] theorem State.writePart_mem {p w v} : (s.writePart p w v).mem = s.mem := by fun_cases State.writePart <;> simp

@[simp] theorem State.writeDebug_mem {k w v world trusted} : (s.writeDebug k w v world trusted).mem = s.mem := by
  fun_cases State.writeDebug <;> simp

/-! ### Ni -/

@[simp] theorem State.failStore_mem {uid scope path b} : (s.failStore uid scope path b).mem = s.mem := by
  fun_cases State.failStore <;> simp

@[simp] theorem State.sendReq_mem {d dest world off rlim die op todo} :
    (s.sendReq d dest world off rlim die op todo).mem = s.mem := by
  unfold State.sendReq
  dsimp only
  split <;> simp

@[simp] theorem State.unwait_mem {d hr} : (s.unwait d hr).mem = s.mem := by fun_cases State.unwait <;> simp

/-! ### Perform -/

@[simp] theorem State.pageChanged_mem {a n} : (s.pageChanged a n).mem = s.mem := by fun_cases State.pageChanged <;> simp

@[simp] theorem State.notePage_mem {w a} : (s.notePage w a).mem = s.mem := by fun_cases State.notePage <;> simp

@[simp] theorem State.overtake_mem {w a n} : (s.overtake w a n).mem = s.mem := by fun_cases State.overtake <;> simp

@[simp] theorem State.pushFill_mem {uid f} : (s.pushFill uid f).mem = s.mem := by fun_cases State.pushFill <;> simp

@[simp] theorem State.acquired_mem {uid id} : (s.acquired uid id).mem = s.mem := by fun_cases State.acquired <;> simp

@[simp] theorem State.reap_mem {uid} : (s.reap uid).mem = s.mem := by fun_cases State.reap <;> simp

@[simp] theorem State.endLoad_mem {uid dest acc raw pois acq} : (s.endLoad uid dest acc raw pois acq).mem = s.mem := by
  unfold State.endLoad
  split <;> rfl

@[simp] theorem State.notePartPoison_mem {uid acc bad} : (s.notePartPoison uid acc bad).mem = s.mem := by
  fun_cases State.notePartPoison <;> simp

@[simp] theorem State.admitWaiter_mem {w} : (s.admitWaiter w).mem = s.mem := by fun_cases State.admitWaiter <;> simp

@[simp] theorem State.freeBytes_mem {n} : (s.freeBytes n).1.mem = s.mem := by
  induction n generalizing s with
  | zero => rfl
  | succ n ih => exact ih (s := s.draw.2)

/-! ### Withdraw -/

@[simp] theorem State.cancelFar_mem {d hr o} : (s.cancelFar d hr o).mem = s.mem := by
  unfold State.cancelFar
  repeat' split
  all_goals simp

@[simp] theorem State.cancelFars_mem {ids} : (s.cancelFars ids).mem = s.mem := by fun_cases State.cancelFars <;> simp

@[simp] theorem State.cutMonitors_mem {ids} : (s.cutMonitors ids).mem = s.mem := by fun_cases State.cutMonitors <;> simp

@[simp] theorem State.endFaulted_mem : s.endFaulted.mem = s.mem := by
  unfold State.endFaulted
  simp

@[simp] theorem State.cutMasters_mem {ids} : (s.cutMasters ids).mem = s.mem := by fun_cases State.cutMasters <;> simp

@[simp] theorem State.freeNodes_mem {ids} : (s.freeNodes ids).mem = s.mem := by fun_cases State.freeNodes <;> simp

@[simp] theorem State.dropSpace_mem {sp} : (s.dropSpace sp).mem = s.mem := by fun_cases State.dropSpace <;> simp

/-! ### Teardown -/

@[simp] theorem State.clearWires_mem {d} : (s.clearWires d).mem = s.mem := by
  refine (State.foldl_mem fun t c => ?_).trans (State.modDie_mem ..)
  split <;> simp

@[simp] theorem State.giveWires_mem {d} : (s.giveWires d).mem = s.mem := by fun_cases State.giveWires <;> simp

@[simp] theorem State.dropNotices_mem {w} : (s.dropNotices w).mem = s.mem := by
  refine State.foldl_mem fun t p => ?_
  split
  · split
    · split <;> simp
    · rfl
  · rfl

/-! ### Ops -/

@[simp] theorem State.sendFault_mem {c slot cxid} : (s.sendFault c slot cxid).mem = s.mem := by
  fun_cases State.sendFault <;> simp

@[simp] theorem State.sendBytes_mem {d id p} : (s.sendBytes d id p).2.mem = s.mem := by
  unfold State.sendBytes
  split <;> rfl

@[simp] theorem State.endSendWith_mem {d id v ok bytes} : (s.endSendWith d id v ok bytes).mem = s.mem := by
  unfold State.endSendWith
  repeat' split
  all_goals simp

@[simp] theorem State.endSend_mem {d id v ok} : (s.endSend d id v ok).mem = s.mem := by
  unfold State.endSend
  repeat' split
  all_goals simp

@[simp] theorem State.tellSender_mem {hr cancel} : (s.tellSender hr cancel).mem = s.mem := by
  fun_cases State.tellSender <;> simp

@[simp] theorem State.endPost_mem {d id v ok tell} : (s.endPost d id v ok tell).mem = s.mem := by
  unfold State.endPost
  repeat' split
  all_goals simp

@[simp] theorem State.endWordWait_mem {uid c} : (s.endWordWait uid c).mem = s.mem := by
  unfold State.endWordWait
  repeat' split
  all_goals simp

@[simp] theorem State.blocked_mem {uid w} : (s.blocked uid w).mem = s.mem := by fun_cases State.blocked <;> simp

@[simp] theorem State.retired_mem {uid ctl pc rd wr} : (s.retired uid ctl pc rd wr).mem = s.mem := by
  unfold State.retired
  split <;> rfl

@[simp] theorem State.movedOn_mem {uid} : (s.movedOn uid).mem = s.mem := by fun_cases State.movedOn <;> simp

@[simp] theorem State.setReg_mem {uid r v} : (s.setReg uid r v).mem = s.mem := by fun_cases State.setReg <;> simp

@[simp] theorem State.produce_mem {uid f} : (s.produce uid f).mem = s.mem := by fun_cases State.produce <;> simp

@[simp] theorem State.produceWord_mem {uid dest v} : (s.produceWord uid dest v).mem = s.mem := by
  fun_cases State.produceWord <;> simp

@[simp] theorem State.pendReg_mem {uid dest} : (s.pendReg uid dest).mem = s.mem := by fun_cases State.pendReg <;> simp

/-! ### Operands -/

@[simp] theorem State.jump_mem {uid t} : (s.jump uid t).mem = s.mem := by fun_cases State.jump <;> simp

@[simp] theorem State.admitPaused_mem {uid who m acc} : (s.admitPaused uid who m acc).mem = s.mem := by
  fun_cases State.admitPaused <;> simp

/-! ### Issue -/

@[simp] theorem State.mem_selectIssue {d c} : (s.selectIssue d c).mem = s.mem := by
  unfold State.selectIssue
  dsimp only
  repeat' split
  all_goals simp

/-! ### Fetch -/

@[simp] theorem State.icacheRoom_mem {d c} : (s.icacheRoom d c).mem = s.mem := by
  unfold State.icacheRoom
  split <;> rfl

@[simp] theorem State.dropBlock_mem {d c key} : (s.dropBlock d c key).mem = s.mem := by
  fun_cases State.dropBlock <;> simp

@[simp] theorem State.undoSelect_mem {uid old d c} : (s.undoSelect uid old d c).mem = s.mem := by
  unfold State.undoSelect
  simp

@[simp] theorem State.endCycle_mem {d c} : (s.endCycle d c).mem = s.mem := by
  unfold State.endCycle
  simp

/-! ### Trust -/

@[simp] theorem State.summary_mem : s.summary.2.mem = s.mem := by fun_cases State.summary <;> simp

@[simp] theorem State.spdmReply_mem {code data} : (s.spdmReply code data).mem = s.mem := by
  unfold State.spdmReply
  simp

@[simp] theorem State.spdmError_mem {e} : (s.spdmError e).mem = s.mem := by fun_cases State.spdmError <;> simp

@[simp] theorem State.spdmAnswer_mem {code r} : (s.spdmAnswer code r).mem = s.mem := by
  fun_cases State.spdmAnswer <;> simp

@[simp] theorem State.spdmSigned_mem {code r body} : (s.spdmSigned code r body).mem = s.mem := by
  fun_cases State.spdmSigned <;> simp

@[simp] theorem State.spdmSlot_mem {r} {f : State → State} (hf : (f s).mem = s.mem) :
    (s.spdmSlot r f).mem = s.mem := by
  simp [State.spdmSlot, hf]

@[simp] theorem State.answerGetVersion_mem {a1} : (s.answerGetVersion a1).mem = s.mem := by
  fun_cases State.answerGetVersion <;> simp

@[simp] theorem State.answerGetCapabilities_mem {r} : (s.answerGetCapabilities r).mem = s.mem := by
  fun_cases State.answerGetCapabilities <;> simp

@[simp] theorem State.answerNegotiateAlgorithms_mem {a1} : (s.answerNegotiateAlgorithms a1).mem = s.mem := by
  fun_cases State.answerNegotiateAlgorithms <;> simp

@[simp] theorem State.answerGetDigests_mem {r} : (s.answerGetDigests r).mem = s.mem := by
  fun_cases State.answerGetDigests <;> simp

@[simp] theorem State.answerGetCertificate_mem {r} : (s.answerGetCertificate r).mem = s.mem := by
  fun_cases State.answerGetCertificate <;> simp

@[simp] theorem State.answerChallenge_mem {r} : (s.answerChallenge r).mem = s.mem := by
  fun_cases State.answerChallenge <;> simp

@[simp] theorem State.answerGetMeasurements_mem {r} : (s.answerGetMeasurements r).mem = s.mem := by
  fun_cases State.answerGetMeasurements <;> simp

@[simp] theorem State.answerKeyExchange_mem {r} : (s.answerKeyExchange r).mem = s.mem := by
  fun_cases State.answerKeyExchange <;> simp

@[simp] theorem State.answerFinish_mem {r} : (s.answerFinish r).mem = s.mem := by fun_cases State.answerFinish <;> simp

@[simp] theorem State.answerHeartbeat_mem {r} : (s.answerHeartbeat r).mem = s.mem := by
  fun_cases State.answerHeartbeat <;> simp

@[simp] theorem State.answerEndSession_mem {r} : (s.answerEndSession r).mem = s.mem := by
  fun_cases State.answerEndSession <;> simp

@[simp] theorem State.answerKeyImport_mem {r} : (s.answerKeyImport r).mem = s.mem := by
  fun_cases State.answerKeyImport <;> simp

@[simp] theorem State.answerUnsupported_mem {a1} : (s.answerUnsupported a1).mem = s.mem := by
  fun_cases State.answerUnsupported <;> simp

@[simp] theorem State.spdmBody_mem {r op} : (s.spdmBody r op).mem = s.mem := by fun_cases State.spdmBody <;> simp

@[simp] theorem State.answerSpdm_mem {k r} : (s.answerSpdm k r).mem = s.mem := by fun_cases State.answerSpdm <;> simp

@[simp] theorem State.serveJobs_mem {a1} : (s.serveJobs a1).mem = s.mem := by fun_induction State.serveJobs <;> simp [*]

@[simp] theorem State.serveSpdm_mem : s.serveSpdm.mem = s.mem := by fun_cases State.serveSpdm <;> simp

/-! ### Environ -/

@[simp] theorem State.loadImage_mem {off bs} : (s.loadImage off bs).mem = s.mem := by
  induction bs generalizing s off with
  | nil => rfl
  | cons b bs ih => exact ih

@[simp] theorem State.flipBlock_mem {d c blk byte b} : (s.flipBlock d c blk byte b).mem = s.mem := by
  fun_cases State.flipBlock <;> simp

@[simp] theorem State.switchRefuses_mem {f} : (s.switchRefuses f).mem = s.mem := by
  fun_cases State.switchRefuses <;> simp

/-! ### Stipple -/

@[simp] theorem State.jobSeed_mem {lid} : (s.jobSeed lid).2.mem = s.mem := by fun_cases State.jobSeed <;> simp

@[simp] theorem State.compatStep_mem {lid lcore now k} : (s.compatStep lid lcore now k).2.mem = s.mem := by
  fun_cases State.compatStep <;> simp

@[simp] theorem State.oneGroup_mem {k srmode lid d c coord seq} :
    (s.oneGroup k srmode lid d c coord seq).2.mem = s.mem := by
  unfold State.oneGroup
  repeat' split
  all_goals simp

@[simp] theorem State.scalarGroup_mem {c v} : (s.scalarGroup c v).2.mem = s.mem := by
  fun_cases State.scalarGroup <;> simp

/-! ### LoadStore -/

@[simp] theorem State.newAcq_mem {uid} : (s.newAcq uid).2.mem = s.mem := by fun_cases State.newAcq <;> simp

@[simp] theorem State.loadLater_mem {uid dest src acq} : (s.loadLater uid dest src acq).mem = s.mem := by
  unfold State.loadLater
  repeat' split
  all_goals simp

@[simp] theorem State.loadRemote_mem {uid c dest acc p off acq} :
    (s.loadRemote uid c dest acc p off acq).mem = s.mem := by
  unfold State.loadRemote
  repeat' split
  all_goals simp

@[simp] theorem State.buffer_mem {uid acc op loc} : (s.buffer uid acc op loc).mem = s.mem := by
  fun_cases State.buffer <;> simp

@[simp] theorem State.encodeStore_mem {c acc bs src} : (s.encodeStore c acc bs src).1.mem = s.mem := by
  unfold State.encodeStore
  repeat' split
  all_goals simp

@[simp] theorem State.fegetAt_mem {d c a} : (s.fegetAt d c a).1.mem = s.mem := by fun_cases State.fegetAt <;> simp

/-! ### Buffer -/

@[simp] theorem State.unbuffer_mem {uid k} : (s.unbuffer uid k).mem = s.mem := by fun_cases State.unbuffer <;> simp

@[simp] theorem State.refusedHere_mem {uid c k e} : (s.refusedHere uid c k e).mem = s.mem := by
  fun_cases State.refusedHere <;> simp

/-! ### Messages -/

@[simp] theorem State.modChan_mem {c ch f} : (s.modChan c ch f).mem = s.mem := by fun_cases State.modChan <;> simp

@[simp] theorem State.markDep_mem {r i met waits} : (s.markDep r i met waits).mem = s.mem := by
  fun_cases State.markDep <;> simp

@[simp] theorem State.msgStatus_mem {m v} : (s.msgStatus m v).mem = s.mem := by fun_cases State.msgStatus <;> simp

@[simp] theorem State.offNet_mem {k} : (s.offNet k).mem = s.mem := by fun_cases State.offNet <;> simp

@[simp] theorem State.dropOutst_mem {hr} : (s.dropOutst hr).mem = s.mem := by fun_cases State.dropOutst <;> simp

@[simp] theorem State.enterSlot_mem {uid d c n} : (s.enterSlot uid d c n).mem = s.mem := by
  fun_cases State.enterSlot <;> simp

@[simp] theorem State.startHandler_mem {d c n m t e kind} : (s.startHandler d c n m t e kind).mem = s.mem := by
  fun_cases State.startHandler <;> simp

/-! ### Control -/

@[simp] theorem State.giveCxid_mem {uid xs} : (s.giveCxid uid xs).mem = s.mem := by fun_cases State.giveCxid <;> simp

/-! ### Atomics -/

@[simp] theorem State.endMon_mem {d k v} : (s.endMon d k v).mem = s.mem := by fun_cases State.endMon <;> simp

@[simp] theorem State.takeMon_mem {by_ r} : (s.takeMon by_ r).mem = s.mem := by fun_cases State.takeMon <;> simp

@[simp] theorem State.wake_mem {by_ a n} : (s.wake by_ a n).1.mem = s.mem := by fun_cases State.wake <;> simp

@[simp] theorem State.endWait_mem {uid dest acq v} : (s.endWait uid dest acq v).mem = s.mem := by
  fun_cases State.endWait <;> simp

@[simp] theorem State.endFar_mem {d k} : (s.endFar d k).mem = s.mem := by fun_cases State.endFar <;> simp

/-! ### Sync -/

@[simp] theorem State.setPhaser_mem {d i p} : (s.setPhaser d i p).mem = s.mem := by fun_cases State.setPhaser <;> simp

@[simp] theorem State.setMember_mem {d i m} : (s.setMember d i m).mem = s.mem := by fun_cases State.setMember <;> simp

@[simp] theorem State.settlePhaser_mem {d i p} : (s.settlePhaser d i p).mem = s.mem := by
  unfold State.settlePhaser
  simp

@[simp] theorem State.setLane_mem {d c dir l} : (s.setLane d c dir l).mem = s.mem := by fun_cases State.setLane <;> simp

@[simp] theorem State.fillBw_mem {d due} : (s.fillBw d due).mem = s.mem := by
  unfold State.fillBw
  simp

@[simp] theorem State.setNb_mem {d n} : (s.setNb d n).mem = s.mem := by fun_cases State.setNb <;> simp

@[simp] theorem State.nbNotify_mem {d n r} : (s.nbNotify d n r).mem = s.mem := by fun_cases State.nbNotify <;> simp

@[simp] theorem State.nbRun_mem {d n fuel} : (s.nbRun d n fuel).mem = s.mem := by fun_induction State.nbRun <;> simp [*]

@[simp] theorem State.nbFailed_mem {d m} : (s.nbFailed d m).mem = s.mem := by fun_cases State.nbFailed <;> simp

/-! ### Copy -/

@[simp] theorem State.pieceGroup_mem {k d c} : (s.pieceGroup k d c).2.mem = s.mem := by
  unfold State.pieceGroup
  dsimp only
  repeat' split
  all_goals simp

@[simp] theorem State.modCpy_mem {d c f} : (s.modCpy d c f).mem = s.mem := by fun_cases State.modCpy <;> simp

@[simp] theorem State.modRun_mem {d c f} : (s.modRun d c f).mem = s.mem := by fun_cases State.modRun <;> simp

@[simp] theorem State.stopRun_mem {d c code} : (s.stopRun d c code).mem = s.mem := by fun_cases State.stopRun <;> simp

@[simp] theorem State.copyFail_mem {d c hr code} : (s.copyFail d c hr code).mem = s.mem := by
  fun_cases State.copyFail <;> simp

@[simp] theorem State.offerPacket_mem {d c num k p parts bs} : (s.offerPacket d c num k p parts bs).mem = s.mem := by
  fun_cases State.offerPacket <;> simp

@[simp] theorem State.signalBy_mem {world v} : (s.signalBy world v).1.mem = s.mem := by
  fun_cases State.signalBy <;> simp

@[simp] theorem State.countAbort_mem {t} : (s.countAbort t).mem = s.mem := by fun_cases State.countAbort <;> simp

@[simp] theorem State.releaseEntries_mem {lid l sc k r} : (s.releaseEntries lid l sc k r).mem = s.mem := by
  induction k generalizing s r with
  | zero => rfl
  | succ k ih =>
    refine ih.trans ?_
    split
    · split
      · exact State.modCpy_mem
      · rfl
    · rfl

/-! ### Views -/

@[simp] theorem State.queueRefresh_mem {m r} : (s.queueRefresh m r).mem = s.mem := by
  fun_cases State.queueRefresh <;> simp

@[simp] theorem State.modView_mem {w num v f} : (s.modView w num v f).mem = s.mem := by fun_cases State.modView <;> simp

@[simp] theorem State.endSyncs_mem : s.endSyncs.mem = s.mem := by
  unfold State.endSyncs
  simp

@[simp] theorem State.failView_mem {w num k cause} : (s.failView w num k cause).mem = s.mem := by
  fun_cases State.failView <;> simp

@[simp] theorem State.viewGroup_mem {d mt v b k g} : (s.viewGroup d mt v b k g).2.mem = s.mem := by
  fun_cases State.viewGroup <;> simp

@[simp] theorem State.quantGroup_mem {q i} : (s.quantGroup q i).2.mem = s.mem := by
  unfold State.quantGroup
  dsimp only
  repeat' split
  all_goals simp

@[simp] theorem State.quantFail_mem {d hr code} : (s.quantFail d hr code).mem = s.mem := by
  fun_cases State.quantFail <;> simp

/-! ### Bulk -/

@[simp] theorem State.modPost_mem {d id f} : (s.modPost d id f).mem = s.mem := by fun_cases State.modPost <;> simp

@[simp] theorem State.modMatch_mem {d id f} : (s.modMatch d id f).mem = s.mem := by fun_cases State.modMatch <;> simp

@[simp] theorem State.modSend_mem {d id f} : (s.modSend d id f).mem = s.mem := by fun_cases State.modSend <;> simp

@[simp] theorem State.sendAcked_mem {d id got} : (s.sendAcked d id got).mem = s.mem := by
  unfold State.sendAcked
  repeat' split
  all_goals simp

@[simp] theorem State.sendAnswer_mem {d id a} : (s.sendAnswer d id a).mem = s.mem := by
  fun_cases State.sendAnswer <;> simp

@[simp] theorem State.answerSend_mem {pkg die id a} : (s.answerSend pkg die id a).mem = s.mem := by
  fun_cases State.answerSend <;> simp

@[simp] theorem State.finishPost_mem {d id} : (s.finishPost d id).mem = s.mem := by fun_cases State.finishPost <;> simp

@[simp] theorem State.wrote_mem {d id seq off len} : (s.wrote d id seq off len).mem = s.mem := by
  unfold State.wrote
  simp

@[simp] theorem State.offerBulk_mem {d id p seq off bs} : (s.offerBulk d id p seq off bs).mem = s.mem := by
  fun_cases State.offerBulk <;> simp

@[simp] theorem State.cancelPost_mem {d name} : (s.cancelPost d name).mem = s.mem := by
  unfold State.cancelPost
  dsimp only
  split <;> simp

@[simp] theorem State.forgetEnded_mem {w a} : (s.forgetEnded w a).mem = s.mem := by
  refine State.foldl_mem fun t p => ?_
  split <;> simp

@[simp] theorem State.bulkRecord_mem {w a} : (s.bulkRecord w a).2.mem = s.mem := by
  unfold State.bulkRecord
  repeat' split
  all_goals simp

/-! ### Fabric -/

@[simp] theorem State.wakeFor_mem {r q n} : (s.wakeFor r q n).mem = s.mem := by
  unfold State.wakeFor
  simp

@[simp] theorem State.unwaitFor_mem {r q} : (s.unwaitFor r q).mem = s.mem := by fun_cases State.unwaitFor <;> simp

@[simp] theorem State.messageFor_mem {r} : (s.messageFor r).mem = s.mem := by fun_cases State.messageFor <;> simp

@[simp] theorem State.noticeFor_mem {r n} : (s.noticeFor r n).mem = s.mem := by fun_cases State.noticeFor <;> simp

@[simp] theorem State.dropFlag_mem {k} : (s.dropFlag k).mem = s.mem := by fun_cases State.dropFlag <;> simp

@[simp] theorem State.failFlag_mem {r} : (s.failFlag r).mem = s.mem := by fun_cases State.failFlag <;> simp

@[simp] theorem State.unissue_mem {uid dest acq full} : (s.unissue uid dest acq full).mem = s.mem := by
  unfold State.unissue
  repeat' split
  all_goals simp

@[simp] theorem State.dropMonitor_mem {d k f} : (s.dropMonitor d k f).mem = s.mem := by
  unfold State.dropMonitor
  repeat' split
  all_goals simp

@[simp] theorem State.skipFor_mem {o} : (s.skipFor o).mem = s.mem := by fun_cases State.skipFor <;> simp

@[simp] theorem State.reqDone_mem {hr o v} : (s.reqDone hr o v).mem = s.mem := by
  unfold State.reqDone
  repeat' split
  all_goals simp

@[simp] theorem State.modOutst_mem {hr f} : (s.modOutst hr f).mem = s.mem := by fun_cases State.modOutst <;> simp

@[simp] theorem State.reqAdmitted_mem {hr o} : (s.reqAdmitted hr o).mem = s.mem := by
  fun_cases State.reqAdmitted <;> simp

@[simp] theorem State.raiseScore_mem {port lane n} : (s.raiseScore port lane n).mem = s.mem := by
  fun_cases State.raiseScore <;> simp

/-! ### Matrix -/

@[simp] theorem State.modMat_mem {d c f} : (s.modMat d c f).mem = s.mem := by fun_cases State.modMat <;> simp

@[simp] theorem State.matCharge_mem {uid n} : (s.matCharge uid n).mem = s.mem := by fun_cases State.matCharge <;> simp

@[simp] theorem State.rowGroup_mem {k d c jt w i} : (s.rowGroup k d c jt w i).2.mem = s.mem := by
  unfold State.rowGroup
  repeat' split
  all_goals simp

@[simp] theorem State.moveTile_mem {d c hr} : (s.moveTile d c hr).mem = s.mem := by fun_cases State.moveTile <;> simp

@[simp] theorem State.endRing_mem {k d c code} : (s.endRing k d c code).mem = s.mem := by
  fun_cases State.endRing <;> simp

/-! ### Tree -/

@[simp] theorem State.treeMap_mem {n sp t} : (s.treeMap n sp t).1.mem = s.mem := by fun_cases State.treeMap <;> simp

@[simp] theorem State.treeSpace_mem {sp g} : (s.treeSpace sp g).1.mem = s.mem := by fun_cases State.treeSpace <;> simp

/-! ### Fills -/

@[simp] theorem State.releaseMat_mem {uid} : (s.releaseMat uid).mem = s.mem := by fun_cases State.releaseMat <;> simp

@[simp] theorem State.evidence_mem {world req} : (s.evidence world req).2.mem = s.mem := by
  unfold State.evidence
  simp

@[simp] theorem State.takeFill_mem {uid k} : (s.takeFill uid k).mem = s.mem := by fun_cases State.takeFill <;> simp

/-! ### Preempt -/

@[simp] theorem State.modPre_mem {d cl r f} : (s.modPre d cl r f).mem = s.mem := by fun_cases State.modPre <;> simp

@[simp] theorem State.openWindow_mem {r key win deadline by_} : (s.openWindow r key win deadline by_).mem = s.mem := by
  fun_cases State.openWindow <;> simp

theorem State.openWindow_sameMem {r key win deadline by_} :
    State.SameMem s (s.openWindow r key win deadline by_) := State.openWindow_mem

@[simp] theorem State.requestPre_mem {r slices deadline by_} : (s.requestPre r slices deadline by_).mem = s.mem := by
  unfold State.requestPre
  exact State.foldl_sameMem fun t q => State.foldl_sameMem fun u k => State.openWindow_sameMem

@[simp] theorem State.eDrain_mem {d cl r} : (s.eDrain d cl r).2.mem = s.mem := by
  unfold State.eDrain
  repeat' split
  all_goals simp

@[simp] theorem State.choose_mem {d cl r remain} : (s.choose d cl r remain).2.mem = s.mem := by
  unfold State.choose
  dsimp only
  repeat' split
  all_goals simp

@[simp] theorem State.takeEngines_mem {d c r} : (s.takeEngines d c r).mem = s.mem := by
  unfold State.takeEngines
  simp

@[simp] theorem State.copyLines_mem {k} : (s.copyLines k).2.mem = s.mem := by
  unfold State.copyLines
  repeat' split
  all_goals simp

@[simp] theorem State.spend_mem {c} : (s.spend c).mem = s.mem := by fun_cases State.spend <;> simp

@[simp] theorem State.dropCommands_mem {uid d} : (s.dropCommands uid d).mem = s.mem := by
  unfold State.dropCommands
  simp

@[simp] theorem State.placeHeld_mem {us i} : (s.placeHeld us i).mem = s.mem := by
  induction us generalizing s i with
  | nil => rfl
  | cons u us ih =>
    refine ih.trans ?_
    split
    · rfl
    · split <;> simp

@[simp] theorem State.resumeScheds_mem {r} : (s.resumeScheds r).mem = s.mem := by
  exact State.foldl_mem fun t q => State.modCore_mem ..

@[simp] theorem State.restoreEngines_mem {uid d k} : (s.restoreEngines uid d k).mem = s.mem := by
  unfold State.restoreEngines
  simp

@[simp] theorem State.wakeEngines_mem {uid} : (s.wakeEngines uid).mem = s.mem := by fun_cases State.wakeEngines <;> simp

/-! ### Launching -/

@[simp] theorem State.startRecall_mem {slice deadline} : (s.startRecall slice deadline).mem = s.mem := by
  unfold State.startRecall
  split
  · rfl
  · split
    · rfl
    · exact State.foldl_sameMem fun t p => State.openWindow_sameMem

@[simp] theorem State.dropLaunch_mem {lid l} : (s.dropLaunch lid l).mem = s.mem := by
  fun_cases State.dropLaunch <;> simp

@[simp] theorem State.mayOpen_mem {hr} : (s.mayOpen hr).2.mem = s.mem := by
  unfold State.mayOpen
  split <;> rfl

/-! ### Placement -/

@[simp] theorem State.lentFits_mem {r key deadline core more cmd} :
    (s.lentFits r key deadline core more cmd).2.mem = s.mem := by
  unfold State.lentFits
  repeat' split
  all_goals simp

@[simp] theorem State.lentTakes_mem {d k uid c} : (s.lentTakes d k uid c).2.mem = s.mem := by
  fun_cases State.lentTakes <;> simp

@[simp] theorem State.startItem_mem {c} : (s.startItem c).mem = s.mem := by fun_cases State.startItem <;> simp

/-! ### Auto -/

@[simp] theorem State.turned_mem : s.turned.mem = s.mem := by fun_cases State.turned <;> simp

/-! ### Integer -/

@[simp] theorem State.launchField_mem {c f} : (s.launchField c f).2.mem = s.mem := by
  fun_cases State.launchField <;> simp

@[simp] theorem State.special_mem {c sp} : (s.special c sp).2.mem = s.mem := by fun_cases State.special <;> simp

/-! ### Partition -/

@[simp] theorem State.holdQueue_mem {slice} : (s.holdQueue slice).mem = s.mem := by fun_cases State.holdQueue <;> simp

/-! ### Power -/

@[simp] theorem State.bootOn_mem {hostLoad cxl deadPorts} : (s.bootOn hostLoad cxl deadPorts).mem = s.mem := by
  fun_cases State.bootOn <;> simp

/-! ### Spaces -/

@[simp] theorem State.treeStatus_mem {uid xs v} : (s.treeStatus uid xs v).mem = s.mem := by
  fun_cases State.treeStatus <;> simp

@[simp] theorem State.endMove_mem {k m} : (s.endMove k m).mem = s.mem := by fun_cases State.endMove <;> simp

@[simp] theorem State.bellDone_mem : s.bellDone.mem = s.mem := by fun_cases State.bellDone <;> simp

/-! ### Vector -/

@[simp] theorem State.giveResults_mem {uid dests rs seq} : (s.giveResults uid dests rs seq).mem = s.mem := by
  fun_cases State.giveResults <;> simp

@[simp] theorem State.vecJob_mem {uid d c j} : (s.vecJob uid d c j).1.mem = s.mem := by
  unfold State.vecJob
  repeat' split
  all_goals simp

@[simp] theorem State.vecGroup_mem {c src} : (s.vecGroup c src).2.mem = s.mem := by fun_cases State.vecGroup <;> simp

end Sys2Proof.Machine
end

section
/-! Every operation keeps the canonical form of memory (R157, R166), by the files of the model. -/

namespace Sys2Proof.Machine

variable {s : State} (h : s.mem.wf = true)
include h

/-! ### Memory -/

@[simp] theorem State.wf_setTags {a n t} : (s.setTags a n t).mem.wf = true := by
  refine State.wf_foldl _ _ h fun t i ht => ?_
  split
  · exact State.wf_setTag _ _ ht
  · exact ht

/-! ### Monitor -/

@[simp] theorem State.wf_write {w a bs} : (s.write w a bs).mem.wf = true := by
  fun_cases State.write <;> simp [State.wf_writeBytes, h]

@[simp] theorem State.wf_writeOver {w ps bs} : (s.writeOver w ps bs).mem.wf = true := by
  fun_induction State.writeOver <;> simp [*]

/-! ### Regs -/

theorem State.wf_writeBack {c n t} (ht : s.writeBack c n = .ok t) : t.mem.wf = true := by
  unfold State.writeBack at ht
  split at ht
  · exact nomatch ht
  · injection ht with ht
    exact ht ▸ State.wf_writeOver h

@[simp] theorem State.wf_writeBackAll {c ns} : (s.writeBackAll c ns).1.mem.wf = true := by
  induction ns generalizing s with
  | nil => exact h
  | cons n ns ih =>
    unfold State.writeBackAll
    split
    case h_1 t ht => exact ih (State.wf_writeBack h ht)
    case h_2 => exact ih h

@[simp] theorem State.wf_writeRecord {uid} : (s.writeRecord uid).1.mem.wf = true := by
  fun_cases State.writeRecord <;> simp [h]

/-! ### Work -/

@[simp] theorem State.wf_setField {w a hi lo v} : (s.setField w a hi lo v).mem.wf = true := by
  fun_cases State.setField <;> simp [h]

@[simp] theorem State.wf_applyKey {key} : (s.applyKey key).mem.wf = true := by
  unfold State.applyKey
  dsimp only
  split
  · have h3 := fun {w a v v' v''} => State.wf_setField (w := w) (a := a) (hi := 319) (lo := 256) (v := v'')
      (State.wf_setField (w := w) (a := a) (hi := 255) (lo := 192) (v := v')
        (State.wf_setField (w := w) (a := a) (hi := 191) (lo := 128) (v := v) h))
    split
    · exact State.wf_setField h3
    · exact h3
  · exact h

@[simp] theorem State.wf_applyCharge {account} : (s.applyCharge account).mem.wf = true := by
  fun_cases State.applyCharge <;> simp +contextual [State.wf_foldl, h]

@[simp] theorem State.wf_applyDue : s.applyDue.mem.wf = true := by
  fun_cases State.applyDue <;> simp +contextual [State.wf_foldl, h]

@[simp] theorem State.wf_settle {r} : (s.settle r).mem.wf = true := by fun_cases State.settle <;> simp [h]

@[simp] theorem State.wf_retestBudget {r} : (s.retestBudget r).mem.wf = true := by
  fun_cases State.retestBudget <;> simp [h]

/-! ### Pages -/

@[simp] theorem State.wf_setOwner {d c g region} : (s.setOwner d c g region).mem.wf = true := by
  unfold State.setOwner
  dsimp only
  repeat' split
  all_goals simp [State.wf_keepKeys, h]

@[simp] theorem State.wf_writePage {world a v full trusted} : (s.writePage world a v full trusted).mem.wf = true := by
  fun_cases State.writePage <;> simp [h]

@[simp] theorem State.wf_storePage {world a bs trusted} : (s.storePage world a bs trusted).mem.wf = true := by
  fun_cases State.storePage <;> simp [h]

@[simp] theorem State.wf_storePageAll {world a bs trusted n} :
    (s.storePageAll world a bs trusted n).mem.wf = true := by
  fun_induction State.storePageAll <;> simp [*]

/-! ### Perform -/

@[simp] theorem State.wf_editImages {a n} : (s.editImages a n).mem.wf = true := by
  refine State.wf_foldl _ _ h fun t p ht => ?_
  dsimp only
  split
  · exact ht
  · rw [State.modCtx_mem]
    refine State.wf_foldl _ _ ht fun u k hu => ?_
    split
    · split
      · exact State.wf_writeOver hu
      · exact hu
    · exact hu

@[simp] theorem State.wf_editDone {a n} : (s.editDone a n).mem.wf = true := by
  refine State.wf_foldl _ _ h fun t p ht => ?_
  split
  · rw [State.modCtx_mem]; exact ht
  · exact ht

@[simp] theorem State.wf_storePages {world a bs trusted} : (s.storePages world a bs trusted).mem.wf = true := by
  fun_cases State.storePages <;> simp [h]

@[simp] theorem State.wf_trackBlock {key m b} : (s.trackBlock key m b).mem.wf = true := by
  unfold State.trackBlock
  dsimp only
  repeat' split
  all_goals simp [h]

@[simp] theorem State.wf_track {a n} : (s.track a n).mem.wf = true := by
  exact State.wf_foldl _ _ h fun t p ht => State.wf_foldl _ _ ht fun u b hu => State.wf_trackBlock hu

@[simp] theorem State.wf_notePool {a n} : (s.notePool a n).mem.wf = true := by
  fun_cases State.notePool <;> simp +contextual [State.wf_dirtyPool, State.wf_foldl, h]

@[simp] theorem State.wf_storeAt {w a bs fe} : (s.storeAt w a bs fe).mem.wf = true := by
  have h1 : (((s.overtake w a bs.length).editImages a bs.length).notePool a bs.length).mem.wf = true := by simp [h]
  unfold State.storeAt
  dsimp only
  rw [State.endMonitors_mem]
  refine State.wf_editDone ?_
  rw [State.notePage_mem]
  refine State.wf_track ?_
  have h2 := State.wf_foldl (fun t x => t.setPoison x false) (wholeWords a bs.length)
    (State.wf_writeBytes w a (bs.zipIdx.map fun p =>
      (((s.overtake w a bs.length).editImages a bs.length).notePool a bs.length).keepRo w (a + p.2) p.1) h1)
    fun t x ht => State.wf_setPoison x false ht
  split
  · exact State.wf_foldl _ _ h2 fun t x ht => State.wf_setFull _ _ ht
  · exact h2

@[simp] theorem State.wf_poisonAt {w a n fe} : (s.poisonAt w a n fe).mem.wf = true := by
  unfold State.poisonAt
  dsimp only
  refine State.wf_editDone ?_
  rw [State.notePage_mem]
  refine State.wf_track ?_
  have h2 : ∀ {l : List Nat} {t : State}, t.mem.wf = true →
      (l.foldl (fun t x => t.setPoison x true) t).mem.wf = true :=
    fun ht => State.wf_foldl _ _ ht fun t x ht => State.wf_setPoison x true ht
  split
  · exact State.wf_foldl _ _ (h2 (by simp [h])) fun t x ht => State.wf_setFull _ _ ht
  · exact h2 (by simp [h])

@[simp] theorem State.wf_readSeg {w a n} : (s.readSeg w a n).1.mem.wf = true := by
  unfold State.readSeg
  repeat' split
  all_goals simp [State.wf_checkRead, h]

@[simp] theorem State.wf_takeLine {by_ world consume p} : (s.takeLine by_ world consume p).1.mem.wf = true := by
  unfold State.takeLine
  dsimp only
  have h1 := State.wf_readSeg (w := world) (a := p.1) (n := p.2)
    (s := s.l1Each [p] fun s l => s.l1Home by_ l consume) (by simp [h])
  split
  · exact State.wf_foldl _ _ h1 fun t x ht => State.wf_setFull _ _ ht
  · exact h1

@[simp] theorem State.wf_serveOne {w p} : (s.serveOne w p).1.mem.wf = true := by
  unfold State.serveOne
  dsimp only
  repeat' split
  all_goals simp [h]

@[simp] theorem State.wf_serveLoop {a n fuel} : (s.serveLoop a n fuel).mem.wf = true := by
  induction fuel generalizing s with
  | zero => exact h
  | succ fuel ih =>
    unfold State.serveLoop
    split
    · exact h
    · refine ih ?_
      dsimp only
      split
      · exact State.wf_serveOne h
      · exact State.wf_serveOne h

@[simp] theorem State.wf_serve {a n} : (s.serve a n).mem.wf = true := by fun_cases State.serve <;> simp [h]

@[simp] theorem State.wf_store {w a bs fe} : (s.store w a bs fe).mem.wf = true := by fun_cases State.store <;> simp [h]

@[simp] theorem State.wf_storeFe {a full} : (s.storeFe a full).mem.wf = true := by
  fun_cases State.storeFe <;> simp [State.wf_setFull, h]

@[simp] theorem State.wf_storeParts {w ps bs fe} : (s.storeParts w ps bs fe).mem.wf = true := by
  fun_induction State.storeParts <;> simp [*]

@[simp] theorem State.wf_atomicAt {world a op w64 b} : (s.atomicAt world a op w64 b).1.mem.wf = true := by
  unfold State.atomicAt
  dsimp only
  repeat' split
  all_goals simp [State.wf_checkRead, h]

@[simp] theorem State.wf_readAny {world a n} : (s.readAny world a n).1.mem.wf = true := by
  unfold State.readAny
  repeat' split
  all_goals simp [h]

@[simp] theorem State.wf_writeAnyBy {todo d rlim world a bs fe} :
    (s.writeAnyBy todo d rlim world a bs fe).mem.wf = true := by
  fun_cases State.writeAnyBy <;> simp [h]

@[simp] theorem State.wf_writeAny {d world a bs fe} : (s.writeAny d world a bs fe).mem.wf = true := by
  fun_cases State.writeAny <;> simp [h]

@[simp] theorem State.wf_sink {k v} : (s.sink k v).mem.wf = true := by fun_cases State.sink <;> simp [h]

/-! ### Withdraw -/

@[simp] theorem State.wf_endTask {t v} : (s.endTask t v).mem.wf = true := by
  unfold State.endTask
  dsimp only
  repeat' split
  all_goals simp [h]

@[simp] theorem State.wf_cancelWait {w} : (s.cancelWait w).mem.wf = true := by fun_cases State.cancelWait <;> simp [h]

@[simp] theorem State.wf_cancelWaits {ids} : (s.cancelWaits ids).mem.wf = true := by
  fun_cases State.cancelWaits <;> simp +contextual [State.wf_foldl, h]

@[simp] theorem State.wf_cutNodes {ids} : (s.cutNodes ids).mem.wf = true := by
  unfold State.cutNodes
  simp [h]

@[simp] theorem State.wf_startWalk {ids k retire} : (s.startWalk ids k retire).mem.wf = true := by
  unfold State.startWalk
  simp [h]

/-! ### Teardown -/

@[simp] theorem State.wf_retireRecords {uids} : (s.retireRecords uids).mem.wf = true := by
  fun_cases State.retireRecords <;> simp +contextual [State.wf_foldl, h]

@[simp] theorem State.wf_stopWorld {w kind cause} : (s.stopWorld w kind cause).mem.wf = true := by
  unfold State.stopWorld
  repeat' split
  all_goals simp [h]

@[simp] theorem State.wf_retireSpaces {w} : (s.retireSpaces w).mem.wf = true := by
  fun_cases State.retireSpaces <;> simp +contextual [State.wf_foldl, h]

/-! ### Ops -/

@[simp] theorem State.wf_vacate {uid} : (s.vacate uid).mem.wf = true := by
  unfold State.vacate
  repeat' split
  all_goals simp [h]

@[simp] theorem State.wf_saveLines {c} : (s.saveLines c).1.mem.wf = true := by
  have h1 := State.wf_writeBackAll h (c := c) (ns := c.dirtyLines.filter (· != 72))
  fun_cases State.saveLines
  case case4 ht => exact State.wf_writeBack h1 ht
  all_goals exact h1

@[simp] theorem State.wf_faultNow {uid cause addr} : (s.faultNow uid cause addr).1.mem.wf = true := by
  unfold State.faultNow
  split
  · exact h
  · dsimp only
    split
    · simp [h]
    · simp [State.wf_writeBack h ‹_›]

@[simp] theorem State.wf_changed {uid slot} : (s.changed uid slot).mem.wf = true := by
  have hr := fun c => State.wf_writeRecord (s := s.settle c) (uid := uid) (by simp [h])
  unfold State.changed
  split
  · exact h
  case h_2 c hc =>
    have hq : ∀ q : State × Bool, q.1.mem.wf = true →
        (if q.2 then match q.1.ctx? uid with
          | some k => if k.state == CxState.faulted then q.1.sendFault k slot k.cxid else q.1
          | none => q.1
        else q.1.stopWorld c.world .controlLine c.cause.toNat).mem.wf = true := fun q hq => by
      split
      · split
        · split <;> simp [hq]
        · exact hq
      · simp [hq]
    refine hq _ ?_
    split
    · exact hr _
    · split
      · exact hr _
      · exact State.wf_faultNow (hr _)

@[simp] theorem State.wf_leaveSaved {uid} : (s.leaveSaved uid).mem.wf = true := by
  unfold State.leaveSaved
  split
  · exact h
  · dsimp only
    split
    · simp [h]
    · have h1 := fun c => State.wf_saveLines (c := c) (s := s.vacate uid) (by simp [h])
      split <;> simp [h1]

@[simp] theorem State.wf_leaveReady {uid} : (s.leaveReady uid).mem.wf = true := by
  unfold State.leaveReady
  repeat' split
  all_goals simp [h]

@[simp] theorem State.wf_endContext {uid} : (s.endContext uid).mem.wf = true := by
  unfold State.endContext
  simp [h]

@[simp] theorem State.wf_convert {uid} : (s.convert uid).all (·.mem.wf) = true := by
  fun_cases State.convert <;> simp [h]

@[simp] theorem State.wf_poisonOver {d rlim world ps fe} : (s.poisonOver d rlim world ps fe).mem.wf = true := by
  refine State.wf_foldl _ _ h fun t q ht => ?_
  dsimp only
  split
  · split
    · exact ht
    · simp [ht]
  · simp [ht]

@[simp] theorem State.wf_landingFault {c l} : (s.landingFault c l).mem.wf = true := by
  unfold State.landingFault
  split
  · split
    · exact h
    · dsimp only
      split
      · exact h
      · rw [State.modCore_mem]
        refine State.wf_foldl _ _ h fun t q ht => ?_
        split
        · exact State.wf_poisonOver ht
        · exact ht
  · dsimp only
    rw [State.endPost_mem]
    refine State.wf_foldl _ _ h fun t q ht => ?_
    split
    · exact State.wf_poisonOver ht
    · exact ht

@[simp] theorem State.wf_takeFault {uid op cause addr tpc} : (s.takeFault uid op cause addr tpc).mem.wf = true := by
  have hended : ∀ {t : State} {slot : Nat}, t.mem.wf = true →
      ((match t.ctx? uid with
        | some c => t.sendFault c slot 0
        | none => t).endContext uid).mem.wf = true := fun ht => by
    refine State.wf_endContext ?_
    split <;> simp [ht]
  fun_cases State.takeFault
  case case1 => exact h
  case case2 => exact State.wf_stopWorld h
  case case3 => exact hended (State.wf_landingFault (by simp +zetaDelta [h]))
  case case4 ht =>
    have hc := State.wf_of_all (State.wf_convert (by simp +zetaDelta [h])) ht
    exact State.wf_leaveSaved (by simp [hc])
  case case5 => exact hended (by simp +zetaDelta [h])
  case case6 => exact State.wf_leaveSaved (by simp +zetaDelta [h])

@[simp] theorem State.wf_returnFrom {uid} : (s.returnFrom uid).mem.wf = true := by
  unfold State.returnFrom
  dsimp only
  repeat' split
  all_goals simp [h]

@[simp] theorem wf_issue {op ctl priv rd wr body}
    (hbody : ∀ uid c t, t.mem.wf = true → (body uid c t).formed = true) :
    Out.formed (issue op ctl priv rd wr s body) = true := by
  unfold issue
  split
  · rfl
  case h_2 c hc =>
    have hb := hbody s.issuing c (s.movedOn s.issuing) (by simp [h])
    dsimp only
    split
    · simp [h]
    split
    · simp [h]
    split
    · simp [h]
    split
    · simp [h]
    split
    · simp [h]
    split
    · simp [h]
    split
    · simp [h]
    split
    · simp [h]
    generalize body s.issuing c (s.movedOn s.issuing) = r at hb
    cases r <;> simp_all

/-! ### Operands -/

@[simp] theorem State.wf_goto {uid c t} : (s.goto uid c t).formed = true := by fun_cases State.goto <;> simp [h]

@[simp] theorem State.wf_refuseAfter {uid c rlim word} : (s.refuseAfter uid c rlim word).formed = true := by
  fun_cases State.refuseAfter <;> simp [h]

@[simp] theorem State.wf_refuse {uid c word} : (s.refuse uid c word).formed = true := by
  fun_cases State.refuse <;> simp [h]

@[simp] theorem State.wf_throughMove {uid c acc} {go : State → Res}
    (hgo : ∀ t : State, t.mem.wf = true → (go t).formed = true) : (s.throughMove uid c acc go).formed = true := by
  unfold State.throughMove
  split
  · exact hgo _ (by simp [h])
  · split
    · rfl
    · split <;> simp [h]

@[simp] theorem State.wf_readParts {world ps} : (s.readParts world ps).1.mem.wf = true := by
  induction ps generalizing s with
  | nil => exact h
  | cons p ps ih => exact ih (State.wf_readSeg h)

@[simp] theorem State.wf_loadBytes {d c loc acc job} : (s.loadBytes d c loc acc job).1.mem.wf = true := by
  unfold State.loadBytes
  repeat' split
  all_goals simp [h]

theorem State.wf_readWord {c loc acc t bs fl pois} (ht : s.readWord c loc acc = some (t, bs, fl, pois)) :
    t.mem.wf = true := by
  unfold State.readWord at ht
  dsimp only at ht
  split at ht
  · exact nomatch ht
  · split at ht
    · exact nomatch ht
    · cases ht
      exact h
    · split at ht <;> cases ht <;> simp [h]

@[simp] theorem State.wf_readWords {uid c loc acc k i got} : (s.readWords uid c loc acc k i got).formed = true := by
  induction k generalizing s i got with
  | zero => exact h
  | succ k ih =>
    unfold State.readWords
    split
    · rfl
    · split
      · rfl
      · exact ih (by simp [State.wf_readWord h ‹_›])

@[simp] theorem State.wf_blockThrough {uid c acc} {go : State → Block}
    (hgo : ∀ t : State, t.mem.wf = true → (go t).formed = true) : (s.blockThrough uid c acc go).formed = true := by
  unfold State.blockThrough
  split
  · exact hgo _ (by simp [h])
  · split
    · rfl
    · split
      · simp [h]
      · have hr := State.wf_refuse h (uid := uid) (c := c) (word := acc.va)
        split <;> simp_all

@[simp] theorem State.wf_readBlock {uid c loc m n} : (s.readBlock uid c loc m n).formed = true := by
  unfold State.readBlock
  repeat' split
  all_goals simp +contextual [h]

/-! ### Issue -/

@[simp] theorem State.wf_ejectExhausted {d c} : (s.ejectExhausted d c).mem.wf = true := by
  refine State.wf_foldl _ _ h fun t p ht => ?_
  split
  · dsimp only
    split
    · split
      · split <;> simp [ht]
      · simp [ht]
    · exact ht
  · exact ht

@[simp] theorem wf_execIssueCycle {d c} : Out.formed (execIssueCycle d c s) = true := by
  fun_cases execIssueCycle <;> simp +zetaDelta [h]

/-! ### Fetch -/

@[simp] theorem State.wf_loadBlock {d c key a world again} : (s.loadBlock d c key a world again).mem.wf = true := by
  unfold State.loadBlock
  simp [State.wf_checkRead, h]

@[simp] theorem State.wf_takeBlock {d c key slot blk} : (s.takeBlock d c key slot blk).formed = true := by
  fun_cases State.takeBlock <;> simp [h]

@[simp] theorem State.wf_fetch {x} : (s.fetch x).formed = true := by
  unfold State.fetch
  dsimp only
  repeat' split
  all_goals simp [h]

@[simp] theorem wf_execBlockRefetch {d c} : Out.formed (execBlockRefetch d c s) = true := by
  unfold execBlockRefetch
  repeat' split
  all_goals simp [h]

@[simp] theorem State.wf_prepare : s.prepare.formed = true := by
  unfold State.prepare
  split
  · exact h
  case h_2 c hc =>
    split
    · simp [h]
    · have hf := State.wf_fetch h (x := c)
      generalize s.fetch c = r at hf
      cases r with
      | fault t op cause addr => simp_all
      | wait t => simp_all
      | word t w e bs =>
        dsimp only
        split <;> simp_all

/-! ### Lines -/

@[simp] theorem State.wf_keepLine {c n} : (s.keepLine c n).1.mem.wf = true := by
  unfold State.keepLine
  split
  · exact h
  · split
    · exact h
    · split
      · exact State.wf_writeBack h ‹_›
      · exact h

@[simp] theorem State.wf_landIn {uid ns f} : (s.landIn uid ns f).mem.wf = true := by
  unfold State.landIn
  split
  · exact h
  · split
    · simp [h]
    · dsimp only
      rw [State.setCtx_mem]
      exact State.wf_foldl_fst h fun p n hp => State.wf_keepLine hp

@[simp] theorem State.wf_evictFailed {uid c n cause} : (s.evictFailed uid c n cause).mem.wf = true := by
  unfold State.evictFailed
  dsimp only
  repeat' split
  all_goals simp [h]

@[simp] theorem State.wf_evictLine {uid n} : (s.evictLine uid n).mem.wf = true := by
  unfold State.evictLine
  split
  · exact h
  · split
    · exact h
    · split
      · simp [h]
      · split
        · simp [State.wf_writeBack h ‹_›]
        · simp [h]

@[simp] theorem State.wf_lineRoom {d c} : (s.lineRoom d c).all (·.mem.wf) = true := by
  fun_cases State.lineRoom <;> simp [h]

@[simp] theorem State.wf_linesRoom {d c n} : (s.linesRoom d c n).all (·.mem.wf) = true := by
  induction n with
  | zero => exact h
  | succ n ih =>
    unfold State.linesRoom
    split
    · rfl
    · have ht := State.wf_of_all ih ‹_›
      split
      · exact ht
      · split
        · exact State.wf_evictLine ht
        · rfl

/-! ### Environ -/

@[simp] theorem State.wf_tick {d n} : (s.tick d n).mem.wf = true := by fun_cases State.tick <;> simp +zetaDelta [h]

@[simp] theorem State.wf_dropPool {line} : (s.dropPool line).mem.wf = true := by
  fun_cases State.dropPool <;> simp [State.wf_discardPool, h]

@[simp] theorem State.wf_staleRoom {line} : (s.staleRoom line).mem.wf = true := by
  fun_cases State.staleRoom <;> simp [h]

@[simp] theorem State.wf_deviceStore {a bs} : (s.deviceStore a bs).mem.wf = true := by
  fun_cases State.deviceStore <;> simp [State.wf_writeLine, h]

@[simp] theorem State.wf_deviceStores {a bs n} : (s.deviceStores a bs n).mem.wf = true := by
  fun_induction State.deviceStores <;> simp [*]

@[simp] theorem State.wf_outside {a data} : (s.outside a data).mem.wf = true := by fun_cases State.outside <;> simp [h]

@[simp] theorem State.wf_hostWrite {a data fe} : (s.hostWrite a data fe).mem.wf = true := by
  fun_cases State.hostWrite <;> simp [h]

@[simp] theorem State.wf_hostTag {a n tag} : (s.hostTag a n tag).mem.wf = true := by
  fun_cases State.hostTag <;> simp [h]

@[simp] theorem State.wf_lineParity {uid line} : (s.lineParity uid line).mem.wf = true := by
  fun_cases State.lineParity <;> simp [h]

@[simp] theorem State.wf_environ {a} : (s.environ a).mem.wf = true := by
  fun_cases State.environ <;> simp [State.wf_poisonLine, h]

/-! ### LoadStore -/

@[simp] theorem State.wf_loadNow {d c loc dest acc job acq} : (s.loadNow d c loc dest acc job acq).1.mem.wf = true := by
  unfold State.loadNow
  simp [h]

@[simp] theorem State.wf_loadPlain {uid c ctl dest acc acq} : (s.loadPlain uid c ctl dest acc acq).formed = true := by
  unfold State.loadPlain
  split
  · rfl
  · split
    · rfl
    · simp [h]
    · refine State.wf_throughMove h fun t ht => ?_
      dsimp only
      repeat' split
      all_goals simp [ht]

@[simp] theorem State.wf_serveFresh {w n} : (s.serveFresh w n).1.mem.wf = true := by
  induction n generalizing s w with
  | zero => exact h
  | succ n ih =>
    unfold State.serveFresh
    split
    · exact h
    · have h1 := State.wf_serveOne h (w := w) (p := ‹_›)
      dsimp only
      split
      · exact h1
      · exact ih h1

@[simp] theorem State.wf_arriveWaiter {w parts} : (s.arriveWaiter w parts).mem.wf = true := by
  unfold State.arriveWaiter
  dsimp only
  repeat' split
  all_goals simp +contextual [State.wf_foldl, h]

@[simp] theorem State.wf_loadWait {uid c dest acc consume} : (s.loadWait uid c dest acc consume).formed = true := by
  unfold State.loadWait
  dsimp only
  repeat' split
  all_goals simp [h]

@[simp] theorem State.wf_loadSync {uid c ctl dest acc consume} :
    (s.loadSync uid c ctl dest acc consume).formed = true := by
  unfold State.loadSync
  repeat' split
  all_goals simp +contextual [h]

@[simp] theorem wf_loadOp {op ctl n mode dest m} : Out.formed (loadOp op ctl n mode dest m s) = true := by
  refine wf_issue h fun uid c t ht => ?_
  split <;> simp [ht]

@[simp] theorem wf_execLd {ctl sz mode d m} : Out.formed (execLd ctl sz mode d m s) = true := by
  fun_cases execLd <;> simp [h]

@[simp] theorem wf_execLdv {ctl mode d m} : Out.formed (execLdv ctl mode d m s) = true := by
  fun_cases execLdv <;> simp [h]

@[simp] theorem State.wf_storeBytes {uid c ctl acc mode bs src} :
    (s.storeBytes uid c ctl acc mode bs src).formed = true := by
  fun_cases State.storeBytes <;> simp [h]

@[simp] theorem wf_execSt {ctl sz mode m a} : Out.formed (execSt ctl sz mode m a s) = true := by
  exact wf_issue h fun uid c t ht => by simp [ht]

@[simp] theorem wf_execStv {ctl mode m a} : Out.formed (execStv ctl mode m a s) = true := by
  exact wf_issue h fun uid c t ht => by simp [ht]

@[simp] theorem wf_execFeset {ctl full m} : Out.formed (execFeset ctl full m s) = true := by
  refine wf_issue h fun uid c t ht => ?_
  refine wf_orTrap fun x => ?_
  repeat' split
  all_goals simp [ht]

@[simp] theorem wf_execFeget {ctl d m} : Out.formed (execFeget ctl d m s) = true := by
  refine wf_issue h fun uid c t ht => wf_orTrap fun acc => ?_
  split
  · rfl
  · refine State.wf_throughMove ht fun t ht => ?_
    dsimp only
    repeat' split
    all_goals simp [ht]

@[simp] theorem wf_execPref {ctl own m} : Out.formed (execPref ctl own m s) = true := by
  refine wf_issue h fun uid c t ht => ?_
  repeat' split
  all_goals simp [ht]

@[simp] theorem wf_lineOp {op ctl m e} : Out.formed (lineOp op ctl m e s) = true := by
  refine wf_issue h fun uid c t ht => ?_
  split
  · exact ht
  · refine wf_orTrap fun acc => ?_
    split <;> simp [ht]

@[simp] theorem wf_execWbl {ctl m} : Out.formed (execWbl ctl m s) = true := by fun_cases execWbl <;> simp [h]

@[simp] theorem wf_execInvl {ctl icache m} : Out.formed (execInvl ctl icache m s) = true := by
  unfold execInvl
  repeat' split
  all_goals simp +contextual [h]

@[simp] theorem wf_execFence {ctl scope sc d} : Out.formed (execFence ctl scope sc d s) = true := by
  fun_cases execFence <;> simp [h]

/-! ### Buffer -/

@[simp] theorem State.wf_storeHere {uid c e acc job mode data} :
    (s.storeHere uid c e acc job mode data).mem.wf = true := by
  unfold State.storeHere
  dsimp only
  repeat' split
  all_goals simp [h]

@[simp] theorem State.wf_refuseEntry {uid c k rlim word} : (s.refuseEntry uid c k rlim word).mem.wf = true := by
  have hr := State.wf_refuseAfter h (uid := uid) (c := c) (rlim := rlim) (word := word)
  unfold State.refuseEntry
  split
  · simp_all
  · simp [h]

@[simp] theorem State.wf_storeWait {uid c k rlim acc data} : (s.storeWait uid c k rlim acc data).mem.wf = true := by
  unfold State.storeWait
  dsimp only
  repeat' split
  all_goals simp [h]

@[simp] theorem State.wf_failSync {uid c op cause va} : (s.failSync uid c op cause va).mem.wf = true := by
  fun_cases State.failSync <;> simp [h]

@[simp] theorem State.wf_storeEntryHere {uid c k e acc job mode data} :
    (s.storeEntryHere uid c k e acc job mode data).mem.wf = true := by
  fun_cases State.storeEntryHere <;> simp [h]

@[simp] theorem State.wf_storeRemote {uid c k e p off sync op} :
    (s.storeRemote uid c k e p off sync op).mem.wf = true := by
  fun_cases State.storeRemote <;> simp [h]

@[simp] theorem State.wf_drainStore {uid c k e mode data remote} :
    (s.drainStore uid c k e mode data remote).mem.wf = true := by
  fun_cases State.drainStore <;> simp [h]

@[simp] theorem State.wf_fesetAt {d c a full} : (s.fesetAt d c a full).mem.wf = true := by
  fun_cases State.fesetAt <;> simp [h]

@[simp] theorem State.wf_drainFeset {uid c k e full} : (s.drainFeset uid c k e full).mem.wf = true := by
  fun_cases State.drainFeset <;> simp [h]

@[simp] theorem State.wf_drainRed {uid c k e op w64 data} : (s.drainRed uid c k e op w64 data).mem.wf = true := by
  unfold State.drainRed
  dsimp only
  repeat' split
  all_goals simp [h]

@[simp] theorem State.wf_drainEntry {uid c k e} : (s.drainEntry uid c k e).mem.wf = true := by
  fun_cases State.drainEntry <;> simp [h]

@[simp] theorem wf_execStoreBufferDrain {uid k} : Out.formed (execStoreBufferDrain uid k s) = true := by
  fun_cases execStoreBufferDrain <;> simp [h]

/-! ### Messages -/

@[simp] theorem State.wf_sendMsg {uid c xs dst payload line hpc} :
    (s.sendMsg uid c xs dst payload line hpc).formed = true := by
  fun_cases State.sendMsg <;> simp [h]

@[simp] theorem State.wf_sendWith {uid c loc xs dst p hpc} : (s.sendWith uid c loc xs dst p hpc).formed = true := by
  unfold State.sendWith
  split
  · simp [h]
  · exact wf_into (State.wf_readBlock h) fun t bs ht => State.wf_sendMsg ht

@[simp] theorem wf_execSend {ctl xs dst p} : Out.formed (execSend ctl xs dst p s) = true := by
  exact wf_issue h fun uid c t ht => by simp [ht]

@[simp] theorem wf_execSendh {ctl xs dst p} : Out.formed (execSendh ctl xs dst p s) = true := by
  exact wf_issue h fun uid c t ht => by simp [ht]

@[simp] theorem wf_execChmask {ctl unmask ch} : Out.formed (execChmask ctl unmask ch s) = true := by
  refine wf_issue h fun uid c t ht => ?_
  dsimp only
  repeat' split
  all_goals simp [ht]

@[simp] theorem wf_execChpri {ctl ch pri} : Out.formed (execChpri ctl ch pri s) = true := by
  fun_cases execChpri <;> simp [h]

@[simp] theorem State.wf_testDep {r i} : (s.testDep r i).mem.wf = true := by
  unfold State.testDep
  dsimp only
  repeat' split
  all_goals simp [h]

@[simp] theorem State.wf_addTask {uid c xs t} : (s.addTask uid c xs t).mem.wf = true := by
  unfold State.addTask
  dsimp only
  repeat' split
  all_goals simp +contextual [State.wf_foldl, h]

@[simp] theorem wf_execTask {ctl xs m} : Out.formed (execTask ctl xs m s) = true := by
  refine wf_issue h fun uid c t ht => wf_into (State.wf_readBlock ht) fun t bs ht => ?_
  repeat' split
  all_goals simp [ht]

@[simp] theorem wf_execLaunch {ctl xs m} : Out.formed (execLaunch ctl xs m s) = true := by
  refine wf_issue h fun uid c t ht => ?_
  dsimp only
  repeat' split
  all_goals simp [ht]

@[simp] theorem State.wf_taskRefused {m} : (s.taskRefused m).mem.wf = true := by
  fun_cases State.taskRefused <;> simp [h]

@[simp] theorem State.wf_refuseMsg {m code} : (s.refuseMsg m code).mem.wf = true := by
  fun_cases State.refuseMsg <;> simp [h]

@[simp] theorem wf_execMessageArrival {k} : Out.formed (execMessageArrival k s) = true := by
  fun_cases execMessageArrival <;> simp [h]

@[simp] theorem wf_execMessageTimeout {k} : Out.formed (execMessageTimeout k s) = true := by
  fun_cases execMessageTimeout <;> simp [h]

@[simp] theorem wf_execRemoteMessageStatus {seq status} : Out.formed (execRemoteMessageStatus seq status s) = true := by
  unfold execRemoteMessageStatus
  repeat' split
  all_goals simp [h]

@[simp] theorem wf_execHandlerStart {d c} : Out.formed (execHandlerStart d c s) = true := by
  unfold execHandlerStart
  split
  · simp [State.wf_of_all (State.wf_linesRoom h) ‹_›]
  · exact h

@[simp] theorem wf_execFaultHandlerStart {d c} : Out.formed (execFaultHandlerStart d c s) = true := by
  unfold execFaultHandlerStart
  split
  · exact h
  · split
    · exact h
    · exact h
    · have ht := State.wf_of_all (State.wf_linesRoom h) ‹_›
      dsimp only
      split <;> simp [ht]

@[simp] theorem wf_execHandlerBudget {uid} : Out.formed (execHandlerBudget uid s) = true := by
  fun_cases execHandlerBudget <;> simp [h]

@[simp] theorem wf_execLandingPacketOffer {d c} : Out.formed (execLandingPacketOffer d c s) = true := by
  unfold execLandingPacketOffer
  dsimp only
  split
  · exact h
  · split
    · exact h
    · split
      · split
        · exact h
        · simp [State.wf_of_all (State.wf_linesRoom h) ‹_›]
      · simp [h]

/-! ### Control -/

@[simp] theorem wf_execNop {ctl} : Out.formed (execNop ctl s) = true := by
  exact wf_issue h fun uid c t ht => by simp [ht]

@[simp] theorem wf_execBra {ctl imm} : Out.formed (execBra ctl imm s) = true := by
  exact wf_issue h fun uid c t ht => by simp [ht]

@[simp] theorem wf_execBri {ctl t} : Out.formed (execBri ctl t s) = true := by
  exact wf_issue h fun uid c t ht => by simp [ht]

@[simp] theorem wf_execCall {ctl l t} : Out.formed (execCall ctl l t s) = true := by
  refine wf_issue h fun uid c t ht => ?_
  split <;> simp [ht]

@[simp] theorem wf_execRet {ctl t} : Out.formed (execRet ctl t s) = true := by
  exact wf_issue h fun uid c t ht => by simp [ht]

@[simp] theorem wf_execLoop {ctl xc imm} : Out.formed (execLoop ctl xc imm s) = true := by
  refine wf_issue h fun uid c t ht => ?_
  dsimp only
  repeat' split
  all_goals simp [ht]

@[simp] theorem wf_execBrf {ctl full r imm} : Out.formed (execBrf ctl full r imm s) = true := by
  refine wf_issue h fun uid c t ht => ?_
  split <;> simp [ht]

@[simp] theorem State.wf_suspendFor {uid w} : (s.suspendFor uid w).mem.wf = true := by
  fun_cases State.suspendFor <;> simp [h]

@[simp] theorem State.wf_yieldSlot {uid} : (s.yieldSlot uid).mem.wf = true := by
  unfold State.yieldSlot
  dsimp only
  repeat' split
  all_goals simp [h]

@[simp] theorem State.wf_recordHere {uid op} : (s.recordHere uid op).mem.wf = true := by
  unfold State.recordHere
  dsimp only
  repeat' split
  all_goals simp [h]

@[simp] theorem State.wf_suspendable {uid c} : (s.suspendable uid c).all (·.mem.wf) = true := by
  fun_cases State.suspendable <;> simp [h]

@[simp] theorem State.wf_waitWord {uid acc word} : (s.waitWord uid acc word).mem.wf = true := by
  unfold State.waitWord
  dsimp only
  repeat' split
  all_goals simp [h]

@[simp] theorem State.wf_suspendWord {uid c xs acc a} : (s.suspendWord uid c xs acc a).formed = true := by
  unfold State.suspendWord
  dsimp only
  split
  · rfl
  · split
    · rfl
    · refine State.wf_throughMove h fun t ht => ?_
      split
      · simp [ht]
      · have hu := State.wf_of_all (State.wf_suspendable (s := t.l1Home _ _ _) (by simp [ht])) ‹_›
        repeat' split
        all_goals simp [ht, hu]

@[simp] theorem State.wf_suspendRemote {uid c xs acc a} : (s.suspendRemote uid c xs acc a).formed = true := by
  unfold State.suspendRemote
  split
  · simp [h]
  · have ht := State.wf_of_all (State.wf_suspendable h) ‹_›
    dsimp only
    split
    · split <;> simp [ht]
    · simp [ht]

@[simp] theorem State.wf_suspendOn {uid c xs m} : (s.suspendOn uid c xs m).formed = true := by
  unfold State.suspendOn
  split
  · simp [h]
  · refine wf_orTrap fun acc => ?_
    dsimp only
    split
    · split
      · split <;> simp [h]
      · split
        · rfl
        · exact State.wf_suspendRemote h
    · exact State.wf_suspendWord h

@[simp] theorem wf_execSuspend {ctl xs m} : Out.formed (execSuspend ctl xs m s) = true := by
  refine wf_issue h fun uid c t ht => ?_
  split
  · exact State.wf_suspendOn ht
  · split
    · simp [ht]
    · simp [State.wf_of_all (State.wf_suspendable ht) ‹_›]

@[simp] theorem State.wf_yieldHeld {uid c} : (s.yieldHeld uid c).mem.wf = true := by
  unfold State.yieldHeld
  dsimp only
  repeat' split
  all_goals simp [h]

@[simp] theorem wf_execYield {ctl} : Out.formed (execYield ctl s) = true := by
  refine wf_issue h fun uid c t ht => ?_
  repeat' split
  all_goals simp [ht]

@[simp] theorem wf_execWaitr {ctl r} : Out.formed (execWaitr ctl r s) = true := by
  refine wf_issue h fun uid c t ht => ?_
  split
  · exact ht
  · split
    · split
      · rfl
      · split
        · simp [State.wf_of_all (State.wf_convert ht) ‹_›]
        · rfl
    · simp [ht]

@[simp] theorem State.wf_spawned {uid c xs pc img} : (s.spawned uid c xs pc img).mem.wf = true := by
  unfold State.spawned
  dsimp only
  repeat' split
  all_goals simp [h]

@[simp] theorem wf_execSpawn {ctl xs t ximg} : Out.formed (execSpawn ctl xs t ximg s) = true := by
  refine wf_issue h fun uid c t ht => ?_
  dsimp only
  repeat' split
  all_goals simp [ht]

@[simp] theorem wf_execTrap {ctl n} : Out.formed (execTrap ctl n s) = true := by
  exact wf_issue h fun uid c t _ => by simp

@[simp] theorem wf_execTfence {ctl mask} : Out.formed (execTfence ctl mask s) = true := by
  refine wf_issue h fun uid c t ht => ?_
  repeat' split
  all_goals simp [ht]

@[simp] theorem wf_execTret {ctl xs xid} : Out.formed (execTret ctl xs xid s) = true := by
  refine wf_issue h fun uid c t ht => ?_
  repeat' split
  all_goals simp [ht]

/-! ### Atomics -/

@[simp] theorem State.wf_atomicOp {uid c ctl dest acc op w64 b} :
    (s.atomicOp uid c ctl dest acc op w64 b).formed = true := by
  unfold State.atomicOp
  split
  · rfl
  · refine State.wf_throughMove h fun t ht => ?_
    dsimp only
    repeat' split
    all_goals simp [ht]

@[simp] theorem wf_atomInstr {op ctl w d extra m b f} : Out.formed (atomInstr op ctl w d extra m b f s) = true := by
  exact wf_issue h fun uid c t ht => by simp [ht]

@[simp] theorem wf_execAadd {ctl w d m b} : Out.formed (execAadd ctl w d m b s) = true := by
  fun_cases execAadd <;> simp [h]

@[simp] theorem wf_execAand {ctl w d m b} : Out.formed (execAand ctl w d m b s) = true := by
  fun_cases execAand <;> simp [h]

@[simp] theorem wf_execAor {ctl w d m b} : Out.formed (execAor ctl w d m b s) = true := by
  fun_cases execAor <;> simp [h]

@[simp] theorem wf_execAxor {ctl w d m b} : Out.formed (execAxor ctl w d m b s) = true := by
  fun_cases execAxor <;> simp [h]

@[simp] theorem wf_execAmin {ctl w u d m b} : Out.formed (execAmin ctl w u d m b s) = true := by
  fun_cases execAmin <;> simp [h]

@[simp] theorem wf_execAmax {ctl w u d m b} : Out.formed (execAmax ctl w u d m b s) = true := by
  fun_cases execAmax <;> simp [h]

@[simp] theorem wf_execAswp {ctl w d m b} : Out.formed (execAswp ctl w d m b s) = true := by
  fun_cases execAswp <;> simp [h]

@[simp] theorem wf_execAcas {ctl w d m b} : Out.formed (execAcas ctl w d m b s) = true := by
  fun_cases execAcas <;> simp [h]

@[simp] theorem wf_execAfadd {ctl d m b} : Out.formed (execAfadd ctl d m b s) = true := by
  fun_cases execAfadd <;> simp [h]

@[simp] theorem wf_execRed {ctl op w m b} : Out.formed (execRed ctl op w m b s) = true := by
  refine wf_issue h fun uid c t ht => ?_
  refine wf_orTrap fun x => ?_
  repeat' split
  all_goals simp [ht]

@[simp] theorem State.wf_waitFor {uid c w} : (s.waitFor uid c w).mem.wf = true := by
  fun_cases State.waitFor <;> simp [h]

@[simp] theorem State.wf_registerMon {uid c dest acc a w64 e t} :
    (s.registerMon uid c dest acc a w64 e t).mem.wf = true := by
  unfold State.registerMon
  repeat' split
  all_goals simp [h]

@[simp] theorem State.wf_waitStep {uid c dest acc a w64 e t} : (s.waitStep uid c dest acc a w64 e t).mem.wf = true := by
  unfold State.waitStep
  dsimp only
  repeat' split
  all_goals simp [h]

@[simp] theorem State.wf_waitRemote {uid c dest acc p off w64 e t} :
    (s.waitRemote uid c dest acc p off w64 e t).mem.wf = true := by
  unfold State.waitRemote
  repeat' split
  all_goals simp [h]

@[simp] theorem wf_execWaita {ctl w d m e} : Out.formed (execWaita ctl w d m e s) = true := by
  refine wf_issue h fun uid c t ht => wf_orTrap fun acc => ?_
  split
  · rfl
  · refine State.wf_throughMove ht fun t ht => ?_
    dsimp only
    split <;> simp [ht]

@[simp] theorem wf_execWakea {ctl d m n} : Out.formed (execWakea ctl d m n s) = true := by
  refine wf_issue h fun uid c t ht => wf_orTrap fun acc => ?_
  split
  · rfl
  · refine State.wf_throughMove ht fun t ht => ?_
    dsimp only
    repeat' split
    all_goals simp [ht]

@[simp] theorem wf_execWaitaTimeout {d k} : Out.formed (execWaitaTimeout d k s) = true := by
  fun_cases execWaitaTimeout <;> simp [h]

@[simp] theorem wf_execMonitorWakeNotice {d k} : Out.formed (execMonitorWakeNotice d k s) = true := by
  unfold execMonitorWakeNotice
  repeat' split
  all_goals simp [h]

/-! ### Sync -/

@[simp] theorem wf_execPhnew {ctl xs} : Out.formed (execPhnew ctl xs s) = true := by
  refine wf_issue h fun uid c t ht => ?_
  dsimp only
  repeat' split
  all_goals simp [ht]

@[simp] theorem wf_execPhreg {ctl mode xs xh} : Out.formed (execPhreg ctl mode xs xh s) = true := by
  refine wf_issue h fun uid c t ht => ?_
  dsimp only
  repeat' split
  all_goals simp [ht]

@[simp] theorem wf_execPhdrop {ctl xs xm} : Out.formed (execPhdrop ctl xs xm s) = true := by
  refine wf_issue h fun uid c t ht => ?_
  dsimp only
  repeat' split
  all_goals simp [ht]

@[simp] theorem wf_execPhsig {ctl xs xm} : Out.formed (execPhsig ctl xs xm s) = true := by
  refine wf_issue h fun uid c t ht => ?_
  dsimp only
  repeat' split
  all_goals simp [ht]

@[simp] theorem State.wf_waitPhase {uid c xs v target} : (s.waitPhase uid c xs v target).mem.wf = true := by
  unfold State.waitPhase
  repeat' split
  all_goals simp [h]

@[simp] theorem wf_execPhwait {ctl xs xm} : Out.formed (execPhwait ctl xs xm s) = true := by
  refine wf_issue h fun uid c t ht => ?_
  dsimp only
  repeat' split
  all_goals simp [ht]

@[simp] theorem wf_execPhnext {ctl xs xm} : Out.formed (execPhnext ctl xs xm s) = true := by
  refine wf_issue h fun uid c t ht => ?_
  dsimp only
  repeat' split
  all_goals simp [ht]

@[simp] theorem wf_execPhfree {ctl xs xh} : Out.formed (execPhfree ctl xs xh s) = true := by
  refine wf_issue h fun uid c t ht => ?_
  dsimp only
  repeat' split
  all_goals simp [ht]

@[simp] theorem wf_execBwarr {ctl dir} : Out.formed (execBwarr ctl dir s) = true := by
  refine wf_issue h fun uid c t ht => ?_
  dsimp only
  repeat' split
  all_goals simp [ht]

@[simp] theorem wf_execBwwait {ctl dir xs} : Out.formed (execBwwait ctl dir xs s) = true := by
  refine wf_issue h fun uid c t ht => ?_
  dsimp only
  repeat' split
  all_goals simp [ht]

@[simp] theorem wf_execBarrierRelease {d lane} : Out.formed (execBarrierRelease d lane s) = true := by
  unfold execBarrierRelease
  dsimp only
  repeat' split
  all_goals simp [h]

@[simp] theorem wf_execBwTimeout {uid} : Out.formed (execBwTimeout uid s) = true := by
  unfold execBwTimeout
  repeat' split
  all_goals simp [h]

@[simp] theorem wf_execNbarr {ctl sc xs tag} : Out.formed (execNbarr ctl sc xs tag s) = true := by
  refine wf_issue h fun uid c t ht => ?_
  dsimp only
  repeat' split
  all_goals simp [ht]

@[simp] theorem State.wf_takeNotice {d n} : (s.takeNotice d n).all (·.mem.wf) = true := by
  fun_cases State.takeNotice <;> simp [h]

@[simp] theorem wf_execNbarrNoticeArrival {d m} : Out.formed (execNbarrNoticeArrival d m s) = true := by
  unfold execNbarrNoticeArrival
  split
  · exact h
  · have ht := State.wf_of_all (State.wf_takeNotice h) ‹_›
    dsimp only
    split
    · exact ht
    · split <;> simp [h, ht]

@[simp] theorem wf_execNbarrTimeout {uid dead} : Out.formed (execNbarrTimeout uid dead s) = true := by
  fun_cases execNbarrTimeout <;> simp [h]

/-! ### Landing -/

@[simp] theorem State.wf_land {uid f v} : (s.land uid f v).mem.wf = true := by
  unfold State.land
  repeat' split
  all_goals simp [h]

@[simp] theorem State.wf_landWord {uid dest v} : (s.landWord uid dest v).mem.wf = true := by
  fun_cases State.landWord <;> simp [h]

@[simp] theorem State.wf_fetchLine {uid n} : (s.fetchLine uid n).mem.wf = true := by
  unfold State.fetchLine
  split
  · exact h
  · split
    · exact h
    · have ht := State.wf_of_all (State.wf_lineRoom h) ‹_›
      split
      · exact ht
      · split <;> simp [ht]

@[simp] theorem wf_execRegisterLineFill {uid line} : Out.formed (execRegisterLineFill uid line s) = true := by
  fun_cases execRegisterLineFill <;> simp [h]

@[simp] theorem wf_execWriteBackFailure {uid line} : Out.formed (execWriteBackFailure uid line s) = true := by
  fun_cases execWriteBackFailure <;> simp [h]

/-! ### Copy -/

@[simp] theorem State.wf_readAnys {world ps} : (s.readAnys world ps).1.mem.wf = true := by
  induction ps generalizing s with
  | nil => exact h
  | cons p ps ih => exact ih (State.wf_readAny h)

@[simp] theorem State.wf_writeAnysBy {todo d rlim world fe ps bs} :
    (s.writeAnysBy todo d rlim world fe ps bs).mem.wf = true := by
  fun_induction State.writeAnysBy <;> simp [*]

@[simp] theorem State.wf_writeAnys {d world fe ps bs} : (s.writeAnys d world fe ps bs).mem.wf = true := by
  fun_cases State.writeAnys <;> simp [h]

@[simp] theorem State.wf_writeTags {k d c} : (s.writeTags k d c).mem.wf = true := by
  unfold State.writeTags
  dsimp only
  split
  · exact h
  · refine State.wf_foldl _ _ h fun t p ht => ?_
    split
    · exact ht
    · exact State.wf_foldl _ _ ht fun t q ht => State.wf_setTags ht

@[simp] theorem wf_execCopyCommandStart {d c} : Out.formed (execCopyCommandStart d c s) = true := by
  unfold execCopyCommandStart
  dsimp only
  repeat' split
  all_goals simp [h]

@[simp] theorem State.wf_writePiece {d c k parts bs n wrote} : (s.writePiece d c k parts bs n wrote).mem.wf = true := by
  unfold State.writePiece
  simp [h]

@[simp] theorem State.wf_nextPiece {d c num k bad} : (s.nextPiece d c num k bad).mem.wf = true := by
  unfold State.nextPiece
  dsimp only
  repeat' split
  all_goals simp [h]

@[simp] theorem State.wf_copyStep {d c bad} : (s.copyStep d c bad).mem.wf = true := by
  fun_cases State.copyStep <;> simp [h]

@[simp] theorem wf_execCopyPieceWrite {d c} : Out.formed (execCopyPieceWrite d c s) = true := by
  fun_cases execCopyPieceWrite <;> simp [h]

@[simp] theorem State.wf_copyStatus {k v} : (s.copyStatus k v).mem.wf = true := by
  fun_cases State.copyStatus <;> simp [h]

@[simp] theorem State.wf_abortCmd {k off} : (s.abortCmd k off).mem.wf = true := by fun_cases State.abortCmd <;> simp [h]

@[simp] theorem wf_execCopyCommandComplete {d c} : Out.formed (execCopyCommandComplete d c s) = true := by
  unfold execCopyCommandComplete
  repeat' split
  all_goals simp [h]

@[simp] theorem State.wf_landCopy {x d c num len} : (s.landCopy x d c num len).mem.wf = true := by
  unfold State.landCopy
  dsimp only
  repeat' split
  all_goals simp [h]

@[simp] theorem State.wf_copyCmd {uid c dest desc member} : (s.copyCmd uid c dest desc member).formed = true := by
  fun_cases State.copyCmd <;> simp [h]

@[simp] theorem wf_execCpy {ctl xs m ph} : Out.formed (execCpy ctl xs m ph s) = true := by
  refine wf_issue h fun uid c t ht => wf_into (State.wf_readBlock ht) fun t bs ht => ?_
  split <;> simp [ht]

@[simp] theorem wf_execCpyi {ctl xs dst src} : Out.formed (execCpyi ctl xs dst src s) = true := by
  refine wf_issue h fun uid c t ht => ?_
  dsimp only
  repeat' split
  all_goals simp [ht]

@[simp] theorem wf_execCpstg {ctl xs k} : Out.formed (execCpstg ctl xs k s) = true := by
  refine wf_issue h fun uid c t ht => ?_
  dsimp only
  repeat' split
  all_goals simp [ht]

@[simp] theorem State.wf_abortEngine {by_ d c f} : (s.abortEngine by_ d c f).1.mem.wf = true := by
  unfold State.abortEngine
  dsimp only
  refine State.wf_foldl _ _ ?_ fun t k ht => by simp [ht]
  repeat' split
  all_goals simp [h]

@[simp] theorem State.wf_abortSched {by_ lid l} : (s.abortSched by_ lid l).1.mem.wf = true := by
  unfold State.abortSched
  refine State.wf_foldl_fst ?_ fun p q hp => State.wf_abortEngine hp
  exact State.wf_foldl _ _ h fun t k ht => by simp [ht]

@[simp] theorem wf_execCpabt {ctl xs a} : Out.formed (execCpabt ctl xs a s) = true := by
  refine wf_issue h fun uid c t ht => ?_
  dsimp only
  repeat' split
  all_goals simp [ht]

/-! ### Views -/

@[simp] theorem State.wf_addView {c num m v k} : (s.addView c num m v k).1.mem.wf = true := by
  unfold State.addView
  dsimp only
  rw [State.queueRefresh_mem]
  have h2 : ∀ {t : State} {l : List Nat}, t.mem.wf = true → (l.foldl (fun (s : State) b =>
      match s.resolveGlobal c.world c.space false (viewAddrs m.desc.toNat v b).2.2 8 1 .wr with
      | .ok a => s.store c.world (partAt a.parts 0) (leBytes 8 0) (some true)
      | .error _ => s) t).mem.wf = true := fun ht => State.wf_foldl _ _ ht fun t b ht => by
    split
    · exact State.wf_store ht
    · exact ht
  split
  · exact h2 (by simp [h])
  · refine State.wf_foldl _ _ (h2 (by simp [h])) fun t p ht => ?_
    split
    · refine State.wf_foldl _ _ ht fun t q ht => ?_
      split
      · exact Memory.wf_tag _ _ ht
      · exact ht
    · exact ht

@[simp] theorem State.wf_addMaster {w num m} : (s.addMaster w num m).mem.wf = true := by
  unfold State.addMaster
  dsimp only
  rw [State.l1Unwatch_mem]
  exact State.wf_foldl _ _ (State.wf_foldl _ _ h fun t i ht => State.wf_write ht) fun t i ht => State.wf_write ht

@[simp] theorem wf_execVwreg {ctl xs mb mc} : Out.formed (execVwreg ctl xs mb mc s) = true := by
  refine wf_issue h fun uid c t ht => wf_into (State.wf_readBlock ht) fun t bs ht =>
    wf_into (State.wf_readBlock ht) fun t vs ht => ?_
  split
  · simp [ht]
  · dsimp only
    split <;> simp [ht]

@[simp] theorem wf_execVwdrop {ctl xs xh} : Out.formed (execVwdrop ctl xs xh s) = true := by
  refine wf_issue h fun uid c t ht => ?_
  split <;> simp [ht]

@[simp] theorem wf_execVwclr {ctl xs xh} : Out.formed (execVwclr ctl xs xh s) = true := by
  refine wf_issue h fun uid c t ht => ?_
  repeat' split
  all_goals simp [ht]

@[simp] theorem State.wf_readHint {d c loc w ps} : (s.readHint d c loc w ps).1.mem.wf = true := by
  fun_cases State.readHint <;> simp [h]

theorem State.wf_readView {d c loc w m v b r} (hr : s.readView d c loc w m v b = .ok r) : r.1.mem.wf = true := by
  unfold State.readView at hr
  dsimp only at hr
  split at hr
  · cases hr
    exact State.wf_readHint (State.wf_readHint (State.wf_readHint h))
  all_goals exact nomatch hr

@[simp] theorem wf_holdVwld {uid g v} : (holdVwld s uid g v).formed = true := by fun_cases holdVwld <;> simp [h]

@[simp] theorem State.wf_vwld {uid c pol loc d va m v b} : (s.vwld uid c pol loc d va m v b).formed = true := by
  unfold State.vwld
  dsimp only
  split
  · rfl
  · have ht := State.wf_readView h ‹_›
    dsimp only at ht
    split
    · simp [h]
    · split
      · rfl
      · split
        · rfl
        · simp [ht]

@[simp] theorem wf_execVwld {ctl pol d m} : Out.formed (execVwld ctl pol d m s) = true := by
  refine wf_issue h fun uid c t ht => wf_orTrap fun acc => ?_
  split
  · rfl
  · split
    · rfl
    · refine State.wf_throughMove ht fun t ht => ?_
      split
      · rfl
      · exact State.wf_vwld ht

@[simp] theorem wf_execVwsync {ctl xs xh} : Out.formed (execVwsync ctl xs xh s) = true := by
  refine wf_issue h fun uid c t ht => ?_
  repeat' split
  all_goals simp [ht]

@[simp] theorem wf_execVwgen {ctl d m sel} : Out.formed (execVwgen ctl d m sel s) = true := by
  refine wf_issue h fun uid c t ht => ?_
  refine wf_orTrap fun x => ?_
  repeat' split
  all_goals simp [ht]

@[simp] theorem State.wf_publishParts {w ps bs} : (s.publishParts w ps bs).mem.wf = true := by
  induction ps generalizing s bs with
  | nil => exact h
  | cons p ps ih => exact ih (State.wf_storeAt (by simp [h]))

@[simp] theorem State.wf_serveParts {ps} : (s.serveParts ps).mem.wf = true := by
  fun_cases State.serveParts <;> simp +contextual [State.wf_foldl, h]

@[simp] theorem State.wf_publishView {w num k b g m v xs} : (s.publishView w num k b g m v xs).mem.wf = true := by
  unfold State.publishView
  dsimp only
  repeat' split
  all_goals simp [h]

@[simp] theorem State.wf_serveRefresh {r bad} : (s.serveRefresh r bad).mem.wf = true := by
  unfold State.serveRefresh
  split
  · exact h
  · dsimp only
    refine State.wf_foldl _ _ (State.wf_write (State.wf_readSeg h)) fun t v ht => ?_
    split
    · exact ht
    · split <;> simp [ht]

@[simp] theorem State.wf_viewStep {d bad} : (s.viewStep d bad).mem.wf = true := by fun_cases State.viewStep <;> simp [h]

@[simp] theorem wf_execViewRefresh {d} : Out.formed (execViewRefresh d s) = true := by
  fun_cases execViewRefresh <;> simp [h]

@[simp] theorem wf_execQuant {ctl xs m} : Out.formed (execQuant ctl xs m s) = true := by
  refine wf_issue h fun uid c t ht => wf_into (State.wf_readBlock ht) fun t bs ht => ?_
  dsimp only
  repeat' split
  all_goals simp [ht]

@[simp] theorem State.wf_quantOne {d q bad} : (s.quantOne d q bad).1.mem.wf = true := by
  unfold State.quantOne
  dsimp only
  repeat' split
  all_goals simp [h]

@[simp] theorem State.wf_quantStep {d bad} : (s.quantStep d bad).mem.wf = true := by
  unfold State.quantStep
  repeat' split
  all_goals simp [h]

@[simp] theorem wf_execQuantService {d} : Out.formed (execQuantService d s) = true := by
  fun_cases execQuantService <;> simp [h]

/-! ### Bulk -/

theorem State.wf_bulkStore {d id p a bs t} (ht : s.bulkStore d id p a bs = .ok t) : t.mem.wf = true := by
  unfold State.bulkStore at ht
  split at ht
  · exact nomatch ht
  · split at ht
    · exact nomatch ht
    · cases ht
      simp [h]

@[simp] theorem State.wf_bulkIn {d id seq off bs} : (s.bulkIn d id seq off bs).mem.wf = true := by
  unfold State.bulkIn
  split
  · exact h
  · split
    · exact h
    · split
      · refine State.wf_foldl _ _ h fun t q ht => ?_
        split <;> simp [ht]
      · split
        · simp [State.wf_bulkStore h ‹_›]
        · simp [h]

@[simp] theorem State.wf_bulkArrive {d f} : (s.bulkArrive d f).mem.wf = true := by
  fun_cases State.bulkArrive <;> simp [h]

@[simp] theorem State.wf_landBulk {x d id seq off len} : (s.landBulk x d id seq off len).mem.wf = true := by
  unfold State.landBulk
  split
  · exact h
  · dsimp only
    split
    · simp [h]
    · split
      · simp [h]
      · have hb := fun {d id p a bs t} => State.wf_bulkStore (s := s.modMatch d id fun k =>
          { k with landing := k.landing - 1 }) (d := d) (id := id) (p := p) (a := a) (bs := bs) (t := t) (by simp [h])
        split
        · simp [hb ‹_›]
        · simp [h]

@[simp] theorem State.wf_matchPost {d id p r} : (s.matchPost d id p r).mem.wf = true := by
  fun_cases State.matchPost <;> simp [h]

@[simp] theorem State.wf_rtsIn {d r} : (s.rtsIn d r).mem.wf = true := by fun_cases State.rtsIn <;> simp [h]

theorem State.wf_bulkRead {d p off len r} (hr : s.bulkRead d p off len = .ok r) : r.1.mem.wf = true := by
  unfold State.bulkRead at hr
  split at hr
  · exact nomatch hr
  · dsimp only at hr
    split at hr
    · exact nomatch hr
    · cases hr
      simp [h]

@[simp] theorem State.wf_sendRts {d id} : (s.sendRts d id).mem.wf = true := by
  unfold State.sendRts
  split
  · exact h
  · dsimp only
    split
    · simp [h]
    · split
      · simp [h]
      · have ht := State.wf_bulkRead h ‹_›
        dsimp only at ht
        split <;> simp [ht]

@[simp] theorem wf_execRtsArrival {d r} : Out.formed (execRtsArrival d r s) = true := by
  fun_cases execRtsArrival <;> simp [h]

@[simp] theorem State.wf_sendFlits {pkg die seq l} : (s.sendFlits pkg die seq l).mem.wf = true := by
  refine State.wf_foldl _ _ h fun t q ht => ?_
  dsimp only
  split <;> simp [ht]

@[simp] theorem State.wf_serveToken {d t} : (s.serveToken d t).mem.wf = true := by
  unfold State.serveToken
  split
  · exact h
  · split
    · simp [h]
    · split
      · exact h
      · split
        · simp [h]
        · have ht := State.wf_bulkRead h ‹_›
          dsimp only at ht
          simp [ht]

@[simp] theorem wf_execTokenArrival {d t} : Out.formed (execTokenArrival d t s) = true := by
  fun_cases execTokenArrival <;> simp [h]

@[simp] theorem wf_execTokenIssue {d} : Out.formed (execTokenIssue d s) = true := by
  unfold execTokenIssue
  dsimp only
  repeat' split
  all_goals simp [h]

@[simp] theorem wf_execTokenExpiry {d k} : Out.formed (execTokenExpiry d k s) = true := by
  unfold execTokenExpiry
  dsimp only
  repeat' split
  all_goals simp [h]

@[simp] theorem wf_execBulkDataArrival {d f} : Out.formed (execBulkDataArrival d f s) = true := by
  fun_cases execBulkDataArrival <;> simp [h]

@[simp] theorem wf_execDropNoticeArrival {d n} : Out.formed (execDropNoticeArrival d n s) = true := by
  fun_cases execDropNoticeArrival <;> simp [h]

@[simp] theorem wf_execCancelNoticeArrival {d n} : Out.formed (execCancelNoticeArrival d n s) = true := by
  fun_cases execCancelNoticeArrival <;> simp [h]

@[simp] theorem wf_execBsend {ctl xs m} : Out.formed (execBsend ctl xs m s) = true := by
  refine wf_issue h fun uid c t ht => wf_into (State.wf_readBlock ht) fun t bs ht => ?_
  dsimp only
  repeat' split
  all_goals simp [ht]

@[simp] theorem wf_execBpost {ctl g xs m} : Out.formed (execBpost ctl g xs m s) = true := by
  refine wf_issue h fun uid c t ht => wf_into (State.wf_readBlock ht) fun t bs ht => ?_
  dsimp only
  repeat' split
  all_goals simp [ht]

@[simp] theorem State.wf_cancelSend {uid xs d id p} : (s.cancelSend uid xs d id p).formed = true := by
  fun_cases State.cancelSend <;> simp [h]

@[simp] theorem wf_execBcancel {ctl xs m} : Out.formed (execBcancel ctl xs m s) = true := by
  refine wf_issue h fun uid c t ht => ?_
  dsimp only
  repeat' split
  all_goals simp [ht]

@[simp] theorem wf_execBstat {ctl d m} : Out.formed (execBstat ctl d m s) = true := by
  refine wf_issue h fun uid c t ht => ?_
  dsimp only
  repeat' split
  all_goals simp [ht]

/-! ### Fabric -/

@[simp] theorem State.wf_loadFor {r q n} : (s.loadFor r q n).mem.wf = true := by
  unfold State.loadFor
  simp [h]

@[simp] theorem State.wf_waitRemoteHere {r q op} : (s.waitRemoteHere r q op).mem.wf = true := by
  unfold State.waitRemoteHere
  dsimp only
  repeat' split
  all_goals simp [h]

@[simp] theorem State.wf_storeFor {r q n data mode} : (s.storeFor r q n data mode).mem.wf = true := by
  unfold State.storeFor
  repeat' split
  all_goals simp [h]

@[simp] theorem State.wf_atomicFor {r q op w64 b} : (s.atomicFor r q op w64 b).mem.wf = true := by
  unfold State.atomicFor
  simp [h]

@[simp] theorem State.wf_waitaFor {r q w64 e full} : (s.waitaFor r q w64 e full).mem.wf = true := by
  unfold State.waitaFor
  dsimp only
  repeat' split
  all_goals simp [h]

@[simp] theorem State.wf_poisonFor {r q n mode} : (s.poisonFor r q n mode).mem.wf = true := by
  fun_cases State.poisonFor <;> simp [h]

@[simp] theorem State.wf_fesetFor {r q full} : (s.fesetFor r q full).mem.wf = true := by
  fun_cases State.fesetFor <;> simp [h]

@[simp] theorem State.wf_performFor {r q} : (s.performFor r q).mem.wf = true := by
  unfold State.performFor
  repeat' split
  all_goals simp [h]

@[simp] theorem State.wf_takeRequest {r} : (s.takeRequest r).mem.wf = true := by
  fun_cases State.takeRequest <;> simp [h]

@[simp] theorem State.wf_toNi {r} : (s.toNi r).mem.wf = true := by fun_cases State.toNi <;> simp [h]

@[simp] theorem wf_execFabricRequestReceive {r} : Out.formed (execFabricRequestReceive r s) = true := by
  fun_cases execFabricRequestReceive <;> simp [h]

@[simp] theorem wf_execOrderedFlagRelease {k} : Out.formed (execOrderedFlagRelease k s) = true := by
  fun_cases execOrderedFlagRelease <;> simp [h]

@[simp] theorem wf_execOrderedFlagTimeout {k} : Out.formed (execOrderedFlagTimeout k s) = true := by
  fun_cases execOrderedFlagTimeout <;> simp [h]

@[simp] theorem wf_execSkipNoticeArrival {pkg die path} : Out.formed (execSkipNoticeArrival pkg die path s) = true := by
  fun_cases execSkipNoticeArrival <;> simp [h]

@[simp] theorem State.wf_syncFailed {uid op cause va} : (s.syncFailed uid op cause va).mem.wf = true := by
  fun_cases State.syncFailed <;> simp [h]

@[simp] theorem State.wf_reqFailed {hr o e} : (s.reqFailed hr o e).mem.wf = true := by
  fun_cases State.reqFailed <;> simp +zetaDelta [h]

@[simp] theorem wf_execFabricAckArrival {seq a} : Out.formed (execFabricAckArrival seq a s) = true := by
  fun_cases execFabricAckArrival <;> simp +zetaDelta [h]

@[simp] theorem wf_execFabricResendTimeout {seq} : Out.formed (execFabricResendTimeout seq s) = true := by
  fun_cases execFabricResendTimeout <;> simp +zetaDelta [h]

@[simp] theorem State.wf_sendAgain {uid d} : (s.sendAgain uid d).mem.wf = true := by
  unfold State.sendAgain
  dsimp only
  refine State.wf_foldl _ _ (State.wf_foldl _ _ h fun t p ht => ?_) fun t p ht => ?_
  · split
    · split <;> simp [ht]
    · exact ht
  · split <;> simp [ht]

@[simp] theorem wf_execRetryBackoffExpiry {uid} : Out.formed (execRetryBackoffExpiry uid s) = true := by
  unfold execRetryBackoffExpiry
  simp +contextual [State.wf_foldl, h]

@[simp] theorem wf_execCorrectedCodeword {port lane} : Out.formed (execCorrectedCodeword port lane s) = true := by
  fun_cases execCorrectedCodeword <;> simp [h]

@[simp] theorem wf_execFlitNakReplay {port lane} : Out.formed (execFlitNakReplay port lane s) = true := by
  fun_cases execFlitNakReplay <;> simp [h]

@[simp] theorem wf_execHealthScoreHalving : Out.formed (execHealthScoreHalving s) = true := by
  fun_cases execHealthScoreHalving <;> simp [h]

@[simp] theorem wf_execParityTopup {port good} : Out.formed (execParityTopup port good s) = true := by
  unfold execParityTopup
  dsimp only
  repeat' split
  all_goals simp [h]

@[simp] theorem wf_execStompTail {port} : Out.formed (execStompTail port s) = true := by
  fun_cases execStompTail <;> simp [h]

@[simp] theorem wf_execCrossbarParityError {f} : Out.formed (execCrossbarParityError f s) = true := by
  fun_cases execCrossbarParityError <;> simp +zetaDelta [h]

/-! ### Matrix -/

@[simp] theorem State.wf_matCmd {uid c dest op} : (s.matCmd uid c dest op).formed = true := by
  fun_cases State.matCmd <;> simp [h]

@[simp] theorem wf_loadStage {op ctl b xs m xl} : Out.formed (loadStage op ctl b xs m xl s) = true := by
  refine wf_issue h fun uid c t ht => ?_
  dsimp only
  split
  · rfl
  · refine wf_orTrap fun base => ?_
    repeat' split
    all_goals simp [ht]

@[simp] theorem wf_execMlda {ctl xs m xl} : Out.formed (execMlda ctl xs m xl s) = true := by
  fun_cases execMlda <;> simp [h]

@[simp] theorem wf_execMldb {ctl xs m xl} : Out.formed (execMldb ctl xs m xl s) = true := by
  fun_cases execMldb <;> simp [h]

@[simp] theorem wf_matPlain {op ctl xs rd f} : Out.formed (matPlain op ctl xs rd f s) = true := by
  exact wf_issue h fun uid c t ht => by simp [ht]

@[simp] theorem wf_execMma {ctl xs k} : Out.formed (execMma ctl xs k s) = true := by fun_cases execMma <;> simp [h]

@[simp] theorem wf_execMring {ctl xs} : Out.formed (execMring ctl xs s) = true := by fun_cases execMring <;> simp [h]

@[simp] theorem wf_execMzero {ctl wide xs t} : Out.formed (execMzero ctl wide xs t s) = true := by
  fun_cases execMzero <;> simp [h]

@[simp] theorem wf_execMclose {ctl xs} : Out.formed (execMclose ctl xs s) = true := by fun_cases execMclose <;> simp [h]

@[simp] theorem wf_execMsta {ctl t xs m xc} : Out.formed (execMsta ctl t xs m xc s) = true := by
  refine wf_issue h fun uid c t ht => ?_
  dsimp only
  split
  · rfl
  · refine wf_orTrap fun base => ?_
    split <;> simp [ht]

@[simp] theorem wf_execMstat {ctl xd} : Out.formed (execMstat ctl xd s) = true := by fun_cases execMstat <;> simp [h]

@[simp] theorem wf_execMrcfg {ctl xs cfg} : Out.formed (execMrcfg ctl xs cfg s) = true := by
  fun_cases execMrcfg <;> simp [h]

@[simp] theorem wf_matErr {code} : (matErr s code).formed = true := by fun_cases matErr <;> simp [h]

@[simp] theorem State.wf_readRows {world d c b base w} : (s.readRows world d c b base w).1.mem.wf = true := by
  unfold State.readRows
  dsimp only
  repeat' split
  all_goals simp +contextual [State.wf_checkRead, State.wf_foldl, h]

@[simp] theorem State.wf_runMlda {k d c base w} : (s.runMlda k d c base w).formed = true := by
  have ht := State.wf_readRows h (world := k.world) (d := d) (c := c) (b := false) (base := base) (w := w)
  unfold State.runMlda
  split
  · simp [h]
  · generalize s.readRows k.world d c false base w = r at ht
    obtain ⟨t, _ | rows⟩ := r <;> simp_all

@[simp] theorem State.wf_runMldb {k d c base w} : (s.runMldb k d c base w).formed = true := by
  have ht := State.wf_readRows h (world := k.world) (d := d) (c := c) (b := true) (base := base) (w := w)
  unfold State.runMldb
  split
  · simp [h]
  · split
    · rfl
    · split
      · simp [h]
      · generalize s.readRows k.world d c true base w = r at ht
        obtain ⟨t, _ | cols⟩ := r <;> simp_all

@[simp] theorem State.wf_runMma {d c ctl} : (s.runMma d c ctl).formed = true := by fun_cases State.runMma <;> simp [h]

@[simp] theorem State.wf_runMring {d c} : (s.runMring d c).formed = true := by fun_cases State.runMring <;> simp [h]

@[simp] theorem State.wf_runMzero {d c wide t} : (s.runMzero d c wide t).formed = true := by
  fun_cases State.runMzero <;> simp [h]

@[simp] theorem State.wf_storeRows {k d c base jt t w steps is fl nan} :
    (s.storeRows k d c base jt t w steps is fl nan).1.mem.wf = true := by
  induction is generalizing s fl nan with
  | nil => exact h
  | cons i is ih =>
    refine ih (State.wf_store ?_)
    split
    · simp [h]
    · exact h

@[simp] theorem State.wf_runMsta {k d c t base w} : (s.runMsta k d c t base w).formed = true := by
  unfold State.runMsta
  dsimp only
  repeat' split
  all_goals simp [h]

@[simp] theorem State.wf_runMrcfg {k d c cfg} : (s.runMrcfg k d c cfg).formed = true := by
  fun_cases State.runMrcfg <;> simp [h]

@[simp] theorem State.wf_runMat {k d c} : (s.runMat k d c).formed = true := by fun_cases State.runMat <;> simp [h]

@[simp] theorem State.wf_startMat {k d c} : (s.startMat k d c).formed = true := by fun_cases State.startMat <;> simp [h]

@[simp] theorem State.wf_runArray {k d c} : (s.runArray k d c).mem.wf = true := by
  unfold State.runArray
  split
  · have ht := State.wf_startMat h (k := k) (d := d) (c := c)
    simp_all
  · exact h

@[simp] theorem State.wf_startHead {k d c} : (s.startHead k d c).mem.wf = true := by
  have ht := State.wf_startMat h (k := k) (d := d) (c := c)
  unfold State.startHead
  generalize s.startMat k d c = r at ht
  cases r with
  | fin t v fl nan => simp_all
  | wait =>
    dsimp only
    split <;> simp [h]
  | send => simp [h]

@[simp] theorem State.wf_startNext {d c} : (s.startNext d c).mem.wf = true := by fun_cases State.startNext <;> simp [h]

@[simp] theorem wf_execMatrixCommandStart {d c} : Out.formed (execMatrixCommandStart d c s) = true := by
  unfold execMatrixCommandStart
  dsimp only
  repeat' split
  all_goals simp [h]

@[simp] theorem wf_execRingTileArrival {d c} : Out.formed (execRingTileArrival d c s) = true := by
  fun_cases execRingTileArrival <;> simp [h]

@[simp] theorem wf_execRingTimeout {d c} : Out.formed (execRingTimeout d c s) = true := by
  fun_cases execRingTimeout <;> simp [h]

/-! ### Tree -/

@[simp] theorem State.wf_cutByGrant {g} : (s.cutByGrant g).mem.wf = true := by
  unfold State.cutByGrant
  simp +contextual [State.wf_foldl, h]

@[simp] theorem State.wf_treeGrant {n sp t k} : (s.treeGrant n sp t k).1.mem.wf = true := by
  unfold State.treeGrant
  dsimp only
  repeat' split
  all_goals simp [h]

@[simp] theorem State.wf_treeUnmap {sp va t k} : (s.treeUnmap sp va t k).1.mem.wf = true := by
  fun_cases State.treeUnmap <;> simp [h]

@[simp] theorem State.wf_treeRetire {sp t k} : (s.treeRetire sp t k).1.mem.wf = true := by
  fun_cases State.treeRetire <;> simp [h]

@[simp] theorem State.wf_sinkNow {k v} : (s.sinkNow k v).mem.wf = true := by fun_cases State.sinkNow <;> simp [h]

@[simp] theorem wf_execUnmapWalkDone {k} : Out.formed (execUnmapWalkDone k s) = true := by
  unfold execUnmapWalkDone
  repeat' split
  all_goals simp [h]

/-! ### Fills -/

@[simp] theorem wf_poolOp {op ctl observe xs m len} : Out.formed (poolOp op ctl observe xs m len s) = true := by
  refine wf_issue h fun uid c t ht => ?_
  dsimp only
  repeat' split
  all_goals simp [ht]

@[simp] theorem wf_execPublish {ctl xs m len} : Out.formed (execPublish ctl xs m len s) = true := by
  fun_cases execPublish <;> simp [h]

@[simp] theorem wf_execObserve {ctl xs m len} : Out.formed (execObserve ctl xs m len s) = true := by
  fun_cases execObserve <;> simp [h]

@[simp] theorem wf_execEvid {ctl xs m xr} : Out.formed (execEvid ctl xs m xr s) = true := by
  refine wf_issue h fun uid c t ht => wf_into (State.wf_readBlock ht) fun t bs ht => wf_orTrap fun reply => ?_
  split
  · rfl
  · split <;> simp [ht]

@[simp] theorem wf_execDbgbrk {ctl} : Out.formed (execDbgbrk ctl s) = true := by
  refine wf_issue h fun uid c t ht => ?_
  split <;> simp [ht]

@[simp] theorem wf_execIll {a0} : Out.formed (execIll a0 s) = true := by fun_cases execIll <;> simp [h]

@[simp] theorem State.wf_landPacket {c} : (s.landPacket c).mem.wf = true := by fun_cases State.landPacket <;> simp [h]

@[simp] theorem wf_execDone {ctl} : Out.formed (execDone ctl s) = true := by
  refine wf_issue h fun uid c t ht => ?_
  split <;> simp [ht]

@[simp] theorem State.wf_poolWork {c observe upto ls sent ds} :
    (s.poolWork c observe upto ls sent ds).formed = true := by
  induction ls generalizing s sent ds with
  | nil => exact h
  | cons l ls ih =>
    unfold State.poolWork
    split
    · exact h
    · dsimp only
      split
      · exact ih h
      · split
        · rfl
        · refine ih ?_
          split
          · exact State.wf_dropPool h
          · exact State.wf_writeBackPool _ h

@[simp] theorem State.wf_poolKept {line old} : (s.poolKept line old).mem.wf = true := by
  fun_cases State.poolKept <;> simp [State.wf_writeLine, h]

@[simp] theorem State.wf_poolLost {sent} : (s.poolLost sent).mem.wf = true := by
  refine State.wf_foldl _ _ h fun t p ht => ?_
  dsimp only
  split <;> simp [ht]

@[simp] theorem State.wf_fillThrough {uid f acc} {go : State → State}
    (hgo : ∀ t : State, t.mem.wf = true → (go t).mem.wf = true) : (s.fillThrough uid f acc go).mem.wf = true := by
  fun_cases State.fillThrough
  · exact hgo _ (by simp [h])
  · exact h
  · simp [h]

@[simp] theorem State.wf_fillLoad {uid c k f acc} : (s.fillLoad uid c k f acc).mem.wf = true := by
  unfold State.fillLoad
  dsimp only
  repeat' split
  all_goals simp [h]

@[simp] theorem State.wf_fillFeget {uid c k f acc} : (s.fillFeget uid c k f acc).mem.wf = true := by
  unfold State.fillFeget
  dsimp only
  repeat' split
  all_goals simp [h]

@[simp] theorem State.wf_fillAtom {uid c k f acc op w64 b} : (s.fillAtom uid c k f acc op w64 b).mem.wf = true := by
  unfold State.fillAtom
  dsimp only
  repeat' split
  all_goals simp [h]

@[simp] theorem State.wf_fillFence {uid c k f id scope sc} : (s.fillFence uid c k f id scope sc).mem.wf = true := by
  fun_cases State.fillFence <;> simp [h]

@[simp] theorem State.wf_fillEvid {uid c k f req reply order} :
    (s.fillEvid uid c k f req reply order).mem.wf = true := by
  unfold State.fillEvid
  repeat' split
  all_goals simp [h]

@[simp] theorem State.wf_fillPool {uid c k f observe va n upto} :
    (s.fillPool uid c k f observe va n upto).mem.wf = true := by
  have hp := State.wf_poolWork h (c := c) (observe := observe) (upto := upto) (ls := rangeLines va n) (sent := [])
    (ds := 0)
  unfold State.fillPool
  generalize s.poolWork c observe upto (rangeLines va n) [] 0 = r at hp
  cases r with
  | wait => exact h
  | failed t code => simp_all
  | done t sent ds =>
    dsimp only
    split <;> simp_all

@[simp] theorem State.wf_fillPoolAck {uid c k f since sent ds} :
    (s.fillPoolAck uid c k f since sent ds).mem.wf = true := by
  fun_cases State.fillPoolAck <;> simp [h]

@[simp] theorem State.wf_fillNow {uid c k f} : (s.fillNow uid c k f).mem.wf = true := by
  unfold State.fillNow
  repeat' split
  all_goals simp +contextual [h]

@[simp] theorem wf_execLongProducerFill {uid k} : Out.formed (execLongProducerFill uid k s) = true := by
  fun_cases execLongProducerFill <;> simp [h]

@[simp] theorem wf_execPoolAckTimeout {uid} : Out.formed (execPoolAckTimeout uid s) = true := by
  fun_cases execPoolAckTimeout <;> simp [h]

/-! ### Preempt -/

@[simp] theorem State.wf_partResult {v} : (s.partResult v).mem.wf = true := by
  unfold State.partResult
  dsimp only
  repeat' split
  all_goals simp [h]

@[simp] theorem State.wf_preemptDone : s.preemptDone.mem.wf = true := by
  unfold State.preemptDone
  simp +contextual [State.wf_foldl, h]

@[simp] theorem wf_execPreemptionRequest {region slices deadline} :
    Out.formed (execPreemptionRequest region slices deadline s) = true := by
  fun_cases execPreemptionRequest <;> simp [h]

theorem State.wf_saveLine {r g a bs t} (ht : s.saveLine r g a bs = .ok t) : t.mem.wf = true := by
  unfold State.saveLine at ht
  split at ht
  · exact nomatch ht
  · cases ht
    exact State.wf_store h

theorem State.wf_saveLines64 {r g a bs n t} (ht : s.saveLines64 r g a bs n = .ok t) : t.mem.wf = true := by
  induction n generalizing s a bs with
  | zero => cases ht; exact h
  | succ n ih =>
    unfold State.saveLines64 at ht
    split at ht
    · cases ht; exact h
    · split at ht
      · exact nomatch ht
      · exact ih (State.wf_saveLine h ‹_›) ht

theorem State.wf_saveFree {r g a n t} (ht : s.saveFree r g a n = .ok t) : t.mem.wf = true :=
  State.wf_saveLines64 (by simp [h]) ht

theorem State.wf_saveHead {r g d c u t} (ht : s.saveHead r g d c u = .ok t) : t.mem.wf = true := by
  unfold State.saveHead at ht
  dsimp only at ht
  split at ht
  · exact nomatch ht
  · cases ht
    simp [State.wf_saveLines64 h ‹_›]

@[simp] theorem State.wf_hold {uid} : (s.hold uid).mem.wf = true := by
  unfold State.hold
  simp [h]

theorem State.wf_saveCopies {r g a ks t} (ht : s.saveCopies r g a ks = .ok t) : t.mem.wf = true := by
  induction ks generalizing s a with
  | nil => cases ht; exact h
  | cons k ks ih =>
    unfold State.saveCopies at ht
    dsimp only at ht
    split at ht
    case h_1 => exact nomatch ht
    case h_2 t ht' => exact ih (State.wf_saveLines64 (by simp [h]) ht') ht

theorem State.wf_writeEngines {r g d c t} (ht : s.writeEngines r g d c = .ok t) : t.mem.wf = true := by
  unfold State.writeEngines at ht
  dsimp only at ht
  split at ht
  · exact nomatch ht
  · have h1 := State.wf_saveFree h ‹_›
    split at ht
    · exact nomatch ht
    · have h2 := State.wf_saveCopies h1 ‹_›
      split at ht
      · exact nomatch ht
      · cases ht
        simp [State.wf_saveFree h2 ‹_›]

@[simp] theorem State.wf_discard {uid} : (s.discard uid).mem.wf = true := by
  unfold State.discard
  split
  · exact h
  · dsimp only
    rw [State.reap_mem, State.spend_mem]
    exact State.wf_writeRecord (by simp [h])

@[simp] theorem State.wf_addForced {r n} : (s.addForced r n).mem.wf = true := by fun_cases State.addForced <;> simp [h]

@[simp] theorem State.wf_setRegionState {r v} : (s.setRegionState r v).mem.wf = true := by
  fun_cases State.setRegionState <;> simp [h]

theorem State.wf_saveHeadOr {r g d c u} : (match s.saveHead r g d c u with
    | .ok t => t
    | .error _ => s).mem.wf = true := by
  split
  · exact State.wf_saveHead h ‹_›
  · exact h

@[simp] theorem State.wf_discardCluster {d cl r g} : (s.discardCluster d cl r g).mem.wf = true := by
  unfold State.discardCluster
  dsimp only
  rw [State.modPre_mem]
  exact State.wf_foldl _ _ (State.wf_foldl _ _ h fun t u ht => State.wf_discard ht) fun t p ht => State.wf_saveHeadOr ht

@[simp] theorem State.wf_saveCore {d cl r choice g c} : (s.saveCore d cl r choice g c).mem.wf = true := by
  unfold State.saveCore
  dsimp only
  split
  case h_1 t ht =>
    refine State.wf_foldl _ _ ?_ fun u x hu => by simp [hu]
    rw [State.takeEngines_mem]
    split at ht
    · exact nomatch ht
    · exact State.wf_writeEngines (State.wf_saveHead h ‹_›) ht
  · rw [State.modPre_mem]
    exact State.wf_saveHeadOr (State.wf_foldl _ _ h fun t u ht => State.wf_discard ht)

@[simp] theorem State.wf_pausePosts {d r} : (s.pausePosts d r).mem.wf = true := by
  unfold State.pausePosts
  split
  · exact h
  · split
    · exact h
    · dsimp only
      refine State.wf_foldl _ _ h fun t q ht => ?_
      split
      case h_1 u hu =>
        rw [State.modMatch_mem]
        exact State.wf_saveLine (by simp [ht]) hu
      case h_2 => simp [ht]

@[simp] theorem State.wf_makeRestart {q} : (s.makeRestart q).all (·.mem.wf) = true := by
  fun_cases State.makeRestart
  all_goals simp +zetaDelta
  all_goals repeat' split
  all_goals simp [h]

@[simp] theorem State.wf_makeRestarts {qs} : (s.makeRestarts qs).mem.wf = true := by
  induction qs generalizing s with
  | nil => exact h
  | cons q qs ih =>
    refine ih ?_
    split
    case h_1 t ht => exact State.wf_of_all (t := t) (State.wf_makeRestart h) ht
    case h_2 => exact h

@[simp] theorem State.wf_resumePost {r d id g hr} : (s.resumePost r d id g hr).mem.wf = true := by
  fun_cases State.resumePost <;> simp +zetaDelta [h]

theorem State.formed_resumePost {r d id g m} : (s.resumePost r d id g m).Formed := State.wf_resumePost h

@[simp] theorem State.wf_resumePosts {r} : (s.resumePosts r).mem.wf = true := by
  unfold State.resumePosts
  split
  · exact h
  · refine State.formed_foldl h fun t d ht => ?_
    split
    · exact ht
    · refine State.formed_foldl ht fun u p hu => ?_
      split
      · exact State.formed_resumePost hu
      · exact hu

@[simp] theorem State.wf_resumeRegion {f r} : (s.resumeRegion f r).mem.wf = true := by
  unfold State.resumeRegion
  split
  · exact h
  · dsimp only
    have h1 := fun {t : State} (ht : t.mem.wf = true) {qs r} =>
      State.wf_resumePosts (r := r) (State.wf_makeRestarts (qs := qs) ht)
    split
    · exact h1 (by simp [h])
    · exact State.wf_setRegionState (h1 (by simp [h]))

@[simp] theorem State.wf_resumeAll {f rs} : (s.resumeAll f rs).mem.wf = true := by
  fun_cases State.resumeAll <;> simp +contextual [State.wf_foldl, h]

@[simp] theorem State.wf_recallResumes {d cl r} : (s.recallResumes d cl r).mem.wf = true := by
  fun_cases State.recallResumes <;> simp [h]

@[simp] theorem State.wf_finishChoice {d cl r choice} : (s.finishChoice d cl r choice).mem.wf = true := by
  unfold State.finishChoice
  split
  · exact h
  · dsimp only
    refine State.wf_recallResumes (State.wf_preemptDone (State.wf_pausePosts (State.wf_setRegionState ?_)))
    rw [State.modPre_mem]
    split
    · exact State.wf_discardCluster h
    · exact State.wf_foldl _ _ h fun t c ht => State.wf_saveCore ht

@[simp] theorem wf_execCooperativeWindowEnd {d cl region} :
    Out.formed (execCooperativeWindowEnd d cl region s) = true := by
  unfold execCooperativeWindowEnd
  dsimp only
  repeat' split
  all_goals simp [h]

@[simp] theorem wf_execPreemptDrainComplete {d cl region} :
    Out.formed (execPreemptDrainComplete d cl region s) = true := by
  fun_cases execPreemptDrainComplete <;> simp [h]

@[simp] theorem wf_execRegionResume {region} : Out.formed (execRegionResume region s) = true := by
  fun_cases execRegionResume <;> simp [h]

@[simp] theorem wf_execRestartContinuationCreate {region} :
    Out.formed (execRestartContinuationCreate region s) = true := by
  fun_cases execRestartContinuationCreate <;> simp [h]

/-! ### World -/

@[simp] theorem State.wf_scrubDone {q} : (s.scrubDone q).mem.wf = true := by
  unfold State.scrubDone
  dsimp only
  refine State.wf_serve ?_
  rw [State.endMonitors_mem]
  refine State.wf_track (State.wf_foldl _ _ (State.wf_foldl _ _ ?_ fun t k ht => State.wf_writeBytes _ _ _ ht)
    fun t x ht => State.wf_setPoison _ _ (State.wf_setFull _ _ ht))
  exact State.wf_editDone (State.wf_scrubBytes _ _ (State.wf_editImages h))

@[simp] theorem State.wf_scrubRange {a n} : (s.scrubRange a n).mem.wf = true := by
  fun_cases State.scrubRange <;> simp [h]

@[simp] theorem State.wf_treatUnit {w key n u} : (s.treatUnit w key n u).mem.wf = true := by
  have h1 : (if extKind n = 1 then s.scrubRange (u * 2 ^ 20) (2 ^ 20)
      else if extKind n = 2 then s.encRaws u key else s).mem.wf = true := by
    split
    · exact State.wf_scrubRange h
    · split
      · exact State.wf_encRaws _ _ h
      · exact h
  exact Memory.wf_congr h1 rfl rfl rfl rfl

@[simp] theorem State.wf_treat {w key n} : (s.treat w key n).mem.wf = true := by
  unfold State.treat
  split
  · exact h
  · exact State.wf_foldl _ _ (State.wf_foldl _ _ h fun t q ht => State.wf_scrubDone ht)
      fun t i ht => State.wf_treatUnit ht

@[simp] theorem State.wf_fillDone {l w v} : (s.fillDone l w v).mem.wf = true := by fun_cases State.fillDone <;> simp [h]

@[simp] theorem State.wf_addRefused {t} : (s.addRefused t).mem.wf = true := by
  fun_cases State.addRefused <;> simp +contextual [State.wf_foldl, h]

@[simp] theorem State.wf_leaveTable {d c t} : (s.leaveTable d c t).mem.wf = true := by
  fun_cases State.leaveTable <;> simp [h]

@[simp] theorem wf_execHandlerTableLeave {d c lid} : Out.formed (execHandlerTableLeave d c lid s) = true := by
  fun_cases execHandlerTableLeave <;> simp [h]

@[simp] theorem State.wf_endRegion {r} : (s.endRegion r).mem.wf = true := by
  unfold State.endRegion
  simp +contextual [State.wf_keepKeys, State.wf_foldl, h]

theorem State.formed_addScrub {q : Scrub} : State.Formed { s with scrubs := s.scrubs ++ [q] } := h

@[simp] theorem State.wf_releaseGranules {rs} : (s.releaseGranules rs).mem.wf = true := by
  unfold State.releaseGranules
  exact State.formed_foldl h fun t g ht =>
    State.formed_addScrub (s := t.setOwner g.1 g.2.1 g.2.2 0) (State.wf_setOwner ht)

@[simp] theorem State.wf_retireWorld {w} : (s.retireWorld w).mem.wf = true := by
  unfold State.retireWorld
  split
  · exact h
  · refine Memory.wf_openUnits _ _ ?_
    exact State.wf_foldl _ _ h fun t q ht => State.wf_leaveTable ht

@[simp] theorem State.wf_endLaunch {lid l} : (s.endLaunch lid l).mem.wf = true := by
  fun_cases State.endLaunch
  next others lastOfWorld regs s₁ s₂ s₃ s₄ =>
    have h₁ : s₁.mem.wf = true := by
      dsimp only [s₁]
      split
      · exact State.wf_releaseGranules h
      · exact h
    have h₂ : s₂.mem.wf = true := by
      dsimp only [s₂]
      split
      · exact h₁
      · exact State.wf_endRegion h₁
    have h₄ : s₄.mem.wf = true := State.wf_foldl _ _ (show s₃.mem.wf = true from h₂) fun t d ht => by
      split
      · split <;> simp [ht]
      · exact ht
    refine State.wf_preemptDone ?_
    rw [State.prunePast_mem]
    split
    · exact State.wf_retireWorld h₄
    · exact h₄

@[simp] theorem State.wf_finishResets : s.finishResets.mem.wf = true := by
  refine State.wf_foldl _ _ h fun t p ht => ?_
  split
  · exact ht
  · exact State.wf_foldl _ _ ht fun u i hu => by simp [hu]

@[simp] theorem State.wf_reportWord {w sp a v} : (s.reportWord w sp a v).mem.wf = true := by
  fun_cases State.reportWord <;> simp [h]

@[simp] theorem State.wf_writeReport {w x kind cause a sp} : (s.writeReport w x kind cause a sp).mem.wf = true := by
  unfold State.writeReport
  split
  · exact h
  · dsimp only
    exact State.wf_foldl _ _ (State.wf_foldl _ _ (State.wf_reportWord (State.wf_reportWord h)) fun t i ht =>
      State.wf_reportWord ht) fun t p ht => State.wf_reportWord ht

@[simp] theorem wf_execTeardownReport {world} : Out.formed (execTeardownReport world s) = true := by
  unfold execTeardownReport
  dsimp only
  split
  · exact h
  · split
    · exact h
    · split
      · exact h
      · refine State.wf_finishResets (State.wf_foldl _ _ (State.wf_foldl _ _ ?_ fun t p ht => State.wf_fillDone ht)
          fun t p ht => State.wf_endLaunch ht)
        exact State.wf_retireSpaces (State.wf_foldl _ _ (State.wf_foldl _ _ h fun t q ht => State.wf_setField ht)
          fun t q ht => State.wf_writeReport ht)

/-! ### Launching -/

theorem State.formed_startRecall {k n} : (s.startRecall k n).Formed := by
  have hm := State.startRecall_mem (s := s) (slice := k) (deadline := n)
  generalize s.startRecall k n = t at hm
  exact (show t.mem.wf = true from hm ▸ h)

theorem State.wf_nextLaunch {r} (hr : s.nextLaunch = some r) : r.2.mem.wf = true := by
  unfold State.nextLaunch at hr
  split at hr
  · cases hr; exact h
  · split at hr
    · split at hr
      · exact nomatch hr
      · cases hr; exact h
    · exact nomatch hr

@[simp] theorem State.wf_refuseLaunch {k w done code} : (s.refuseLaunch k w done code).mem.wf = true := by
  unfold State.refuseLaunch
  repeat' split
  all_goals simp [h]

@[simp] theorem State.wf_admitLaunch {m w done a} : (s.admitLaunch m w done a).mem.wf = true := by
  unfold State.admitLaunch
  dsimp only
  split
  · simp [h]
  · split
    · simp [h]
    · split
      · refine State.formed_foldl h fun t k ht => ?_
        split
        · exact State.formed_startRecall ht
        · exact ht
      · exact h

@[simp] theorem wf_execLaunchMessage : Out.formed (execLaunchMessage s) = true := by
  unfold execLaunchMessage
  split
  · exact h
  case h_2 m t hm =>
    have ht : t.mem.wf = true := State.wf_nextLaunch h hm
    dsimp only
    repeat' split
    all_goals simp [ht]

@[simp] theorem State.wf_refuseOpening {lid l code} : (s.refuseOpening lid l code).mem.wf = true := by
  fun_cases State.refuseOpening <;> simp [h]

@[simp] theorem State.wf_newWorld {hr weight} : (s.newWorld hr weight).mem.wf = true := by
  exact State.wf_foldl _ _ h fun t e ht => State.wf_treat ht

@[simp] theorem State.wf_resetRcb {w r g} : (s.resetRcb w r g).mem.wf = true := by
  unfold State.resetRcb
  split
  · exact h
  · exact State.wf_setField (State.wf_setField (State.wf_setField h))

@[simp] theorem State.wf_acceptLaunch {lid l w g} : (s.acceptLaunch lid l w g).mem.wf = true := by
  unfold State.acceptLaunch
  simp [h]

@[simp] theorem State.wf_openFor {lid l g hr} : (s.openFor lid l g hr).mem.wf = true := by
  fun_cases State.openFor <;> simp +zetaDelta [h]

@[simp] theorem wf_execWorldOpen {lid} : Out.formed (execWorldOpen lid s) = true := by
  fun_cases execWorldOpen <;> simp +zetaDelta [h]

@[simp] theorem State.wf_makeItem {lid l} : (s.makeItem lid l).mem.wf = true := by
  unfold State.makeItem
  dsimp only
  repeat' split
  all_goals simp [h]

@[simp] theorem wf_execLaunchDependencesMet {lid} : Out.formed (execLaunchDependencesMet lid s) = true := by
  fun_cases execLaunchDependencesMet <;> simp [h]

@[simp] theorem wf_execItemCreation {lid} : Out.formed (execItemCreation lid s) = true := by
  fun_cases execItemCreation <;> simp [h]

@[simp] theorem wf_execLaunchCompletion {lid} : Out.formed (execLaunchCompletion lid s) = true := by
  fun_cases execLaunchCompletion <;> simp [h]

@[simp] theorem wf_execBudgetCharge {account} : Out.formed (execBudgetCharge account s) = true := by
  fun_cases execBudgetCharge <;> simp [h]

/-! ### Placement -/

@[simp] theorem State.wf_retestQueue {key} : (s.retestQueue key).mem.wf = true := by
  fun_cases State.retestQueue <;> simp +contextual [State.wf_foldl, h]

@[simp] theorem State.wf_prepareIssue : s.prepareIssue.formed = true := by
  have hp := State.wf_prepare h
  unfold State.prepareIssue
  generalize s.prepare = r at hp
  cases r with
  | stop t => exact hp
  | run i t =>
    have ht : t.mem.wf = true := hp
    dsimp only
    split
    · exact ht
    · split
      · exact ht
      · split
        · exact ht
        · split <;> simp [ht]

@[simp] theorem State.wf_firstPlaceable {d k ps} : (s.firstPlaceable d k ps).2.mem.wf = true := by
  induction ps generalizing s with
  | nil => exact h
  | cons p ps ih =>
    unfold State.firstPlaceable
    split
    · dsimp only
      split
      · simp [h]
      · exact ih (by simp [h])
    · exact ih h

@[simp] theorem State.wf_bringControl {uid d k} : (s.bringControl uid d k).mem.wf = true := by
  unfold State.bringControl
  split
  · exact h
  · split
    · simp [h]
    · split
      · exact h
      case h_2 t ht' =>
        have ht := State.wf_of_all (State.wf_lineRoom h) ht'
        split
        · exact ht
        · simp [ht]

@[simp] theorem State.wf_moveLines {uid d k} : (s.moveLines uid d k).mem.wf = true := by
  unfold State.moveLines
  dsimp only
  repeat' split
  all_goals simp [h]

@[simp] theorem State.wf_placeOn {uid d k n} : (s.placeOn uid d k n).mem.wf = true := by
  have h1 : (s.moveLines uid d k).mem.wf = true := State.wf_moveLines h
  have h2 : ∀ {c : Context} {f}, (((((((s.moveLines uid d k).settle c.region).startItem c).loadTable d k c.lid).modCtx
      uid f).bringControl uid d k).enterSlot uid d k n |>.restoreEngines uid d k).mem.wf = true := by
    intro c f
    rw [State.restoreEngines_mem, State.enterSlot_mem]
    exact State.wf_bringControl (by simp [h1])
  fun_cases State.placeOn
  case case1 => exact h1
  case case2 => exact h1
  case case3 => exact State.wf_takeFault (State.wf_writeRecord h2)
  case case4 => exact State.wf_writeRecord h2

@[simp] theorem wf_execContinuationPlacement {d c} : Out.formed (execContinuationPlacement d c s) = true := by
  unfold execContinuationPlacement
  dsimp only
  split
  · have h1 := fun ps => State.wf_firstPlaceable (s := s.retestQueue (clKey d.val (clusterOf c.val))) (by simp [h])
      (d := d.val) (k := c.val) (ps := ps)
    split <;> simp [h1]
  · exact h

@[simp] theorem wf_execStealContinuation {d victim c} : Out.formed (execStealContinuation d victim c s) = true := by
  unfold execStealContinuation
  dsimp only
  split
  · exact h
  · split
    · have h1 := fun ps => State.wf_firstPlaceable (s := s.retestQueue (clKey d.val victim.val)) (by simp [h])
        (d := d.val) (k := c.val) (ps := ps)
      split <;> simp [h1]
    · exact h

@[simp] theorem wf_execContinuationReady {uid} : Out.formed (execContinuationReady uid s) = true := by
  unfold execContinuationReady
  dsimp only
  repeat' split
  all_goals simp [h]

@[simp] theorem wf_execTaskDependenceMet {d cl k dep} : Out.formed (execTaskDependenceMet d cl k dep s) = true := by
  fun_cases execTaskDependenceMet <;> simp [h]

@[simp] theorem wf_execTaskDependenceRetest {d cl k dep} :
    Out.formed (execTaskDependenceRetest d cl k dep s) = true := by
  fun_cases execTaskDependenceRetest <;> simp [h]

@[simp] theorem State.wf_sendTask {r t c} : (s.sendTask r t c).mem.wf = true := by
  unfold State.sendTask
  dsimp only
  repeat' split
  all_goals simp [h]

@[simp] theorem wf_execTaskIssue {d cl k} : Out.formed (execTaskIssue d cl k s) = true := by
  fun_cases execTaskIssue <;> simp [h]

@[simp] theorem wf_execTaskDoneFill {d cl k} : Out.formed (execTaskDoneFill d cl k s) = true := by
  fun_cases execTaskDoneFill <;> simp [h]

/-! ### FloatScalar -/

@[simp] theorem wf_fLong2 {op ctl t d a b f} : Out.formed (fLong2 op ctl t d a b f s) = true := by
  fun_cases fLong2 <;> simp [h]

@[simp] theorem wf_fLong1 {op ctl t d a f} : Out.formed (fLong1 op ctl t d a f s) = true := by
  fun_cases fLong1 <;> simp [h]

@[simp] theorem wf_fShort2 {op ctl t d a b f} : Out.formed (fShort2 op ctl t d a b f s) = true := by
  fun_cases fShort2 <;> simp [h]

@[simp] theorem wf_execFadd {ctl f r d a b} : Out.formed (execFadd ctl f r d a b s) = true := by
  fun_cases execFadd <;> simp [h]

@[simp] theorem wf_execFsub {ctl f r d a b} : Out.formed (execFsub ctl f r d a b s) = true := by
  fun_cases execFsub <;> simp [h]

@[simp] theorem wf_execFmul {ctl f r d a b} : Out.formed (execFmul ctl f r d a b s) = true := by
  fun_cases execFmul <;> simp [h]

@[simp] theorem wf_execFfma {ctl f r d a b} : Out.formed (execFfma ctl f r d a b s) = true := by
  fun_cases execFfma <;> simp [h]

@[simp] theorem wf_execFdiv {ctl f r d a b} : Out.formed (execFdiv ctl f r d a b s) = true := by
  fun_cases execFdiv <;> simp [h]

@[simp] theorem wf_execFsqrt {ctl f r d a} : Out.formed (execFsqrt ctl f r d a s) = true := by
  fun_cases execFsqrt <;> simp [h]

@[simp] theorem wf_execFmin {ctl f d a b} : Out.formed (execFmin ctl f d a b s) = true := by
  fun_cases execFmin <;> simp [h]

@[simp] theorem wf_execFmax {ctl f d a b} : Out.formed (execFmax ctl f d a b s) = true := by
  fun_cases execFmax <;> simp [h]

@[simp] theorem wf_execFcmp {ctl f cond pd a b} : Out.formed (execFcmp ctl f cond pd a b s) = true := by
  fun_cases execFcmp <;> simp [h]

@[simp] theorem wf_execFcvt {ctl sat r d a src dst} : Out.formed (execFcvt ctl sat r d a src dst s) = true := by
  refine wf_issue h fun uid c t ht => ?_
  repeat' split
  all_goals simp [ht]

@[simp] theorem wf_execFclass {ctl f d a} : Out.formed (execFclass ctl f d a s) = true := by
  fun_cases execFclass <;> simp [h]

@[simp] theorem wf_execFrnd {ctl f r d a} : Out.formed (execFrnd ctl f r d a s) = true := by
  fun_cases execFrnd <;> simp [h]

/-! ### Integer -/

@[simp] theorem wf_shortOp {op ctl w d a b f} : Out.formed (shortOp op ctl w d a b f s) = true := by
  fun_cases shortOp <;> simp [h]

@[simp] theorem wf_longOp {op ctl w d a b f} : Out.formed (longOp op ctl w d a b f s) = true := by
  fun_cases longOp <;> simp [h]

@[simp] theorem wf_unaryOp {op ctl w d a f} : Out.formed (unaryOp op ctl w d a f s) = true := by
  fun_cases unaryOp <;> simp [h]

@[simp] theorem wf_execAdd {ctl w m d a b} : Out.formed (execAdd ctl w m d a b s) = true := by
  fun_cases execAdd <;> simp [h]

@[simp] theorem wf_execSub {ctl w m d a b} : Out.formed (execSub ctl w m d a b s) = true := by
  fun_cases execSub <;> simp [h]

@[simp] theorem wf_execMul {ctl w d a b} : Out.formed (execMul ctl w d a b s) = true := by
  fun_cases execMul <;> simp [h]

@[simp] theorem wf_execMulh {ctl w u d a b} : Out.formed (execMulh ctl w u d a b s) = true := by
  fun_cases execMulh <;> simp [h]

@[simp] theorem wf_execDiv {ctl w u d a b} : Out.formed (execDiv ctl w u d a b s) = true := by
  fun_cases execDiv <;> simp [h]

@[simp] theorem wf_execRem {ctl w u d a b} : Out.formed (execRem ctl w u d a b s) = true := by
  fun_cases execRem <;> simp [h]

@[simp] theorem wf_execAnd {ctl w d a b} : Out.formed (execAnd ctl w d a b s) = true := by
  fun_cases execAnd <;> simp [h]

@[simp] theorem wf_execOr {ctl w d a b} : Out.formed (execOr ctl w d a b s) = true := by fun_cases execOr <;> simp [h]

@[simp] theorem wf_execXor {ctl w d a b} : Out.formed (execXor ctl w d a b s) = true := by
  fun_cases execXor <;> simp [h]

@[simp] theorem wf_execAndn {ctl w d a b} : Out.formed (execAndn ctl w d a b s) = true := by
  fun_cases execAndn <;> simp [h]

@[simp] theorem wf_execShl {ctl w d a b} : Out.formed (execShl ctl w d a b s) = true := by
  fun_cases execShl <;> simp [h]

@[simp] theorem wf_execShr {ctl w d a b} : Out.formed (execShr ctl w d a b s) = true := by
  fun_cases execShr <;> simp [h]

@[simp] theorem wf_execSar {ctl w d a b} : Out.formed (execSar ctl w d a b s) = true := by
  fun_cases execSar <;> simp [h]

@[simp] theorem wf_execRol {ctl w d a b} : Out.formed (execRol ctl w d a b s) = true := by
  fun_cases execRol <;> simp [h]

@[simp] theorem wf_execMin {ctl w u d a b} : Out.formed (execMin ctl w u d a b s) = true := by
  fun_cases execMin <;> simp [h]

@[simp] theorem wf_execMax {ctl w u d a b} : Out.formed (execMax ctl w u d a b s) = true := by
  fun_cases execMax <;> simp [h]

@[simp] theorem wf_execClz {ctl w d a} : Out.formed (execClz ctl w d a s) = true := by fun_cases execClz <;> simp [h]

@[simp] theorem wf_execPopc {ctl w d a} : Out.formed (execPopc ctl w d a s) = true := by fun_cases execPopc <;> simp [h]

@[simp] theorem wf_execAddc {ctl w d a b} : Out.formed (execAddc ctl w d a b s) = true := by
  fun_cases execAddc <;> simp [h]

@[simp] theorem wf_execAbs {ctl w sat d a} : Out.formed (execAbs ctl w sat d a s) = true := by
  fun_cases execAbs <;> simp [h]

@[simp] theorem wf_execBswap {ctl w d a} : Out.formed (execBswap ctl w d a s) = true := by
  fun_cases execBswap <;> simp [h]

@[simp] theorem wf_execBext {ctl sx d a k} : Out.formed (execBext ctl sx d a k s) = true := by
  fun_cases execBext <;> simp [h]

@[simp] theorem wf_execBins {ctl w d a k} : Out.formed (execBins ctl w d a k s) = true := by
  fun_cases execBins <;> simp [h]

@[simp] theorem wf_execSel {ctl d a b} : Out.formed (execSel ctl d a b s) = true := by fun_cases execSel <;> simp [h]

@[simp] theorem wf_execMov {ctl v} : Out.formed (execMov ctl v s) = true := by fun_cases execMov <;> simp [h]

@[simp] theorem wf_execMovi {ctl d imm} : Out.formed (execMovi ctl d imm s) = true := by fun_cases execMovi <;> simp [h]

@[simp] theorem wf_execLea {ctl d v sc} : Out.formed (execLea ctl d v sc s) = true := by fun_cases execLea <;> simp [h]

@[simp] theorem wf_execCmp {ctl w cond pd a b} : Out.formed (execCmp ctl w cond pd a b s) = true := by
  fun_cases execCmp <;> simp [h]

@[simp] theorem wf_execPlog {ctl tt pd pa pb} : Out.formed (execPlog ctl tt pd pa pb s) = true := by
  fun_cases execPlog <;> simp [h]

@[simp] theorem wf_execPmov {ctl v} : Out.formed (execPmov ctl v s) = true := by fun_cases execPmov <;> simp [h]

@[simp] theorem wf_execSread {ctl d sp} : Out.formed (execSread ctl d sp s) = true := by
  fun_cases execSread <;> simp [h]

@[simp] theorem wf_execSwrite {ctl sp a} : Out.formed (execSwrite ctl sp a s) = true := by
  exact wf_issue h fun uid c t ht => by simp [ht]

/-! ### Partition -/

@[simp] theorem wf_execLaunchDoorbell {v} : Out.formed (execLaunchDoorbell v s) = true := by
  fun_cases execLaunchDoorbell <;> simp [h]

@[simp] theorem wf_execPartitionEntryWrite {p word v} : Out.formed (execPartitionEntryWrite p word v s) = true := by
  unfold execPartitionEntryWrite
  repeat' split
  all_goals simp [h]

@[simp] theorem wf_execDebugEntryWrite {k word v world trusted} :
    Out.formed (execDebugEntryWrite k word v world trusted s) = true := by
  fun_cases execDebugEntryWrite <;> simp [h]

@[simp] theorem wf_execRegisterWrite {a v trusted} : Out.formed (execRegisterWrite a v trusted s) = true := by
  fun_cases execRegisterWrite <;> simp [h]

@[simp] theorem State.wf_partCommand {op} {f : State → Nat → State}
    (hf : ∀ t n, t.mem.wf = true → (f t n).mem.wf = true) : (s.partCommand op f).formed = true := by
  unfold State.partCommand
  split
  · exact h
  · split
    · exact h
    · exact hf _ _ h

theorem State.formed_partCommand {op} {f : State → Nat → State} (hf : ∀ t n, t.Formed → (f t n).Formed) :
    (s.partCommand op f).formed = true := State.wf_partCommand h hf

theorem State.formed_partResult {v} : (s.partResult v).Formed := State.wf_partResult h

@[simp] theorem wf_execBadPartitionCommand : Out.formed (execBadPartitionCommand s) = true := by
  fun_cases execBadPartitionCommand <;> simp [h]

@[simp] theorem wf_execKill : Out.formed (execKill s) = true := by
  exact State.wf_partCommand h fun t n ht => by simp [ht]

@[simp] theorem wf_execScrub : Out.formed (execScrub s) = true := by
  unfold execScrub
  simp +contextual [h]

@[simp] theorem wf_execScrubComplete {k} : Out.formed (execScrubComplete k s) = true := by
  unfold execScrubComplete
  repeat' split
  all_goals simp [h]

@[simp] theorem wf_execPreempt : Out.formed (execPreempt s) = true := by
  unfold execPreempt
  simp +contextual [h]

@[simp] theorem wf_execResume : Out.formed (execResume s) = true := by
  refine State.wf_partCommand h fun t n ht => ?_
  dsimp only
  split
  · simp [ht]
  · exact State.wf_partResult (State.wf_preemptDone (State.wf_resumeAll ht))

@[simp] theorem wf_execLend : Out.formed (execLend s) = true := by
  refine State.formed_partCommand h fun t n ht => ?_
  extract_lets -underBinder slice q
  generalize t.lendTest slice q = r
  cases r with
  | error e => exact State.formed_partResult ht
  | ok p =>
    refine State.formed_partResult ?_
    exact ht

@[simp] theorem wf_execRecall : Out.formed (execRecall s) = true := by
  refine State.wf_partCommand h fun t n ht => ?_
  dsimp only
  repeat' split
  all_goals simp [ht]

@[simp] theorem State.wf_cutOff {uid} : (s.cutOff uid).mem.wf = true := by
  unfold State.cutOff
  repeat' split
  all_goals simp [h]

@[simp] theorem State.wf_listCut {slice cut r} : (s.listCut slice cut r).mem.wf = true := by
  unfold State.listCut
  split
  · exact h
  · exact State.wf_foldl _ _ h fun t c ht => State.wf_saveHeadOr ht

@[simp] theorem State.wf_cutSlice {slice} : (s.cutSlice slice).mem.wf = true := by
  unfold State.cutSlice
  dsimp only
  exact State.wf_makeRestarts (State.wf_foldl _ _ (State.wf_foldl _ _ h fun t u ht => State.wf_cutOff ht)
    fun t r ht => State.wf_listCut ht)

@[simp] theorem wf_execRecallDeadline {slice} : Out.formed (execRecallDeadline slice s) = true := by
  unfold execRecallDeadline
  dsimp only
  split
  · exact h
  · split
    · exact h
    · split
      · exact h
      · exact State.wf_cutSlice (State.wf_foldl _ _ h fun t p ht => State.wf_finishChoice ht)

@[simp] theorem wf_execReset : Out.formed (execReset s) = true := by
  refine State.formed_partCommand h fun t n ht => ?_
  refine State.wf_finishResets ?_
  have h1 := fun {l : List (Nat × Launch)} {t : State} (ht : t.mem.wf = true) => State.wf_foldl
    (fun (s : State) l => s.refuseOpening l.1 l.2 9) l ht fun t l ht => State.wf_refuseOpening ht
  have h2 := fun {l : List Nat} {t : State} (ht : t.mem.wf = true) => State.wf_foldl
    (fun (s : State) w => s.stopWorld w .reset 0) l ht fun t l ht => State.wf_stopWorld ht
  exact State.formed_foldl (h2 (h1 ht)) fun t l ht => State.formed_startRecall ht

@[simp] theorem State.wf_flushLines {uid} : (s.flushLines uid).mem.wf = true := by
  unfold State.flushLines
  dsimp only
  repeat' split
  all_goals simp [h]

@[simp] theorem State.wf_clearLocal {d c} : (s.clearLocal d c).mem.wf = true := by
  refine State.wf_scrubRange ?_
  exact Memory.wf_congr h rfl rfl rfl rfl

theorem State.formed_clearLocal {d c} : (s.clearLocal d c).Formed := State.wf_clearLocal h

@[simp] theorem State.wf_initSlice {slice} : (s.initSlice slice).mem.wf = true := by
  unfold State.initSlice
  dsimp only
  rw [State.modCluster_mem]
  refine State.formed_foldl (State.wf_foldl _ _ h fun t u ht => State.wf_flushLines ht) fun t c ht => ?_
  refine State.formed_clearLocal ?_
  rw [State.setCore_mem]
  exact State.wf_foldl _ _ ht fun u k hu => State.wf_leaveTable hu

@[simp] theorem State.wf_sliceBack {slice} : (s.sliceBack slice).mem.wf = true := by
  unfold State.sliceBack
  split
  · exact h
  · refine State.wf_foldl _ _ ?_ fun t i ht => by simp [ht]
    exact State.wf_preemptDone (State.wf_resumeAll (by simp [h]))

theorem State.wf_withCycling {l} : ({ s with cycling := l } : State).mem.wf = true := h

@[simp] theorem wf_execPowerCycleComplete {slice} : Out.formed (execPowerCycleComplete slice s) = true := by
  unfold execPowerCycleComplete
  extract_lets -underBinder k
  split
  · exact h
  · exact State.wf_finishResets (State.wf_sliceBack (State.wf_withCycling (State.wf_initSlice h)))
  · split
    · exact h
    · exact State.wf_finishResets (State.wf_withCycling (State.wf_initSlice
        (State.wf_foldl _ _ h fun t u ht => State.wf_cutOff ht)))

/-! ### Power -/

@[simp] theorem State.wf_packageReset {cause} : (s.packageReset cause).mem.wf = true := by
  unfold State.packageReset
  refine Memory.wf_keepFrom _ (Memory.wf_foldl _ _ (Memory.wf_foldl _ _ h fun m p hm => ?_) fun m w hm => ?_)
  · exact Memory.wf_setCells _ _ hm
  · exact Memory.wf_openUnits _ _ hm

@[simp] theorem wf_execPowerOnReset {cause good cxl deadPorts} :
    Out.formed (execPowerOnReset cause good cxl deadPorts s) = true := by
  unfold execPowerOnReset
  dsimp only
  repeat' split
  all_goals simp [h]

@[simp] theorem wf_execRailFault {rail millivolts} : Out.formed (execRailFault rail millivolts s) = true := by
  unfold execRailFault
  repeat' split
  all_goals simp [h]

@[simp] theorem wf_execThermalReading {d t} : Out.formed (execThermalReading d t s) = true := by
  fun_cases execThermalReading <;> simp [h]

@[simp] theorem State.wf_systemWrite {f} {g : State → State} (hg : ∀ t, t.mem.wf = true → (g t).mem.wf = true) :
    (s.systemWrite f g).formed = true := by
  unfold State.systemWrite
  split
  · exact h
  · split
    · exact hg _ h
    · exact h

@[simp] theorem State.wf_fallAsleep : s.fallAsleep.mem.wf = true := by
  exact Memory.wf_keepFrom _ (State.wf_foldl _ _ h fun t p ht => State.wf_flushLines ht)

@[simp] theorem wf_execSleepRequest : Out.formed (execSleepRequest s) = true := by
  unfold execSleepRequest
  simp +contextual [h]

@[simp] theorem wf_execWake : Out.formed (execWake s) = true := by
  unfold execWake
  simp +contextual [h]

@[simp] theorem wf_execRecoveryReload {good cxl deadPorts} :
    Out.formed (execRecoveryReload good cxl deadPorts s) = true := by
  fun_cases execRecoveryReload <;> simp [h]

/-! ### Spaces -/

@[simp] theorem wf_execMap {ctl xs m t} : Out.formed (execMap ctl xs m t s) = true := by
  refine wf_issue h fun uid c t ht => ?_
  split <;> simp [ht]

@[simp] theorem wf_execGrant {ctl xs m t} : Out.formed (execGrant ctl xs m t s) = true := by
  refine wf_issue h fun uid c t ht => ?_
  repeat' split
  all_goals simp +contextual [ht]

@[simp] theorem wf_execUnmap {ctl xs xa t} : Out.formed (execUnmap ctl xs xa t s) = true := by
  refine wf_issue h fun uid c t ht => ?_
  split <;> simp [ht]

@[simp] theorem wf_execProbe {ctl xs xa t} : Out.formed (execProbe ctl xs xa t s) = true := by
  refine wf_issue h fun uid c t ht => ?_
  split <;> simp [ht]

@[simp] theorem wf_execSpace {ctl xs g} : Out.formed (execSpace ctl xs g s) = true := by
  refine wf_issue h fun uid c t ht => ?_
  split <;> simp [ht]

@[simp] theorem wf_execRetiresp {ctl xs t} : Out.formed (execRetiresp ctl xs t s) = true := by
  refine wf_issue h fun uid c t ht => ?_
  split <;> simp [ht]

@[simp] theorem wf_execMovepg {ctl xs xsrc xdst} : Out.formed (execMovepg ctl xs xsrc xdst s) = true := by
  refine wf_issue h fun uid c t ht => ?_
  dsimp only
  repeat' split
  all_goals simp [ht]

@[simp] theorem State.wf_switchPage {w pairs} : (s.switchPage w pairs).mem.wf = true := by
  unfold State.switchPage
  refine State.wf_foldl _ _ ?_ fun t q ht => by simp [ht]
  rw [State.l1Unwatch_mem]
  exact State.wf_foldl _ _ h fun t q ht => State.wf_swapMem _ _ ht

@[simp] theorem wf_execMovepgSwitch {k} : Out.formed (execMovepgSwitch k s) = true := by
  fun_cases execMovepgSwitch <;> simp [h]

@[simp] theorem State.wf_hostTree {op} {f : State → Nat → Nat → Sink → State}
    (hf : ∀ t a b k, t.mem.wf = true → (f t a b k).mem.wf = true) : (s.hostTree op f).formed = true := by
  unfold State.hostTree
  split
  · split
    · exact h
    · exact hf _ _ _ _ (by simp [h])
  · exact h

@[simp] theorem State.wf_sinkOpt {k v} : (s.sinkOpt k v).mem.wf = true := by fun_cases State.sinkOpt <;> simp [h]

@[simp] theorem wf_execHostMap : Out.formed (execHostMap s) = true := by
  refine State.wf_hostTree h fun t a b k ht => ?_
  split <;> simp [ht]

@[simp] theorem wf_execHostGrant : Out.formed (execHostGrant s) = true := by
  refine State.wf_hostTree h fun t a b k ht => ?_
  split <;> simp [ht]

@[simp] theorem wf_execHostUnmap : Out.formed (execHostUnmap s) = true := by
  exact State.wf_hostTree h fun t a b k ht => by simp [ht]

@[simp] theorem wf_execHostProbe : Out.formed (execHostProbe s) = true := by
  unfold execHostProbe
  simp +contextual [h]

@[simp] theorem wf_execHostSpace : Out.formed (execHostSpace s) = true := by
  unfold execHostSpace
  simp +contextual [h]

@[simp] theorem wf_execHostRetiresp : Out.formed (execHostRetiresp s) = true := by
  exact State.wf_hostTree h fun t a b k ht => by simp [ht]

@[simp] theorem wf_execBadTreeCommand : Out.formed (execBadTreeCommand s) = true := by
  fun_cases execBadTreeCommand <;> simp [h]

/-! ### Spdm -/

@[simp] theorem State.wf_spdm {k r} : Out.formed (s.spdm k r) = true := by fun_cases State.spdm <;> simp [h]

@[simp] theorem wf_execGetVersion {r} : Out.formed (execGetVersion r s) = true := by
  fun_cases execGetVersion <;> simp [h]

@[simp] theorem wf_execGetCapabilities {r} : Out.formed (execGetCapabilities r s) = true := by
  fun_cases execGetCapabilities <;> simp [h]

@[simp] theorem wf_execNegotiateAlgorithms {r} : Out.formed (execNegotiateAlgorithms r s) = true := by
  fun_cases execNegotiateAlgorithms <;> simp [h]

@[simp] theorem wf_execGetDigests {r} : Out.formed (execGetDigests r s) = true := by
  fun_cases execGetDigests <;> simp [h]

@[simp] theorem wf_execGetCertificate {r} : Out.formed (execGetCertificate r s) = true := by
  fun_cases execGetCertificate <;> simp [h]

@[simp] theorem wf_execChallenge {r} : Out.formed (execChallenge r s) = true := by fun_cases execChallenge <;> simp [h]

@[simp] theorem wf_execGetMeasurements {r} : Out.formed (execGetMeasurements r s) = true := by
  fun_cases execGetMeasurements <;> simp [h]

@[simp] theorem wf_execKeyExchange {r} : Out.formed (execKeyExchange r s) = true := by
  fun_cases execKeyExchange <;> simp [h]

@[simp] theorem wf_execFinish {r} : Out.formed (execFinish r s) = true := by fun_cases execFinish <;> simp [h]

@[simp] theorem wf_execHeartbeat {r} : Out.formed (execHeartbeat r s) = true := by fun_cases execHeartbeat <;> simp [h]

@[simp] theorem wf_execEndSession {r} : Out.formed (execEndSession r s) = true := by
  fun_cases execEndSession <;> simp [h]

@[simp] theorem wf_execKeyImport {r} : Out.formed (execKeyImport r s) = true := by fun_cases execKeyImport <;> simp [h]

@[simp] theorem wf_execUnsupportedSpdmRequest {r} : Out.formed (execUnsupportedSpdmRequest r s) = true := by
  fun_cases execUnsupportedSpdmRequest <;> simp [h]

/-! ### Vector -/

@[simp] theorem State.wf_vecCmd {uid c dests job} : (s.vecCmd uid c dests job).formed = true := by
  unfold State.vecCmd
  dsimp only
  repeat' split
  all_goals simp [h]

@[simp] theorem wf_execVectorCommandStart {d c} : Out.formed (execVectorCommandStart d c s) = true := by
  unfold execVectorCommandStart
  repeat' split
  all_goals simp [h]

@[simp] theorem wf_vec2 {op ctl t d a b f} : Out.formed (vec2 op ctl t d a b f s) = true := by
  exact wf_issue h fun uid c t ht => by simp [ht]

@[simp] theorem wf_vec1 {op ctl d a f} : Out.formed (vec1 op ctl d a f s) = true := by
  exact wf_issue h fun uid c t ht => by simp [ht]

@[simp] theorem wf_vecApprox {op ctl d a f} : Out.formed (vecApprox op ctl d a f s) = true := by
  fun_cases vecApprox <;> simp [h]

@[simp] theorem wf_execVadd {ctl t d a b} : Out.formed (execVadd ctl t d a b s) = true := by
  fun_cases execVadd <;> simp [h]

@[simp] theorem wf_execVsub {ctl t d a b} : Out.formed (execVsub ctl t d a b s) = true := by
  fun_cases execVsub <;> simp [h]

@[simp] theorem wf_execVmul {ctl t d a b} : Out.formed (execVmul ctl t d a b s) = true := by
  fun_cases execVmul <;> simp [h]

@[simp] theorem wf_execVfma {ctl t d a b} : Out.formed (execVfma ctl t d a b s) = true := by
  exact wf_issue h fun uid c t ht => by simp [ht]

@[simp] theorem wf_execVmin {ctl t d a b} : Out.formed (execVmin ctl t d a b s) = true := by
  fun_cases execVmin <;> simp [h]

@[simp] theorem wf_execVmax {ctl t d a b} : Out.formed (execVmax ctl t d a b s) = true := by
  fun_cases execVmax <;> simp [h]

@[simp] theorem wf_execVabs {ctl t d a} : Out.formed (execVabs ctl t d a s) = true := by fun_cases execVabs <;> simp [h]

@[simp] theorem wf_execVcmp {ctl t d a b} : Out.formed (execVcmp ctl t d a b s) = true := by
  fun_cases execVcmp <;> simp [h]

@[simp] theorem wf_execVsel {ctl t d a b} : Out.formed (execVsel ctl t d a b s) = true := by
  exact wf_issue h fun uid c t ht => by simp [ht]

@[simp] theorem wf_execVand {ctl t d a b} : Out.formed (execVand ctl t d a b s) = true := by
  fun_cases execVand <;> simp [h]

@[simp] theorem wf_execVor {ctl t d a b} : Out.formed (execVor ctl t d a b s) = true := by
  fun_cases execVor <;> simp [h]

@[simp] theorem wf_execVxor {ctl t d a b} : Out.formed (execVxor ctl t d a b s) = true := by
  fun_cases execVxor <;> simp [h]

@[simp] theorem wf_execVshl {ctl t d a b} : Out.formed (execVshl ctl t d a b s) = true := by
  fun_cases execVshl <;> simp [h]

@[simp] theorem wf_execVshr {ctl t d a b} : Out.formed (execVshr ctl t d a b s) = true := by
  fun_cases execVshr <;> simp [h]

@[simp] theorem wf_execVcvt {ctl t d a k} : Out.formed (execVcvt ctl t d a k s) = true := by
  unfold execVcvt
  dsimp only
  refine wf_issue h fun uid c t ht => ?_
  split
  · simp [ht]
  · split <;> simp [ht]

@[simp] theorem wf_execVrcpa {ctl d a} : Out.formed (execVrcpa ctl d a s) = true := by fun_cases execVrcpa <;> simp [h]

@[simp] theorem wf_execVrsqa {ctl d a} : Out.formed (execVrsqa ctl d a s) = true := by fun_cases execVrsqa <;> simp [h]

@[simp] theorem wf_execVexp2a {ctl d a} : Out.formed (execVexp2a ctl d a s) = true := by
  fun_cases execVexp2a <;> simp [h]

@[simp] theorem wf_execVlog2a {ctl d a} : Out.formed (execVlog2a ctl d a s) = true := by
  fun_cases execVlog2a <;> simp [h]

@[simp] theorem wf_execVred {ctl t d a op} : Out.formed (execVred ctl t d a op s) = true := by
  fun_cases execVred <;> simp [h]

@[simp] theorem wf_execVscan {ctl t d a op} : Out.formed (execVscan ctl t d a op s) = true := by
  fun_cases execVscan <;> simp [h]

@[simp] theorem wf_execVperm {ctl t d a b} : Out.formed (execVperm ctl t d a b s) = true := by
  exact wf_issue h fun uid c t ht => by simp [ht]

@[simp] theorem wf_execVbcast {ctl t d a k} : Out.formed (execVbcast ctl t d a k s) = true := by
  exact wf_issue h fun uid c t ht => by simp [ht]

@[simp] theorem wf_execVsplat {ctl t d a} : Out.formed (execVsplat ctl t d a s) = true := by
  exact wf_issue h fun uid c t ht => by simp [ht]

@[simp] theorem wf_execVextr {ctl t d a k} : Out.formed (execVextr ctl t d a k s) = true := by
  exact wf_issue h fun uid c t ht => by simp [ht]

@[simp] theorem wf_execVamax {ctl t d a} : Out.formed (execVamax ctl t d a s) = true := by
  fun_cases execVamax <;> simp [h]

@[simp] theorem wf_execVqnt {ctl t d a k} : Out.formed (execVqnt ctl t d a k s) = true := by
  unfold execVqnt
  dsimp only
  refine wf_issue h fun uid c t ht => ?_
  split
  · simp [ht]
  · split <;> simp [ht]

@[simp] theorem wf_execVdqnt {ctl t d a k} : Out.formed (execVdqnt ctl t d a k s) = true := by
  unfold execVdqnt
  simp +contextual [h]

@[simp] theorem wf_execVdot {ctl t d a b} : Out.formed (execVdot ctl t d a b s) = true := by
  exact wf_issue h fun uid c t ht => by simp [ht]

@[simp] theorem wf_execVmov {ctl t d a} : Out.formed (execVmov ctl t d a s) = true := by fun_cases execVmov <;> simp [h]

end Sys2Proof.Machine
end

section
/-! Every step keeps the canonical form of memory: every instruction and event does, and the issue cycle and the
environment are made of them. -/

namespace Sys2Proof.Machine

section
variable {s : State} (h : s.mem.wf = true)
include h

theorem wf_exec {i : Instr} : Out.formed (exec i s) = true := by
  unfold exec
  split <;> simp [h]

theorem wf_runIssued : Out.formed (runIssued s) = true := by
  have hp := State.wf_prepareIssue h
  unfold runIssued
  generalize s.prepareIssue = r at hp
  cases r with
  | stop t => exact hp
  | run i t => exact wf_exec (s := t) hp

theorem State.wf_undoSelect {u t d c} : (s.undoSelect u t d c).mem.wf = true := by
  rw [State.undoSelect_mem]
  exact h

theorem wf_setAside {d c us} : (setAside d c us s).mem.wf = true := by
  induction us generalizing s with
  | nil => exact h
  | cons u us ih =>
    have hr := wf_runIssued (s := { s with issuing := u }) h
    unfold setAside
    generalize runIssued { s with issuing := u } = r at hr
    cases r with
    | next t =>
      refine ih ?_
      split
      · exact h
      · exact State.wf_undoSelect hr
    | fault f => exact ih h
    | refused f => exact ih h

theorem wf_readyOnly {d c} : (readyOnly d c s).mem.wf = true := by
  unfold readyOnly
  dsimp only
  split
  · exact h
  · exact wf_setAside h

theorem wf_issueTry {d c n} : Out.formed (issueTry d c n s) = true := by
  induction n generalizing s with
  | zero => simp [issueTry, h]
  | succ n ih =>
    have hc := wf_exec h (i := .issueCycle d c)
    unfold issueTry
    generalize exec (.issueCycle d c) s = r at hc
    cases r with
    | fault f => rfl
    | refused f => rfl
    | next t =>
      dsimp only
      split
      · exact (congrArg Memory.wf State.endCycle_mem).trans hc
      · have hr := wf_runIssued (s := t) hc
        generalize runIssued t = r at hr
        cases r with
        | fault f => rfl
        | refused f => rfl
        | next u =>
          dsimp only
          split
          · exact (congrArg Memory.wf State.endCycle_mem).trans hr
          · exact ih (State.wf_undoSelect hr)

theorem wf_perform {a} : Out.formed (perform a s) = true := by
  fun_cases perform
  case case1 d c => exact wf_issueTry (s := readyOnly d c s) (wf_readyOnly h)
  case case2 => exact wf_exec h
  case case3 => rw [Out.formed_next]; exact h
  case case4 => exact State.wf_environ h

theorem State.wf_withAgenda {l} : ({ s with agenda := l } : State).mem.wf = true := h

theorem wf_step : Out.formed (step s) = true := by
  unfold step
  split
  · exact wf_perform (State.wf_withAgenda h)
  · exact wf_perform (by rw [State.turned_mem]; exact h)

end

/-! ## O59 -/

/-- Settles O59: every instruction, event and action of the environment keeps the form (`wf_exec`,
`State.wf_environ`), and a step performs one action (`wf_step`). -/
theorem stepKeepsMemoryForm : Obligations.StepKeepsMemoryForm := by
  unfold Obligations.StepKeepsMemoryForm
  intro s t h ht
  have hs := wf_step h
  rw [ht] at hs
  exact hs

end Sys2Proof.Machine
end

section
/-! Proofs about plain stores that drain to open memory of a die (R163, R176), and O37. -/

namespace Sys2Proof.Machine

/-! ## What a store changes beside memory -/

/-- `t` is `s` but for cores and scrubs: both translate and protect alike, and have the same contexts. -/
def State.sameLayout (s t : State) : Prop := t = { s with cores := t.cores, scrubs := t.scrubs }

theorem State.sameLayout.trans {s t u : State} (h : s.sameLayout t) (h' : t.sameLayout u) : s.sameLayout u := by
  unfold State.sameLayout at *
  rw [h', h]

theorem State.sameLayout.imageHits {s t : State} (h : s.sameLayout t) (c : Context) (a n : Nat) :
    t.imageHits c a n = s.imageHits c a n := by
  rw [h]
  rfl

theorem State.sameLayout.mem {s t : State} (h : s.sameLayout t) : t.mem = s.mem := by
  rw [h]

theorem State.sameLayout.liveRcbs {s t : State} (h : s.sameLayout t) : t.liveRcbs = s.liveRcbs := by
  rw [h]
  rfl

theorem State.sameLayout_l1Home (s : State) (by_ : Option Nat) (a : Nat) (write : Bool) :
    s.sameLayout (s.l1Home by_ a write) := by
  unfold State.l1Home
  split <;> rfl

theorem State.sameLayout_l1Write (s : State) (d c : Nat) (loc : BitVec 2) (a : Nat) :
    s.sameLayout (s.l1Write d c loc a) := by
  unfold State.l1Write
  split
  · exact s.sameLayout_l1Home _ _ _
  · rfl

theorem State.sameLayout_l1Each {f : State → Nat → State} (hf : ∀ (s : State) l, s.sameLayout (f s l)) (s : State)
    (parts : List (Nat × Nat)) : s.sameLayout (s.l1Each parts f) := by
  unfold State.l1Each
  generalize parts.flatMap (fun p => linesOf p.1 p.2) = ls
  induction ls generalizing s with
  | nil => rfl
  | cons l ls ih => exact (hf s l).trans (ih (f s l))

theorem State.sameLayout_overtake (s : State) (w a n : Nat) : s.sameLayout (s.overtake w a n) := by
  unfold State.overtake
  split <;> rfl

/-- `t` is `s` but for contexts, cores, dies, worlds, scrubs, what has been told of monitors, and poison: the bytes of
memory and the full-empty bits are the same. -/
def State.sameBytes (s t : State) : Prop :=
  t = { s with ctxs := t.ctxs, cores := t.cores, dies := t.dies, worlds := t.worlds, scrubs := t.scrubs,
               remoteMons := t.remoteMons, router := t.router, mem := { s.mem with poisons := t.mem.poisons } }

theorem State.sameBytes.trans {s t u : State} (h : s.sameBytes t) (h' : t.sameBytes u) : s.sameBytes u := by
  unfold State.sameBytes at *
  rw [h', h]

theorem State.sameLayout.sameBytes {s t : State} (h : s.sameLayout t) : s.sameBytes t := by
  unfold State.sameLayout at h
  unfold State.sameBytes
  rw [h]

theorem State.sameBytes.cell {s t : State} (h : s.sameBytes t) (a : Nat) : t.mem.cell a = s.mem.cell a := by
  rw [h]
  rfl

theorem State.sameBytes.isFull {s t : State} (h : s.sameBytes t) (a : Nat) : t.isFull a = s.isFull a := by
  rw [h]
  rfl

theorem State.sameBytes.retry {s t : State} (h : s.sameBytes t) : t.retry = s.retry := by
  rw [h]

theorem State.sameBytes.masters {s t : State} (h : s.sameBytes t) : t.masters = s.masters := by
  rw [h]

theorem State.sameBytes_foldl {α : Type} {f : State → α → State} {l : List α} {s : State}
    (hf : ∀ t x, State.sameBytes t (f t x)) : s.sameBytes (l.foldl f s) := by
  induction l generalizing s with
  | nil => rfl
  | cons x l ih => exact (hf s x).trans ih

theorem State.sameBytes_setPoison (s : State) (a : Nat) (p : Bool) : s.sameBytes (s.setPoison a p) := rfl

theorem State.sameBytes_modCtx (s : State) (uid : Nat) (f : Context → Context) : s.sameBytes (s.modCtx uid f) := rfl

theorem State.sameBytes_notePage (s : State) (w a : Nat) : s.sameBytes (s.notePage w a) := by
  unfold State.notePage
  split
  case h_1 | h_2 | h_3 => split <;> rfl
  case h_4 => rfl

theorem State.sameBytes_editDone (s : State) (a n : Nat) : s.sameBytes (s.editDone a n) :=
  State.sameBytes_foldl fun t p => by
    dsimp only
    split <;> rfl

theorem State.sameBytes_uncount (s : State) (t : Taker) : s.sameBytes (s.uncount t) := by
  cases t <;> rfl

theorem State.sameBytes_endMonitors (s : State) (a n : Nat) : s.sameBytes (s.endMonitors a n) := by
  refine State.sameBytes.trans ?_ (State.sameBytes_foldl fun t x => t.sameBytes_uncount x)
  rfl

theorem State.sameBytes_reap (s : State) (uid : Nat) : s.sameBytes (s.reap uid) := by
  unfold State.reap
  split
  · split <;> rfl
  · rfl

/-! ## A store to open memory of a die (R163, R176) -/

theorem foldl_fixed_of_mem {σ α : Type} {f : σ → α → σ} {s : σ} {l : List α} (h : ∀ x ∈ l, f s x = s) :
    l.foldl f s = s := by
  induction l with
  | nil => rfl
  | cons x l ih =>
    rw [List.foldl_cons, h x List.mem_cons_self]
    exact ih fun y hy => h y (List.mem_cons_of_mem _ hy)

theorem State.editImages_of_no_hits {s : State} {a n : Nat} (h : ∀ q ∈ s.ctxs, s.imageHits q.2 a n = []) :
    s.editImages a n = s :=
  foldl_fixed_of_mem fun q hq => by simp [h q hq]

/-- Memory of a die is no pool memory (R388). -/
theorem State.notePool_below {s : State} {a n : Nat} (h : a + n ≤ cxlBase) : s.notePool a n = s :=
  foldl_fixed_of_mem fun l hl => by
    have hpool := s.isPool_eq_false (Nat.lt_of_lt_of_le (lt_of_mem_linesOf hl) h)
    simp [State.dirtyPool, State.fetchPool, hpool]

/-- Outside of the records of live regions a store keeps no byte (R367). -/
theorem State.keepRo_outside {s : State} {a : Nat} (h : ∀ r ∈ s.liveRcbs, a < r ∨ r + 256 ≤ a) (w : Nat) (b : Byte) :
    s.keepRo w a b = b := by
  unfold State.keepRo
  split
  case h_1 r hr =>
    have hin := List.find?_some hr
    have hout := h r (List.mem_of_find?_eq_some hr)
    simp [within] at hin
    omega
  case h_2 => rfl

theorem State.map_keepRo_outside {s : State} {a : Nat} {bs : List Byte}
    (h : ∀ r ∈ s.liveRcbs, a + bs.length ≤ r ∨ r + 256 ≤ a) (w : Nat) :
    (bs.zipIdx.map fun p => s.keepRo w (a + p.2) p.1) = bs := by
  refine List.ext_getElem (by simp) fun i hi hb => ?_
  rw [List.getElem_map, List.getElem_zipIdx]
  exact State.keepRo_outside (fun r hr => by have := h r hr; simp; omega) w _

theorem ite_ne_of_ne {α : Type} {p : Prop} [Decidable p] {x y z : α} (hx : x ≠ z) (hy : y ≠ z) :
    (if p then x else y) ≠ z := by
  split
  · exact hx
  · exact hy

/-- The local memories end below every other memory (R156). -/
theorem State.homeOf_ne_local (s : State) {a : Nat} (h : localBase + 2 ^ 31 ≤ a) (d c : Nat) :
    s.homeOf a ≠ .local d c := by
  unfold State.homeOf
  rw [if_neg (by omega), if_neg (by omega)]
  repeat' refine ite_ne_of_ne ?_ ?_
  all_goals exact Home.noConfusion

/-- No key stands between a world and memory of no unit that a key protects (R372). -/
theorem State.isPlain_of_unprotected {s : State} (hprot : s.mem.prot = []) {a : Nat} (h : localBase + 2 ^ 31 ≤ a)
    (w : Nat) : s.isPlain w a = true := by
  have hp : s.protOf a = (0, []) := by
    unfold State.protOf
    split
    case h_1 d c hl => exact absurd hl (s.homeOf_ne_local h d c)
    case h_2 | h_3 | h_4 => rw [hprot]; rfl
    case h_5 => rfl
  simp [State.isPlain, hp]

theorem State.serve_idle {s : State} (h : s.retry = []) (a n : Nat) : s.serve a n = s := by
  simp [State.serve, h, State.serveLoop, State.nextServable]

/-- A store whose bytes no image, record, master or key concerns writes them in place: beside them only poison and what
is no memory changes. -/
theorem State.storeAt_open {s : State} {w a : Nat} {bs : List Byte}
    (himg : ∀ q ∈ s.ctxs, s.imageHits q.2 a bs.length = [])
    (hrcb : ∀ r ∈ s.liveRcbs, a + bs.length ≤ r ∨ r + 256 ≤ a) (hlow : localBase + 2 ^ 31 ≤ a)
    (hhigh : a + bs.length ≤ cxlBase) (hprot : s.mem.prot = []) (hmasters : s.masters = []) :
    ∃ v, ((s.overtake w a bs.length).storedAt a bs v).sameBytes (s.storeAt w a bs none) := by
  have hlay := s.sameLayout_overtake w a bs.length
  unfold State.storeAt
  dsimp only
  generalize s.overtake w a bs.length = u at hlay
  have hctxs : u.ctxs = s.ctxs := by rw [hlay]
  have hedit : u.editImages a bs.length = u :=
    State.editImages_of_no_hits fun q hq => (hlay.imageHits q.2 a bs.length).trans (himg q (hctxs ▸ hq))
  have hprot' : u.mem.prot = [] := hlay.sameBytes ▸ hprot
  obtain ⟨v, hv⟩ := State.writeBytes_of_isPlain (s := u) (w := w) (a := a) (bs := bs)
    fun i _ => State.isPlain_of_unprotected hprot' (by omega) w
  refine ⟨v, ?_⟩
  rw [hedit, State.notePool_below hhigh, State.map_keepRo_outside (hlay.liveRcbs ▸ hrcb), hv]
  have hpois : (u.storedAt a bs v).sameBytes ((wholeWords a bs.length).foldl (fun s x => s.setPoison x false)
      (u.storedAt a bs v)) := State.sameBytes_foldl fun t x => t.sameBytes_setPoison x false
  generalize (wholeWords a bs.length).foldl (fun s x => s.setPoison x false) (u.storedAt a bs v) = t at hpois
  have htrack : t.track a bs.length = t := by
    have hm : t.masters = [] := by rw [hpois.masters, ← hmasters, hlay]; rfl
    rw [State.track, hm, List.foldl_nil]
  rw [htrack]
  exact hpois.trans ((t.sameBytes_notePage w a).trans ((State.sameBytes_editDone _ _ _).trans
    (State.sameBytes_endMonitors _ _ _)))

/-- Where no access waits, such a store serves none after it (R168). -/
theorem State.store_open {s : State} {w a : Nat} {bs : List Byte}
    (himg : ∀ q ∈ s.ctxs, s.imageHits q.2 a bs.length = [])
    (hrcb : ∀ r ∈ s.liveRcbs, a + bs.length ≤ r ∨ r + 256 ≤ a) (hlow : localBase + 2 ^ 31 ≤ a)
    (hhigh : a + bs.length ≤ cxlBase) (hprot : s.mem.prot = []) (hmasters : s.masters = []) (hretry : s.retry = []) :
    ∃ u v, s.sameLayout u ∧ (u.storedAt a bs v).sameBytes (s.store w a bs none) := by
  have hlay := s.sameLayout_overtake w a bs.length
  obtain ⟨v, hv⟩ := State.storeAt_open (w := w) himg hrcb hlow hhigh hprot hmasters
  refine ⟨_, v, hlay, ?_⟩
  rw [State.store, State.serve_idle (hv.retry.trans (hlay.sameBytes.retry.trans hretry))]
  exact hv

/-- An address has its home in a vault or in DRAM. -/
def State.homeInVaultOrDram (s : State) (a : Nat) : Prop :=
  (∃ d c, s.homeOf a = .vault d c) ∨ ∃ d, s.homeOf a = .dram d

theorem State.homeInVaultOrDram.bounds {s : State} {a : Nat} (h : s.homeInVaultOrDram a) :
    localBase + 2 ^ 31 ≤ a ∧ a < dramBase + 2 ^ 39 := by
  constructor
  · by_contra hlt
    have hlocal : s.homeOf a = .nowhere ∨ ∃ d c, s.homeOf a = .local d c := by
      by_cases hb : a < localBase
      · exact .inl (if_pos hb)
      · exact .inr ⟨_, _, (if_neg hb).trans (if_pos (by omega))⟩
    obtain ⟨d, c, hh⟩ | ⟨d, hh⟩ := h <;> simp [hh] at hlocal
  · by_contra hge
    have hdie := s.die_home_past_dram (Nat.le_of_not_lt hge)
    obtain ⟨d, c, hh⟩ | ⟨d, hh⟩ := h <;> simp [hh, Home.die?] at hdie

/-- A plain store of one part to a vault or to DRAM passes the L1s and is stored (R165, R176). -/
theorem State.drainStore_of_home {s : State} {uid k : Nat} {c : Context} {e : SEntry} {p : Nat} {bs : List Byte}
    (hparts : e.acc.parts = [(p, bs.length)]) (hhome : s.homeInVaultOrDram p)
    (hpois : s.anyPoison [(p, bs.length)] = false) (remote : FabOp) :
    s.drainStore uid c k e .plain bs remote = ((s.unbuffer uid k).l1Each [(p, bs.length)] fun s l =>
      s.l1Write c.die.val c.core.val e.loc l).store e.acc.world p bs none := by
  have hacc : s.accHome e.acc = s.homeOf p := by rw [State.accHome, hparts]
  have hwhere : s.whereIs e.acc .wr = .here e.acc false := by
    unfold State.whereIs
    rw [hacc]
    obtain ⟨d, c, hh⟩ | ⟨d, hh⟩ := hhome <;> rw [hh]
  have hbad : (s.unbuffer uid k).partPoison [(p, bs.length)] = false := by
    change s.partPoison [(p, bs.length)] = false
    simp only [State.anyPoison, State.partPoison, List.any_cons, List.any_nil, Bool.or_false,
      List.any_eq_false] at hpois ⊢
    intro a ha
    simp [hpois a ha]
  have hhere : (s.unbuffer uid k).accHome e.acc = s.homeOf p := hacc
  unfold State.drainStore
  rw [hwhere]
  dsimp only
  unfold State.storeEntryHere
  rw [if_neg (by simp), if_neg (by simp)]
  unfold State.storeHere
  rw [hhere, hparts, hbad]
  obtain ⟨d, c, hh⟩ | ⟨d, hh⟩ := hhome
  all_goals
    rw [hh]
    simp [State.storeParts, StMode.fe]

/-- What a context has in its store buffer says nothing of where its image lies. -/
theorem State.imageHits_unbuffer {s : State} {uid k : Nat} {c : Context} {a n : Nat} (hc : s.ctx? uid = some c)
    (himg : ∀ q ∈ s.ctxs, s.imageHits q.2 a n = []) :
    ∀ q ∈ (s.unbuffer uid k).ctxs, (s.unbuffer uid k).imageHits q.2 a n = [] := by
  have hlook : KMap.look s.ctxs uid = some c := hc
  intro q hq
  simp only [State.unbuffer, State.modCtx, KMap.modify, hlook] at hq
  obtain rfl | hq := KMap.mem_put hq
  · exact himg (uid, c) (KMap.mem_of_look hlook)
  · exact himg q hq

/-! ## O37 -/

/-- Settles O37: the store takes the L1s and the bytes of memory, and what follows it changes neither bytes nor
full-empty bits. -/
theorem drainedStore : Obligations.DrainedStore := by
  unfold Obligations.DrainedStore
  intro s uid k c e p bs hc he hmay hop hloc hparts hbs hstate hwf hhome hline hprot hraws hpois hretry hmoves hmasters
    hmons himg hrcb
  have hopen : s.homeInVaultOrDram p := by
    cases hh : s.homeOf p with
    | vault d c => exact .inl ⟨d, c, hh⟩
    | dram d => exact .inr ⟨d, hh⟩
    | _ => simp [hh] at hhome
  have hunpause : s.unpause uid (.entry e.num) = s := by simp [State.unpause, hmoves]
  have hdrain := ((memoryEvents s).1 uid k c e hc he hmay).1 (by simp [State.pauser, hmoves])
  refine ⟨_, hdrain, ?_⟩
  rw [hunpause, State.drainEntry, hop]
  dsimp only
  rw [State.drainStore_of_home hparts hopen hpois]
  have hlay := State.sameLayout_l1Each (fun s l => s.sameLayout_l1Write c.die.val c.core.val e.loc l)
    (s.unbuffer uid k) [(p, bs.length)]
  have himg' := State.imageHits_unbuffer (k := k) hc himg
  have hbytes : s.sameBytes (s.unbuffer uid k) := State.sameBytes_modCtx _ _ _
  have hmem : (s.unbuffer uid k).mem = s.mem := rfl
  have hrcb' : ∀ r ∈ (s.unbuffer uid k).liveRcbs, p + bs.length ≤ r ∨ r + 256 ≤ p := hrcb
  generalize s.unbuffer uid k = u at hlay himg' hbytes hmem hrcb'
  generalize (u.l1Each [(p, bs.length)] fun s l => s.l1Write c.die.val c.core.val e.loc l) = t at hlay
  have hctxs : t.ctxs = u.ctxs := by rw [hlay]
  have hbounds := hopen.bounds
  have hpos : 0 < bs.length := List.length_pos_iff.mpr hbs
  have ht := hbytes.trans hlay.sameBytes
  obtain ⟨x, v, hx, hv⟩ := State.store_open (s := t) (w := e.acc.world) (a := p) (bs := bs)
    (fun q hq => (hlay.imageHits q.2 p bs.length).trans (himg' q (hctxs ▸ hq))) (hlay.liveRcbs ▸ hrcb') hbounds.1
    (by simp only [dramBase, cxlBase] at *; omega) (by rw [hlay.mem, hmem, hprot]) (ht.masters.trans hmasters)
    (ht.retry.trans hretry)
  have hend := hv.trans (State.sameBytes_reap _ uid)
  have hxmem : x.mem = s.mem := hx.mem.trans (hlay.mem.trans hmem)
  refine ⟨fun i hi => ?_, fun a ha => ?_, fun a => ?_⟩
  · rw [hend.cell, State.cell_storedAt, hxmem, Memory.cell_setCells_inside hwf p i bs hi, List.getD_eq_getElem _ _ hi]
  · rw [hend.cell, State.cell_storedAt, hxmem, Memory.cell_setCells_outside hwf p a bs ha]
  · rw [hend.isFull, State.isFull_storedAt]
    exact (ht.trans hx.sameBytes).isFull a

end Sys2Proof.Machine
end

section
/-! Proofs about what an atomic makes of a word, and where it is performed (R195, R199, R201, R203, R345): O17 and O16. -/

namespace Sys2Proof.Machine

/-! ## What an atomic makes of a word (R201) -/

/-- What a reduction makes of the old value `o` and the operand `w`, on words of `n` bits (R201). -/
def redWord {n : Nat} (op : RedOp) (o w : BitVec n) : BitVec n :=
  match op with
  | .add => o + w
  | .and => o &&& w
  | .or => o ||| w
  | .xor => o ^^^ w
  | .min => if w.slt o then w else o
  | .max => if o.slt w then w else o
  | .minu => if w.ult o then w else o
  | .maxu => if o.ult w then w else o

/-- The word of `n` bits that a number makes, zero-extended. -/
theorem ofNat_mod_two_pow (n k : Nat) : BitVec.ofNat 64 (k % 2 ^ n) = (BitVec.ofNat n k).setWidth 64 :=
  BitVec.eq_of_toNat_eq (by simp)

section Word

variable {n : Nat} {w64 : Bool} (hn : n = if w64 then 64 else 32) (old b e : BitVec 64)
include hn

/-- Signed values are compared at the width of the atomic. -/
theorem toInt_at_width (v : BitVec 64) :
    (if w64 then v.toInt else (v.truncate 32 : BitVec 32).toInt) = (v.setWidth n).toInt := by
  subst hn
  cases w64 <;> simp

/-- A reduction makes a word of the width from the words of the width. -/
theorem atomNew_red (op : RedOp) :
    atomNew (.red op) w64 old b = (some ((redWord op (old.setWidth n) (b.setWidth n)).setWidth 64), 0) := by
  simp only [atomNew, ← hn, toInt_at_width hn, ← BitVec.toNat_setWidth, ofNat_mod_two_pow]
  cases op with
  | add => simp only [redWord, BitVec.ofNat_add, BitVec.ofNat_toNat, BitVec.setWidth_eq]
  | and => simp only [redWord, BitVec.ofNat_toNat, BitVec.setWidth_and]
  | or => simp only [redWord, BitVec.ofNat_toNat, BitVec.setWidth_or]
  | xor => simp only [redWord, BitVec.ofNat_toNat, BitVec.setWidth_xor]
  | min | max =>
    simp only [redWord, BitVec.ofNat_toNat, BitVec.setWidth_eq, BitVec.slt, decide_eq_true_eq,
      apply_ite (BitVec.setWidth n)]
  | minu =>
    simp only [redWord, BitVec.ult, decide_eq_true_eq]
    split
    next hlt => rw [min_eq_right hlt.le, BitVec.ofNat_toNat, BitVec.setWidth_eq]
    next hge => rw [min_eq_left (not_lt.mp hge), BitVec.ofNat_toNat, BitVec.setWidth_eq]
  | maxu =>
    simp only [redWord, BitVec.ult, decide_eq_true_eq]
    split
    next hlt => rw [max_eq_right hlt.le, BitVec.ofNat_toNat, BitVec.setWidth_eq]
    next hge => rw [max_eq_left (not_lt.mp hge), BitVec.ofNat_toNat, BitVec.setWidth_eq]

/-- A swap leaves the operand, of the width. -/
theorem atomNew_swap : atomNew .swap w64 old b = (some ((b.setWidth n).setWidth 64), 0) := by
  simp only [atomNew, ← hn, ← BitVec.toNat_setWidth, BitVec.ofNat_toNat, BitVec.setWidth_eq]

/-- A compare and swap leaves the operand where the word is as expected, and else writes nothing. -/
theorem atomNew_cas : atomNew (.cas e) w64 old b
    = (if old.setWidth n = e.setWidth n then some ((b.setWidth n).setWidth 64) else none, 0) := by
  simp only [atomNew, ← hn, ← BitVec.toNat_setWidth, BitVec.ofNat_toNat, BitVec.setWidth_eq, BitVec.toNat_inj]

end Word

/-! ## O17 -/

/-- Settles O17: at either width the operation works on the words of that width. -/
theorem atomicOperations : Obligations.AtomicOperations := by
  unfold Obligations.AtomicOperations
  intro old b e gives
  have wide (op : RedOp) : gives (.red op) (redWord op old b) := by
    simpa only [BitVec.setWidth_eq] using atomNew_red (n := 64) (w64 := true) rfl old b op
  have wideCas : atomNew (.cas e) true old b = (if old = e then some b else none, 0) := by
    simpa only [BitVec.setWidth_eq] using atomNew_cas (n := 64) (w64 := true) rfl old b e
  refine ⟨wide .add, wide .and, wide .or, wide .xor, wide .min, wide .max, wide .minu, wide .maxu, ?swap,
    fun heq => ?written, fun hne => ?kept, ?narrow⟩
  case swap => simpa only [BitVec.setWidth_eq] using atomNew_swap (n := 64) (w64 := true) rfl old b
  case written => exact wideCas.trans (by rw [if_pos heq])
  case kept => rw [wideCas, if_neg hne]
  case narrow =>
    intro o w gives32
    have narrow (op : RedOp) : gives32 (.red op) (redWord op o w) :=
      congrArg Prod.fst (atomNew_red (n := 32) (w64 := false) rfl old b op)
    have narrowCas := congrArg Prod.fst (atomNew_cas (n := 32) (w64 := false) rfl old b e)
    exact ⟨narrow .add, narrow .and, narrow .or, narrow .xor, narrow .min, narrow .max, narrow .minu, narrow .maxu,
      congrArg Prod.fst (atomNew_swap (n := 32) (w64 := false) rfl old b),
      fun heq => narrowCas.trans (if_pos heq), fun hne => narrowCas.trans (if_neg hne)⟩

/-! ## Where an atomic is performed (R195, R198, R345) -/

section Atomic

variable {s : State} {uid : Nat} {c : Context} {ctl : Ctl} {dest : AnyReg} {acc : Acc} {op : AtomOp} {w64 : Bool}
  {b : BitVec 64} (hheld : c.loadsHeld = false) (hlock : s.lockReady c acc = true)
  (hmove : s.pauser uid .issue (s.places acc) = none)
include hheld hlock hmove

/-- An atomic on a word of the own package that it does not share fills poisoned (R345). -/
theorem State.atomicOp_refused (href : (s.unpause uid .issue).whereIs acc .rw = .refused) :
    s.atomicOp uid c ctl dest acc op w64 b = .done ((s.unpause uid .issue).produce uid (poisonFill dest)) := by
  simp only [State.atomicOp, hheld, hlock, Bool.not_true, Bool.or_self, Bool.false_eq_true, if_false,
    State.throughMove_of_none hmove, href]

/-- An atomic on a word of another package becomes a request, and is an acquire (R198, R345). -/
theorem State.atomicOp_far {p off : Nat} (hfar : (s.unpause uid .issue).whereIs acc .rw = .far p off)
    (hjob : (s.unpause uid .issue).noJob p = false) :
    let q := (s.unpause uid .issue).newAcq uid
    s.atomicOp uid c ctl dest acc op w64 b
      = .done ((q.2.pendReg uid dest).sendReq c.die.val p acc.world off c.rlim.toNat c.die (atomFab op w64 b)
          (.fill uid dest acc (some q.1) op.isFadd)) := by
  simp only [State.atomicOp, hheld, hlock, Bool.not_true, Bool.or_self, Bool.false_eq_true, if_false,
    State.throughMove_of_none hmove, hfar, hjob]

variable {x : Acc} {job : Bool} (hhere : (s.unpause uid .issue).whereIs acc .rw = .here x job)
include hhere

/-- An atomic whose home lies on the issuing die is performed at issue (R195). -/
theorem State.atomicOp_onDie (hdie : ((s.unpause uid .issue).accHome x).die? = some c.die.val) :
    let a := partAt x.parts 0
    let r := ((s.unpause uid .issue).l1Atomic c.die.val c.core.val (if job then 2 else ctl.loc) a).atomicAt acc.world a
      op w64 b
    s.atomicOp uid c ctl dest acc op w64 b = .done (r.1.produce uid (atomFill dest r.2 none)) := by
  simp only [State.atomicOp, hheld, hlock, Bool.not_true, Bool.or_self, Bool.false_eq_true, if_false,
    State.throughMove_of_none hmove, hhere, hdie, if_true]

/-- An atomic whose home lies on another die of the package is on its way, and is an acquire (R195, R198). -/
theorem State.atomicOp_otherDie (hdie : ((s.unpause uid .issue).accHome x).die? ≠ some c.die.val) :
    s.atomicOp uid c ctl dest acc op w64 b
      = .done ((s.unpause uid .issue).loadLater uid dest (.atom acc op w64 b) true) := by
  simp only [State.atomicOp, hheld, hlock, Bool.not_true, Bool.or_self, Bool.false_eq_true, if_false,
    State.throughMove_of_none hmove, hhere, hdie]

end Atomic

/-- The forms of `AMIN` and `AMAX` differ in how they compare (R201). -/
theorem exec_amin_signed (ctl : Ctl) (w : Width) (d : Fin 64) (m : MemOp) (b : XI) (s : State) :
    exec (.amin ctl w false d m b) s = atomInstr 0x54 ctl w d [] m b (fun _ => .red .min) s := rfl

theorem exec_amin_unsigned (ctl : Ctl) (w : Width) (d : Fin 64) (m : MemOp) (b : XI) (s : State) :
    exec (.amin ctl w true d m b) s = atomInstr 0x54 ctl w d [] m b (fun _ => .red .minu) s := rfl

theorem exec_amax_signed (ctl : Ctl) (w : Width) (d : Fin 64) (m : MemOp) (b : XI) (s : State) :
    exec (.amax ctl w false d m b) s = atomInstr 0x55 ctl w d [] m b (fun _ => .red .max) s := rfl

theorem exec_amax_unsigned (ctl : Ctl) (w : Width) (d : Fin 64) (m : MemOp) (b : XI) (s : State) :
    exec (.amax ctl w true d m b) s = atomInstr 0x55 ctl w d [] m b (fun _ => .red .maxu) s := rfl

/-! ## O16 -/

/-- Settles O16: every atomic with a return is `atomInstr` with its own operation, and `State.atomicOp` answers by where the
word is. -/
theorem atomics : Obligations.Atomics := by
  unfold Obligations.Atomics
  intro s c ctl uid m u atom
  have hatom {i : Instr} {code : Nat} {w : Width} {d : Fin 64} {extra rd : List Src} {a : MemOp} {b : XI}
      {f : Context → AtomOp} (hrd : extra ++ memSrc a :: xiSrcs b = rd)
      (hi : exec i s = atomInstr code ctl w d extra a b f s) : atom i w d rd a (f c) (xiVal c b) := by
    subst hrd
    intro acc h hres hheld hlock hmove done q
    have answers {t : State}
        (ht : m.atomicOp uid c ctl (.x d) acc (f c) (Width.is64 w) (Width.trunc w (xiVal c b)) = .done t) : done t :=
      State.doneAs_of_done h hi rfl (by rw [hres]; exact ht)
    exact ⟨fun x job hhere =>
        ⟨fun hdie => answers (State.atomicOp_onDie hheld hlock hmove hhere hdie),
          fun hdie => answers (State.atomicOp_otherDie hheld hlock hmove hhere hdie)⟩,
      fun p off hfar hjob => answers (State.atomicOp_far hheld hlock hmove hfar hjob),
      fun href => answers (State.atomicOp_refused hheld hlock hmove href)⟩
  have plain {i : Instr} {code : Nat} {w : Width} {d : Fin 64} {a : MemOp} {b : XI} {op : AtomOp}
      (hi : exec i s = atomInstr code ctl w d [] a b (fun _ => op) s) :
      atom i w d (memSrc a :: xiSrcs b) a op (xiVal c b) :=
    (hatom (rd := memSrc a :: xiSrcs b) rfl hi :)
  -- `(… :)` fixes each instruction's own arguments before the clauses are compared.
  exact ⟨fun w d a b => ⟨(plain (exec_aadd ctl w d a b s) :), (plain (exec_aand ctl w d a b s) :),
      (plain (exec_aor ctl w d a b s) :), (plain (exec_axor ctl w d a b s) :), (plain (exec_amin_signed ctl w d a b s) :),
      (plain (exec_amin_unsigned ctl w d a b s) :), (plain (exec_amax_signed ctl w d a b s) :),
      (plain (exec_amax_unsigned ctl w d a b s) :), (plain (exec_aswp ctl w d a b s) :)⟩,
    fun w d a b => (hatom rfl (exec_acas ctl w d a b s) :), fun d a b => (plain (exec_afadd ctl d a b s) :)⟩

end Sys2Proof.Machine
end

section
/-! Proofs about waits on addresses (R205 to R208), and O18. -/

namespace Sys2Proof.Machine

/-! ## The step of a wait at the home of its word (R205) -/

section WaitStep

variable {s : State} {uid : Nat} {c : Context} {dest : AnyReg} {acc : Acc} {a : Nat} {w64 : Bool} {e : BitVec 64} {t : Nat}
  {r : State × List Byte × Bool}
  (hread : (s.l1Home (some (coreKey c.die.val c.core.val)) a false).readSeg acc.world a (monLen w64) = r)
include hread

/-- Poison ends a wait at once with a status. -/
theorem State.waitStep_poisoned (hpois : r.2.2 = true) :
    s.waitStep uid c dest acc a w64 e t = r.1.produceWord uid dest (errWord 0x22) := by
  simp only [State.waitStep, hread, hpois, if_true]

variable (hclean : r.2.2 = false)
include hclean

/-- A value other than the expected one ends a wait at once with 0. -/
theorem State.waitStep_changed (hne : leNat r.2.1 ≠ e.toNat) :
    s.waitStep uid c dest acc a w64 e t = r.1.produceWord uid dest 0 := by
  simp only [State.waitStep, hread, hclean, Bool.false_eq_true, if_false, hne, ne_eq, not_false_eq_true, if_true]

variable (heq : leNat r.2.1 = e.toNat)
include heq

/-- A wait that finds no entry ends at once with the code of the table or of the region's limit. -/
theorem State.waitStep_full {code : Nat} (hfull : r.1.monRefused c = some code) :
    s.waitStep uid c dest acc a w64 e t = r.1.produceWord uid dest (errWord code) := by
  simp only [State.waitStep, hread, hclean, Bool.false_eq_true, if_false, heq, ne_eq, not_true_eq_false, hfull]

/-- On the expected value a wait registers its entry. -/
theorem State.waitStep_registers (hroom : r.1.monRefused c = none) :
    s.waitStep uid c dest acc a w64 e t = r.1.registerMon uid c dest acc a w64 e t := by
  simp only [State.waitStep, hread, hclean, Bool.false_eq_true, if_false, heq, ne_eq, not_true_eq_false, hroom]

end WaitStep

/-! ## A wait on a word of another package (R204, R346) -/

section WaitRemote

variable {s : State} {uid : Nat} {c : Context} {dest : AnyReg} {acc : Acc} {p off : Nat} {w64 : Bool} {e : BitVec 64}
  {t : Nat} (hjob : s.noJob p = false)
include hjob

/-- A wait that finds an entry registers it, and asks the home to tell of a change. -/
theorem State.waitRemote_registers (hroom : s.monRefused c = none) :
    s.waitRemote uid c dest acc p off w64 e t
      = (s.registerMon uid c dest acc (partAt acc.parts 0) w64 e t).sendReq c.die.val p acc.world off c.rlim.toNat c.die
          (.waita w64 e 0) (.monitor (s.die c.die.val).nextMon) := by
  simp only [State.waitRemote, hjob, Bool.false_eq_true, if_false, hroom]

/-- A wait that finds no entry tells the home which code to answer (log 50). -/
theorem State.waitRemote_full {code : Nat} (hfull : s.monRefused c = some code) :
    let q := s.newAcq uid
    s.waitRemote uid c dest acc p off w64 e t
      = (q.2.pendReg uid dest).sendReq c.die.val p acc.world off c.rlim.toNat c.die
          (.waita w64 e (BitVec.ofNat 8 code)) (.fill uid dest acc (some q.1) false) := by
  simp only [State.waitRemote, hjob, Bool.false_eq_true, if_false, hfull]

end WaitRemote

/-! ## O18 -/

/-- Settles O18: `WAITA` is `State.waitStep` or `State.waitRemote` by where its word is; `WAKEA` takes entries, or asks the
home to. -/
theorem waitsOnAddresses : Obligations.WaitsOnAddresses := by
  unfold Obligations.WaitsOnAddresses
  intro s c ctl hheld uid m u
  refine ⟨fun w d a e acc hslot h hres hlock hmove => ?waita, fun d a n acc h hres hrel hmove => ?wakea⟩
  case waita =>
    intro v limit done
    have hgo : (c.loadsHeld || !(m.lockReady c acc)) = false := by rw [hheld, hlock]; rfl
    have performed :
        (∀ {x job t}, u.whereIs acc .rd = .here x job →
          u.waitStep uid c (.x d.reg) x (partAt x.parts 0) (Width.is64 w) v limit = t → done t)
        ∧ ∀ {p off t}, u.whereIs acc .rd = .far p off →
          u.waitRemote uid c (.x d.reg) acc p off (Width.is64 w) v limit = t → done t := by
      constructor
      all_goals
        intro _ _ _ hplace ht
        refine State.doneAs_of_done h (exec_waita ..) hslot ?_
        rw [hres, orTrap, if_neg (Bool.eq_false_iff.mp hgo), State.throughMove_of_none hmove]
        dsimp only
        rw [hplace]
        exact congrArg Res.done ht
    obtain ⟨here, far⟩ := performed
    exact ⟨fun x job hhere => ⟨fun hpois => here hhere (State.waitStep_poisoned rfl hpois),
        fun hclean hne => here hhere (State.waitStep_changed rfl hclean hne),
        fun code hclean heq hfull => here hhere (State.waitStep_full rfl hclean heq hfull),
        fun hclean heq hroom => here hhere (State.waitStep_registers rfl hclean heq hroom)⟩,
      fun p off hfar hjob => ⟨fun hroom => far hfar (State.waitRemote_registers hjob hroom),
        fun code hfull => far hfar (State.waitRemote_full hjob hfull)⟩⟩
  case wakea =>
    intro k done
    have hgo : (c.loadsHeld || !(m.released uid c ((m.placeHome acc).scope c.die.val c.core.val))) = false := by
      rw [hheld, hrel]; rfl
    refine ⟨fun x job hhere => ?here, fun p off hfar hjob => ?far⟩
    all_goals
      refine State.doneAs_of_done h (exec_wakea ..) rfl ?_
      rw [hres, orTrap, if_neg (Bool.eq_false_iff.mp hgo), State.throughMove_of_none hmove]
      dsimp only
    case here => rw [hhere]
    case far =>
      rw [hfar]
      exact if_neg (Bool.eq_false_iff.mp hjob)

end Sys2Proof.Machine
end

section
/-! Proofs about the counts of a phaser (R213 to R216, R218), and O20. -/

namespace Sys2Proof.Machine

/-! ## The phases of a phaser are told apart (R213) -/

theorem phase_add_one_ne (n : BitVec 32) : n + 1 ≠ n := by bv_omega

theorem phase_add_two_ne (n : BitVec 32) : n + 2 ≠ n := by bv_omega

theorem phase_add_two_ne_add_one (n : BitVec 32) : n + 2 ≠ n + 1 := by bv_omega

/-! ## A signal and a drop (R215, R218) -/

section Member

variable {p : Phaser} {k : Member}

theorem signal_of_wait (hmode : k.mode = .wait) : signal p k = .error 0x28 :=
  if_pos (beq_iff_eq.mpr hmode)

/-- A member that waits only is in no count: it is dropped alone. -/
theorem dropMember_of_wait (hmode : k.mode = .wait) : dropMember p k = p :=
  if_pos (beq_iff_eq.mpr hmode)

variable (hmode : k.mode ≠ .wait)
include hmode

theorem signal_of_current (hsp : k.sp = p.ph) :
    signal p k = .ok ({ p with arr0 := p.arr0 + 1, touched := true }, { k with sp := k.sp + 1 }, k.sp) :=
  (if_neg (mt beq_iff_eq.mp hmode)).trans (if_pos hsp)

theorem signal_of_next (hsp : k.sp = p.ph + 1) :
    signal p k = .ok ({ p with arr1 := p.arr1 + 1 }, { k with sp := k.sp + 1 }, k.sp) :=
  (if_neg (mt beq_iff_eq.mp hmode)).trans ((if_neg (hsp ▸ phase_add_one_ne p.ph)).trans (if_pos hsp))

theorem signal_of_ahead (hcurrent : k.sp ≠ p.ph) (hnext : k.sp ≠ p.ph + 1) : signal p k = .error 0x29 :=
  (if_neg (mt beq_iff_eq.mp hmode)).trans ((if_neg hcurrent).trans (if_neg hnext))

theorem dropMember_of_current (hsp : k.sp = p.ph) :
    dropMember p k = { p with need0 := p.need0 - 1, need1 := p.need1 - 1, touched := true } :=
  (if_neg (mt beq_iff_eq.mp hmode)).trans (if_pos hsp)

theorem dropMember_of_next (hsp : k.sp = p.ph + 1) : dropMember p k = { p with need1 := p.need1 - 1 } :=
  (if_neg (mt beq_iff_eq.mp hmode)).trans ((if_neg (hsp ▸ phase_add_one_ne p.ph)).trans (if_pos hsp))

theorem dropMember_of_ahead (hsp : k.sp = p.ph + 2) :
    dropMember p k = { p with need1 := p.need1 - 1, arr1 := p.arr1 - 1 } :=
  (if_neg (mt beq_iff_eq.mp hmode)).trans ((if_neg (hsp ▸ phase_add_two_ne p.ph)).trans
    (if_neg (hsp ▸ phase_add_two_ne_add_one p.ph)))

end Member

/-! ## A registration (R214) -/

theorem joinPhaser_untouched {p : Phaser} (h : p.touched = false) (i : Nat) (mode : PhMode) :
    joinPhaser p i mode = ({ p with need1 := p.need1 + (if mode = .wait then 0 else 1),
                                    need0 := p.need0 + (if mode = .wait then 0 else 1) },
                           { phaser := i, mode := mode, sp := p.ph, wp := p.ph }) := by
  simp only [joinPhaser, h, Bool.false_eq_true, if_false, beq_iff_eq]

theorem joinPhaser_touched {p : Phaser} (h : p.touched = true) (i : Nat) (mode : PhMode) :
    joinPhaser p i mode = ({ p with need1 := p.need1 + (if mode = .wait then 0 else 1) },
                           { phaser := i, mode := mode, sp := p.ph + 1, wp := p.ph + 1 }) := by
  simp only [joinPhaser, h, if_true, beq_iff_eq]

/-! ## The end of a phase (R216) -/

/-- The phaser after the end of its phase: the counts of the successor become current. -/
def Phaser.nextPhase (p : Phaser) : Phaser :=
  { p with ph := p.ph + 1, need0 := p.need1, arr0 := p.arr1, arr1 := 0, touched := decide (0 < p.arr1) }

/-- A phase that still waits for a signal goes on. -/
theorem endPhases_of_open {p : Phaser} (h : ¬(p.touched = true ∧ p.arr0 = p.need0)) (n : Nat) : endPhases p n = p := by
  cases n with
  | zero => rfl
  | succ n => exact if_neg (by simpa using h)

/-- A phase whose members have all signalled ends. -/
theorem endPhases_of_complete {p : Phaser} (htouched : p.touched = true) (hall : p.arr0 = p.need0) (n : Nat) :
    endPhases p (n + 1) = endPhases p.nextPhase n :=
  if_pos (by simp [htouched, hall])

/-! ## O20 -/

/-- Settles O20: each clause is one law of the function it speaks of; a phase whose successor is complete too ends
twice. -/
theorem phaserCounts : Obligations.PhaserCounts := by
  unfold Obligations.PhaserCounts
  intro p k i
  refine ⟨signal_of_wait, signal_of_current, signal_of_next, signal_of_ahead, fun mode => ?join, dropMember_of_wait,
    dropMember_of_current, dropMember_of_next, dropMember_of_ahead, fun n hopen => endPhases_of_open hopen (n + 1),
    fun htouched hall => ⟨fun n hnext => ?once, fun n hsignalled hnext => ?twice⟩⟩
  case join =>
    cases htouched : p.touched with
    | false => simp [joinPhaser_untouched htouched, htouched]
    | true => simp [joinPhaser_touched htouched, htouched]
  case once =>
    have hopen : ¬(p.nextPhase.touched = true ∧ p.nextPhase.arr0 = p.nextPhase.need0) := by
      simp only [Phaser.nextPhase, decide_eq_true_eq]
      omega
    rw [endPhases_of_complete htouched hall, endPhases_of_open hopen]
    rfl
  case twice =>
    have hsucc : p.nextPhase.touched = true := decide_eq_true (Nat.pos_of_ne_zero hsignalled)
    have hend : p.nextPhase.nextPhase
        = { p with ph := p.ph + 2, need0 := p.need1, arr0 := 0, arr1 := 0, touched := false } := by
      simp [Phaser.nextPhase, BitVec.add_assoc]
    rw [endPhases_of_complete htouched hall, endPhases_of_complete hsucc hnext, hend, endPhases_of_open (by simp)]

end Sys2Proof.Machine
end

section
/-! Proofs about the phaser instructions (R211 to R219), and O19. -/

namespace Sys2Proof.Machine

/-- Moving on changes no die. -/
@[simp] theorem State.die_movedOn (s : State) (uid d : Nat) : (s.movedOn uid).die d = s.die d := rfl

/-! ## O19 -/

/-- Settles O19: a body looks up what the word names, then the free entry or the member's mode, then whether earlier stores
are released (R219), and hands the counts to `joinPhaser`, `signal` or `dropMember`. -/
theorem phasers : Obligations.Phasers := by
  unfold Obligations.Phasers
  intro s c ctl xs
  dsimp only
  refine ⟨fun h => ⟨fun hlim => ?limit, fun hlim hfull => ?full, fun i hlim hfree => ?created⟩, fun x h => ?named⟩
  case limit => exact State.completes_of_produceWord h (exec_phnew ..) rfl (if_pos hlim)
  case full =>
    refine State.completes_of_produceWord h (exec_phnew ..) rfl ((if_neg (Nat.not_le.mpr hlim)).trans ?_)
    rw [State.die_movedOn, hfull]
  case created =>
    refine State.doneAs_of_done h (exec_phnew ..) rfl ((if_neg (Nat.not_le.mpr hlim)).trans ?_)
    rw [State.die_movedOn, hfree]
  case named =>
    refine ⟨fun hnone => ?noPhaser, fun hnone => ?noMember, fun p mode hp hfull => ?membersFull,
      fun p mode i hp hfree => ?registered, fun p hp => ⟨fun hused => ?inUse, fun hunused => ?freed⟩,
      fun p k hk hrel => ?released,
      fun p k hslot hk => ⟨fun hmode => ?nextMode, fun hmode => ?waitMode, fun hmode => ?waits⟩⟩
    case noPhaser =>
      refine ⟨fun mode => State.completes_of_produceWord h (exec_phreg ..) rfl ?_,
        State.completes_of_produceWord h (exec_phfree ..) rfl ?_⟩
      all_goals simp only [hnone]
    case noMember =>
      refine ⟨State.completes_of_produceWord h (exec_phdrop ..) rfl ?_,
        State.completes_of_produceWord h (exec_phsig ..) rfl ?_,
        fun hslot => ⟨State.completes_of_produceWord h (exec_phwait ..) hslot ?_,
          State.completes_of_produceWord h (exec_phnext ..) hslot ?_⟩⟩
      all_goals simp only [hnone]
    case membersFull =>
      refine State.completes_of_produceWord h (exec_phreg ..) rfl ?_
      simp only [hp, State.die_movedOn, hfull]
    case registered =>
      refine State.doneAs_of_done h (exec_phreg ..) rfl ?_
      simp only [hp, State.die_movedOn, hfree]
    case inUse =>
      refine State.completes_of_produceWord h (exec_phfree ..) rfl ?_
      simp only [hp, State.die_movedOn, hused, if_true]
    case freed =>
      refine State.doneAs_of_done h (exec_phfree ..) rfl ?_
      simp only [hp, State.die_movedOn, hunused, Bool.false_eq_true, if_false]
    case released =>
      refine ⟨State.doneAs_of_done h (exec_phdrop ..) rfl ?dropped,
        fun e he => State.completes_of_produceWord h (exec_phsig ..) rfl ?refused,
        fun q n ph hok => State.doneAs_of_done h (exec_phsig ..) rfl ?signalled,
        fun e hslot hmode he => State.completes_of_produceWord h (exec_phnext ..) hslot ?nextRefused,
        fun q n ph hslot hmode hok => State.doneAs_of_done h (exec_phnext ..) hslot ?nextSignalled⟩
      case dropped => simp only [hk, hrel, Bool.not_true, Bool.false_eq_true, if_false]
      case refused => simp only [hk, hrel, he, Bool.not_true, Bool.false_eq_true, if_false]
      case signalled => simp only [hk, hrel, hok, Bool.not_true, Bool.false_eq_true, if_false]
      case nextRefused =>
        simp only [hk, hmode, hrel, he, bne_self_eq_false, Bool.not_true, Bool.false_eq_true, if_false]
      case nextSignalled =>
        simp only [hk, hmode, hrel, hok, bne_self_eq_false, Bool.not_true, Bool.false_eq_true, if_false]
    case nextMode =>
      refine State.completes_of_produceWord h (exec_phnext ..) hslot ?_
      simp only [hk, bne_iff_ne.mpr hmode, if_true]
    case waitMode =>
      refine State.completes_of_produceWord h (exec_phwait ..) hslot ?_
      simp only [hk, hmode, beq_self_eq_true, if_true]
    case waits =>
      refine State.doneAs_of_done h (exec_phwait ..) hslot ?_
      simp only [hk, beq_iff_eq, hmode, if_false]

end Sys2Proof.Machine
end

section
/-! Proofs about barrier wires and the dissemination barrier as they are issued (R225 to R233), and O21. -/

namespace Sys2Proof.Machine

/-! ## What moving on leaves as it is -/

section MovedOn

variable (s : State) (uid d : Nat)

@[simp] theorem State.job_movedOn : (s.movedOn uid).job = s.job := rfl

@[simp] theorem State.cyc_movedOn : (s.movedOn uid).cyc d = s.cyc d := rfl

@[simp] theorem State.ownsWires_movedOn (c : Context) : (s.movedOn uid).ownsWires c = s.ownsWires c := rfl

@[simp] theorem State.lane_movedOn (c : Nat) (dir : BwDir) : (s.movedOn uid).lane d c dir = s.lane d c dir := rfl

@[simp] theorem State.nbInst_movedOn (w : Nat) (sc : NbScope) (tag : BitVec 8) :
    (s.movedOn uid).nbInst d w sc tag = s.nbInst d w sc tag := rfl

end MovedOn

/-! ## O21 -/

/-- Settles O21: without the wires both instructions trap; `NBARR` looks for a barrier in progress, then for a job, then
whether earlier stores are released, and then for room on the NI. -/
theorem barriers : Obligations.Barriers := by
  unfold Obligations.Barriers
  intro s c ctl
  dsimp only
  refine ⟨fun dir h => ⟨fun hown => State.faults_of_trap h (exec_bwarr ..) rfl ?arriveDenied,
      fun hown hroom hrel => State.doneAs_of_done h (exec_bwarr ..) rfl ?arrived⟩,
    fun dir xs hslot h => ⟨fun hown => State.faults_of_trap h (exec_bwwait ..) hslot ?waitDenied,
      fun hown hdone => State.completes_of_produceWord h (exec_bwwait ..) hslot ?released,
      fun hown hopen => State.doneAs_of_done h (exec_bwwait ..) hslot ?waits⟩,
    fun sc xs tag hslot h => ⟨fun hrun => State.completes_of_produceWord h (exec_nbarr ..) hslot ?busy,
      fun hrun hsc hjob => State.completes_of_produceWord h (exec_nbarr ..) hslot ?noJob,
      fun hrun hjob hrel hroom => State.doneAs_of_done h (exec_nbarr ..) hslot ?starts⟩⟩
  case arriveDenied | waitDenied => simp only [State.ownsWires_movedOn, hown, Bool.not_false, if_true]
  case arrived =>
    simp only [State.ownsWires_movedOn, State.lane_movedOn, State.cyc_movedOn, hown, hrel, Nat.not_le.mpr hroom,
      decide_false, Bool.not_true, Bool.or_self, Bool.false_eq_true, if_false]
  case released =>
    simp only [State.ownsWires_movedOn, State.lane_movedOn, hown, hdone, Bool.not_true, Bool.false_eq_true, if_false, if_true]
  case waits =>
    simp only [State.ownsWires_movedOn, State.lane_movedOn, State.cyc_movedOn, hown, Nat.not_le.mpr hopen, Bool.not_true,
      Bool.false_eq_true, if_false]
  case busy => simp only [State.nbInst_movedOn, hrun, if_true]
  case noJob =>
    subst hsc
    simp only [State.nbInst_movedOn, State.job_movedOn, hrun, hjob, beq_self_eq_true, Bool.and_self, Bool.false_eq_true,
      if_false, if_true]
  case starts =>
    have hreach : (sc == .job && s.job == 0) = false := by simpa using hjob
    have hfree : ((s.nbInst c.die.val c.world sc (BitVec.ofNat 8 (xiVal c tag).toNat)).held.isEmpty
        && decide (16 ≤ (s.movedOn s.issuing).nbUsed c.die.val)) = false :=
      Bool.and_eq_false_iff.mpr (hroom.imp List.isEmpty_eq_false_iff.mpr fun hused =>
        decide_eq_false (Nat.not_le.mpr hused))
    simp only [State.nbInst_movedOn, State.job_movedOn, State.cyc_movedOn, hrun, hreach, hfree, hrel,
      beq_iff_eq, Bool.not_true, Bool.false_eq_true, if_false]

end Sys2Proof.Machine
end

section
/-! Proofs about the events of the barriers (R226 to R232), and O38. -/

namespace Sys2Proof.Machine

/-! ## What a wait on wires fills with (R227) -/

/-- A release by the deadline fills 0. -/
theorem BwWait.status_of_inTime {w : BwWait} {due : Nat} (h : ∀ t, w.deadline = some t → due ≤ t) : w.status due = 0 := by
  unfold BwWait.status
  split
  next t ht => exact if_neg (Nat.not_lt.mpr (h t ht))
  next => rfl

/-- A deadline that passed before the release comes first. -/
theorem BwWait.status_of_late {w : BwWait} {due t : Nat} (ht : w.deadline = some t) (h : t < due) :
    w.status due = errWord 0x2B := by
  rw [BwWait.status, ht]
  exact if_pos h

/-! ## O38 -/

/-- Settles O38: each clause is one branch of its event. -/
theorem barrierEvents : Obligations.BarrierEvents := by
  unfold Obligations.BarrierEvents
  intro s
  refine ⟨fun d lane => ⟨fun hfull hdue => ?released, fun hopen => ?held⟩,
    fun uid d w t hw ht => ⟨fun hover hkept => ?timedOut, fun hwait => ?waits⟩,
    fun d m t ht => ⟨fun hpast => ?discarded, fun hepoch hroom => ?taken⟩,
    fun w due h => BwWait.status_of_inTime h, fun w due t ht h => BwWait.status_of_late ht h,
    fun uid d n r hn => ⟨fun hlost => ?undelivered, fun hlost => ?goesOn, fun t ht hover => ?abandoned⟩⟩
  case released =>
    rw [exec_barrierRelease, execBarrierRelease]
    exact if_pos (by simp [hfull, hdue])
  case held =>
    rw [exec_barrierRelease, execBarrierRelease]
    refine if_neg ?_
    obtain hopen | hearly := hopen
    · simp [hopen]
    · simp [hearly]
  case timedOut =>
    rw [exec_bwTimeout, execBwTimeout, hw]
    dsimp only
    rw [ht]
    exact if_pos (by simp [hover, hkept])
  case waits =>
    rw [exec_bwTimeout, execBwTimeout, hw]
    dsimp only
    rw [ht]
    refine if_neg ?_
    obtain hearly | hrel := hwait
    · simp [hearly]
    · simp [hrel]
  case discarded =>
    rw [exec_nbarrNoticeArrival, execNbarrNoticeArrival, ht]
    exact if_pos hpast
  case taken =>
    rw [exec_nbarrNoticeArrival, execNbarrNoticeArrival, ht]
    exact (if_neg (Nat.not_lt.mpr hepoch)).trans (if_neg (Bool.eq_false_iff.mp hroom))
  case undelivered =>
    rw [exec_nbarrTimeout, execNbarrTimeout, hn]
    exact if_pos hlost
  case goesOn =>
    rw [exec_nbarrTimeout, execNbarrTimeout, hn]
    exact if_neg (Bool.eq_false_iff.mp hlost)
  case abandoned =>
    rw [exec_nbarrTimeout, execNbarrTimeout, hn]
    dsimp only
    rw [ht]
    exact if_pos hover

end Sys2Proof.Machine
end

section
/-! Proofs about the rounding of quotients (R241, R242) and the conversion of a number to its own type (R246, R248, R253):
O53 and O54. -/

namespace Sys2Proof.Machine

/-! ## The quotient below and the quotient above (R241) -/

section Rounding

variable {n d r : Nat} {neg : Bool}

/-- The next multiple lies above, by less than a whole divisor where the quotient is not exact. -/
theorem div_succ_mul_lt (hrem : n % d ≠ 0) : (n / d + 1) * d < n + d := by
  have := Nat.div_add_mod' n d
  rw [Nat.add_mul]
  omega

/-- How far the quotient below falls short. -/
theorem abs_div_mul_sub (n d : Nat) : |((n / d : Nat) * d : Int) - n| = (n % d : Nat) := by
  have hsplit : ((n / d : Nat) * d : Int) + (n % d : Nat) = n := mod_cast Nat.div_add_mod' n d
  rw [← hsplit, sub_add_cancel_left, abs_neg, Nat.abs_cast]

/-- How far the next quotient goes past. -/
theorem abs_div_succ_mul_sub (hd : 0 < d) : |((n / d + 1 : Nat) * d : Int) - n| = d - (n % d : Nat) := by
  have hsplit : ((n / d : Nat) * d : Int) + (n % d : Nat) = n := mod_cast Nat.div_add_mod' n d
  have hlt : ((n % d : Nat) : Int) ≤ d := mod_cast (Nat.mod_lt n hd).le
  rw [← abs_of_nonneg (sub_nonneg.mpr hlt), ← hsplit]
  congr 1
  push_cast
  ring

/-! ## What each mode rounds to (R241, R242) -/

theorem roundInt_rtz : roundInt .rtz r neg n d = n / d := rfl

theorem roundInt_rup_neg : roundInt .rup r true n d = n / d := if_neg (by simp)

theorem roundInt_rdn_pos : roundInt .rdn r false n d = n / d := if_neg (by simp)

theorem roundInt_rup_pos : roundInt .rup r false n d = if n % d = 0 then n / d else n / d + 1 := by
  simp [roundInt]

/-- Away from zero, under either sign. -/
theorem roundInt_rdn_neg : roundInt .rdn r true n d = roundInt .rup r false n d := by
  simp [roundInt]

theorem roundInt_rne : roundInt .rne r neg n d
    = if d < 2 * (n % d) ∨ (2 * (n % d) = d ∧ n / d % 2 = 1) then n / d + 1 else n / d := rfl

theorem roundInt_sr : roundInt .sr r neg n d = n / d + if 2 ^ 16 ≤ n % d * 2 ^ 16 / d + r then 1 else 0 := by
  rw [add_ite]
  rfl

/-- Away from zero, the dividend is reached, and passed by less than the divisor. -/
theorem roundInt_rup_pos_bounds (hd : 0 < d) :
    n ≤ roundInt .rup r false n d * d ∧ roundInt .rup r false n d * d < n + d := by
  rw [roundInt_rup_pos]
  split
  next hrem =>
    rw [Nat.div_mul_cancel (Nat.dvd_of_mod_eq_zero hrem)]
    exact ⟨le_rfl, Nat.lt_add_of_pos_right hd⟩
  next hrem =>
    refine ⟨?_, div_succ_mul_lt hrem⟩
    rw [Nat.succ_mul]
    exact (Nat.lt_div_mul_add hd).le

/-- To nearest: the error is at most a half, and where it is a half the quotient is even. -/
theorem roundInt_rne_nearest (hd : 0 < d) :
    2 * |(roundInt .rne r neg n d * d : Int) - n| ≤ d
    ∧ (2 * |(roundInt .rne r neg n d * d : Int) - n| = d → roundInt .rne r neg n d % 2 = 0) := by
  rw [roundInt_rne]
  split
  next hup =>
    rw [abs_div_succ_mul_sub hd]
    omega
  next hdown =>
    rw [abs_div_mul_sub]
    omega

/-- An exact quotient stays: no mode moves it, and random bits alone do not reach past its sixteen zero bits (R242). -/
theorem roundInt_of_dvd (hd : 0 < d) (hr : r < 2 ^ 16) (h : d ∣ n) (mode : Rnd) :
    roundInt mode r neg n d = n / d := by
  have hrem : n % d = 0 := Nat.mod_eq_zero_of_dvd h
  cases mode with
  | rtz => exact roundInt_rtz
  | rne => rw [roundInt_rne, if_neg (by omega)]
  | rup => exact if_neg (by simp [hrem])
  | rdn => exact if_neg (by simp [hrem])
  | sr => rw [roundInt_sr, hrem, Nat.zero_mul, Nat.zero_div, if_neg (by omega), Nat.add_zero]

end Rounding

/-! ## O53 -/

/-- Settles O53: under each mode it is the quotient below or the one above, whose distances from the exact value are
known. -/
theorem floatRounding : Obligations.FloatRounding := by
  unfold Obligations.FloatRounding
  intro n d r neg hd hr m
  have hbelow : n / d * d ≤ n := Nat.div_mul_le_self n d
  have hnext : n < n / d * d + d := Nat.lt_div_mul_add hd
  obtain ⟨hreach, hpast⟩ := roundInt_rup_pos_bounds (r := r) (n := n) hd
  refine ⟨⟨hbelow, ?rtz⟩, roundInt_rne_nearest hd, ?pos, ?neg, roundInt_sr, ?exact⟩
  case rtz => exact Nat.succ_mul (n / d) d ▸ hnext
  case pos =>
    rintro rfl
    simp only [m, roundInt_rdn_pos]
    exact ⟨hreach, hpast, hbelow, hnext⟩
  case neg =>
    rintro rfl
    simp only [m, roundInt_rup_neg, roundInt_rdn_neg]
    exact ⟨hreach, hpast, hbelow, hnext⟩
  case exact =>
    intro h mode
    simp only [m, roundInt_of_dvd hd hr h mode, Nat.div_mul_cancel h]

/-! ## Integers of a type (R239) -/

/-- The signed integer types read their elements as every signed integer of that width is read. -/
theorem intOf_signed {t : ElemType} (h2 : t ≠ .t2) (hu : t ≠ .u8) (a : Nat) : intOf t a = signedOf t.bits a := by
  unfold intOf
  split
  · exact absurd rfl hu
  · exact absurd rfl h2
  · rfl

theorem intRange_signed {t : ElemType} (h2 : t ≠ .t2) (hu : t ≠ .u8) :
    intRange t = (-(2 ^ (t.bits - 1) : Int), (2 ^ (t.bits - 1) : Int) - 1) := by
  unfold intRange
  split
  · exact absurd rfl hu
  · exact absurd rfl h2
  · rfl

theorem signedOf_bounds {w : Nat} (hw : 0 < w) (a : Nat) :
    -(2 ^ (w - 1) : Int) ≤ signedOf w a ∧ signedOf w a ≤ 2 ^ (w - 1) - 1 := by
  obtain ⟨w, rfl⟩ := Nat.exists_eq_succ_of_ne_zero hw.ne'
  have hlt := Nat.mod_lt a (Nat.two_pow_pos (w + 1))
  have hpow : ((2 ^ w : Nat) : Int) = 2 ^ w := by push_cast; rfl
  rw [Nat.pow_succ] at hlt
  rw [signedOf, Nat.succ_sub_one, pow_succ, ← hpow]
  split <;> omega

/-- The low bits of an element read with its sign are the element. -/
theorem lowBits_signedOf {w a : Nat} (ha : a < 2 ^ w) : lowBits w (signedOf w a) = a := by
  have hmod : (a : Int) % 2 ^ w = a := Int.emod_eq_of_lt (Int.natCast_nonneg a) (mod_cast ha)
  rw [lowBits, signedOf, Nat.mod_eq_of_lt ha]
  split
  · rw [hmod, Int.toNat_natCast]
  · rw [Int.sub_emod_right, hmod, Int.toNat_natCast]

/-! ## A number in its own type (R246, R248) -/

/-- An integer in the range of its type is its low bits, with no flag. -/
theorem intToInt_of_inRange {t : ElemType} {i : Int} (hlo : (intRange t).1 ≤ i) (hhi : i ≤ (intRange t).2) (sat : Bool) :
    intToInt t sat i = (lowBits t.bits i, 0) := by
  rw [intToInt, if_neg (not_lt.mpr hlo), if_neg (not_lt.mpr hhi)]

theorem intToInt_intOf {t : ElemType} {a : Nat} (h2 : t ≠ .t2) (ha : a < 2 ^ t.bits) (sat : Bool) :
    intToInt t sat (intOf t a) = (a, 0) := by
  by_cases hu : t = .u8
  · subst hu
    have hbyte : a < 256 := ha
    have hval : intOf .u8 a = a := congrArg Nat.cast (Nat.mod_eq_of_lt hbyte)
    have hmax : (a : Int) ≤ 255 := by omega
    rw [hval, intToInt_of_inRange (Int.natCast_nonneg a) hmax]
    exact congrArg (·, 0) (Nat.mod_eq_of_lt hbyte)
  · have hw : 0 < t.bits := by cases t <;> decide
    obtain ⟨hlo, hhi⟩ := signedOf_bounds hw a
    rw [intOf_signed h2 hu, intToInt_of_inRange (by rwa [intRange_signed h2 hu]) (by rwa [intRange_signed h2 hu]),
      lowBits_signedOf ha]

theorem tritFlag_of_ne {t : ElemType} (h : t ≠ .t2) (a : Nat) : tritFlag t a = 0 := if_neg fun h' => h h'.1

section ToItself

variable {t : ElemType} {mode : Rnd} {sat : Bool} {r a : Nat}

theorem convert_self_of_int (hf : isFloat t = false) (h2 : t ≠ .t2) (ha : a < 2 ^ t.bits) :
    convert t t mode sat r a = (a, 0) := by
  simp only [convert, hf, Bool.false_eq_true, if_false, intToInt_intOf h2 ha, tritFlag_of_ne h2]

theorem convert_self_of_nan (hf : isFloat t = true) (h : isNanV (unpack t a) = true) :
    (convert t t mode sat r a).1 = fmtNan t := by
  rw [convert, if_pos hf, if_pos rfl]
  cases hv : unpack t a with
  | nan sig => rfl
  | inf neg | fin neg n d => simp [hv, isNanV] at h

theorem convert_self_of_number (hf : isFloat t = true) (h : isNanV (unpack t a) = false) (ha : a < 2 ^ t.bits) :
    convert t t mode sat r a = (a, 0) := by
  rw [convert, if_pos hf, if_pos rfl]
  cases hv : unpack t a with
  | nan sig => simp [hv, isNanV] at h
  | inf neg | fin neg n d => exact congrArg (·, 0) (Nat.mod_eq_of_lt ha)

end ToItself

/-! ## O54 -/

/-- Settles O54: an integer lies in the range of its own type, and a floating-point value that is no NaN is passed on. -/
theorem conversionToItself : Obligations.ConversionToItself := by
  unfold Obligations.ConversionToItself
  intro t mode sat r a h2 ha _
  exact ⟨fun hf => convert_self_of_int hf h2 ha, fun hf hnan => convert_self_of_nan hf hnan,
    fun hf hnan => convert_self_of_number hf hnan ha⟩

end Sys2Proof.Machine
end

section
/-! Proofs about scalar floating-point instructions (R253 to R256), and O10. -/

namespace Sys2Proof.Machine

/-! ## Short producers that bring flags (R250, R256) -/

@[simp] theorem Context.addFlags_slot (c : Context) (fl : BitVec 16) (nan : Option NanCap) :
    (c.addFlags fl nan).slot = c.slot := by
  fun_cases Context.addFlags <;> rfl

theorem Context.addFlags_of_captures {c : Context} {n : NanCap} {fl : BitVec 16}
    (h : (c.captures n && fl.getLsbD 5) = true) :
    c.addFlags fl (some n)
      = { c with flags := c.flags ||| fl, nanpos := n.pos, nanfmt := n.fmt ||| 0x8000, nanSeq := some n.seq } :=
  if_pos h

theorem Context.addFlags_of_not_captures {c : Context} {n : NanCap} {fl : BitVec 16}
    (h : ¬(c.captures n && fl.getLsbD 5) = true) : c.addFlags fl (some n) = { c with flags := c.flags ||| fl } :=
  if_neg h

/-- The marks of moving on stay apart from flags and capture. -/
theorem Context.addFlags_marks (c : Context) (pc : BitVec 64) (e : Bool) (blk) (fl : BitVec 16) (nan : Option NanCap) :
    ({ c with pc := pc, pastEnd := e, block := blk } : Context).addFlags fl nan
      = { c.addFlags fl nan with pc := pc, pastEnd := e, block := blk } := by
  cases nan with
  | none => rfl
  | some n =>
    by_cases h : (c.captures n && fl.getLsbD 5) = true
    · rw [Context.addFlags_of_captures h]
      exact Context.addFlags_of_captures h
    · rw [Context.addFlags_of_not_captures h]
      exact Context.addFlags_of_not_captures h

section Shapes

variable {s : State} {c : Context} {ctl : Ctl} {i : Instr} {op : Nat} {t : ElemType} {a b : XSrc}

/-- A short producer writes its register and sets its flags at once, with its own place in the issue order. -/
theorem completes_fShort2 {d : AnyReg} {f : Nat → Nat → Nat × Nat} {r : Nat × Nat} (h : s.ready c ctl [xSrc a, xSrc b] [d])
    (hi : exec i s = fShort2 op ctl t d a b f s)
    (hr : f ((xVal c a).toNat % 2 ^ t.bits) ((xVal c b).toNat % 2 ^ t.bits) = r) :
    s.completes ctl c i ((c.setAny d ((BitVec.ofNat 64 r.1).setWidth 1024)).addFlags (flagBits r.2)
      ((scalarNan t t t).map fun n => n.by c.serial)) := by
  subst hr
  rw [State.completes, State.goesTo, hi, fShort2]
  refine issue_context _ _ h rfl (congrArg Res.done (State.modCtx_modCtx ..)) ?_ (by simp)
  rw [Context.setAny_moved, Context.addFlags_marks]
  rfl

theorem completes_fLong2 {d : Fin 64} {f : Nat → Nat → Nat × Nat} (h : s.ready c ctl [xSrc a, xSrc b] [.x d])
    (hi : exec i s = fLong2 op ctl t d a b f s) :
    s.completes ctl c i (c.awaits (floatFill d
      (f ((xVal c a).toNat % 2 ^ t.bits) ((xVal c b).toNat % 2 ^ t.bits)) (scalarNan t t t))) :=
  State.completes_awaits h hi rfl

theorem completes_fLong1 {d : Fin 64} {f : Nat → Nat × Nat} (h : s.ready c ctl [xSrc a] [.x d])
    (hi : exec i s = fLong1 op ctl t d a f s) :
    s.completes ctl c i (c.awaits (floatFill d (f ((xVal c a).toNat % 2 ^ t.bits)) (scalarNan t t t))) :=
  State.completes_awaits h hi rfl

end Shapes

/-- A comparison writes its outcome as a number, of which a p register takes the low bit. -/
theorem getLsbD_fcmpNum (t : ElemType) (cond : FCond) (a b : Nat) :
    (BitVec.ofNat 64 (fcmpNum t cond a b).1).getLsbD 0 = (fCompare t cond a b).1 := by
  cases h : (fCompare t cond a b).1 <;> simp [fcmpNum, h]

/-! ## FCVT (R246 to R248) -/

section Fcvt

variable {s : State} {c : Context} {ctl : Ctl} {sat : Bool} {r : Rnd} {d : Fin 64} {a : XSrc} {src dst : ElemType}

/-- Under another mode, or for a pair that is never inexact, no generator takes a step. -/
theorem completes_fcvt_of_noStep (h : s.ready c ctl [xSrc a] [.x d]) (hno : r ≠ .sr ∨ neverInexact src dst = true) :
    let v := convert src dst r sat (stippleLane 0 0) ((xVal c a).toNat % 2 ^ src.bits)
    s.completes ctl c (.fcvt ctl sat r d a src dst) (c.awaits { valueFill (.x d) (fcvtWord dst v.1) with
      flags := flagBits v.2, nan := scalarNan dst src src }) := by
  have hstep : (r == .sr && !(neverInexact src dst)) = false := by
    obtain hr | hx := hno
    · simp [hr]
    · simp [hx]
  refine State.completes_awaits h (exec_fcvt ..) ?_
  simp only [hstep, Bool.false_and, Bool.false_eq_true, if_false]
  rfl

/-- Under SR the group that the scalar converter draws gives the random bits. -/
theorem doneAs_fcvt_of_step (h : s.ready c ctl [xSrc a] [.x d]) (hx : neverInexact src dst = false)
    (hheld : (s.movedOn s.issuing).scalarHeld c = false) :
    let g := (s.movedOn s.issuing).scalarGroup c (xVal c a)
    let v := convert src dst .sr sat (stippleLane g.1 0) ((xVal c a).toNat % 2 ^ src.bits)
    s.doneAs ctl c [xSrc a] [.x d] (.fcvt ctl sat .sr d a src dst)
      (g.2.produce s.issuing { valueFill (.x d) (fcvtWord dst v.1) with
        flags := flagBits v.2, nan := scalarNan dst src src }) := by
  refine State.doneAs_of_done h (exec_fcvt ..) rfl ?_
  simp only [hx, hheld, Bool.not_false, Bool.and_true, Bool.and_false, Bool.false_eq_true, if_false, beq_self_eq_true,
    if_true]
  rfl

end Fcvt

/-! ## O10 -/

/-- Settles O10: arithmetic leaves a fill on its way, `FMIN`, `FMAX`, `FCMP` and `FCLASS` write at once, and `FCVT` draws a
group where the mode and the pair ask for one. -/
theorem scalarFloat : Obligations.ScalarFloat := by
  unfold Obligations.ScalarFloat
  intro s c ctl f r t arg fills stamped
  refine ⟨fun d a b h => ⟨?fadd, ?fsub, ?fmul, ?fdiv, ?fmin, ?fmax⟩, fun d a b h => ?ffma,
    fun d a h => ⟨?fsqrt, ?frnd, ?fclass, ?fcvt⟩, fun cond pd a b h => ?fcmp⟩
  case fadd => exact completes_fLong2 h (exec_fadd ..)
  case fsub => exact completes_fLong2 h (exec_fsub ..)
  case fmul => exact completes_fLong2 h (exec_fmul ..)
  case fdiv => exact completes_fLong2 h (exec_fdiv ..)
  case fmin => exact Context.setAny_x .. ▸ completes_fShort2 h (exec_fmin ..) rfl
  case fmax => exact Context.setAny_x .. ▸ completes_fShort2 h (exec_fmax ..) rfl
  case ffma => exact State.completes_awaits h (exec_ffma ..) rfl
  case fsqrt => exact completes_fLong1 h (exec_fsqrt ..)
  case frnd => exact completes_fLong1 h (exec_frnd ..)
  case fclass => exact State.completes_setX h (exec_fclass ..) rfl
  case fcvt =>
    intro sat src dst fill m
    refine ⟨completes_fcvt_of_noStep h, ?_⟩
    rintro rfl hx hheld
    exact doneAs_fcvt_of_step h hx hheld
  case fcmp =>
    have hcmp := completes_fShort2 h (exec_fcmp ctl f cond pd a b s) rfl
    rwa [Context.setAny_p, getLsbD_fcmpNum] at hcmp

end Sys2Proof.Machine
end

section
/-! Proofs about vector instructions as they issue (R257, R259, R260), and O24. -/

namespace Sys2Proof.Machine

/-! ## The queue of a vector engine (R257, R259) -/

/-- The state after a command of context `c` has taken an entry of its core's queue: its destinations are pending, and its
region is charged. -/
def State.vecQueued (s : State) (uid : Nat) (c : Context) (dests : List AnyReg) (job : VecJob) : State :=
  ((dests.foldl (fun (u : State) r => u.pendReg uid r) s).modCore c.die.val c.core.val fun k =>
    { k with vec := k.vec ++ [{ uid := uid, world := c.world, seq := c.serial, dests := dests, job := job }] }).charge
      c.region (coreKey c.die.val c.core.val) 0 128

/-- A command finds an entry of its core's queue. -/
theorem State.vecCmd_of_room {s : State} {c : Context} (uid : Nat) (dests : List AnyReg) (job : VecJob)
    (hroom : (s.core c.die.val c.core.val).vec.length < 2) :
    s.vecCmd uid c dests job = .done (s.vecQueued uid c dests job) :=
  if_neg (Nat.not_le.mpr hroom)

@[simp] theorem State.core_movedOn (s : State) (uid d n : Nat) : (s.movedOn uid).core d n = s.core d n :=
  State.core_modCtx ..

@[simp] theorem State.core_jobSeed (s : State) (lid d n : Nat) : (s.jobSeed lid).2.core d n = s.core d n := by
  unfold State.jobSeed
  split <;> rfl

/-- In native mode the generator of a command leaves the cores alone (R244). -/
@[simp] theorem State.core_vecGroup (s : State) (c : Context) (src : BitVec 1024) (d n : Nat) :
    (s.vecGroup c src).2.core d n = s.core d n :=
  State.core_jobSeed ..

/-! ## Commands as they issue -/

section Commands

variable {s u : State} {c : Context} {ctl : Ctl} {i : Instr} {op : Nat} {rd : List Src} {wr : List AnyReg}
  {body : Nat → Context → State → Res} {job : VecJob}

/-- A body that hands a command to the engine, from a state whose queues are those of the issue. -/
theorem State.doneAs_vecQueued (hcore : u.core c.die.val c.core.val = s.core c.die.val c.core.val)
    (hroom : (s.core c.die.val c.core.val).vec.length < 2) (hi : exec i s = issue op ctl noPriv rd wr s body)
    (hb : body s.issuing c (s.movedOn s.issuing) = u.vecCmd s.issuing c wr job) (h : s.ready c ctl rd wr) :
    s.doneAs ctl c rd wr i (u.vecQueued s.issuing c wr job) :=
  State.doneAs_of_done h hi rfl (hb.trans (State.vecCmd_of_room _ _ _ (hcore ▸ hroom)))

/-- A command whose results are known at issue. -/
theorem State.doneAs_vecQueued_movedOn (hroom : (s.core c.die.val c.core.val).vec.length < 2)
    (hi : exec i s = issue op ctl noPriv rd wr s body)
    (hb : body s.issuing c (s.movedOn s.issuing) = (s.movedOn s.issuing).vecCmd s.issuing c wr job)
    (h : s.ready c ctl rd wr) : s.doneAs ctl c rd wr i ((s.movedOn s.issuing).vecQueued s.issuing c wr job) :=
  State.doneAs_vecQueued (State.core_movedOn ..) hroom hi hb h

/-- A command that may convert under SR: without a step of a generator it takes no group, in native mode it draws its
group at issue, and on an SL-480 generator it draws when it starts (R245, R266). -/
theorem State.doneAs_vecQueued_drawing {steps : Bool} {src : BitVec 1024} {now : BitVec 64 → VecJob} {later : VecJob}
    (hroom : (s.core c.die.val c.core.val).vec.length < 2) (hi : exec i s = issue op ctl noPriv rd wr s body)
    (hb : body s.issuing c (s.movedOn s.issuing)
      = if steps && c.srmode then (s.movedOn s.issuing).vecCmd s.issuing c wr later
        else
          let g := if steps then (s.movedOn s.issuing).vecGroup c src else (0, s.movedOn s.issuing)
          g.2.vecCmd s.issuing c wr (now g.1)) :
    let m := s.movedOn s.issuing
    let g := m.vecGroup c src
    (steps = false → s.ready c ctl rd wr → s.doneAs ctl c rd wr i (m.vecQueued s.issuing c wr (now 0)))
    ∧ (steps = true → c.srmode = false → s.ready c ctl rd wr →
      s.doneAs ctl c rd wr i (g.2.vecQueued s.issuing c wr (now g.1)))
    ∧ (steps = true → c.srmode = true → s.ready c ctl rd wr →
      s.doneAs ctl c rd wr i (m.vecQueued s.issuing c wr later)) := by
  refine ⟨?noStep, ?native, ?compat⟩
  case noStep =>
    rintro rfl
    exact State.doneAs_vecQueued_movedOn hroom hi hb
  case native =>
    rintro rfl hmode
    rw [hmode] at hb
    exact State.doneAs_vecQueued ((State.core_vecGroup ..).trans (State.core_movedOn ..)) hroom hi hb
  case compat =>
    rintro rfl hmode
    rw [hmode] at hb
    exact State.doneAs_vecQueued_movedOn hroom hi hb

end Commands

/-! ## O24 -/

/-- Settles O24: every instruction but `VCVT` and `VQNT` hands the engine its results, and those two do as
`State.doneAs_vecQueued_drawing` says. -/
theorem vectorCommands : Obligations.VectorCommands := by
  unfold Obligations.VectorCommands
  intro s c ctl t hroom uid m takes lanes
  have hlanes {i : Instr} {op : Nat} {f : Nat → Nat → Nat × Nat} (d : Fin 32) (a : VSrc) (b : SOp)
      (hi : exec i s = vec2 op ctl t d a b f s) : takes m i (vSrc a :: sSrcs b) [.v d] (lanes f a b) :=
    State.doneAs_vecQueued_movedOn hroom hi rfl
  have hone {i : Instr} {op : Nat} {f : BitVec 1024 → Result} (d : Fin 32) (a : VSrc)
      (hi : exec i s = vec1 op ctl d a f s) : takes m i [vSrc a] [.v d] (.done [f (vVal c a)]) :=
    State.doneAs_vecQueued_movedOn hroom hi rfl
  have happrox {i : Instr} {op : Nat} {f : Nat → Nat × Nat} (d : Fin 32) (a : VSrc)
      (hi : exec i s = vecApprox op ctl d a f s) :
      takes m i [vSrc a] [.v d] (.done [laneResult 32 (nanFmt .f32 .f32 .f32) ((lanesOf 32 (vVal c a)).map f)]) :=
    hone (f := fun v => laneResult 32 (nanFmt .f32 .f32 .f32) ((lanesOf 32 v).map f)) d a hi
  refine ⟨fun d a b => ⟨?vadd, ?vsub, ?vmul, ?vmin, ?vmax, ?vcmp, ?vand, ?vor, ?vxor, ?vshl, ?vshr⟩,
    fun d a => ⟨?vabs, ?vrcpa, ?vrsqa, ?vexp2a, ?vlog2a, fun op => ⟨?vred, ?vscan⟩, ?vamax, ?vmov⟩,
    fun d a b => ?vfma, fun d a b => ⟨?vsel, ?vdot⟩, fun d a b => ?vperm, fun d a k => ?vbcast, fun d a => ?vsplat, fun d a k => ?vextr,
    fun d a k => ?vdqnt, fun d a k => ?vcvt, fun d a k => ?vqnt⟩
  case vadd => exact hlanes d a b (exec_vadd ..)
  case vsub => exact hlanes d a b (exec_vsub ..)
  case vmul => exact hlanes d a b (exec_vmul ..)
  case vmin => exact hlanes d a b (exec_vmin ..)
  case vmax => exact hlanes d a b (exec_vmax ..)
  case vcmp => exact hlanes d a b (exec_vcmp ..)
  case vand => exact hlanes d a b (exec_vand ..)
  case vor => exact hlanes d a b (exec_vor ..)
  case vxor => exact hlanes d a b (exec_vxor ..)
  case vshl => exact hlanes d a b (exec_vshl ..)
  case vshr => exact hlanes d a b (exec_vshr ..)
  case vabs =>
    exact hone (f := fun v => laneResult t.bits (nanFmt t t t) ((lanesOf t.bits v).map (absLane t))) d a (exec_vabs ..)
  case vrcpa => exact happrox d a (exec_vrcpa ..)
  case vrsqa => exact happrox d a (exec_vrsqa ..)
  case vexp2a => exact happrox d a (exec_vexp2a ..)
  case vlog2a => exact happrox d a (exec_vlog2a ..)
  case vred => exact hone d a (exec_vred ..)
  case vscan => exact hone d a (exec_vscan ..)
  case vamax => exact hone d a (exec_vamax ..)
  case vmov => exact hone (f := fun v => plainResult (ofLanes t.bits (lanesOf t.bits v))) d a (exec_vmov ..)
  case vfma => exact State.doneAs_vecQueued_movedOn hroom (exec_vfma ctl t d a b s) rfl
  case vsel => exact State.doneAs_vecQueued_movedOn hroom (exec_vsel ctl t d a b s) rfl
  case vdot => exact State.doneAs_vecQueued_movedOn hroom (exec_vdot ctl t d a b s) rfl
  case vperm => exact State.doneAs_vecQueued_movedOn hroom (exec_vperm ctl t d a b s) rfl
  case vbcast => exact State.doneAs_vecQueued_movedOn hroom (exec_vbcast ctl t d a k s) rfl
  case vsplat => exact State.doneAs_vecQueued_movedOn hroom (exec_vsplat ctl t d a s) rfl
  case vextr => exact State.doneAs_vecQueued_movedOn hroom (exec_vextr ctl t d a k s) rfl
  case vdqnt =>
    have hi := exec_vdqnt ctl t d a k s
    dsimp only [execVdqnt] at hi
    exact State.doneAs_vecQueued_movedOn hroom hi rfl
  case vcvt =>
    have hi := exec_vcvt ctl t d a k s
    dsimp only [execVcvt] at hi
    exact State.doneAs_vecQueued_drawing (now := fun g => .done [cvtResult t k (vVal c a) (vVal c d) g]) hroom hi rfl
  case vqnt =>
    have hi := exec_vqnt ctl t d a k s
    dsimp only [execVqnt] at hi
    exact State.doneAs_vecQueued_drawing
      (now := fun g => .done (qntResults t k (vVal c a) (vVal c d) (c.getV (nextV d.reg).val) g)) hroom hi rfl

end Sys2Proof.Machine
end

section
/-! Proofs about the events of the engines (R258, R279, R287, R297, R303, R306, R322, R336), and O39. -/

namespace Sys2Proof.Machine

/-! ## The vector engine (R258) -/

/-- The head of a vector queue starts, where no other converter goes first. -/
theorem exec_vectorCommandStart_of_head {s : State} {d : DieNo} {c : CoreNo} {k : VecCmd} {rest : List VecCmd}
    (hqueue : (s.core d.val c.val).vec = k :: rest) (hheld : s.vecHeld d.val c.val k = false) :
    let r := (s.modCore d.val c.val fun x => { x with vec := rest }).vecJob k.uid d.val c.val k.job
    exec (.vectorCommandStart d c) s = .next (r.1.giveResults k.uid k.dests r.2 k.seq) := by
  rw [exec_vectorCommandStart, execVectorCommandStart, hqueue]
  exact if_neg (by simp [hheld])

/-! ## The queue of a matrix engine (R279) -/

section Matrix

variable {s : State} {d : DieNo} {c : CoreNo} {k : MatCmd}

/-- With no `MMA` in the array unit, or one whose tile has not come, the head of the queue starts where it may. -/
theorem exec_matrixCommandStart_of_head {rest : List MatCmd}
    (harray : (s.core d.val c.val).mat.array = none ∨ (s.core d.val c.val).mat.latch = [])
    (hqueue : (s.core d.val c.val).mat.queue = k :: rest) (hmay : (s.core d.val c.val).mat.mayStart k = true) :
    exec (.matrixCommandStart d c) s = .next (s.startHead k d.val c.val) := by
  have hnext : s.startNext d.val c.val = s.startHead k d.val c.val := by
    rw [State.startNext, hqueue]
    exact if_pos hmay
  rw [exec_matrixCommandStart, execMatrixCommandStart, ← hnext]
  split
  next p hsome =>
    have hlatch := harray.resolve_left (by simp [hsome])
    rw [hlatch]
    rfl
  next => rfl

/-- An `MMA` in the array unit runs once its tile has come. -/
theorem exec_matrixCommandStart_of_tile {since : Nat} (harray : (s.core d.val c.val).mat.array = some (k, since))
    (hlatch : (s.core d.val c.val).mat.latch ≠ []) :
    exec (.matrixCommandStart d c) s = .next (s.runArray k d.val c.val) := by
  rw [exec_matrixCommandStart, execMatrixCommandStart, harray]
  exact congrArg Host.Outcome.next (if_neg (by simpa using hlatch))

theorem State.startHead_of_fin {d c : Nat} {t : State} {v : BitVec 64} {fl : Nat} {nan : Option NanCap}
    (h : s.startMat k d c = .fin t v fl nan) :
    s.startHead k d c
      = (t.modMat d c fun e => { e with queue := e.queue.drop 1 }).pushFill k.uid (matFill k v fl nan) := by
  rw [State.startHead, h]

/-- A command that waits in the array unit leaves the queue, with the A stage as it stands. -/
theorem State.startHead_of_wait {d c : Nat} (h : s.startMat k d c = .wait) (hload : k.op.isLoad = false) :
    s.startHead k d c = (s.modMat d c fun e => { e with queue := e.queue.drop 1 }).modMat d c fun e =>
      { e with array := some (k, s.cyc d), held := e.astage } := by
  rw [State.startHead, h]
  exact if_neg (by simp [hload])

theorem State.startHead_of_send {d c : Nat} (h : s.startMat k d c = .send) :
    s.startHead k d c = (s.modMat d c fun e => { e with queue := e.queue.drop 1 }).modMat d c fun e =>
      { e with sending := some k, since := if s.ringMoves d c then none else some (s.cyc d) } := by
  rw [State.startHead, h]

/-! ## The ring (R287) -/

/-- The tile of an `MRING` moves to the next latch. -/
theorem exec_ringTileArrival_of_taken {h : Tile} {rest : List Tile}
    (hsending : (s.core d.val c.val).mat.sending = some k) (hlatch : (s.core d.val c.val).mat.latch = h :: rest)
    (htakes : s.ringTakes d.val c.val = some true) :
    exec (.ringTileArrival d c) s
      = .next (((s.moveTile d.val c.val h).matCharge k.uid (if h.fmt = .t2 then 1536 else 6144)).endRing k d.val c.val
          0) := by
  rw [exec_ringTileArrival, execRingTileArrival]
  rw [hsending, hlatch, htakes]

/-- The next engine of the ring can never take the tile. -/
theorem exec_ringTileArrival_of_never (hsending : (s.core d.val c.val).mat.sending = some k)
    (htakes : s.ringTakes d.val c.val = none) :
    exec (.ringTileArrival d c) s = .next (s.endRing k d.val c.val 0x36) := by
  rw [exec_ringTileArrival, execRingTileArrival]
  rw [hsending, htakes]

/-- The next engine of the ring has no room yet, or there is no tile to send: the `MRING` waits. -/
theorem exec_ringTileArrival_of_waits (hsending : (s.core d.val c.val).mat.sending = some k)
    (hwait : s.ringTakes d.val c.val = some false
      ∨ (s.ringTakes d.val c.val = some true ∧ (s.core d.val c.val).mat.latch = [])) :
    exec (.ringTileArrival d c) s
      = .next (s.modMat d.val c.val fun e => { e with since := e.since.orElse fun _ => some (s.cyc d.val) }) := by
  rw [exec_ringTileArrival, execRingTileArrival]
  rw [hsending]
  obtain hfalse | ⟨htrue, hlatch⟩ := hwait
  · rw [hfalse]
  · rw [htrue, hlatch]

/-- The wait of an `MRING` ends after its time. -/
theorem exec_ringTimeout_of_sending {t : Nat} (hsending : (s.core d.val c.val).mat.sending = some k)
    (hsince : (s.core d.val c.val).mat.since = some t) (hlate : s.ringLate d.val t = true)
    (hmoves : s.ringMoves d.val c.val = false) :
    exec (.ringTimeout d c) s = .next (s.endRing k d.val c.val 0x37) := by
  rw [exec_ringTimeout, execRingTimeout]
  rw [hsince, hsending, Option.any_some, hlate, hmoves]
  rfl

/-- The wait of an `MMA` in the array unit ends after its time. -/
theorem exec_ringTimeout_of_array {since : Nat} (hsince : (s.core d.val c.val).mat.since = none)
    (harray : (s.core d.val c.val).mat.array = some (k, since)) (hlate : s.ringLate d.val since = true)
    (hlatch : (s.core d.val c.val).mat.latch = []) :
    exec (.ringTimeout d c) s = .next ((s.modMat d.val c.val fun e => { e with array := none, held := none }).pushFill k.uid
      (matFill k (errWord 0x37) 0 none)) := by
  rw [exec_ringTimeout, execRingTimeout]
  rw [if_neg (by simp [hsince]), harray]
  exact if_pos (by simp [hlate, hlatch])

end Matrix

/-! ## The copy engine (R297, R303, R306) -/

section Copy

variable {s : State} {d : DieNo} {c : CoreNo}

/-- The state after the copy engine of a core has taken a command, of the schedule queue or of its own. -/
def State.copyStarted (s : State) (d c : Nat) (k : CopyCmd) (sch : Bool) : State :=
  { s.modCpy d c fun e =>
      { queue := if sch then e.queue else e.queue.drop 1, sched := if sch then e.sched.drop 1 else e.sched,
        run := some { num := s.nextOrder, cmd := k, ended := startEnd k.desc.toNat, landing := false, sent := [],
                      piece := k.offset, abort := none }, alt := !sch } with
    nextOrder := s.nextOrder + 1 }

/-- An idle copy engine takes its next command; a command with work to do, and at its beginning, writes its tags. -/
theorem exec_copyCommandStart_of_next {k : CopyCmd} {sch : Bool} (hrun : (s.core d.val c.val).cpy.run = none)
    (hnext : (s.core d.val c.val).cpy.next = some (k, sch)) :
    exec (.copyCommandStart d c) s
      = if (startEnd k.desc.toNat).isNone && k.offset == 0 then
          .next ((s.copyStarted d.val c.val k sch).writeTags k d.val c.val)
        else .next (s.copyStarted d.val c.val k sch) := by
  rw [exec_copyCommandStart, execCopyCommandStart]
  rw [hrun, hnext]
  rfl

/-- The command that runs does its next piece. -/
theorem exec_copyPieceWrite_of_run {r : CopyRun} (hrun : (s.core d.val c.val).cpy.run = some r)
    (hland : r.landing = false) (hended : r.ended = none) (habort : r.abort = none)
    (hwaits : s.runWaits d.val r = false) :
    exec (.copyPieceWrite d c) s = .next (s.nextPiece d.val c.val r.num r.cmd false) := by
  rw [exec_copyPieceWrite, execCopyPieceWrite, State.copyStep, hrun]
  exact congrArg Host.Outcome.next (if_neg (by simp [hland, hended, habort, hwaits]))

/-- The command that runs has ended, and no packet or request of it is outstanding: its code says what follows. -/
theorem exec_copyCommandComplete_of_end {r : CopyRun} {code : BitVec 8} {off : Nat}
    (hrun : (s.core d.val c.val).cpy.run = some r) (hland : r.landing = false) (hend : r.end? = some (code, off))
    (hwaits : s.runWaits d.val r = false) :
    let t := s.modCpy d.val c.val fun e => { e with run := none }
    exec (.copyCommandComplete d c) s
      = if code = 0x44 then .next ((t.abortCmd r.cmd off).countAbort r.abort)
        else if code ≠ 0 then .next (t.copyStatus r.cmd (copyFailed code off))
        else
          let q := if r.cmd.member = 0 then (t, 0) else t.signalBy r.cmd.world r.cmd.member
          .next (q.1.copyStatus r.cmd (copyDone r.cmd q.2)) := by
  rw [exec_copyCommandComplete, execCopyCommandComplete, hrun]
  dsimp only
  rw [hend]
  exact if_neg (by simp [hland, hwaits])

end Copy

/-! ## The view engine (R322, R336) -/

section View

variable {s : State} {d : DieNo}

/-- The refresh queue is served, where it is its turn or the quantisation queue has nothing to do. -/
theorem exec_viewRefresh_of_turn {r : Refresh} {rest : List Refresh} (hqueue : (s.die d.val).refresh = r :: rest)
    (hturn : (s.die d.val).quantTurn = false ∨ (s.die d.val).quant = [] ∨ s.quantWaits d.val = true)
    (hheld : s.refreshHeld d.val r = false) :
    exec (.viewRefresh d) s
      = .next ((s.modDie d.val fun k => { k with refresh := rest, quantTurn := true }).serveRefresh r false) := by
  have hyield : ((s.die d.val).quantTurn && !(s.die d.val).quant.isEmpty && !(s.quantWaits d.val)) = false := by
    obtain h | h | h := hturn
    · simp [h]
    · simp [h]
    · simp [h]
  rw [exec_viewRefresh, execViewRefresh, State.viewStep, hqueue]
  exact congrArg Host.Outcome.next (if_neg (by simp [hyield, hheld]))

/-- The quantisation queue is served, where it is its turn or the refresh queue is empty: its head fills its
status once it is over, and else quantises a block. -/
theorem State.quantStep_of_turn {d : Nat} {q : Quant} {rest : List Quant} (bad : Bool)
    (hqueue : (s.die d).quant = q :: rest) (hturn : (s.die d).quantTurn = true ∨ (s.die d).refresh = [])
    (hwaits : s.quantWaits d = false) (hheld : s.quantHeld q = false) :
    s.quantStep d bad
      = if q.over then
          (s.modDie d fun k => { k with quant := rest, quantTurn := false }).pushFill q.uid
            { valueFill q.dest (match q.fail with
                | some (code, i) => copyFailed (BitVec.ofNat 8 code) i
                | none => 0) with flags := q.flags, nan := q.nan.map fun x => x.by q.order }
        else
          let z := s.quantOne d q bad
          z.1.modDie d fun k => { k with quant := z.2 :: rest, quantTurn := false } := by
  have hyield : (!(s.die d).quantTurn && !(s.die d).refresh.isEmpty) = false := by
    obtain h | h := hturn
    · simp [h]
    · simp [h]
  rw [State.quantStep, hqueue]
  exact if_neg (by simp [hyield, hwaits, hheld])

end View

/-! ## O39 -/

/-- Settles O39: each clause is one branch of its event. -/
theorem engineEvents : Obligations.EngineEvents := by
  unfold Obligations.EngineEvents
  intro s d
  refine ⟨fun c k rest => exec_vectorCommandStart_of_head, ?matrixHead,
    fun c k since => exec_matrixCommandStart_of_tile, ?ring, fun c k since => exec_ringTimeout_of_array, ?copyStart,
    ?copyRun, fun r rest => exec_viewRefresh_of_turn, ?quant⟩
  case matrixHead =>
    intro c k rest e harray hqueue hmay pop
    have hstart := exec_matrixCommandStart_of_head harray hqueue hmay
    refine ⟨fun t v fl nan hfin => ?fin, fun hwait hload => ?wait, fun hsend => ?send⟩
    case fin => rw [hstart, State.startHead_of_fin hfin]
    case wait => rw [hstart, State.startHead_of_wait hwait hload]
    case send => rw [hstart, State.startHead_of_send hsend]
  case ring =>
    intro c k e ended hsending
    exact ⟨fun h rest => exec_ringTileArrival_of_taken hsending, exec_ringTileArrival_of_never hsending,
      exec_ringTileArrival_of_waits hsending, fun t => exec_ringTimeout_of_sending hsending⟩
  case copyStart =>
    intro c k sch e hrun hnext t u
    have hstart := exec_copyCommandStart_of_next hrun hnext
    refine ⟨fun hend hoff => hstart.trans (if_pos (by simp [hend, hoff])), fun hother => hstart.trans (if_neg ?_)⟩
    simpa [Option.isNone_iff_eq_none, imp_iff_not_or] using hother
  case copyRun =>
    intro c r hrun hland
    refine ⟨exec_copyPieceWrite_of_run hrun hland, fun code off hend hwaits => ?_⟩
    have hdone := exec_copyCommandComplete_of_end hrun hland hend hwaits
    refine ⟨fun h => ?aborted, fun h0 h => ?failed, fun h hmember => ?done, fun h hmember => ?signals⟩
    case aborted => exact hdone.trans (if_pos h)
    case failed => exact hdone.trans ((if_neg h).trans (if_pos h0))
    case done =>
      subst h
      refine hdone.trans ?_
      dsimp only
      rw [if_pos hmember]
      rfl
    case signals =>
      subst h
      refine hdone.trans ?_
      dsimp only
      rw [if_neg hmember]
      rfl
  case quant =>
    intro q rest hqueue hturn hwaits hheld
    have hstep := State.quantStep_of_turn false hqueue hturn hwaits hheld
    exact ⟨fun hover => congrArg Host.Outcome.next (hstep.trans (if_pos hover)),
      fun hover => congrArg Host.Outcome.next (hstep.trans (if_neg (by simp [hover])))⟩

end Sys2Proof.Machine
end

section
/-! Proofs about the instructions on master views (R328 to R337), and O27. -/

namespace Sys2Proof.Machine

/-! ## Accesses that nothing holds -/

/-- An access whose words no migration holds goes on. -/
theorem State.throughMove_of_free {s : State} {uid : Nat} {c : Context} {acc : Acc} {go : State → Res}
    (h : s.pauser uid .issue (s.places acc) = none) : s.throughMove uid c acc go = go (s.unpause uid .issue) := by
  rw [State.throughMove, h]

/-! ## VWLD (R331, R332) -/

section Load

variable {u t : State} {uid : Nat} {c : Context} {pol : VwPolicy} {loc : BitVec 2} {r : Fin 32} {va b : Nat} {k : Master}
  {v : View} {bs : List Byte} {e tag : Nat}
  (hread : u.readView c.die.val c.core.val (vwldHint pol loc) c.world k v b = .ok (t, bs, e, tag, false))
include hread

/-- Under the policy `trap` a block older than its generation is a fault. -/
theorem State.vwld_of_stale (hstale : tag < (c.viewGen (u.genOf c.world k b)).toNat) (hpol : pol = .trap) :
    u.vwld uid c pol loc r va k v b = .trap causeViewStale va := by
  rw [State.vwld, hread]
  subst hpol
  simp [hstale]

/-- A block that its policy takes as it is: decoded, with `.staleok` noting whether it is older than its generation. -/
theorem State.vwld_of_taken (htakes : tag < (c.viewGen (u.genOf c.world k b)).toNat → ∃ p, pol = .staleok p) :
    u.vwld uid c pol loc r va k v b = .done (t.modCtx uid fun x =>
      let rs := decodeView v.desc.toNat bs e
      let x := (x.setV r (ofLanes 32 (rs.map (·.1)))).addFlags (flagBits (flagsOf rs)) none
      let x := match pol with
        | .staleok p => x.setP p (decide (tag < (c.viewGen (u.genOf c.world k b)).toNat))
        | _ => x
      { x with vwGen := none }) := by
  have hother (q : VwPolicy) (hq : ∀ p, VwPolicy.staleok p ≠ q) :
      (decide (tag < (c.viewGen (u.genOf c.world k b)).toNat) && pol == q) = false := by
    refine Bool.and_eq_false_imp.mpr fun hstale => ?_
    obtain ⟨p, rfl⟩ := htakes (of_decide_eq_true hstale)
    exact beq_eq_false_iff_ne.mpr (hq p)
  rw [State.vwld, hread]
  dsimp only
  rw [hother .wait (by simp), hother .trap (by simp)]
  rfl

end Load

/-- A `VWLD` whose word is the tag of a block, with nothing before it to wait for, reads that block, unless its view has
faulted or been dropped. -/
theorem exec_vwld_of_block {s : State} {c : Context} {a : MemOp} {acc : Acc} {num i b : Nat} {k : Master} {v : View}
    (ctl : Ctl) (pol : VwPolicy) (r : Fin 32)
    (hacc : (s.movedOn s.issuing).resolve c a.mode (formAddr c a 8) 8 .rd false .data = .ok acc) (hwin : acc.win = 0)
    (hblock : (s.movedOn s.issuing).blockAtTag c.world (partAt acc.parts 0) = some (num, k, i, v, b))
    (hheld : c.loadsHeld = false) (hquiet : (s.movedOn s.issuing).masterQuiet c k = true)
    (hfree : (s.movedOn s.issuing).pauser s.issuing .issue ((s.movedOn s.issuing).places acc) = none) :
    ∃ body, exec (.vwld ctl pol r a) s = issue 0xC2 ctl noPriv [memSrc a] (vwldDests pol r) s body
      ∧ body s.issuing c (s.movedOn s.issuing)
        = if v.faulted || c.viewLost v then .trap causeViewFault acc.va
          else ((s.movedOn s.issuing).unpause s.issuing .issue).vwld s.issuing c pol ctl.loc r acc.va k v b := by
  refine ⟨_, exec_vwld .., ?_⟩
  rw [hacc, orTrap, if_pos hwin, hblock]
  exact (if_neg (by simp [hheld, hquiet])).trans (State.throughMove_of_free hfree)

/-! ## O27 -/

/-- Settles O27: an instruction that names a view by its handle goes on with what `State.viewOf` finds, and one that names a
block by its tag with what `State.blockAtTag` finds. -/
theorem views : Obligations.Views := by
  unfold Obligations.Views
  intro s c ctl
  dsimp only
  refine ⟨fun xs mb mc t bs u vs h hfirst hsecond => ?register, fun xs xh h => ?handles, fun d a acc sel hacc => ?blocks,
    fun xs a u bs h hblock => ?quantise⟩
  case register =>
    refine ⟨fun e he => ?refused, fun num k new hok => ?registered⟩
    case refused =>
      refine State.doneAs_of_done h (exec_vwreg ..) rfl ?_
      rw [hfirst, Block.into, hsecond, Block.into, he]
    case registered =>
      refine State.doneAs_of_done h (exec_vwreg ..) rfl ?_
      rw [hfirst, Block.into, hsecond, Block.into, hok]
  case handles =>
    refine ⟨fun hnone => ⟨?noDrop, ?noSync, ?noClear⟩, fun num k i v hview => ⟨fun hsound => ?notFaulted,
      fun hfaulted => ?cleared, ?dropped, fun hheld hquiet => ?waits⟩⟩
    case noDrop =>
      refine State.completes_of_produceWord h (exec_vwdrop ..) rfl ?_
      rw [hnone]
    case noSync =>
      refine State.completes_of_produceWord h (exec_vwsync ..) rfl ?_
      rw [hnone]
    case noClear =>
      refine State.completes_of_produceWord h (exec_vwclr ..) rfl ?_
      rw [hnone]
    case notFaulted =>
      refine State.completes_of_produceWord h (exec_vwclr ..) rfl ?_
      rw [hview]
      exact if_pos (by simp [hsound])
    case cleared =>
      refine State.doneAs_of_done h (exec_vwclr ..) rfl ?_
      rw [hview]
      exact if_neg (by simp [hfaulted])
    case dropped =>
      refine State.doneAs_of_done h (exec_vwdrop ..) rfl ?_
      rw [hview]
    case waits =>
      refine State.doneAs_of_done h (exec_vwsync ..) rfl ?_
      rw [hview]
      exact if_neg (by simp [hheld, hquiet])
  case blocks =>
    refine ⟨fun h hnone => ?noBlock, fun num k i v b hwin hblock hheld hfree => ⟨fun h => ?read, fun pol r h hquiet => ?load⟩⟩
    case noBlock =>
      refine State.faults_of_trap h (exec_vwgen ..) rfl ?_
      have hlook := ite_eq_right_iff.mpr fun hwin => hnone.resolve_left (not_not.mpr hwin)
      rw [hacc, orTrap, hlook]
    case read =>
      refine State.doneAs_of_done h (exec_vwgen ..) rfl ?_
      rw [hacc, orTrap, if_pos hwin, hblock]
      dsimp only
      rw [hheld, if_neg Bool.false_ne_true, State.throughMove_of_free hfree]
      cases sel with
      | tag | gen | status => rfl
    case load =>
      obtain ⟨body, hexec, hbody⟩ := exec_vwld_of_block ctl pol r hacc hwin hblock hheld hquiet hfree
      refine ⟨fun hlost => ?lost, fun t bs e tag hsound hkept hread => ?found⟩
      case lost => exact State.faults_of_trap h hexec rfl (hbody.trans (if_pos (by simpa using hlost)))
      case found =>
        have hvwld := hbody.trans (if_neg (by simp [hsound, hkept]))
        refine ⟨fun hstale hpol => ?stale, fun hfresh hpol => ?fresh, fun p hpol => ?noted⟩
        case stale => exact State.faults_of_trap h hexec rfl (hvwld.trans (State.vwld_of_stale hread hstale hpol))
        case fresh =>
          refine State.doneAs_of_done h hexec rfl (hvwld.trans ((State.vwld_of_taken hread fun hstale =>
            absurd hstale (Nat.not_lt.mpr hfresh)).trans ?_))
          cases pol with
          | trap => rfl
          | wait => rfl
          | staleok p => exact absurd rfl (hpol p)
        case noted =>
          subst hpol
          exact State.doneAs_of_done h hexec rfl (hvwld.trans (State.vwld_of_taken hread fun _ => ⟨p, rfl⟩))
  case quantise =>
    refine ⟨fun hfull => ?full, fun hroom hbad => ?bad, fun hroom hok hrel => ?queued⟩
    case full =>
      refine State.doneAs_of_done h (exec_quant ..) rfl ?_
      rw [hblock]
      exact if_pos (of_decide_eq_true hfull)
    case bad =>
      refine State.doneAs_of_done h (exec_quant ..) rfl ?_
      rw [hblock]
      exact (if_neg (of_decide_eq_false hroom)).trans (if_pos (by simp [hbad]))
    case queued =>
      refine State.doneAs_of_done h (exec_quant ..) rfl ?_
      rw [hblock]
      exact (if_neg (of_decide_eq_false hroom)).trans ((if_neg (by simp [hok])).trans (if_neg (by simp [hrel])))

end Sys2Proof.Machine
end

section
/-! Proofs about the instructions of bulk transfers (R361 to R363), and O29. -/

namespace Sys2Proof.Machine

/-! ## Records that have ended (R363) -/

theorem State.forgetEnded_nextOrder (s : State) (w a : Nat) : (s.forgetEnded w a).nextOrder = s.nextOrder := by
  rw [State.forgetEnded]
  generalize s.dies = l
  induction l generalizing s with
  | nil => rfl
  | cons p l ih =>
    rw [List.foldl_cons, ih]
    split
    next => rfl
    next => rfl

/-- Neither a pending register nor a forgotten record takes a place in the order of arrival. -/
theorem State.forgetEnded_pendReg_nextOrder (s : State) (uid : Nat) (r : AnyReg) (w a : Nat) :
    ((s.pendReg uid r).forgetEnded w a).nextOrder = s.nextOrder :=
  State.forgetEnded_nextOrder ..

/-! ## BCANCEL (R363) -/

section Cancel

variable {s : State} {uid : Nat} {xs : Fin 64} {d id : Nat} {p : Send} (hopen : p.cancel = none)
include hopen

/-- A send to this package whose last byte has not been written is cancelled at once. -/
theorem State.cancelSend_of_here (hpkg : blPkg p.desc.toNat = s.pkg.toNat)
    (hwhole : s.sendWhole (bsDie p.desc.toNat) (sendName s.pkg.toNat d (8 * id + d)) = false) :
    s.cancelSend uid xs d id p
      = .done (((s.endSend d id (errWord 0x65) false).cancelPost (bsDie p.desc.toNat)
          (sendName s.pkg.toNat d (8 * id + d))).produce uid (afterFill (.x xs) (p.uid, p.dest) 0)) := by
  rw [State.cancelSend]
  exact (if_neg (by simp [hopen])).trans ((if_pos hpkg).trans (if_neg (Bool.eq_false_iff.mp hwhole)))

/-- The cancel of a send to another package is on its way to the receiver. -/
theorem State.cancelSend_of_away (hpkg : blPkg p.desc.toNat ≠ s.pkg.toNat) :
    s.cancelSend uid xs d id p
      = .done (((s.pendReg uid (.x xs)).modSend d id fun q => { q with cancel := some { uid := uid, dest := .x xs } }).emit
          (.cancel (blPkg p.desc.toNat) (bsDie p.desc.toNat) (.post (sendName s.pkg.toNat d (8 * id + d))))) := by
  rw [State.cancelSend]
  exact (if_neg (by simp [hopen])).trans (if_neg hpkg)

end Cancel

/-! ## O29 -/

/-- Settles O29: the body of a `BSEND` or `BPOST` tests its descriptor, the job, the table and earlier stores in turn; the
others look up what their descriptor address names. -/
theorem bulkTransfer : Obligations.BulkTransfer := by
  unfold Obligations.BulkTransfer
  intro s c ctl xs a h
  dsimp only
  refine ⟨fun g hslot => ⟨?sendPrivileged, ?postPrivileged⟩,
    fun u bs hslot hblock => ⟨fun hbad => ?sendBad, fun hok haway => ?sendNoJob, fun hok hjob hfull => ?sendFull,
      fun hok hjob hroom hrel => ?sends,
      fun g => ⟨fun hbad => ?postBad, fun hok hfull => ?postFull, fun hok hroom hrel => ?posts⟩⟩,
    fun halign => ⟨?cancelMisaligned, ?statMisaligned⟩,
    fun halign => ⟨?stat, fun hsends hposts => ?nothing,
      fun e id l p hsends hposts hp => ⟨fun hhit => ?cancelPost, fun m hhit hopen => ?cancelMatched⟩,
      fun e id l p hsends hp hopen => ⟨fun hpkg hwhole => ?cancelHere, fun hpkg => ?cancelAway⟩⟩⟩
  case sendPrivileged =>
    rw [State.faults, exec_bsend]
    exact issue_privileged h.1 (beq_iff_eq.mpr hslot)
  case postPrivileged =>
    rw [State.faults, exec_bpost]
    exact issue_privileged h.1 (beq_iff_eq.mpr hslot)
  case sendBad =>
    refine State.doneAs_of_done h (exec_bsend ..) hslot ?_
    rw [hblock]
    exact if_pos hbad
  case sendNoJob =>
    refine State.doneAs_of_done h (exec_bsend ..) hslot ?_
    rw [hblock]
    exact (if_neg (Bool.eq_false_iff.mp hok)).trans (if_pos haway)
  case sendFull =>
    refine State.doneAs_of_done h (exec_bsend ..) hslot ?_
    rw [hblock]
    exact (if_neg (Bool.eq_false_iff.mp hok)).trans ((if_neg hjob).trans (if_pos hfull))
  case sends =>
    refine State.doneAs_of_done h (exec_bsend ..) hslot ?_
    rw [hblock]
    exact (if_neg (Bool.eq_false_iff.mp hok)).trans ((if_neg hjob).trans
      ((if_neg (Bool.eq_false_iff.mp hroom)).trans (if_neg (by simp [hrel]))))
  case postBad =>
    refine State.doneAs_of_done h (exec_bpost ..) hslot ?_
    rw [hblock]
    exact if_pos hbad
  case postFull =>
    refine State.doneAs_of_done h (exec_bpost ..) hslot ?_
    rw [hblock]
    exact (if_neg (Bool.eq_false_iff.mp hok)).trans (if_pos hfull)
  case posts =>
    refine State.doneAs_of_done h (exec_bpost ..) hslot ?_
    rw [hblock]
    refine (if_neg (Bool.eq_false_iff.mp hok)).trans
      ((if_neg (Bool.eq_false_iff.mp hroom)).trans ((if_neg (by simp [hrel])).trans ?_))
    dsimp only
    rw [State.forgetEnded_pendReg_nextOrder]
    generalize List.find? _ _ = waiting
    cases waiting with
    | none => rfl
    | some r => rfl
  case cancelMisaligned => exact State.faults_of_trap h (exec_bcancel ..) rfl (if_pos halign)
  case statMisaligned => exact State.faults_of_trap h (exec_bstat ..) rfl (if_pos halign)
  case stat => exact State.doneAs_of_done h (exec_bstat ..) rfl (if_neg (not_not.mpr halign))
  case nothing =>
    refine State.completes_of_produceWord h (exec_bcancel ..) rfl ((if_neg (not_not.mpr halign)).trans ?_)
    rw [hsends, hposts]
  case cancelPost =>
    refine State.doneAs_of_done h (exec_bcancel ..) rfl ((if_neg (not_not.mpr halign)).trans ?_)
    rw [hsends, hposts]
    dsimp only
    rw [hp]
    dsimp only
    rw [hhit]
  case cancelMatched =>
    refine State.doneAs_of_done h (exec_bcancel ..) rfl ((if_neg (not_not.mpr halign)).trans ?_)
    rw [hsends, hposts]
    dsimp only
    rw [hp]
    dsimp only
    rw [hhit]
    exact if_neg (Nat.not_le.mpr hopen)
  case cancelHere =>
    refine State.doneAs_of_done h (exec_bcancel ..) rfl ((if_neg (not_not.mpr halign)).trans ?_)
    rw [hsends]
    dsimp only
    rw [hp]
    exact State.cancelSend_of_here hopen hpkg hwhole
  case cancelAway =>
    refine State.doneAs_of_done h (exec_bcancel ..) rfl ((if_neg (not_not.mpr halign)).trans ?_)
    rw [hsends]
    dsimp only
    rw [hp]
    exact State.cancelSend_of_away hopen hpkg

end Sys2Proof.Machine
end

section
/-! Proofs about the events of the fabric (R346 to R352, R408), and O40. -/

namespace Sys2Proof.Machine

/-! ## Requests of other packages (R346, R349) -/

section Receive

variable {s : State} {r : FabReq}

/-- The NI that performs a request takes it while it holds fewer than 512. -/
theorem State.toNi_of_room (h : s.niQueue r.die < 512) :
    s.toNi r = ({ s with router := { s.router with inbound := s.router.inbound ++ [r] } } : State).takeRequest r :=
  if_neg (Nat.not_le.mpr h)

theorem State.toNi_of_full (h : 512 ≤ s.niQueue r.die) :
    s.toNi r = ({ s with router := s.router.turnedBack r } : State).emit (.ack r.srcPkg r.srcDie r.seq .retry) := if_pos h

/-- A part that is not ready takes no request. -/
theorem exec_fabricRequestReceive_of_notReady (h : s.boot.phase ≠ 1) : exec (.fabricRequestReceive r) s = .next s := by
  rw [exec_fabricRequestReceive, execFabricRequestReceive, if_pos h]

variable (hready : s.boot.phase = 1)
include hready

/-- A request that has been performed is acknowledged again. -/
theorem exec_fabricRequestReceive_of_seen {a : FabAck}
    (h : KMap.look (KMap.lookD s.router.seen (senderKey r.srcPkg r.srcDie) []) r.seq = some a) :
    exec (.fabricRequestReceive r) s = .next (s.emit (.ack r.srcPkg r.srcDie r.seq a)) := by
  rw [exec_fabricRequestReceive, execFabricRequestReceive, if_neg (not_not.mpr hready), h]

variable (hnew : KMap.look (KMap.lookD s.router.seen (senderKey r.srcPkg r.srcDie) []) r.seq = none)
include hnew

/-- A request under way is left alone. -/
theorem exec_fabricRequestReceive_of_known
    (h : ((s.router.inbound ++ s.router.flags.map (·.req)).any fun x => reqIs x r.srcPkg r.srcDie r.seq) = true) :
    exec (.fabricRequestReceive r) s = .next s := by
  rw [exec_fabricRequestReceive, execFabricRequestReceive, if_neg (not_not.mpr hready), hnew]
  exact if_pos h

variable (hunknown : ((s.router.inbound ++ s.router.flags.map (·.req)).any fun x =>
  reqIs x r.srcPkg r.srcDie r.seq) = false)
include hunknown

theorem exec_fabricRequestReceive_of_released (h : s.router.released r = true) :
    exec (.fabricRequestReceive r) s = .next (s.toNi r) := by
  rw [exec_fabricRequestReceive, execFabricRequestReceive, if_neg (not_not.mpr hready), hnew]
  exact (if_neg (Bool.eq_false_iff.mp hunknown)).trans (if_pos h)

/-- A flag whose counts have not been reached waits at the router. -/
theorem exec_fabricRequestReceive_of_held (h : s.router.released r = false) :
    exec (.fabricRequestReceive r) s
      = .next { s with router := { s.router with flags := s.router.flags ++ [{ req := r, since := s.cyc r.die.val }] } } := by
  rw [exec_fabricRequestReceive, execFabricRequestReceive, if_neg (not_not.mpr hready), hnew]
  exact (if_neg (Bool.eq_false_iff.mp hunknown)).trans (if_neg (Bool.eq_false_iff.mp h))

end Receive

/-! ## Acknowledgements and re-sending (R346, R348) -/

section Sender

variable {s : State} {seq : Nat} {o : Outst} (ho : s.outstOf seq = some o)
include ho

/-- A request that is turned back more often than its retry limit fails. -/
theorem exec_fabricAckArrival_of_exhausted (h : o.req.rlim ≤ o.turned) :
    exec (.fabricAckArrival seq .retry) s = .next (s.reqFailed seq o .exhausted) := by
  rw [exec_fabricAckArrival, execFabricAckArrival, ho]
  exact if_pos (Nat.lt_succ_of_le h)

theorem exec_fabricAckArrival_of_turnedBack (h : o.turned < o.req.rlim) :
    exec (.fabricAckArrival seq .retry) s = .next (s.modOutst seq fun o' =>
      { o' with turned := o.turned + 1, retryAt := some (s.cyc (seq % 8) + 64 * 2 ^ min (o.turned + 1) 6) }) := by
  rw [exec_fabricAckArrival, execFabricAckArrival, ho]
  exact if_neg (Nat.not_lt.mpr h)

theorem exec_fabricResendTimeout_of_noRoute (h : s.bestPath (seq % 8) o.pkg = none) :
    exec (.fabricResendTimeout seq) s = .next (s.reqFailed seq o .dead) := by
  rw [exec_fabricResendTimeout, execFabricResendTimeout, ho]
  dsimp only
  rw [h]

/-- A request on a live route is sent again where it is due, up to four times. -/
theorem exec_fabricResendTimeout_of_route {via : Route} (h : s.bestPath (seq % 8) o.pkg = some via) :
    exec (.fabricResendTimeout seq) s
      = if o.retryAt = none ∧ o.admitted = false ∧ (o.sentAt + 8192 ≤ s.cyc (seq % 8) ∨ s.routeDead o.via = true) then
          if 4 ≤ o.resent then .next ((s.skipFor o).reqFailed seq o .dead)
          else .next ((s.modOutst seq fun x =>
            { x with resent := o.resent + 1, sentAt := s.cyc (seq % 8), via := some via }).emit (.request o.req o.pkg via))
        else .next s := by
  have hdue : (!(o.retryAt.isNone && !o.admitted && (decide (o.sentAt + 8192 ≤ s.cyc (seq % 8)) || s.routeDead o.via))) = true
      ↔ ¬(o.retryAt = none ∧ o.admitted = false ∧ (o.sentAt + 8192 ≤ s.cyc (seq % 8) ∨ s.routeDead o.via = true)) := by
    rw [Bool.not_eq_true', ← Bool.not_eq_true, not_iff_not]
    simp [and_assoc]
  rw [exec_fabricResendTimeout, execFabricResendTimeout, ho]
  dsimp only
  rw [h]
  exact (if_congr hdue rfl rfl).trans (ite_not ..)

end Sender

/-! ## Parity errors (R351, R408) -/

section Parity

variable {s : State}

/-- The replays of a flit of data for a register have failed: the fill brings poison. -/
theorem exec_crossbarParityError_fill (uid k : Nat) : ∃ t, exec (.crossbarParityError (.fill uid k)) s = .next t
    ∧ ∀ c f, s.ctx? uid = some c → c.fills[k]? = some f → ∃ c', t.ctx? uid = some c'
      ∧ (f.src.carried = true → c'.fills[k]? = some { f with src := .poisoned, flags := 0, nan := none })
      ∧ (f.src.carried = false → c'.fills[k]? = some f) := by
  rw [exec_crossbarParityError, execCrossbarParityError]
  refine ⟨_, rfl, fun c f hc hf => ⟨_, State.ctx?_modCtx_same _ hc, fun hcarried => ?_, fun hcarried => ?_⟩⟩
  all_goals simp [hf, hcarried]

variable {uid k : Nat} {c : Context} {e : SEntry} (hc : s.ctx? uid = some c) (he : c.sbuf[k]? = some e)
include hc he

/-- A store that may be performed now fails as dead. -/
theorem exec_crossbarParityError_store_of_mayDrain (h : s.mayDrain c k e = true) :
    exec (.crossbarParityError (.store uid k)) s
      = .next ((s.failStore uid (s.entryScope c e) none failDead).unbuffer uid k) := by
  rw [exec_crossbarParityError, execCrossbarParityError]
  rw [hc]
  dsimp only
  rw [he]
  exact if_pos h

theorem exec_crossbarParityError_store_of_held (h : s.mayDrain c k e = false) :
    exec (.crossbarParityError (.store uid k)) s = .next s := by
  rw [exec_crossbarParityError, execCrossbarParityError]
  rw [hc]
  dsimp only
  rw [he]
  exact if_neg (Bool.eq_false_iff.mp h)

end Parity

/-! ## O40 -/

/-- Settles O40: each clause is one branch of its event. -/
theorem fabricEvents : Obligations.FabricEvents := by
  unfold Obligations.FabricEvents
  intro s
  refine ⟨fun r => ?receive, fun seq o ho => ?sender, fun pkg die path => ?skipNotice, fun k f hf => ?flag,
    fun port lane => ?lane, ?halving, fun port good => ?topup,
    fun uid k c e hc he => ⟨exec_crossbarParityError_store_of_mayDrain hc he,
      exec_crossbarParityError_store_of_held hc he⟩,
    exec_crossbarParityError_fill, fun h o ho => ?request, fun k m hm => ?message, fun d c => ?copy,
    fun d => ⟨?view, ?quant, fun id p hp => ?send⟩⟩
  case receive =>
    intro seen known
    refine ⟨exec_fabricRequestReceive_of_notReady, fun hready => ⟨fun a => exec_fabricRequestReceive_of_seen hready,
      exec_fabricRequestReceive_of_known hready, fun hnew hunknown hrel => ?released,
      exec_fabricRequestReceive_of_held hready⟩⟩
    have hni := exec_fabricRequestReceive_of_released hready hnew hunknown hrel
    exact ⟨fun hroom => hni.trans (congrArg _ (State.toNi_of_room hroom)),
      fun hfull => hni.trans (congrArg _ (State.toNi_of_full hfull))⟩
  case sender =>
    have hanswer (a : FabAck) : exec (.fabricAckArrival seq a) s = execFabricAckArrival seq a s := exec_fabricAckArrival ..
    simp only [execFabricAckArrival, ho] at hanswer
    refine ⟨fun v => hanswer (.performed v), hanswer .refused, hanswer .poisoned, hanswer .dead, hanswer .admitted,
      exec_fabricAckArrival_of_exhausted ho, exec_fabricAckArrival_of_turnedBack ho,
      exec_fabricResendTimeout_of_noRoute ho, fun via hvia => ?resend⟩
    intro due
    have hresend := exec_fabricResendTimeout_of_route ho hvia
    refine ⟨fun hretry hadm hdue => ?due, fun hwait => hresend.trans (if_neg ?waits)⟩
    case due =>
      have hgo := hresend.trans (if_pos ⟨hretry, hadm, hdue⟩)
      exact ⟨fun hlast => hgo.trans (if_pos hlast), fun hmore => hgo.trans (if_neg (Nat.not_le.mpr hmore))⟩
    case waits =>
      rintro ⟨hretry, hadm, hdue⟩
      obtain h | h | h := hwait
      · exact h hretry
      · exact absurd (hadm.symm.trans h) Bool.false_ne_true
      · exact h hdue
  case skipNotice => rw [exec_skipNoticeArrival, execSkipNoticeArrival]
  case flag =>
    refine ⟨fun hrel => ?release, fun hover => ?timeout⟩
    case release =>
      rw [exec_orderedFlagRelease, execOrderedFlagRelease, hf]
      exact if_pos hrel
    case timeout =>
      rw [exec_orderedFlagTimeout, execOrderedFlagTimeout, hf]
      exact if_pos hover
  case lane =>
    rw [exec_correctedCodeword, exec_flitNakReplay, exec_stompTail]
    exact ⟨rfl, rfl, rfl⟩
  case halving => rw [exec_healthScoreHalving, execHealthScoreHalving]
  case topup =>
    intro n ended
    rw [exec_parityTopup, execParityTopup]
    refine ⟨?passed, ?replayed, ?kept⟩
    case passed =>
      rintro rfl
      rfl
    case replayed =>
      rintro rfl hthird
      exact if_pos (decide_eq_true hthird)
    case kept =>
      rintro rfl hmore
      exact if_neg (mt of_decide_eq_true (Nat.not_le.mpr hmore))
  case request =>
    rw [exec_crossbarParityError, execCrossbarParityError]
    rw [ho]
  case message =>
    rw [exec_crossbarParityError, execCrossbarParityError]
    rw [hm]
    exact ⟨fun hgen hchan => congrArg _ (if_pos (by simp [hgen, hchan])),
      fun hother => congrArg _ (if_neg (by simpa [← Bool.not_eq_true, imp_iff_not_or] using hother))⟩
  case copy | view | quant => rw [exec_crossbarParityError, execCrossbarParityError]
  case send =>
    rw [exec_crossbarParityError, execCrossbarParityError]
    rw [hp]

end Sys2Proof.Machine
end

section
/-! Proofs about the events of bulk transfers (R355 to R360, R363), and O41. -/

namespace Sys2Proof.Machine

/-! ## Requests to send (R356) -/

section Rts

variable {s : State} {d : DieNo} {r : Rts} (hfar : r.srcPkg ≠ s.pkg) (hready : s.boot.phase = 1)
include hfar hready

/-- A request of another package is looked at by a part that is ready. -/
theorem exec_rtsArrival_of_far : exec (.rtsArrival d r) s = .next (s.rtsIn d.val r) := by
  rw [exec_rtsArrival, execRtsArrival]
  exact if_neg (by simp [hfar, hready])

theorem exec_rtsArrival_of_otherJob (h : s.job = 0 ∨ r.job.toNat ≠ s.job) :
    exec (.rtsArrival d r) s = .next (s.answerSend r.srcPkg r.srcDie r.sendId .refused) :=
  (exec_rtsArrival_of_far hfar hready).trans (congrArg _ (if_pos (by simpa [hfar] using h)))

/-- A request of the job is matched with the oldest post that accepts it, kept, or turned back. -/
theorem exec_rtsArrival_of_job (hjob : s.job ≠ 0) (hsame : r.job.toNat = s.job) :
    exec (.rtsArrival d r) s = .next (match (s.die d.val).ni.postFor r with
      | some (id, p) => s.matchPost d.val id p r
      | none =>
        if (s.die d.val).ni.rts.length < 256 then s.modNi d.val fun n => { n with rts := n.rts ++ [{ r with data := [] }] }
        else s.answerSend r.srcPkg r.srcDie r.sendId .retry) :=
  (exec_rtsArrival_of_far hfar hready).trans (congrArg _ (if_neg (by simp [hjob, hsame])))

end Rts

/-! ## Tokens (R357) -/

/-- A post that the grant scheduler may serve is in the table of its NI. -/
theorem State.mem_posts_of_nextGrant {s : State} {d : Nat} {q : Nat × Post} (h : s.nextGrant d = some q) :
    q ∈ (s.die d).ni.posts := by
  obtain ⟨g, -, hg⟩ := List.exists_of_findSome?_eq_some h
  dsimp only at hg
  split at hg
  next p hp =>
    rw [← Option.some.inj hg]
    exact List.mem_of_mem_filter (List.mem_of_mem_filter (List.mem_of_find?_eq_some hp))
  next => exact List.mem_of_mem_filter (List.mem_of_mem_filter (List.mem_of_head? hg))

theorem KMap.put_ne_nil {α : Type} (m : KMap α) (a : Nat) (x : α) : KMap.put m a x ≠ [] := by
  fun_cases KMap.put <;> simp

theorem KMap.modify_ne_nil {α : Type} {m : KMap α} (h : m ≠ []) (a : Nat) (f : α → α) : KMap.modify m a f ≠ [] := by
  rw [KMap.modify]
  split
  next => exact h
  next => exact KMap.put_ne_nil _ _ _

/-- Reading a die after it was changed to one that is listed. -/
theorem State.die_modDie_of_ne {s : State} {d : Nat} {f : Die → Die} (h : f (s.die d) ≠ Die.empty) :
    (s.modDie d f).die d = f (s.die d) := by
  rw [State.modDie, State.setDie, State.die, KMap.lookD, KMap.putD, if_neg h, KMap.look_put_same]
  rfl

/-- A change of an NI that leaves it with a post leaves the cycle counter of its die. -/
theorem State.cyc_modNi_of_posts {s : State} {d : Nat} {f : Ni → Ni} (h : (f (s.die d).ni).posts ≠ []) :
    (s.modNi d f).cyc d = s.cyc d := by
  have hread := State.die_modDie_of_ne (s := s) (d := d) (f := fun k => { k with ni := f k.ni }) fun hempty =>
    h (congrArg (fun k : Die => k.ni.posts) hempty)
  exact (congrArg Die.cyc hread).trans rfl

theorem State.cyc_modMatch {s : State} {d : Nat} (h : (s.die d).ni.posts ≠ []) (id : Nat) (f : Match → Match) :
    (s.modMatch d id f).cyc d = s.cyc d :=
  State.cyc_modNi_of_posts (KMap.modify_ne_nil h id _)

/-- The package as `TOKEN_ISSUE` looks for a post: those that are wholly written have filled. -/
def State.postsFinished (s : State) (d : Nat) : State :=
  (s.die d).ni.posts.foldl (fun (s : State) p => s.finishPost d p.1) s

/-- A token for `len` bytes from where post `id` stands, issued in cycle `now`. -/
def State.granted (s : State) (d id : Nat) (p : Post) (off len now : Nat) : State :=
  let seq := (s.die d).ni.nextTok
  (s.modMatch d id fun h => match h.again with
      | _ :: rs => { h with again := rs }
      | [] => { h with next := h.next + len }).modNi d fun n =>
    { n with nextTok := if seq + 1 = 0 then 1 else seq + 1, served := KMap.put n.served p.prio.val id,
             tokens := n.tokens ++ [{ seq := seq, post := id, off := off, len := len, got := 0, came := false,
                                      issued := now }] }

theorem exec_tokenIssue_of_grant {s t : State} {d : DieNo} {id : Nat} {p : Post} {h : Match} (ht : s.postsFinished d.val = t)
    (hroom : (t.die d.val).ni.tokens.length < 1024) (hnext : t.nextGrant d.val = some (id, p)) (hhit : p.hit = some h)
    (hagain : h.again = []) (hfar : h.pkg ≠ t.pkg) :
    let len := min 16384 (takes p h - h.next)
    exec (.tokenIssue d) s = .next ((t.granted d.val id p h.next len (t.cyc d.val)).emit
      (.token h.pkg.toNat h.die.val { sendId := h.sendId, seq := (t.die d.val).ni.nextTok, off := h.next, len := len })) := by
  have hposts : (t.die d.val).ni.posts ≠ [] := List.ne_nil_of_mem (State.mem_posts_of_nextGrant hnext)
  rw [State.postsFinished] at ht
  rw [exec_tokenIssue, execTokenIssue, ht]
  dsimp only
  rw [if_neg (Nat.not_le.mpr hroom), hnext]
  dsimp only
  rw [hhit]
  dsimp only
  rw [hagain, State.cyc_modMatch hposts]
  exact congrArg Host.Outcome.next (if_neg hfar)

section Expiry

variable {s : State} {d : DieNo} {k : Nat} {t : Token} (ht : (s.die d.val).ni.tokens[k]? = some t)
include ht

/-- A token whose data has come, or whose time has not passed, does not lapse. -/
theorem exec_tokenExpiry_of_live (h : t.came = true ∨ s.cyc d.val ≤ t.issued + 4096) :
    exec (.tokenExpiry d k) s = .next s := by
  rw [exec_tokenExpiry, execTokenExpiry, ht]
  exact if_pos (by simpa using h)

/-- A token that lapses is to be granted again, or ends its post. -/
theorem exec_tokenExpiry_of_lapsed (hcame : t.came = false) (hover : t.issued + 4096 < s.cyc d.val) :
    let u := (s.modNi d.val fun n => { n with tokens := n.tokens.eraseIdx k }).modMatch d.val t.post fun h =>
      { h with lapses := h.lapses + 1, again := h.again ++ [(t.off, t.len)] }
    ∀ h, (u.post? d.val t.post).bind (fun p => p.hit) = some h →
      exec (.tokenExpiry d k) s = if 3 ≤ h.lapses then .next (u.endPost d.val t.post (errWord 0x64) false true) else .next u := by
  intro u h hh
  rw [exec_tokenExpiry, execTokenExpiry, ht]
  refine (if_neg (by simp [hcame, hover])).trans ?_
  dsimp only
  rw [hh]

end Expiry

/-! ## Tokens at the sender (R357, R363) -/

section Token

variable {s : State} {d : DieNo} {t : TokenMsg} {p : Send} (hp : s.send? d.val (t.sendId / 8) = some p)
include hp

/-- A token for bytes of a send that is not being cancelled reads them. -/
theorem exec_tokenArrival_of_open (hopen : p.cancel = none) (hlen : t.off + t.len ≤ blLen p.desc.toNat) :
    exec (.tokenArrival d t) s = .next (match s.bulkRead d.val p t.off t.len with
      | .error code => s.endSend d.val (t.sendId / 8) (errWord code) false
      | .ok (u, bs) => (u.modSend d.val (t.sendId / 8) fun q =>
          { q with sent := max q.sent (t.off + t.len), begun := true }).sendFlits (blPkg p.desc.toNat)
        (bsDie p.desc.toNat) t.seq (packets t.len t.off bs)) := by
  rw [exec_tokenArrival, execTokenArrival, State.serveToken, hp]
  refine congrArg Host.Outcome.next ((if_neg (by simp [hopen])).trans ((if_neg ?_).trans rfl))
  simpa [hopen] using hlen

/-- A token of a send that is being cancelled is answered with the cancel. -/
theorem exec_tokenArrival_of_cancelled (hcancel : p.cancel.isSome = true) (hfar : blPkg p.desc.toNat ≠ s.pkg.toNat) :
    exec (.tokenArrival d t) s = .next (s.emit (.cancel (blPkg p.desc.toNat) (bsDie p.desc.toNat)
      (.post (sendName s.pkg.toNat d.val t.sendId)))) := by
  rw [exec_tokenArrival, execTokenArrival, State.serveToken, hp]
  exact congrArg Host.Outcome.next (if_pos (by simp [hcancel, hfar]))

end Token

/-! ## O41 -/

/-- Settles O41: each clause is one branch of its event. -/
theorem bulkEvents : Obligations.BulkEvents := by
  unfold Obligations.BulkEvents
  intro s d
  refine ⟨fun r => exec_rtsArrival_of_otherJob, fun r hfar hready hjob hsame => ?rts, fun id p h => ?token,
    fun k t ht => ⟨fun hcame hover => ?lapsed, exec_tokenExpiry_of_live ht⟩, fun f => ?data,
    fun t p hp hopen hlen => ?send, fun t p => exec_tokenArrival_of_cancelled, fun id => ?notices⟩
  case rts =>
    have harrives := exec_rtsArrival_of_job (d := d) hfar hready hjob hsame
    refine ⟨fun id p hfor => ?matched, fun hfor hroom => ?kept, fun hfor hfull => ?turnedBack⟩
    case matched => rw [harrives, hfor]
    case kept =>
      rw [harrives, hfor]
      exact congrArg _ (if_pos hroom)
    case turnedBack =>
      rw [harrives, hfor]
      exact congrArg _ (if_neg (Nat.not_lt.mpr hfull))
  case token =>
    intro t hroom hnext hhit hagain hfar hpkg
    exact ⟨_, exec_tokenIssue_of_grant rfl hroom hnext hhit hagain (hpkg ▸ hfar), rfl⟩
  case lapsed =>
    intro u h hh
    have hexec := exec_tokenExpiry_of_lapsed ht hcame hover h hh
    exact ⟨fun hthird => hexec.trans (if_pos hthird), fun hmore => hexec.trans (if_neg (Nat.not_le.mpr hmore))⟩
  case data =>
    rw [exec_bulkDataArrival, execBulkDataArrival]
    refine ⟨rfl, fun hnone => ?_⟩
    rw [State.bulkArrive, hnone]
  case send =>
    have harrives := exec_tokenArrival_of_open hp hopen hlen
    refine ⟨fun code hread => ?_, fun u bs hread => ?_⟩
    · rw [harrives, hread]
    · rw [harrives, hread]
  case notices =>
    rw [exec_dropNoticeArrival, exec_cancelNoticeArrival, exec_cancelNoticeArrival]
    exact ⟨rfl, rfl, fun hdone => if_pos (by simpa using hdone), fun hopen hknown => if_neg (by simp [hopen, hknown])⟩

end Sys2Proof.Machine
end

section
/-! Proofs about SPDM requests (R367, R376), and O42. -/

namespace Sys2Proof.Machine

/-! ## Answered at once, or queued (R376) -/

section Arrival

variable {s : State} (k : SpdmKind) (r : SpdmReq)

theorem State.spdm_of_full (hphase : s.boot.phase = 1) (hfull : 64 ≤ s.responderLoad) :
    s.spdm k r = .next (s.spdmError 0x03) := by
  rw [State.spdm, if_neg (not_not.mpr hphase), if_pos hfull]

/-- A request in the queue of a responder that has room. -/
def State.spdmQueued (s : State) : State :=
  { s with nextOrder := s.nextOrder + 1
           trust := { s.trust with queue := s.trust.queue ++ [{ kind := k, req := r, order := s.nextOrder }] } }

theorem State.spdm_of_room (hphase : s.boot.phase = 1) (hroom : s.responderLoad < 64) :
    s.spdm k r = .next (s.spdmQueued k r).serveSpdm := by
  rw [State.spdm, if_neg (not_not.mpr hphase), if_neg (Nat.not_le.mpr hroom)]
  rfl

/-- Where a request for evidence came before the head of the queue, nothing is answered. -/
theorem State.serveJobs_of_evidBefore {j : SpdmJob} {js : List SpdmJob} (h : s.evidBefore j.order = true) :
    s.serveJobs (j :: js) = s := by
  rw [State.serveJobs, if_pos h]

/-- A request alone in the queue, with no request for evidence before it, is answered. -/
theorem State.spdm_of_first (hphase : s.boot.phase = 1) (hroom : s.responderLoad < 64) (hqueue : s.trust.queue = [])
    (hfirst : s.evidBefore s.nextOrder = false) :
    s.spdm k r = .next (({ s with nextOrder := s.nextOrder + 1, trust := { s.trust with queue := [] } } :
      State).answerSpdm k r) := by
  have hjobs : (s.spdmQueued k r).trust.queue = [{ kind := k, req := r, order := s.nextOrder }] := by
    rw [State.spdmQueued, hqueue, List.nil_append]
  rw [State.spdm_of_room k r hphase hroom, State.serveSpdm, hjobs, State.serveJobs]
  exact congrArg Host.Outcome.next (if_neg (Bool.eq_false_iff.mp hfirst))

/-- A request joins a queue whose head waits for evidence. -/
theorem State.spdm_of_behind (hphase : s.boot.phase = 1) (hroom : s.responderLoad < 64)
    (hbehind : s.evidBefore ((s.trust.queue.map (·.order)).headD s.nextOrder) = true) :
    s.spdm k r = .next (s.spdmQueued k r) := by
  rw [State.spdm_of_room k r hphase hroom, State.serveSpdm]
  cases hqueue : s.trust.queue with
  | nil | cons _ _ =>
    rw [hqueue] at hbehind
    rw [State.spdmQueued, hqueue]
    exact congrArg Host.Outcome.next (State.serveJobs_of_evidBefore hbehind)

end Arrival

/-! ## Answers (R376) -/

section Answer

variable {t : State} {r : SpdmReq} {n : Nat}

theorem State.answerSpdm_of_plain (k : SpdmKind) (h : r.session = none) : t.answerSpdm k r = t.spdmBody r k := by
  rw [State.answerSpdm, h]

/-- A request in an open session is answered where its message verifies. -/
theorem State.answerSpdm_of_session {b : Bool} (k : SpdmKind) (h : r.session = some n)
    (hopen : KMap.look t.trust.sessions n = some b) :
    t.answerSpdm k r = if Config.spdmOk k.code r.payload then t.spdmBody r k else t.spdmError 0x06 := by
  rw [State.answerSpdm, h]
  dsimp only
  rw [KMap.has, hopen]
  cases Config.spdmOk k.code r.payload <;> rfl

theorem State.spdmSlot_of_zero {f : State → State} (h : r.slot = 0) : t.spdmSlot r f = f t := if_pos h

theorem State.secured_of_plain (h : r.session = none) : t.secured r = none := by rw [State.secured, h]

theorem State.secured_of_session (h : r.session = some n) (hdone : KMap.look t.trust.sessions n = some true) :
    t.secured r = some n := by
  rw [State.secured, h]
  exact if_pos hdone

/-- Outside a session, what needs one is answered with an error. -/
theorem State.needSession_of_plain (h : r.session = none) :
    t.answerFinish r = t.spdmError 0x04 ∧ t.answerHeartbeat r = t.spdmError 0x04 ∧ t.answerEndSession r = t.spdmError 0x04
    ∧ t.answerKeyImport r = t.spdmError 0x04 := by
  rw [State.answerFinish, State.answerHeartbeat, State.answerEndSession, State.answerKeyImport, h,
    State.secured_of_plain h]
  exact ⟨rfl, rfl, rfl, rfl⟩

theorem State.answerGetMeasurements_of_blocks (hslot : r.slot = 0)
    (h : measIndex r = 0 ∨ t.measBlocks (measIndex r) ≠ []) :
    t.answerGetMeasurements r = t.spdmSigned 0x60 r
      ([BitVec.ofNat 8 (if measIndex r = 0 then 14 else (t.measBlocks (measIndex r)).length)]
        ++ (t.measBlocks (measIndex r)).flatten) := by
  rw [State.answerGetMeasurements, State.spdmSlot_of_zero hslot]
  refine if_neg fun hnone => ?_
  obtain ⟨hindex, hempty⟩ := hnone
  obtain h | h := h
  · exact hindex h
  · exact h (List.isEmpty_iff.mp hempty)

theorem State.answerKeyExchange_of_room (hslot : r.slot = 0) (hroom : t.trust.sessions.length < 4) :
    t.answerKeyExchange r = ({ t with trust := { t.trust with
      sessions := KMap.put t.trust.sessions t.trust.nextSess false, nextSess := t.trust.nextSess + 1 } } :
        State).spdmAnswer 0x64 r := by
  rw [State.answerKeyExchange, State.spdmSlot_of_zero hslot, if_neg (Nat.not_le.mpr hroom)]

theorem State.answerFinish_of_open (h : r.session = some n) (hopen : KMap.look t.trust.sessions n = some false) :
    t.answerFinish r = ({ t with trust := { t.trust with sessions := KMap.put t.trust.sessions n true } } :
      State).spdmAnswer 0x65 r := by
  rw [State.answerFinish, h]
  exact if_pos hopen

theorem State.answerHeartbeat_of_secured (h : t.secured r = some n) : t.answerHeartbeat r = t.spdmAnswer 0x68 r := by
  rw [State.answerHeartbeat, h]

theorem State.answerEndSession_of_secured (h : t.secured r = some n) :
    t.answerEndSession r = ({ t with trust := { t.trust with sessions := KMap.del t.trust.sessions n } } :
      State).spdmAnswer 0x6C r := by
  rw [State.answerEndSession, h]

theorem State.answerKeyImport_of_key {b : Byte} {key : List Byte} (h : t.secured r = some n) (hpay : r.payload = b :: key)
    (hlen : key.length = 32) (hslot : b.toNat < 16) :
    t.answerKeyImport r = ({ t with trust := { t.trust with
      slots := KMap.putD t.trust.slots b.toNat 0 (BitVec.ofNat 256 (leNat key)) } } : State).spdmAnswer 0x7E r := by
  rw [State.answerKeyImport, h, hpay]
  exact if_pos ⟨hlen, hslot⟩

end Answer

/-! ## O42 -/

/-- Settles O42: a request that is first is answered by `State.answerSpdm`, and another is turned away or queued whatever its
kind. -/
theorem spdmRequests : Obligations.SpdmRequests := by
  unfold Obligations.SpdmRequests
  intro s r hphase
  refine ⟨fun hroom hqueue hfirst => ?first, fun p hp => ?later⟩
  case first =>
    intro t
    have hat (k : SpdmKind) : s.spdm k r = .next (t.answerSpdm k r) := State.spdm_of_first k r hphase hroom hqueue hfirst
    refine ⟨fun hnone => ?plain, fun n hn => ?session⟩
    case plain =>
      have hbody {k : SpdmKind} {u : State} (hk : t.spdmBody r k = u) : s.spdm k r = .next u := by
        rw [hat, State.answerSpdm_of_plain k hnone, hk]
      obtain ⟨hfinish, hheartbeat, hend, himport⟩ := State.needSession_of_plain (t := t) hnone
      refine ⟨hbody (k := .getVersion) rfl, hbody (k := .getCapabilities) rfl, hbody (k := .negotiateAlgorithms) rfl,
        hbody (k := .getDigests) rfl, fun hslot => ?otherSlot, fun hslot => ?slotZero, hbody (k := .finish) hfinish,
        hbody (k := .heartbeat) hheartbeat, hbody (k := .endSession) hend, hbody (k := .keyImport) himport,
        hbody (k := .unsupported) rfl⟩
      case otherSlot =>
        exact ⟨hbody (k := .getCertificate) (if_neg hslot), hbody (k := .challenge) (if_neg hslot),
          hbody (k := .getMeasurements) (if_neg hslot), hbody (k := .keyExchange) (if_neg hslot)⟩
      case slotZero =>
        exact ⟨hbody (k := .getCertificate) (if_pos hslot), hbody (k := .challenge) (if_pos hslot),
          fun hblocks => hbody (k := .getMeasurements) (State.answerGetMeasurements_of_blocks hslot hblocks),
          fun hroom => hbody (k := .keyExchange) (State.answerKeyExchange_of_room hslot hroom)⟩
    case session =>
      intro ifOk
      have hin {b : Bool} {k : SpdmKind} {u : State} (hopen : KMap.look t.trust.sessions n = some b)
          (hk : t.spdmBody r k = u) : s.spdm k r = .next (ifOk k.code u) := by
        rw [hat, State.answerSpdm_of_session k hn hopen, hk]
      refine ⟨fun hopen => hin (k := .finish) hopen (State.answerFinish_of_open hn hopen), fun hdone => ?secured⟩
      have hsec := State.secured_of_session (t := t) hn hdone
      exact ⟨hin (k := .heartbeat) hdone (State.answerHeartbeat_of_secured hsec),
        hin (k := .endSession) hdone (State.answerEndSession_of_secured hsec),
        fun b key hpay hlen hslot => hin (k := .keyImport) hdone (State.answerKeyImport_of_key hsec hpay hlen hslot)⟩
  case later =>
    have hexec : exec p.1 s = s.spdm p.2 r := by
      simp only [List.mem_cons, List.not_mem_nil, or_false] at hp
      obtain rfl | rfl | rfl | rfl | rfl | rfl | rfl | rfl | rfl | rfl | rfl | rfl | rfl := hp
      all_goals rfl
    rw [hexec]
    exact ⟨State.spdm_of_full p.2 r hphase, State.spdm_of_behind p.2 r hphase⟩

end Sys2Proof.Machine
end

section
/-! Proofs about the commands of the partition page and what follows them (R394 to R405, R410), and O44. -/

namespace Sys2Proof.Machine

/-! ## The command queue (R395) -/

section Commands

variable {s : State} {v : BitVec 64} {rest : List (BitVec 64)} (hqueue : s.partCmds = v :: rest)
  (hready : s.boot.phase = 1)
include hqueue hready

/-- The command at the head of the queue is served by the meaning of its opcode. -/
theorem State.partCommand_of_head {op : Nat} (f : State → Nat → State) (hargs : partArgsOk v.toNat = true)
    (hop : partOp v.toNat = op) : s.partCommand op f = .next (f { s with partCmds := rest } v.toNat) := by
  rw [State.partCommand, hqueue]
  exact if_neg (by simp [hready, hop, hargs])

/-- A command with bits outside its arguments answers 0x80. -/
theorem exec_badPartitionCommand_of_bad (hargs : partArgsOk v.toNat = false) :
    exec .badPartitionCommand s = .next (({ s with partCmds := rest } : State).partResult (errWord 0x80)) := by
  rw [exec_badPartitionCommand, execBadPartitionCommand, hqueue]
  exact if_neg (by simp [hready, hargs])

end Commands

/-! ## The power cycle of a slice (R398, R401) -/

section Slices

variable {s : State} {slice : SliceNo}

/-- At its deadline a recall finishes the choices that still wait for it, and the power cycle of its slice begins. -/
theorem exec_recallDeadline_of_due {l : Lend} {t : Nat} (hlend : s.lendOf slice.val = some l)
    (hrecalled : l.recalled = some t) (hdue : t ≤ s.cyc (slice.val / 16)) (hidle : s.isCycling slice.val = false) :
    let due := (s.cluster (slice.val / 16) (slice.val % 16)).pre.filter fun p =>
      p.stage != .out && p.owners.contains (.recall slice.val)
    let v := due.foldl (fun (s : State) p => s.finishChoice (slice.val / 16) (slice.val % 16) p.region (match p.choice with
        | some c => c.val
        | none => 2)) s
    let u := v.cutSlice slice.val
    exec (.recallDeadline slice) s = .next { u with cycling := u.cycling ++ [(slice.val, .recall l.lender)] } := by
  rw [exec_recallDeadline, execRecallDeadline]
  dsimp only
  rw [hlend]
  dsimp only
  rw [hrecalled]
  exact if_neg (by simp [hdue, hidle])

variable {p : Nat}

theorem exec_powerCycleComplete_of_recall
    (h : s.cycling.find? (fun q => q.1 == slice.val) = some (slice.val, .recall p)) :
    let u := s.initSlice slice.val
    exec (.powerCycleComplete slice) s
      = .next ((({ u with cycling := u.cycling.filter fun q => q.1 != slice.val } : State).sliceBack slice.val).finishResets) := by
  rw [exec_powerCycleComplete, execPowerCycleComplete]
  dsimp only
  rw [h]

/-- A home slice of a reset is power-cycled once the worlds of its partition are gone and its borrowed slices are back. -/
theorem exec_powerCycleComplete_of_reset
    (h : s.cycling.find? (fun q => q.1 == slice.val) = some (slice.val, .reset p)) (hbusy : s.partBusy p = false)
    (hlends : (s.lends.any fun l => l.borrower == p) = false) :
    let u := ((s.sliceCtxs slice.val).foldl (fun (s : State) x => s.cutOff x) s).initSlice slice.val
    exec (.powerCycleComplete slice) s
      = .next ({ u with cycling := u.cycling.filter fun q => q.1 != slice.val } : State).finishResets := by
  rw [exec_powerCycleComplete, execPowerCycleComplete]
  dsimp only
  rw [h]
  exact if_neg (by simp only [hbusy, hlends]; decide)

end Slices

/-! ## Writes of the host (R385, R394, R410) -/

section Writes

variable {s : State} {a v : BitVec 64} {trusted : Bool} {kind : PageKind} (hkind : pageKind a.toNat = some kind)
include hkind

/-- A write without the trusted bit to a page that asks for it is dropped, and so is one to what a locked interface holds. -/
theorem exec_registerWrite_of_dropped (h : (kind = .privatePage ∧ trusted = false) ∨ s.tdiDrops a.toNat = true) :
    exec (.registerWrite a v trusted) s = .next s := by
  rw [exec_registerWrite, execRegisterWrite, hkind]
  exact if_pos (.inr h)

theorem exec_registerWrite_of_kept (halign : a.toNat % 8 = 0) (htrust : kind ≠ .privatePage ∨ trusted = true)
    (htdi : s.tdiDrops a.toNat = false) :
    exec (.registerWrite a v trusted) s
      = .next ((s.writePage 0 a.toNat v.toNat true trusted).pageChanged a.toNat 8) := by
  rw [exec_registerWrite, execRegisterWrite, hkind]
  refine if_neg ?_
  rintro (hbad | ⟨hprivate, hplain⟩ | hdrop)
  · exact hbad halign
  · obtain h | h := htrust
    · exact h hprivate
    · exact absurd (hplain.symm.trans h) Bool.false_ne_true
  · exact absurd (htdi.symm.trans hdrop) Bool.false_ne_true

end Writes

/-! ## O44 -/

/-- Settles O44: a command is served by the meaning of its opcode, which is one branch of it, and so is each event that
follows. -/
theorem partitionCommands : Obligations.PartitionCommands := by
  unfold Obligations.PartitionCommands
  intro s
  refine ⟨fun v rest hqueue hready => ?commands, fun slice l t => exec_recallDeadline_of_due,
    fun slice p => exec_powerCycleComplete_of_recall, fun slice p => exec_powerCycleComplete_of_reset,
    fun k q hq => ?scrubbed, fun world x kind cause hx htear hlast => ?report, fun p word v => ?entry,
    fun k word v world trusted => ?debugEntry,
    fun a v trusted kind hkind halign => ⟨exec_registerWrite_of_dropped hkind, exec_registerWrite_of_kept hkind halign⟩⟩
  case commands =>
    intro n t
    refine ⟨exec_badPartitionCommand_of_bad hqueue hready, fun hargs => ?_⟩
    have hserved {op : Nat} (f : State → Nat → State) (hop : partOp n = op) : s.partCommand op f = .next (f t n) :=
      State.partCommand_of_head hqueue hready f hargs hop
    refine ⟨fun hop => ?lend, fun hop => ?takesBack, fun hop => ?kill, fun hop => ?scrub, fun hop => ?preempt,
      fun hop => ?resume, fun hop => ?reset⟩
    case lend =>
      rw [exec_lend, execLend, hserved _ hop]
      exact ⟨fun e he => by simp only [he], fun p hp => by simp only [hp]⟩
    case takesBack =>
      rw [exec_recall, execRecall, hserved _ hop]
      refine ⟨fun hnone => ?notLent, fun l hl => ?recalls⟩
      case notLent =>
        dsimp only
        rw [hnone]
      case recalls =>
        dsimp only
        rw [hl]
    case kill =>
      rw [exec_kill, execKill, hserved _ hop]
      exact ⟨fun hlive => congrArg _ (if_pos hlive), fun hgone => congrArg _ (if_neg (Bool.eq_false_iff.mp hgone))⟩
    case scrub =>
      rw [exec_scrub, execScrub, hserved _ hop]
      intro a len ok
      have hbad : (a % 4096 ≠ 0 ∨ len % 4096 ≠ 0 ∨ len = 0 ∨ t.oneRange a len true = false) ↔ ¬ok := by
        simp only [ok, not_and_or, not_not, Bool.not_eq_true, ne_eq]
      exact ⟨fun hok => congrArg _ (if_neg (hbad.not.mpr (not_not.mpr hok))), fun hok => congrArg _ (if_pos (hbad.mpr hok))⟩
    case preempt =>
      rw [exec_preempt, execPreempt, hserved _ hop]
      refine ⟨fun hnone => congrArg _ (if_pos (by simp [hnone])), fun g hg => congrArg _ (if_neg (by simp [hg]))⟩
    case resume =>
      rw [exec_resume, execResume, hserved _ hop]
      intro r known
      have hunknown : ((t.region? r).isNone || !(t.clusters.any fun k => k.2.pre.any fun p => p.region == r)) = true
          ↔ ¬known := by
        simp only [known, not_and_or, Bool.or_eq_true, Bool.not_eq_true', Option.isNone_iff_eq_none,
          Option.isSome_eq_false_iff, Bool.not_eq_true]
      exact ⟨fun hknown => congrArg _ (if_neg (hunknown.not.mpr (not_not.mpr hknown))),
        fun h => congrArg _ (if_pos (hunknown.mpr h))⟩
    case reset => rw [exec_reset, execReset, hserved _ hop]
  case scrubbed => rw [exec_scrubComplete, execScrubComplete, hq]
  case report =>
    rw [exec_teardownReport, execTeardownReport]
    dsimp only
    rw [hx]
    dsimp only
    rw [htear]
    exact if_neg (by simp [hlast])
  case entry =>
    rw [exec_partitionEntryWrite, execPartitionEntryWrite]
    exact ⟨fun hdrops => congrArg _ (if_pos hdrops), fun hkept => congrArg _ (if_neg (Bool.eq_false_iff.mp hkept))⟩
  case debugEntry => rw [exec_debugEntryWrite, execDebugEntryWrite]

end Sys2Proof.Machine
end

section
/-! Proofs about thermal readings (R415), and O45. -/

namespace Sys2Proof.Machine

/-! ## What a reading sets (R415) -/

/-- Reading a die after it was changed, where no die is listed twice. -/
theorem State.die_modDie_of_sorted {s : State} (h : KMap.sorted s.dies = true) (d : Nat) (f : Die → Die) :
    (s.modDie d f).die d = f (s.die d) :=
  (KMap.lookD_putD h d d Die.empty (f (s.die d))).trans (if_pos rfl)

/-- A value put into a map is listed, unless it is the default. -/
theorem KMap.mem_putD_self {α : Type} [DecidableEq α] {m : KMap α} {a : Nat} {d x : α} (h : x ≠ d) :
    (a, x) ∈ KMap.putD m a d x := by
  rw [KMap.putD, if_neg h]
  exact KMap.mem_of_look (KMap.look_put_same m a x)

theorem KMap.mem_putD {α : Type} [DecidableEq α] {m : KMap α} {a : Nat} {d x : α} {p : Nat × α}
    (h : p ∈ KMap.putD m a d x) : p = (a, x) ∨ p ∈ m := by
  rw [KMap.putD] at h
  split at h
  next => exact .inr (KMap.mem_del h)
  next => exact KMap.mem_put h

/-- The clause of O45 on readings of at most 110 degrees, where no die is listed twice: that is what its statement lacks. -/
theorem exec_thermalReading_of_cool {s : State} (h : KMap.sorted s.dies = true) (d : DieNo) {t : BitVec 64}
    (hcool : t.toNat ≤ 880) :
    ∃ u, exec (.thermalReading d t) s = .next u ∧ (u.die d.val).skip = skipAt t.toNat ∧ u.ctxs = s.ctxs ∧ u.mem = s.mem
      ∧ (840 ≤ t.toNat → u.boot.alert = true)
      ∧ (t.toNat < 840 → (∀ p ∈ s.temps, alertAt p.2.toNat = false) → u.boot.alert = false) := by
  rw [exec_thermalReading, execThermalReading, if_neg (Nat.not_lt.mpr hcool)]
  refine ⟨_, rfl, ?skips, rfl, rfl, fun hhot => ?alert, fun hlow hothers => ?noAlert⟩
  case skips => exact congrArg Die.skip (State.die_modDie_of_sorted h d.val fun k => { k with skip := skipAt t.toNat })
  case alert =>
    have hzero : t ≠ 0 := by
      rintro rfl
      simp at hhot
    exact List.any_eq_true.mpr ⟨_, KMap.mem_putD_self hzero, by simp [alertAt, hhot, hcool]⟩
  case noAlert =>
    refine List.any_eq_false.mpr fun p hp => ?_
    obtain rfl | hp := KMap.mem_putD hp
    · simp [alertAt, Nat.not_le.mpr hlow]
    · simp [hothers p hp]

/-! ## O45 -/

/-- A package that lists die 0 twice, which no map in canonical form does. -/
def twiceListed : State := { State.reset with dies := [(0, { Die.empty with skip := 1 }), (0, { Die.empty with skip := 2 })] }

/-- A reading of 0 degrees makes the first entry as after reset, so that it is no longer listed: die 0 reads as the second. -/
theorem thermalReading_twiceListed :
    (match exec (.thermalReading 0 0) twiceListed with
      | .next u => some (u.die 0).skip
      | _ => none) = some 2 := by decide +kernel

/-- Refutes O45: it speaks of every state, also of one whose dies are not in canonical form. Where die 0 is listed twice, a
reading of 0 degrees leaves it skipping 2 issue cycles, not 0. `exec_thermalReading_of_cool` is the clause that fails, for the
states whose dies are in order. -/
theorem not_powerEvents : ¬ Obligations.PowerEvents := by
  unfold Obligations.PowerEvents
  intro h
  obtain ⟨-, -, -, hcool, -⟩ := h twiceListed
  obtain ⟨u, hu, hskip, -⟩ := hcool 0 0 (by decide)
  have htwo := thermalReading_twiceListed
  rw [hu] at htwo
  have hskip2 : (u.die 0).skip = 2 := Option.some.inj htwo
  exact absurd (hskip2.symm.trans hskip) (by decide)

end Sys2Proof.Machine
end

section
/-! Proofs about transfers of control (R32, R33, R93), and O7. -/

namespace Sys2Proof.Machine

/-! ## Translation looks at no context -/

theorem State.pathUp_modCtx (s : State) (uid : Nat) (f : Context → Context) (fuel id : Nat) :
    (s.modCtx uid f).pathUp fuel id = s.pathUp fuel id := by
  induction fuel generalizing id with
  | zero => rfl
  | succ fuel ih => simp only [State.pathUp, State.modCtx_nodes, ih]

theorem State.translate_modCtx (s : State) (uid : Nat) (f : Context → Context) (sp va n : Nat) :
    (s.modCtx uid f).translate sp va n = s.translate sp va n := by
  have hroot : (s.modCtx uid f).rootNode va = s.rootNode va := rfl
  have hgone : (s.modCtx uid f).rootGone va n = s.rootGone va n := rfl
  have hnode : (s.modCtx uid f).nodeAt sp va n = s.nodeAt sp va n := rfl
  simp only [State.translate, hroot, hgone, hnode, State.pathUp_modCtx]

theorem State.isPool_modCtx (s : State) (uid : Nat) (f : Context → Context) (a : Nat) :
    (s.modCtx uid f).isPool a = s.isPool a := by
  have hhome : (s.modCtx uid f).homeOf a = s.homeOf a := rfl
  have hentry (i : Nat) : (s.modCtx uid f).poolEntry i = s.poolEntry i := rfl
  simp only [State.isPool, hhome, hentry]

theorem State.poolAllows_modCtx (s : State) (uid : Nat) (f : Context → Context) (a n : Nat) (rd wr : Bool) :
    (s.modCtx uid f).poolAllows a n rd wr = s.poolAllows a n rd wr := by
  have hentry (i : Nat) : (s.modCtx uid f).poolEntry i = s.poolEntry i := rfl
  simp only [State.poolAllows, hentry]

theorem State.protDenies_modCtx (s : State) (uid : Nat) (f : Context → Context) (w a n : Nat) (write : Bool) :
    (s.modCtx uid f).protDenies w a n write = s.protDenies w a n write := by
  have hhome (l : Nat) : (s.modCtx uid f).homeOf l = s.homeOf l := rfl
  simp only [State.protDenies, hhome, State.modCtx_mem]

theorem State.allowed_modCtx (s : State) (uid : Nat) (f : Context → Context) (w a n : Nat) (need : Need)
    (tr : Bool) : (s.modCtx uid f).allowed w a n need tr = s.allowed w a n need tr := by
  have htrack : (s.modCtx uid f).inTrack a n = s.inTrack a n := rfl
  simp only [State.allowed, State.touchesPool, State.isPool_modCtx, State.poolAllows_modCtx, State.protDenies_modCtx,
    htrack]

theorem State.resolveGlobal_modCtx (s : State) (uid : Nat) (f : Context → Context) (w sp : Nat) (slot7 : Bool)
    (va size align : Nat) (need : Need) :
    (s.modCtx uid f).resolveGlobal w sp slot7 va size align need = s.resolveGlobal w sp slot7 va size align need := by
  simp only [State.resolveGlobal, State.translate_modCtx, State.allowed_modCtx]

/-- Where control may arrive does not depend on where it comes from. -/
theorem State.arrive_movedOn (s : State) (uid : Nat) (c : Context) (t : BitVec 64) :
    (s.movedOn uid).arrive c t = s.arrive c t := by
  simp only [State.arrive, State.movedOn, State.resolveGlobal_modCtx]

/-! ## Where a transfer of control leads (R93) -/

section Transfers

variable {s : State} {c : Context} {ctl : Ctl} {i : Instr} {op : Nat} {rd : List Src} {wr : List AnyReg}
  {body : Nat → Context → State → Res} {t : BitVec 64}

/-- An instruction that writes a register, or none, and transfers control to a target that it may arrive at. -/
theorem State.goesTo_of_jump (h : s.ready c ctl rd wr) (hi : exec i s = issue op ctl noPriv rd wr s body)
    (hb : body s.issuing c (s.movedOn s.issuing) = .done ((s.movedOn s.issuing).jump s.issuing t)) :
    s.goesTo ctl c i c t := by
  rw [State.goesTo, hi]
  exact issue_context (fun c => { c with pc := t, pastEnd := false, block := none }) _ h rfl hb rfl rfl

theorem State.goesTo_of_setReg_jump {d : Fin 64} {v : BitVec 64} (h : s.ready c ctl rd wr)
    (hi : exec i s = issue op ctl noPriv rd wr s body)
    (hb : body s.issuing c (s.movedOn s.issuing)
      = .done (((s.movedOn s.issuing).setReg s.issuing (.x d) v).jump s.issuing t)) :
    s.goesTo ctl c i (c.setX d v) t := by
  rw [State.goesTo, hi, ← Context.setAny_x]
  rw [State.setReg, State.jump, State.modCtx_modCtx] at hb
  exact issue_context _ _ h rfl hb (by rw [Context.setAny_moved]) (by simp)

/-- A body that is a transfer of control goes to the target, or faults where control may not arrive there. -/
theorem State.goesTo_or_faults_of_goto (h : s.ready c ctl rd wr) (hi : exec i s = issue op ctl noPriv rd wr s body)
    (hb : body s.issuing c (s.movedOn s.issuing) = (s.movedOn s.issuing).goto s.issuing c t) :
    (s.arrive c t = none → s.goesTo ctl c i c t) ∧ ∀ e, s.arrive c t = some e → s.faults c i op e.1 e.2 := by
  rw [State.goto, State.arrive_movedOn] at hb
  refine ⟨fun ha => State.goesTo_of_jump h hi (hb.trans ?_), fun e he => State.faults_of_trap h hi rfl (hb.trans ?_)⟩
  · rw [ha]
  · rw [he]

end Transfers

/-! ## O7 -/

/-- Settles O7: each instruction is a transfer of control to its target, after the write of its register. -/
theorem branches : Obligations.Branches := by
  unfold Obligations.Branches
  intro s c ctl
  refine ⟨fun h => State.completes_of_nothing h (exec_nop ..) rfl rfl, fun imm h => ?bra, fun t h => ?indirect,
    fun l t h => ?call, fun r imm h => ?loop, fun full r imm h => ?brf⟩
  case bra => exact State.goesTo_or_faults_of_goto h (exec_bra ..) rfl
  case indirect =>
    obtain ⟨bri, briFaults⟩ := State.goesTo_or_faults_of_goto (t := xVal c t) h (exec_bri ctl t s) rfl
    obtain ⟨ret, retFaults⟩ := State.goesTo_or_faults_of_goto (t := xVal c t) h (exec_ret ctl t s) rfl
    exact ⟨fun ha => ⟨bri ha, ret ha⟩, fun e he => ⟨briFaults e he, retFaults e he⟩⟩
  case call =>
    refine ⟨fun ha => State.goesTo_of_setReg_jump h (exec_call ..) ?_,
      fun e he => State.faults_of_trap h (exec_call ..) rfl ?_⟩
    · rw [State.arrive_movedOn, ha]
    · rw [State.arrive_movedOn, he]
  case loop =>
    refine ⟨fun hn => State.completes_of_setReg h (exec_loop ..) rfl (if_pos hn),
      fun hn ha => State.goesTo_of_setReg_jump h (exec_loop ..) ((if_neg hn).trans ?_),
      fun e hn he => State.faults_of_trap h (exec_loop ..) rfl ((if_neg hn).trans ?_)⟩
    · rw [State.arrive_movedOn, ha]
    · rw [State.arrive_movedOn, he]
  case brf =>
    refine ⟨fun hn => State.completes_of_nothing h (exec_brf ..) rfl (if_neg hn), fun hfull => ?_, fun e hfull => ?_⟩
    · exact (State.goesTo_or_faults_of_goto h (exec_brf ..) (if_pos hfull)).1
    · exact (State.goesTo_or_faults_of_goto h (exec_brf ..) (if_pos hfull)).2 e

end Sys2Proof.Machine
end


section
/-! Proofs about program counters (R32, R33), and O50. -/

namespace Sys2Proof.Machine

theorem badPc_iff (p : BitVec 64) : badPc p = true ↔ 5 ≤ p.toNat % 8 ∨ p.toNat / 8 % 8 ≠ 0 := by
  simp [badPc]

theorem badPc_eq_false_iff (p : BitVec 64) : badPc p = false ↔ p.toNat % 8 < 5 ∧ p.toNat / 8 % 8 = 0 := by
  rw [Bool.eq_false_iff, ne_eq, badPc_iff]
  omega

/-! ## The sequential successor (R32) -/

/-- Within a block the next slot follows. -/
theorem succPc_toNat_of_lt {p : BitVec 64} (h : p.toNat % 8 < 4) : (succPc p).toNat = p.toNat + 1 := by
  rw [succPc, if_pos h, BitVec.toNat_add, show (1 : BitVec 64).toNat = 1 from rfl]
  have := p.isLt
  omega

/-- After slot 4 the next block follows. -/
theorem succPc_toNat_of_ge {p : BitVec 64} (h : 4 ≤ p.toNat % 8) :
    (succPc p).toNat = (p.toNat / 64 * 64 + 64) % 2 ^ 64 := by
  rw [succPc, if_neg (by omega), BitVec.toNat_ofNat]

theorem badPc_succPc {p : BitVec 64} (h : badPc p = false) : badPc (succPc p) = false := by
  rw [badPc_eq_false_iff] at h ⊢
  obtain hlt | hge := Nat.lt_or_ge (p.toNat % 8) 4
  · rw [succPc_toNat_of_lt hlt]
    omega
  · rw [succPc_toNat_of_ge hge]
    omega

/-! ## The target of a relative branch (R33) -/

/-- The slot-linear number of the target of a relative branch. -/
def relLin (p : BitVec 64) (d : BitVec 22) : Nat := (((linPc p : Int) + d.toInt) % (5 * 2 ^ 58 : Int)).toNat

theorem relLin_cast (p : BitVec 64) (d : BitVec 22) :
    (relLin p d : Int) = ((linPc p : Int) + d.toInt) % (5 * 2 ^ 58 : Int) :=
  Int.toNat_of_nonneg (Int.emod_nonneg _ (by decide))

theorem relLin_lt (p : BitVec 64) (d : BitVec 22) : relLin p d < 5 * 2 ^ 58 := by
  have h : ((linPc p : Int) + d.toInt) % (5 * 2 ^ 58 : Int) < 5 * 2 ^ 58 := Int.emod_lt_of_pos _ (by decide)
  have hcast := relLin_cast p d
  omega

/-- The target lies in block `relLin / 5`, in slot `relLin % 5`. -/
theorem relTarget_toNat (p : BitVec 64) (d : BitVec 22) :
    (relTarget p d).toNat = relLin p d / 5 * 64 + relLin p d % 5 := by
  have hlt := relLin_lt p d
  change (BitVec.ofNat 64 (relLin p d / 5 * 64 + relLin p d % 5)).toNat = _
  rw [BitVec.toNat_ofNat]
  omega

theorem linPc_relTarget (p : BitVec 64) (d : BitVec 22) : linPc (relTarget p d) = relLin p d := by
  rw [linPc, relTarget_toNat]
  omega

theorem badPc_relTarget (p : BitVec 64) (d : BitVec 22) : badPc (relTarget p d) = false := by
  rw [badPc_eq_false_iff, relTarget_toNat]
  omega

/-! ## Arrival at a target that is not misaligned (R33) -/

theorem State.arrive_of_error {s : State} {c : Context} {t : BitVec 64} {e : Nat × Nat} (ht : badPc t = false)
    (h : s.resolveGlobal c.world c.space (c.slot == some 7) (t.toNat / 64 * 64) 64 64 .ex = .error e) :
    s.arrive c t = some e := by
  rw [State.arrive, if_neg (Bool.eq_false_iff.mp ht), h]

theorem State.arrive_of_ok {s : State} {c : Context} {t : BitVec 64} {a : Acc} (ht : badPc t = false)
    (h : s.resolveGlobal c.world c.space (c.slot == some 7) (t.toNat / 64 * 64) 64 64 .ex = .ok a) :
    s.arrive c t = none := by
  rw [State.arrive, if_neg (Bool.eq_false_iff.mp ht), h]

/-! ## O50 -/

/-- Settles O50: the successor by the slot of the PC, the target by its slot-linear number, and the branch by what the
translation of its target's block answers. -/
theorem successorAndTargets : Obligations.SuccessorAndTargets := by
  unfold Obligations.SuccessorAndTargets
  refine ⟨fun p => ⟨succPc_toNat_of_lt, succPc_toNat_of_ge, badPc_iff p, badPc_succPc⟩, fun p d _ => ?target,
    fun s c ctl d h _ => ?branch⟩
  case target =>
    rw [linPc_relTarget, relTarget_toNat]
    exact ⟨badPc_relTarget p d, relLin_cast p d, by omega, by omega⟩
  case branch =>
    obtain ⟨goes, faults⟩ := State.goesTo_or_faults_of_goto (t := relTarget c.pc d) h (exec_bra ctl d s) rfl
    exact ⟨fun e he => faults e (State.arrive_of_error (badPc_relTarget ..) he),
      fun a ha => goes (State.arrive_of_ok (badPc_relTarget ..) ha)⟩

end Sys2Proof.Machine
end


section
/-! Proofs about registers after a write, a long producer and a poisoned fill (R36, R52, R55, R56), and O46. -/

namespace Sys2Proof.Machine

/-- A bit after one bit was set or cleared. -/
theorem getLsbD_setBit {w i : Nat} (b : BitVec w) (hi : i < w) (on : Bool) (j : Nat) :
    (setBit b i on).getLsbD j = if j = i then on else b.getLsbD j := by
  have hbit : (BitVec.ofNat w (2 ^ i)).getLsbD j = decide (j = i) := by
    rw [BitVec.getLsbD_ofNat, Nat.testBit_two_pow, Bool.eq_iff_iff]
    simp only [Bool.and_eq_true, decide_eq_true_eq]
    omega
  obtain hj | hj := Nat.lt_or_ge j w
  · cases on
    · rw [setBit, if_neg Bool.false_ne_true, BitVec.getLsbD_and, BitVec.getLsbD_not, hbit]
      by_cases h : j = i <;> simp [hj, h]
    · rw [setBit, if_pos rfl, BitVec.getLsbD_or, hbit]
      by_cases h : j = i <;> simp [h]
  · have hne : j ≠ i := by omega
    rw [if_neg hne, BitVec.getLsbD_of_ge _ _ hj, BitVec.getLsbD_of_ge _ _ hj]

theorem AnyReg.beq_x (m r : Fin 64) : (AnyReg.x m == AnyReg.x r) = decide (m.val = r.val) := by
  simp [Fin.ext_iff, beq_eq_decide]

theorem AnyReg.beq_v (m r : Fin 32) : (AnyReg.v m == AnyReg.v r) = decide (m.val = r.val) := by
  simp [Fin.ext_iff, beq_eq_decide]

theorem AnyReg.beq_p (m r : Fin 8) : (AnyReg.p m == AnyReg.p r) = decide (m.val = r.val) := by
  simp [Fin.ext_iff, beq_eq_decide]

namespace Context

variable (c : Context)

/-! ## Values (R36, R52) -/

theorem getX_setX (h : KMap.sorted c.x = true) (r n : Fin 64) (a : BitVec 64) :
    (c.setX r a).getX n.val = if n = r ∧ r ≠ 0 then a else c.getX n.val := by
  by_cases hr : r = 0
  · subst hr
    rw [if_neg (by simp)]
    rfl
  · have hr' : r.val ≠ 0 := fun h => hr (Fin.ext h)
    rw [setX, if_neg hr']
    simp only [getX, KMap.lookD_putD h, ← Fin.ext_iff]
    by_cases hn : n = r
    · simp [hn, hr, hr']
    · simp [hn]

theorem getV_setV (h : KMap.sorted c.v = true) (r n : Fin 32) (a : BitVec 1024) :
    (c.setV r a).getV n.val = if n = r then a else c.getV n.val := by
  simp only [getV, setV, KMap.lookD_putD h, Fin.ext_iff]

theorem getP_setP (r n : Fin 8) (b : Bool) : (c.setP r b).getP n.val = if n = r ∧ r ≠ 0 then b else c.getP n.val := by
  by_cases hr : r = 0
  · subst hr
    rw [if_neg (by simp)]
    rfl
  · have hr' : r.val ≠ 0 := fun h => hr (Fin.ext h)
    rw [setP, if_neg hr']
    simp only [getP, getLsbD_setBit _ r.isLt, ← Fin.ext_iff]
    by_cases hn : n = r
    · simp [hn, hr, hr']
    · simp [hn]

/-! ## Full, pending, poisoned (R55, R56) -/

variable (r n : AnyReg) (a : BitVec 1024)

theorem isFull_setAny : (c.setAny r a).isFull n = (n == r || c.isFull n) := by
  match r, n with
  | .x r, .x m =>
    by_cases hr : r.val = 0
    · simp only [setAny, setX, isFull, AnyReg.beq_x, hr, if_true]
      cases hm : decide (m.val = 0) <;> simp_all
    · simp only [setAny, setX, isFull, AnyReg.beq_x, hr, if_false, getLsbD_setBit _ r.isLt]
      by_cases hm : m.val = r.val <;> simp [hm]
  | .v r, .v m =>
    simp only [setAny, setV, isFull, AnyReg.beq_v, getLsbD_setBit _ r.isLt]
    by_cases hm : m.val = r.val <;> simp [hm]
  | .p r, .p m =>
    by_cases hr : r.val = 0
    · simp only [setAny, setP, isFull, AnyReg.beq_p, hr, if_true]
      cases hm : decide (m.val = 0) <;> simp_all
    · simp only [setAny, setP, isFull, AnyReg.beq_p, hr, if_false, getLsbD_setBit _ r.isLt]
      by_cases hm : m.val = r.val <;> simp [hm]
  | .x r, .v m | .x r, .p m => simp only [setAny, setX]; split <;> rfl
  | .p r, .v m | .p r, .x m => simp only [setAny, setP]; split <;> rfl
  | .v r, .x m | .v r, .p m => rfl

theorem isPend_setAny : (c.setAny r a).isPend n = (n != r && c.isPend n) := by
  match r, n with
  | .x r, .x m =>
    have hpend : (c.setX r (a.truncate 64)).xPend = setBit c.xPend r.val false := by
      unfold setX
      split
      next hr => rw [hr]
      next => rfl
    simp only [setAny, isPend, hpend, bne, AnyReg.beq_x, getLsbD_setBit _ r.isLt]
    by_cases hm : m.val = r.val <;> simp [hm]
  | .v r, .v m =>
    simp only [setAny, setV, isPend, bne, AnyReg.beq_v, getLsbD_setBit _ r.isLt]
    by_cases hm : m.val = r.val <;> simp [hm]
  | .p r, .p m =>
    have hpend : (c.setP r (a.getLsbD 0)).pPend = setBit c.pPend r.val false := by
      unfold setP
      split
      next hr => rw [hr]
      next => rfl
    simp only [setAny, isPend, hpend, bne, AnyReg.beq_p, getLsbD_setBit _ r.isLt]
    by_cases hm : m.val = r.val <;> simp [hm]
  | .x r, .v m | .x r, .p m => simp only [setAny, setX]; split <;> rfl
  | .p r, .v m | .p r, .x m => simp only [setAny, setP]; split <;> rfl
  | .v r, .x m | .v r, .p m => rfl

/-- Registers of file p hold no poison, and x0 takes none. -/
theorem isPois_setAny (h : r = n → r ≠ .x 0) : (c.setAny r a).isPois n = (n != r && c.isPois n) := by
  match r, n with
  | .x r, .x m =>
    by_cases hr : r.val = 0
    · have hm : m ≠ r := fun hm => h (by rw [hm]) (by rw [Fin.ext (a := r) (b := 0) hr])
      simp [setAny, setX, isPois, hr, hm]
    · simp only [setAny, setX, isPois, bne, AnyReg.beq_x, hr, if_false, getLsbD_setBit _ r.isLt]
      by_cases hm : m.val = r.val <;> simp [hm]
  | .v r, .v m =>
    simp only [setAny, setV, isPois, bne, AnyReg.beq_v, getLsbD_setBit _ r.isLt]
    by_cases hm : m.val = r.val <;> simp [hm]
  | .p r, .p m => simp [isPois]
  | .x r, .v m | .x r, .p m => simp only [setAny, setX]; split <;> rfl
  | .p r, .v m | .p r, .x m => simp only [setAny, setP]; split <;> rfl
  | .v r, .x m | .v r, .p m => rfl

/-! ## A long producer (R36, R55) -/

theorem isFull_pend : (c.pend r).isFull n = if n = r ∧ r ≠ .x 0 ∧ r ≠ .p 0 then false else c.isFull n := by
  match r, n with
  | .x r, .x m =>
    by_cases hr : r.val = 0
    · obtain rfl : r = 0 := Fin.ext hr
      simp [pend, isFull]
    · simp only [pend, isFull, hr, if_false, getLsbD_setBit _ r.isLt]
      by_cases hm : m.val = r.val <;> simp [Fin.ext_iff, hm, hr]
  | .v r, .v m =>
    simp only [pend, isFull, getLsbD_setBit _ r.isLt]
    by_cases hm : m.val = r.val <;> simp [Fin.ext_iff, hm]
  | .p r, .p m =>
    by_cases hr : r.val = 0
    · obtain rfl : r = 0 := Fin.ext hr
      simp [pend, isFull]
    · simp only [pend, isFull, hr, if_false, getLsbD_setBit _ r.isLt]
      by_cases hm : m.val = r.val <;> simp [Fin.ext_iff, hm, hr]
  | .x r, .v m | .x r, .p m | .p r, .v m | .p r, .x m | .v r, .x m | .v r, .p m => simp [pend, isFull]

theorem isPend_pend : (c.pend r).isPend n = (n == r || c.isPend n) := by
  match r, n with
  | .x r, .x m =>
    simp only [pend, isPend, AnyReg.beq_x, getLsbD_setBit _ r.isLt]
    by_cases hm : m.val = r.val <;> simp [hm]
  | .v r, .v m =>
    simp only [pend, isPend, AnyReg.beq_v, getLsbD_setBit _ r.isLt]
    by_cases hm : m.val = r.val <;> simp [hm]
  | .p r, .p m =>
    simp only [pend, isPend, AnyReg.beq_p, getLsbD_setBit _ r.isLt]
    by_cases hm : m.val = r.val <;> simp [hm]
  | .x r, .v m | .x r, .p m | .p r, .v m | .p r, .x m | .v r, .x m | .v r, .p m => rfl

/-- A long producer leaves poison and values as they were. -/
theorem pend_keeps : (c.pend r).isPois n = c.isPois n ∧ (c.pend r).x = c.x ∧ (c.pend r).v = c.v ∧ (c.pend r).p = c.p := by
  cases r <;> cases n <;> exact ⟨rfl, rfl, rfl, rfl⟩

/-! ## A poisoned fill (R56) -/

/-- A poisoned fill leaves full what a write of any value does. -/
theorem isFull_setPois : (c.setPois r).isFull n = (n == r || c.isFull n) := by
  have hsame (a : BitVec 1024) : (c.setPois r).isFull n = (c.setAny r a).isFull n := by
    match r with
    | .x r =>
      simp only [setPois, setAny, setX]
      split <;> cases n <;> rfl
    | .v r => cases n <;> simp only [setPois, setAny, setV, isFull]
    | .p r =>
      simp only [setPois, setAny, setP]
      split <;> cases n <;> rfl
  rw [hsame 0, isFull_setAny]

theorem isPois_setPois_x {r : Fin 64} (hr : r ≠ 0) (n : Fin 64) :
    (c.setPois (.x r)).isPois (.x n) = (n == r || c.isPois (.x n)) := by
  have hr' : r.val ≠ 0 := fun h => hr (Fin.ext h)
  simp only [setPois, setX, isPois, hr', if_false, getLsbD_setBit _ r.isLt]
  by_cases hn : n = r <;> simp [hn, Fin.val_inj]

theorem getX_setPois (h : KMap.sorted c.x = true) (r n : Fin 64) :
    (c.setPois (.x r)).getX n.val = if n = r then 0 else c.getX n.val := by
  have hsame : (c.setPois (.x r)).getX n.val = (c.setX r 0).getX n.val := by
    simp only [setPois]
    split <;> rfl
  rw [hsame, getX_setX c h]
  by_cases hn : n = r
  · by_cases hr : r = 0 <;> simp [hn, hr, getX]
  · simp [hn]

theorem isPois_setPois_v (r n : Fin 32) : (c.setPois (.v r)).isPois (.v n) = (n == r || c.isPois (.v n)) := by
  simp only [setPois, setV, isPois, getLsbD_setBit _ r.isLt]
  by_cases hn : n = r <;> simp [hn, Fin.val_inj]

theorem getV_setPois (h : KMap.sorted c.v = true) (r n : Fin 32) :
    (c.setPois (.v r)).getV n.val = if n = r then 0 else c.getV n.val := by
  simp only [setPois, getV, setV, KMap.lookD_putD h, Fin.ext_iff]

end Context

/-! ## O46 -/

/-- Settles O46: each clause reads one field of the register file after one change of it. -/
theorem registerFile : Obligations.RegisterFile := by
  unfold Obligations.RegisterFile
  intro c hx hv
  refine ⟨⟨rfl, rfl, rfl, rfl⟩, c.getX_setX hx, c.getV_setV hv, c.getP_setP,
    fun r n a => ⟨c.isFull_setAny r n a, c.isPend_setAny r n a, c.isPois_setAny r n a⟩, fun r n => ?pend,
    c.isFull_setPois, fun r n => ⟨fun hr => c.isPois_setPois_x hr n, c.getX_setPois hx r n⟩,
    fun r n => ⟨c.isPois_setPois_v r n, c.getV_setPois hv r n⟩⟩
  case pend => exact ⟨c.isFull_pend r n, c.isPend_pend r n, c.pend_keeps r n⟩

end Sys2Proof.Machine
end


section
/-! Proofs about the encodings of instructions (R34 to R50): O51, and O52, which fails. -/

namespace Sys2Proof

/-- Settles O51: the decoder is run on each of the words. -/
theorem decodedWords : Obligations.DecodedWords := by
  unfold Obligations.DecodedWords
  refine ⟨?_, ?_, ?_, ?_, ?_, ?_, ?_, ?_, ?_, ?_, ?_, ?_, ?_, ?_, ?_, ?_, ?_⟩
  all_goals decide

/-- Refutes O52: the type of a rounding admits `.sr`, which R44 gives the vector and matrix units alone, so
`FADD.f64.sr` is well formed; its code, 4, does not fit the two bits of its field, and its word decodes to `FADD.f32.rne`. -/
theorem not_decodeEncode : ¬ Obligations.DecodeEncode := by
  unfold Obligations.DecodeEncode
  intro h
  have hback := h (.fadd ⟨false, 0, 0, false, false, 0⟩ .f64 .sr 0 ⟨0, false⟩ ⟨0, false⟩) _ rfl rfl
  exact absurd hback (by decide)

end Sys2Proof
end


section
/-! Proofs about the copy instructions (R312 to R314) and about evidence, breaks and `ILL` (R41, R380, R412): O26 and O30. -/

namespace Sys2Proof.Machine

/-! ## The copy engine (R311 to R314) -/

/-- The command that a copy instruction of a context gives its engine (R311, R312). -/
def Context.copyCommand (c : Context) (uid : Nat) (dest : Fin 64) (desc : Nat) (member : BitVec 64) : CopyCmd :=
  { by_ := .ctx { uid := uid, dest := .x dest }, world := c.world, lid := c.lid, region := c.region, space := c.space,
    coord := c.item, item := c.item, srmode := c.srmode, rlim := c.rlim.toNat, order := c.serial,
    seq := BitVec.ofNat 64 (linPc c.pc) ^^^ BitVec.ofNat 64 (cpSrc desc) ^^^ BitVec.ofNat 64 (cpDst desc),
    desc := BitVec.ofNat 512 desc, member := member, offset := 0, wrote := 0, flags := 0, nan := none, groups := 0 }

/-- The command joins the queue of its core while fewer than two are queued. -/
theorem State.copyCmd_of_room {s : State} {uid : Nat} {c : Context} {dest : Fin 64} {desc : Nat} {member : BitVec 64}
    (h : (s.core c.die.val c.core.val).cpy.queue.length < 2) :
    s.copyCmd uid c dest desc member
      = .done ((s.pendReg uid (.x dest)).modCpy c.die.val c.core.val fun e =>
        { e with queue := e.queue ++ [c.copyCommand uid dest desc member] }) :=
  if_neg (Nat.not_le.mpr h)

/-- A count of releases past the end of a schedule of limited rounds, or after its end, is refused. -/
theorem schedule_over_iff {ended : Bool} {rounds total want : Nat} :
    (ended || (rounds != 0 && decide (total < want))) = true ↔ ended = true ∨ (rounds ≠ 0 ∧ total < want) := by
  simp

/-- Settles O26: each clause is one answer of the body of its instruction. -/
theorem copyCommands : Obligations.CopyCommands := by
  unfold Obligations.CopyCommands
  intro s c ctl
  dsimp only
  refine ⟨fun xs a ph u bs h hblock hrel hroom => ?cpy,
    fun xs da sa h => ⟨fun e hd => ?target, fun e hd hs => ?source, fun hd hs hlen => ?length,
      fun hd hs hlen hrel hroom => ?cpyi⟩,
    fun xs k h => ⟨fun hnone => ?noSchedule, fun sc l hsc hl => ⟨fun hmany => ?tooMany, fun hend hfits hrel => ?releases⟩⟩,
    fun xs a h => ⟨fun hown => ?own, fun l hall hl => ?all⟩⟩
  case cpy =>
    refine State.doneAs_of_done h (exec_cpy ..) rfl ?_
    rw [hblock, Block.into, hrel]
    exact State.copyCmd_of_room hroom
  case target =>
    refine State.faults_of_trap h (exec_cpyi ..) rfl ?_
    dsimp only
    rw [hd, Option.orElse_some]
  case source =>
    refine State.faults_of_trap h (exec_cpyi ..) rfl ?_
    dsimp only
    rw [hd, Option.orElse_none, hs]
  case length =>
    refine State.faults_of_trap h (exec_cpyi ..) rfl ?_
    dsimp only
    rw [hd, Option.orElse_none, hs]
    exact if_pos hlen
  case cpyi =>
    refine State.doneAs_of_done h (exec_cpyi ..) rfl ?_
    dsimp only
    rw [hd, Option.orElse_none, hs, if_neg (not_not.mpr hlen), hrel]
    exact State.copyCmd_of_room hroom
  case noSchedule =>
    have hnone' : KMap.look (s.movedOn s.issuing).scheds c.lid = none := hnone
    refine State.completes_of_produceWord h (exec_cpstg ..) rfl ?_
    dsimp only
    rw [hnone']
  case own =>
    refine State.doneAs_of_done h (exec_cpabt ..) rfl ?_
    dsimp only
    obtain hall | hnone := hown
    · rw [hall]
      rfl
    · rw [hnone]
      cases (xiVal c a).getLsbD 0 <;> rfl
  case all =>
    refine State.doneAs_of_done h (exec_cpabt ..) rfl ?_
    dsimp only
    rw [hall, hl]
  all_goals
    have hsc' : KMap.look (s.movedOn s.issuing).scheds c.lid = some sc := hsc
    have hl' : (s.movedOn s.issuing).launch? c.lid = some l := hl
  case tooMany =>
    refine State.completes_of_produceWord h (exec_cpstg ..) rfl ?_
    dsimp only
    rw [hsc', hl']
    exact if_pos (schedule_over_iff.mpr hmany)
  case releases =>
    have hnot : ¬(sc.ended = true ∨ (sc.rounds ≠ 0 ∧ sc.n * sc.rounds < sc.count + (xiVal c k).toNat % 65536)) := by
      rintro (hended | ⟨hrounds, hlt⟩)
      · exact absurd (hend.symm.trans hended) Bool.false_ne_true
      · omega
    refine State.doneAs_of_done h (exec_cpstg ..) rfl ?_
    dsimp only
    rw [hsc', hl']
    dsimp only
    rw [if_neg (mt schedule_over_iff.mp hnot), hrel]
    rfl

/-! ## Evidence, breaks and `ILL` (R41, R380, R412) -/

theorem State.readBlock_of_error {s : State} {uid : Nat} {c : Context} {loc : BitVec 2} {m : MemOp} {n : Nat}
    {e : Nat × Nat} (h : s.resolve c m.mode (formAddr c m n) n .rd false .block = .error e) :
    s.readBlock uid c loc m n = .trap e.1 e.2 := by
  rw [State.readBlock, h]

/-- A global access that is not aligned faults before its address is translated (R133). -/
theorem State.resolveGlobal_misaligned {s : State} {w sp va size align : Nat} {slot7 : Bool} {need : Need}
    (h : va % align ≠ 0) : s.resolveGlobal w sp slot7 va size align need = .error (causeMisaligned, va) :=
  if_pos h

/-- A body that traps for another place than its own instruction's. -/
theorem State.takesFault_of_trapAt {s : State} {c : Context} {ctl : Ctl} {i : Instr} {op : Nat} {rd : List Src}
    {wr : List AnyReg} {body : Nat → Context → State → Res} {cause addr : Nat} {tpc : BitVec 64}
    (h : s.ready c ctl rd wr) (hi : exec i s = issue op ctl noPriv rd wr s body)
    (hb : body s.issuing c (s.movedOn s.issuing) = .trapAt cause addr tpc) :
    exec i s = .next (s.takeFault s.issuing op cause addr tpc) := by
  obtain ⟨hc, hmay⟩ := h
  obtain ⟨hpred, hguard, hlines, hbang, hempty, hpois, hpend⟩ := Context.checks_of_mayIssue hmay
  rw [hi, issue, hc]
  simp only [noPriv, hpred, hguard, hlines, hbang, hempty, hpois, hpend, hb, Bool.not_true, Bool.false_eq_true, if_false]

/-- Settles O30: each clause is one answer of the body of its instruction; in slot 6 `EVID` does not reach it. -/
theorem evidenceBreakIllegal : Obligations.EvidenceBreakIllegal := by
  unfold Obligations.EvidenceBreakIllegal
  intro s c ctl
  dsimp only
  refine ⟨fun xs a xr h => ⟨fun h6 => ?privileged, fun e h6 he => ?request, fun u bs h6 hr hblock => ?misaligned,
      fun u bs reply h6 hblock hreply hrel => ⟨fun hload => ?busy, fun hload => ?asks⟩⟩,
    fun h => ⟨fun hbrk => State.completes_of_nothing h (exec_dbgbrk ..) rfl (if_neg (Bool.eq_false_iff.mp hbrk)),
      fun hbrk => ?breaks⟩, fun hc b => ?ill⟩
  case privileged =>
    rw [State.faults, exec_evid]
    exact issue_privileged h.1 h6
  case request =>
    refine State.faults_of_trap h (exec_evid ..) h6 ?_
    dsimp only
    rw [State.readBlock_of_error he, Block.into]
  case misaligned =>
    refine State.faults_of_trap h (exec_evid ..) h6 ?_
    dsimp only
    rw [hblock, Block.into, State.resolveGlobal_misaligned hr, orTrap]
  case busy =>
    refine State.doneAs_of_done h (exec_evid ..) h6 ?_
    dsimp only
    rw [hblock, Block.into, hreply, orTrap, hrel]
    exact if_pos hload
  case asks =>
    refine State.doneAs_of_done h (exec_evid ..) h6 ?_
    dsimp only
    rw [hblock, Block.into, hreply, orTrap, hrel]
    exact if_neg (Nat.not_le.mpr hload)
  case breaks => exact State.takesFault_of_trapAt h (exec_dbgbrk ..) (if_pos hbrk)
  case ill => rw [State.faults, exec_ill, execIll, hc]

end Sys2Proof.Machine
end


section
/-! Proofs about the events of a core (R30, R55, R59, R114, R391, R421), and O31. -/

namespace Sys2Proof.Machine

/-! ## Fills (R55, R56) -/

/-- A fill of a context that is there is what `fillNow` does. -/
theorem exec_longProducerFill_of_fill {s : State} {uid k : Nat} {c : Context} {f : Fill} (hc : s.ctx? uid = some c)
    (hf : c.fills[k]? = some f) : exec (.longProducerFill uid k) s = .next (s.fillNow uid c k f) := by
  rw [exec_longProducerFill, execLongProducerFill, hc]
  dsimp only
  rw [hf]

/-- An access that no migration holds is performed (R147). -/
theorem State.fillThrough_of_free {s : State} {uid : Nat} {f : Fill} {acc : Acc} {go : State → State}
    (h : s.pauser uid (.fill f.dest) (s.places acc) = none) :
    s.fillThrough uid f acc go = go (s.unpause uid (.fill f.dest)) := by
  rw [State.fillThrough, h]

/-- A write-back that the device has not acknowledged in time ends with pool_dead (R391). -/
theorem State.fillPoolAck_of_late {s : State} {uid k since : Nat} {c : Context} {f : Fill}
    {sent : List (Nat × List Byte)} {ds : Nat} (h : since + 65536 ≤ s.cyc c.die.val) :
    s.fillPoolAck uid c k f since sent ds
      = ((s.poolLost sent).takeFill uid k).land uid f (some ((errWord 0x72).setWidth 1024)) :=
  if_pos h

theorem State.fillPoolAck_of_acknowledged {s : State} {uid k since : Nat} {c : Context} {f : Fill}
    {sent : List (Nat × List Byte)} {ds : Nat} (h : s.cyc c.die.val < since + 65536) :
    s.fillPoolAck uid c k f since sent ds
      = (s.takeFill uid k).land uid f (some (BitVec.ofNat 1024 (ds * 2 ^ 32 + sent.length))) :=
  if_neg (Nat.not_le.mpr h)

/-- The fill that `poolLate` finds has waited for its device's whole time. -/
theorem State.poolLate_since {s : State} {c : Context} {f : Fill} {k since ds : Nat} {sent : List (Nat × List Byte)}
    (h : s.poolLate c = some (f, k)) (hf : f.src = .poolAck since sent ds) : since + 65536 ≤ s.cyc c.die.val := by
  have hfound := List.find?_some h
  dsimp only at hfound
  rw [hf] at hfound
  exact of_decide_eq_true hfound

/-! ## O31 -/

/-- Settles O31: each clause is one branch of its event. -/
theorem coreEvents : Obligations.CoreEvents := by
  unfold Obligations.CoreEvents
  intro s
  dsimp only
  refine ⟨fun d c => ⟨fun hskip hcyc => ?skips, fun hissue => ?selects⟩, fun d c key rest hkey => ?refetch,
    fun uid k c f hc hf => ?fill, fun uid n ns c hc hslot hwhy hn hline => ?line,
    fun uid n c e hc hline hdirty hevict he => ?evict, fun uid c f k since sent ds hc hlate hf => ?late⟩
  case skips =>
    have hheat : (s.ejectExhausted d.val c.val).heatSkips d.val = true := by
      rw [State.heatSkips, hcyc]
      exact decide_eq_true hskip
    exact if_pos hheat
  case selects =>
    have hheat : ¬(s.ejectExhausted d.val c.val).heatSkips d.val = true := by
      rw [State.heatSkips, decide_eq_true_eq]
      omega
    exact if_neg hheat
  case refetch => rw [exec_blockRefetch, execBlockRefetch, hkey]
  case fill =>
    have fills {t : State} (ht : s.fillNow uid c k f = t) : exec (.longProducerFill uid k) s = .next t := by
      rw [exec_longProducerFill_of_fill hc hf, ht]
    refine ⟨fun v hv => ?value, fun hp => fills ?poisoned, fun now n hsrc hnow => fills ?count,
      fun n all hsrc hdone => fills ?aborted, fun sp g hsrc => fills ?space, fun u dest v hsrc hsoon => fills ?following,
      fun since sent ds hsrc => ⟨fun hin => fills ?acknowledged, fun hlate => fills ?unacknowledged⟩,
      fun id scope sc hsrc hmet => fills ?fence,
      fun acc hfree => ⟨fun hsrc => fills ?load, fun hsrc => fills ?feget, fun op w b hsrc => fills ?atom⟩⟩
    case value =>
      obtain hsrc | hsrc := hv
      · exact fills (by rw [State.fillNow, hsrc])
      · exact fills (by rw [State.fillNow, hsrc])
    case poisoned => rw [State.fillNow, hp]
    case space => rw [State.fillNow, hsrc]
    all_goals
      rw [State.fillNow, hsrc]
      dsimp only
    case count => exact if_neg (Nat.not_le.mpr hnow)
    case aborted => exact if_neg (Bool.eq_false_iff.mp hdone)
    case following => exact if_neg (Bool.eq_false_iff.mp hsoon)
    case acknowledged => exact State.fillPoolAck_of_acknowledged hin
    case unacknowledged => exact State.fillPoolAck_of_late hlate
    case fence => exact if_pos hmet
    case load => exact State.fillThrough_of_free hfree
    case feget => exact State.fillThrough_of_free hfree
    case atom => exact State.fillThrough_of_free hfree
  case line =>
    rw [exec_registerLineFill, execRegisterLineFill, hc]
    dsimp only
    rw [hwhy]
    simp [hslot, hn, hline]
  case evict =>
    rw [exec_writeBackFailure, execWriteBackFailure, hc]
    simp only [hline, hdirty, hevict, he, Bool.not_true, Bool.or_self, Bool.false_eq_true, if_false]
  case late =>
    rw [exec_poolAckTimeout, execPoolAckTimeout, hc]
    dsimp only
    rw [hlate]
    dsimp only
    rw [State.fillNow, hf]
    dsimp only
    rw [State.fillPoolAck_of_late (State.poolLate_since hlate hf)]

end Sys2Proof.Machine
end


section
/-! Proofs about one step: what it performs, and O56. -/

namespace Sys2Proof.Machine

/-! ## What stands before an execution (R30, R40, R400) -/

/-- A context with no fault at its boundary, whose word decodes, is prepared to run its instruction. -/
theorem State.prepare_of_decoded {s u : State} {c : Context} {w : IWord} {e : Bool} {bs : List Byte} {i : Instr}
    (hc : s.ctx? s.issuing = some c) (hb : s.boundaryFault c = none) (hf : s.fetch c = .word u w e bs)
    (hd : decode w = .ok i) :
    s.prepare
      = .run i (u.modCtx u.issuing fun c => { c with codeEnd := e, block := some (c.pc.toNat / 64 * 64, bs) }) := by
  rw [State.prepare, hc]
  dsimp only
  rw [hb]
  dsimp only
  rw [hf]
  dsimp only
  rw [hd]

section Prepared

variable {s v : State} {i : Instr} (hp : s.prepare = .run i v)
include hp

theorem State.prepareIssue_of_gone (h : v.ctx? v.issuing = none) : s.prepareIssue = .run i v := by
  rw [State.prepareIssue, hp]
  dsimp only
  rw [h]

variable {y : Context} (hy : v.ctx? v.issuing = some y)
include hy

theorem State.prepareIssue_of_notLent (h : v.lendOf (clKey y.die.val (clusterOf y.core.val)) = none) :
    s.prepareIssue = .run i v := by
  rw [State.prepareIssue, hp]
  dsimp only
  rw [hy]
  dsimp only
  rw [h]

variable {l : Lend} (hl : v.lendOf (clKey y.die.val (clusterOf y.core.val)) = some l)
include hl

/-- On a lent slice, what is no engine command of the borrower runs at once. -/
theorem State.prepareIssue_of_exempt
    (h : engineShare (v.nextOpcode y) = 0 ∨ v.partOfRegion y.region ≠ l.borrower) : s.prepareIssue = .run i v := by
  rw [State.prepareIssue, hp]
  dsimp only
  rw [hy]
  dsimp only
  rw [hl]
  exact if_pos (by simpa using h)

/-- On a lent slice, an engine command of the borrower runs where the estimate fits. -/
theorem State.prepareIssue_of_fits (hn : engineShare (v.nextOpcode y) ≠ 0) (hb : v.partOfRegion y.region = l.borrower)
    (hfit : (v.lentFits y.region (clKey y.die.val (clusterOf y.core.val)) l.deadline y.core.val
      (engineShare (v.nextOpcode y)) true).1 = true) :
    s.prepareIssue = .run i (v.lentFits y.region (clKey y.die.val (clusterOf y.core.val)) l.deadline y.core.val
      (engineShare (v.nextOpcode y)) true).2 := by
  rw [State.prepareIssue, hp]
  dsimp only
  rw [hy]
  dsimp only
  rw [hl]
  exact (if_neg (by simp [hn, hb])).trans (if_pos hfit)

end Prepared

/-! ## One step (R114; log 1) -/

theorem step_of_agenda {s : State} {a : Action} {rest : List Action} (h : s.agenda = a :: rest) :
    step s = perform a { s with agenda := rest } := by
  rw [step, h]

theorem perform_issueCycle (d : DieNo) (k : CoreNo) (s : State) :
    perform (.event (.issueCycle d k)) s = issueTry d k 9 (readyOnly d k s) := rfl

/-- An event that is no issue cycle is executed. -/
theorem perform_event {i : Instr} (s : State) (hi : i.isEvent = true) (hne : ∀ d k, i ≠ .issueCycle d k) :
    perform (.event i) s = exec i s := by
  unfold perform
  split
  next d k he => exact absurd (Action.event.inj he) (hne d k)
  next j _ he =>
    obtain rfl := Action.event.inj he
    exact if_pos hi
  next hna => exact absurd rfl (hna i)

/-- The cycle ends with the first context chosen whose instruction issues. -/
theorem issueTry_of_issued {d : DieNo} {k : CoreNo} {n : Nat} {s t x : State} (hsel : exec (.issueCycle d k) s = .next t)
    (ht : t.issuing ≠ 0) (hrun : runIssued t = .next x) (hx : x.didIssue t.issuing = true) :
    issueTry d k (n + 1) s = .next (x.endCycle d.val k.val) := by
  rw [issueTry, hsel]
  dsimp only
  rw [if_neg ht, hrun]
  exact if_pos hx

theorem runIssued_of_prepared {s v : State} {i : Instr} (h : s.prepareIssue = .run i v) : runIssued s = exec i v := by
  rw [runIssued, h]

/-! ## O56 -/

/-- Settles O56: a step performs the first action; an issue cycle whose choice is prepared to run runs it. -/
theorem stepRunsDecoded : Obligations.StepRunsDecoded := by
  unfold Obligations.StepRunsDecoded
  intro s rest
  refine ⟨fun hnil => ?default, fun i hag hev hne => ?event,
    fun d k t c u w e bs i x hag hsel ht hc hb hf hd => ?issue⟩
  case default =>
    have hturn : ({ s.turned with agenda := [] } : State) = s.turned := by
      rw [State.turned, ← hnil]
    rw [step_of_agenda (s := { s.turned with agenda := [s.defaultAction] }) rfl, step, hnil]
    exact congrArg (perform s.defaultAction) hturn.symm
  case event => rw [step_of_agenda hag, perform_event _ hev hne]
  case issue =>
    intro v runs
    have hp : t.prepare = .run i v := State.prepare_of_decoded hc hb hf hd
    have hruns {q : State} (hq : t.prepareIssue = .run i q) : runs q := fun hx hdid => by
      rw [step_of_agenda hag, perform_issueCycle]
      exact issueTry_of_issued hsel ht ((runIssued_of_prepared hq).trans hx) hdid
    refine ⟨fun hgone => hruns (State.prepareIssue_of_gone hp hgone), fun y hy =>
      ⟨fun hl => hruns (State.prepareIssue_of_notLent hp hy hl), fun l hl =>
        ⟨fun hex => hruns (State.prepareIssue_of_exempt hp hy hl hex), fun hn hbor hfit =>
          hruns (State.prepareIssue_of_fits hp hy hl hn hbor hfit)⟩⟩⟩

end Sys2Proof.Machine
end

section
/-! Proofs about what every instruction of a program does before its own effect (R37, R40), and O48. -/

namespace Sys2Proof

/-! ## The opcode of an encoded word (R34) -/

/-- The fields lie within their widths. -/
def Raw.Fits (r : Raw) : Prop := r.op < 256 ∧ r.fn < 16 ∧ r.a < 0x1000000 ∧ r.b < 0x1000000 ∧ r.c < 0x1000000

theorem bit_le_one (b : Bool) : bit b ≤ 1 := by
  cases b
  all_goals decide

theorem Raw.opcode_toWord {r : Raw} (h : r.Fits) : r.toWord.toNat / 2 ^ 88 = r.op := by
  obtain ⟨hop, hfn, ha, hb, hc⟩ := h
  have := bit_le_one r.ctl.neg
  have := bit_le_one r.ctl.yield
  have := bit_le_one r.ctl.reuse
  have := r.ctl.pred.isLt
  have := r.ctl.stall.isLt
  have := r.ctl.loc.isLt
  simp only [Raw.toWord, Ctl.toNat, BitVec.toNat_ofNat]
  omega

theorem encReg_lt {file k n : Nat} (q : Bool) (hf : file < 8) (hn : n < k) (hk : k ≤ 64) : encReg file q n < 0x1000000 := by
  have := bit_le_one q
  simp only [encReg]
  omega

theorem encX_lt (r : XSrc) : encX r < 0x1000000 := encReg_lt r.bang (by decide) r.reg.isLt (by decide)

theorem encXd_lt (d : Fin 64) : encXd d < 0x1000000 := encReg_lt false (by decide) d.isLt (by decide)

theorem encAny_lt (r : AnyReg) : encAny r < 0x1000000 := by
  cases r with
  | x d => exact encXd_lt d
  | v d => exact encReg_lt false (by decide) d.isLt (by decide)
  | p d => exact encReg_lt false (by decide) d.isLt (by decide)

theorem encXI_lt (a : XI) : encXI a < 0x1000000 := by
  cases a with
  | x r => exact encX_lt r
  | i k =>
    have := k.isLt
    simp only [encXI, encI]
    omega

theorem encM_lt (m : MemOp) : encM m < 0x1000000 := by
  have hmode : m.mode.code < 4 := by
    cases m.mode
    all_goals decide
  have := m.base.isLt
  have := m.disp.isLt
  simp only [encM]
  omega

theorem fnW_lt (w : Width) : fnW w 0 < 16 := by
  cases w
  all_goals decide

theorem BwDir.code_lt (d : BwDir) : d.code < 16 := by
  cases d
  all_goals decide

theorem NbScope.code_lt (n : NbScope) : n.code < 16 := by
  cases n
  all_goals decide

theorem bit_lt (b : Bool) : bit b < 16 := by
  cases b
  all_goals decide

theorem index_lt (n : Fin 8) : n.val < 16 := by omega

theorem encSp_lt (sp : Special) : encSp sp < 0x1000000 := by
  cases sp
  all_goals decide

end Sys2Proof

namespace Sys2Proof.Machine

/-! ## Every instruction of a program issues -/

/-- The outcome is an issue under these hints, of this opcode and with this check of privilege. -/
def IssuesWith (op : Nat) (ctl : Ctl) (priv : Context → Bool) (s : State) (o : Out) : Prop :=
  ∃ rd wr body, o = issue op ctl priv rd wr s body

/-- The instruction issues under these hints, with the check of privilege that is its own. -/
def Issues (i : Instr) (ctl : Ctl) (s : State) : Prop := ∃ op, IssuesWith op ctl (privilegedFor i) s (exec i s)

section Shapes

variable {op : Nat} {ctl : Ctl} {s : State}

theorem issuesWith_issue {priv : Context → Bool} {rd : List Src} {wr : List AnyReg} {body : Nat → Context → State → Res} :
    IssuesWith op ctl priv s (issue op ctl priv rd wr s body) := ⟨rd, wr, body, rfl⟩

theorem issuesWith_shortOp {w d a b f} : IssuesWith op ctl noPriv s (shortOp op ctl w d a b f s) := issuesWith_issue

theorem issuesWith_longOp {w d a b f} : IssuesWith op ctl noPriv s (longOp op ctl w d a b f s) := issuesWith_issue

theorem issuesWith_unaryOp {w d a f} : IssuesWith op ctl noPriv s (unaryOp op ctl w d a f s) := issuesWith_issue

theorem issuesWith_fLong2 {t d a b f} : IssuesWith op ctl noPriv s (fLong2 op ctl t d a b f s) := issuesWith_issue

theorem issuesWith_fLong1 {t d a f} : IssuesWith op ctl noPriv s (fLong1 op ctl t d a f s) := issuesWith_issue

theorem issuesWith_fShort2 {t d a b f} : IssuesWith op ctl noPriv s (fShort2 op ctl t d a b f s) := issuesWith_issue

theorem issuesWith_vec1 {d a f} : IssuesWith op ctl noPriv s (vec1 op ctl d a f s) := issuesWith_issue

theorem issuesWith_vec2 {t d a b f} : IssuesWith op ctl noPriv s (vec2 op ctl t d a b f s) := issuesWith_issue

theorem issuesWith_vecApprox {d a f} : IssuesWith op ctl noPriv s (vecApprox op ctl d a f s) := issuesWith_vec1

theorem issuesWith_vcvt {t d a k} : IssuesWith 0x8E ctl noPriv s (execVcvt ctl t d a k s) := by
  unfold execVcvt
  exact issuesWith_issue

theorem issuesWith_vqnt {t d a k} : IssuesWith 0x9A ctl noPriv s (execVqnt ctl t d a k s) := by
  unfold execVqnt
  exact issuesWith_issue

theorem issuesWith_vdqnt {t d a k} : IssuesWith 0x9B ctl noPriv s (execVdqnt ctl t d a k s) := by
  unfold execVdqnt
  exact issuesWith_issue

theorem issuesWith_loadOp {n mode d m} : IssuesWith op ctl noPriv s (loadOp op ctl n mode d m s) := issuesWith_issue

theorem issuesWith_lineOp {m k} : IssuesWith op ctl noPriv s (lineOp op ctl m k s) := issuesWith_issue

theorem issuesWith_invl {icache m} : IssuesWith 0x48 ctl noPriv s (execInvl ctl icache m s) := by
  rw [execInvl]
  split
  · exact issuesWith_issue
  · exact issuesWith_lineOp

theorem issuesWith_poolOp {observes xs m len} : IssuesWith op ctl noPriv s (poolOp op ctl observes xs m len s) :=
  issuesWith_issue

theorem issuesWith_atomInstr {w d more m b f} : IssuesWith op ctl noPriv s (atomInstr op ctl w d more m b f s) :=
  issuesWith_issue

theorem issuesWith_loadStage {second xs m xl} : IssuesWith op ctl noPriv s (loadStage op ctl second xs m xl s) :=
  issuesWith_issue

theorem issuesWith_matPlain {xs more f} : IssuesWith op ctl noPriv s (matPlain op ctl xs more f s) := issuesWith_issue

theorem issuesWith_pmov {v} : IssuesWith 0x2D ctl noPriv s (execPmov ctl v s) := by
  unfold execPmov
  split
  · exact issuesWith_issue
  · exact issuesWith_issue

theorem issuesWith_swrite {sp a} : IssuesWith 0x2F ctl (swritePriv sp) s (execSwrite ctl sp a s) := issuesWith_issue

end Shapes

theorem privilegedFor_swrite (ctl : Ctl) (sp : Special) (a : XI) : privilegedFor (.swrite ctl sp a) = swritePriv sp := by
  funext c
  cases sp
  all_goals rfl

/-- Every instruction of a program issues, under the hints of its word: one case for each of the shapes above. -/
theorem issues_of_hints {i : Instr} {ctl : Ctl} {loc : LocRule} (h : i.hints = some (ctl, loc)) (s : State) :
    Issues i ctl s := by
  cases i
  case add | sub | and | or | xor | andn | shl | shr | sar | rol | min | max | addc =>
    cases h
    exact ⟨_, by unfold exec; exact issuesWith_shortOp⟩
  case mul | mulh | div | rem =>
    cases h
    exact ⟨_, by unfold exec; exact issuesWith_longOp⟩
  case clz | popc | abs | bswap =>
    cases h
    exact ⟨_, by unfold exec; exact issuesWith_unaryOp⟩
  case fadd | fsub | fmul | fdiv =>
    cases h
    exact ⟨_, by unfold exec; exact issuesWith_fLong2⟩
  case fsqrt | frnd =>
    cases h
    exact ⟨_, by unfold exec; exact issuesWith_fLong1⟩
  case fmin | fmax | fcmp =>
    cases h
    exact ⟨_, by unfold exec; exact issuesWith_fShort2⟩
  case ld | ldv =>
    cases h
    exact ⟨_, by unfold exec; exact issuesWith_loadOp⟩
  case wbl =>
    cases h
    exact ⟨_, by unfold exec; exact issuesWith_lineOp⟩
  case invl =>
    cases h
    exact ⟨_, by unfold exec; exact issuesWith_invl⟩
  case pmov =>
    cases h
    exact ⟨_, by unfold exec; exact issuesWith_pmov⟩
  case aadd | aand | aor | axor | amin | amax | aswp | acas | afadd =>
    cases h
    exact ⟨_, by unfold exec; exact issuesWith_atomInstr⟩
  case mlda | mldb =>
    cases h
    exact ⟨_, by unfold exec; exact issuesWith_loadStage⟩
  case mma | mring | mzero | mclose | mstat | mrcfg =>
    cases h
    exact ⟨_, by unfold exec; exact issuesWith_matPlain⟩
  case publish | observe =>
    cases h
    exact ⟨_, by unfold exec; exact issuesWith_poolOp⟩
  case vadd | vsub | vmul | vmin | vmax | vcmp | vand | vor | vxor | vshl | vshr =>
    cases h
    exact ⟨_, by unfold exec; exact issuesWith_vec2⟩
  case vabs | vred | vscan | vamax | vmov =>
    cases h
    exact ⟨_, by unfold exec; exact issuesWith_vec1⟩
  case vrcpa | vrsqa | vexp2a | vlog2a =>
    cases h
    exact ⟨_, by unfold exec; exact issuesWith_vecApprox⟩
  case vcvt =>
    cases h
    exact ⟨_, by unfold exec; exact issuesWith_vcvt⟩
  case vqnt =>
    cases h
    exact ⟨_, by unfold exec; exact issuesWith_vqnt⟩
  case vdqnt =>
    cases h
    exact ⟨_, by unfold exec; exact issuesWith_vdqnt⟩
  case st | stv | feset | feget | pref | fence | chpri | task | launch | nop | bra | bri | call | ret | loop | brf |
      trap | tfence | red | wakea | phnew | phreg | phdrop | phsig | phfree | bwarr | cpy | cpyi | cpstg | cpabt |
      vwreg | vwdrop | vwclr | vwld | vwsync | vwgen | quant | bcancel | bstat | msta | dbgbrk | done | ffma | fcvt |
      fclass | bext | bins | sel | mov | movi | lea | cmp | plog | sread | map | grant | unmap | probe | space |
      retiresp | movepg | vfma | vsel | vperm | vbcast | vsplat | vextr | vdot | suspend | yield | waitr | spawn |
      waita | phwait | phnext | bwwait | nbarr | bsend | bpost | evid | tret | chmask =>
    cases h
    exact ⟨_, by unfold exec; exact issuesWith_issue⟩
  case send pay | sendh pay =>
    cases pay
    all_goals
      cases h
      exact ⟨_, by unfold exec; exact issuesWith_issue⟩
  case swrite =>
    cases h
    exact ⟨_, by rw [exec_swrite, privilegedFor_swrite]; exact issuesWith_swrite⟩
  all_goals cases h

/-! ## What comes before an instruction's own effect (R37, R40) -/

section Before

variable {op : Nat} {ctl : Ctl} {priv : Context → Bool} {s : State} {c : Context} {o : Out}
  (hi : IssuesWith op ctl priv s o) (hc : s.ctx? s.issuing = some c)
include hi hc

theorem IssuesWith.privileged (hp : priv c = true) : o = .next (s.takeFault s.issuing op causePrivileged 0 c.pc) := by
  obtain ⟨rd, wr, body, rfl⟩ := hi
  exact issue_privileged hc hp

theorem IssuesWith.emptyGuard (hp : priv c = false) (hg : c.isFull (.p ctl.pred) = false) :
    o = .next (s.blocked s.issuing .reg) := by
  obtain ⟨rd, wr, body, rfl⟩ := hi
  simp only [issue, hc, hp, hg, Bool.false_eq_true, if_false, Bool.not_false, if_true]

theorem IssuesWith.falseGuard (hp : priv c = false) (hg : c.isFull (.p ctl.pred) = true) (hf : guardTrue ctl c = false) :
    o = .next ((s.movedOn s.issuing).retired s.issuing ctl c.pc [] []) := by
  obtain ⟨rd, wr, body, rfl⟩ := hi
  simp only [issue, hc, hp, hg, hf, Bool.false_eq_true, if_false, Bool.not_true, Bool.not_false, if_true]

end Before

/-- A context retired with no effect but moving on. -/
theorem State.issuedTo_movedOn {s : State} {c : Context} {uid : Nat} (ctl : Ctl) (hc : s.ctx? uid = some c)
    (hs : c.slot.isSome = true) :
    s.issuedTo uid ctl c.pc { c with pc := succPc c.pc } ((s.movedOn uid).retired uid ctl c.pc [] []) := by
  obtain ⟨hrest, hothers, ⟨c', hc', hissued⟩, hcores⟩ :=
    State.issuedTo_modCtx Context.movedOn (State.issuedTo_retired ctl c.pc [] [] (State.movedOn_ctx hc) hs)
  exact ⟨hrest, hothers, ⟨c', hc', Context.issuedFrom_marks hissued rfl⟩, hcores⟩

/-- An instruction that its context may not execute faults with the opcode of its word. -/
theorem takesFault_of_privileged {i : Instr} {ctl : Ctl} {s : State} {c : Context} {r : Raw} {w : IWord}
    (hc : s.ctx? s.issuing = some c) (hp : privilegedFor i c = true)
    (hi : IssuesWith r.op ctl (privilegedFor i) s (exec i s)) (hr : r.Fits) (he : some r.toWord = some w) :
    exec i s = .next (s.takeFault s.issuing (w.toNat / 2 ^ 88) causePrivileged 0 c.pc) := by
  cases he
  rw [hi.privileged hc hp, Raw.opcode_toWord hr]

/-- The instructions that a context may be barred from: every other has no check of privilege. -/
theorem exec_of_privileged {i : Instr} {s : State} {c : Context} {w : IWord} (hc : s.ctx? s.issuing = some c)
    (hp : privilegedFor i c = true) (he : encode i = some w) :
    exec i s = .next (s.takeFault s.issuing (w.toNat / 2 ^ 88) causePrivileged 0 c.pc) := by
  cases i
  case yield | spawn | tret | waitr | phwait | phnext | bsend | evid | bpost | chmask | waita | bwwait | nbarr =>
    refine takesFault_of_privileged hc hp (by unfold exec; exact issuesWith_issue) ?_ he
    simp [Raw.Fits, encX_lt, encXd_lt, encXI_lt, encM_lt, encAny_lt, fnW_lt, BwDir.code_lt, NbScope.code_lt, bit_lt, index_lt]
  case suspend pay =>
    cases pay
    all_goals
      refine takesFault_of_privileged hc hp (by unfold exec; exact issuesWith_issue) ?_ he
      simp [Raw.Fits, encXd_lt, encM_lt]
  case send pay | sendh pay =>
    cases pay
    all_goals
      refine takesFault_of_privileged hc hp (by unfold exec; exact issuesWith_issue) ?_ he
      simp [Raw.Fits, encX_lt, encXd_lt, encXI_lt, encM_lt]
  case swrite sp a =>
    rw [privilegedFor_swrite] at hp
    obtain rfl : sp = .arCause := by
      simp only [swritePriv, Bool.and_eq_true, beq_iff_eq] at hp
      exact hp.1
    refine takesFault_of_privileged hc hp (by rw [exec_swrite]; exact issuesWith_swrite) ?_ he
    simp [Raw.Fits, encXI_lt, encSp_lt]
  all_goals exact absurd hp Bool.false_ne_true

/-- A word that decodes to no instruction faults with its opcode. -/
theorem State.prepareIssue_of_illegal {s u : State} {c : Context} {w : IWord} {e : Bool} {bs : List Byte} {err : DecodeError}
    (hc : s.ctx? s.issuing = some c) (hb : s.boundaryFault c = none) (hf : s.fetch c = .word u w e bs)
    (hd : decode w = .error err) :
    s.prepareIssue = .stop (u.takeFault u.issuing (w.toNat / 2 ^ 88) causeIllegal 0 c.pc) := by
  simp only [State.prepareIssue, State.prepare, hc, hb, hf, hd]

/-- Settles O48: every instruction of a program issues, and its issue looks at the privilege, then at the guard. -/
theorem guard : Obligations.Guard := by
  unfold Obligations.Guard
  intro s c hc
  refine ⟨fun i ctl loc hi hp => ?hinted, ⟨rfl, rfl⟩, fun ctl hpred => ?pred0, fun i w hp he => exec_of_privileged hc hp he,
    fun u w e bs err hb hf hd => ?illegal⟩
  case hinted =>
    obtain ⟨op, hissue⟩ := issues_of_hints hi s
    exact ⟨hissue.emptyGuard hc hp, fun hs hg hf => ⟨_, hissue.falseGuard hc hp hg hf, State.issuedTo_movedOn ctl hc hs⟩⟩
  case pred0 =>
    rw [guardTrue, hpred]
    exact Bool.true_bne ctl.neg
  case illegal => rw [runIssued, State.prepareIssue_of_illegal hc hb hf hd]

end Sys2Proof.Machine
end

section
/-! Proofs that every step answers a next state, and O58. -/

namespace Sys2Proof.Machine

/-! ## Outcomes that are a next state -/

/-- The outcome is a next state. -/
def Answers (o : Out) : Prop := ∃ t, o = .next t

theorem answers_next {t : State} : Answers (.next t) := ⟨t, rfl⟩

theorem answers_spdm {s : State} {op r} : Answers (s.spdm op r) := by
  unfold State.spdm
  repeat' split
  all_goals exact answers_next

theorem answers_hostTree {s : State} {op f} : Answers (s.hostTree op f) := by
  unfold State.hostTree
  repeat' split
  all_goals exact answers_next

theorem answers_partCommand {s : State} {op f} : Answers (s.partCommand op f) := by
  unfold State.partCommand
  repeat' split
  all_goals exact answers_next

theorem answers_systemWrite {s : State} {w f} : Answers (s.systemWrite w f) := by
  unfold State.systemWrite
  repeat' split
  all_goals exact answers_next

/-- No event is refused: every branch of its meaning ends in a next state. The events are taken in the order of the files
that give their meanings, then those that are one state, and those that one command of the host or of a requester shares. -/
theorem exec_event_answers {i : Instr} (h : i.isEvent = true) (s : State) : Answers (exec i s) := by
  cases i
  case issueCycle =>
    simp only [exec_issueCycle, execIssueCycle]
    repeat' split
    all_goals exact answers_next
  case blockRefetch =>
    simp only [exec_blockRefetch, execBlockRefetch]
    repeat' split
    all_goals exact answers_next
  case longProducerFill | poolAckTimeout =>
    simp only [exec_longProducerFill, execLongProducerFill, exec_poolAckTimeout, execPoolAckTimeout]
    repeat' split
    all_goals exact answers_next
  case registerLineFill | writeBackFailure =>
    simp only [exec_registerLineFill, execRegisterLineFill, exec_writeBackFailure, execWriteBackFailure]
    repeat' split
    all_goals exact answers_next
  case messageArrival | messageTimeout | remoteMessageStatus | handlerStart | faultHandlerStart | handlerBudget |
      landingPacketOffer =>
    simp only [exec_messageArrival, execMessageArrival, exec_messageTimeout, execMessageTimeout,
        exec_remoteMessageStatus, execRemoteMessageStatus, exec_handlerStart, execHandlerStart,
        exec_faultHandlerStart, execFaultHandlerStart, exec_handlerBudget, execHandlerBudget, exec_landingPacketOffer,
        execLandingPacketOffer]
    repeat' split
    all_goals exact answers_next
  case continuationPlacement | stealContinuation | continuationReady | taskDependenceMet | taskDependenceRetest |
      taskIssue | taskDoneFill =>
    simp only [exec_continuationPlacement, execContinuationPlacement, exec_stealContinuation, execStealContinuation,
        exec_continuationReady, execContinuationReady, exec_taskDependenceMet, execTaskDependenceMet,
        exec_taskDependenceRetest, execTaskDependenceRetest, exec_taskIssue, execTaskIssue, exec_taskDoneFill,
        execTaskDoneFill]
    repeat' split
    all_goals exact answers_next
  case launchMessage | worldOpen | launchDependencesMet | itemCreation | launchCompletion =>
    simp only [exec_launchMessage, execLaunchMessage, exec_worldOpen, execWorldOpen, exec_launchDependencesMet,
        execLaunchDependencesMet, exec_itemCreation, execItemCreation, exec_launchCompletion, execLaunchCompletion]
    repeat' split
    all_goals exact answers_next
  case handlerTableLeave | teardownReport =>
    simp only [exec_handlerTableLeave, execHandlerTableLeave, exec_teardownReport, execTeardownReport]
    repeat' split
    all_goals exact answers_next
  case cooperativeWindowEnd | preemptDrainComplete =>
    simp only [exec_cooperativeWindowEnd, execCooperativeWindowEnd, exec_preemptDrainComplete,
        execPreemptDrainComplete]
    repeat' split
    all_goals exact answers_next
  case movepgSwitch | badTreeCommand =>
    simp only [exec_movepgSwitch, execMovepgSwitch, exec_badTreeCommand, execBadTreeCommand]
    repeat' split
    all_goals exact answers_next
  case unmapWalkDone =>
    simp only [exec_unmapWalkDone, execUnmapWalkDone]
    repeat' split
    all_goals exact answers_next
  case storeBufferDrain =>
    simp only [exec_storeBufferDrain, execStoreBufferDrain]
    repeat' split
    all_goals exact answers_next
  case retryBackoffExpiry | fabricRequestReceive | fabricAckArrival | fabricResendTimeout | orderedFlagRelease |
      orderedFlagTimeout | parityTopup | crossbarParityError =>
    simp only [exec_retryBackoffExpiry, execRetryBackoffExpiry, exec_fabricRequestReceive, execFabricRequestReceive,
        exec_fabricAckArrival, execFabricAckArrival, exec_fabricResendTimeout, execFabricResendTimeout,
        exec_orderedFlagRelease, execOrderedFlagRelease, exec_orderedFlagTimeout, execOrderedFlagTimeout,
        exec_parityTopup, execParityTopup, exec_crossbarParityError, execCrossbarParityError]
    repeat' split
    all_goals exact answers_next
  case waitaTimeout | monitorWakeNotice =>
    simp only [exec_waitaTimeout, execWaitaTimeout, exec_monitorWakeNotice, execMonitorWakeNotice]
    repeat' split
    all_goals exact answers_next
  case barrierRelease | bwTimeout | nbarrNoticeArrival | nbarrTimeout =>
    simp only [exec_barrierRelease, execBarrierRelease, exec_bwTimeout, execBwTimeout, exec_nbarrNoticeArrival,
        execNbarrNoticeArrival, exec_nbarrTimeout, execNbarrTimeout]
    repeat' split
    all_goals exact answers_next
  case vectorCommandStart =>
    simp only [exec_vectorCommandStart, execVectorCommandStart]
    repeat' split
    all_goals exact answers_next
  case matrixCommandStart | ringTileArrival | ringTimeout =>
    simp only [exec_matrixCommandStart, execMatrixCommandStart, exec_ringTileArrival, execRingTileArrival,
        exec_ringTimeout, execRingTimeout]
    repeat' split
    all_goals exact answers_next
  case copyCommandStart | copyCommandComplete =>
    simp only [exec_copyCommandStart, execCopyCommandStart, exec_copyCommandComplete, execCopyCommandComplete]
    repeat' split
    all_goals exact answers_next
  case rtsArrival | tokenIssue | tokenExpiry | dropNoticeArrival | cancelNoticeArrival =>
    simp only [exec_rtsArrival, execRtsArrival, exec_tokenIssue, execTokenIssue, exec_tokenExpiry, execTokenExpiry,
        exec_dropNoticeArrival, execDropNoticeArrival, exec_cancelNoticeArrival, execCancelNoticeArrival]
    repeat' split
    all_goals exact answers_next
  case recallDeadline =>
    rw [exec_recallDeadline]
    unfold execRecallDeadline
    dsimp only
    repeat' split
    all_goals exact answers_next
  case partitionEntryWrite =>
    rw [exec_partitionEntryWrite]
    unfold execPartitionEntryWrite
    repeat' split
    all_goals exact answers_next
  case debugEntryWrite =>
    rw [exec_debugEntryWrite]
    unfold execDebugEntryWrite
    exact answers_next
  case registerWrite =>
    rw [exec_registerWrite]
    unfold execRegisterWrite
    repeat' split
    all_goals exact answers_next
  case powerCycleComplete =>
    rw [exec_powerCycleComplete]
    unfold execPowerCycleComplete
    dsimp only
    repeat' split
    all_goals exact answers_next
  case scrubComplete =>
    rw [exec_scrubComplete]
    unfold execScrubComplete
    repeat' split
    all_goals exact answers_next
  case badPartitionCommand =>
    rw [exec_badPartitionCommand]
    unfold execBadPartitionCommand
    repeat' split
    all_goals exact answers_next
  case powerOnReset | railFault | thermalReading =>
    simp only [exec_powerOnReset, execPowerOnReset, exec_railFault, execRailFault, exec_thermalReading,
        execThermalReading]
    repeat' split
    all_goals exact answers_next
  case budgetCharge | preemptionRequest | regionResume | restartContinuationCreate | copyPieceWrite | viewRefresh |
      quantService | skipNoticeArrival | flitNakReplay | healthScoreHalving | stompTail | bulkDataArrival |
      launchDoorbell | correctedCodeword | tokenArrival =>
    exact answers_next
  case getVersion | getCapabilities | negotiateAlgorithms | getDigests | getCertificate | challenge | getMeasurements
      | keyExchange | finish | heartbeat | endSession | keyImport | unsupportedSpdmRequest =>
    simp only [exec_getVersion, exec_getCapabilities, exec_negotiateAlgorithms, exec_getDigests, exec_getCertificate,
        exec_challenge, exec_getMeasurements, exec_keyExchange, exec_finish, exec_heartbeat, exec_endSession,
        exec_keyImport, exec_unsupportedSpdmRequest]
    exact answers_spdm
  case hostMap | hostGrant | hostUnmap | hostProbe | hostSpace | hostRetiresp =>
    simp only [exec_hostMap, exec_hostGrant, exec_hostUnmap, exec_hostProbe, exec_hostSpace, exec_hostRetiresp]
    exact answers_hostTree
  case reset | lend | kill | scrub | preempt | resume =>
    simp only [exec_reset, exec_lend, exec_kill, exec_scrub, exec_preempt, exec_resume]
    exact answers_partCommand
  case sleepRequest | wake =>
    simp only [exec_sleepRequest, exec_wake]
    exact answers_systemWrite
  case recoveryReload =>
    rw [exec_recoveryReload]
    unfold execRecoveryReload
    split
    · exact answers_next
    · exact answers_systemWrite
  case send pay | sendh pay =>
    cases pay
    all_goals cases h
  all_goals cases h
  -- RECALL is left, whose constructor bears the name of a tactic's keyword.
  rw [exec_recall]
  exact answers_partCommand

/-! ## Instructions of a program -/

/-- What is neither hinted nor `ILL` is an event. -/
theorem isEvent_of_noHints {i : Instr} (h : i.hints = none) : i.isEvent = true ∨ ∃ bits, i = .ill bits := by
  cases i
  case ill bits => exact .inr ⟨bits, rfl⟩
  case send pay | sendh pay =>
    cases pay
    all_goals cases h
  all_goals cases h
  all_goals exact .inl rfl

/-- The context that the core issues. -/
def State.current (s : State) : Option Context := s.ctx? s.issuing

theorem issue_answers {op : Nat} {ctl : Ctl} {priv : Context → Bool} {rd : List Src} {wr : List AnyReg} {s : State}
    {body : Nat → Context → State → Res} {c : Context} (hc : s.current = some c) :
    Answers (issue op ctl priv rd wr s body) := by
  rw [State.current] at hc
  unfold issue
  rw [hc]
  dsimp only
  repeat' split
  all_goals exact answers_next

/-- Whatever the instruction, an execution answers while a context issues. -/
theorem exec_answers {s : State} {c : Context} (hc : s.current = some c) (i : Instr) : Answers (exec i s) := by
  cases hi : i.hints with
  | some p =>
    obtain ⟨op, rd, wr, body, hissue⟩ := issues_of_hints (ctl := p.1) (loc := p.2) hi s
    rw [hissue]
    exact issue_answers hc
  | none =>
    obtain hevent | ⟨bits, rfl⟩ := isEvent_of_noHints hi
    · exact exec_event_answers hevent s
    · rw [State.current] at hc
      rw [exec_ill, execIll, hc]
      exact answers_next

/-! ## A fetch leaves the issuing context in place (R30) -/

theorem State.foldl_current {α : Type} {f : State → α → State} {l : List α} {s : State}
    (hf : ∀ t x, (f t x).current = t.current) : (l.foldl f s).current = s.current := by
  induction l generalizing s with
  | nil => rfl
  | cons x l ih => exact (ih (s := f s x)).trans (hf s x)

@[simp] theorem State.current_modCore (s : State) (d n : Nat) (f : Core → Core) :
    (s.modCore d n f).current = s.current := rfl

@[simp] theorem State.current_writeBackPool (s : State) (l : Nat) : (s.writeBackPool l).current = s.current := by
  unfold State.writeBackPool
  split
  · rfl
  · rfl

@[simp] theorem State.current_writeLine (s : State) (w a : Nat) (bs : List Byte) :
    (s.writeLine w a bs).current = s.current := by
  simp [State.current, State.ctx?]

@[simp] theorem State.current_discardPool (s : State) (l : Nat) : (s.discardPool l).current = s.current := by
  unfold State.discardPool
  dsimp only
  split
  · exact s.current_writeBackPool l
  · exact (State.current_writeLine ..).trans (s.current_writeBackPool l)

@[simp] theorem State.current_poolRoom (s : State) (l : Nat) : (s.poolRoom l).current = s.current := by
  unfold State.poolRoom
  dsimp only
  repeat' split
  case h_1 => exact State.current_discardPool ..
  all_goals rfl

@[simp] theorem State.current_fetchPool (s : State) (l : Nat) : (s.fetchPool l).current = s.current := by
  unfold State.fetchPool
  split
  · exact State.current_poolRoom ..
  · rfl

@[simp] theorem State.current_checkChunk (s : State) (w a : Nat) (h : Nat × Nat × BitVec 256) :
    (s.checkChunk w a h).current = s.current := by
  unfold State.checkChunk
  split
  · exact State.foldl_current fun _ _ => rfl
  · rfl
  · rfl

/-- What a fetched line's tags do to the line. -/
theorem State.current_poisonIf (s : State) (b : Bool) (l : Nat) : (if b then s.poisonLine l else s).current = s.current := by
  cases b
  · rfl
  · rfl

@[simp] theorem State.current_checkRead (s : State) (w a n : Nat) : (s.checkRead w a n).current = s.current := by
  refine State.foldl_current fun t l => ?_
  have hline : (if (t.fetchPool l).tagBad (l / 64) = true then (t.fetchPool l).poisonLine l else t.fetchPool l).current
      = t.current := (State.current_poisonIf ..).trans (t.current_fetchPool l)
  dsimp only
  split
  · exact t.current_fetchPool l
  split
  · split
    · exact (State.current_checkChunk ..).trans hline
    · exact hline
  · exact hline

@[simp] theorem State.current_icacheRoom (s : State) (d n : Nat) : (s.icacheRoom d n).current = s.current := by
  unfold State.icacheRoom
  split
  · rfl
  · rfl

@[simp] theorem State.current_loadBlock (s : State) (d n key a world : Nat) (again : Bool) :
    (s.loadBlock d n key a world again).current = s.current := by
  simp [State.loadBlock]

theorem State.current_takeBlock {s u : State} {d n key slot blk : Nat} {w : IWord} {e : Bool} {bs : List Byte}
    (h : s.takeBlock d n key slot blk = .word u w e bs) : u.current = s.current := by
  unfold State.takeBlock at h
  repeat' split at h
  all_goals cases h
  all_goals rfl

theorem State.current_fetch {s u : State} {c : Context} {w : IWord} {e : Bool} {bs : List Byte}
    (h : s.fetch c = .word u w e bs) : u.current = s.current := by
  unfold State.fetch at h
  dsimp only at h
  split at h
  next => cases h
  split at h
  next => cases h
  split at h
  next => cases h
  split at h
  next => cases h
  split at h
  next =>
    cases h
    rfl
  split at h
  next => cases h
  next =>
    rw [State.current_takeBlock h]
    split
    · rfl
    · exact State.current_loadBlock ..

/-! ## What is prepared to run has a context (R30, R40, R400) -/

theorem State.current_of_prepare {s t : State} {i : Instr} (h : s.prepare = .run i t) : t.current.isSome = true := by
  unfold State.prepare at h
  split at h
  next => cases h
  next c hc =>
    split at h
    next => cases h
    split at h
    next => cases h
    next => cases h
    next hf =>
      split at h
      next => cases h
      next =>
        cases h
        rw [State.current, State.modCtx_issuing, State.ctx?_modCtx_same _ ((State.current_fetch hf).trans hc)]
        rfl

theorem State.current_draw (s : State) : s.draw.2.current = s.current := rfl

theorem State.current_eDrain (s : State) (d cl r : Nat) : (s.eDrain d cl r).2.current = s.current := by
  unfold State.eDrain
  dsimp only
  repeat' split
  all_goals rfl

theorem State.current_lentFits (s : State) (r key deadline core more : Nat) (cmd : Bool) :
    (s.lentFits r key deadline core more cmd).2.current = s.current := by
  cases cmd
  · exact s.current_eDrain ..
  · exact (State.current_draw _).trans (s.current_eDrain ..)

theorem State.current_of_prepareIssue {s t : State} {i : Instr} (h : s.prepareIssue = .run i t) :
    t.current.isSome = true := by
  unfold State.prepareIssue at h
  split at h
  next => cases h
  next hp =>
    have hcur := State.current_of_prepare hp
    split at h
    next =>
      cases h
      exact hcur
    dsimp only at h
    split at h
    next =>
      cases h
      exact hcur
    split at h
    next =>
      cases h
      exact hcur
    split at h
    next =>
      cases h
      rw [State.current_lentFits]
      exact hcur
    next => cases h

theorem runIssued_answers (s : State) : Answers (runIssued s) := by
  unfold runIssued
  split
  next => exact answers_next
  next hp =>
    obtain ⟨c, hc⟩ := Option.isSome_iff_exists.mp (State.current_of_prepareIssue hp)
    exact exec_answers hc _

/-! ## O58 -/

/-- A core chooses again until an instruction issues or its choices are spent. -/
theorem issueTry_answers (d : DieNo) (c : CoreNo) (n : Nat) (s : State) : Answers (issueTry d c n s) := by
  induction n generalizing s with
  | zero => exact answers_next
  | succ n ih =>
    obtain ⟨t, ht⟩ := exec_event_answers (i := .issueCycle d c) rfl s
    obtain ⟨u, hu⟩ := runIssued_answers t
    rw [issueTry, ht]
    dsimp only
    rw [hu]
    dsimp only
    split
    · exact answers_next
    split
    · exact answers_next
    · exact ih _

theorem perform_answers (a : Action) (s : State) : Answers (perform a s) := by
  unfold perform
  split
  next => exact issueTry_answers ..
  next i _ =>
    split
    next he => exact exec_event_answers he s
    next => exact answers_next
  next => exact answers_next

/-- Settles O58: an issue cycle, an event and an action of the environment each answer a next state. -/
theorem stepTotal : Obligations.StepTotal := by
  unfold Obligations.StepTotal
  intro s
  unfold step
  split
  next => exact perform_answers ..
  next => exact perform_answers ..

end Sys2Proof.Machine
end
